-- ==== Sys2Proof/Word.lean ====
section
/-! DEFINITION. The word types of the Gwesum Syaro: what the manual treats as bits. -/
namespace Sys2Proof

/-- A token's data, a register, an address, an instruction word (R26, R85, R293). -/
abbrev Word := BitVec 64
/-- One byte of memory (R7: bits [7:0] stand at the lowest address). -/
abbrev Byte := BitVec 8
/-- A 10-bit target field (R301). -/
abbrev Tgt := BitVec 10
/-- One 128-bit beat of a message (R182). -/
abbrev Beat := BitVec 128

end Sys2Proof
end

