-- ==== Sys2Proof/Syntax.lean ====
section
/-! DEFINITION. The abstract syntax: one constructor per row of the opcode table. Instruction rows
carry the fields of their format (R295–R300); event rows carry what the event needs to be told. -/
namespace Sys2Proof

/-- Format A (R295). `ty` is MOD[4:2], `md` is MOD[1:0]. -/
structure AFmt where
  pr : BitVec 2
  i : Bool
  ty : BitVec 3
  md : BitVec 2
  t0 : Tgt
  t1 : Tgt
  imm : BitVec 28
  deriving DecidableEq, Repr

/-- Format F (R297). -/
structure FFmt where
  pr : BitVec 2
  t0 : Tgt
  t1 : Tgt
  t2 : Tgt
  t3 : Tgt
  deriving DecidableEq, Repr

/-- Format M (R298). -/
structure MFmt where
  pr : BitVec 2
  i : Bool
  sf : BitVec 4
  ord : Bool
  t0 : Tgt
  pred : BitVec 6
  own : BitVec 6
  succ : BitVec 6
  imm : BitVec 20
  deriving DecidableEq, Repr

/-- Format X (R300). -/
structure XFmt where
  pr : BitVec 2
  ex : BitVec 3
  md : BitVec 3
  t0 : Tgt
  off : BitVec 38
  deriving DecidableEq, Repr

/-- Format E (R300). -/
structure EFmt where
  pr : BitVec 2
  i : Bool
  md : BitVec 3
  ck : BitVec 2
  q : BitVec 4
  push : BitVec 6
  t0 : Tgt
  pop : BitVec 6
  hnd : BitVec 4
  arg : BitVec 18
  deriving DecidableEq, Repr

/-- Format S (R300). -/
structure SFmt where
  pr : BitVec 2
  md : BitVec 6
  t0 : Tgt
  sr : BitVec 12
  imm : BitVec 26
  deriving DecidableEq, Repr

/-- An engine queue EQ of a bay, or a link queue LQ of a partition (R181). -/
structure QRef where
  lq : Bool
  home : Nat
  q : Nat
  deriving DecidableEq, Repr

/-- What the remote side answers to an xsend or xget (R412): the fault code of a refused access, or
the bytes read (empty for a put). -/
structure XReply where
  code : BitVec 8
  bytes : List Byte
  deriving DecidableEq, Repr

/-- The place of an access of the hypervisor's window, and its size in bytes (R462). -/
structure WindowPlace where
  off : Nat
  size : Nat
  deriving DecidableEq, Repr

/-- What follows the header of an ordered packet (R202); `bar`: of a pod barrier's control flit, the channel and the count
(R209). -/
structure OrdBody where
  bytes : List Byte
  bar : Option (Nat × Nat)
  deriving DecidableEq, Repr

/-- The contribution of a member to a collective, as its messages bring it (R409); `key` holds STAMP, SPORT and SEQ of the
packets of an ordered one. -/
structure Contribution where
  member : Nat
  nm : Nat
  op : Nat
  red : Nat
  ordf : Bool
  count : Nat
  sf : Nat
  key : Nat × Nat × Nat
  elems : List Word
  deriving DecidableEq, Repr

/-- What a collective's event brings (R409): the contributions of the other members, and the ports by which the own packets
leave. -/
structure CollInput where
  others : List Contribution
  routes : List Nat
  deriving DecidableEq, Repr

/-- What a port hears from its partner during training (R466, R467): `trip` is the round trip of the timestamps, and `turnaround`
what the partner reports of its own, in ticks. -/
structure TrainInfo where
  ok : Bool
  badLane : Option Nat
  trip : Nat
  turnaround : Nat
  report : Option (Nat × Nat)
  peer : Nat
  deriving DecidableEq, Repr

inductive Instr where
  -- moves (R309–R314)
  | nop
  | read (f : AFmt)
  | mov (f : AFmt)
  | mov4 (f : FFmt)
  | const (f : AFmt)
  | consth (f : AFmt)
  | null (f : AFmt)
  -- integer arithmetic (R315–R317)
  | add (f : AFmt)
  | sub (f : AFmt)
  | mul (f : AFmt)
  | mulh (f : AFmt)
  | mad (f : AFmt)
  | div (f : AFmt)
  | rem (f : AFmt)
  | neg (f : AFmt)
  | abs (f : AFmt)
  | min (f : AFmt)
  | max (f : AFmt)
  -- logic and shifts (R318, R319)
  | and (f : AFmt)
  | or (f : AFmt)
  | xor (f : AFmt)
  | andn (f : AFmt)
  | orn (f : AFmt)
  | not (f : AFmt)
  | shl (f : AFmt)
  | shr (f : AFmt)
  | sha (f : AFmt)
  | rot (f : AFmt)
  -- counts, fields, extension, selection (R320–R322)
  | clz (f : AFmt)
  | ctz (f : AFmt)
  | popc (f : AFmt)
  | brev (f : AFmt)
  | bfx (f : AFmt)
  | bfi (f : AFmt)
  | sel (f : AFmt)
  | sext (f : AFmt)
  | zext (f : AFmt)
  -- address arithmetic (R324–R326)
  | adda (f : AFmt)
  | lea (f : AFmt)
  | alignd (f : AFmt)
  | canon (f : AFmt)
  -- compare and test (R323); `hi` is the second of cmp's two opcodes (R304)
  | cmp (hi : Bool) (f : AFmt)
  | tst (f : AFmt)
  -- floating point (R328–R338)
  | fadd (f : AFmt)
  | fsub (f : AFmt)
  | fmul (f : AFmt)
  | fma (f : AFmt)
  | fmin (f : AFmt)
  | fmax (f : AFmt)
  | fabs (f : AFmt)
  | fneg (f : AFmt)
  | fcpsgn (f : AFmt)
  | fdiv (f : AFmt)
  | fsqrt (f : AFmt)
  | frcp (f : AFmt)
  | frsq (f : AFmt)
  | fexp2 (f : AFmt)
  | flog2 (f : AFmt)
  | ftanh (f : AFmt)
  | fround (f : AFmt)
  | fclass (f : AFmt)
  | fcmp (hi : Bool) (f : AFmt)
  | fdot2 (f : AFmt)
  -- conversion (R339–R344)
  | cvtfi (f : AFmt)
  | cvtif (f : AFmt)
  | fcvt (f : AFmt)
  | fwid (f : AFmt)
  | pack2 (f : AFmt)
  | unpack (f : AFmt)
  -- dataflow (R347–R368)
  | steer (f : AFmt)
  | mergeU (f : AFmt)
  | mergeO (f : AFmt)
  | gate (f : AFmt)
  | join (f : AFmt)
  | red (f : AFmt)
  | wadv (f : AFmt)
  | wreset (f : AFmt)
  | kbound (f : AFmt)
  | eos (f : AFmt)
  | eosq (f : AFmt)
  | exit (f : XFmt)
  | exitg (f : XFmt)
  | call (f : XFmt)
  | ret (f : AFmt)
  | spawn (f : XFmt)
  | joinc (f : AFmt)
  | gcall (f : XFmt)
  | gret (f : AFmt)
  | cfgreq (f : XFmt)
  | cfgrel (f : AFmt)
  | cfgtok (f : AFmt)
  | drain (f : AFmt)
  -- soft tokens (R417–R430)
  | sklat (f : AFmt)
  | skmix (f : AFmt)
  | skadd (f : AFmt)
  | sknorm (f : AFmt)
  | skemb (f : AFmt)
  | skpos (f : AFmt)
  | skhash (f : AFmt)
  | skrd (f : AFmt)
  | skclr (f : AFmt)
  | collapseMax (f : AFmt)
  | collapseMix (f : AFmt)
  | collapseCdf (f : AFmt)
  -- memory (R370–R391)
  | ld (f : MFmt)
  | st (f : MFmt)
  | lds (f : MFmt)
  | sts (f : MFmt)
  | ldv (f : MFmt)
  | stv (f : MFmt)
  | reclaim (f : MFmt)
  | stream (f : MFmt)
  | streamKvBind (f : MFmt)
  | pref (f : MFmt)
  | fence (f : MFmt)
  | qfence (f : MFmt)
  | monitor (f : MFmt)
  | waitm (f : MFmt)
  | amoAdd (f : MFmt)
  | amoAnd (f : MFmt)
  | amoOr (f : MFmt)
  | amoXor (f : MFmt)
  | amoMin (f : MFmt)
  | amoMax (f : MFmt)
  | amoXchg (f : MFmt)
  | amoFadd (f : MFmt)
  | amoFmin (f : MFmt)
  | amoFmax (f : MFmt)
  | cas (f : MFmt)
  | cas2 (f : MFmt)
  -- engine messages (R393–R415)
  | mm (f : EFmt)
  | acczero (f : EFmt)
  | accld (f : EFmt)
  | accst (f : EFmt)
  | copy (f : EFmt)
  | gath (f : EFmt)
  | gathw (f : EFmt)
  | scat (f : EFmt)
  | scatadd (f : EFmt)
  | tblswap (f : EFmt)
  | cbload (f : EFmt)
  | coll (f : EFmt)
  | osend (f : EFmt)
  | orecv (f : EFmt)
  | xsend (f : EFmt)
  | xget (f : EFmt)
  | enghnd (f : EFmt)
  | eng (f : EFmt)
  | qwait (f : EFmt)
  -- barriers, time, energy, system (R431–R446)
  | bar (f : SFmt)
  | bara (f : SFmt)
  | barw (f : SFmt)
  | tnow (f : SFmt)
  | attime (f : SFmt)
  | elease (f : SFmt)
  | equery (f : SFmt)
  | yield (f : SFmt)
  | rdsr (f : SFmt)
  | wrsr (f : SFmt)
  | trap (f : SFmt)
  | brk (f : SFmt)
  | hcall (f : SFmt)
  | fpcset (f : SFmt)
  | ckpt (f : SFmt)
  | event (f : SFmt)
  -- events of the fabric and the front end; `n` names an element of the list the event takes from
  | energyReconciliation (rail : Nat)
  | tokenArrival (n : Nat)
  | collisionRetry (n : Nat)
  | gangIssue (bay cell : Nat)
  | priorityAging (n : Nat)
  | blockFetch (part frame : Nat) (exitNo : Option Nat)
  | blockPlacement (part frame : Nat)
  | blockCommit (part frame : Nat)
  | exitgResume (n : Nat)
  -- regions
  | regionPlacement (n : Nat)
  | regionDrainComplete (bay region : Nat)
  | gcallSettled (bay region : Nat)
  | gretThaw (bay region : Nat)
  -- scheduler, inbox
  | hostLaunchIntake (part : Nat)
  | timedLaunchRelease (part : Nat)
  | launchAdmission (part : Nat)
  | frameReload (part bay : Nat)
  | deferredSpawnAllocation (part bay : Nat)
  | inboxAppend (vf link off : Nat) (bytes : List Byte)
  | hostEngineMessageIntake (part : Nat)
  -- engine commands; `n` bounds the elements performed in this step (R118: writes are progressive)
  | handlerInstallCommand (r : QRef)
  | mmCommand (r : QRef) (n : Nat)
  | acczeroCommand (r : QRef)
  | accldCommand (r : QRef) (n : Nat)
  | accstCommand (r : QRef) (n : Nat)
  | copyCommand (r : QRef) (n : Nat)
  | copySeal (r : QRef)
  | copyOpen (r : QRef)
  | gathCommand (r : QRef) (n : Nat) (replies : List XReply)
  | gathwCommand (r : QRef) (n : Nat) (replies : List XReply)
  | scatCommand (r : QRef) (n : Nat) (replies : List XReply)
  | scataddCommand (r : QRef) (n : Nat) (perm : List Nat) (replies : List XReply)
  | tblswapCommand (r : QRef)
  | cbloadCommand (r : QRef)
  | collCommand (r : QRef) (others : CollInput)
  | osendCommand (r : QRef) (routes : List Nat)
  | orecvCommand (r : QRef)
  | xsendCommand (r : QRef) (reply : XReply)
  | xgetCommand (r : QRef) (reply : XReply)
  | commandRetirement (r : QRef)
  -- interrupts
  | vdResWrite (part : Nat) (v : Bool)
  | functionLevelReset (part : Nat)
  -- memory edge
  | pageWalk (n : Nat)
  | streamElementIssue (bay slot : Nat)
  | accessPlacement (n : Nat)
  | deterministicApply (n : Nat)
  | configEccRecovery (bay region : Nat)
  | checkpointRecovery (bay region : Nat)
  | invalidationSubmit (d : BitVec 256)
  | invalidationDone (n : Nat)
  | waitmTimeout (n : Nat)
  | spuriousWake (n : Nat)
  | yieldExpiry (n : Nat)
  -- faults and pre-emption
  | trapFrameAllocation (part : Nat)
  | hfqRelease (part seq : Nat)
  | hfqAbort (part seq : Nat)
  | preCtlSave (part : Nat)
  | preemptSettled (part : Nat)
  | preCtlRestore (part : Nat)
  | preCtlUnhalt (part : Nat)
  -- partitions and resize
  | partitionCreate (part : Nat)
  | partitionDestroy (part : Nat)
  | partitionEntryWrite (part off : Nat) (v : Word)
  | resizeGo (part : Nat) (v : Word)
  | resizeMigrate (part : Nat) (order : List Nat)
  | resizeSliceRehash (part : Nat)
  | resizeChannelRehash (part : Nat)
  | resizeScrub (part : Nat)
  | resizeComplete (part : Nat)
  | windowRegisterWrite (off : WindowPlace) (v : Word)
  -- counters
  | watchdogHit (part : Nat) (region : Bool) (a b : Nat)
  | podTimeTick
  -- ordered class and link
  | beaconSend (port : Nat)
  | beaconReceive (port : Nat) (hdr : BitVec 256)
  | ordPacketArrival (port : Nat) (hdr : BitVec 256) (payload : OrdBody)
  | orderedHoldMove (part : Nat)
  | fWmstall
  | trainingRetry (port : Nat)
  | quiesceRequest (force : Bool)
  | flitReceive (port : Nat) (flit : List Byte)
  | flitReplay (port fseq : Nat)
  | laneSpare (port lane : Nat)
  | portTraining (port : Nat) (info : TrainInfo)
  | leaveFlit (port : Nat)
  -- management, bring-up, host
  | trootWrite (v : Bool)
  | quiesceAbort
  | firmwareUpdate (image : List Byte)
  | attReq (nonce : Word)
  | bringUpPhase (ok : Bool) (failed : BitVec 256)
  | pcieLinkDown (link : Nat)
  | hostBar2Access (part gpa : Nat) (size : Nat) (write : Option (List Byte))
  | remoteAccess (part : Nat) (va : Word) (size : Nat) (write : Option (List Byte))
  | keySlotWrite (part k : Nat) (v : Word)
  | ordExclWrite (v : Word)
  | pkgPcapWrite (v : Nat)
  | packageReset
  | bayHeldCalendarPeriod
  deriving DecidableEq, Repr

end Sys2Proof
end

