-- ==== Sys2Proof/Machine/Fields.lean ====
section
/-! DEFINITION. Bit fields, sign extension and byte order: R7 and the helpers of R307. -/
namespace Sys2Proof.Machine

/-- 2^k, as a shift. -/
def pow2 (k : Nat) : Nat := Nat.shiftLeft 1 k

/-- The `len` bits of `x` from bit `lo` upwards, as a number. -/
def nbits (x lo len : Nat) : Nat := Nat.shiftRight x lo % pow2 len

/-- Bits of a bit vector, as a number (R7: bit 0 is the least significant). -/
def fld {n : Nat} (x : BitVec n) (lo len : Nat) : Nat := nbits x.toNat lo len

/-- Bit `k` of a bit vector. -/
def bitAt {n : Nat} (x : BitVec n) (k : Nat) : Bool := x.getLsbD k

/-- `x` read as a signed `n`-bit value (R307's sext, before it is placed in 64 bits). -/
def signed (x n : Nat) : Int :=
  let v := x % pow2 n
  if n = 0 then 0 else if v < pow2 (n - 1) then (v : Int) else (v : Int) - (pow2 n : Int)

/-- wrap(v, n) of R307: v modulo 2^n. -/
def wrapNat (v : Int) (n : Nat) : Nat := (v % (pow2 n : Int)).toNat

/-- sat(v, lo, hi) of R307. -/
def sat (v lo hi : Int) : Int := if v < lo then lo else if v > hi then hi else v

/-- The little-endian bytes of a number, `n` of them (R7). -/
def toBytes : Nat → Nat → List Byte
  | 0, _ => []
  | n + 1, v => BitVec.ofNat 8 v :: toBytes n (v / 256)

/-- The number whose little-endian bytes are given (R7). -/
def ofBytes : List Byte → Nat
  | [] => 0
  | b :: bs => b.toNat + 256 * ofBytes bs

/-- A value with the field of `len` bits at `lo` replaced by `v`. -/
def putFld (x lo len v : Nat) : Nat :=
  x - Nat.shiftLeft (nbits x lo len) lo + Nat.shiftLeft (v % pow2 len) lo

/-- Round `n` up to a multiple of `m`. -/
def roundUp (n m : Nat) : Nat := (n + m - 1) / m * m

/-- The null target 0x3FF (R301). -/
def nullT : Tgt := 0x3FF

/-- A target value that R301 assigns: a slot or route, a general register, a soft register, an entry, or null. -/
def tgtAssigned (t : Tgt) : Bool :=
  !bitAt t 9 || fld t 6 4 == 0b1000 || fld t 3 7 == 0b1001000 || fld t 6 4 == 0b1010 || t == nullT

/-- A soft-register target or null (R311). -/
def tgtSoftOrNull (t : Tgt) : Bool := fld t 3 7 == 0b1001000 || t == nullT

/-- A soft-register target. -/
def tgtSoft (t : Tgt) : Bool := fld t 3 7 == 0b1001000

end Sys2Proof.Machine
end

