-- ==== Sys2Proof/Machine/Float.lean ====
section
/-! DEFINITION. The floating formats of R56 and their arithmetic: exact values, one rounding (R69), NaNs
(R70), overflow policy (R72), and the operations of R330–R344. A result is a pair of bits and flags. -/
namespace Sys2Proof.Machine

/-- A format: exponent bits and fraction bits (R56). -/
structure Fmt where
  eb : Nat
  fb : Nat
  deriving DecidableEq, Repr

def f32 : Fmt := ⟨8, 23⟩
def bf16 : Fmt := ⟨8, 7⟩
def f16 : Fmt := ⟨5, 10⟩

/-- Flags of R64, as a number whose bits stand as FSTAT's. -/
def fNV : Nat := 1
def fDZ : Nat := 2
def fOF : Nat := 4
def fUF : Nat := 8
def fNX : Nat := 16
def fCV : Nat := 32
def fDN : Nat := 64

/-- Combine flags. -/
def orF (a b : Nat) : Nat := Nat.lor a b

/-- Flags when a condition holds. -/
def whenF (c : Bool) (f : Nat) : Nat := if c then f else 0

namespace Fmt

/-- The width of a format. -/
def width (f : Fmt) : Nat := 1 + f.eb + f.fb
/-- The exponent bias. -/
def bias (f : Fmt) : Nat := pow2 (f.eb - 1) - 1
/-- The smallest normal exponent. -/
def emin (f : Fmt) : Int := 1 - (f.bias : Int)
/-- All exponent bits set. -/
def emax (f : Fmt) : Nat := pow2 f.eb - 1
/-- The sign bit set when `s`. -/
def signed (f : Fmt) (s : Bool) (x : Nat) : Nat := if s then x + pow2 (f.eb + f.fb) else x
/-- Infinity. -/
def inf (f : Fmt) (s : Bool) : Nat := f.signed s (f.emax * pow2 f.fb)
/-- The largest finite value. -/
def maxFin (f : Fmt) (s : Bool) : Nat := f.signed s (f.emax * pow2 f.fb - 1)
/-- The canonical NaN (R70). -/
def qnan (f : Fmt) : Nat := f.emax * pow2 f.fb + pow2 (f.fb - 1)
/-- The sign bit of a pattern. -/
def sign (f : Fmt) (x : Nat) : Bool := nbits x (f.eb + f.fb) 1 == 1
/-- The exponent field. -/
def expo (f : Fmt) (x : Nat) : Nat := nbits x f.fb f.eb
/-- The fraction field. -/
def frac (f : Fmt) (x : Nat) : Nat := nbits x 0 f.fb
def isNan (f : Fmt) (x : Nat) : Bool := f.expo x == f.emax && f.frac x != 0
/-- A signalling NaN: its quiet bit is clear. -/
def isSnan (f : Fmt) (x : Nat) : Bool := f.isNan x && nbits x (f.fb - 1) 1 == 0
def isInf (f : Fmt) (x : Nat) : Bool := f.expo x == f.emax && f.frac x == 0
def isZero (f : Fmt) (x : Nat) : Bool := f.expo x == 0 && f.frac x == 0
def isSub (f : Fmt) (x : Nat) : Bool := f.expo x == 0 && f.frac x != 0
def isFin (f : Fmt) (x : Nat) : Bool := f.expo x != f.emax
/-- The significand of a finite value: the value is ± significand × 2^ex. -/
def sig (f : Fmt) (x : Nat) : Nat := if f.expo x == 0 then f.frac x else pow2 f.fb + f.frac x
/-- The exponent of the significand's unit. -/
def ex (f : Fmt) (x : Nat) : Int := (if f.expo x == 0 then 1 else (f.expo x : Int)) - (f.bias : Int) - (f.fb : Int)

end Fmt

/-- An exact value ± m × 2^e; `sticky` says that the true magnitude lies strictly between m and m + 1. -/
structure Dy where
  s : Bool
  m : Nat
  e : Int
  sticky : Bool
  deriving DecidableEq, Repr

/-- Bit length. -/
def bitLen (n : Nat) : Nat := if n == 0 then 0 else Nat.log2 n + 1

/-- Drop k low bits of m under a rounding mode (RM code order of R61); the second part says inexact. -/
def roundOff (mode : Nat) (s : Bool) (m k : Nat) (sticky : Bool) : Nat × Bool :=
  let q := Nat.shiftRight m k
  let r := m - Nat.shiftLeft q k
  let half := if k == 0 then 0 else pow2 (k - 1)
  let inexact := r != 0 || sticky
  let up :=
    if mode == 0 then k != 0 && (decide (half < r) || (r == half && (sticky || q % 2 == 1)))
    else if mode == 1 then false
    else if mode == 2 then s && inexact
    else !s && inexact
  (if up then q + 1 else q, inexact)

/-- What a rounding finds: the value as rounded with an unbounded exponent overflows the format, is tiny,
the bits in the format's own range, and whether they are inexact (R69). -/
structure Rounded where
  ovf : Bool
  tiny : Bool
  bits : Nat
  inexact : Bool
  deriving DecidableEq, Repr

/-- Round an exact value to a format (R69, R72). A value with `sticky` has many more bits than the format. -/
def roundTo (f : Fmt) (mode : Nat) (v : Dy) : Rounded :=
  if v.m == 0 && !v.sticky then ⟨false, false, f.signed v.s 0, false⟩
  else
    -- make the significand long enough to round: scaling by 2 exactly keeps the value
    let pad := f.fb + 3
    let m := if v.sticky then v.m else Nat.shiftLeft v.m pad
    let e : Int := if v.sticky then v.e else v.e - pad
    let len := bitLen m
    let k := len - 1 - f.fb
    let r := roundOff mode v.s m k v.sticky
    let carry := decide (pow2 (f.fb + 1) ≤ r.1)
    let E : Int := e + ((len - 1 : Nat) : Int) + (if carry then 1 else 0)
    let tiny := decide (E < f.emin)
    if decide ((f.bias : Int) < E) then ⟨true, false, f.inf v.s, r.2⟩
    else if tiny then
      let q : Int := f.emin - f.fb
      let sh := (q - e).toNat
      let r2 := roundOff mode v.s m sh v.sticky
      ⟨false, true, f.signed v.s r2.1, r2.2⟩
    else
      let g := if carry then r.1 / 2 else r.1
      ⟨false, false, f.signed v.s ((E + (f.bias : Int)).toNat * pow2 f.fb + (g - pow2 f.fb)), r.2⟩

/-- roundF of R307: the value rounded under a mode, with FTZ, and the flags of R69. -/
def roundF (f : Fmt) (mode : Nat) (ftz : Bool) (v : Dy) : Nat × Nat :=
  let r := roundTo f mode v
  if r.ovf then
    let toInf := mode == 0 || (mode == 2 && v.s) || (mode == 3 && !v.s)
    (if toInf then f.inf v.s else f.maxFin v.s, orF fOF fNX)
  else if r.tiny && ftz then (f.signed v.s 0, orF fUF fNX)
  else (r.bits, orF (whenF r.inexact fNX) (whenF (r.tiny && r.inexact) fUF))

/-- flush(x, ftz) of R307: the value and DN. -/
def flushF (f : Fmt) (ftz : Bool) (x : Nat) : Nat × Nat :=
  if ftz && f.isSub x then (f.signed (f.sign x) 0, fDN) else (x, 0)

/-- The exact value of a finite pattern. -/
def toDy (f : Fmt) (x : Nat) : Dy := ⟨f.sign x, f.sig x, f.ex x, false⟩

/-- The exact sum of two exact values; the sign of an exact zero follows R69. -/
def addDy (mode : Nat) (a b : Dy) : Dy :=
  let e := if a.e ≤ b.e then a.e else b.e
  let am : Int := (Nat.shiftLeft a.m (a.e - e).toNat : Nat)
  let bm : Int := (Nat.shiftLeft b.m (b.e - e).toNat : Nat)
  let t : Int := (if a.s then -am else am) + (if b.s then -bm else bm)
  if t == 0 then ⟨if a.m == 0 && b.m == 0 && a.s == b.s then a.s else mode == 2, 0, 0, false⟩
  else ⟨decide (t < 0), t.natAbs, e, false⟩

/-- The exact product. -/
def mulDy (a b : Dy) : Dy := ⟨a.s != b.s, a.m * b.m, a.e + b.e, false⟩

/-- Add, with the invalid cases of R331 and the NaN rule of R330. -/
def faddF (f : Fmt) (mode : Nat) (ftz : Bool) (x0 y0 : Nat) : Nat × Nat :=
  let x := flushF f ftz x0
  let y := flushF f ftz y0
  let fl := orF (orF x.2 y.2) (whenF (f.isSnan x.1 || f.isSnan y.1) fNV)
  if f.isInf x.1 && f.isInf y.1 && f.sign x.1 != f.sign y.1 then (f.qnan, orF fl fNV)
  else if f.isNan x.1 || f.isNan y.1 then (f.qnan, fl)
  else if f.isInf x.1 then (x.1, fl)
  else if f.isInf y.1 then (y.1, fl)
  else
    let r := roundF f mode ftz (addDy mode (toDy f x.1) (toDy f y.1))
    (r.1, orF fl r.2)

/-- The sign of a pattern inverted, NaN kept. -/
def negBits (f : Fmt) (x : Nat) : Nat := if f.sign x then x - pow2 (f.eb + f.fb) else x + pow2 (f.eb + f.fb)

/-- Subtract: the addends are x and −y (R330). -/
def fsubF (f : Fmt) (mode : Nat) (ftz : Bool) (x y : Nat) : Nat × Nat := faddF f mode ftz x (negBits f y)

/-- Multiply. -/
def fmulF (f : Fmt) (mode : Nat) (ftz : Bool) (x0 y0 : Nat) : Nat × Nat :=
  let x := flushF f ftz x0
  let y := flushF f ftz y0
  let fl := orF (orF x.2 y.2) (whenF (f.isSnan x.1 || f.isSnan y.1) fNV)
  if (f.isZero x.1 && f.isInf y.1) || (f.isInf x.1 && f.isZero y.1) then (f.qnan, orF fl fNV)
  else if f.isNan x.1 || f.isNan y.1 then (f.qnan, fl)
  else if f.isInf x.1 || f.isInf y.1 then (f.inf (f.sign x.1 != f.sign y.1), fl)
  else
    let r := roundF f mode ftz (mulDy (toDy f x.1) (toDy f y.1))
    (r.1, orF fl r.2)

/-- Fused multiply-add (R330, R331). -/
def fmaF (f : Fmt) (mode : Nat) (ftz : Bool) (x0 y0 z0 : Nat) : Nat × Nat :=
  let x := flushF f ftz x0
  let y := flushF f ftz y0
  let z := flushF f ftz z0
  let fl := orF (orF (orF x.2 y.2) z.2) (whenF (f.isSnan x.1 || f.isSnan y.1 || f.isSnan z.1) fNV)
  let ps := f.sign x.1 != f.sign y.1
  let pInf := (f.isInf x.1 || f.isInf y.1) && !f.isNan x.1 && !f.isNan y.1
  if (f.isZero x.1 && f.isInf y.1) || (f.isInf x.1 && f.isZero y.1) then (f.qnan, orF fl fNV)
  else if pInf && f.isInf z.1 && ps != f.sign z.1 then (f.qnan, orF fl fNV)
  else if f.isNan x.1 || f.isNan y.1 || f.isNan z.1 then (f.qnan, fl)
  else if pInf then (f.inf ps, fl)
  else if f.isInf z.1 then (z.1, fl)
  else
    let r := roundF f mode ftz (addDy mode (mulDy (toDy f x.1) (toDy f y.1)) (toDy f z.1))
    (r.1, orF fl r.2)

/-- The exact quotient to 2^-k of its last place, with sticky. -/
def divDy (a b : Dy) : Dy :=
  let k := 64 + bitLen b.m
  let n := Nat.shiftLeft a.m k
  let q := n / Nat.max 1 b.m
  ⟨a.s != b.s, q, a.e - b.e - k, n % Nat.max 1 b.m != 0⟩

/-- Divide (R330, R331, R74). -/
def fdivF (f : Fmt) (mode : Nat) (ftz : Bool) (x0 y0 : Nat) : Nat × Nat :=
  let x := flushF f ftz x0
  let y := flushF f ftz y0
  let fl := orF (orF x.2 y.2) (whenF (f.isSnan x.1 || f.isSnan y.1) fNV)
  let s := f.sign x.1 != f.sign y.1
  if (f.isZero x.1 && f.isZero y.1) || (f.isInf x.1 && f.isInf y.1) then (f.qnan, orF fl fNV)
  else if f.isNan x.1 || f.isNan y.1 then (f.qnan, fl)
  else if f.isInf x.1 then (f.inf s, fl)
  else if f.isInf y.1 then (f.signed s 0, fl)
  else if f.isZero y.1 then (f.inf s, orF fl fDZ)
  else
    let r := roundF f mode ftz (divDy (toDy f x.1) (toDy f y.1))
    (r.1, orF fl r.2)

/-- Bits of the integer square root, by a bit at a time. -/
def isqrtGo (n : Nat) : Nat → Nat → Nat
  | 0, r => r
  | k + 1, r => let t := r + pow2 k; isqrtGo n k (if t * t ≤ n then t else r)

/-- floor(√n). -/
def isqrt (n : Nat) : Nat := isqrtGo n (bitLen n / 2 + 1) 0

/-- The square root of an exact positive value, with sticky. -/
def sqrtDy (a : Dy) : Dy :=
  let odd := a.e % 2 != 0
  let m := Nat.shiftLeft a.m (if odd then 129 else 128)
  let e := (a.e - (if odd then 129 else 128)) / 2
  let r := isqrt m
  ⟨false, r, e, r * r != m⟩

/-- Square root (R330, R331). -/
def fsqrtF (f : Fmt) (mode : Nat) (ftz : Bool) (x0 : Nat) : Nat × Nat :=
  let x := flushF f ftz x0
  let fl := orF x.2 (whenF (f.isSnan x.1) fNV)
  if f.isNan x.1 then (f.qnan, fl)
  else if f.isZero x.1 then (x.1, fl)
  else if f.sign x.1 then (f.qnan, orF fl fNV)
  else if f.isInf x.1 then (x.1, fl)
  else
    let r := roundF f mode ftz (sqrtDy (toDy f x.1))
    (r.1, orF fl r.2)

/-- A total order key: −0 below +0 (R332). -/
def ordKey (f : Fmt) (x : Nat) : Int :=
  let mag : Int := (nbits x 0 (f.eb + f.fb) : Nat)
  if f.sign x then -mag - 1 else mag

/-- fmin and fmax (R332): `hi` takes the higher, `nanForm` the .nan form. -/
def fminmaxF (f : Fmt) (ftz hi nanForm : Bool) (x0 y0 : Nat) : Nat × Nat :=
  let x := flushF f ftz x0
  let y := flushF f ftz y0
  let fl := orF (orF x.2 y.2) (whenF (f.isSnan x.1 || f.isSnan y.1) fNV)
  let nx := f.isNan x.1
  let ny := f.isNan y.1
  if (nx && ny) || (nanForm && (nx || ny)) then (f.qnan, fl)
  else if nx then (y.1, fl)
  else if ny then (x.1, fl)
  else
    let lower := if ordKey f x.1 ≤ ordKey f y.1 then x.1 else y.1
    let higher := if ordKey f x.1 ≤ ordKey f y.1 then y.1 else x.1
    (if hi then higher else lower, fl)

/-- The sign-bit operations (R333). -/
def fabsF (f : Fmt) (x : Nat) : Nat := if f.isNan x then f.qnan else nbits x 0 (f.eb + f.fb)
def fnegF (f : Fmt) (x : Nat) : Nat := if f.isNan x then f.qnan else negBits f x
def fcpsgnF (f : Fmt) (x y : Nat) : Nat := if f.isNan x then f.qnan else f.signed (f.sign y) (nbits x 0 (f.eb + f.fb))

/-- The integer that a mode gives from an exact value (magnitude), and whether it is inexact. -/
def intOf (mode : Nat) (v : Dy) : Nat × Bool :=
  if 0 ≤ v.e then (Nat.shiftLeft v.m v.e.toNat, false) else roundOff mode v.s v.m (-v.e).toNat v.sticky

/-- fround (R335). -/
def froundF (f : Fmt) (mode : Nat) (ftz : Bool) (x0 : Nat) : Nat × Nat :=
  let x := flushF f ftz x0
  let fl := orF x.2 (whenF (f.isSnan x.1) fNV)
  if f.isNan x.1 then (f.qnan, fl)
  else if f.isZero x.1 || f.isInf x.1 then (x.1, fl)
  else
    let n := intOf mode (toDy f x.1)
    ((roundTo f 0 ⟨f.sign x.1, n.1, 0, false⟩).bits, fl)

/-- fclass (R336). -/
def fclassF (f : Fmt) (x : Nat) : Nat :=
  let s := f.sign x
  if f.isSnan x then 0x100 else if f.isNan x then 0x200
  else if f.isInf x then (if s then 0x001 else 0x080)
  else if f.isZero x then (if s then 0x008 else 0x010)
  else if f.isSub x then (if s then 0x004 else 0x020)
  else if s then 0x002 else 0x040

/-- The relation of two patterns (R337). -/
inductive FRel where
  | lt | eq | gt | un
  deriving DecidableEq, Repr

/-- The relation of x to y; −0 equals +0. -/
def frel (f : Fmt) (x y : Nat) : FRel :=
  if f.isNan x || f.isNan y then .un
  else if f.isZero x && f.isZero y then .eq
  else if ordKey f x < ordKey f y then .lt else if ordKey f x == ordKey f y then .eq else .gt

/-- fcmp under a condition number: 0–3 eq, lt, le, un; 4–7 ne, gt, ge, or (R304, R337). -/
def fcmpF (cond : Nat) (ftz : Bool) (x0 y0 : Nat) : Bool × Nat :=
  let x := flushF f32 ftz x0
  let y := flushF f32 ftz y0
  let r := frel f32 x.1 y.1
  let anySnan := f32.isSnan x.1 || f32.isSnan y.1
  let ordered := cond == 1 || cond == 2 || cond == 5 || cond == 6
  let nv := if ordered then r == .un else anySnan
  let v :=
    if cond == 0 then r == .eq else if cond == 1 then r == .lt else if cond == 2 then r == .lt || r == .eq
    else if cond == 3 then r == .un else if cond == 4 then r != .eq else if cond == 5 then r == .gt
    else if cond == 6 then r == .gt || r == .eq else r != .un
  (v, orF (orF x.2 y.2) (whenF nv fNV))

/-- fdot2 (R338) over pairs of format g and an f32 addend. -/
def fdot2F (g : Fmt) (mode : Nat) (ftz : Bool) (a0 a1 b0 b1 c : Nat) : Nat × Nat :=
  let xa := flushF g ftz a0
  let xb := flushF g ftz a1
  let ya := flushF g ftz b0
  let yb := flushF g ftz b1
  let z := flushF f32 ftz c
  let ins := [xa.1, xb.1, ya.1, yb.1]
  let fl := orF (orF (orF xa.2 xb.2) (orF ya.2 yb.2)) (orF z.2 (whenF (ins.any g.isSnan || f32.isSnan z.1) fNV))
  let zi := fun (x y : Nat) => (g.isZero x && g.isInf y) || (g.isInf x && g.isZero y)
  let pi := fun (x y : Nat) => (g.isInf x || g.isInf y) && !g.isNan x && !g.isNan y && !zi x y
  let infs := (if pi xa.1 ya.1 then [g.sign xa.1 != g.sign ya.1] else []) ++
    (if pi xb.1 yb.1 then [g.sign xb.1 != g.sign yb.1] else []) ++ (if f32.isInf z.1 then [f32.sign z.1] else [])
  if zi xa.1 ya.1 || zi xb.1 yb.1 || (infs.contains true && infs.contains false) then (f32.qnan, orF fl fNV)
  else if ins.any g.isNan || f32.isNan z.1 then (f32.qnan, fl)
  else match infs with
    | s :: _ => (f32.inf s, fl)
    | [] =>
      let p0 := mulDy (toDy g xa.1) (toDy g ya.1)
      let p1 := mulDy (toDy g xb.1) (toDy g yb.1)
      let zz := toDy f32 z.1
      let t := addDy mode (addDy 0 p0 p1) zz
      -- the sign of an exact zero is judged over all three terms (R69)
      let zero := p0.m == 0 && p1.m == 0 && zz.m == 0 && p0.s == p1.s && p1.s == zz.s
      let t := if t.m == 0 then { t with s := if zero then zz.s else mode == 2 } else t
      let r := roundF f32 mode ftz t
      (r.1, orF fl r.2)

/-- cvtfi (R340): the integer and the flags, for bounds lo and hi. -/
def cvtfiF (mode : Nat) (ftz : Bool) (lo hi : Int) (x0 : Nat) : Int × Nat :=
  let x := flushF f32 ftz x0
  if f32.isNan x.1 then (0, orF x.2 fNV)
  else if f32.isInf x.1 then (if f32.sign x.1 then lo else hi, orF x.2 fNV)
  else
    let n := intOf mode (toDy f32 x.1)
    let v : Int := if f32.sign x.1 then -(n.1 : Int) else (n.1 : Int)
    if v < lo ∨ hi < v then (sat v lo hi, orF x.2 fNV) else (v, orF x.2 (whenF n.2 fNX))

/-- A conversion result under an overflow policy (R72): none is F_CVTOVF. -/
def underPolicy (g : Fmt) (mode : Nat) (ftz : Bool) (pol : Nat) (v : Dy) : Option (Nat × Nat) :=
  if (roundTo g mode v).ovf then
    if pol == 3 then none
    else some (if pol == 0 then g.maxFin v.s else if pol == 1 then g.inf v.s else g.qnan, orF fCV (orF fOF fNX))
  else some (roundF g mode ftz v)

/-- fcvt and a narrowing store: an f32 value to a narrower format under a policy (R342, R73, R375). -/
def narrowF (g : Fmt) (mode : Nat) (ftz : Bool) (pol x0 : Nat) : Option (Nat × Nat) :=
  let x := flushF f32 ftz x0
  let fl := orF x.2 (whenF (f32.isSnan x.1) fNV)
  if f32.isNan x.1 then some (g.qnan, fl)
  else if f32.isInf x.1 then some (g.inf (f32.sign x.1), fl)
  else (underPolicy g mode ftz pol (toDy f32 x.1)).map fun r => (r.1, orF fl r.2)

/-- cvtif (R341): an integer to a format under a policy. -/
def cvtifF (g : Fmt) (mode pol : Nat) (v : Int) : Option (Nat × Nat) :=
  underPolicy g mode false pol ⟨decide (v < 0), v.natAbs, 0, false⟩

/-- fwid and unpack (R343): an element widened to f32. -/
def widenF (g : Fmt) (ftz : Bool) (x0 : Nat) : Nat × Nat :=
  let x := flushF g ftz x0
  let fl := orF x.2 (whenF (g.isSnan x.1) fNV)
  if g.isNan x.1 then (f32.qnan, fl)
  else if g.isInf x.1 then (f32.inf (g.sign x.1), fl)
  else ((roundTo f32 0 (toDy g x.1)).bits, fl)

/-- The widening of a load (R59): exact, raising nothing, a NaN's payload and quiet bit kept. -/
def loadWiden (g : Fmt) (x : Nat) : Nat :=
  if g.isNan x then f32.signed (g.sign x) (f32.emax * pow2 23 + Nat.shiftLeft (g.frac x) (23 - g.fb))
  else if g.isInf x then f32.inf (g.sign x)
  else (roundTo f32 0 (toDy g x)).bits

/-! ### Special functions (R74, R334): correctly rounded to nearest-even -/

/-- frcp. -/
def frcpF (x : Nat) : Nat × Nat :=
  if f32.isNan x then (f32.qnan, whenF (f32.isSnan x) fNV)
  else if f32.isInf x then (f32.signed (f32.sign x) 0, 0)
  else if f32.isZero x then (f32.inf (f32.sign x), fDZ)
  else roundF f32 0 false (divDy ⟨false, 1, 0, false⟩ (toDy f32 x))

/-- 1/√x of an exact positive value, with sticky. -/
def rsqrtDy (a : Dy) : Dy :=
  let odd := a.e % 2 != 0
  let m := if odd then a.m * 2 else a.m
  let e := if odd then a.e - 1 else a.e
  let r := isqrt (pow2 256 / Nat.max 1 m)
  ⟨false, r, -(e / 2) - 128, r * r * m != pow2 256⟩

/-- frsq. -/
def frsqF (x : Nat) : Nat × Nat :=
  if f32.isNan x then (f32.qnan, whenF (f32.isSnan x) fNV)
  else if f32.isZero x then (f32.inf (f32.sign x), fDZ)
  else if f32.sign x then (f32.qnan, fNV)
  else if f32.isInf x then (0, 0)
  else roundF f32 0 false (rsqrtDy (toDy f32 x))

/-- 2^(f / 2^k) in fixed point with 256 fraction bits, from the bits of f, high to low; `root` is
2^(2^-j) at the bit's place. -/
def exp2Go (f : Nat) : Nat → Nat → Nat → Nat
  | 0, _, acc => acc
  | k + 1, root, acc =>
    let root := isqrt (root * pow2 256)
    exp2Go f k root (if Nat.testBit f k then Nat.shiftRight (acc * root) 256 else acc)

/-- fexp2 (log 12: 256 bits decide the rounding of every binary32 argument). -/
def fexp2F (x : Nat) : Nat × Nat :=
  if f32.isNan x then (f32.qnan, whenF (f32.isSnan x) fNV)
  else if f32.isInf x then (if f32.sign x then 0 else f32.inf false, 0)
  else if f32.isZero x then (roundTo f32 0 ⟨false, 1, 0, false⟩ |>.bits, 0)
  else
    let v := toDy f32 x
    let big := decide ((bitLen v.m : Int) + v.e > 10)
    let small := decide ((bitLen v.m : Int) + v.e < -30)
    if big then
      (if v.s then roundF f32 0 false ⟨false, 1, -400, true⟩ else roundF f32 0 false ⟨false, 1, 400, false⟩)
    else if small then
      roundF f32 0 false (if v.s then ⟨false, pow2 64 - 1, -64, true⟩ else ⟨false, pow2 64, -64, true⟩)
    else
      let k := if v.e < 0 then (-v.e).toNat else 0
      let n : Int := if v.e < 0 then (if v.s then -(v.m : Int) else v.m) else (if v.s then -(v.m * pow2 v.e.toNat : Nat) else (v.m * pow2 v.e.toNat : Nat))
      let whole := n / (pow2 k : Int)
      let fr := (n % (pow2 k : Int)).toNat
      if fr == 0 then roundF f32 0 false ⟨false, 1, whole, false⟩
      else roundF f32 0 false ⟨false, exp2Go fr k (pow2 257) (pow2 256), whole - 256, true⟩

/-- The fraction bits of log2 y, y in [1, 2) with 320 fraction bits, by squaring. -/
def log2Go : Nat → Nat → Nat → Nat
  | 0, _, acc => acc
  | k + 1, y, acc =>
    let y2 := Nat.shiftRight (y * y) 320
    if pow2 321 ≤ y2 then log2Go k (y2 / 2) (2 * acc + 1) else log2Go k y2 (2 * acc)

/-- flog2 (log 12). -/
def flog2F (x : Nat) : Nat × Nat :=
  if f32.isNan x then (f32.qnan, whenF (f32.isSnan x) fNV)
  else if f32.isZero x then (f32.inf true, fDZ)
  else if f32.sign x then (f32.qnan, fNV)
  else if f32.isInf x then (x, 0)
  else
    let v := toDy f32 x
    let len := bitLen v.m
    let n : Int := v.e + ((len - 1 : Nat) : Int)
    if v.m == pow2 (len - 1) then roundF f32 0 false ⟨decide (n < 0), n.natAbs, 0, false⟩
    else
      let t : Int := n * (pow2 150 : Int) + (log2Go 150 (Nat.shiftLeft v.m (320 - (len - 1))) 0 : Nat)
      roundF f32 0 false (if t < 0 then ⟨true, (-t - 1).toNat, -150, true⟩ else ⟨false, t.toNat, -150, true⟩)

/-- Taylor sum of e^y, y with 320 fraction bits and below 1/4: the terms from k on. -/
def expGo (y : Nat) : Nat → Nat → Nat → Nat → Nat
  | 0, _, _, acc => acc
  | n + 1, k, term, acc =>
    let term := Nat.shiftRight (term * y) 320 / k
    expGo y n (k + 1) term (acc + term)

/-- Square n times in fixed point with 320 fraction bits. -/
def sqGo : Nat → Nat → Nat
  | 0, e => e
  | n + 1, e => sqGo n (Nat.shiftRight (e * e) 320)

/-- ftanh (log 12). -/
def ftanhF (x : Nat) : Nat × Nat :=
  if f32.isNan x then (f32.qnan, whenF (f32.isSnan x) fNV)
  else if f32.isZero x then (x, 0)
  else if f32.isInf x then (roundTo f32 0 ⟨f32.sign x, 1, 0, false⟩ |>.bits, 0)
  else
    let v := toDy f32 x
    let mag : Int := (bitLen v.m : Int) + v.e
    if mag > 5 then roundF f32 0 false ⟨v.s, pow2 64 - 1, -64, true⟩
    else if mag < -40 then roundF f32 0 false ⟨v.s, v.m * pow2 64 - 1, v.e - 64, true⟩
    else
      -- y = 2|x| / 2^8, with 320 fraction bits
      let y := if 0 ≤ v.e then Nat.shiftLeft v.m (v.e.toNat + 313) else Nat.shiftRight (Nat.shiftLeft v.m 313) (-v.e).toNat
      let e := sqGo 8 (expGo y 60 1 (pow2 320) (pow2 320))
      roundF f32 0 false ⟨v.s, Nat.shiftLeft (e - pow2 320) 200 / (e + pow2 320), -200, true⟩

end Sys2Proof.Machine
end

