-- ==== Sys2Proof/Config.lean ====
section
/-! DEFINITION. What the part fixes and the manual leaves open: free values, opaque to every proof. -/
namespace Sys2Proof.Config

/-- CT0–CT7, femtojoules per event: "the part's own values, fused at test" (R265, R267). Log 6. -/
opaque costTable : Nat → BitVec 32

/-- A fresh free value, for a result the manual leaves unspecified. Log 20. -/
opaque freeWord : Nat → BitVec 64

/-- What RS(256,244) delivers for a received flit (R463): the corrected bytes, or none when it
cannot correct. The code's generator is not in the manual. Log 15. -/
opaque fecDecode : List Byte → Option (List Byte)

/-- Whether the ROM accepts a firmware image (ECDSA P-521 against a fused key, and the fused
rollback counter, R470). Log 16. -/
opaque firmwareAccepted : List Byte → Bool

/-- The lane that carries a byte of a flit, modulo the eight lanes (R463 does not say). Log 110. -/
opaque laneOf : Nat → Nat

/-- The RS(256,244) symbols that a sender puts behind the first 244 bytes of a flit (R463). Log 15. -/
opaque fecEncode : List Byte → List Byte

/-- The signature of a report with the fused identity key (R470). Log 16. -/
opaque attestationSignature : List Byte → List Byte

/-- What temperature sensor k of the package reads in a cycle (R468). Log 116. -/
opaque temperature : Nat → Nat → Int

/-- The SHA-512 digest of stage k of the firmware that the part was made with (R470). Log 16. -/
opaque stageDigest : Nat → BitVec 512

/-- The port that leads to a package, as the pod is wired; 24 and above stand for none (R206, R410). Log 32. -/
opaque route : Nat → Nat

/-- An output port forwards ORD packets of other packages, as the pod is wired (R206). Log 32. -/
opaque forwards : Nat → Bool

/-- The other packages whose partitions are joined in a pod group (R12, R13). Log 48. -/
opaque podMembers : Nat → List Nat

/-- The bytes that an ordered control flit of a pod barrier carries behind its header, of its channel and its count (R209,
R463). Log 48. -/
opaque barrierBytes : Nat → Nat → List Byte

/-- The channel and the count that such bytes mean; none for a control flit of another use. Log 48. -/
opaque barrierOf : List Byte → Option (Nat × Nat)

/-- The vector of a fault notification to the host (R194). Log 98. -/
opaque faultVector : BitVec 6

/-- The modelled charge, in nanojoules, of the unowned resources that no event of the cost table counts, in a millisecond
(R268). Log 99. -/
opaque unownedCharge : Nat → BitVec 64

/-- The energy of the package's rails in a millisecond, in nanojoules, where no event brings a measurement (R268). Log 99. -/
opaque railEnergy : Nat → BitVec 64

/-- Which way the reconciliation of R268 rounds a difference that lies half way between two nanojoules. Log 33. -/
opaque tieUp : Bool

end Sys2Proof.Config
end

