-- ==== Sys2Proof/Machine/State.lean ====
section
/-! DEFINITION. The state of one package: everything the manual's state cards name, as plain data.
Tables that the manual gives per bay, cell, frame or partition are lists whose items carry their
place; an absent item is at its reset value (free, empty, not present). -/
namespace Sys2Proof.Machine

/-- Sparse bytes: addresses strictly rising, no entry equal to 0, which is what an unlisted address reads as. -/
abbrev Memory := List Host.Cell

/-- The four operand slots of an instruction (R29). -/
inductive Slot where
  | a | b | c | p
  deriving DecidableEq, Repr

/-- Token kinds (R26); 0b11 never arises. -/
inductive Kind where
  | data | eos | null
  deriving DecidableEq, Repr

/-- The tag of R25, without its reserved bit. -/
structure Tag where
  frame : BitVec 20
  wave : BitVec 8
  ctx : BitVec 3
  deriving DecidableEq, Repr

/-- A token (R25, R26) with the wave ordinal that rides beside its tag, the numbers under which kbounds admitted it,
the innermost loop first (R503), and, for a stream's element, the stream whose read-ahead it counts against (R385). -/
structure Token where
  tag : Tag
  kind : Kind
  data : Word
  ord : Nat
  adm : List Nat
  strm : Option Nat
  deriving DecidableEq, Repr

/-- Where a token on a link is bound: a 17-bit destination (R26), the slot of a grid cell that a
route named (R211), or, for the acknowledgement of a child's end, the frame itself (R362, R369). -/
inductive Place where
  | dest (d : BitVec 17)
  | cell (bay cell : Nat) (slot : Slot)
  | ack
  deriving DecidableEq, Repr

/-- A token on a network link (R37). `seq` is the block it belongs to, `sender` the instruction that
sent it (255: none; from 256 on, a cell-context of a grid; from 4096 on, the gcall of one, and from 8192 on, the log of a
region, which is replayed); `cfg` marks the configuration flit of cfgtok (R366). -/
structure Flight where
  part : Nat
  tok : Token
  toward : Place
  seq : Option Nat
  sender : Nat
  cfg : Option (BitVec 2)
  deriving DecidableEq, Repr

/-- An operand of a formed instance. -/
structure Operand where
  kind : Kind
  data : Word
  deriving DecidableEq, Repr

/-- A matched instance of one instruction: its word, its operands, where it stands (R155, R161).
`grid` is the region of a grid instance; a block instance has `seq` and `idx`. `level` is 0 for U and
1–4 for levels 0–3 (R177). `phase` is the entry of the phase table that a grid instance was formed
under (R214). `stage` holds what a waiting instance must remember; `cleared` that the deterministic
edge let its access pass (R150); `ver` the slot of a versioned word that a waiting access has found, with the value that
the stv of its version has brought meanwhile (R382). -/
structure Inst where
  part : Nat
  bay : Nat
  cell : Nat
  ctx : Nat
  tag : Tag
  ord : Nat
  adm : List Nat
  word : Word
  grid : Option Nat
  seq : Nat
  idx : Nat
  a : Option Operand
  b : Option Operand
  c : Option Operand
  p : Option Operand
  level : Nat
  wait : Nat
  phase : Option Nat
  stage : Option Nat
  cleared : Bool
  ver : Option (Nat × Option Word)
  rcd : Option (BitVec 512)
  deriving DecidableEq, Repr

/-- An entry of a cell input queue (R153); `blk` names the block and instruction of a match-mode
block token. -/
structure QEntry where
  part : Nat
  bay : Nat
  cell : Nat
  slot : Slot
  tok : Token
  blk : Option (Nat × Nat)
  sender : Nat
  deriving DecidableEq, Repr

/-- A present slot of a frame row with its slot tag (R154). `blk` is the block sequence, none for a
grid cell-context; `grid` is then the name of the region that the token rests for. -/
structure SlotEntry where
  part : Nat
  frame : Nat
  idx : Nat
  slot : Slot
  blk : Option Nat
  grid : Option (Nat × Nat)
  tok : Token
  deriving DecidableEq, Repr

/-- What a fault record names (R448, R449). -/
structure FaultRec where
  code : BitVec 8
  flags : BitVec 8
  index : Nat
  part : Nat
  pkg : Bool
  bseq : Nat
  tag : BitVec 32
  cell : Nat
  ctx : Nat
  bay : Nat
  region : Nat
  queue : Nat
  fname : Word
  addr : Word
  g4 : Word
  g5 : Word
  aux : Word
  seq : Nat
  actn : Nat
  acti : Nat
  deriving DecidableEq, Repr

/-- What a record's fault stopped, which the handler's choice acts on (R455). -/
inductive Victim where
  | frame (num : Nat)
  | region (bay idx : Nat)
  | engine (r : QRef)
  | access (va : Word)
  | completion (id : Nat)
  | nothing
  deriving DecidableEq, Repr

/-- A fault record with its victim, on its way to a trap frame (R450). `vec` is the TRAP_VEC that a block's write has replaced
since (R91); none while the register's own value is meant. -/
structure TrapItem where
  rcd : FaultRec
  victim : Victim
  vec : Option Word
  deriving DecidableEq, Repr

/-- A handler's choice as committed (R455): ACT, the address in g9, and the 64 words of an edited image. -/
structure Choice where
  act : Nat
  addr : Word
  edit : Option (List Word)
  deriving DecidableEq, Repr

/-- The call link of a frame made by call (R349, R360). -/
structure CallLink where
  frame : BitVec 20
  wave : BitVec 8
  ctx : BitVec 3
  ord : Nat
  seq : Nat
  tgt : Tgt
  deriving DecidableEq, Repr

/-- The monitor arming of a frame (R371): line number, event cause (0: none), and the cycle in which that event came. -/
structure Monitor where
  line : Nat
  cause : Nat
  since : Nat
  deriving DecidableEq, Repr

/-- A frame that is not free (R29–R31, R85, R349). `home` is the bay it was allocated in; `key` names the shelf, the
accumulators, the queues and the tables that it uses: its bay's, or those of a bay that a resize or a pre-emption took away
(R54, R242). `ending` marks a frame whose final block committed while a store of it still waits at the edge (R139, R383).
`fenced` is the first block sequence after the instant at which a spill, a reload or a move stopped or resumed the frame: its
later accesses follow those before (R141). `spurAt` is the cycle of its last spurious wake (R147). `late` is a handler's
choice that stops the frame once it is reloaded (R31, R455), and `host` marks a root that a host message launched (R448). -/
structure Frame where
  part : Nat
  num : Nat
  fname : Word
  resident : Bool
  bay : Nat
  row : Nat
  home : Nat
  key : Nat
  g : List Word
  sk : List (BitVec 512)
  fpc : BitVec 5
  fstat : BitVec 7
  cc : Nat
  jn : Nat
  co : Nat
  link : Option CallLink
  retHold : Option (Nat × Option Word)
  parked : Bool
  mon : Option Monitor
  parent : Option Nat
  isRoot : Bool
  tree : Nat
  pri : Nat
  cont : Word
  entry : Word
  nextSeq : Nat
  nextAddr : Option Word
  trap : Option TrapItem
  resumed : Option Nat
  ending : Bool
  fenced : Option Nat
  spurAt : Option Nat
  fault : Option FaultRec
  late : Option (TrapItem × Choice)
  host : Bool
  progress : Nat
  deriving DecidableEq, Repr

/-- The exit that fired: its index and where it leads (none: park). -/
structure ExitRec where
  index : Nat
  dest : Option Word
  deriving DecidableEq, Repr

/-- A block in flight with its receipts (R33, R34, R41), each with what was received. `places` is empty until placement. `fpc` is
none until an fpcset fires, `some none` when it received a null (R62). -/
structure Block where
  part : Nat
  frame : Nat
  seq : Nat
  addr : Word
  h0 : Word
  h1 : Word
  words : List Word
  places : List (Nat × Nat)
  spec : Bool
  wr : List (Nat × Option Word)
  sk : List (Nat × Option (BitVec 512))
  st : List (Nat × Word)
  exit : Option ExitRec
  flags : BitVec 7
  fpc : Option (Option (BitVec 5))
  wrsrs : List (Nat × Word)
  events : List (Nat × Word)
  ret : Option (Nat × Option Word)
  acts : List Nat
  held : Option FaultRec
  sent : List Nat
  deriving DecidableEq, Repr

/-- What a held store will do when it is performed (R373). -/
inductive StoreOp where
  | mem (pa : Nat) (bytes : List Byte) (cached : Bool)
  | shelf (off : Nat) (bytes : List Byte)
  | stv (pa : Nat) (v : Word)
  | reclaim (pa : Nat) (bound : BitVec 32)
  deriving DecidableEq, Repr

/-- A store held at the memory edge under FRAME and block sequence (R34, R41), after its commit
when `committed` (an stv that waits, R383), or under a checkpointed region (R230): `reply` is then the instance whose T0 is
still to receive its value (R373), and `fenced` says that a fence.ar of its stream follows it (R137). -/
structure Held where
  part : Nat
  bay : Nat
  frame : Nat
  seq : Nat
  own : Nat
  region : Option Nat
  committed : Bool
  op : StoreOp
  reply : Option Inst
  fenced : Bool
  deriving DecidableEq, Repr

/-- A placed access of a chain (R131): of a block, or of one wave of a grid, which the name of its region, the wave's
ordinal and the admissions of kbound tell (R503). -/
structure Placed where
  part : Nat
  frame : Nat
  grid : Option ((Nat × Nat) × Nat)
  chain : Nat
  own : Nat
  succ : Nat
  adm : List Nat
  deriving DecidableEq, Repr

/-- A loop record (R349, R354). -/
structure LoopRec where
  frame : BitVec 20
  e : BitVec 8
  n : Nat
  ord : Nat
  deriving DecidableEq, Repr

/-- The state of a red context (R349, R355). -/
structure RedState where
  frame : Option (BitVec 20)
  last : Option (BitVec 20)
  next : BitVec 8
  acc : Option Word
  buf : List (Nat × Operand)
  deriving DecidableEq, Repr

/-- An active grid cell-context: its words, the protected copy, its constants and the state the
instructions keep in it (R114, R210–R215, R349). -/
structure Ctx where
  bay : Nat
  cell : Nat
  ctx : Nat
  region : Nat
  iw : Word
  rw : Word
  pw : Word
  q : List Word
  copy : List Word
  bad : Bool
  copyBad : Bool
  ph : Nat
  cn : Nat
  pend : Option (Nat × Word × Nat)
  disc : Nat
  loops : List LoopRec
  merges : List (BitVec 20 × BitVec 8)
  red : RedState
  deriving DecidableEq, Repr

/-- An entry-table entry (R215, R219): its number in its bay's table, and the record of its region there. -/
structure EntryRec where
  part : Nat
  bay : Nat
  e : Nat
  region : Nat
  cell : Nat
  slot : Slot
  ctx : Nat
  deriving DecidableEq, Repr

/-- A shadow plane of a whole region: what gcall's push keeps (R225), with the chains of its waves (R131) and the results
that its image sent and that still wait for its own thaw (R228); in the attic or on chip (R227). `held` holds the instances
that had issued and stood at the gate. -/
structure Plane where
  ctxs : List Ctx
  entries : List EntryRec
  queues : List QEntry
  formed : List Inst
  held : List Inst
  flags : BitVec 7
  exits : List Word
  image : Word
  entryBase : Nat
  ne : Nat
  nx : Nat
  caller : Nat × Nat
  attic : Bool
  placed : List Placed
  exitHold : List Flight
  deriving DecidableEq, Repr

/-- What a region is doing besides running (R223–R228, R230, R444). -/
inductive RegPhase where
  | run
  | callGate (i : Inst) (image : Word)
  | retGate (i : Inst)
  | ckptGate
  | eccGate
  deriving DecidableEq, Repr

/-- A checkpoint of a region (R230, R444): its push state as a plane of its own, the planes below it, and the stores that it
let out, whose values T0 received since (R373). -/
structure Ckpt where
  top : Plane
  under : List Plane
  sent : List (Inst × Word)
  deriving DecidableEq, Repr

/-- A placed region (R215). `name` is the bay and the record that its handle names (R220) and its entries are numbered in;
`key` is as in a frame. Both stay when a resize moves the region (R54, R242). A region that waits for a place in the attic
stands in a bay of no package, from 128 on. `faulting` holds the instances that stopped with the region (R447), `faultAt` the
cycle of its first fault (R452), `rank` the key of the cfgreq that placed it and `admNo` the number that its next kbound
admission takes (R503). -/
structure Region where
  part : Nat
  bay : Nat
  idx : Nat
  x0 : Nat
  y0 : Nat
  w : Nat
  h : Nat
  c0 : Nat
  c : Nat
  entryBase : Nat
  ne : Nat
  nx : Nat
  ck : Bool
  image : Word
  sig : BitVec 32
  exits : List Word
  flags : BitVec 7
  closed : Bool
  residue : Nat
  ords : List (BitVec 20 × Nat)
  phase : RegPhase
  fault : Option FaultRec
  faulting : List Inst
  faultAt : Nat
  rank : List Nat
  admNo : Nat
  planes : List Plane
  ckpt : Option Ckpt
  exitHold : List Flight
  entryLog : List Flight
  streams : List Nat
  kvc : List (Nat × Nat)
  key : Nat
  name : Nat × Nat
  progress : Nat
  deriving DecidableEq, Repr

/-- A combined translation held by a bay's TLB (R101, R104); `size` is log2 of the page. -/
structure TlbEntry where
  bay : Nat
  part : Nat
  va : Nat
  size : Nat
  pa : Nat
  w : Bool
  x : Bool
  u : Bool
  vr : Bool
  uncached : Bool
  dirty : Bool
  deriving DecidableEq, Repr

/-- A bound stream (R371, R385): `bay` is the key of its slot, `inst` the trigger with the place of its region. `pos` is the
oldest element not yet handed on, `done` the later ones that stand complete in the reorder unit (R111), `runs` the patched
translations of the pages ahead of its position (R109). -/
structure Stream where
  id : Nat
  bay : Nat
  slot : Nat
  part : Nat
  region : Nat
  inst : Inst
  count : Nat
  pos : Nat
  done : List (Nat × Word)
  runs : List TlbEntry
  base : Int
  stride : Int
  sf : Nat
  ahead : Nat
  waitcb : Bool
  depth : Nat
  deriving DecidableEq, Repr

/-- An outstanding walk of a bay (R104), from the stage-1 root at its start (R235). `dirty`: it is to set D, for a store that
has passed its checks (R102). -/
structure Walk where
  bay : Nat
  part : Nat
  va : Nat
  root : Nat
  store : Bool
  fetch : Bool
  dirty : Bool
  tag : BitVec 32
  deriving DecidableEq, Repr

/-- An open page fault (R110): of stage 1, or of stage 2, which waits for the hypervisor (R456).
`seq` is its record's number; `item` the record of stage 1 that a stage-2 fault would have been, with what it holds
(none: an access of the device's own, R506). `tags` and `cmds` are the tags and the commands whose accesses it holds. `aborted`
says that the hypervisor has aborted an access of the device's own, which is tried again at UNHALT. -/
structure PageFault where
  part : Nat
  stage2 : Bool
  va : Nat
  seq : Nat
  item : Option TrapItem
  tags : List (BitVec 32)
  cmds : List Nat
  aborted : Bool
  deriving DecidableEq, Repr

/-- An L2 line (R123); lines of a set stand in least recently used order. -/
structure L2Line where
  slice : Nat
  set : Nat
  line : Nat
  part : Nat
  dirty : Bool
  deriving DecidableEq, Repr

/-- A version-store entry (R124, R380). -/
structure VersEntry where
  slice : Nat
  part : Nat
  pa : Nat
  on : BitVec 32
  vals : List Word
  memKept : Bool
  deriving DecidableEq, Repr

/-- A memory that can hold a poisoned word (R115): L2 or HBM (`mem`), HBM itself after a dirty line's write-back (`hbm`), the
shelf, the accumulator store, a row. -/
inductive PoisonKind where
  | mem | hbm | shelf | acc | row
  deriving DecidableEq, Repr

/-- Who sent a command (R146, R266), with the key of its accesses (R148). -/
structure Sender where
  key : List Nat
  frame : Nat
  seq : Nat
  idx : Nat
  tag : BitVec 32
  fname : Word
  sup : Bool
  tree : Nat
  grid : Option Nat
  deriving DecidableEq, Repr

/-- A command in an engine or link queue (R182, R185). `id` orders commands for qfence and qwait; `pos` counts the
elements performed; `base`, `ver` and `old` say which bank of its table slot it is bound to (R253); `key` and `nonce`
are what a sealing or opening copy took at issue (R403); `status` is set when only retirement is left; `held` marks a
command that waits at an element for a page fault (R396). `out` counts the copies of an ordered command that have been
handed to the crossbar, plus one; it is 0 before the command has read what it sends; `lost` marks a copy without a route
(R201, R410). -/
structure Cmd where
  r : QRef
  id : Nat
  part : Nat
  bay : Nat
  hdr : Beat
  beats : List Beat
  sender : Option Sender
  issued : Bool
  pos : Nat
  base : Word
  ver : BitVec 32
  old : Bool
  key : Option (BitVec 256)
  nonce : BitVec 96
  status : Option Word
  held : Bool
  out : Nat
  lost : Bool
  deriving DecidableEq, Repr

/-- A qfence barrier (R144, R389). -/
structure QFence where
  lq : Bool
  home : Nat
  mask : BitVec 16
  id : Nat
  deriving DecidableEq, Repr

/-- A spilled frame's image in the cellar (R46, R166, R502): its place (CIMG of R237), recorded entries in order, then the
appended tokens. `bad` are the poisoned words of its row (R115). -/
structure Image where
  part : Nat
  bay : Nat
  frame : Nat
  bytes : Nat
  gpa : Nat
  slots : List SlotEntry
  entries : List QEntry
  insts : List Inst
  appended : List Flight
  bad : List Nat
  deriving DecidableEq, Repr

/-- A deferred spawn record (R175). -/
structure SpawnRec where
  part : Nat
  bay : Nat
  parent : Option Nat
  addr : Word
  arg : Word
  idx : Nat
  slot : Slot
  fpc : BitVec 5
  fname : Word
  pri : Nat
  tree : Nat
  deriving DecidableEq, Repr

/-- An exitg token that waits at the front end (R358). -/
structure ExitgTok where
  part : Nat
  bay : Nat
  region : Nat
  tok : Token
  addr : Word
  idx : Nat
  slot : Slot
  deriving DecidableEq, Repr

/-- A completion word whose write a stage-1 page fault holds (R507), with the launch tree that it is charged to (R266). -/
structure Completion where
  id : Nat
  part : Nat
  bay : Nat
  va : Word
  v : Word
  sup : Bool
  host : Bool
  tree : Option Nat
  deriving DecidableEq, Repr

/-- An invalidation in progress (R113). -/
structure Inval where
  part : Nat
  desc : BitVec 256
  physical : Bool
  pending : List Nat
  deriving DecidableEq, Repr

/-- A timed launch (R168); `reach` is the tick at which it reaches its start time: at the earliest the one after its placing
(R171, R436). -/
structure Timed where
  slot : Nat
  start : Word
  reach : Nat
  rcd : BitVec 512
  deriving DecidableEq, Repr

/-- A launch record in its queue (R168); `host`: a host message brought it. -/
structure Queued where
  rcd : BitVec 512
  host : Bool
  deriving DecidableEq, Repr

/-- A launch tree's lease (R266, R269). -/
structure Tree where
  id : Nat
  root : Word
  lease : Nat
  live : Bool
  notified : Bool
  late : Nat
  deriving DecidableEq, Repr

/-- A barrier channel (R432). -/
structure Bar where
  scope : Nat
  unit : Nat
  ch : Nat
  gen : BitVec 8
  cnt : Nat
  n : Nat
  deriving DecidableEq, Repr

/-- What an ordered control flit of a pod barrier brings (R209, R433): its channel and its count; at the sender also the
number by which the waiting instance is known, and the launch tree that its flits are charged to. -/
structure BarFlit where
  ch : Nat
  n : Nat
  id : Nat
  tree : Option Nat
  deriving DecidableEq, Repr

/-- An ordered-class packet (R202); `ctl` marks a control flit, whose payload is what it carries behind its header. -/
structure Packet where
  hdr : BitVec 256
  payload : List Byte
  ctl : Option BarFlit
  deriving DecidableEq, Repr

/-- One partition: its table entry, registers and queues. `parkedImgs` names the bays whose shelf and accumulator store
lie parked in the cellar (R242), and `saved` those whose state lies in the save area (R458), each with the key that the
state is kept under, from 128 on. `tail1` tells the last cycle in which messages of link 1 came whole, and how many (R192);
`wdCycles` counts the cycles of owned slots (R273); `hvQ` keeps the records for the hypervisor that a settle step has made,
each with whether it must not be dropped (R180) (R89, R168, R181, R193, R233, R249, R265, R397, R432, R451, R457). -/
structure Part where
  ent : List Word
  gen : BitVec 32
  bays : BitVec 128
  det : Bool
  frames : Word
  cal : Word
  rszBusy : Bool
  rszStep : Nat
  rszErr : Nat
  rszDesc : Word
  rszNew : List Word
  rszKept : Bool
  dying : Bool
  detTimeOk : Bool
  trapVec : Word
  inbox : List (List Beat)
  asm0 : List Beat
  asm1 : List Beat
  tail1 : Nat × Nat
  drops : BitVec 32
  enUsed : Word
  enRes : Nat
  enCredit : Word
  enBudget : Word
  msCharge : Nat
  trees : List Tree
  widthAch : Word
  occLimit : BitVec 32
  wdLimit : BitVec 32
  wdHits : BitVec 32
  wdLast : BitVec 32
  wdCycles : Nat
  launch : List (List Queued)
  overflow : List (List Queued)
  timed : List Timed
  roots : List Nat
  serial : Nat
  cn : List (Nat × Nat)
  orq : List Packet
  hold : List Packet
  tables : List (Nat × BitVec 256)
  key : Option (BitVec 256)
  keyWords : List Word
  epoch : BitVec 32
  sealCnt : Word
  vdGen : BitVec 32
  vdRes : Bool
  ilBase : Word
  ilSize : BitVec 32
  ilHead : BitVec 32
  ilTail : BitVec 32
  ilLost : BitVec 32
  ilSeq : Word
  trapLost : BitVec 32
  trapQ : List TrapItem
  hvQ : List (FaultRec × Bool)
  recSeq : Nat
  preBusy : Bool
  preSaved : Bool
  preHalted : Bool
  preErr : Nat
  prePending : Bool
  haltRec : Option TrapItem
  saved : List (Nat × Nat)
  parkedImgs : List (Nat × Nat)
  bars : List Bar
  deriving DecidableEq, Repr

/-- A control flit of the port's own: a retry request with the last FSEQ received in order, a lane that the spare replaces
(R464), the port's leaving (R469); or the flits of the replay buffer from an FSEQ on, sent again (R464). -/
inductive CtlFlit where
  | retry (fseq : Nat)
  | spare (lane : Nat)
  | leave
  | again (fseq : Nat)
  deriving DecidableEq, Repr

/-- One Ororus Link port (R200, R463–R467). `flits` counts those received since the port came up, `symbols` keeps each symbol
corrected within the last 2^24 of them, by lane and flit, and `sent` the control flits that the port sends in this cycle
(R464). -/
structure Port where
  wmo : BitVec 48
  wmi : BitVec 48
  state : Nat
  spared : Option Nat
  tpar : Bool
  retry : BitVec 32
  lastSent : Nat
  egress : List Packet
  fseqOut : Nat
  fseqIn : Nat
  replay : List (List Byte)
  retries : Nat
  fails : Nat
  delay : Nat
  report : Option (Nat × Nat)
  peer : Nat
  partial_ : List Byte
  retryAt : Nat
  flits : Nat
  symbols : List (Nat × Nat)
  sent : List CtlFlit
  deriving DecidableEq, Repr

/-- Hot-swap quiesce (R469). -/
inductive Quiesce where
  | run | quiescing | quiesced
  deriving DecidableEq, Repr

/-- Package-scope state (R89, R200, R265, R456, R462, R471). `calFreed` notes the calendar slots given up by a partition, each
with the number of the period (R245), `infra` the femtojoules charged to no partition since the last reconciliation and
`recMs` the millisecond that it closed (R268); `pcapAt` is the cycle in which the management port last wrote PKG_PCAP, and
`errLog` the error log that this port reads (R468); `gaveUp` says that the claim of TROOT has been given up with its F_LINK
(R467), and `refusedBusy` that the last quiesce request was refused with status BUSY (R469). -/
structure Pkg where
  number : BitVec 17
  podTime : Word
  cycle : Nat
  slewAt : Nat
  drift : Int
  driftRun : Nat
  wmTimeout : BitVec 32
  pcap : BitVec 32
  pcapAt : Option Nat
  power : BitVec 32
  pcHold : Nat
  infra : Nat
  recMs : Nat
  calFreed : List (Nat × Nat)
  ports : List Port
  osq : List ((Nat × Nat) × Nat)
  rxbuf : List (Nat × Packet)
  stamped : List (BitVec 48)
  wml : BitVec 48
  front : BitVec 48
  ordExcl : BitVec 24
  readmit : BitVec 24
  ordStat : BitVec 32
  ordLate : BitVec 32
  ordDrop : BitVec 32
  mLast : BitVec 48
  mSince : Nat
  stalled : Bool
  hfqBase : Word
  hfqSize : BitVec 32
  hfqHead : BitVec 32
  hfqTail : BitVec 32
  hfqLost : BitVec 32
  hfqAnsv : Word
  hfqWait : List FaultRec
  errLog : List FaultRec
  winRefused : Bool
  invWords : List Word
  phase : Nat
  troot : Bool
  root : Option (Nat × Nat)
  locked : Nat
  portsUp : BitVec 24
  chFail : BitVec 256
  quiesce : Quiesce
  gaveUp : Bool
  refusedBusy : Bool
  meas : List (BitVec 512)
  fwDigest : Option (BitVec 512)
  pcieUp : List Bool
  fwOk : Bool
  pkgSeq : Nat
  deriving DecidableEq, Repr

/-- An entry of the script: an event of the opcode table with its arguments, or the retry of a
waiting instance. DESIGN CHOICE, log 1. -/
inductive Sched where
  | ev (i : Instr)
  | retry (n : Nat)
  deriving DecidableEq, Repr

/-- The machine. -/
structure State where
  pkg : Pkg
  parts : List Part
  mem : Memory
  shelf : Memory
  acc : Memory
  poison : List (PoisonKind × Nat)
  frames : List Frame
  blocks : List Block
  slots : List SlotEntry
  queues : List QEntry
  net : List Flight
  ready : List Inst
  pipe : List Inst
  waits : List Inst
  issued : List (Nat × Nat)
  stores : List Held
  placed : List Placed
  exitgs : List ExitgTok
  regions : List Region
  ctxs : List Ctx
  entries : List EntryRec
  streams : List Stream
  codebooks : List ((Nat × Nat) × BitVec 256)
  tlb : List TlbEntry
  walks : List Walk
  pageFaults : List PageFault
  l2 : List L2Line
  vers : List VersEntry
  cmds : List Cmd
  qfences : List QFence
  cmdNo : Nat
  sync : List ((Nat × Nat) × Nat)
  handlers : List ((Nat × Nat × Nat) × BitVec 512)
  kvc : List ((Nat × Nat) × Word)
  dup : List ((Nat × Nat × BitVec 32 × Nat) × List Byte)
  deferred : List SpawnRec
  images : List Image
  completions : List Completion
  invals : List Inval
  msix : List (Nat × Nat)
  cur : Inst
  script : List Sched
  fresh : Nat
  deriving DecidableEq, Repr

/-- Why the model stops with a fault. -/
inductive Fault where
  /-- Raised by step when the word of the instance at the head of the pipeline decodes to no
  instruction. The front end and the placer never let such a word into a cell (R306, R217), so no run
  reaches it: safe. -/
  | undecodedWord
  /-- Raised by step when a retry names no waiting instance: a script of the model's own that names
  nothing; no hardware event corresponds to it: safe. -/
  | emptyRetry
  deriving DecidableEq, Repr

/-- Why the model refuses. -/
inductive Refusal where
  /-- Raised by exec for an instruction that has no meaning in the model yet: safe, a claim about it
  cannot be proved. -/
  | notModelled (mnemonic : String)
  deriving DecidableEq, Repr

/-- The tag of all zeros. -/
def Tag.zero : Tag := ⟨0, 0, 0⟩

/-- The empty instance (the model's own reset value of `cur`, log 1). -/
def Inst.empty : Inst :=
  { part := 0, bay := 0, cell := 0, ctx := 0, tag := Tag.zero, ord := 0, adm := [], word := 0, grid := none,
    seq := 0, idx := 0, a := none, b := none, c := none, p := none, level := 4, wait := 0,
    phase := none, stage := none, cleared := false, ver := none, rcd := none }

/-- A partition that is not live: every register at its reset value (R89, R193, R233, R265, R457). -/
def Part.reset : Part :=
  { ent := List.replicate 32 0, gen := 0, bays := 0, det := false, frames := 0, cal := 0,
    rszBusy := false, rszStep := 0, rszErr := 0, rszDesc := 0, rszNew := [], rszKept := false, dying := false,
    detTimeOk := false, trapVec := 0, inbox := [], asm0 := [], asm1 := [], tail1 := (0, 0), drops := 0, enUsed := 0,
    enRes := 0, enCredit := 0, enBudget := 0, msCharge := 0, trees := [], widthAch := 0,
    occLimit := 0xFFFFFFFF, wdLimit := 0, wdHits := 0, wdLast := 0, wdCycles := 0, launch := [[], [], [], []],
    overflow := [[], [], [], []], timed := [], roots := [], serial := 0, cn := [], orq := [],
    hold := [], tables := [], key := none, keyWords := [0, 0, 0, 0], epoch := 0,
    sealCnt := 0, vdGen := 0, vdRes := false, ilBase := 0, ilSize := 16, ilHead := 0, ilTail := 0,
    ilLost := 0, ilSeq := 0, trapLost := 0, trapQ := [], hvQ := [], recSeq := 0, preBusy := false,
    preSaved := false, preHalted := false, preErr := 0, prePending := false, haltRec := none,
    saved := [], parkedImgs := [], bars := [] }

/-- A port at reset (R200, R465). -/
def Port.reset : Port :=
  { wmo := 0, wmi := 0, state := 0, spared := none, tpar := false, retry := 0, lastSent := 0,
    egress := [], fseqOut := 0, fseqIn := 0, replay := [], retries := 0, fails := 0, delay := 0,
    report := none, peer := 0, partial_ := [], retryAt := 0, flits := 0, symbols := [], sent := [] }

/-- The package at reset, before bring-up begins (R89, R200, R265, R456, R471). -/
def Pkg.reset : Pkg :=
  { number := 0, podTime := 0, cycle := 0, slewAt := 0, drift := 0, driftRun := 0,
    wmTimeout := 125000, pcap := 3200, pcapAt := none, power := 0, pcHold := 0, infra := 0, recMs := 0, calFreed := [], ports := List.replicate 24 Port.reset,
    osq := [], rxbuf := [], stamped := [], wml := 0, front := 0, ordExcl := 0, readmit := 0, ordStat := 0,
    ordLate := 0, ordDrop := 0, mLast := 0, mSince := 0, stalled := false, hfqBase := 0,
    hfqSize := 16, hfqHead := 0, hfqTail := 0, hfqLost := 0, hfqAnsv := 0, hfqWait := [], errLog := [],
    winRefused := false, invWords := [0, 0, 0, 0], phase := 0, troot := false, root := none,
    locked := 0, portsUp := 0, chFail := 0, quiesce := .run, gaveUp := false, refusedBusy := false, meas := List.replicate 8 0, fwDigest := none,
    pcieUp := [false, false], fwOk := false, pkgSeq := 0 }

/-- The machine right after reset: every resource scrubbed, every state card at its reset value
(R89, R114, R152, R168, R181, R200, R232, R265). -/
def State.reset : State :=
  { pkg := Pkg.reset, parts := List.replicate 64 Part.reset, mem := [], shelf := [], acc := [],
    poison := [], frames := [], blocks := [], slots := [], queues := [], net := [], ready := [],
    pipe := [], waits := [], issued := [], stores := [], placed := [], exitgs := [], regions := [],
    ctxs := [], entries := [], streams := [], codebooks := [], tlb := [], walks := [],
    pageFaults := [], l2 := [], vers := [], cmds := [], qfences := [], cmdNo := 0, sync := [],
    handlers := [], kvc := [], dup := [], deferred := [], images := [], completions := [],
    invals := [], msix := [], cur := Inst.empty, script := [], fresh := 0 }

end Sys2Proof.Machine
end

