-- ==== Sys2Proof/Machine/Check.lean ====
section
/-! DEFINITION. The encoding tables of the instruction chapters: for each instruction its opcode
(R303, R304), where it may stand, the slots it takes, and the values its entry allows its fields
(R305, with R309, R315, R318, R320, R323, R324, R329, R339, R347, R370, R393, R417, R431). -/
namespace Sys2Proof.Machine

/-- The fields of an instruction word, by format (R295–R300). -/
inductive Payload where
  | z
  | fa (f : AFmt)
  | ff (f : FFmt)
  | fm (f : MFmt)
  | fx (f : XFmt)
  | fe (f : EFmt)
  | fs (f : SFmt)
  deriving DecidableEq, Repr

/-- Where a word may stand (R347, R370, R417, R431). -/
inductive Stand where
  | both | block | grid
  deriving DecidableEq, Repr

/-- One row of the encoding tables. -/
structure Row where
  op : Nat
  pay : Payload
  stand : Stand
  slots : List Slot
  ok : Bool
  deriving DecidableEq, Repr

/-- A-format checks shared by every entry: PR, targets, type and MOD values, the use of I, and the
`used` low IMM bits that an entry uses when I = 0 (R293, R295, R296, R305). -/
def aOk (f : AFmt) (tys mds : List Nat) (iOk : Bool) (used : Nat) : Bool :=
  f.pr != 3 && tgtAssigned f.t0 && tgtAssigned f.t1 && tys.contains f.ty.toNat && mds.contains f.md.toNat &&
    (if f.i then iOk && (decide (f.ty.toNat < 5) || fld f.imm 16 12 == 0)
     else decide (f.imm.toNat < pow2 used))

/-- M-format checks (R130, R298, R299, R305). -/
def mOk (f : MFmt) (sfs kinds : List Nat) (maxScope : Nat) (iOk : Bool) : Bool :=
  f.pr != 3 && tgtAssigned f.t0 && sfs.contains f.sf.toNat && (iOk || !f.i) && decide (f.own.toNat < 0x3E) &&
    (!f.ord || (kinds.contains (fld f.imm 15 2) && decide (fld f.imm 17 3 ≤ maxScope)))

/-- X-format checks shared by every entry. -/
def xOk (f : XFmt) : Bool := f.pr != 3 && tgtAssigned f.t0

/-- E-format checks (R300, R393): without a token continuation T0 is the null target. -/
def eOk (f : EFmt) : Bool :=
  f.pr != 3 && tgtAssigned f.t0 && f.md == 0 && (f.ck == 1 || f.t0 == nullT) && (f.i || f.arg == 0)

/-- The bits of ARG that an EOP leaves unused (R393, R401, R404, R407, R408, R413): one of them is set in `a`. -/
def argUnused (e a : Nat) : Bool :=
  if e == 0x10 || e == 0x20 then a != 0
  else if e == 0x11 || e == 0x12 || e == 0x13 then decide (pow2 17 ≤ a)
  else if e == 0x2C then decide (16 ≤ a)
  else if e == 0x2D then decide (32 ≤ a)
  else if e == 0x08 then decide (64 ≤ a)
  else if e == 0x28 || e == 0x2A then nbits a 4 1 == 1 && nbits a 3 1 == 1
  else if e == 0x29 || e == 0x2B then nbits a 4 1 == 1
  else false

/-- E-format checks of an entry that sends a message of one EOP: an ARG18 keeps to the bits that the entry uses (R305, R393). -/
def eOkArg (e : Nat) (f : EFmt) : Bool := eOk f && (!f.i || !argUnused e f.arg.toNat)

/-- S-format checks for an entry that names no register (R431). -/
def sOk (f : SFmt) (mds : List Nat) (used : Nat) : Bool :=
  f.pr != 3 && tgtAssigned f.t0 && mds.contains f.md.toNat && f.sr == 0 && decide (f.imm.toNat < pow2 used)

/-- S-format checks for rdsr and wrsr. -/
def sOkSr (f : SFmt) : Bool := f.pr != 3 && tgtAssigned f.t0

/-- The numbers that the system register table assigns (R89). -/
def srAssigned (n : BitVec 12) : Bool :=
  [0x001, 0x002, 0x003, 0x010, 0x011, 0x012, 0x013, 0x014, 0x015, 0x016, 0x020, 0x030, 0x040, 0x041, 0x042,
   0x050, 0x051, 0x060, 0x070, 0x071, 0x080, 0x0F0, 0x0F1].contains n.toNat

/-- The slots of an A word, less slot b when IMM supplies it (R295). -/
def noB (i : Bool) (l : List Slot) : List Slot := if i then l.filter (· != .b) else l

/-- The slots of an engine word (R394). -/
def eSlots (i : Bool) (ck : BitVec 2) : List Slot :=
  [.a] ++ (if i then [] else [.b]) ++ (if ck.toNat < 2 then [] else [.c])

/-- The slots of an X word: slot b under `.ind` (R347). -/
def xSlots (ind : Bool) : List Slot := if ind then [.a, .b] else [.a]

/-- The row of an instruction; an event of the table has none. -/
def row : Instr → Option Row
  | .nop => some ⟨0x00, .z, .both, [], true⟩
  | .mov4 f => some ⟨0x03, .ff f, .both, [.a], f.pr != 3 && tgtAssigned f.t0 && tgtAssigned f.t1 && tgtAssigned f.t2 && tgtAssigned f.t3⟩
  | .cmp hi f => some ⟨if hi then 0x39 else 0x38, .fa f, .both, noB f.i [.a, .b], aOk f [0, 1, 2, 3] (if hi then [0, 1] else [0, 1, 2, 3]) true 0⟩
  | .fcmp hi f => some ⟨if hi then 0x53 else 0x52, .fa f, .both, noB f.i [.a, .b], aOk f [4] [0, 1, 2, 3] true 0⟩
  | .read f => some ⟨0x01, .fa f, .block, [], aOk f [0] [0, 1] false 6 && f.pr == 0 && (f.md == 0 || (fld f.imm 3 3 == 0 && tgtSoftOrNull f.t0 && tgtSoftOrNull f.t1))⟩
  | .mov f => some ⟨0x02, .fa f, .both, [.a], aOk f [0] [0] false 0⟩
  | .const f => some ⟨0x04, .fa f, .both, (if f.pr == 0 then [.a] else []), aOk f [0, 1, 2, 3, 4, 5, 6] [0] false 28 && (f.ty.toNat < 5 || fld f.imm 16 12 == 0)⟩
  | .consth f => some ⟨0x05, .fa f, .both, [.a], aOk f [0, 1, 2, 3] [0] false 28⟩
  | .null f => some ⟨0x06, .fa f, .both, (if f.pr == 0 then [.a] else []), aOk f [0] [0] false 0⟩
  | .add f => some ⟨0x10, .fa f, .both, noB f.i [.a, .b], aOk f [0, 1, 2, 3] [0, 1] true 0⟩
  | .sub f => some ⟨0x11, .fa f, .both, noB f.i [.a, .b], aOk f [0, 1, 2, 3] [0, 1] true 0⟩
  | .mul f => some ⟨0x12, .fa f, .both, noB f.i [.a, .b], aOk f [0, 1, 2, 3] [0, 1] true 0⟩
  | .mulh f => some ⟨0x13, .fa f, .both, noB f.i [.a, .b], aOk f [0, 1, 2, 3] [0] true 0⟩
  | .mad f => some ⟨0x14, .fa f, .both, noB f.i [.a, .b, .c], aOk f [0, 1, 2, 3] [0, 1] true 0⟩
  | .div f => some ⟨0x15, .fa f, .both, noB f.i [.a, .b], aOk f [0, 1, 2, 3] [0] true 0⟩
  | .rem f => some ⟨0x16, .fa f, .both, noB f.i [.a, .b], aOk f [0, 1, 2, 3] [0] true 0⟩
  | .neg f => some ⟨0x17, .fa f, .both, [.a], aOk f [0, 1, 2, 3] [0, 1] false 0⟩
  | .abs f => some ⟨0x18, .fa f, .both, [.a], aOk f [0, 2] [0, 1] false 0⟩
  | .min f => some ⟨0x19, .fa f, .both, noB f.i [.a, .b], aOk f [0, 1, 2, 3] [0] true 0⟩
  | .max f => some ⟨0x1A, .fa f, .both, noB f.i [.a, .b], aOk f [0, 1, 2, 3] [0] true 0⟩
  | .and f => some ⟨0x1B, .fa f, .both, noB f.i [.a, .b], aOk f [0, 1, 2, 3] [0] true 0⟩
  | .or f => some ⟨0x1C, .fa f, .both, noB f.i [.a, .b], aOk f [0, 1, 2, 3] [0] true 0⟩
  | .xor f => some ⟨0x1D, .fa f, .both, noB f.i [.a, .b], aOk f [0, 1, 2, 3] [0] true 0⟩
  | .andn f => some ⟨0x1E, .fa f, .both, noB f.i [.a, .b], aOk f [0, 1, 2, 3] [0] true 0⟩
  | .orn f => some ⟨0x1F, .fa f, .both, noB f.i [.a, .b], aOk f [0, 1, 2, 3] [0] true 0⟩
  | .not f => some ⟨0x20, .fa f, .both, [.a], aOk f [0, 1, 2, 3] [0] false 0⟩
  | .shl f => some ⟨0x21, .fa f, .both, noB f.i [.a, .b], aOk f [0, 1, 2, 3] [0] true 0⟩
  | .shr f => some ⟨0x22, .fa f, .both, noB f.i [.a, .b], aOk f [0, 1, 2, 3] [0] true 0⟩
  | .sha f => some ⟨0x23, .fa f, .both, noB f.i [.a, .b], aOk f [0, 1, 2, 3] [0] true 0⟩
  | .rot f => some ⟨0x24, .fa f, .both, noB f.i [.a, .b], aOk f [0, 1, 2, 3] [0, 1] true 0⟩
  | .clz f => some ⟨0x25, .fa f, .both, [.a], aOk f [0, 1, 2, 3] [0] false 0⟩
  | .ctz f => some ⟨0x26, .fa f, .both, [.a], aOk f [0, 1, 2, 3] [0] false 0⟩
  | .popc f => some ⟨0x27, .fa f, .both, [.a], aOk f [0, 1, 2, 3] [0] false 0⟩
  | .brev f => some ⟨0x28, .fa f, .both, [.a], aOk f [0, 1, 2, 3] [0] false 0⟩
  | .bfx f => some ⟨0x29, .fa f, .both, noB f.i [.a, .b], aOk f [0, 1, 2, 3] [0] true 0⟩
  | .bfi f => some ⟨0x2A, .fa f, .both, noB f.i [.a, .b, .c], aOk f [0, 1, 2, 3] [0] true 0⟩
  | .sel f => some ⟨0x2B, .fa f, .both, noB f.i [.a, .b, .c], aOk f [0, 1, 2, 3] [0] true 0⟩
  | .sext f => some ⟨0x2C, .fa f, .both, noB f.i [.a, .b], aOk f [0, 1, 2, 3] [0] true 0⟩
  | .zext f => some ⟨0x2D, .fa f, .both, noB f.i [.a, .b], aOk f [0, 1, 2, 3] [0] true 0⟩
  | .adda f => some ⟨0x30, .fa f, .both, noB f.i [.a, .b], aOk f [0] [0, 1] true 0⟩
  | .lea f => some ⟨0x31, .fa f, .both, noB f.i [.a, .b], aOk f [0] [0, 1, 2, 3] true 0⟩
  | .alignd f => some ⟨0x32, .fa f, .both, noB f.i [.a, .b], aOk f [0] [0, 1] true 0⟩
  | .canon f => some ⟨0x33, .fa f, .both, [.a], aOk f [0] [0, 1, 2] false 0⟩
  | .tst f => some ⟨0x3A, .fa f, .both, noB f.i [.a, .b], aOk f [0, 1, 2, 3] [0, 1] true 0⟩
  | .fadd f => some ⟨0x40, .fa f, .both, noB f.i [.a, .b], aOk f [4, 5, 6] [0] true 0⟩
  | .fsub f => some ⟨0x41, .fa f, .both, noB f.i [.a, .b], aOk f [4, 5, 6] [0] true 0⟩
  | .fmul f => some ⟨0x42, .fa f, .both, noB f.i [.a, .b], aOk f [4, 5, 6] [0] true 0⟩
  | .fma f => some ⟨0x43, .fa f, .both, noB f.i [.a, .b, .c], aOk f [4, 5, 6] [0] true 0⟩
  | .fmin f => some ⟨0x44, .fa f, .both, noB f.i [.a, .b], aOk f [4, 5, 6] [0, 1] true 0⟩
  | .fmax f => some ⟨0x45, .fa f, .both, noB f.i [.a, .b], aOk f [4, 5, 6] [0, 1] true 0⟩
  | .fabs f => some ⟨0x46, .fa f, .both, [.a], aOk f [4, 5, 6] [0] false 0⟩
  | .fneg f => some ⟨0x47, .fa f, .both, [.a], aOk f [4, 5, 6] [0] false 0⟩
  | .fcpsgn f => some ⟨0x48, .fa f, .both, noB f.i [.a, .b], aOk f [4, 5, 6] [0] true 0⟩
  | .fdiv f => some ⟨0x49, .fa f, .both, noB f.i [.a, .b], aOk f [4] [0] true 0⟩
  | .fsqrt f => some ⟨0x4A, .fa f, .both, [.a], aOk f [4] [0] false 0⟩
  | .frcp f => some ⟨0x4B, .fa f, .both, [.a], aOk f [4] [0] false 0⟩
  | .frsq f => some ⟨0x4C, .fa f, .both, [.a], aOk f [4] [0] false 0⟩
  | .fexp2 f => some ⟨0x4D, .fa f, .both, [.a], aOk f [4] [0] false 0⟩
  | .flog2 f => some ⟨0x4E, .fa f, .both, [.a], aOk f [4] [0] false 0⟩
  | .ftanh f => some ⟨0x4F, .fa f, .both, [.a], aOk f [4] [0] false 0⟩
  | .fround f => some ⟨0x50, .fa f, .both, [.a], aOk f [4, 5, 6] [0, 1, 2, 3] false 0⟩
  | .fclass f => some ⟨0x51, .fa f, .both, [.a], aOk f [4, 5, 6] [0] false 0⟩
  | .fdot2 f => some ⟨0x54, .fa f, .both, noB f.i [.a, .b, .c], aOk f [5, 6] [0] true 0⟩
  | .cvtfi f => some ⟨0x60, .fa f, .both, [.a], aOk f [0, 1, 2, 3] [0, 1, 2, 3] false 0⟩
  | .cvtif f => some ⟨0x61, .fa f, .both, [.a], aOk f [4, 5, 6] [0, 1, 2, 3] false 2 && (f.ty != 4 || f.md == 0)⟩
  | .fcvt f => some ⟨0x62, .fa f, .both, [.a], aOk f [5, 6] [0, 1, 2, 3] false 0⟩
  | .fwid f => some ⟨0x63, .fa f, .both, [.a], aOk f [5, 6] [0, 1] false 0⟩
  | .pack2 f => some ⟨0x64, .fa f, .both, noB f.i [.a, .b], aOk f [5, 6] [0, 1] true 0⟩
  | .unpack f => some ⟨0x65, .fa f, .both, [.a], aOk f [5, 6] [0] false 0⟩
  | .steer f => some ⟨0x70, .fa f, .both, [.a], aOk f [0] [0] false 0 && f.pr != 0⟩
  | .mergeU f => some ⟨0x71, .fa f, .grid, [.a, .b], aOk f [0] [0] false 8 && f.pr == 0⟩
  | .mergeO f => some ⟨0x72, .fa f, .grid, [.a, .b], aOk f [0] [0] false 8 && f.pr == 0⟩
  | .gate f => some ⟨0x73, .fa f, .both, noB f.i [.a, .b], aOk f [0] [0] false 0⟩
  | .join f => some ⟨0x74, .fa f, .both, (if f.md == 1 then [.a, .b, .c] else [.a, .b]), aOk f [0] [0, 1] false 0⟩
  | .red f => some ⟨0x75, .fa f, .grid, [.a], aOk f [0, 1, 2, 3, 4] [0, 1, 2, 3] false 0 && f.pr == 0⟩
  | .wadv f => some ⟨0x76, .fa f, .grid, [.a], aOk f [0] [0] false 0 && f.pr == 0⟩
  | .wreset f => some ⟨0x77, .fa f, .grid, [.a], aOk f [0] [0] false 15 && f.pr == 0 && fld f.imm 3 2 == 0⟩
  | .kbound f => some ⟨0x78, .fa f, .grid, [.a], aOk f [0] [0] false 7 && f.pr == 0 && decide (1 ≤ f.imm.toNat) && decide (f.imm.toNat ≤ 64)⟩
  | .eos f => some ⟨0x79, .fa f, .both, [.a], aOk f [0] [0] false 0⟩
  | .eosq f => some ⟨0x7A, .fa f, .both, [.a], aOk f [0] [0] false 0⟩
  | .exit f => some ⟨0x7B, .fx f, .block, xSlots (f.md == 1), xOk f && decide (f.ex.toNat ≤ 6) && decide (f.md.toNat ≤ 2) && (f.md == 0 || f.off == 0)⟩
  | .exitg f => some ⟨0x7C, .fx f, .grid, xSlots (bitAt f.md 2), xOk f && fld f.md 0 2 != 3 && (!bitAt f.md 2 || f.off == 0)⟩
  | .call f => some ⟨0x7D, .fx f, .block, xSlots (bitAt f.md 2), xOk f && fld f.md 0 2 != 3 && (!bitAt f.md 2 || f.off == 0)⟩
  | .ret f => some ⟨0x7E, .fa f, .block, [.a], aOk f [0] [0] false 0⟩
  | .spawn f => some ⟨0x7F, .fx f, .block, xSlots (bitAt f.md 2), xOk f && fld f.md 0 2 != 3 && (!bitAt f.md 2 || f.off == 0)⟩
  | .joinc f => some ⟨0x80, .fa f, .block, (if f.md == 0 then [.a] else if f.md == 1 then [.a, .b] else [.a, .b, .c]), aOk f [0] [0, 1, 2] false 0⟩
  | .gcall f => some ⟨0x81, .fx f, .grid, xSlots (f.md == 1), xOk f && f.ex == 0 && decide (f.md.toNat ≤ 1) && (f.md == 0 || f.off == 0)⟩
  | .gret f => some ⟨0x82, .fa f, .grid, [.a], aOk f [0] [0] false 0⟩
  | .cfgreq f => some ⟨0x83, .fx f, .both, xSlots (f.md == 1), xOk f && f.ex == 0 && decide (f.md.toNat ≤ 1) && (f.md == 0 || f.off == 0)⟩
  | .cfgrel f => some ⟨0x84, .fa f, .both, [.a], aOk f [0] [0] false 0⟩
  | .cfgtok f => some ⟨0x85, .fa f, .grid, [.a], aOk f [0] [0, 1, 2, 3] false 0 && f.t1 == nullT⟩
  | .drain f => some ⟨0x86, .fa f, .both, [.a], aOk f [0] [0] false 0⟩
  | .sklat f => some ⟨0x90, .fa f, .block, noB f.i [.a, .b], aOk f [0] [0, 1] true 0⟩
  | .skmix f => some ⟨0x91, .fa f, .block, noB f.i [.a, .b], aOk f [0, 1] [0, 1, 2, 3] true 0 && (decide (1 ≤ f.ty.toNat * 4 + f.md.toNat) && decide (f.ty.toNat * 4 + f.md.toNat ≤ 6))⟩
  | .skadd f => some ⟨0x92, .fa f, .block, noB f.i [.a, .b], aOk f [0] [0] false 3⟩
  | .sknorm f => some ⟨0x93, .fa f, .block, [.a], aOk f [0] [0] false 3⟩
  | .skemb f => some ⟨0x94, .fa f, .block, [.a], aOk f [0] [0] false 11 && f.t1 == nullT⟩
  | .skpos f => some ⟨0x95, .fa f, .block, [.a], aOk f [0] [0] false 3⟩
  | .skhash f => some ⟨0x96, .fa f, .block, [.a], aOk f [0] [0] false 5⟩
  | .skclr f => some ⟨0x96, .fa f, .block, [.a], aOk f [0] [2] false 0⟩
  | .skrd f => some ⟨0x96, .fa f, .block, [.a], aOk f [0] [1] false 6 && !tgtSoft f.t0 && !tgtSoft f.t1⟩
  | .collapseCdf f => some ⟨0x97, .fa f, .block, [.a], aOk f [0] [2] false 3⟩
  | .collapseMax f => some ⟨0x97, .fa f, .block, noB f.i [.a, .b], aOk f [0] [0] true 0⟩
  | .collapseMix f => some ⟨0x97, .fa f, .block, [.a], aOk f [0] [1] false 3⟩
  | .ld f => some ⟨0x98, .fm f, .both, [.a], mOk f [0, 1, 2, 3, 4, 5, 6, 7, 8, 10] [1] 5 true⟩
  | .st f => some ⟨0x99, .fm f, .both, [.a, .b], mOk f [0, 1, 2, 3, 4, 5, 6, 7, 8, 10] [2] 5 true⟩
  | .lds f => some ⟨0x9A, .fm f, .both, [.a], mOk f [0, 1, 2, 3, 4, 5, 6, 7, 8, 10] [1] 1 true⟩
  | .sts f => some ⟨0x9B, .fm f, .both, [.a, .b], mOk f [0, 1, 2, 3, 4, 5, 6, 7, 8, 10] [2] 1 true⟩
  | .ldv f => some ⟨0x9C, .fm f, .both, [.a, .b], mOk f [5] [] 5 false⟩
  | .stv f => some ⟨0x9D, .fm f, .both, [.a, .b], mOk f [5] [] 5 false⟩
  | .reclaim f => some ⟨0x9E, .fm f, .both, [.a, .b], mOk f [5] [] 5 false⟩
  | .stream f => some ⟨0x9F, .fm f, .grid, [.a, .b, .c], mOk f [0, 1, 2, 3, 4, 5, 6, 7, 8, 9, 10] [] 5 true⟩
  | .pref f => some ⟨0xA0, .fm f, .both, [.a], mOk f [0] [] 5 false && f.t0 == nullT⟩
  | .fence f => some ⟨0xA1, .fm f, .both, [.a], mOk f [0] [1, 2, 3] 5 false && f.ord && fld f.imm 0 15 == 0⟩
  | .qfence f => some ⟨0xA2, .fm f, .both, [.a], mOk f [0] [] 5 false && fld f.imm 0 16 != 0 && fld f.imm 17 3 == 0⟩
  | .monitor f => some ⟨0xA3, .fm f, .block, [.a], mOk f [0] [] 5 false⟩
  | .waitm f => some ⟨0xA4, .fm f, .block, [.a, .b], mOk f [0] [] 5 false && f.imm == 0⟩
  | .amoAdd f => some ⟨0xB0, .fm f, .both, [.a, .b], mOk f [4, 5] [1, 2, 3] 5 false⟩
  | .amoAnd f => some ⟨0xB1, .fm f, .both, [.a, .b], mOk f [4, 5] [1, 2, 3] 5 false⟩
  | .amoOr f => some ⟨0xB2, .fm f, .both, [.a, .b], mOk f [4, 5] [1, 2, 3] 5 false⟩
  | .amoXor f => some ⟨0xB3, .fm f, .both, [.a, .b], mOk f [4, 5] [1, 2, 3] 5 false⟩
  | .amoMin f => some ⟨0xB4, .fm f, .both, [.a, .b], mOk f [4, 5] [1, 2, 3] 5 true⟩
  | .amoMax f => some ⟨0xB5, .fm f, .both, [.a, .b], mOk f [4, 5] [1, 2, 3] 5 true⟩
  | .amoXchg f => some ⟨0xB6, .fm f, .both, [.a, .b], mOk f [4, 5] [1, 2, 3] 5 false⟩
  | .amoFadd f => some ⟨0xB7, .fm f, .both, [.a, .b], mOk f [6] [1, 2, 3] 5 false⟩
  | .amoFmin f => some ⟨0xB8, .fm f, .both, [.a, .b], mOk f [6] [1, 2, 3] 5 false⟩
  | .amoFmax f => some ⟨0xB9, .fm f, .both, [.a, .b], mOk f [6] [1, 2, 3] 5 false⟩
  | .cas f => some ⟨0xBA, .fm f, .both, [.a, .b, .c], mOk f [4, 5] [1, 2, 3] 5 false⟩
  | .cas2 f => some ⟨0xBB, .fm f, .both, [.a, .b, .c], mOk f [5] [1, 2, 3] 5 false⟩
  | .mm f => some ⟨0xC0, .fe f, .both, eSlots f.i f.ck, eOkArg 0x10 f⟩
  | .acczero f => some ⟨0xC1, .fe f, .both, eSlots f.i f.ck, eOkArg 0x11 f⟩
  | .accld f => some ⟨0xC2, .fe f, .both, eSlots f.i f.ck, eOkArg 0x12 f⟩
  | .accst f => some ⟨0xC3, .fe f, .both, eSlots f.i f.ck, eOkArg 0x13 f⟩
  | .copy f => some ⟨0xC4, .fe f, .both, eSlots f.i f.ck, eOkArg 0x20 f⟩
  | .gath f => some ⟨0xC5, .fe f, .both, eSlots f.i f.ck, eOkArg 0x28 f⟩
  | .gathw f => some ⟨0xC6, .fe f, .both, eSlots f.i f.ck, eOkArg 0x29 f⟩
  | .scat f => some ⟨0xC7, .fe f, .both, eSlots f.i f.ck, eOkArg 0x2A f⟩
  | .scatadd f => some ⟨0xC8, .fe f, .both, eSlots f.i f.ck, eOkArg 0x2B f⟩
  | .tblswap f => some ⟨0xC9, .fe f, .both, eSlots f.i f.ck, eOkArg 0x2C f⟩
  | .cbload f => some ⟨0xCA, .fe f, .both, eSlots f.i f.ck, eOkArg 0x2D f⟩
  | .coll f => some ⟨0xCB, .fe f, .both, eSlots f.i f.ck, eOkArg 0x40 f⟩
  | .osend f => some ⟨0xCC, .fe f, .both, eSlots f.i f.ck, eOkArg 0x41 f⟩
  | .orecv f => some ⟨0xCD, .fe f, .both, eSlots f.i f.ck, eOkArg 0x42 f⟩
  | .xsend f => some ⟨0xCE, .fe f, .both, eSlots f.i f.ck, eOkArg 0x43 f⟩
  | .xget f => some ⟨0xCF, .fe f, .both, eSlots f.i f.ck, eOkArg 0x44 f⟩
  | .enghnd f => some ⟨0xD0, .fe f, .both, eSlots f.i f.ck, eOkArg 0x08 f⟩
  | .eng f => some ⟨0xD1, .fe f, .both, eSlots true f.ck, eOk f && !f.i⟩
  | .qwait f => some ⟨0xD2, .fe f, .both, [.a], eOk f && f.i && f.push == 0 && f.pop == 0 && f.hnd == 0 && decide (f.ck.toNat ≤ 1) && !bitAt f.arg 17 && fld f.arg 0 16 != 0⟩
  | .bar f => some ⟨0xE0, .fs f, .block, [.a], sOk f [0, 1, 2, 3, 4, 5] 20⟩
  | .bara f => some ⟨0xE1, .fs f, .block, [.a], sOk f [0, 1, 2, 3, 4, 5] 20⟩
  | .barw f => some ⟨0xE2, .fs f, .block, [.a], sOk f [0, 1, 2, 3, 4, 5] 4⟩
  | .tnow f => some ⟨0xE3, .fs f, .both, [.a], sOk f [0] 0⟩
  | .attime f => some ⟨0xE4, .fs f, .block, [.a, .b], sOk f [0] 0⟩
  | .elease f => some ⟨0xE5, .fs f, .block, [.a], sOk f [0, 1] 0⟩
  | .equery f => some ⟨0xE6, .fs f, .both, [.a], sOk f [0, 1, 2, 3] 0⟩
  | .yield f => some ⟨0xE7, .fs f, .both, [.a], sOk f [0] 26⟩
  | .rdsr f => some ⟨0xF0, .fs f, .both, [.a], sOkSr f && f.md == 0 && decide (f.imm.toNat < 2) && srAssigned f.sr⟩
  | .wrsr f => some ⟨0xF1, .fs f, .block, [.a], sOkSr f && f.md == 0 && f.imm == 0 && srAssigned f.sr && f.sr != 0x001 && f.sr != 0x003⟩
  | .trap f => some ⟨0xF2, .fs f, .both, [.a], sOk f [0] 26 && f.t0 == nullT⟩
  | .brk f => some ⟨0xF3, .fs f, .both, [.a], sOk f [0, 1] 26 && f.t0 == nullT⟩
  | .hcall f => some ⟨0xF4, .fs f, .block, [.a], sOk f [0] 8⟩
  | .fpcset f => some ⟨0xF5, .fs f, .block, [.a], sOk f [0, 1] (if f.md == 1 then 5 else 0)⟩
  | .ckpt f => some ⟨0xF6, .fs f, .grid, [.a], sOk f [0] 0⟩
  | .event f => some ⟨0xF7, .fs f, .both, [.a], sOk f [0] 6 && decide (f.imm.toNat < 62)⟩
  | _ => none

/-- The predicate control of an instruction (R293). -/
def Payload.pr : Payload → BitVec 2
  | .z => 0
  | .fa f => f.pr
  | .ff f => f.pr
  | .fm f => f.pr
  | .fx f => f.pr
  | .fe f => f.pr
  | .fs f => f.pr

/-- The targets that a word names, in the order of its fields. -/
def Payload.targets : Payload → List Tgt
  | .z => []
  | .fa f => [f.t0, f.t1]
  | .ff f => [f.t0, f.t1, f.t2, f.t3]
  | .fm f => [f.t0]
  | .fx f => [f.t0]
  | .fe f => [f.t0]
  | .fs f => [f.t0]

end Sys2Proof.Machine
end

