-- ==== Sys2Proof/WellFormed.lean ====
section
/-! DEFINITION. Well-formed instructions: every field holds a value that its entry allows (R305). -/
namespace Sys2Proof

/-- The check of R305 that needs no block or grid around the word; an event is always well-formed. -/
def Instr.wellFormed (i : Instr) : Bool :=
  match Machine.row i with
  | some r => r.ok
  | none => true

end Sys2Proof
end

