-- ==== Sys2Proof/Decode.lean ====
section
/-! DEFINITION. Decoding an instruction word (R291–R305), total on any word and rejecting by name, and
the encoder written from the same tables. -/
namespace Sys2Proof

open Sys2Proof.Machine

/-- Why a word is no instruction (R305). -/
inductive Reject where
  | reservedOpcode
  | headerMarker
  | badField
  deriving DecidableEq, Repr

/-- The `len` bits of a word from bit `lo`. -/
def cut (w : Word) (lo len : Nat) : BitVec len := BitVec.extractLsb' lo len w

/-- The A-format fields of a word (R295). -/
def getA (w : Word) : AFmt :=
  ⟨cut w 54 2, cut w 53 1 == 1#1, cut w 50 3, cut w 48 2, cut w 38 10, cut w 28 10, cut w 0 28⟩
/-- The F-format fields of a word (R297). -/
def getF (w : Word) : FFmt := ⟨cut w 54 2, cut w 38 10, cut w 28 10, cut w 18 10, cut w 8 10⟩
/-- The M-format fields of a word (R298). -/
def getM (w : Word) : MFmt :=
  ⟨cut w 54 2, cut w 53 1 == 1#1, cut w 49 4, cut w 48 1 == 1#1, cut w 38 10, cut w 32 6, cut w 26 6, cut w 20 6, cut w 0 20⟩
/-- The X-format fields of a word (R300). -/
def getX (w : Word) : XFmt := ⟨cut w 54 2, cut w 51 3, cut w 48 3, cut w 38 10, cut w 0 38⟩
/-- The E-format fields of a word (R300). -/
def getE (w : Word) : EFmt :=
  ⟨cut w 54 2, cut w 53 1 == 1#1, cut w 50 3, cut w 48 2, cut w 44 4, cut w 38 6, cut w 28 10, cut w 22 6, cut w 18 4, cut w 0 18⟩
/-- The S-format fields of a word (R300). -/
def getS (w : Word) : SFmt := ⟨cut w 54 2, cut w 48 6, cut w 38 10, cut w 26 12, cut w 0 26⟩

/-- One bit. -/
def bit1 (b : Bool) : BitVec 1 := if b then 1#1 else 0#1

/-- The word of an opcode and its fields (R293–R300). -/
def putWord (op : Nat) : Payload → Word
  | .z => BitVec.ofNat 8 op ++ (0 : BitVec 56)
  | .fa f => BitVec.ofNat 8 op ++ f.pr ++ bit1 f.i ++ f.ty ++ f.md ++ f.t0 ++ f.t1 ++ f.imm
  | .ff f => BitVec.ofNat 8 op ++ f.pr ++ (0 : BitVec 6) ++ f.t0 ++ f.t1 ++ f.t2 ++ f.t3 ++ (0 : BitVec 8)
  | .fm f => BitVec.ofNat 8 op ++ f.pr ++ bit1 f.i ++ f.sf ++ bit1 f.ord ++ f.t0 ++ f.pred ++ f.own ++ f.succ ++ f.imm
  | .fx f => BitVec.ofNat 8 op ++ f.pr ++ f.ex ++ f.md ++ f.t0 ++ f.off
  | .fe f => BitVec.ofNat 8 op ++ f.pr ++ bit1 f.i ++ f.md ++ f.ck ++ f.q ++ f.push ++ f.t0 ++ f.pop ++ f.hnd ++ f.arg
  | .fs f => BitVec.ofNat 8 op ++ f.pr ++ f.md ++ f.t0 ++ f.sr ++ f.imm

/-- The instruction that the opcode map assigns to a word (R303, R304), before its fields are checked. -/
def rawDecode (w : Word) : Option Instr :=
  match (cut w 56 8).toNat with
  | 0x00 => if cut w 0 56 == 0 then some .nop else none
  | 0x03 => if cut w 48 6 == 0 && cut w 0 8 == 0 then some (.mov4 (getF w)) else none
  | 0x38 => some (.cmp false (getA w))
  | 0x39 => some (.cmp true (getA w))
  | 0x52 => some (.fcmp false (getA w))
  | 0x53 => some (.fcmp true (getA w))
  | 0x96 =>
    match (cut w 48 2).toNat with
    | 0 => some (.skhash (getA w))
    | 1 => some (.skrd (getA w))
    | 2 => some (.skclr (getA w))
    | _ => none
  | 0x97 =>
    match (cut w 48 2).toNat with
    | 0 => some (.collapseMax (getA w))
    | 1 => some (.collapseMix (getA w))
    | 2 => some (.collapseCdf (getA w))
    | _ => none
  | 0x01 => some (.read (getA w))
  | 0x02 => some (.mov (getA w))
  | 0x04 => some (.const (getA w))
  | 0x05 => some (.consth (getA w))
  | 0x06 => some (.null (getA w))
  | 0x10 => some (.add (getA w))
  | 0x11 => some (.sub (getA w))
  | 0x12 => some (.mul (getA w))
  | 0x13 => some (.mulh (getA w))
  | 0x14 => some (.mad (getA w))
  | 0x15 => some (.div (getA w))
  | 0x16 => some (.rem (getA w))
  | 0x17 => some (.neg (getA w))
  | 0x18 => some (.abs (getA w))
  | 0x19 => some (.min (getA w))
  | 0x1A => some (.max (getA w))
  | 0x1B => some (.and (getA w))
  | 0x1C => some (.or (getA w))
  | 0x1D => some (.xor (getA w))
  | 0x1E => some (.andn (getA w))
  | 0x1F => some (.orn (getA w))
  | 0x20 => some (.not (getA w))
  | 0x21 => some (.shl (getA w))
  | 0x22 => some (.shr (getA w))
  | 0x23 => some (.sha (getA w))
  | 0x24 => some (.rot (getA w))
  | 0x25 => some (.clz (getA w))
  | 0x26 => some (.ctz (getA w))
  | 0x27 => some (.popc (getA w))
  | 0x28 => some (.brev (getA w))
  | 0x29 => some (.bfx (getA w))
  | 0x2A => some (.bfi (getA w))
  | 0x2B => some (.sel (getA w))
  | 0x2C => some (.sext (getA w))
  | 0x2D => some (.zext (getA w))
  | 0x30 => some (.adda (getA w))
  | 0x31 => some (.lea (getA w))
  | 0x32 => some (.alignd (getA w))
  | 0x33 => some (.canon (getA w))
  | 0x3A => some (.tst (getA w))
  | 0x40 => some (.fadd (getA w))
  | 0x41 => some (.fsub (getA w))
  | 0x42 => some (.fmul (getA w))
  | 0x43 => some (.fma (getA w))
  | 0x44 => some (.fmin (getA w))
  | 0x45 => some (.fmax (getA w))
  | 0x46 => some (.fabs (getA w))
  | 0x47 => some (.fneg (getA w))
  | 0x48 => some (.fcpsgn (getA w))
  | 0x49 => some (.fdiv (getA w))
  | 0x4A => some (.fsqrt (getA w))
  | 0x4B => some (.frcp (getA w))
  | 0x4C => some (.frsq (getA w))
  | 0x4D => some (.fexp2 (getA w))
  | 0x4E => some (.flog2 (getA w))
  | 0x4F => some (.ftanh (getA w))
  | 0x50 => some (.fround (getA w))
  | 0x51 => some (.fclass (getA w))
  | 0x54 => some (.fdot2 (getA w))
  | 0x60 => some (.cvtfi (getA w))
  | 0x61 => some (.cvtif (getA w))
  | 0x62 => some (.fcvt (getA w))
  | 0x63 => some (.fwid (getA w))
  | 0x64 => some (.pack2 (getA w))
  | 0x65 => some (.unpack (getA w))
  | 0x70 => some (.steer (getA w))
  | 0x71 => some (.mergeU (getA w))
  | 0x72 => some (.mergeO (getA w))
  | 0x73 => some (.gate (getA w))
  | 0x74 => some (.join (getA w))
  | 0x75 => some (.red (getA w))
  | 0x76 => some (.wadv (getA w))
  | 0x77 => some (.wreset (getA w))
  | 0x78 => some (.kbound (getA w))
  | 0x79 => some (.eos (getA w))
  | 0x7A => some (.eosq (getA w))
  | 0x7B => some (.exit (getX w))
  | 0x7C => some (.exitg (getX w))
  | 0x7D => some (.call (getX w))
  | 0x7E => some (.ret (getA w))
  | 0x7F => some (.spawn (getX w))
  | 0x80 => some (.joinc (getA w))
  | 0x81 => some (.gcall (getX w))
  | 0x82 => some (.gret (getA w))
  | 0x83 => some (.cfgreq (getX w))
  | 0x84 => some (.cfgrel (getA w))
  | 0x85 => some (.cfgtok (getA w))
  | 0x86 => some (.drain (getA w))
  | 0x90 => some (.sklat (getA w))
  | 0x91 => some (.skmix (getA w))
  | 0x92 => some (.skadd (getA w))
  | 0x93 => some (.sknorm (getA w))
  | 0x94 => some (.skemb (getA w))
  | 0x95 => some (.skpos (getA w))
  | 0x98 => some (.ld (getM w))
  | 0x99 => some (.st (getM w))
  | 0x9A => some (.lds (getM w))
  | 0x9B => some (.sts (getM w))
  | 0x9C => some (.ldv (getM w))
  | 0x9D => some (.stv (getM w))
  | 0x9E => some (.reclaim (getM w))
  | 0x9F => some (.stream (getM w))
  | 0xA0 => some (.pref (getM w))
  | 0xA1 => some (.fence (getM w))
  | 0xA2 => some (.qfence (getM w))
  | 0xA3 => some (.monitor (getM w))
  | 0xA4 => some (.waitm (getM w))
  | 0xB0 => some (.amoAdd (getM w))
  | 0xB1 => some (.amoAnd (getM w))
  | 0xB2 => some (.amoOr (getM w))
  | 0xB3 => some (.amoXor (getM w))
  | 0xB4 => some (.amoMin (getM w))
  | 0xB5 => some (.amoMax (getM w))
  | 0xB6 => some (.amoXchg (getM w))
  | 0xB7 => some (.amoFadd (getM w))
  | 0xB8 => some (.amoFmin (getM w))
  | 0xB9 => some (.amoFmax (getM w))
  | 0xBA => some (.cas (getM w))
  | 0xBB => some (.cas2 (getM w))
  | 0xC0 => some (.mm (getE w))
  | 0xC1 => some (.acczero (getE w))
  | 0xC2 => some (.accld (getE w))
  | 0xC3 => some (.accst (getE w))
  | 0xC4 => some (.copy (getE w))
  | 0xC5 => some (.gath (getE w))
  | 0xC6 => some (.gathw (getE w))
  | 0xC7 => some (.scat (getE w))
  | 0xC8 => some (.scatadd (getE w))
  | 0xC9 => some (.tblswap (getE w))
  | 0xCA => some (.cbload (getE w))
  | 0xCB => some (.coll (getE w))
  | 0xCC => some (.osend (getE w))
  | 0xCD => some (.orecv (getE w))
  | 0xCE => some (.xsend (getE w))
  | 0xCF => some (.xget (getE w))
  | 0xD0 => some (.enghnd (getE w))
  | 0xD1 => some (.eng (getE w))
  | 0xD2 => some (.qwait (getE w))
  | 0xE0 => some (.bar (getS w))
  | 0xE1 => some (.bara (getS w))
  | 0xE2 => some (.barw (getS w))
  | 0xE3 => some (.tnow (getS w))
  | 0xE4 => some (.attime (getS w))
  | 0xE5 => some (.elease (getS w))
  | 0xE6 => some (.equery (getS w))
  | 0xE7 => some (.yield (getS w))
  | 0xF0 => some (.rdsr (getS w))
  | 0xF1 => some (.wrsr (getS w))
  | 0xF2 => some (.trap (getS w))
  | 0xF3 => some (.brk (getS w))
  | 0xF4 => some (.hcall (getS w))
  | 0xF5 => some (.fpcset (getS w))
  | 0xF6 => some (.ckpt (getS w))
  | 0xF7 => some (.event (getS w))
  | _ => none

/-- An opcode that R303 assigns to an instruction. -/
def opAssigned (op : Nat) : Bool :=
  decide (op ≤ 0x06) || (decide (0x10 ≤ op) && decide (op ≤ 0x2D)) || (decide (0x30 ≤ op) && decide (op ≤ 0x33)) ||
  (decide (0x38 ≤ op) && decide (op ≤ 0x3A)) || (decide (0x40 ≤ op) && decide (op ≤ 0x54)) ||
  (decide (0x60 ≤ op) && decide (op ≤ 0x65)) || (decide (0x70 ≤ op) && decide (op ≤ 0x86)) ||
  (decide (0x90 ≤ op) && decide (op ≤ 0xA4)) || (decide (0xB0 ≤ op) && decide (op ≤ 0xBB)) ||
  (decide (0xC0 ≤ op) && decide (op ≤ 0xD2)) || (decide (0xE0 ≤ op) && decide (op ≤ 0xE7)) ||
  (decide (0xF0 ≤ op) && decide (op ≤ 0xF7))

/-- Decode a 64-bit word (R305: a reserved opcode, the header marker, or a field that breaks its
format or entry). -/
def decodeWord (w : Word) : Except Reject Instr :=
  match rawDecode w with
  | some i => if i.wellFormed then .ok i else .error .badField
  | none =>
    let op := (cut w 56 8).toNat
    if op = 0xFB then .error .headerMarker else if opAssigned op then .error .badField else .error .reservedOpcode

/-- Decode the instruction whose little-endian bytes come first (R7, R291), with the bytes after it. -/
def decodeBytes (l : List Byte) : Except Reject (Instr × List Byte) :=
  match decodeWord (BitVec.ofNat 64 (ofBytes (l.take 8))) with
  | .ok i => .ok (i, l.drop 8)
  | .error e => .error e

/-- The word of an instruction; an event of the table has none, and STREAM_KV_BIND is stream's word
with DIR 0b10 in its c operand (R386). -/
def encode (i : Instr) : Option Word :=
  match row i with
  | some r => some (putWord r.op r.pay)
  | none => none

/-- What the decoder reads from an instruction whose bits are `w` (the host's question). Every
instruction is one 64-bit word, stored little-endian. -/
def decodeTableWord (nbits w : Nat) : Option Instr :=
  match decodeBytes (toBytes 8 (w % pow2 nbits)) with
  | .ok (i, _) => some i
  | .error _ => none

end Sys2Proof
end

