-- ==== Sys2Proof/Machine/Ops.lean ====
section
/-! DEFINITION. The named operations over the state: reading and updating its parts, raising a fault
and taking it to a trap frame (R38, R447–R453), discarding a block (R40, R158), receipts (R34, R38),
and sending a token (R301, R307). -/
namespace Sys2Proof.Machine

/-- What a meaning answers. -/
abbrev Res := Host.Outcome State Fault Refusal

/-- Update the elements of a list that satisfy `p`. -/
def updWhere {α : Type} (p : α → Bool) (f : α → α) (l : List α) : List α :=
  l.map fun x => if p x then f x else x

/-- The first element with property `p` and its position. -/
def findPos {α : Type} (p : α → Bool) : List α → Option (Nat × α)
  | [] => none
  | x :: xs => if p x then some (0, x) else (findPos p xs).map fun r => (r.1 + 1, r.2)

/-- Remove the element at position `n`. -/
def dropAt {α : Type} (n : Nat) (l : List α) : List α := l.take n ++ l.drop (n + 1)

/-- The numbers of the set bits of a number below `n`, ascending. -/
def setBits (x n : Nat) : List Nat := (List.range n).filter fun k => Nat.testBit x k

/-- Look a key up in an association list. -/
def assoc {α β : Type} [BEq α] (k : α) (l : List (α × β)) : Option β := (l.find? fun x => x.1 == k).map (·.2)

/-- Set a key in an association list. -/
def assocSet {α β : Type} [BEq α] (k : α) (v : β) (l : List (α × β)) : List (α × β) :=
  (l.filter fun x => x.1 != k) ++ [(k, v)]

/-! ### Parts of the state -/

/-- The partition with a number. -/
def part (s : State) (p : Nat) : Part := s.parts.getD p Part.reset

/-- Change a partition. -/
def modPart (s : State) (p : Nat) (f : Part → Part) : State := { s with parts := s.parts.modify p f }

/-- Change the package. -/
def modPkg (s : State) (f : Pkg → Pkg) : State := { s with pkg := f s.pkg }

/-- The partition is live (VALID, R233). -/
def live (s : State) (p : Nat) : Bool := bitAt ((part s p).ent.getD 0 0) 63

/-- A word of the partition table entry (R233). -/
def entWord (s : State) (p k : Nat) : Word := (part s p).ent.getD k 0

/-- The partition's state lies in its save area: nothing of it moves (R54, R179). -/
def savedAway (s : State) (p : Nat) : Bool := (part s p).preSaved

/-- PART_DET (R90). -/
def isDet (s : State) (p : Nat) : Bool := (part s p).det

/-- BASE and COUNT of a range in PART_FRAMES layout (R90). -/
def rangeOf (w : Word) : Nat × Nat := (fld w 0 20, fld w 32 21)

/-- The FRAME values of two ranges. -/
def rangeMeet (a b : Nat × Nat) : Nat × Nat :=
  let lo := Nat.max a.1 b.1
  (lo, Nat.min (a.1 + a.2) (b.1 + b.2) - lo)

/-- The range that a resize in progress names; none when it names none (R240). -/
def newRange (t : Part) : Option (Nat × Nat) :=
  let w := t.rszNew.getD 9 0
  if t.rszBusy && w != 0 then some (rangeOf w) else none

/-- PART_FRAMES: base and count (R90); from the scrub of a resize on, without the departing values (R245). -/
def frameRange (s : State) (p : Nat) : Nat × Nat :=
  let t := part s p
  match newRange t with
  | some r => if 6 ≤ t.rszStep then rangeMeet (rangeOf t.frames) r else rangeOf t.frames
  | none => rangeOf t.frames

/-- A FRAME value lies in the partition's range (R28). -/
def inRange (s : State) (p f : Nat) : Bool :=
  let r := frameRange s p
  decide (r.1 ≤ f) && decide (f < r.1 + r.2)

/-- The bay set that a resize names (R240). -/
def newBays (t : Part) : Nat := (t.rszNew.getD 0 0).toNat + (t.rszNew.getD 1 0).toNat * pow2 64

/-- A resize has moved the partition's work out of its departing bays (R242). -/
def migrated (t : Part) : Bool := t.rszBusy && decide (3 ≤ t.rszStep)

/-- The bays in which a partition's work may stand, as a set: PART_BAYS; during a resize the arriving ones too, until its
departing bays are empty, and then the new set alone (R242, R245). -/
def workBays (t : Part) : Nat := if migrated t then newBays t else if t.rszBusy then Nat.lor t.bays.toNat (newBays t) else t.bays.toNat

/-- The bays of a partition, ascending. -/
def baysOf (s : State) (p : Nat) : List Nat := setBits (workBays (part s p)) 128

/-- The partition that owns a bay. -/
def bayOwner (s : State) (bay : Nat) : Option Nat :=
  (List.range 64).find? fun p => live s p && decide (bay < 128) && Nat.testBit (workBays (part s p)) bay

/-- A departing bay of a resize, whose work waits to be moved (R242). -/
def departing (t : Part) (bay : Nat) : Bool := t.rszBusy && !migrated t && t.bays.getLsbD bay && !Nat.testBit (newBays t) bay

/-- The key under which the state of a bay that a partition's own name stands for is kept: the bay itself, or where its
image lies parked (R242). -/
def nameKey (s : State) (p bay : Nat) : Nat :=
  if (baysOf s p).contains bay then bay else (assoc bay (part s p).parkedImgs).getD bay

/-- A frame by its number. -/
def frame? (s : State) (p f : Nat) : Option Frame := s.frames.find? fun x => x.part == p && x.num == f

/-- Change a frame. -/
def modFrame (s : State) (p f : Nat) (g : Frame → Frame) : State :=
  { s with frames := updWhere (fun x => x.part == p && x.num == f) g s.frames }

/-- The blocks in flight of a frame, in the order they were fetched (R33). -/
def blocksOf (s : State) (p f : Nat) : List Block := s.blocks.filter fun b => b.part == p && b.frame == f

/-- A block in flight. -/
def block? (s : State) (p f q : Nat) : Option Block :=
  s.blocks.find? fun b => b.part == p && b.frame == f && b.seq == q

/-- Change a block in flight. -/
def modBlock (s : State) (p f q : Nat) (g : Block → Block) : State :=
  { s with blocks := updWhere (fun b => b.part == p && b.frame == f && b.seq == q) g s.blocks }

/-- The block is the oldest in flight of its frame (R33). -/
def isOldest (s : State) (p f q : Nat) : Bool :=
  match blocksOf s p f with
  | [] => true
  | b :: _ => b.seq == q

/-- The blocks of the frame older than block `q`, youngest first. -/
def olderBlocks (s : State) (p f q : Nat) : List Block :=
  ((blocksOf s p f).takeWhile fun b => b.seq != q).reverse

/-- A grid cell-context. -/
def ctx? (s : State) (bay cell c : Nat) : Option Ctx :=
  s.ctxs.find? fun x => x.bay == bay && x.cell == cell && x.ctx == c

/-- Change a grid cell-context. -/
def modCtx (s : State) (bay cell c : Nat) (g : Ctx → Ctx) : State :=
  { s with ctxs := updWhere (fun x => x.bay == bay && x.cell == cell && x.ctx == c) g s.ctxs }

/-- A placed region. -/
def region? (s : State) (bay r : Nat) : Option Region := s.regions.find? fun x => x.bay == bay && x.idx == r

/-- Change a placed region. -/
def modRegion (s : State) (bay r : Nat) (g : Region → Region) : State :=
  { s with regions := updWhere (fun x => x.bay == bay && x.idx == r) g s.regions }

/-- The region of a partition that a name stands for (R220). -/
def regionNamed (s : State) (p : Nat) (n : Nat × Nat) : Option Region := s.regions.find? fun x => x.part == p && x.name == n

/-- An entry of a region. -/
def entryOf (r : Region) (e : EntryRec) : Bool := e.part == r.part && e.bay == r.name.1 && e.region == r.name.2

/-- Change the current instance. -/
def modCur (s : State) (g : Inst → Inst) : State := { s with cur := g s.cur }

/-- The number of the current instance's frame. -/
def curFrame (s : State) : Nat := s.cur.tag.frame.toNat

/-- The block of the current instance, none in a grid. -/
def curBlock (s : State) : Option Block :=
  match s.cur.grid with
  | none => block? s s.cur.part (curFrame s) s.cur.seq
  | some _ => none

/-- The region of the current instance, none in a block. -/
def curRegion (s : State) : Option Region :=
  match s.cur.grid with
  | some r => region? s s.cur.bay r
  | none => none

/-- The key of the bay-scoped state that the current instance uses (R54, R242). -/
def curKey (s : State) : Nat :=
  match s.cur.grid with
  | some r => ((region? s s.cur.bay r).map (·.key)).getD s.cur.bay
  | none => ((frame? s s.cur.part (curFrame s)).map (·.key)).getD s.cur.bay

/-- The bay that the current instance's own targets are numbered in (R26, R54). -/
def curName (s : State) : Nat :=
  match s.cur.grid with
  | some r => ((region? s s.cur.bay r).map (·.name.1)).getD s.cur.bay
  | none => ((frame? s s.cur.part (curFrame s)).map (·.home)).getD s.cur.bay

/-- The current instance stands in a grid, or its block is the oldest in flight. -/
def curOldest (s : State) : Bool := s.cur.grid.isSome || isOldest s s.cur.part (curFrame s) s.cur.seq

/-- The current instance waits and is run again later (R37: counted in flight). -/
def waitCur (s : State) : State := { s with waits := s.waits ++ [s.cur] }

/-- Wait, remembering a stage. -/
def waitStage (s : State) (k : Nat) : State := waitCur (modCur s fun i => { i with stage := some k })

/-- A tag as a word (R25). -/
def tagWord (t : Tag) : BitVec 32 := t.frame ++ t.wave ++ t.ctx ++ 0#1

/-- The tag of a word (R25). -/
def tagOf (w : BitVec 32) : Tag := ⟨BitVec.extractLsb' 12 20 w, BitVec.extractLsb' 4 8 w, BitVec.extractLsb' 1 3 w⟩

/-- A fresh free value: a value that the manual leaves open (log 20). -/
def freshWord (s : State) : Word × State := (Sys2Proof.Config.freeWord s.fresh, { s with fresh := s.fresh + 1 })

/-! ### Fault codes (R449) -/

def F_ILLOP : BitVec 8 := 0x01
def F_NOEXIT : BitVec 8 := 0x02
def F_MULTIEXIT : BitVec 8 := 0x03
def F_DUPTOK : BitVec 8 := 0x04
def F_TAGRANGE : BitVec 8 := 0x05
def F_EOSSKEW : BitVec 8 := 0x06
def F_TAGSKEW : BitVec 8 := 0x07
def F_PAGE : BitVec 8 := 0x08
def F_PROT : BitVec 8 := 0x09
def F_NONCANON : BitVec 8 := 0x0A
def F_ALIGN : BitVec 8 := 0x0B
def F_VGONE : BitVec 8 := 0x0C
def F_FRAMEOVF : BitVec 8 := 0x0D
def F_QUOTA : BitVec 8 := 0x0E
def F_PLANEOVF : BitVec 8 := 0x0F
def F_CVTOVF : BitVec 8 := 0x10
def F_WMSTALL : BitVec 8 := 0x11
def F_CFGECC : BitVec 8 := 0x12
def F_MEMECC : BitVec 8 := 0x13
def F_INTEG : BitVec 8 := 0x14
def F_TRAP : BitVec 8 := 0x15
def F_BRK : BitVec 8 := 0x16
def F_DETVIOL : BitVec 8 := 0x17
def F_ENGINE : BitVec 8 := 0x18
def F_LINK : BitVec 8 := 0x19
def F_ENERGY : BitVec 8 := 0x1A
def F_HCALL : BitVec 8 := 0x1B

/-- FLAGS of a record (R448). -/
def flUnalloc : BitVec 8 := 0x01
def flMalformed : BitVec 8 := 0x02
def flGrid : BitVec 8 := 0x04
def flNoframe : BitVec 8 := 0x08
def flEngine : BitVec 8 := 0x10
def flNovec : BitVec 8 := 0x20
def flAction : BitVec 8 := 0x40
def flHost : BitVec 8 := 0x80

/-- A record with every field zero but its code and its partition; INDEX 255 names no instruction (R448). -/
def recBase (code : BitVec 8) (p : Nat) : FaultRec :=
  { code := code, flags := 0, index := 255, part := p, pkg := false, bseq := 0, tag := 0, cell := 0, ctx := 0,
    bay := 0, region := 0, queue := 0, fname := 0, addr := 0, g4 := 0, g5 := 0, aux := 0, seq := 0, actn := 0, acti := 0 }

/-- FNAME of a frame, 0 where it is not allocated. -/
def fnameOf (s : State) (p f : Nat) : Word := ((frame? s p f).map (·.fname)).getD 0

/-- The record of a fault that the current instance raises (R448). -/
def recCur (s : State) (code : BitVec 8) (g4 g5 : Word) : FaultRec :=
  let i := s.cur
  let b := recBase code i.part
  match i.grid with
  | some r =>
    { b with flags := flGrid, tag := tagWord i.tag, cell := i.cell, ctx := i.ctx, bay := i.bay, region := r,
             fname := fnameOf s i.part i.tag.frame.toNat, addr := ((region? s i.bay r).map (·.image)).getD 0,
             g4 := g4, g5 := g5 }
  | none =>
    { b with index := i.idx, tag := tagWord i.tag, bseq := i.seq, bay := i.bay,
             fname := fnameOf s i.part i.tag.frame.toNat, addr := ((curBlock s).map (·.addr)).getD 0,
             g4 := g4, g5 := g5 }

/-- The eight words g0–g7 of a record (R448). -/
def recWords (r : FaultRec) : List Word :=
  [ r.code ++ r.flags ++ BitVec.ofNat 8 r.index ++ BitVec.ofNat 8 (r.part + if r.pkg then 64 else 0) ++ BitVec.ofNat 32 r.bseq,
    r.tag ++ BitVec.ofNat 8 r.cell ++ BitVec.ofNat 3 r.ctx ++ BitVec.ofNat 7 r.bay ++ BitVec.ofNat 5 r.region ++
      BitVec.ofNat 5 r.queue ++ 0#4,
    r.fname, r.addr, r.g4, r.g5, r.aux,
    BitVec.ofNat 32 r.seq ++ BitVec.ofNat 8 r.actn ++ 0#1 ++ BitVec.ofNat 7 r.acti ++ 0#16 ]

/-! ### Plain bytes of physical memory -/

/-- What an unlisted address reads as: HBM is scrubbed to 0 (R89, R234); for host memory see log 2. -/
def memDefault : Byte := 0

/-- The byte at an address. -/
def rdByte : Memory → Nat → Byte
  | [], _ => memDefault
  | (b, v) :: m, a => if b == a then v else if a < b then memDefault else rdByte m a

/-- Set the byte at an address, keeping the canonical form. -/
def wrByte : Memory → Nat → Byte → Memory
  | [], a, v => if v == memDefault then [] else [(a, v)]
  | (b, w) :: m, a, v =>
    if a < b then (if v == memDefault then (b, w) :: m else (a, v) :: (b, w) :: m)
    else if a == b then (if v == memDefault then m else (a, v) :: m)
    else (b, w) :: wrByte m a v

/-- `n` bytes from an address upwards. -/
def rdBytes (m : Memory) (a : Nat) : Nat → List Byte
  | 0 => []
  | n + 1 => rdByte m a :: rdBytes m (a + 1) n

/-- Write bytes from an address upwards. -/
def wrBytes (m : Memory) (a : Nat) : List Byte → Memory
  | [] => m
  | b :: bs => wrBytes (wrByte m a b) (a + 1) bs

/-- The canonical form of a sparse memory: addresses strictly rising, no entry equal to the default. -/
def Memory.wf : Memory → Bool
  | [] => true
  | [(_, v)] => v != memDefault
  | (a, v) :: (b, w) :: m => v != memDefault && decide (a < b) && Memory.wf ((b, w) :: m)

/-- Remove the bytes of [lo, lo + len): they read as the default. -/
def clearRange (m : Memory) (lo len : Nat) : Memory := m.filter fun c => decide (c.1 < lo) || decide (lo + len ≤ c.1)

/-- A little-endian 64-bit word (R7). -/
def rd64 (m : Memory) (a : Nat) : Word := BitVec.ofNat 64 (ofBytes (rdBytes m a 8))

/-- Write a little-endian 64-bit word. -/
def wr64 (m : Memory) (a : Nat) (v : Word) : Memory := wrBytes m a (toBytes 8 v.toNat)

/-- The physical address exists and is not reserved (R103): HBM, or host memory. -/
def paOk (pa : Nat) : Bool := decide (pa < 0x6000000000) || (decide (0x8000000000000 ≤ pa) && decide (pa < 0x10000000000000))

/-- A wake event reaches an arming (R147): the first one stands, and the lowest cause of those of one cycle (R390). -/
def noteCause (s : State) (cause : Nat) (m : Monitor) : Monitor :=
  if m.cause == 0 || (m.since == s.pkg.cycle && decide (cause < m.cause)) then { m with cause := cause, since := s.pkg.cycle } else m

/-- An armed frame whose line a write or an eviction touches notes the event (R147, R390). -/
def wakeLine (s : State) (line cause : Nat) : State :=
  { s with frames := s.frames.map fun f =>
      match f.mon with
      | some m => if m.line == line then { f with mon := some (noteCause s cause m) } else f
      | none => f }

/-- Every armed frame of a partition notes pre-emption or resize (R147, cause 3). -/
def wakeAll (s : State) (p : Nat) : State :=
  { s with frames := s.frames.map fun f =>
      match f.mon with
      | some m => if f.part == p then { f with mon := some (noteCause s 3 m) } else f
      | none => f }

/-- Bytes written to physical memory by the device or the host: the poison of words that are rewritten
whole clears (R115), and monitors of the lines wake (R147). -/
def pokeBytes (s : State) (pa : Nat) (bs : List Byte) : State :=
  let n := bs.length
  let s := { s with mem := wrBytes s.mem pa bs,
                    poison := s.poison.filter fun x => !((x.1 == .mem || x.1 == .hbm) && decide (pa ≤ 8 * x.2) && decide (8 * x.2 + 8 ≤ pa + n)) }
  (List.range ((pa % 64 + n + 63) / 64)).foldl (fun s k => wakeLine s (pa / 64 + k) 1) s

/-! ### Interrupts, the hypervisor fault queue and trap delivery -/

/-- Post a MSI-X vector of a virtual function; function 64 is the physical function. -/
def postVec (s : State) (fn vec : Nat) : State := { s with msix := s.msix ++ [(fn, vec)] }

/-- Post an interrupt, or log it while VD_RES is 0 (R194, R195). -/
def interrupt (s : State) (p src vec : Nat) (data : Word) : State :=
  let t := part s p
  if t.vdRes then postVec s p vec
  else if (t.ilHead - t.ilTail).toNat == t.ilSize.toNat then
    modPart s p fun t => { t with ilLost := if t.ilLost == 0xFFFFFFFF then t.ilLost else t.ilLost + 1 }
  else
    let a := t.ilBase.toNat + t.ilHead.toNat % t.ilSize.toNat * 32
    let w0 : Word := t.vdGen ++ BitVec.ofNat 8 src ++ 0#18 ++ BitVec.ofNat 6 vec
    let bs := toBytes 8 w0.toNat ++ toBytes 8 data.toNat ++ toBytes 8 s.pkg.podTime.toNat ++ toBytes 8 t.ilSeq.toNat
    modPart (pokeBytes s a bs) p fun t => { t with ilHead := t.ilHead + 1, ilSeq := t.ilSeq + 1 }

/-- The hypervisor fault queue has room (R456). -/
def hfqRoom (k : Pkg) : Bool := decide ((k.hfqHead - k.hfqTail).toNat < k.hfqSize.toNat)

/-- Write one record into the ring and into the error log that the management port reads, and post vector 0 (R456, R468). -/
def hfqPut (s : State) (r : FaultRec) : State :=
  let k := s.pkg
  let a := k.hfqBase.toNat + k.hfqHead.toNat % k.hfqSize.toNat * 64
  postVec (modPkg (pokeBytes s a ((recWords r).flatMap fun w => toBytes 8 w.toNat)) fun k => { k with hfqHead := k.hfqHead + 1, errLog := k.errLog ++ [r] }) 64 0

/-- The settle step of a pre-emption runs in the partition (R179). -/
def settling (s : State) (p : Nat) : Bool := (part s p).preBusy && !(part s p).preSaved

/-- A class H record (R456): a record that finds the ring full is dropped and counted, but `must`
(a stage-2 fault or an hcall) waits until there is room. What arises in a settle step waits for the restore (R180). -/
def hfqWrite (s : State) (r : FaultRec) (must : Bool) : State :=
  if !r.pkg && settling s r.part then modPart s r.part fun t => { t with hvQ := t.hvQ ++ [(r, must)] }
  else if hfqRoom s.pkg && (s.pkg.hfqWait.isEmpty || !must) then hfqPut s r
  else if must then modPkg s fun k => { k with hfqWait := k.hfqWait ++ [r] }
  else modPkg s fun k => { k with hfqLost := if k.hfqLost == 0xFFFFFFFF then k.hfqLost else k.hfqLost + 1 }

/-- Waiting records enter the ring while it has room. -/
def hfqFlush (s : State) : State :=
  s.pkg.hfqWait.foldl (fun s r =>
    if hfqRoom s.pkg then hfqPut (modPkg s fun k => { k with hfqWait := k.hfqWait.drop 1 }) r else s) s

/-- Number a record: the partition's, or the package's for class H faults of the package (R448). -/
def numbered (s : State) (r : FaultRec) : FaultRec × State :=
  if r.pkg then ({ r with seq := s.pkg.pkgSeq }, modPkg s fun k => { k with pkgSeq := (k.pkgSeq + 1) % pow2 32 })
  else ({ r with seq := (part s r.part).recSeq }, modPart s r.part fun t => { t with recSeq := (t.recSeq + 1) % pow2 32 })

/-- Number a class H record and write it. -/
def hfqFault (s : State) (r : FaultRec) (must : Bool) : State :=
  let n := numbered s r
  hfqWrite n.2 n.1 must

/-- Trap frames of a partition that live (R451). -/
def liveTraps (s : State) (p : Nat) : Nat := (s.frames.filter fun f => f.part == p && f.trap.isSome).length

/-- A record bound for TRAP_VEC (R450): it joins the records that await a trap frame. A class N record
that finds 64 waiting is dropped and counted; a record of a halted frame or a frozen region waits with
its holder. -/
def deliver (s : State) (r : FaultRec) (v : Victim) (classN : Bool) : State :=
  let t := part s r.part
  if classN && decide (64 + (16 - liveTraps s r.part) ≤ t.trapQ.length) then
    modPart s r.part fun t => { t with trapLost := if t.trapLost == 0xFFFFFFFF then t.trapLost else t.trapLost + 1 }
  else
    let n := numbered s r
    modPart n.2 r.part fun t => { t with trapQ := t.trapQ ++ [⟨n.1, v, none⟩] }

/-- A class N record (R447). -/
def deliverN (s : State) (r : FaultRec) (v : Victim) : State := deliver s { r with flags := r.flags ||| flNoframe } v true

/-! ### Discarding and halting -/

/-- An instance belongs to a block. -/
def ofBlock (p f q : Nat) (i : Inst) : Bool :=
  i.grid.isNone && i.part == p && i.tag.frame.toNat == f && i.seq == q

/-- A queue entry belongs to a block. -/
def entOfBlock (p f q : Nat) (e : QEntry) : Bool :=
  match e.blk with
  | some b => e.part == p && e.tok.tag.frame.toNat == f && b.1 == q
  | none => false

/-- The opcode of a word. -/
def opOf (w : Word) : Nat := fld w 56 8

/-- The sequence number of an action whose block is gone: that of no block (R33). -/
def orphanSeq : Nat := pow2 32

/-- A waiting instance when a block goes: a cfgreq, cfgrel or drain that has fired stays in effect, without its block (R369). -/
def keepFired (p f q : Nat) (i : Inst) : Option Inst :=
  if !ofBlock p f q i then some i
  else if i.stage == some 9 && (opOf i.word == 0x83 || opOf i.word == 0x84 || opOf i.word == 0x86) then some { i with seq := orphanSeq }
  else none

/-- Everything that a block holds goes with it (R40, R158): resting tokens, queued and travelling tokens,
instances, placed accesses; `stores` says whether its held stores are dropped too. -/
def clearBlock (s : State) (p f q : Nat) (stores : Bool) : State :=
  { s with
    blocks := s.blocks.filter fun b => !(b.part == p && b.frame == f && b.seq == q)
    slots := s.slots.filter fun x => !(x.part == p && x.frame == f && x.blk == some q)
    queues := s.queues.filter fun e => !entOfBlock p f q e
    net := s.net.filter fun x => !(x.part == p && x.tok.tag.frame.toNat == f && x.seq == some q)
    ready := s.ready.filter fun i => !ofBlock p f q i
    pipe := s.pipe.filter fun i => !ofBlock p f q i
    waits := s.waits.filterMap (keepFired p f q)
    stores := if stores then s.stores.filter fun h => !(h.part == p && h.frame == f && h.seq == q && h.region.isNone) else s.stores
    placed := s.placed.filter fun x => !(x.part == p && x.frame == f && x.grid.isNone && x.chain == q)
    images := s.images.map fun m =>
      if m.part == p && m.frame == f then
        { m with slots := m.slots.filter (fun x => !(x.blk == some q)), entries := m.entries.filter (fun e => !entOfBlock p f q e),
                 insts := m.insts.filter (fun i => !ofBlock p f q i), appended := m.appended.filter (fun x => !(x.seq == some q)) }
      else m }

/-- Discard a list of blocks (R40). -/
def discardAll (s : State) (l : List Block) : State := l.foldl (fun s b => clearBlock s b.part b.frame b.seq true) s

/-- The blocks of a frame younger than block `q`. -/
def youngerBlocks (s : State) (p f q : Nat) : List Block := ((blocksOf s p f).dropWhile fun b => b.seq != q).drop 1

/-- Discard every younger block (R40). -/
def discardYounger (s : State) (p f q : Nat) : State := discardAll s (youngerBlocks s p f q)

/-- Count and lowest index of the actions of a block left in effect (R369, R373, R446, R448). -/
def withActs (r : FaultRec) (acts : List Nat) : FaultRec :=
  { r with actn := Nat.min 255 acts.length, acti := acts.foldl Nat.min (acts.headD 0),
           flags := if acts.isEmpty then r.flags else r.flags ||| flAction }

/-- Taking an exception in a frame (R38, R447, R450, R453): the block and every younger block is discarded,
the frame halts with its record, and the record goes to TRAP_VEC, or from a trap frame to the hypervisor. -/
def haltFrame (s : State) (p f q : Nat) (r : FaultRec) : State :=
  match frame? s p f with
  | none => s
  | some fr =>
    if fr.fault.isSome then s
    else
      let r := withActs r (((block? s p f q).map (·.acts)).getD [])
      let s := discardYounger s p f q
      let s := clearBlock s p f q true
      let s := modFrame s p f fun x => { x with fault := some r, nextAddr := none }
      if fr.trap.isSome then hfqFault s r false else deliver s r (.frame f) false

/-- Raise a fault of a block (R38). A fault of a speculative block is held until the block becomes the
oldest in flight (R107, R306, R373; for the other codes DEDUCED, log 25), and one of a spilled frame until its reload, by which
alone it leaves the cellar (R31). -/
def raiseBlock (s : State) (p f q : Nat) (r : FaultRec) : State :=
  if isOldest s p f q && ((frame? s p f).map (·.resident)).getD false then haltFrame s p f q r
  else modBlock s p f q fun b => { b with held := match b.held with | none => some r | some x => some x }

/-- Of instances of one region that fault in one cycle, the one with the lowest cell number, then the lowest context, records
its fault (R452); of one context of a deterministic partition the one with the lowest FNAME, then tag, whatever their arrival
(R454). DEDUCED, log 124. -/
def faultsBefore (s : State) (x : Region) (r : FaultRec) : Bool :=
  match x.fault with
  | some o => x.faultAt == s.pkg.cycle && (decide (r.cell < o.cell) || (r.cell == o.cell && (decide (r.ctx < o.ctx) ||
      (r.ctx == o.ctx && isDet s x.part && (decide (r.fname.toNat < o.fname.toNat) || (r.fname == o.fname && decide (r.tag.toNat < o.tag.toNat)))))))
  | none => false

/-- A record takes the place of another of the same region that still waits for its trap frame. -/
def replaceRec (s : State) (x : Region) (r : FaultRec) : State :=
  let swap := fun (t : TrapItem) => t.victim == .region x.bay x.idx
  if (part s x.part).trapQ.any swap then
    modPart (modRegion s x.bay x.idx fun x => { x with fault := some r }) x.part fun p =>
      { p with trapQ := updWhere swap (fun t => { t with rcd := { r with seq := t.rcd.seq } }) p.trapQ }
  else s

/-- Freeze a region (R447, R452): the first fault is recorded and delivered; a later faulting instance stays
unconsumed with it. -/
def freezeRegion (s : State) (bay g : Nat) (r : FaultRec) (i : Option Inst) : State :=
  match region? s bay g with
  | none => s
  | some x =>
    if x.fault.isSome then
      let s := modRegion s bay g fun x => { x with faulting := x.faulting ++ i.toList }
      if i.isSome && faultsBefore s x r then replaceRec s x r else s
    else
      deliver (modRegion s bay g fun x => { x with fault := some r, faulting := x.faulting ++ i.toList, faultAt := s.pkg.cycle })
        r (.region bay g) false

/-- Raise a record from the current instance, class B (R447). -/
def faultRec (s : State) (r : FaultRec) : State :=
  match s.cur.grid with
  | some g => freezeRegion s s.cur.bay g r (some s.cur)
  | none => raiseBlock s s.cur.part (curFrame s) s.cur.seq r

/-- fault(code) of R307 with its detail words (R449). -/
def fault (s : State) (code : BitVec 8) (g4 g5 : Word) : State := faultRec s (recCur s code g4 g5)

/-- F_ILLOP of the current instance: the offending word (R449). -/
def illop (s : State) : State := fault s F_ILLOP s.cur.word 0

/-- fault with an AUX word (R448). -/
def faultAux (s : State) (code : BitVec 8) (g4 g5 aux : Word) : State :=
  faultRec s { recCur s code g4 g5 with aux := aux }

/-- Note that the current instance's action stays in effect whatever becomes of its block (R369, R373). -/
def noteAct (s : State) : State :=
  match s.cur.grid with
  | some _ => s
  | none => modBlock s s.cur.part (curFrame s) s.cur.seq fun b => { b with acts := b.acts ++ [s.cur.idx] }

/-! ### Receipts (R34, R38, R41) -/

/-- A second write, null or store at one place of a block (R38): `kind` and `place` go into AUX, and the token's tag into the
record (R448). -/
def dupFault (s : State) (kept refused : Word) (kind place sender : Nat) (tag : Tag) (p f q : Nat) : State :=
  let b := block? s p f q
  raiseBlock s p f q
    { recBase F_DUPTOK p with
        index := sender, bseq := q, tag := tagWord tag, fname := fnameOf s p f,
        addr := (b.map (·.addr)).getD 0, bay := ((frame? s p f).map (·.bay)).getD 0, g4 := kept, g5 := refused,
        aux := BitVec.ofNat 64 (kind * 1024 + place) }

/-- A write or a null reaches register g of a block. -/
def recvReg (s : State) (p f q g : Nat) (v : Option Word) (sender : Nat) (tag : Tag) : State :=
  match block? s p f q with
  | none => s
  | some b =>
    match assoc g b.wr with
    | some old => dupFault s (old.getD 0) (v.getD 0) 1 (0x200 + g) sender tag p f q
    | none => modBlock s p f q fun b => { b with wr := b.wr ++ [(g, v)] }

/-- A write or a null reaches soft register k of a block. -/
def recvSoft (s : State) (p f q k : Nat) (v : Option (BitVec 512)) (sender : Nat) (tag : Tag) : State :=
  match block? s p f q with
  | none => s
  | some b =>
    match assoc k b.sk with
    | some old => dupFault s ((old.getD 0).setWidth 64) ((v.getD 0).setWidth 64) 1 (0x240 + k) sender tag p f q
    | none => modBlock s p f q fun b => { b with sk := b.sk ++ [(k, v)] }

/-- A store of a value, or a null access, reaches an LSID of a block. -/
def recvStore (s : State) (p f q l sender : Nat) (v : Word) (tag : Tag) : State :=
  match block? s p f q with
  | none => s
  | some b =>
    match assoc l b.st with
    | some old => dupFault s old v 2 l sender tag p f q
    | none => modBlock s p f q fun b => { b with st := b.st ++ [(l, v)] }

/-- The soft register of kind text that a plain token writes (R87). -/
def textOf (v : Word) : BitVec 512 := (1#2 : BitVec 2) ++ (0 : BitVec 486) ++ BitVec.extractLsb' 0 24 v

/-! ### Sending (R301, R307) -/

/-- A value or a null as a receipt: an end-of-stream marker acts as a null (R27). -/
def receiptOf (k : Kind) (v : Word) : Option Word := if k == .data then some v else none

/-- A token enters the network. -/
def launchTok (s : State) (x : Flight) : State := { s with net := s.net ++ [x] }

/-- The second detail word of a failed check (R449): the size in bytes, or what the access was. -/
def accDetail (code : BitVec 8) (n : Nat) (store fetch : Bool) : Word :=
  BitVec.ofNat 64 (if code == F_ALIGN then n else if code == F_PROT || code == F_PAGE then (if store then 1 else 0) + (if fetch then 2 else 0) else 0)

/-- The token of the current instance. -/
def curTok (s : State) (k : Kind) (v : Word) : Token := ⟨s.cur.tag, k, if k == .data then v else 0, s.cur.ord, s.cur.adm, none⟩

/-- A block instance sends to a target (R301). -/
def sendBlock (s : State) (t : Tgt) (k : Kind) (v : Word) : State :=
  let i := s.cur
  let f := curFrame s
  if !bitAt t 9 then
    launchTok s ⟨i.part, curTok s k v, .dest (BitVec.ofNat 7 (curName s) ++ t), some i.seq, i.idx, none⟩
  else if fld t 6 4 == 0b1000 then recvReg s i.part f i.seq (fld t 0 6) (receiptOf k v) i.idx i.tag
  else if fld t 3 7 == 0b1001000 then recvSoft s i.part f i.seq (fld t 0 3) ((receiptOf k v).map textOf) i.idx i.tag
  else launchTok s ⟨i.part, curTok s k v, .dest (BitVec.ofNat 7 (curName s) ++ t), none, i.idx, none⟩

/-- Route k of an R-word (R211). -/
def routeOf (rw : Word) (k : Nat) : Nat := fld rw (16 * k) 16

/-- The region whose results wait for its thaw: a callee (R228). -/
def isCallee (r : Region) : Bool := !r.planes.isEmpty

/-- What tells apart the links of a grid's cells: tokens of one sender to one place keep their order (R164). -/
def gridSender (i : Inst) : Nat := 256 + i.cell * 8 + i.ctx

/-- The sender of the argument of a grid call, which its checkpoint does not log (R225, R231). -/
def gcallSender (i : Inst) : Nat := 4096 + gridSender i

/-- The sender of the tokens that a recovery of the region replays (R231). -/
def replaySender (r : Region) : Nat := 8192 + r.name.1 * 32 + r.name.2

/-- A route to an exit port that is not valid (R219): the record's g4 is the instruction word, and its g5 the 16 bits of
the route. DESIGN CHOICE, log 90. -/
def illopRoute (s : State) (rt : Nat) : State := fault s F_ILLOP s.cur.word (BitVec.ofNat 64 rt)

/-- A token leaves region r along a route to an exit port (R219): held for a callee's thaw (R228) or a checkpoint
(R230), else on to DEST. -/
def exitPort (s : State) (r : Region) (rt : Nat) (tok : Token) : State :=
  let w := r.exits.getD (nbits rt 0 6) 0
  if !bitAt w 63 then illopRoute s rt
  else
    let tok := if bitAt w 20 then { tok with tag := { tok.tag with ctx := BitVec.extractLsb' 17 3 w } } else tok
    let x : Flight := ⟨r.part, tok, .dest (BitVec.extractLsb' 0 17 w), none, gridSender s.cur, none⟩
    if r.ck then modRegion s r.bay r.idx (fun r => { r with exitHold := r.exitHold ++ [x] }) else launchTok s x

/-- The cell that a route of a cell leads to. -/
def routeCell (cell rt : Nat) : Nat :=
  let x := signed (nbits rt 10 5) 5 + ((cell % 16 : Nat) : Int)
  let y := signed (nbits rt 5 5) 5 + ((cell / 16 : Nat) : Int)
  (x + 16 * y).toNat

/-- The slot with a number. -/
def slotOf (n : Nat) : Slot := if n == 0 then .a else if n == 1 then .b else if n == 2 then .c else .p

/-- The number of a slot. -/
def slotNo : Slot → Nat
  | .a => 0
  | .b => 1
  | .c => 2
  | .p => 3

/-- A token goes along a route of the current grid instance (R211, R219). -/
def sendRoute (s : State) (rt : Nat) (tok : Token) (cfg : Option (BitVec 2)) : State :=
  let i := s.cur
  match curRegion s with
  | none => s
  | some r =>
    if nbits rt 15 1 == 1 then
      (match r.planes with
       | [] => exitPort s r rt tok
       | pl :: _ =>
         -- the caller's continuation: where route T0 of the gcall context leads, nowhere when T0 is null (R301, R367)
         match pl.ctxs.find? fun c => c.cell == pl.caller.1 && c.ctx == pl.caller.2 with
         | none => s
         | some c =>
           let cr := routeOf c.rw (fld c.iw 38 2)
           let x : Flight := ⟨r.part, { tok with tag := { tok.tag with ctx := BitVec.ofNat 3 cr } },
             .cell r.bay (routeCell c.cell cr) (slotOf (nbits cr 3 2)), none, gridSender s.cur, none⟩
           if !bitAt (r.exits.getD (nbits rt 0 6) 0) 63 then illopRoute s rt
           else if BitVec.extractLsb' 38 10 c.iw == nullT then s
           else modRegion s r.bay r.idx (fun r => { r with exitHold := r.exitHold ++ [x] }))
    else
      launchTok s ⟨i.part, { tok with tag := { tok.tag with ctx := BitVec.ofNat 3 rt } },
        .cell i.bay (routeCell i.cell rt) (slotOf (nbits rt 3 2)), none, gridSender i, cfg⟩

/-- The phase entry of the current instance lets route k receive (R214). -/
def phaseAllows (s : State) (k : Nat) : Bool :=
  match s.cur.phase with
  | some e => Nat.testBit e (5 + k)
  | none => true

/-- A grid instance sends to a target: through the phase logic, along the route that it names (R210, R214). -/
def sendGrid (s : State) (t : Tgt) (k : Kind) (v : Word) : State :=
  let rk := fld t 0 2
  if phaseAllows s rk then
    match ctx? s s.cur.bay s.cur.cell s.cur.ctx with
    | some c => sendRoute s (routeOf c.rw rk) (curTok s k v) none
    | none => s
  else s

/-- A token of a grid instance for an entry of its bay's entry table (R301, R394). -/
def sendEntry (s : State) (t : Tgt) (k : Kind) (v : Word) : State :=
  launchTok s ⟨s.cur.part, curTok s k v, .dest (BitVec.ofNat 7 (curName s) ++ t), none, gridSender s.cur, none⟩

/-- send, sendnull and sendeos of R307. -/
def sendKind (s : State) (t : Tgt) (k : Kind) (v : Word) : State :=
  if t == nullT then s
  else match s.cur.grid with
    | some _ => if fld t 6 4 == 0b1010 then sendEntry s t k v else sendGrid s t k v
    | none => sendBlock s t k v

/-- send(t, v) of R307. -/
def send (s : State) (t : Tgt) (v : Word) : State := sendKind s t .data v

/-- Send to each of a list of targets in their order. -/
def sendAll (s : State) (ts : List Tgt) (k : Kind) (v : Word) : State := ts.foldl (fun s t => sendKind s t k v) s

end Sys2Proof.Machine
end

