-- ==== Sys2Proof/Machine/Mem.lean ====
section
/-! DEFINITION. The memory edge: translation (R96–R106, R500), the L2 and its occupancy (R122, R123), the
reads and writes of an agent (R132, R372–R376), versioned words (R380–R384), the energy of an access (R266). -/
namespace Sys2Proof.Machine

/-! ### Energy (R266, R269) -/

/-- Coefficient k of the cost table, in femtojoules (R267): CT8–CT15 are 0. -/
def costOf (k : Nat) : Nat := if k < 8 then (Sys2Proof.Config.costTable k).toNat else 0

/-- Pass whole nanojoules to a partition: EN_CREDIT absorbs first (R266). -/
def passNj (t : Part) (nj : Nat) : Part :=
  let c := Nat.min nj t.enCredit.toNat
  { t with enCredit := t.enCredit - BitVec.ofNat 64 c, enUsed := t.enUsed + BitVec.ofNat 64 (nj - c), msCharge := t.msCharge + nj }

/-- Charge femtojoules to a partition and, where one caused them, to a launch tree (R266); a lease that
reaches 0 gives F_ENERGY once (R269). -/
def chargeFj (s : State) (p : Nat) (tree : Option Nat) (fj : Nat) : State :=
  let t := part s p
  let tot := t.enRes + fj
  let nj := tot / 1000000
  let s := modPart s p fun t => { passNj t nj with enRes := tot % 1000000 }
  match tree.bind fun k => t.trees.find? fun x => x.id == k with
  | none => s
  | some tr =>
    let left := tr.lease - nj
    let hit := decide (0 < nj) && left == 0 && !tr.notified
    let s := modPart s p fun t => { t with trees := updWhere (fun x => x.id == tr.id) (fun x => { x with lease := left, notified := x.notified || hit }) t.trees }
    if hit then deliverN s { recBase F_ENERGY p with fname := tr.root, g5 := (part s p).enUsed } .nothing else s

/-- Charge n events of cost-table entry k. -/
def charge (s : State) (p : Nat) (tree : Option Nat) (k n : Nat) : State := chargeFj s p tree (n * costOf k)

/-- The launch tree of a frame. -/
def treeOf (s : State) (p f : Nat) : Option Nat := (frame? s p f).map (·.tree)

/-! ### Addresses (R96, R97) -/

/-- A 64-bit address is canonical (R96). -/
def canon (a : Nat) : Bool := decide (a < pow2 56) || (decide (pow2 64 - pow2 56 ≤ a) && decide (a < pow2 64))

/-- Two addresses lie in one half. -/
def sameHalf (a b : Nat) : Bool := canon a && canon b && (decide (a < pow2 56) == decide (b < pow2 56))

/-- The run of n bytes from ea is canonical (R96, R106, R372). -/
def runCanon (ea : Int) (n : Nat) : Bool := decide (0 ≤ ea) && sameHalf ea.toNat (ea.toNat + (n - 1))

/-! ### L2 (R122, R123) -/

/-- The slice list S of a partition; a rehash uses the new one (R243). -/
def slicesOf (s : State) (p : Nat) : List Nat :=
  let t := part s p
  if t.rszStep == 3 then setBits ((t.rszNew.getD 2 0).toNat + (t.rszNew.getD 3 0).toNat * pow2 64) 128
  else setBits ((entWord s p 3).toNat + (entWord s p 4).toNat * pow2 64) 128

/-- The home slice of a line over a slice list (R122). -/
def homeSlice (sl : List Nat) (pa : Nat) : Nat :=
  let h := Nat.xor (Nat.xor (nbits pa 6 12) (nbits pa 18 12)) (Nat.xor (nbits pa 30 12) (nbits pa 42 10))
  sl.getD (h % Nat.max 1 sl.length) 0

/-- The set of a line within its slice (R122). -/
def l2Set (pa : Nat) : Nat := Nat.xor (nbits pa 6 11) (nbits pa 17 11)

/-- OCC_L2 (R123): the lines that a partition holds. -/
def occL2 (s : State) (p : Nat) : Nat := (s.l2.filter fun x => x.part == p).length

/-- The partition has reached its OCC_LIMIT. -/
def overOcc (s : State) (p : Nat) : Bool := decide ((part s p).occLimit.toNat ≤ occL2 s p)

/-- The victim that a fill chooses in a full set, as a position in the list of lines (R123). -/
def l2Victim (s : State) (p slice set : Nat) : Option (Nat × L2Line) :=
  let inSet := fun (x : L2Line) => x.slice == slice && x.set == set
  let own := if overOcc s p then findPos (fun x => inSet x && x.part == p) s.l2 else none
  match own with
  | some v => some v
  | none =>
    match findPos (fun x => inSet x && overOcc s x.part) s.l2 with
    | some v => some v
    | none => findPos inSet s.l2

/-- A dirty line is written back: its poisoned words are poisoned in HBM from here on, where no refetch mends them (R115). -/
def writeBack (s : State) (line : Nat) : State :=
  { s with poison := s.poison.map fun x => if x.1 == .mem && x.2 / 8 == line then (.hbm, x.2) else x }

/-- Room for one more line in a set: where it is full, a line leaves it (R123). -/
def l2Room (s : State) (p : Nat) (slice set : Nat) : State :=
  if 16 ≤ (s.l2.filter fun x => x.slice == slice && x.set == set).length then
    (match l2Victim s p slice set with
     | some (n, v) =>
       let s := { s with l2 := dropAt n s.l2 }
       let s := if v.dirty then charge (writeBack s v.line) v.part none 5 1 else s
       wakeLine s v.line 2
     | none => s)
  else s

/-- A cached access of partition p to the line of an address: a hit makes it the most recent, a miss fills it
(R123). The list keeps lines in the order of their last use. -/
def l2Touch (s : State) (p : Nat) (tree : Option Nat) (pa : Nat) (write : Bool) : State :=
  let line := pa / 64
  let s := charge s p tree 4 1
  match findPos (fun (x : L2Line) => x.line == line && x.part == p) s.l2 with
  | some (n, x) => { s with l2 := dropAt n s.l2 ++ [{ x with dirty := x.dirty || write }] }
  | none =>
    let slice := homeSlice (slicesOf s p) pa
    let set := l2Set pa
    let s := charge s p tree 5 1
    let s := l2Room s p slice set
    { s with l2 := s.l2 ++ [⟨slice, set, line, p, write⟩] }

/-! ### Table walks (R98–R102) -/

/-- A leaf that a walk found: page address, log2 of the page size, the entry and where it stands. -/
structure Leaf where
  base : Nat
  size : Nat
  ent : Word
  addr : Nat
  deriving DecidableEq, Repr

/-- What stops a walk: its stage, whether the entry was malformed (R100), and the address sought. -/
structure WalkBad where
  stage2 : Bool
  malformed : Bool
  addr : Nat
  deriving DecidableEq, Repr

/-- log2 of the page that a leaf at a level maps (R98). -/
def leafSize (lvl : Nat) : Nat := if lvl == 2 then 36 else if lvl == 3 then 25 else 14

/-- An entry with V = 1 is malformed (R100). MT is a leaf's field (R99), so it is not looked at in a table entry. DEDUCED,
log 92. -/
def malformedEnt (e : Word) (lvl : Nat) : Bool :=
  let leaf := bitAt e 1
  fld e 52 12 != 0 || fld e 10 4 != 0 || (leaf && decide (2 ≤ fld e 7 2)) || (leaf && lvl == 1) || (!leaf && lvl == 4) ||
    (leaf && fld e 14 (leafSize lvl - 14) != 0)

/-- The index into the table of a level (R97); a stage-2 walk takes IX1[9:5] as zero (R101). -/
def walkIx (a lvl : Nat) (stage2 : Bool) : Nat :=
  if lvl == 1 then nbits a 47 (if stage2 then 5 else 10)
  else if lvl == 2 then nbits a 36 11 else if lvl == 3 then nbits a 25 11 else nbits a 14 11

/-- The stage-2 walk of a guest physical address from the table of a level. A table address in the reserved range reads as
0, so it leads to a missing entry. DESIGN CHOICE, log 92. -/
def walk2 (m : Memory) (gpa : Nat) : Nat → Nat → Nat → Except WalkBad Leaf
  | 0, _, _ => .error ⟨true, true, gpa⟩
  | k + 1, lvl, tab =>
    let at_ := tab + 8 * walkIx gpa lvl true
    let e := rd64 m at_
    if !bitAt e 0 then .error ⟨true, false, gpa⟩
    else if malformedEnt e lvl then .error ⟨true, true, gpa⟩
    else if bitAt e 1 then .ok ⟨fld e 14 38 * pow2 14, leafSize lvl, e, at_⟩
    else walk2 m gpa k (lvl + 1) (fld e 14 38 * pow2 14)

/-- The table entries that a stage-2 walk reads, in order. -/
def reads2 (m : Memory) (gpa : Nat) : Nat → Nat → Nat → List Nat
  | 0, _, _ => []
  | k + 1, lvl, tab =>
    let at_ := tab + 8 * walkIx gpa lvl true
    let e := rd64 m at_
    if !bitAt e 0 || malformedEnt e lvl || bitAt e 1 then [at_] else at_ :: reads2 m gpa k (lvl + 1) (fld e 14 38 * pow2 14)

/-- The stage-2 root of a partition. -/
def s2root (s : State) (p : Nat) : Nat := (entWord s p 13).toNat

/-- Stage 2 of a guest physical address: the physical address and the leaf. -/
def stage2 (s : State) (p gpa : Nat) : Except WalkBad (Nat × Leaf) :=
  match walk2 s.mem gpa 4 1 (s2root s p) with
  | .ok l => .ok (l.base + gpa % pow2 l.size, l)
  | .error e => .error e

/-- The stage-1 walk of a virtual address from the table of a level: each table address passes through
stage 2 (R101). The leaves of those translations are collected with the leaf. -/
def walk1 (s : State) (p va : Nat) : Nat → Nat → Nat → List Leaf → Except WalkBad (Leaf × List Leaf)
  | 0, _, _, _ => .error ⟨false, true, va⟩
  | k + 1, lvl, tab, seen =>
    match stage2 s p (tab + 8 * walkIx va lvl false) with
    | .error e => .error e
    | .ok (at_, l2) =>
      let e := rd64 s.mem at_
      if !bitAt e 0 then .error ⟨false, false, va⟩
      else if malformedEnt e lvl then .error ⟨false, true, va⟩
      else if bitAt e 1 then .ok (⟨fld e 14 38 * pow2 14, leafSize lvl, e, at_⟩, l2 :: seen)
      else walk1 s p va k (lvl + 1) (fld e 14 38 * pow2 14) (l2 :: seen)

/-- The table entries that a stage-1 walk reads, those of stage 2 among them, in order; true marks an uncached one. -/
def reads1 (s : State) (p va : Nat) : Nat → Nat → Nat → List (Nat × Bool)
  | 0, _, _ => []
  | k + 1, lvl, tab =>
    let gpa := tab + 8 * walkIx va lvl false
    let first := (reads2 s.mem gpa 4 1 (s2root s p)).map fun a => (a, false)
    match stage2 s p gpa with
    | .error _ => first
    | .ok (at_, l2) =>
      let e := rd64 s.mem at_
      first ++ (at_, bitAt l2.ent 7) ::
        (if !bitAt e 0 || malformedEnt e lvl || bitAt e 1 then [] else reads1 s p va k (lvl + 1) (fld e 14 38 * pow2 14))

/-- The traffic of a walk: it goes through L2 (R104), past it where the table's page is uncached. -/
def touchWalk (s : State) (p : Nat) (tree : Option Nat) (l : List (Nat × Bool)) : State :=
  l.foldl (fun s a => if a.2 then charge s p tree 5 1 else l2Touch s p tree a.1 false) s

/-- OR a bit into a table entry (R102: an atomic OR at .pkg, at the line's home). -/
def orEntry (s : State) (p : Nat) (tree : Option Nat) (a k : Nat) : State :=
  let e := rd64 s.mem a
  if bitAt e k then s else l2Touch (pokeBytes s a (toBytes 8 (e.toNat + pow2 k))) p tree a true

/-- Stage 2 for an access of the device's own (R102, R506): the leaf's A is set, and D for a store. A leaf that leads to no
memory counts as a missing one. -/
def devWalk (s : State) (p gpa : Nat) (store : Bool) : Except WalkBad (State × Nat) :=
  match stage2 s p gpa with
  | .ok (pa, l) =>
    if paOk pa then
      let s := touchWalk s p none ((reads2 s.mem gpa 4 1 (s2root s p)).map fun a => (a, false))
      let s := orEntry s p none l.addr 5
      .ok (if store then orEntry s p none l.addr 6 else s, pa)
    else .error ⟨true, false, gpa⟩
  | .error e => .error e

/-- A completed walk from a stage-1 root (R101, R102): the combined translation, with A set in each leaf, and D where `dirty`
asks for it and the page is writable. In the stage-2 leaves that map the tables it sets A alone, also where it updates an
entry there. DESIGN CHOICE, log 92. -/
def walkFill (s : State) (bay p root va : Nat) (dirty : Bool) (tree : Option Nat) : State × Except WalkBad TlbEntry :=
  let s := touchWalk s p tree (reads1 s p va 4 1 root)
  match walk1 s p va 4 1 root [] with
  | .error e => (s, .error e)
  | .ok (l1, seen) =>
    let gpa := l1.base + va % pow2 l1.size
    let s := touchWalk s p tree ((reads2 s.mem gpa 4 1 (s2root s p)).map fun a => (a, false))
    match stage2 s p gpa with
    | .error e => (s, .error e)
    | .ok (pa, l2) =>
      let sz := Nat.min l1.size l2.size
      let s := (l1 :: l2 :: seen).foldl (fun s l => orEntry s p tree l.addr 5) s
      let w := bitAt l1.ent 2 && bitAt l2.ent 2
      let s := if dirty && w then orEntry (orEntry s p tree l1.addr 6) p tree l2.addr 6 else s
      (s, .ok { bay := bay, part := p, va := va / pow2 sz * pow2 sz, size := sz, pa := pa / pow2 sz * pow2 sz,
                w := w, x := bitAt l1.ent 4 && bitAt l2.ent 4, u := bitAt l1.ent 3,
                vr := bitAt l1.ent 9, uncached := bitAt l1.ent 7 || bitAt l2.ent 7,
                dirty := (dirty && w) || (bitAt l1.ent 6 && bitAt l2.ent 6) })

/-- The stage-1 root of a partition. -/
def s1root (s : State) (p : Nat) : Nat := (entWord s p 12).toNat

/-- An entry of a TLB serves an address. -/
def tlbHits (bay p va : Nat) (e : TlbEntry) : Bool :=
  e.bay == bay && e.part == p && decide (e.va ≤ va) && decide (va < e.va + pow2 e.size)

/-- The set of a translation: the low eight bits of its page's number (R104; the index is log 24). -/
def tlbSet (e : TlbEntry) : Nat := e.va / pow2 e.size % 256

/-- Install a translation: 256 sets of eight ways per bay, in a full set the oldest leaves (R104; the choice is log 24). -/
def tlbFill (s : State) (e : TlbEntry) : State :=
  let l := s.tlb.filter fun x => !(tlbHits e.bay e.part e.va x)
  let mate := fun (x : TlbEntry) => x.bay == e.bay && tlbSet x == tlbSet e
  let l := if 8 ≤ (l.filter mate).length then (match findPos mate l with | some (n, _) => dropAt n l | none => l) else l
  { s with tlb := l ++ [e] }

/-- Give up a translation: one that a check of R105 refuses does not stay (R104; the choice is log 24). -/
def tlbDrop (s : State) (e : TlbEntry) : State := { s with tlb := s.tlb.filter fun x => !(x == e) }

/-- The page of an address. -/
def pageOf (va : Nat) : Nat := va / pow2 14 * pow2 14

/-- A walk of a bay for the page of an address is outstanding. -/
def walking (s : State) (bay p va : Nat) : Bool := s.walks.any fun w => w.bay == bay && w.part == p && w.va == pageOf va

/-- All sixteen walks of a bay are outstanding (R104). -/
def walksFull (s : State) (bay : Nat) : Bool := decide (16 ≤ (s.walks.filter fun w => w.bay == bay).length)

/-- Start a walk for the page of an address, join one, or wait (R104). It keeps the stage-1 root it starts from (R235). -/
def startWalk (s : State) (bay p va : Nat) (store fetch dirty : Bool) (tag : BitVec 32) : State :=
  if walking s bay p va then
    let mine := fun (w : Walk) => w.bay == bay && w.part == p && w.va == pageOf va
    { s with walks := updWhere mine (fun w => { w with store := w.store || store, dirty := w.dirty || dirty }) s.walks }
  else if walksFull s bay then s
  else { s with walks := s.walks ++ [⟨bay, p, pageOf va, s1root s p, store, fetch, dirty, tag⟩] }

/-- The page, by its number, of the virtual address that an open page fault holds; none for an access of the device's own. -/
def faultPage (f : PageFault) : Option Nat :=
  if f.stage2 then f.item.bind fun x => (match x.victim with
    | .access va => some (va.toNat / pow2 14)
    | _ => none)
  else some (f.va / pow2 14)

/-- An open page fault on the page of an address holds the accesses of a tag (R110). -/
def heldTag (s : State) (p : Nat) (tag : BitVec 32) (va : Nat) : Bool :=
  s.pageFaults.any fun f => f.part == p && f.tags.contains tag && faultPage f == some (va / pow2 14)

/-- A page fault is open on the page of an address (R110). -/
def faultOpen (s : State) (p va : Nat) : Bool := s.pageFaults.any fun f => f.part == p && faultPage f == some (va / pow2 14)

/-! ### Checks (R105, R500) -/

/-- A run of bytes in one page: physical address, length, and what its page says. -/
structure Run where
  pa : Nat
  len : Nat
  uncached : Bool
  vr : Bool
  deriving DecidableEq, Repr

/-- What the checks of an access answer: the runs; wait for a walk or an open page fault; a page fault
that a walk made at once found; or the code of the check that failed and the address it failed at: that of
the run, or of its first failing page (R500). -/
inductive Acc where
  | ok (runs : List Run)
  | miss
  | page (w : WalkBad)
  | bad (code : BitVec 8) (addr : Word)
  deriving DecidableEq, Repr

/-- The kind of an access: a store, a fetch, at supervisor level, `quick`: its walk is made in the same step (an engine's,
or one of the device's own), and the launch tree that such a walk is charged to. -/
structure AccKind where
  store : Bool
  fetch : Bool
  sup : Bool
  quick : Bool
  tree : Option Nat
  deriving DecidableEq, Repr

/-- The translation of a page: from the TLB, by a walk at once, or after one that it starts, joins or waits for (R104).
A walk at once takes one of the bay's sixteen places for its instant. An open page fault holds the tags that it names, and no
others (R110). -/
def pageEntry (bay p : Nat) (k : AccKind) (tag : BitVec 32) (s : State) (va : Nat) : State × Except Acc TlbEntry :=
  if !k.quick && heldTag s p tag va then (s, .error .miss)
  else match s.tlb.find? (tlbHits bay p va) with
  | some e => (s, .ok e)
  | none =>
    if k.quick then
      if walking s bay p va || walksFull s bay then (s, .error .miss)
      else (match walkFill s bay p (s1root s p) va false k.tree with
        | (s, .ok e) => (tlbFill s e, .ok e)
        | (s, .error w) => (s, .error (.page w)))
    else (startWalk s bay p va k.store k.fetch false tag, .error .miss)

/-- Step 4 of R105 for a page. -/
def pageProt (k : AccKind) (e : TlbEntry) (pa : Nat) : Bool := (k.store && !e.w) || (!k.sup && !e.u) || (k.fetch && !e.x) || !paOk pa

/-- Steps 3 and 4 of R105 for every page that a run touches, in ascending address (R500): the runs with their translations. -/
def pageRuns (bay p : Nat) (k : AccKind) (tag : BitVec 32) : Nat → State → Nat → Nat → List (Nat × Run × TlbEntry) →
    State × Except Acc (List (Nat × Run × TlbEntry))
  | 0, s, _, _, acc => (s, .ok acc.reverse)
  | fuel + 1, s, va, n, acc =>
    if n == 0 then (s, .ok acc.reverse)
    else
      match pageEntry bay p k tag s va with
      | (s, .error a) => (s, .error a)
      | (s, .ok e) =>
        let pa := e.pa + va % pow2 e.size
        if pageProt k e pa then (tlbDrop s e, .error (.bad F_PROT (BitVec.ofNat 64 va)))
        else
          let here := Nat.min n (pow2 e.size - va % pow2 e.size)
          pageRuns bay p k tag fuel s (va + here) (n - here) ((va, ⟨pa, here, e.uncached, e.vr⟩, e) :: acc)

/-- A store that has passed its checks sets D in the leaves that lack it, before it is performed (R102): at once, or by a
walk that it waits for. False where it has to be checked again: a leaf no longer reads as it was checked. -/
def dirtyPages (bay p : Nat) (k : AccKind) (tag : BitVec 32) : List (Nat × Run × TlbEntry) → State → State × Bool
  | [], s => (s, true)
  | x :: xs, s =>
    if !k.store || x.2.2.dirty then dirtyPages bay p k tag xs s
    else if k.quick then
      (match walkFill s bay p (s1root s p) x.1 false k.tree with
       | (s, .ok e) =>
         if { e with dirty := x.2.2.dirty } == x.2.2 then
           (match walkFill s bay p (s1root s p) x.1 true k.tree with
            | (s, .ok e) => dirtyPages bay p k tag xs (tlbFill s e)
            | (s, .error _) => (tlbDrop s x.2.2, false))
         else (tlbDrop s x.2.2, false)
       | (s, .error _) => (tlbDrop s x.2.2, false))
    else (startWalk s bay p x.1 true k.fetch true tag, false)

/-- Translation, permissions, and D for a store, over a run of n bytes. -/
def checkPages (s : State) (bay p : Nat) (k : AccKind) (tag : BitVec 32) (va n : Nat) : State × Acc :=
  match pageRuns bay p k tag (n / pow2 14 + 2) s va (Nat.max 1 n) [] with
  | (s, .error a) => (s, a)
  | (s, .ok l) =>
    match dirtyPages bay p k tag l s with
    | (s, true) => (s, .ok (l.map (·.2.1)))
    | (s, false) => (s, .miss)

/-- The checks of R105 in their order over n bytes at ea; `algn` is the size that ea must be a multiple of. An access whose
walk is made at once walks again where a leaf has changed under its translation (R102). -/
def checkRun (s : State) (bay p : Nat) (k : AccKind) (tag : BitVec 32) (ea : Int) (n algn : Nat) : State × Acc :=
  if !runCanon ea n then (s, .bad F_NONCANON (BitVec.ofInt 64 ea))
  else if ea.toNat % Nat.max 1 algn != 0 then (s, .bad F_ALIGN (BitVec.ofInt 64 ea))
  else match checkPages s bay p k tag ea.toNat n with
    | (s, .miss) => if k.quick then checkPages s bay p k tag ea.toNat n else (s, .miss)
    | r => r

/-! ### Runs of bytes -/

/-- The L2 traffic of one run: each line it touches, or HBM traffic for an uncached page. -/
def touchRun (s : State) (p : Nat) (tree : Option Nat) (r : Run) (write : Bool) : State :=
  let lines := (r.pa % 64 + r.len + 63) / 64
  if r.uncached then charge s p tree 5 lines
  else (List.range lines).foldl (fun s k => l2Touch s p tree ((r.pa / 64 + k) * 64) write) s

/-- The physical address of each byte of a list of runs. -/
def runBytes (rs : List Run) : List Nat := rs.flatMap fun r => (List.range r.len).map (r.pa + ·)

/-- A line of L2 holds an address clean: an error there costs a refetch alone (R115). -/
def cleanHeld (s : State) (a : Nat) : Bool := s.l2.any fun x => x.line == a / 64 && !x.dirty

/-- A byte of a list of runs lies in a poisoned word, and not one that a clean line holds alone (R115): its physical address. -/
def poisonedAt (s : State) (rs : List Run) : Option Nat :=
  (runBytes rs).find? fun a => s.poison.contains (.hbm, a / 8) || (s.poison.contains (.mem, a / 8) && !cleanHeld s a)

/-- Clean lines with an error are fetched again (R115). -/
def refetch (s : State) (rs : List Run) : State :=
  let met := fun (w : Nat) => cleanHeld s (8 * w) && rs.any fun r => decide (r.pa / 64 ≤ w / 8) && decide (w / 8 ≤ (r.pa + r.len - 1) / 64)
  { s with poison := s.poison.filter fun x => !(x.1 == .mem && met x.2) }

/-- Read the bytes of a list of runs. -/
def readRuns (s : State) (p : Nat) (tree : Option Nat) (rs : List Run) : List Byte × State :=
  ((runBytes rs).map (rdByte s.mem), rs.foldl (fun s r => touchRun s p tree r false) (refetch s rs))

/-- Write bytes through a list of runs. -/
def writeRuns (s : State) (p : Nat) (tree : Option Nat) : List Run → List Byte → State
  | [], _ => s
  | r :: rs, bs => writeRuns (touchRun (pokeBytes s r.pa (bs.take r.len)) p tree r true) p tree rs (bs.drop r.len)

/-! ### Held stores (R34, R41, R132) -/

/-- Position of an access in the chain of a block: where it was placed. -/
def placePos (s : State) (p f q own : Nat) : Nat :=
  match findPos (fun (x : Placed) => x.part == p && x.frame == f && x.grid.isNone && x.chain == q && x.own == own) s.placed with
  | some (n, _) => n
  | none => s.placed.length

/-- Position of a block among those in flight of its frame; a committed block comes before all. -/
def blockPos (s : State) (p f q : Nat) : Nat :=
  match findPos (fun (b : Block) => b.seq == q) (blocksOf s p f) with
  | some (n, _) => n + 1
  | none => 0

/-- Insert a held store into a list in program order. -/
def insHeld (s : State) (h : Held) : List Held → List Held
  | [] => [h]
  | x :: xs =>
    let k := fun (y : Held) => (if y.committed then 0 else blockPos s y.part y.frame y.seq, placePos s y.part y.frame y.seq y.own)
    if (k h).1 < (k x).1 || ((k h).1 == (k x).1 && !h.committed && (k h).2 < (k x).2) then h :: x :: xs else x :: insHeld s h xs

/-- The held stores that the current access sees, in program order (R132): its frame's committed stores, those
of older blocks, and those of its own block placed before it; in a grid its region's own for its FRAME. -/
def seenHeld (s : State) (own : Nat) : List Held :=
  let i := s.cur
  let f := curFrame s
  match i.grid with
  | some g => s.stores.filter fun h => h.part == i.part && h.frame == f && h.region == some g && h.bay == i.bay
  | none =>
    let mine := s.stores.filter fun h => h.part == i.part && h.frame == f && h.region.isNone &&
      (h.committed || blockPos s i.part f h.seq < blockPos s i.part f i.seq ||
        (h.seq == i.seq && placePos s i.part f i.seq h.own < placePos s i.part f i.seq own))
    mine.foldl (fun l h => insHeld s h l) []

/-- The byte that a held store leaves at an address of memory (`shelf` false) or of the shelf. -/
def heldByte (shelf : Bool) (a : Nat) (h : Held) : Option Byte :=
  match h.op with
  | .mem pa bs _ => if !shelf && decide (pa ≤ a) && decide (a < pa + bs.length) then bs[a - pa]? else none
  | .shelf off bs => if shelf && decide (off ≤ a) && decide (a < off + bs.length) then bs[a - off]? else none
  | _ => none

/-- A byte as the current access sees it: the latest held store that it sees, else what stands there. -/
def seenByte (hs : List Held) (shelf : Bool) (a : Nat) (dflt : Byte) : Byte :=
  hs.foldl (fun v h => (heldByte shelf a h).getD v) dflt

/-- Read runs through the held stores of the current agent. -/
def loadRuns (s : State) (own : Nat) (rs : List Run) : List Byte × State :=
  let hs := seenHeld s own
  let bs := (runBytes rs).map fun a => seenByte hs false a (rdByte s.mem a)
  (bs, rs.foldl (fun s r => touchRun s s.cur.part (treeOf s s.cur.part (curFrame s)) r false) (refetch s rs))

/-! ### The shelf (R116, R242) -/

/-- The address of a shelf byte: the key of the bay's state, and the offset. -/
def shelfKey (bay off : Nat) : Nat := bay * pow2 22 + off

/-- Write shelf bytes from an address: words that are rewritten whole lose their poison (R115). -/
def shelfPoke (s : State) (a : Nat) (bs : List Byte) : State :=
  { s with shelf := wrBytes s.shelf a bs,
           poison := s.poison.filter fun x => !(x.1 == .shelf && decide (a ≤ 8 * x.2) && decide (8 * x.2 + 8 ≤ a + bs.length)) }

/-- A poisoned word among n shelf bytes (R115): the address of its first byte here. -/
def shelfPoison (s : State) (a n : Nat) : Option Nat := (List.range n).find? (fun k => s.poison.contains (.shelf, (a + k) / 8)) |>.map (a + ·)

/-! ### Versioned words (R124, R380–R384) -/

/-- Free entries of a slice's version store (R265, R272). -/
def vsFree (s : State) (slice : Nat) : Nat := 4096 - (s.vers.filter fun v => v.slice == slice).length

/-- The version entry of a word of a partition. -/
def vers? (s : State) (p pa : Nat) : Option VersEntry := s.vers.find? fun v => v.part == p && v.pa == pa

/-- Memory version number of a slot (R380). -/
def vnumAt (m : Memory) (pa : Nat) : BitVec 32 := BitVec.setWidth 32 (rd64 m (pa + 8))

/-- lo and hi of the available versions (R380). -/
def versBounds (s : State) (p pa : Nat) : BitVec 32 × BitVec 32 :=
  match vers? s p pa with
  | none => (vnumAt s.mem pa, vnumAt s.mem pa)
  | some e => (if e.memKept then e.on - 1 else e.on, e.on + BitVec.ofNat 32 e.vals.length - 1)

/-- The value of an available version. -/
def versValue (s : State) (p pa : Nat) (n : BitVec 32) : Word :=
  match vers? s p pa with
  | none => rd64 s.mem pa
  | some e => if e.memKept && n == e.on - 1 then rd64 s.mem pa else e.vals.getD (n - e.on).toNat 0

/-- An stv makes version n of a word: each ldv that waits for it takes its value (R382). -/
def feedLdv (s : State) (p pa : Nat) (n : BitVec 32) (v : Word) : State :=
  { s with waits := updWhere (fun i => i.part == p && i.ver == some (pa, none) && opOf i.word == 0x9C &&
      BitVec.setWidth 32 ((i.b.map (·.data)).getD 0) == n) (fun i => { i with ver := some (pa, some v) }) s.waits }

/-- stv (R383): the new state and version number, or none where it waits. -/
def doStv (s : State) (p pa : Nat) (v : Word) : Option (State × BitVec 32) :=
  match vers? s p pa with
  | none =>
    let slice := homeSlice (slicesOf s p) pa
    if vsFree s slice == 0 then none
    else
      let n := vnumAt s.mem pa + 1
      some (wakeLine (feedLdv { s with vers := s.vers ++ [⟨slice, p, pa, n, [v], true⟩] } p pa n v) (pa / 64) 1, n)
  | some e =>
    if e.vals.length == 4 then none
    else
      let upd := updWhere (fun (x : VersEntry) => x.part == p && x.pa == pa) (fun x => { x with vals := x.vals ++ [v] }) s.vers
      let n := e.on + BitVec.ofNat 32 e.vals.length
      some (wakeLine (feedLdv { s with vers := upd } p pa n v) (pa / 64) 1, n)

/-- reclaim (R384). -/
def doReclaim (s : State) (p pa : Nat) (r : BitVec 32) : State :=
  match vers? s p pa with
  | none => s
  | some e =>
    let b := versBounds s p pa
    let k := (r - b.1).toNat
    let k := if pow2 31 ≤ k then 0 else k
    let k := Nat.min k (b.2 - b.1).toNat
    let mk := e.memKept && k == 0
    let k := if e.memKept && decide (0 < k) then k - 1 else k
    let e2 := { e with memKept := mk, on := e.on + BitVec.ofNat 32 k, vals := e.vals.drop k }
    let rest := s.vers.filter fun x => !(x.part == p && x.pa == pa)
    if e2.vals.length == 1 && !mk then
      pokeBytes { s with vers := rest } pa (toBytes 8 (e2.vals.headD 0).toNat ++ toBytes 4 e2.on.toNat ++ toBytes 4 0)
    else { s with vers := rest ++ [e2] }

/-! ### Performing stores (R34, R376, R383) -/

/-- Perform a held store; none where an stv waits. -/
def performStore (s : State) (h : Held) : Option State :=
  match h.op with
  | .mem pa bs cached => some (writeRuns s h.part (treeOf s h.part h.frame) [⟨pa, bs.length, !cached, false⟩] bs)
  | .shelf a bs => some (charge (shelfPoke s a bs) h.part (treeOf s h.part h.frame) 3 1)
  | .stv pa v => (doStv s h.part pa v).map fun r => l2Touch r.1 h.part (treeOf s h.part h.frame) pa false
  | .reclaim pa b => some (l2Touch (doReclaim s h.part pa b) h.part (treeOf s h.part h.frame) pa (doReclaim s h.part pa b != s))

/-- What T0 of a store in a grid receives once it is performed (R373, R383). -/
def storeValue (s : State) (h : Held) : Word :=
  match h.op with
  | .stv pa _ => BitVec.setWidth 64 ((versBounds s h.part pa).2 + 1)
  | _ => 0

/-- Release the committed stores of a frame in chain order, up to one that waits (R34, R383). -/
def releaseHeld (p f : Nat) : Nat → State → State
  | 0, s => s
  | n + 1, s =>
    match findPos (fun (h : Held) => h.part == p && h.frame == f && h.committed) s.stores with
    | none => s
    | some (k, h) =>
      match performStore { s with stores := dropAt k s.stores } h with
      | some s2 => releaseHeld p f n s2
      | none => s

/-- A frame has a committed store that still waits. -/
def storePending (s : State) (p f : Nat) : Bool := s.stores.any fun h => h.part == p && h.frame == f && h.committed

end Sys2Proof.Machine
end

