-- ==== Sys2Proof/Machine/Flags.lean ====
section
/-! DEFINITION. The floating controls in force for an instance (R62, R63, R345) and the raising of flags
into a block's collected flags or a grid's flag word (R65, R66). -/
namespace Sys2Proof.Machine

/-- rm, ftz and ovp of R307. -/
structure Ctl where
  rm : Nat
  ftz : Bool
  ovp : Nat
  deriving DecidableEq, Repr

/-- The controls of FPC[4:0] (R61). -/
def ctlOf (v : BitVec 5) : Ctl := ⟨fld v 0 2, bitAt v 2, fld v 3 2⟩

/-- A block holds an fpcset word. -/
def holdsFpcset (b : Block) : Bool := b.words.any fun w => fld w 56 8 == 0xF5

/-- The FPC found among older in-flight blocks, youngest first, or the committed one (R62); none while
an fpcset has not fired. -/
def fpcFrom (committed : BitVec 5) : List Block → Option (BitVec 5)
  | [] => some committed
  | b :: bs =>
    if holdsFpcset b then
      match b.fpc with
      | none => none
      | some (some v) => some v
      | some none => fpcFrom committed bs
    else fpcFrom committed bs

/-- The block FPC of a block (R62). -/
def blockFpc (s : State) (p f q : Nat) : Option (BitVec 5) :=
  fpcFrom (((frame? s p f).map (·.fpc)).getD 0) (olderBlocks s p f q)

/-- The controls of the current instance (R62, R63); none while its block FPC is not known. -/
def curCtl (s : State) : Option Ctl :=
  match s.cur.grid with
  | some _ =>
    (match ctx? s s.cur.bay s.cur.cell s.cur.ctx with
     | some c => some ⟨fld c.pw 59 2, bitAt c.pw 58, fld c.pw 56 2⟩
     | none => some ⟨0, false, 0⟩)
  | none => (blockFpc s s.cur.part (curFrame s) s.cur.seq).map ctlOf

/-- raise(flags) of R307. -/
def raiseFl (s : State) (fl : Nat) : State :=
  let v := BitVec.ofNat 7 fl
  match s.cur.grid with
  | some g => modRegion s s.cur.bay g fun r => { r with flags := r.flags ||| v }
  | none => modBlock s s.cur.part (curFrame s) s.cur.seq fun b => { b with flags := b.flags ||| v }

/-- The format of a floating type code (R55): f32, the bf16 pair, the f16 pair. -/
def fmtOf (ty : Nat) : Fmt := if ty == 5 then bf16 else if ty == 6 then f16 else f32

/-- The elements of a value of a floating type (R55). -/
def elems (ty : Nat) (x : Word) : List Nat := if ty == 4 then [fld x 0 32] else [fld x 0 16, fld x 16 16]

/-- Elements placed as R55 gives. -/
def fromElems (ty : Nat) : List Nat → Word
  | [a] => BitVec.ofNat 64 (if ty == 4 then a % pow2 32 else a % pow2 16)
  | a :: b :: _ => BitVec.ofNat 64 (a % pow2 16 + b % pow2 16 * pow2 16)
  | [] => 0

/-- Results of the elements with their flags ORed (R57). -/
def joinElems (ty : Nat) (l : List (Nat × Nat)) : Word × Nat :=
  (fromElems ty (l.map (·.1)), l.foldl (fun a r => orF a r.2) 0)

end Sys2Proof.Machine
end

