-- ==== Sys2Proof/Machine/Operands.lean ====
section
/-! DEFINITION. Operand values of an instance, integer types and placement (R55, R308), immediates (R296,
R298, R299), and the shell that every instance passes before its effect (R27, R162, R214, R294). -/
namespace Sys2Proof.Machine

/-- The data of an operand; an absent one reads 0. -/
def dataOf (o : Option Operand) : Word := (o.map (·.data)).getD 0

/-- The kind of an operand, when there is one. -/
def isKind (k : Kind) (o : Option Operand) : Bool := (o.map fun x => x.kind == k).getD false

/-- Operand values of the current instance. -/
def opA (s : State) : Word := dataOf s.cur.a
def opB (s : State) : Word := dataOf s.cur.b
def opC (s : State) : Word := dataOf s.cur.c
def opP (s : State) : Word := dataOf s.cur.p

/-- The operands of an instance. -/
def operands (i : Inst) : List (Option Operand) := [i.a, i.b, i.c, i.p]

/-! ### Integer types (R308) -/

/-- The width of an integer type code. -/
def tyW (ty : Nat) : Nat := if ty < 2 then 32 else 64
/-- Signedness of an integer type code. -/
def tySgn (ty : Nat) : Bool := ty == 0 || ty == 2
/-- bits(x). -/
def bitsT (ty : Nat) (x : Word) : Nat := fld x 0 (tyW ty)
/-- val(x). -/
def valT (ty : Nat) (x : Word) : Int := if tySgn ty then signed x.toNat (tyW ty) else (bitsT ty x : Nat)
/-- lo and hi. -/
def loT (ty : Nat) : Int := if tySgn ty then -(pow2 (tyW ty - 1) : Int) else 0
def hiT (ty : Nat) : Int := if tySgn ty then (pow2 (tyW ty - 1) : Int) - 1 else (pow2 (tyW ty) : Int) - 1
/-- put(v). -/
def putT (ty : Nat) (v : Int) : Word :=
  if tySgn ty then BitVec.ofInt 64 (signed (wrapNat v (tyW ty)) (tyW ty)) else BitVec.ofNat 64 (wrapNat v (tyW ty))
/-- Deliver an exact result, saturated when `st` (R316). -/
def deliverT (ty : Nat) (st : Bool) (r : Int) : Word := putT ty (if st then sat r (loT ty) (hiT ty) else r)

/-- The slot b value that IMM gives for a type (R296). -/
def immT (ty : Nat) (imm : BitVec 28) : Word :=
  if ty < 4 then putT ty (signed imm.toNat 28)
  else if ty == 4 then BitVec.ofNat 64 (imm.toNat * 16)
  else BitVec.ofNat 64 (fld imm 0 16 + fld imm 0 16 * pow2 16)

/-- Slot b of an A-format instance: the operand, or IMM when I = 1. -/
def bOf (f : AFmt) (s : State) : Word := if f.i then immT f.ty.toNat f.imm else opB s

/-- The offset of an M word (R298, R299, R372). -/
def offM (f : MFmt) : Int := if f.ord then signed (fld f.imm 0 15) 15 else signed f.imm.toNat 20

/-- KIND and SCOPE of an M word with ORD = 1. -/
def kindM (f : MFmt) : Nat := if f.ord then fld f.imm 15 2 else 0
def scopeM (f : MFmt) : Nat := if f.ord then fld f.imm 17 3 else 4

/-! ### The shell (R294) -/

/-- An operand of the instance is an end-of-stream marker. -/
def anyEos (i : Inst) : Bool := (operands i).any (isKind .eos)
/-- p is null, or another slot holds a null. -/
def anyNull (i : Inst) : Bool := (operands i).any (isKind .null)

/-- The predicate lets the instance act (R293, R294). -/
def predOk (pr : BitVec 2) (s : State) : Bool :=
  if pr == 1 then opP s != 0 else if pr == 2 then opP s == 0 else true

/-- The phase of the instance passes slot a unchanged (OPV, R214). -/
def passes (i : Inst) : Bool := (i.phase.map fun e => Nat.testBit e 9).getD false

/-- Every instance passes this shell before its effect (R27, R162, R214, R294). -/
def shell (pr : BitVec 2) (ts : List Tgt) (s : State) (eff : State → State) : State :=
  if anyEos s.cur then sendAll s ts .eos 0
  else if anyNull s.cur then sendAll s ts .null 0
  else if !predOk pr s then s
  else if passes s.cur then sendAll s ts .data (opA s)
  else eff s

/-- The shell of an A word whose result goes to T0 and T1. -/
def shellA (f : AFmt) (s : State) (eff : State → State) : State := shell f.pr [f.t0, f.t1] s eff

/-- A value to both targets of an A word. -/
def send2 (f : AFmt) (s : State) (v : Word) : State := send (send s f.t0 v) f.t1 v

/-- An integer or logic instruction: one value from the operands to every target (R308). -/
def aluInt (f : AFmt) (s : State) (v : Word) : Res := .next (shellA f s fun s => send2 f s v)

/-- A floating instruction: it waits for its controls (R345), raises its flags and sends its value. -/
def aluFp (f : AFmt) (s : State) (v : Ctl → Word × Nat) : Res :=
  .next (shellA f s fun s =>
    match curCtl s with
    | none => waitCur s
    | some c => send2 f (raiseFl s (v c).2) (v c).1)

end Sys2Proof.Machine
end

