-- ==== Sys2Proof/Machine/Fabric.lean ====
section
/-! DEFINITION. Tokens between their sending and their firing: arrival (R28, R155, R219), match mode (R155–R160),
queue mode (R161–R163), the formation of instances (R213, R214, R222), gang issue (R165, R176, R177). -/
namespace Sys2Proof.Machine

/-- The row of an instruction word. -/
def rowOfWord (w : Word) : Option Row :=
  match decodeWord w with
  | .ok i => row i
  | .error _ => none

/-- The slots that a word takes, p among them when PR is not 0 (R293). -/
def wordSlots (w : Word) : List Slot :=
  match rowOfWord w with
  | some r => r.slots ++ (if r.pay.pr == 0 then [] else [.p])
  | none => []

/-- KSEL: the slot that a constant feeds, and which constant (R212). -/
def kselOf (pw : Word) : Option (Slot × Nat) :=
  if fld pw 47 2 == 0 then none else some (slotOf (fld pw 47 2 - 1), fld pw 45 2)

/-- The slots of a grid context that tokens feed (R161, R213). -/
def ctxSlots (c : Ctx) : List Slot :=
  match kselOf c.pw with
  | some (k, _) => (wordSlots c.iw).filter (· != k)
  | none => wordSlots c.iw

/-- A word of merge.u or merge.o takes single heads (R352). -/
def isMerge (w : Word) : Bool := opOf w == 0x71 || opOf w == 0x72

/-- merge.o, or merge.u in a deterministic partition (R164, R352). -/
def mergesInOrder (s : State) (p : Nat) (w : Word) : Bool := opOf w == 0x72 || (opOf w == 0x71 && isDet s p)

/-- A region whose cells issue and form nothing (R225, R447). -/
def gated (r : Region) : Bool := r.fault.isSome || !(match r.phase with | .run => true | _ => false)

/-- A cell-context belongs to a region. -/
def inRegion (r : Region) (cell c : Nat) : Bool :=
  decide (r.x0 ≤ cell % 16) && decide (cell % 16 < r.x0 + r.w) && decide (r.y0 ≤ cell / 16) && decide (cell / 16 < r.y0 + r.h) &&
    decide (r.c0 ≤ c) && decide (c < r.c0 + r.c)

/-- An instance of the region. -/
def ofRegion (r : Region) (i : Inst) : Bool := i.grid == some r.idx && i.bay == r.bay

/-- The queue entries of a region's contexts. -/
def regionQueue (r : Region) (e : QEntry) : Bool := e.bay == r.bay && e.blk.isNone && inRegion r e.cell e.tok.tag.ctx.toNat

/-- A token travels to a cell-context of the region. -/
def toRegion (r : Region) (x : Flight) : Bool :=
  match x.toward with
  | .cell b cell _ => b == r.bay && inRegion r cell x.tok.tag.ctx.toNat
  | .dest _ => false
  | .ack => false

/-- The level at which an instance of a frame enters the ready queue (R177, R450). -/
def levelOf (s : State) (p f : Nat) : Nat :=
  match frame? s p f with
  | some fr => if fr.trap.isSome then 0 else fr.pri + 1
  | none => 4

/-- Room in the ready queue of a cell (R152). -/
def readyRoom (s : State) (bay cell : Nat) : Bool :=
  decide ((s.ready.filter fun i => i.bay == bay && i.cell == cell).length < 32)

/-- Put an operand into a slot of an instance. -/
def setOp (i : Inst) (sl : Slot) (o : Operand) : Inst :=
  match sl with
  | .a => { i with a := some o }
  | .b => { i with b := some o }
  | .c => { i with c := some o }
  | .p => { i with p := some o }

/-- The operand in a slot of an instance. -/
def getOp (i : Inst) (sl : Slot) : Option Operand :=
  match sl with
  | .a => i.a
  | .b => i.b
  | .c => i.c
  | .p => i.p

/-- The operand that a token is. -/
def toOperand (t : Token) : Operand := ⟨t.kind, t.data⟩

/-- A word whose instance may turn back at its firing, as the head that it was formed from (R352, R354, R355). -/
def mayReturn (w : Word) : Bool := isMerge w || opOf w == 0x75 || opOf w == 0x78

/-- Room in an input queue of a cell (R153). A formed head that may still turn back keeps its place. -/
def queueRoom (s : State) (bay cell : Nat) (sl : Slot) : Bool :=
  let back := fun (i : Inst) => i.grid.isSome && i.bay == bay && i.cell == cell && mayReturn i.word && (getOp i sl).isSome
  decide ((s.queues.filter fun e => e.bay == bay && e.cell == cell && e.slot == sl).length +
    ((s.ready ++ s.pipe ++ s.waits ++ s.regions.flatMap (·.faulting)).filter back).length < 16)

/-! ### The calendar (R176, R239, R245, R274) -/

/-- The calendar slots that a partition owns now: from the scrub of a resize on, without the departing ones (R245). -/
def calSlots (t : Part) : Nat := if t.rszBusy && decide (6 ≤ t.rszStep) then Nat.land t.cal.toNat (t.rszNew.getD 8 0).toNat else t.cal.toNat

/-- The calendar slot of a cycle (R239). -/
def slotNow (s : State) : Nat := s.pkg.cycle / 16 % 64

/-- A slot that another partition gave up in this period is not used again in it (R245). -/
def slotFresh (s : State) (k : Nat) : Bool := !(s.pkg.calFreed.contains (k, s.pkg.cycle / 1024))

/-- The owned slots in which a partition issues and its flits are forwarded: power capping withholds the highest ⌊n·h/64⌋,
and one stays (R239, R274). -/
def issueSlots (s : State) (p : Nat) : List Nat :=
  let l := setBits (calSlots (part s p)) 64
  (l.take (Nat.max 1 (l.length - l.length * s.pkg.pcHold / 64))).filter (slotFresh s)

/-- The present cycle lies in a slot that serves the partition. -/
def inSlot (s : State) (p : Nat) : Bool := (issueSlots s p).contains (slotNow s)

/-! ### Match mode (R155–R160) -/

/-- SEQ2 of R154. -/
def seq2 (b : Option Nat) : Nat := (b.getD 0) % 4

/-- The token that rests in a row slot. -/
def resting? (s : State) (p f idx : Nat) (sl : Slot) : Option SlotEntry :=
  s.slots.find? fun x => x.part == p && x.frame == f && x.idx == idx && x.slot == sl

/-- Two tokens have one identity: FRAME, WAVE and SEQ2 (R155). -/
def sameId (x : SlotEntry) (t : Token) (b : Option Nat) : Bool := x.tok.tag.wave == t.tag.wave && seq2 x.blk == seq2 b

/-- What becomes of a match-mode head (R155, R156, R159). -/
inductive MatchRes where
  | fire | rest | wait
  | dup (kept : Token)
  deriving DecidableEq, Repr

/-- The word of the matching store that a slot of a frame's row is (R29, R121). -/
def rowWord (s : State) (p f idx : Nat) (sl : Slot) : Nat :=
  match frame? s p f with
  | some fr => ((fr.bay * 256 + fr.row) * 128 + idx) * 4 + slotNo sl
  | none => 0

/-- A resting partner that a firing would read lies in a poisoned word of the matching store (R115): that word. -/
def rowPoison (s : State) (p f idx : Nat) (used : List Slot) (sl : Slot) : Option Nat :=
  ((used.filter (· != sl)).find? fun o => s.poison.contains (.row, rowWord s p f idx o)).map (rowWord s p f idx)

/-- A token comes to rest in its row slot: a word that is written whole loses its poison (R115, R121, R155). -/
def restSlot (s : State) (x : SlotEntry) : State :=
  let w := rowWord s x.part x.frame x.idx x.slot
  { s with slots := s.slots ++ [x], poison := s.poison.filter fun y => y != (.row, w) }

/-- Judge a head for slot `sl` against the row slots `used` of the instruction. A head of a slot that the instruction does not
take (any of a nop or a read, R310, R311) fires nothing: it rests. -/
def judge (s : State) (p f idx : Nat) (used : List Slot) (sl : Slot) (t : Token) (b : Option Nat) : MatchRes :=
  if used.contains sl && (used.filter (· != sl)).all fun o => ((resting? s p f idx o).map fun x => sameId x t b).getD false then .fire
  else match resting? s p f idx sl with
    | none => .rest
    | some x => if sameId x t b then .dup x.tok else .wait

/-- The operands of a firing: the head and the resting partners. -/
def gather (s : State) (p f idx : Nat) (used : List Slot) (sl : Slot) (t : Token) (i : Inst) : Inst :=
  used.foldl (fun i o =>
    if o == sl then setOp i o (toOperand t)
    else match resting? s p f idx o with
      | some x => setOp i o (toOperand x.tok)
      | none => i) i

/-- Clear the presence bits of the consumed slots (R121). -/
def takeSlots (s : State) (p f idx : Nat) (used : List Slot) : State :=
  { s with slots := s.slots.filter fun x => !(x.part == p && x.frame == f && x.idx == idx && used.contains x.slot) }

/-! ### Formation in a grid (R213, R214, R222) -/

/-- Set constant k of a context in the store and the protected copy (R126). -/
def setConst (c : Ctx) (k : Nat) (v : Word) : Ctx := { c with q := c.q.set k v, copy := c.copy.set (3 + k) v }

/-- Form an instance of a context under the tag and the ordinal of a head: the constant operand, the phase entry and its
advance, and the pending constant write (R213, R214, R222, R503). -/
def form (s : State) (c : Ctx) (t : Token) (ops : List (Slot × Token)) : State :=
  let p := ((region? s c.bay c.region).map (·.part)).getD 0
  let base : Inst := { Inst.empty with
    part := p, bay := c.bay, cell := c.cell, ctx := c.ctx, tag := t.tag, ord := t.ord, adm := t.adm,
    word := c.iw, grid := some c.region, level := levelOf s p t.tag.frame.toNat }
  let i := ops.foldl (fun i o => setOp i o.1 (toOperand o.2)) base
  let i := match kselOf c.pw with
    | some (k, n) => setOp i k ⟨.data, c.q.getD n 0⟩
    | none => i
  let mark := anyEos i
  let e := fld c.pw (10 * c.ph) 10
  let i := { i with phase := if mark then none else some e }
  let wrap := c.cn == e % 32
  let ph := if mark then 0 else if wrap then (c.ph + 1) % (fld c.pw 43 2 + 1) else c.ph
  let cn := if mark then 0 else if wrap then 0 else c.cn + 1
  let s := modCtx s c.bay c.cell c.ctx fun c =>
    let c := { c with ph := ph, cn := cn }
    match c.pend with
    | some (k, v, n) => if n ≤ 1 then { setConst c k v with pend := none } else { c with pend := some (k, v, n - 1) }
    | none => c
  let s := modRegion s c.bay c.region fun r => { r with progress := (part s r.part).wdCycles }
  { s with ready := s.ready ++ [i] }

/-- An instance of a context that has been formed and has not acted. -/
def formedOut (s : State) (c : Ctx) : Bool :=
  (s.ready ++ s.pipe ++ s.waits).any fun i => i.grid.isSome && i.bay == c.bay && i.cell == c.cell && i.ctx == c.ctx

/-! ### What kbound, merge.o and red admit (R352, R354, R355) -/

/-- The live loop record of a FRAME in a kbound context. -/
def loopRec (c : Ctx) (f : BitVec 20) : Option LoopRec := c.loops.find? fun r => r.frame == f

/-- kbound admits a head (R354). -/
def kboundAdmits (c : Ctx) (k : Nat) (t : Tag) : Bool :=
  match loopRec c t.frame with
  | none => decide (c.loops.length < 16)
  | some r => decide (r.n < k) && r.e == t.wave

/-- LAST of a FRAME in a merge table (R352). -/
def mergeLast (c : Ctx) (f : BitVec 20) : BitVec 8 := (assoc f c.merges).getD (BitVec.ofNat 8 (fld c.iw 0 8) - 1)

/-- merge.o delivers a head; `other` is the head of the other slot (R352). -/
def mergeAdmits (c : Ctx) (t : Token) (other : Option Token) : Bool :=
  if t.kind == .eos then !((other.map fun o => o.tag.frame == t.tag.frame).getD false)
  else
    let d := (t.tag.wave - mergeLast c t.tag.frame - 1).toNat
    ((assoc t.tag.frame c.merges).isSome || decide (c.merges.length < 16)) && (d == 0 || decide (64 ≤ d))

/-- The NEXT that a token of a FRAME meets: 0 when another FRAME was last closed (R355). -/
def redNext (r : RedState) (f : BitVec 20) : BitVec 8 :=
  if r.frame.isNone && r.last.isSome && r.last != some f then 0 else r.next

/-- red takes a head (R355); `arr` is the .arr form. -/
def redAdmits (c : Ctx) (arr : Bool) (t : Token) : Bool :=
  let fr := t.tag.frame
  let mine := c.red.frame.isNone || c.red.frame == some fr
  let j := (t.tag.wave - redNext c.red fr).toNat
  if arr then mine else if t.kind == .eos then mine && j == 0 else mine && decide (j < 8)

/-- The head may form an instance now. Instances of kbound, red and an ordering merge form one at a time. -/
def admits (s : State) (c : Ctx) (t : Token) (other : Option Token) : Bool :=
  let p := ((region? s c.bay c.region).map (·.part)).getD 0
  let op := opOf c.iw
  if op == 0x78 then (t.kind == .eos || kboundAdmits c (fld c.iw 0 7) t.tag) && !formedOut s c
  else if op == 0x75 then redAdmits c (fld c.iw 48 2 == 1) t && !formedOut s c
  else if mergesInOrder s p c.iw then mergeAdmits c t other && !formedOut s c
  else true

/-! ### Queue mode (R161–R163) -/

/-- The head that a context sees in a slot queue: the oldest entry whose CTX is its own (R161). -/
def headOf (s : State) (c : Ctx) (sl : Slot) : Option (Nat × QEntry) :=
  findPos (fun (e : QEntry) => e.bay == c.bay && e.cell == c.cell && e.slot == sl && e.blk.isNone && e.tok.tag.ctx.toNat == c.ctx) s.queues

/-- Remove the head of a slot queue. -/
def popHead (s : State) (c : Ctx) (sl : Slot) : State :=
  match headOf s c sl with
  | some (n, _) => { s with queues := dropAt n s.queues }
  | none => s

/-- The identity that pad gives an operation (R163), under the context's RM; none where pad may not stand. The table's
'min, max (s)' is read as every integer type, signed and unsigned. DEDUCED, log 88. -/
def padIdentity (i : Instr) (rm : Nat) : Option Word :=
  match i with
  | .add _ | .or _ | .xor _ | .sub _ => some 0
  | .mul _ => some 1
  | .and f => some (putT f.ty.toNat (-1))
  | .min f => some (putT f.ty.toNat (hiT f.ty.toNat))
  | .max f => some (putT f.ty.toNat (loT f.ty.toNat))
  | .fadd f =>
    let z := if rm == 2 then 0 else (fmtOf f.ty.toNat).signed true 0
    some (fromElems f.ty.toNat [z, z])
  | .fsub f =>
    let z := if rm == 2 then (fmtOf f.ty.toNat).signed true 0 else 0
    some (fromElems f.ty.toNat [z, z])
  | .fmul f =>
    let o := (roundTo (fmtOf f.ty.toNat) 0 ⟨false, 1, 0, false⟩).bits
    some (fromElems f.ty.toNat [o, o])
  | .fmin f => some (fromElems f.ty.toNat [(fmtOf f.ty.toNat).inf false, (fmtOf f.ty.toNat).inf false])
  | .fmax f => some (fromElems f.ty.toNat [(fmtOf f.ty.toNat).inf true, (fmtOf f.ty.toNat).inf true])
  | _ => none

/-- The identity for a context's word. -/
def ctxIdentity (c : Ctx) : Word :=
  match decodeWord c.iw with
  | .ok i => (padIdentity i (fld c.pw 59 2)).getD 0
  | .error _ => 0

/-- The record of a skew in a grid context: the region freezes and nothing is consumed (R161, R162). -/
def skewFault (s : State) (c : Ctx) (code : BitVec 8) (t u : Tag) : State :=
  let p := ((region? s c.bay c.region).map (·.part)).getD 0
  let r := { recBase code p with
    flags := flGrid, tag := tagWord t, cell := c.cell, ctx := c.ctx, bay := c.bay,
    region := c.region, fname := fnameOf s p t.frame.toNat, addr := ((region? s c.bay c.region).map (·.image)).getD 0,
    g4 := BitVec.setWidth 64 (tagWord t), g5 := BitVec.setWidth 64 (tagWord u) }
  freezeRegion s c.bay c.region r none

/-- The first head of a list that disagrees with the list's first in FRAME or WAVE, with that first (R161). -/
def tagSkew (hs : List (Slot × Token × Nat)) : Option (Tag × Tag) :=
  match hs with
  | [] => none
  | h :: t => (t.find? fun x => !(x.2.1.tag.frame == h.2.1.tag.frame && x.2.1.tag.wave == h.2.1.tag.wave)).map fun x => (h.2.1.tag, x.2.1.tag)

/-- Pair the heads of a context once: none when nothing forms (R161, R162). Under pad every slot that stands at a marker
takes the operation's identity, the p slot too: as a predicate. DESIGN CHOICE, log 88. -/
def pairOnce (s : State) (c : Ctx) : Option State :=
  let used := ctxSlots c
  let hs := used.filterMap fun sl => (headOf s c sl).map fun h => (sl, h.2.tok, h.1)
  if !readyRoom s c.bay c.cell then none
  else if isMerge c.iw then
    -- single heads, in the order in which they entered their queues
    let ha := hs.filter fun h => h.1 == .a
    let hb := hs.filter fun h => h.1 == .b
    let cand := match ha, hb with
      | [x], [y] => if x.2.2 ≤ y.2.2 then [(x, some y.2.1), (y, some x.2.1)] else [(y, some x.2.1), (x, some y.2.1)]
      | [x], _ => [(x, none)]
      | _, [y] => [(y, none)]
      | _, _ => []
    match cand.find? fun h => admits s c h.1.2.1 h.2 with
    | some h => some (form (popHead s c h.1.1) c h.1.2.1 [(h.1.1, h.1.2.1)])
    | none => none
  else if used.isEmpty || decide (hs.length < used.length) then none
  else
    let marks := hs.filter fun h => h.2.1.kind == .eos
    let data := hs.filter fun h => h.2.1.kind != .eos
    match marks, data with
    | m :: _, d :: _ =>
      let pol := fld c.pw 61 2
      if pol == 1 then
        -- drain: each other head is discarded and counted
        let s := data.foldl (fun s h => popHead s c h.1) s
        some (modCtx s c.bay c.cell c.ctx fun c => { c with disc := Nat.min 0xFFFF (c.disc + data.length) })
      else if pol == 2 && !((opOf c.iw == 0x11 || opOf c.iw == 0x41) && m.1 == .a) then
        match tagSkew data with
        | some t => some (skewFault s c F_TAGSKEW t.1 t.2)
        | none =>
          let idv := ctxIdentity c
          let ops := data.map (fun h => (h.1, h.2.1)) ++ marks.map (fun h => (h.1, { d.2.1 with kind := .data, data := idv }))
          some (form (data.foldl (fun s h => popHead s c h.1) s) c d.2.1 ops)
      else some (skewFault s c F_EOSSKEW m.2.1.tag d.2.1.tag)
    | _, _ =>
      match hs with
      | [] => none
      | h :: _ =>
        match tagSkew hs with
        | some t => some (skewFault s c F_TAGSKEW t.1 t.2)
        | none =>
          if admits s c h.2.1 none then
            some (form (hs.foldl (fun s x => popHead s c x.1) s) c h.2.1 (hs.map fun x => (x.1, x.2.1)))
          else none

/-- Pair the heads of a queue-mode context once, unless its region or a corrupted word keeps it from forming (R126, R225). -/
def pairNow (s : State) (c : Ctx) : Option State :=
  if ((region? s c.bay c.region).map gated).getD true || c.bad || !bitAt c.pw 63 then none else pairOnce s c

/-- Pair the heads of a context until nothing more forms. -/
def pairCtx (bay cell c : Nat) : Nat → State → State
  | 0, s => s
  | n + 1, s =>
    match (ctx? s bay cell c).bind (pairNow s) with
    | some s2 => pairCtx bay cell c n s2
    | none => s

/-- Re-examine every queue-mode context of a region (after a thaw, or when a record frees). -/
def pairRegion (s : State) (bay g : Nat) : State :=
  (s.ctxs.filter fun c => c.bay == bay && c.region == g).foldl (fun s c => pairCtx bay c.cell c.ctx 64 s) s

/-- Put the current instance back as the head that it was formed from (a head that waits, R279). -/
def requeueCur (s : State) : State :=
  let i := s.cur
  let ents := [(Slot.a, i.a), (Slot.b, i.b), (Slot.c, i.c), (Slot.p, i.p)].filterMap fun x =>
    x.2.map fun o => (⟨i.part, i.bay, i.cell, x.1, ⟨{ i.tag with ctx := BitVec.ofNat 3 i.ctx }, o.kind, o.data, i.ord, i.adm, none⟩, none, 255⟩ : QEntry)
  { s with queues := ents ++ s.queues }

/-! ### Places of blocks (R33) -/

/-- The cell-contexts of a rectangle of cells over a range of contexts (R216, R218). -/
def rectPlaces (x0 y0 w h c0 c : Nat) : List (Nat × Nat) :=
  (List.range h).flatMap fun y => (List.range w).flatMap fun x => (List.range c).map fun k => (16 * (y0 + y) + x0 + x, c0 + k)

/-- The cell-contexts of a region. -/
def regionPlaces (r : Region) : List (Nat × Nat) := rectPlaces r.x0 r.y0 r.w r.h r.c0 r.c

/-- The cell-contexts of a bay in use: by grids, and by placed blocks. -/
def usedPlaces (s : State) (bay : Nat) : List (Nat × Nat) :=
  (s.regions.filter fun r => r.bay == bay).flatMap regionPlaces ++
    (s.blocks.filter fun b => ((frame? s b.part b.frame).map (·.bay)) == some bay).flatMap (·.places)

/-- The free cell-contexts of a bay, the highest context first, since regions take the lowest (R218; which of them a block
takes is log 11). -/
def freePlaces (s : State) (bay : Nat) : List (Nat × Nat) :=
  let used := usedPlaces s bay
  (List.range 2048).filterMap fun k => if used.contains (k % 256, 7 - k / 256) then none else some (k % 256, 7 - k / 256)

/-- Give each instruction but nop a cell-context; none when they do not suffice. -/
def assignPlaces : List Word → List (Nat × Nat) → Option (List (Nat × Nat))
  | [], _ => some []
  | w :: ws, free =>
    if w == 0 then (assignPlaces ws free).map fun l => (256, 0) :: l
    else match free with
      | [] => none
      | x :: xs => (assignPlaces ws xs).map fun l => x :: l

/-- A placed block stands in no cell any more: its frame has left its bay. -/
def lostPlaces (b : Block) : Block := { b with places := b.places.map fun _ => (256, 0) }

/-- A block that was placed waits in the front end for new cell-contexts (R33): its frame came to a bay with too few. -/
def displaced (b : Block) : Bool := b.words.any (· != 0) && !b.places.isEmpty && b.places.all fun x => x.1 == 256

/-- Give new places to the displaced blocks of a list, in order, each that finds enough (R33). -/
def refit : List Block → List (Nat × Nat) → List Block
  | [], _ => []
  | b :: bs, free =>
    match (if displaced b then assignPlaces b.words free else none) with
    | none => b :: refit bs free
    | some pl => { b with places := pl } :: refit bs (free.filter fun x => !pl.contains x)

/-- An instance of a block at the place that its instruction has in a list of blocks. -/
def atPlace (bs : List Block) (bay : Nat) (i : Inst) : Inst :=
  let w := ((bs.find? fun b => b.seq == i.seq).bind fun b => b.places[i.idx]?).getD (i.cell, i.ctx)
  { i with bay := bay, cell := w.1, ctx := w.2 }

/-- The blocks of a frame take the places of a list. -/
def putPlaces (s : State) (p f : Nat) (bs : List Block) : State :=
  { s with blocks := s.blocks.map fun b => if b.part == p && b.frame == f then (bs.find? fun x => x.seq == b.seq).getD b else b }

/-- The work of a frame's blocks stands at the places that a list of those blocks gives, in a bay. -/
def reseat (s : State) (p f bay : Nat) (bs : List Block) : State :=
  let mi := fun (i : Inst) => if i.grid.isNone && i.part == p && i.tag.frame.toNat == f then atPlace bs bay i else i
  let me := fun (e : QEntry) => match e.blk with
    | some (q, idx) =>
      if e.part == p && e.tok.tag.frame.toNat == f then { e with bay := bay, cell := (atPlace bs bay { Inst.empty with seq := q, idx := idx, cell := e.cell }).cell } else e
    | none => e
  { putPlaces s p f bs with queues := s.queues.map me, ready := s.ready.map mi, pipe := s.pipe.map mi, waits := s.waits.map mi }

/-- The cells of a bay hold no more in their queues than those have room for (R152, R153); what belongs to displaced blocks
stands in none. -/
def within (s : State) (bay : Nat) : Bool :=
  (s.ready.all fun i => i.bay != bay || decide (256 ≤ i.cell) || decide ((s.ready.filter fun j => j.bay == bay && j.cell == i.cell).length ≤ 32)) &&
    s.queues.all fun e => e.bay != bay || decide (256 ≤ e.cell) ||
      decide ((s.queues.filter fun d => d.bay == bay && d.cell == e.cell && d.slot == e.slot).length ≤ 16)

/-! ### Arrival -/

/-- Take entry n out of the queues. -/
def outQueue (s : State) (n : Nat) : State := { s with queues := dropAt n s.queues }

/-- A head of a block's instruction is examined at its row slots (R155–R160); none where it waits. `n` is its place
among the queue entries. -/
def matchBlock (s : State) (b : Block) (idx n : Nat) (e : QEntry) : Option State :=
  let p := b.part
  let f := b.frame
  let t := e.tok
  let bay := ((frame? s p f).map (·.bay)).getD 0
  let pl := b.places.getD idx (0, 0)
  let w := b.words.getD idx 0
  let used := wordSlots w
  let base : FaultRec := { recBase F_DUPTOK p with
    index := idx, bseq := b.seq, tag := tagWord t.tag, fname := fnameOf s p f, addr := b.addr, bay := bay }
  if displaced b then none
  else match judge s p f idx used e.slot t (some b.seq) with
  | .fire =>
    if !readyRoom s bay pl.1 then none
    else match rowPoison s p f idx used e.slot with
      | some a => if b.held.isSome then none else some (raiseBlock s p f b.seq { base with code := F_MEMECC, g4 := BitVec.ofNat 64 (8 * a) })
      | none =>
        let i : Inst := { Inst.empty with
          part := p, bay := bay, cell := pl.1, ctx := pl.2, tag := t.tag, ord := t.ord, adm := t.adm, word := w,
          seq := b.seq, idx := idx, level := levelOf s p f }
        let i := gather s p f idx used e.slot t i
        let s := takeSlots (outQueue s n) p f idx (used.filter (· != e.slot))
        let s := modFrame s p f fun x => { x with progress := (part s p).wdCycles }
        some { s with ready := s.ready ++ [i] }
  | .rest => some (restSlot (outQueue s n) ⟨p, f, idx, e.slot, some b.seq, none, t⟩)
  | .wait => none
  | .dup kept =>
    some (raiseBlock (outQueue s n) p f b.seq
      { base with g4 := kept.data, g5 := t.data, aux := BitVec.ofNat 64 (slotNo e.slot * 128 + idx) })

/-- A head of a merge in match mode forms an instance alone, as in queue mode; none where it waits (R352). -/
def matchMerge (s : State) (c : Ctx) (n : Nat) (e : QEntry) : Option State :=
  let other := (headOf s c (if e.slot == .a then .b else .a)).map fun h => h.2.tok
  if readyRoom s c.bay c.cell && admits s c e.tok other then some (form (outQueue s n) c e.tok [(e.slot, e.tok)]) else none

/-- A head of a match-mode grid context is examined (R155, R159, R160); none where it waits. -/
def matchGrid (s : State) (c : Ctx) (n : Nat) (e : QEntry) : Option State :=
  let p := ((region? s c.bay c.region).map (·.part)).getD 0
  let t := e.tok
  let f := t.tag.frame.toNat
  let idx := fld c.pw 49 7
  let used := ctxSlots c
  let base : FaultRec := { recBase F_DUPTOK p with
    flags := flGrid, tag := tagWord t.tag, cell := c.cell, ctx := c.ctx, bay := c.bay, region := c.region,
    fname := fnameOf s p f, addr := ((region? s c.bay c.region).map (·.image)).getD 0 }
  if c.bad || ((region? s c.bay c.region).map gated).getD true then none
  else if isMerge c.iw then matchMerge s c n e
  else match judge s p f idx used e.slot t none with
    | .fire =>
      if !readyRoom s c.bay c.cell then none
      else match rowPoison s p f idx used e.slot with
        | some a => some (freezeRegion s c.bay c.region { base with code := F_MEMECC, g4 := BitVec.ofNat 64 (8 * a) } none)
        | none =>
          let ops := used.filterMap fun o => if o == e.slot then some (o, t) else (resting? s p f idx o).map fun x => (o, x.tok)
          some (form (takeSlots (outQueue s n) p f idx (used.filter (· != e.slot))) c t ops)
    | .rest => some (restSlot (outQueue s n) ⟨p, f, idx, e.slot, none, (region? s c.bay c.region).map (·.name), t⟩)
    | .wait => none
    | .dup kept =>
      some (freezeRegion (outQueue s n) c.bay c.region
        { base with g4 := kept.data, g5 := t.data, aux := BitVec.ofNat 64 (slotNo e.slot * 128 + idx) } none)

/-- The row index of the slots that a waiting match-mode token competes for (R155); none in queue mode. -/
def rowIdx (s : State) (e : QEntry) : Option Nat :=
  match e.blk with
  | some (_, idx) => some idx
  | none => (ctx? s e.bay e.cell e.tok.tag.ctx.toNat).bind fun c => if bitAt c.pw 63 then none else some (fld c.pw 49 7)

/-- A queued token is examined: in match mode against its row slots, in queue mode with the heads of its context; none where
it still waits. -/
def tryHead (s : State) (n : Nat) (e : QEntry) : Option State :=
  match e.blk with
  | some (q, idx) => (block? s e.part e.tok.tag.frame.toNat q).bind fun b => matchBlock s b idx n e
  | none => (ctx? s e.bay e.cell e.tok.tag.ctx.toNat).bind fun c => if bitAt c.pw 63 then pairNow s c else matchGrid s c n e

/-- Two queued tokens are examined together: they stand in the queues of one cell, or compete for the slots of one row index of
a frame (R155, R160). -/
def together (s : State) (e d : QEntry) : Bool :=
  (d.bay == e.bay && d.cell == e.cell) ||
    (d.part == e.part && d.tok.tag.frame == e.tok.tag.frame && (rowIdx s e).isSome && rowIdx s d == rowIdx s e)

/-- The oldest entry examined with e that can act acts (R155, R156). -/
def tryCell (s : State) (e : QEntry) : Option State :=
  (List.range s.queues.length).findSome? fun n => (s.queues[n]?).bind fun d => if together s e d then tryHead s n d else none

/-- Examine the entries that are examined with e, the oldest first and anew after each change, until all that are left wait
(R155, R156, R160, R161). -/
def settle (e : QEntry) : Nat → State → State
  | 0, s => s
  | k + 1, s => match tryCell s e with
    | some s2 => settle e k s2
    | none => s

/-- A token joins its input queue, and the heads of its cell are examined in queue order (R155, R161). -/
def enqueue (s : State) (e : QEntry) : State :=
  let s := { s with queues := s.queues ++ [e] }
  settle e (64 + s.queues.length) s

/-- The ordinal that a token takes at an entry port (R503): congruent to WAVE, in the window of the highest; where that
value lies below 0, which no ordinal does, WAVE itself. DESIGN CHOICE, log 89. -/
def entryOrd (h : Option Nat) (w : Nat) : Nat :=
  match h with
  | none => w
  | some h =>
    let lo : Int := (h : Int) - 128
    let o := lo + ((w : Int) - lo) % 256
    if o < 0 then w else o.toNat

/-- A token that its FRAME or its entry does not admit is discarded with F_TAGRANGE (R28, R219). The record's g5 is its
destination (R449); for a token on a grid's route, which bears none, the number of the bay before that of the cell. DESIGN
CHOICE, log 113. -/
def tagRange (s : State) (x : Flight) (unalloc : Bool) : State :=
  let d := match x.toward with
    | .dest d => BitVec.setWidth 64 d
    | .cell bay cell _ => BitVec.ofNat 64 (bay * 1024 + cell)
    | .ack => 0
  deliverN s { recBase F_TAGRANGE x.part with
    tag := tagWord x.tok.tag, g4 := x.tok.data, g5 := d, flags := if unalloc then flUnalloc else 0 } .nothing

/-- The append area of an image is full: tokens, and the exitg tokens that wait for its frame (R166, R369). -/
def imageFull (s : State) (m : Image) : Bool :=
  decide (1024 ≤ m.appended.length + (s.exitgs.filter fun x => x.part == m.part && x.tok.tag.frame.toNat == m.frame).length)

/-- Append a token to the image of a spilled frame (R46, R166). -/
def appendImage (s : State) (p f : Nat) (x : Flight) : Option State :=
  match s.images.find? fun m => m.part == p && m.frame == f with
  | none => none
  | some m =>
    if imageFull s m then none
    else some { s with images := updWhere (fun m => m.part == p && m.frame == f) (fun m => { m with appended := m.appended ++ [x] }) s.images }

/-- A token or a configuration flit reaches a grid cell (R155, R161, R222); none where it waits on its link. A match-mode
token of a spilled frame goes to the frame's image (R46). -/
def arriveCell (s : State) (x : Flight) (bay cell : Nat) (sl : Slot) : Option State :=
  match ctx? s bay cell x.tok.tag.ctx.toNat with
  | none => some s
  | some c =>
    match x.cfg with
    | some k =>
      if c.pend.isSome then none
      else
        let n := (s.queues.filter fun e => e.bay == bay && e.cell == cell && e.slot == sl && e.blk.isNone && e.tok.tag.ctx.toNat == c.ctx).length
        some (modCtx s bay cell c.ctx fun c =>
          if n == 0 then setConst c k.toNat x.tok.data else { c with pend := some (k.toNat, x.tok.data, n) })
    | none =>
      if !bitAt c.pw 63 && !((frame? s x.part x.tok.tag.frame.toNat).map (·.resident)).getD true then
        appendImage s x.part x.tok.tag.frame.toNat { x with toward := .cell bay cell sl }
      else if !queueRoom s bay cell sl then none
      else some (enqueue s ⟨x.part, bay, cell, sl, x.tok, none, 255⟩)

/-- The entry was pushed with the planes of a grid call: tokens for it wait (R223, R225). -/
def entryPushed (s : State) (p bay e : Nat) : Bool :=
  s.regions.any fun r => r.part == p && r.name.1 == bay && r.planes.any fun p => p.entries.any fun x => x.e == e

/-- A token of the log of a region that is to enter it again (R231). -/
def replays (r : Region) (x : Flight) : Bool := x.part == r.part && x.sender == replaySender r

/-- A token waits at an entry of the region (R223, R225, R230, R231): its ports are closed, it is gated, its log is full, or
logged tokens are still to enter. Those of the log stand inside the closed ports. -/
def entryShut (s : State) (r : Region) (x : Flight) : Bool :=
  decide (128 ≤ r.bay) || gated r || (r.ck && decide (4096 ≤ r.entryLog.length)) ||
    (!replays r x && ((r.closed && r.planes.isEmpty) || s.net.any (replays r)))

/-- A token reaches an entry of a bay's entry table (R219, R223, R230, R503). The argument of a grid call is not logged: the
call itself comes again (R231). -/
def arriveEntry (s : State) (x : Flight) (bay e : Nat) : Option State :=
  match s.entries.find? fun r => r.part == x.part && r.bay == bay && r.e == e with
  | none => if entryPushed s x.part bay e then none else some (tagRange s x true)
  | some en =>
    match regionNamed s x.part (bay, en.region) with
    | none => some (tagRange s x true)
    | some r =>
      if entryShut s r x then none
      else
        let h := assoc x.tok.tag.frame r.ords
        let o := entryOrd h x.tok.tag.wave.toNat
        let tok := { x.tok with tag := { x.tok.tag with ctx := BitVec.ofNat 3 en.ctx }, ord := o, adm := [] }
        (arriveCell s { x with tok := tok } r.bay en.cell en.slot).map fun s =>
          modRegion s r.bay r.idx fun r =>
            { r with ords := assocSet x.tok.tag.frame (Nat.max o (h.getD o)) r.ords
                     entryLog := if r.ck && !(decide (4096 ≤ x.sender) && decide (x.sender < 8192)) then r.entryLog ++ [x] else r.entryLog }

/-- A token reaches the block that it is for (R33, R40, R155); none where it waits, as one for a slot of a displaced block
does. -/
def arriveBlock (s : State) (x : Flight) (fr : Frame) (t : Tgt) : Option State :=
  let b? := match x.seq with
    | some q => block? s x.part fr.num q
    | none => (blocksOf s x.part fr.num).head?
  match b? with
  | none =>
    (match x.seq with
     | some q => if q == fr.nextSeq then none else some s
     | none => none)
  | some b =>
    if b.places.isEmpty then none
    else if !bitAt t 9 then
      if displaced b then none
      else
      let idx := fld t 0 7
      let sl := slotOf (fld t 7 2)
      let cell := (b.places.getD idx (0, 0)).1
      if !queueRoom s fr.bay cell sl then none else some (enqueue s ⟨x.part, fr.bay, cell, sl, x.tok, some (b.seq, idx), x.sender⟩)
    else
      let v := receiptOf x.tok.kind x.tok.data
      if fld t 6 4 == 0b1000 then some (recvReg s x.part fr.num b.seq (fld t 0 6) v x.sender x.tok.tag)
      else some (recvSoft s x.part fr.num b.seq (fld t 0 3) (v.map textOf) x.sender x.tok.tag)

/-- The acknowledgement of a child's end reaches its parent (R362): CC falls by 1 and JN rises by 1. -/
def childAck (s : State) (p parent : Nat) : State :=
  modFrame s p parent fun f => { f with cc := f.cc - 1, jn := Nat.min 0xFFFF (f.jn + 1) }

/-- What becomes of a travelling token at its destination: none where it waits on its link. -/
def arrive (s : State) (x : Flight) : Option State :=
  let p := x.part
  let f := x.tok.tag.frame.toNat
  if x.cfg.isNone && !inRange s p f then some (tagRange s x false)
  else if x.cfg.isNone && (frame? s p f).isNone then some (tagRange s x true)
  else match x.toward with
    | .cell bay cell sl => arriveCell s x bay cell sl
    | .ack => if ((frame? s p f).map (·.resident)).getD true then some (childAck s p f) else appendImage s p f x
    | .dest d =>
      let t : Tgt := BitVec.extractLsb' 0 10 d
      if fld t 6 4 == 0b1010 then arriveEntry s x (fld d 10 7) (fld t 0 6)
      else if t == nullT || !tgtAssigned t then some s
      else match frame? s p f with
        | none => some s
        | some fr => if fr.resident then arriveBlock s x fr t else appendImage s p f x

/-- A travelling token has another of its sender ahead of it to the same place (R164); the tokens of a log come in its order,
whatever their place (R231). -/
def blockedBehind (net : List Flight) (n : Nat) (x : Flight) : Bool :=
  (net.take n).any fun y => y.part == x.part && y.sender == x.sender &&
    (decide (8192 ≤ x.sender) || (y.toward == x.toward && y.seq == x.seq && y.tok.tag.ctx == x.tok.tag.ctx))

/-- COLLISION_RETRY (R156, R160): the waiting tokens of a head's cell and row are examined again, the oldest first. -/
def execCollisionRetry (n : Nat) (s : State) : Res :=
  match s.queues[n]? with
  | none => .next s
  | some e =>
    if savedAway s e.part then .next s
    else .next (settle e (64 + s.queues.length) s)

/-! ### Issue (R165, R176, R177, R269) -/

/-- The partition is stopped as a whole: halted, pre-empted, or about to be destroyed (R179, R236, R453). -/
def stopped (s : State) (p : Nat) : Bool := let t := part s p; t.preHalted || t.preBusy || t.preSaved || t.dying

/-- Nothing new starts in a bay of the partition: it is stopped as a whole, or the bay is on its way out (R179, R242). Its cells
issue nothing from the gate on, and a token that cannot enter a full queue stays on its link. DESIGN CHOICE, log 126. -/
def bayGated (s : State) (p bay : Nat) : Bool := stopped s p || departing (part s p) bay

/-- The lease of the instance's tree is spent (R269). -/
def leaseSpent (s : State) (i : Inst) : Bool :=
  match treeOf s i.part i.tag.frame.toNat with
  | none => false
  | some k => ((part s i.part).trees.find? fun x => x.id == k).any fun x => x.lease == 0

/-- A region as its cells see it when they issue: a fault of this cycle stops them from the next on (R452). -/
def thisCycle (s : State) (r : Region) : Region := if r.faultAt == s.pkg.cycle then { r with fault := none } else r

/-- The instance may issue; elease and equery issue even when the lease is spent (R437). A corrupted context issues nothing
before its recovery (R126, R230). -/
def mayIssue (s : State) (i : Inst) : Bool :=
  (!leaseSpent s i || opOf i.word == 0xE5 || opOf i.word == 0xE6) && (match i.grid with
    | some g => (((region? s i.bay g).map fun r => !gated (thisCycle s r)).getD false) && !(((ctx? s i.bay i.cell i.ctx).map (·.bad)).getD false)
    | none => true)

/-- R50's order: ascending FNAME in a deterministic partition, arrival order elsewhere. -/
def ranksBefore (s : State) (det : Bool) (x y : Inst) : Bool :=
  det && decide ((fnameOf s x.part x.tag.frame.toNat).toNat < (fnameOf s y.part y.tag.frame.toNat).toNat)

/-- Insert an instance into issue order (R177). -/
def insIssue (s : State) (det : Bool) (x : Inst) : List Inst → List Inst
  | [] => [x]
  | y :: ys =>
    let before :=
      if x.level == 0 && y.level == 0 then decide (y.wait < x.wait) || (x.wait == y.wait && ranksBefore s det x y)
      else decide (x.level < y.level) || (x.level == y.level && ranksBefore s det x y)
    if before then x :: y :: ys else y :: insIssue s det x ys

/-- The ready instances of a cell in issue order. -/
def issueOrder (s : State) (det : Bool) (l : List Inst) : List Inst := l.foldl (fun acc x => insIssue s det x acc) []

/-- The lanes of an instance: two for an s64 or n64 type (R45), one where the word names no type, as in adda, lea, alignd, canon,
the moves and the memory, engine and dataflow words. DESIGN CHOICE, log 112. -/
def lanes (i : Inst) : Nat :=
  match rowOfWord i.word with
  | some r => (match r.pay with
    | .fa f => if f.ty == 2 || f.ty == 3 then 2 else 1
    | _ => 1)
  | none => 1

/-- Two instances of one context and instruction. -/
def sameInstr (x y : Inst) : Bool := x.ctx == y.ctx && x.word == y.word && x.seq == y.seq && x.idx == y.idx && x.grid == y.grid

/-- Fill a gang up to eight lanes with the instances of one context and instruction, in issue order, under different tags
(R45, R165). The first one that repeats a tag or finds no lanes ends the gang, so that the order of the instruction's
instances stands. -/
def fillGang (first : Inst) : List Tag → List Inst → Nat → List Inst
  | _, [], _ => []
  | tags, x :: xs, room =>
    if !sameInstr x first then fillGang first tags xs room
    else if tags.contains x.tag || decide (room < lanes x) then []
    else x :: fillGang first (x.tag :: tags) xs (room - lanes x)

/-- GANG_ISSUE (R165): in an owned slot a cell of the bay issues one gang a cycle; its instances enter the pipeline. -/
def execGangIssue (bay cell : Nat) (s : State) : Res :=
  match bayOwner s bay with
  | none => .next s
  | some p =>
    if decide (256 ≤ cell) || bayGated s p bay || s.issued.contains (bay, cell) || !inSlot s p then .next s
    else
      let here := s.ready.filter fun i => i.bay == bay && i.cell == cell && mayIssue s i
      match issueOrder s (isDet s p) here with
      | [] => .next s
      | x :: xs =>
        let gang := x :: fillGang x [x.tag] xs (8 - lanes x)
        let s := { s with ready := gang.foldl (fun l i => l.erase i) s.ready, pipe := s.pipe ++ gang, issued := s.issued ++ [(bay, cell)] }
        let s := modPart s p fun t => { t with widthAch := t.widthAch + BitVec.ofNat 64 gang.length }
        .next (gang.foldl (fun s i => charge s p (treeOf s p i.tag.frame.toNat) 2 (lanes i)) s)

/-- PRIORITY_AGING (R177): an instance that has waited 4,096 cycles rises one level. -/
def execPriorityAging (n : Nat) (s : State) : Res :=
  .next { s with ready := s.ready.modify n fun i => if 4096 ≤ i.wait && i.level != 0 then { i with level := i.level - 1, wait := 0 } else i }

end Sys2Proof.Machine
end

