-- ==== Sys2Proof/Machine/Frames.lean ====
section
/-! DEFINITION. Frames: names and allocation (R50, R174), spill and reload (R46, R166, R502), the frame directory
(R30, R237, R506), completion words (R507), and the end of a frame (R31, R139, R361, R362). -/
namespace Sys2Proof.Machine

/-! ### The device's own accesses through stage 2 (R506) -/

/-- The malformed flag of a record (R100). -/
def withMalformed (r : FaultRec) (mal : Bool) : FaultRec := { r with flags := if mal then r.flags ||| flMalformed else r.flags }

/-- A stage-2 fault: one class H record while it is open (R110, R506). `item` is the access that it holds, none for one
of the device's own, which reports the guest physical address. -/
def openStage2 (s : State) (p gpa : Nat) (mal : Bool) (item : Option TrapItem) : State :=
  if s.pageFaults.any fun f => f.part == p && f.stage2 && f.va == gpa && f.item == item then s
  else
    let n := numbered s (withMalformed (match item with
      | some x => x.rcd
      | none => { recBase F_PAGE p with flags := flNoframe, g4 := BitVec.ofNat 64 gpa }) mal)
    let held := match item with
      | some ⟨r, .access _, _⟩ => [r.tag]
      | _ => []
    hfqWrite { n.2 with pageFaults := n.2.pageFaults ++ [⟨p, true, gpa, n.1.seq, item, held, [], false⟩] } n.1 true

/-- A fault on the page of a guest physical address is open for an access of the device's own: until the hypervisor has answered,
and after an abort until UNHALT, nothing of the device walks there (R506). -/
def devHeld (s : State) (p gpa : Nat) : Bool :=
  s.pageFaults.any fun f => f.part == p && f.stage2 && f.item.isNone && f.va / 16384 == gpa / 16384

/-- The physical address of a guest physical address, or the state with its stage-2 fault open. A leaf that leads to no
memory counts as such a fault. -/
def devAddr (s : State) (p gpa : Nat) (store : Bool) : Except State (State × Nat) :=
  if devHeld s p gpa then .error s else
  match devWalk s p gpa store with
  | .ok r => .ok r
  | .error w => .error (openStage2 s p gpa w.malformed none)

/-- The pages that n bytes at a guest physical address touch, for an access of the device's own: each goes through stage 2, and
its bytes are HBM traffic (R267, log 91).
`.error` is the state in which the operation waits (R506). -/
def devSpan (p : Nat) (store : Bool) : Nat → State → Nat → Nat → Except State State
  | 0, s, _, _ => .ok s
  | k + 1, s, gpa, n =>
    if n == 0 then .ok s
    else match devAddr s p gpa store with
      | .error s => .error s
      | .ok (s, _) =>
        let here := Nat.min n (16384 - gpa % 16384)
        devSpan p store k (charge s p none 5 ((here + 63) / 64)) (gpa + here) (n - here)

/-- n bytes of the cellar, the attic or the save area are written or read (R506). Their layout is not the manual's: the
bytes stay in State, and their pages are walked. DESIGN CHOICE, log 91. -/
def devTouch (s : State) (p gpa n : Nat) (store : Bool) : Except State State := devSpan p store (n / 16384 + 2) s gpa n

/-- The image of the frame that a token is for. -/
def imageFor (s : State) (x : Flight) : Option Image := s.images.find? fun m => m.part == x.part && m.frame == x.tok.tag.frame.toNat

/-- A token that joined an image between two states is written into its append area, the last 16 KiB of the image, which goes
through stage 2 (R166, R502, R506). -/
def imageTouch (s t : State) (x : Flight) : Except State State :=
  match imageFor t x with
  | none => .ok s
  | some m =>
    if ((imageFor s x).map fun o => o.appended.length) == some m.appended.length then .ok s
    else devTouch s x.part (m.gpa + (m.bytes - 16384) + 16 * (m.appended.length - 1)) 16 true

/-- TOKEN_ARRIVAL (R155): the network forwards it in a slot that its partition owns (R20, R239). -/
def execTokenArrival (n : Nat) (s : State) : Res :=
  match s.net[n]? with
  | none => .next s
  | some x =>
    if savedAway s x.part || !inSlot s x.part || blockedBehind s.net n x then .next s
    else match arrive { s with net := dropAt n s.net } x with
      | none => .next s
      | some t => (match imageTouch s t x with
        | .error u => .next u
        | .ok u => .next ((arrive { u with net := dropAt n u.net } x).getD s))

/-- The first FRAME value of the directory: the new range's once a resize has rewritten it (R238). -/
def dirFirst (t : Part) : Nat :=
  match newRange t with
  | some r => if 3 ≤ t.rszStep then r.1 else (rangeOf t.frames).1
  | none => (rangeOf t.frames).1

/-- The guest physical address of a directory entry (R237). -/
def dirAddr (s : State) (p f : Nat) : Nat := (entWord s p 14).toNat + 8 * (f - dirFirst (part s p))

/-- Write a directory entry; `.error` is the state in which the operation waits (R506). -/
def dirWrite (s : State) (p f : Nat) (w : Word) : Except State State :=
  match devAddr s p (dirAddr s p f) true with
  | .ok (s, pa) => .ok (charge (pokeBytes s pa (toBytes 8 w.toNat)) p none 5 1)
  | .error s => .error s

/-- The entry of a resident frame (R237). -/
def dirResident (bay row : Nat) : Word := BitVec.ofNat 64 (pow2 62 + bay * 256 + row)

/-- The entry of a spilled frame (R237). -/
def dirSpilled (gpa : Nat) : Word := BitVec.ofNat 64 (pow2 63 + gpa / 4096 * 4096)

/-! ### Completion words (R507) -/

/-- The host bay: the lowest of PART_BAYS (R187). That its TLB serves the device's other virtual accesses of a partition too is a
DESIGN CHOICE, log 93. -/
def hostBay (s : State) (p : Nat) : Nat := (setBits (part s p).bays.toNat 128).headD 0

/-- An access joins the open page fault of its page (R110): a tag's, or a command's by its number. -/
def joinFault (s : State) (p va : Nat) (v : Victim) (tag : BitVec 32) (cmd : Option Nat) : State :=
  { s with pageFaults := s.pageFaults.map fun f =>
      if f.part == p && !f.stage2 && faultPage f == some (va / pow2 14) then
        { f with tags := (match v with | .access _ => tag :: f.tags | _ => f.tags), cmds := cmd.toList ++ f.cmds }
      else f }

/-- Open a stage-1 page fault or a stage-2 fault for a held access, with its record (R110): `r` is the record
of stage 1, `cmd` the command that it holds. A fault on a page that already has one open joins it. -/
def openPage (s : State) (p : Nat) (w : WalkBad) (r : FaultRec) (v : Victim) (cmd : Option Nat) (classN : Bool) : State :=
  if w.stage2 then openStage2 s p w.addr w.malformed (some ⟨r, v, none⟩)
  else if faultOpen s p w.addr then joinFault s p w.addr v r.tag cmd
  else
    let q := (part s p).recSeq
    let r := withMalformed r w.malformed
    let s := joinFault { s with pageFaults := s.pageFaults ++ [⟨p, false, w.addr, q, none, [], [], false⟩] } p w.addr v r.tag cmd
    if classN then deliverN s r v else deliver s r v false

/-- Write a completion word (R507): performed, held by a page fault, or dropped with a record. -/
def completionWrite (s : State) (c : Completion) : State :=
  let k : AccKind := ⟨true, false, c.sup, true, c.tree⟩
  match checkRun s c.bay c.part k 0 (c.va.toNat : Int) 8 8 with
  | (s, .ok rs) => writeRuns s c.part c.tree rs (toBytes 8 c.v.toNat)
  | (s, .miss) => { s with completions := s.completions ++ [c] }
  | (s, .page w) =>
    let r := { recBase F_PAGE c.part with addr := c.va, g4 := c.va, g5 := accDetail F_PAGE 8 true false, flags := if c.host then flHost else 0 }
    openPage { s with completions := s.completions ++ [c] } c.part w r (.completion c.id) none true
  | (s, .bad code a) =>
    deliverN s { recBase code c.part with addr := c.va, g4 := a, g5 := accDetail code 8 true false, flags := if c.host then flHost else 0 } .nothing

/-- A completion word for a virtual address of a partition. -/
def complete (s : State) (p : Nat) (va v : Word) (sup host : Bool) (tree : Option Nat) : State :=
  completionWrite { s with cmdNo := s.cmdNo + 1 } ⟨s.cmdNo, p, hostBay s p, va, v, sup, host, tree⟩

/-- Completion words that meet the condition are tried again. -/
def retryCompletions (s : State) (cond : Completion → Bool) : State :=
  (s.completions.filter cond).foldl completionWrite { s with completions := s.completions.filter fun c => !cond c }

/-! ### The cellar (R502) -/

/-- The size of a spilled frame's image. -/
def imageSize (nEnt : Nat) : Nat := roundUp (8192 + 16 * nEnt + 16384) 4096

/-- Bytes of the cellar that overflow records, parked images and held packets use (R502). -/
def cellarRest (s : State) (p : Nat) : Nat :=
  64 * ((part s p).overflow.map List.length).sum + 4718592 * (part s p).parkedImgs.length + 8192 * (part s p).hold.length

/-- Bytes of the cellar in use (R502). -/
def cellarUsed (s : State) (p : Nat) : Nat := ((s.images.filter fun m => m.part == p).map (·.bytes)).sum + cellarRest s p

/-- The unused quota holds n bytes. -/
def cellarHas (s : State) (p n : Nat) : Bool := decide (cellarUsed s p + n ≤ (entWord s p 16).toNat)

/-- An item of n bytes that is no frame image is written to the cellar, or read back: those lie from the end of the quota
downwards. DESIGN CHOICE, log 91. -/
def cellarItem (s : State) (p n : Nat) (store : Bool) : Except State State :=
  let top := (entWord s p 15).toNat + (entWord s p 16).toNat - cellarRest s p
  devTouch s p (if store then top - n else top) n store

/-- The place in the cellar of the parked image that a key names (R242, R502): one behind the other from the end of the quota
downwards. DESIGN CHOICE, log 91. -/
def parkedAt (s : State) (p key : Nat) : Option Nat :=
  (findPos (fun (m : Nat × Nat) => m.2 == key) (part s p).parkedImgs).map fun x =>
    (entWord s p 15).toNat + (entWord s p 16).toNat - 4718592 * (x.1 + 1)

/-- An access of n bytes of what is kept under a key, from `off` on, where the shelf comes first and the accumulator store behind
it: that of a parked image goes through stage 2 (R242, R506). -/
def parkedTouch (s : State) (p key off n : Nat) (store : Bool) : Except State State :=
  match parkedAt s p key with
  | none => .ok s
  | some gpa => devTouch s p (gpa + off) n store

/-- The lowest place from `gpa` upwards that overlaps none of a list of images, each step skipping one. -/
def imagePlaceFrom (l : List Image) (n : Nat) : Nat → Nat → Nat
  | 0, gpa => gpa
  | k + 1, gpa =>
    match l.find? fun m => decide (gpa < m.gpa + m.bytes) && decide (m.gpa < gpa + n) with
    | some m => imagePlaceFrom l n k (m.gpa + m.bytes)
    | none => gpa

/-- The place of a new image of n bytes: the lowest of the cellar that no live image overlaps (R237). DESIGN CHOICE, log 91. -/
def imagePlace (s : State) (p n : Nat) : Nat :=
  let l := s.images.filter fun m => m.part == p
  imagePlaceFrom l n l.length (entWord s p 15).toNat

/-! ### Rows and allocation (R174, R504) -/

/-- The rows of a bay in use. -/
def rowsUsed (s : State) (bay : Nat) : List Nat := (s.frames.filter fun f => f.resident && f.bay == bay).map (·.row)

/-- The number of free rows of a bay. -/
def freeRows (s : State) (bay : Nat) : Nat := 256 - (rowsUsed s bay).length

/-- The lowest number from `n` upwards that is not in a list. -/
def lowestFree (l : List Nat) : Nat → Nat → Nat
  | 0, n => n
  | k + 1, n => if l.contains n then lowestFree l k (n + 1) else n

/-- The lowest free FRAME value of the partition (R174); during a resize it lies in both ranges (R241). -/
def freeFrame (s : State) (p : Nat) : Option Nat :=
  let r := match newRange (part s p) with
    | some n => rangeMeet (frameRange s p) n
    | none => frameRange s p
  let used := (s.frames.filter fun f => f.part == p).map (·.num)
  let n := lowestFree used (used.length + 1) r.1
  if n < r.1 + r.2 then some n else none

/-- The bays that may take a new frame; during a resize those in both sets (R241). -/
def allocBays (s : State) (p : Nat) : List Nat :=
  let t := part s p
  (setBits t.bays.toNat 128).filter fun b => !t.rszBusy || Nat.testBit (newBays t) b

/-- The bay with the most free rows, ties to the lower number (R174); none when no row is free. -/
def roomiest (s : State) (p : Nat) : Option Nat :=
  let b := (allocBays s p).foldl (fun acc b => match acc with
    | none => if freeRows s b == 0 then none else some b
    | some a => if freeRows s a < freeRows s b then some b else some a) none
  b

/-- The bay with a free row that a new frame takes: a call prefers its maker's (R174). -/
def pickBay (s : State) (p : Nat) (maker : Option Nat) : Option Nat :=
  match maker with
  | some b => if (allocBays s p).contains b && decide (0 < freeRows s b) then some b else roomiest s p
  | none => roomiest s p

/-- A ready or queued item of a frame that a spill takes: those of its blocks, and of match-mode contexts. -/
def matchMode (s : State) (bay cell c : Nat) : Bool :=
  match ctx? s bay cell c with
  | some x => !bitAt x.pw 63
  | none => true

/-- A queue entry that a frame's image records: a match-mode token of its FRAME (R166). Its region may stand in another bay
since a resize, and its slots are the frame's row all the same. -/
def spillsEnt (s : State) (fr : Frame) (e : QEntry) : Bool :=
  e.part == fr.part && e.tok.tag.frame.toNat == fr.num && (e.blk.isSome || matchMode s e.bay e.cell e.tok.tag.ctx.toNat)

/-- A ready instance that a frame's image records. -/
def spillsInst (s : State) (fr : Frame) (i : Inst) : Bool :=
  i.part == fr.part && i.tag.frame.toNat == fr.num && (i.grid.isNone || matchMode s i.bay i.cell i.ctx)

/-- The size of a frame's image, as a spill would write it now (R502). -/
def spillSize (s : State) (fr : Frame) : Nat :=
  imageSize ((s.queues.filter (spillsEnt s fr)).length + (s.ready.filter (spillsInst s fr)).length)

/-- The frame stops or resumes here as by fence.ar (R141): its next block's number marks the instant. -/
def fenceFrame (f : Frame) : Frame := { f with fenced := some f.nextSeq }

/-- The poisoned words of a row, by their places in it (R115). -/
def rowPoisons (s : State) (bay row : Nat) : List Nat :=
  (s.poison.filter fun x => x.1 == .row && x.2 / 512 == bay * 256 + row).map fun x => x.2 % 512

/-- Spill a frame to the cellar (R46, R166): its row contents, slot tags, queue entries and ready instances go
into one image; `.error` waits for a stage-2 fault. -/
def spillFrame (s : State) (fr : Frame) : Except State State :=
  let p := fr.part
  let m : Image := { part := p, bay := fr.bay, frame := fr.num, bytes := spillSize s fr, gpa := imagePlace s p (spillSize s fr),
                     slots := s.slots.filter fun x => x.part == p && x.frame == fr.num, entries := s.queues.filter (spillsEnt s fr),
                     insts := s.ready.filter (spillsInst s fr), appended := [], bad := rowPoisons s fr.bay fr.row }
  match devTouch s p m.gpa m.bytes true with
  | .error s => .error s
  | .ok s2 =>
    match dirWrite s2 p fr.num (dirSpilled m.gpa) with
    | .error s => .error s
    | .ok s3 =>
      let s4 := modFrame s3 p fr.num fun f => fenceFrame { f with resident := false }
      .ok { s4 with images := s4.images ++ [m], slots := s4.slots.filter fun x => !(x.part == p && x.frame == fr.num),
                    queues := s4.queues.filter fun e => !spillsEnt s fr e, ready := s4.ready.filter fun i => !spillsInst s fr i }

/-- The frame with the highest FNAME of a list. -/
def highestName (l : List Frame) : Option Frame :=
  l.foldl (fun acc f => match acc with
    | none => some f
    | some g => if g.fname.toNat < f.fname.toNat then some f else some g) none

/-- The frame with the lowest FNAME of a list. -/
def lowestName (l : List Frame) : Option Frame :=
  l.foldl (fun acc f => match acc with
    | none => some f
    | some g => if f.fname.toNat < g.fname.toNat then some f else some g) none

/-- The resident frames of a partition in a bay that a spill may take. -/
def spillable (s : State) (p bay : Nat) : List Frame :=
  s.frames.filter fun f => f.part == p && f.bay == bay && f.resident && f.fault.isNone && !f.ending

/-- A frame waits at joinc (R175, R363). -/
def atJoinc (s : State) (p f : Nat) : Bool :=
  s.waits.any fun i => i.grid.isNone && i.part == p && i.tag.frame.toNat == f && opOf i.word == 0x80

/-- A new frame with every item at its value at allocation (R85, R349). -/
def newFrame (p num bay row : Nat) (fname : Word) : Frame :=
  { part := p, num := num, fname := fname, resident := true, bay := bay, row := row, home := bay, key := bay,
    g := List.replicate 64 0, sk := List.replicate 8 0, fpc := 0, fstat := 0, cc := 0, jn := 0, co := 1, link := none,
    retHold := none, parked := false, mon := none, parent := none, isRoot := false, tree := 0, pri := 0, cont := 0,
    entry := 0, nextSeq := 0, nextAddr := none, trap := none, resumed := none, ending := false, fenced := none, spurAt := none,
    fault := none, late := none, host := false, progress := 0 }

/-- A row is written whole: its words lose their poison (R31, R115, R121). -/
def cleanRow (s : State) (bay row : Nat) : State :=
  { s with poison := s.poison.filter fun x => !(x.1 == .row && x.2 / 512 == bay * 256 + row) }

/-- Install a frame in a free row of a bay; `.error` waits for a stage-2 fault. -/
def installFrame (s : State) (fr : Frame) (bay : Nat) : Except State State :=
  let row := lowestFree (rowsUsed s bay) 256 0
  match dirWrite s fr.part fr.num (dirResident bay row) with
  | .error s => .error s
  | .ok s => .ok { cleanRow s bay row with frames := s.frames ++ [{ fr with bay := bay, row := row, home := bay, key := bay, progress := (part s fr.part).wdCycles }] }

/-- A serial number from the partition's allocator (R50). -/
def takeSerial (s : State) (p : Nat) : Word × State :=
  (BitVec.ofNat 64 ((part s p).serial + 1), modPart s p fun t => { t with serial := t.serial + 1 })

/-- The level of a deterministic FNAME: the number of its bytes in use (R50). -/
def nameLevel (n : Word) : Nat :=
  ((List.range 8).foldl (fun acc k => if fld n (56 - 8 * k) 8 != 0 then k + 1 else acc) 0)

/-- The FNAME of the child with an ordinal (R50); none at the seventh level or from the 256th child on (R51). -/
def childName (n : Word) (ord : Nat) : Option Word :=
  let l := nameLevel n
  if 8 ≤ l ∨ 255 < ord then none else some (n + BitVec.ofNat 64 (ord * pow2 (56 - 8 * l)))

/-- What an allocation finds: a bay with a free row, a wait, or rows and cellar quota both spent. -/
inductive Room where
  | row (s : State) (bay : Nat)
  | wait (s : State)
  | spent

/-- The bay in which a new frame makes room by a spill where no row is free: its maker's, unless a resize takes that one
away; then, as among all equal, the lowest-numbered (R46, R174, R241). A resize may leave none. -/
def spillBay (s : State) (p bay : Nat) : Option Nat := if (allocBays s p).contains bay then some bay else (allocBays s p).head?

/-- Make room in a bay by spilling the frame with the highest FNAME of a list (R46). -/
def roomBySpill (s : State) (bay : Nat) (l : List Frame) : Room :=
  match highestName l with
  | none => .wait s
  | some v =>
    if !cellarHas s v.part (spillSize s v) then .spent
    else match spillFrame s v with
      | .ok s => .row s bay
      | .error s => .wait s

/-- Make room for a new frame of a partition whose maker stands in a bay; it waits while a resize leaves it no bay (R241). -/
def makeRoom (s : State) (p maker : Nat) : Room :=
  match spillBay s p maker with
  | some b => roomBySpill s b (spillable s p b)
  | none => .wait s

/-- The name of a new frame: fixed in a deterministic partition, else a serial number (R50). -/
def drawName (s : State) (p : Nat) (name : Word) : Word × State := if isDet s p then (name, s) else takeSerial s p

/-- Put a new frame in a bay, with its first block at `addr`; its FNAME is drawn here. `.error` waits. -/
def startFrame (s : State) (fr : Frame) (bay : Nat) (addr : Word) : Except State State :=
  match installFrame s { fr with entry := addr, nextAddr := some addr } bay with
  | .error s => .error s
  | .ok s =>
    let n := drawName s fr.part fr.fname
    .ok (modFrame n.2 fr.part fr.num fun f => { f with fname := n.1 })

/-- A token for a slot of the block that a frame enters next (R169, R359). -/
def entryToken (s : State) (p f : Nat) (ctx : BitVec 3) (t : Nat) (v : Word) : State :=
  match frame? s p f with
  | none => s
  | some fr => launchTok s ⟨p, ⟨⟨BitVec.ofNat 20 f, 0, ctx⟩, .data, v, 0, [], none⟩, .dest (BitVec.ofNat 17 (fr.home * 1024 + t)), some fr.nextSeq, 255, none⟩

/-- A held fault is raised when its block becomes the oldest in flight (R107, R306, R373). A held page fault of a
fetch opens by fetching again. -/
def raiseHeld (s : State) (p f : Nat) : State :=
  match (blocksOf s p f).head? with
  | none => s
  | some b =>
    match b.held with
    | none => s
    | some r =>
      if r.code == F_PAGE then
        let s := discardYounger s p f b.seq
        modFrame (clearBlock s p f b.seq true) p f fun x => { x with nextAddr := some b.addr }
      else haltFrame s p f b.seq r

/-! ### Reload (R166, R504) -/

/-- A record awaits a trap frame that can be made: it comes before every other claimant of a row (R450, R504). -/
def trapWants (s : State) (p : Nat) : Bool := !(part s p).trapQ.isEmpty && decide (liveTraps s p < 16) && (freeFrame s p).isSome

/-- A spilled frame whose append area is full (R166). -/
def appendFull (s : State) (f : Frame) : Bool := s.images.any fun m => m.part == f.part && m.frame == f.num && imageFull s m

/-- The spilled frames of a bay. -/
def spilledOf (s : State) (p bay : Nat) : List Frame := s.frames.filter fun f => f.part == p && f.bay == bay && !f.resident

/-- A recorded queue entry as the token that comes again (R166). -/
def asFlight (e : QEntry) : Flight :=
  let toward := match e.blk with
    | some (_, idx) => Place.dest (BitVec.ofNat 17 (e.bay * 1024 + slotNo e.slot * 128 + idx))
    | none => Place.cell e.bay e.cell e.slot
  ⟨e.part, e.tok, toward, e.blk.map (·.1), e.sender, none⟩

/-- Tokens come again in order: the first that must wait on its link keeps the later ones behind it, before every token that
travels already (R166). -/
def replay : List Flight → State → State
  | [], s => s
  | x :: xs, s => match arrive s x with
    | some s2 => replay xs s2
    | none => { s with net := x :: xs ++ s.net }

/-- The ready queues of the cells of a list of instances have room for them (R152); those of displaced blocks stand in none. -/
def readyFits (s : State) (l : List Inst) : Bool :=
  l.all fun i => decide (256 ≤ i.cell) || decide (((s.ready ++ l).filter fun j => j.bay == i.bay && j.cell == i.cell).length ≤ 32)

/-- An instance enters a ready queue at its frame's base priority, with a wait count of 0 (R177). -/
def atBase (s : State) (i : Inst) : Inst := { i with level := levelOf s i.part i.tag.frame.toNat, wait := 0 }

/-- Change the bottom plane of a region: the first caller's, alone able to hold match-mode contexts (R226). -/
def inBottom (g : Plane → Plane) (r : Region) : Region :=
  { r with planes := match r.planes.reverse with
    | [] => []
    | pl :: l => (g pl :: l).reverse }

/-- The region of a partition that is called away and that a token of an image belongs to. -/
def calledAway (s : State) (p : Nat) (x : Flight) : Option Region :=
  s.regions.find? fun r => r.part == p && !r.planes.isEmpty && toRegion r x

/-- A token of an image for a context that a grid call has pushed joins the plane's queues (R166, R225). -/
def joinPlane (s : State) (x : Flight) : State :=
  match calledAway s x.part x, x.toward with
  | some r, .cell b cell sl => modRegion s r.bay r.idx (inBottom fun pl => { pl with queues := pl.queues ++ [⟨x.part, b, cell, sl, x.tok, none, x.sender⟩] })
  | _, _ => s

/-- A ready instance of an image: to its ready queue, or to the plane that its context was pushed with. -/
def joinReady (s : State) (i : Inst) : State :=
  match s.regions.find? fun r => ofRegion r i && !r.planes.isEmpty with
  | some r => modRegion s r.bay r.idx (inBottom fun pl => { pl with formed := pl.formed ++ [i] })
  | none => { s with ready := s.ready ++ [i] }

/-- Bring a spilled frame back into a free row: its row and tags exactly, then its entries and appended tokens as fresh
arrivals in order (R166). Its displaced blocks take new places as far as there are some (R33). It waits while a cell of it has
no room for its ready instances. A fault held for it is then raised (R31). -/
def reload (s : State) (fr : Frame) : State :=
  let p := fr.part
  let row := lowestFree (rowsUsed s fr.bay) 256 0
  let back := fun (s : State) => modFrame (cleanRow s fr.bay row) p fr.num fun f => fenceFrame { f with resident := true, row := row }
  match s.images.find? fun m => m.part == p && m.frame == fr.num with
  | none => (match dirWrite s p fr.num (dirResident fr.bay row) with
    | .error s => s
    | .ok s => back s)
  | some m =>
    let bs := refit (blocksOf s p fr.num) (freePlaces s fr.bay)
    let insts := m.insts.map fun i => if i.grid.isNone then atPlace bs fr.bay i else i
    if !readyFits s insts then s
    else match devTouch s p m.gpa m.bytes false with
      | .error s => s
      | .ok s =>
        match dirWrite s p fr.num (dirResident fr.bay row) with
        | .error s => s
        | .ok s =>
          let s := putPlaces (back s) p fr.num bs
          let s := { s with images := s.images.filter fun m => !(m.part == p && m.frame == fr.num), slots := s.slots ++ m.slots,
                            poison := s.poison ++ m.bad.map fun k => (.row, (fr.bay * 256 + row) * 512 + k) }
          let s := (insts.map (atBase s)).foldl joinReady s
          let xs := m.entries.map asFlight ++ m.appended
          raiseHeld (replay (xs.filter fun x => (calledAway s p x).isNone) (xs.foldl joinPlane s)) p fr.num

/-! ### The end of a frame (R31, R139, R361, R362) -/

/-- Send the return hold of an ended callee to its call link (R361): a value, or a null when it is empty. `v` is the hold with the
index of the ret that filled it. -/
def deliverRet (s : State) (p : Nat) (l : CallLink) (v : Option (Nat × Option Word)) : State :=
  let f := l.frame.toNat
  let val := v.bind (·.2)
  let tok : Token := ⟨⟨l.frame, l.wave, l.ctx⟩, if val.isSome then .data else .null, val.getD 0, l.ord, [], none⟩
  match block? s p f l.seq, frame? s p f with
  | some _, some fr =>
    if l.tgt == nullT then s
    else launchTok s ⟨p, tok, .dest (BitVec.ofNat 7 fr.home ++ l.tgt), some l.seq, (v.map (·.1)).getD 255, none⟩
  | _, _ => s

/-- A child's end (R362): its parent takes the acknowledgement, which for a spilled one goes to its image (R369). -/
def childEnd (s : State) (p parent : Nat) : State :=
  if ((frame? s p parent).map (·.resident)).getD true then childAck s p parent
  else launchTok s ⟨p, ⟨⟨BitVec.ofNat 20 parent, 0, 0⟩, .data, 0, 0, [], none⟩, .ack, none, 255, none⟩

/-- Work of a partition still reaches the state kept under a key. -/
def keyInUse (s : State) (p k : Nat) : Bool :=
  (s.frames.any fun f => f.part == p && f.key == k) || (s.regions.any fun r => r.part == p && r.key == k) ||
    (s.cmds.any fun c => c.part == p && c.bay == k) || (s.kvc.any fun x => x.1.1 == k && bitAt x.2 63)

/-- Free a parked image that nothing reaches any more (R242). -/
def dropParked (s : State) (p : Nat) : State :=
  modPart s p fun t => { t with parkedImgs := t.parkedImgs.filter fun m => keyInUse s p m.2 }

/-- End a frame: the row is zeroed, the directory entry becomes free, the caller or the parent or the launch is told.
`.error` waits for a stage-2 fault on the directory. -/
def endFrame (s : State) (fr : Frame) : Except State State :=
  let p := fr.part
  match dirWrite s p fr.num 0 with
  | .error s => .error s
  | .ok s =>
    let s := { s with
      frames := (s.frames.filter fun f => !(f.part == p && f.num == fr.num)).map fun f =>
        if f.part == p && f.parent == some fr.num then { f with parent := none } else f
      deferred := s.deferred.map fun d => if d.part == p && d.parent == some fr.num then { d with parent := none } else d
      slots := s.slots.filter fun x => !(x.part == p && x.frame == fr.num)
      images := s.images.filter fun m => !(m.part == p && m.frame == fr.num) }
    let s := match fr.link with
      | some l => deliverRet s p l fr.retHold
      | none => s
    let s := match fr.parent with
      | some q => childEnd s p q
      | none => s
    let s :=
      if fr.isRoot then
        let s := modPart s p fun t => { t with
          roots := t.roots.filter fun o => o != fld fr.fname 56 8 || !t.det
          trees := updWhere (fun x => x.id == fr.tree) (fun x => { x with live := false }) t.trees }
        if fr.cont == 0 then s else complete s p fr.cont 1 true fr.host (some fr.tree)
      else s
    .ok (dropParked s p)

/-- The end of a frame, or its wait for a store that the edge still holds (R139, R383). -/
def finishFrame (s : State) (p f : Nat) : State :=
  match frame? s p f with
  | none => s
  | some fr =>
    if storePending s p f then modFrame s p f fun x => { x with ending := true }
    else match endFrame s fr with
      | .ok s => s
      | .error s => modFrame s p f fun x => { x with ending := true }

/-- Frames that ended but for a store or a directory write are tried again. -/
def finishEnding (s : State) : State :=
  (s.frames.filter fun f => f.ending).foldl (fun s f => finishFrame s f.part f.num) s

/-- Every frame's committed stores are tried again (after a reclaim or a freed entry, R383). -/
def releaseAll (s : State) : State :=
  finishEnding (s.frames.foldl (fun s f => releaseHeld f.part f.num s.stores.length s) s)

end Sys2Proof.Machine
end

