-- ==== Sys2Proof/Machine/Order.lean ====
section
/-! DEFINITION. The order of accesses of one agent: places in a chain (R129–R131), the waves of a grid stream (R503), keys (R148), and what
an agent's later accesses wait for (R132–R141). -/
namespace Sys2Proof.Machine

/-! ### Words of memory instructions (R298, R370) -/

/-- A word with a store's LSID: st, sts, stv, reclaim (R370, R373). -/
def isStoreOp (op : Nat) : Bool := op == 0x99 || op == 0x9B || op == 0x9D || op == 0x9E

/-- A word of format M. -/
def isMem (op : Nat) : Bool := (decide (0x98 ≤ op) && decide (op ≤ 0xA4)) || (decide (0xB0 ≤ op) && decide (op ≤ 0xBB))

/-- OWN, PRED and SUCC of an M word (R298). -/
def ownOf (w : Word) : Nat := fld w 26 6
def predOf (w : Word) : Nat := fld w 32 6
def succOf (w : Word) : Nat := fld w 20 6

/-- An access that others of its agent wait for: every M word but stream (R132), pref, fence and qfence (R388, R389). -/
def holdsChain (op : Nat) : Bool := isMem op && !(decide (0x9F ≤ op) && decide (op ≤ 0xA2))

/-- A fence whose later accesses follow every earlier one: fence.ar (R137, R299). -/
def fenceAr (w : Word) : Bool := opOf w == 0xA1 && fld w 15 2 == 3

/-- An amo, cas or cas2. -/
def isAtomic (op : Nat) : Bool := decide (0xB0 ≤ op) && decide (op ≤ 0xBB)

/-- A word whose firing, or whose answer's firing, acquires: joinc, call, bar, barw, qwait, skemb, and an engine message with
a completion token (R139, R145, R415, R423, R434). -/
def acquires (w : Word) : Bool :=
  let op := opOf w
  op == 0x80 || op == 0x7D || op == 0x94 || op == 0xE0 || op == 0xE2 || op == 0xD2 || (decide (0xC0 ≤ op) && decide (op ≤ 0xD1) && fld w 48 2 == 1)

/-! ### Addresses of waiting accesses (R110, R372) -/

/-- Bytes of a storage format (R59); c4 is read by streams alone. -/
def sfBytes (sf : Nat) : Nat :=
  if sf < 2 then 1 else if sf < 4 then 2 else if sf == 4 || sf == 6 || sf == 10 then 4 else if sf == 5 then 8
  else if sf == 7 || sf == 8 then 2 else 1

/-- EA of R372 for an access of n bytes. -/
def eaOf (f : MFmt) (n : Nat) (a : Word) : Int := (a.toNat : Int) + offM f * (if f.i then (n : Int) else 1)

/-- The bytes that an M word accesses: a slot of 16 for a versioned word and cas2, a byte for pref and monitor. -/
def accSize (w : Word) : Nat :=
  let op := opOf w
  if op == 0x9C || op == 0x9D || op == 0x9E || op == 0xBB then 16 else if op == 0xA0 || op == 0xA3 then 1 else sfBytes (getM w).sf.toNat

/-- EA of an M instance; an atomic's offset counts bytes (R372, R377). -/
def instEaInt (i : Inst) : Int :=
  if isAtomic (opOf i.word) then ((dataOf i.a).toNat : Int) + offM (getM i.word) else eaOf (getM i.word) (accSize i.word) (dataOf i.a)

/-- The virtual address that a waiting memory instance accesses; 0 for a word of another format. -/
def instEa (i : Inst) : Word := if isMem (opOf i.word) then BitVec.ofInt 64 (instEaInt i) else 0

/-- S of the current instance: its block's address, or its grid image's (R291, R300). -/
def curBase (s : State) : Word :=
  match s.cur.grid with
  | some _ => ((curRegion s).map (·.image)).getD 0
  | none => ((curBlock s).map (·.addr)).getD 0

/-- The address an X word names: b under .ind, else S + sext(OFF, 38) × 8 (R300). -/
def xAddr (f : XFmt) (ind : Bool) (s : State) : Word :=
  if ind then opB s else curBase s + BitVec.ofInt 64 (signed f.off.toNat 38 * 8)

/-- The bytes of the address space that a waiting instance reads or writes: an access, a message's operands, a descriptor,
or an image. -/
def instSpan (s : State) (i : Inst) : Int × Nat :=
  let op := opOf i.word
  let a : Int := ((dataOf i.a).toNat : Int)
  if isMem op then (instEaInt i, accSize i.word)
  else if op == 0x96 then (a + 0x40, 32)
  else if op == 0x95 then (a, 128)
  else if op == 0x83 || op == 0x81 then ((xAddr (getX i.word) ((getX i.word).md == 1) { s with cur := i }).toNat, 0xA0 + 24 * 2048)
  else if (decide (0xC0 ≤ op) && decide (op ≤ 0xD1)) || op == 0xE4 || op == 0xF4 then (a, 64)
  else (0, 0)

/-- A span of bytes touches the page of an address. -/
def onPages (a : Int × Nat) (va : Nat) : Bool :=
  decide (0 < a.2) && decide (0 ≤ a.1) && decide (a.1.toNat / pow2 14 ≤ va / pow2 14) && decide (va / pow2 14 ≤ (a.1.toNat + a.2 - 1) / pow2 14)

/-- A page fault holds an instance's access (R110): its tag, on a page that the access touches. -/
def heldByFault (s : State) (i : Inst) : Bool :=
  let a := instSpan s i
  s.pageFaults.any fun f => f.part == i.part && f.tags.contains (tagWord i.tag) && ((faultPage f).map fun n => onPages a (n * pow2 14)).getD false

/-! ### Accesses at the edge (R131) -/

/-- The access has its place and is not performed yet. -/
def pendingAcc (i : Inst) : Bool :=
  holdsChain (opOf i.word) && (match i.stage with
    | some k => decide (0 < k)
    | none => false)

/-- The memory instruction waits for its place in the chain. -/
def unplaced (i : Inst) : Bool := isMem (opOf i.word) && i.stage == some 0

/-- The accesses that have their place and are not performed. -/
def pendings (s : State) : List Inst := (s.waits ++ s.pipe ++ s.regions.flatMap (·.faulting)).filter pendingAcc

/-- Two tokens of one ordinal belong to one entry of their loops: the admissions of one, the innermost first, continue those
of the other (R503). -/
def sameEntry (a b : List Nat) : Bool := a.isSuffixOf b || b.isSuffixOf a

/-- Two instances belong to one chain: to one block, or to one wave of a grid, of one entry of its loops. -/
def sameChain (i j : Inst) : Bool :=
  i.part == j.part && i.tag.frame == j.tag.frame && i.grid == j.grid &&
    (match i.grid with
     | none => i.seq == j.seq
     | some _ => i.bay == j.bay && i.ord == j.ord && sameEntry i.adm j.adm)

/-- The wave of a grid that an instance belongs to: its region's name and its ordinal. -/
def waveOf (s : State) (i : Inst) : Option ((Nat × Nat) × Nat) :=
  i.grid.map fun g => (((region? s i.bay g).map (·.name)).getD (i.bay, g), i.ord)

/-- A placed access lies in the chain of the current instance. -/
def inChain (s : State) (x : Placed) : Bool :=
  x.part == s.cur.part && x.frame == curFrame s && x.grid == waveOf s s.cur &&
    (if x.grid.isSome then sameEntry x.adm s.cur.adm else x.chain == s.cur.seq)

/-- A placed access is the predecessor of the current one, by the link of either (R131). -/
def precedes (s : State) (x : Placed) : Bool :=
  let w := s.cur.word
  inChain s x && ((x.own == predOf w && decide (predOf w < 0x3E)) || x.succ == ownOf w)

/-- The older in-flight blocks of the current instance's frame; none in a grid. -/
def curOlder (s : State) : List Block :=
  if s.cur.grid.isSome then [] else olderBlocks s s.cur.part (curFrame s) s.cur.seq

/-- Every access of the older in-flight blocks of the frame has been placed (R129, R132). -/
def olderPlaced (s : State) : Bool :=
  (curOlder s).all fun b =>
    b.words.all fun w => !isMem (opOf w) || s.placed.any fun x =>
      x.part == b.part && x.frame == b.frame && x.grid.isNone && x.chain == b.seq && x.own == ownOf w

/-- The accesses of the older in-flight blocks are performed, but for their held stores, and none of those blocks can still
acquire (R132, R135, R139, R145). -/
def olderDone (s : State) : Bool :=
  (curOlder s).all fun b => !(b.words.any acquires) && !(pendings s).any (ofBlock b.part b.frame b.seq)

/-- An access of the current instance's own chain has its place and is not performed (R132, R392). -/
def chainPending (s : State) : Bool := (pendings s).any (sameChain s.cur)

/-! ### Keys (R148, R503) -/

/-- The order of keys; a key stands after each of its beginnings. -/
def keyLt : List Nat → List Nat → Bool
  | [], [] => false
  | [], _ :: _ => true
  | _ :: _, [] => false
  | a :: as, b :: bs => decide (a < b) || (a == b && keyLt as bs)

/-- The first parts of the keys of a frame's blocks: before and after an exitg resumed it (R148). -/
def frameKey (f : Frame) : List Nat :=
  match f.resumed with
  | none => [f.fname.toNat, 0]
  | some o => [f.fname.toNat, 1, o, 63]

/-- The key of an access of a block; 62 stands for OWN in an engine access (R148). -/
def blockKey (f : Frame) (seq own : Nat) : List Nat := frameKey f ++ [seq, own]

/-- The key of an access of a grid: where FNAME, ordinal and OWN are equal, the cfgreq that placed the region ranks, and
then the admissions of kbound, the innermost loop last (R148, R503). -/
def gridKey (name : Word) (ord own : Nat) (rank adm : List Nat) : List Nat := [name.toNat, 1, ord, own] ++ rank ++ adm.reverse

/-- The place of an instance in its region, which no move changes: the cell, counted by rows, and the context (R11, R503). -/
def placeIn (r : Region) (i : Inst) : List Nat := [(i.cell / 16 - r.y0) * 16 + (i.cell % 16 - r.x0), i.ctx - r.c0]

/-- The rank of the region of an instance of a grid. -/
def rankOf (s : State) (i : Inst) : List Nat := ((i.grid.bind (region? s i.bay)).map (·.rank)).getD []

/-- The key of an engine access that an instance causes, or of a cfgreq: the instruction's index ranks within its block; in
a grid the place in its region (R148, R424, R503). DEDUCED for a grid's, log 37. -/
def engineKey (s : State) (i : Inst) : List Nat :=
  match i.grid, frame? s i.part i.tag.frame.toNat with
  | none, some f => blockKey f i.seq 62 ++ [i.idx]
  | some g, _ => gridKey (fnameOf s i.part i.tag.frame.toNat) i.ord 62 (rankOf s i) i.adm ++ ((region? s i.bay g).map fun r => placeIn r i).getD []
  | none, none => []

/-- The key of the access of an instance. -/
def accKeyOf (s : State) (i : Inst) : List Nat :=
  if !isMem (opOf i.word) then engineKey s i
  else match i.grid, frame? s i.part i.tag.frame.toNat with
    | some _, _ => gridKey (fnameOf s i.part i.tag.frame.toNat) i.ord (ownOf i.word) (rankOf s i) i.adm
    | none, some f => blockKey f i.seq (ownOf i.word)
    | none, none => []

/-- The key of the current access. -/
def curKeyDet (s : State) : List Nat := accKeyOf s s.cur

/-! ### Waits (R150) -/

/-- The slot that a waiting access of a versioned word has found; none while it has none. -/
def slotPa (i : Inst) : Option Nat := i.ver.map (·.1)

/-- A version number is one that an stv will make (R382). -/
def versionAhead (hi n : BitVec 32) : Bool := decide (0 < (n - hi).toNat) && decide ((n - hi).toNat < pow2 31)

/-- The scope and the unit of a barrier for a frame: .pod is .pkg without a pod group (R12, R433). -/
def barUnit (s : State) (i : Inst) (f : SFmt) : Nat × Nat :=
  let home := ((frame? s i.part i.tag.frame.toNat).map (·.home)).getD 0
  let sc := fld f.md 0 3
  let sc := if sc == 5 && fld (entWord s i.part 0) 0 8 == 0 then 4 else sc
  (sc, if sc == 1 then home else if sc == 2 then home / 4 else if sc == 3 then home / 64 else 0)

/-- The channel of a unit; at reset GEN, CNT and N are 0. -/
def barOf (s : State) (p sc u ch : Nat) : Bar :=
  ((part s p).bars.find? fun b => b.scope == sc && b.unit == u && b.ch == ch).getD ⟨sc, u, ch, 0, 0, 0⟩

/-- From here on the stage of a bar or a bara is the number of its ordered control flit, which has not been delivered (R209);
below it, two more than the generation that it joined; 1 where its count was refused (R433). -/
def barSent : Nat := 1000

/-- The generation of the channel that an instance of bar or barw names. -/
def barGen (s : State) (i : Inst) : BitVec 8 :=
  let f := getS i.word
  let u := barUnit s i f
  (barOf s i.part u.1 u.2 (fld f.imm 0 4)).gen

/-- A command stands in a queue that the mask of a qwait names, and entered it before number k (R415). -/
def qwaitsFor (f : EFmt) (s : State) (i : Inst) (k : Nat) (c : Cmd) : Bool :=
  let lq := bitAt f.arg 16
  c.r.lq == lq && c.r.home == (if lq then i.part else curKey { s with cur := i }) && bitAt f.arg c.r.q && decide (c.id < k)

/-- A waiting instance stands at a wait that nothing has ended: joinc, a spawn past the last child count, a call for a FRAME
value, ldv, an stv without a version entry (R383), cfgrel and drain, bar, barw or qwait. -/
def atWait (s : State) (i : Inst) : Bool :=
  let op := opOf i.word
  let tried := pendingAcc i
  if op == 0x80 then ((frame? s i.part i.tag.frame.toNat).map fun f => f.cc != 0).getD false
  else if op == 0x7F then ((frame? s i.part i.tag.frame.toNat).map fun f => decide (0xFFFF ≤ f.cc)).getD false
  else if op == 0x7D then (freeFrame s i.part).isNone
  else if op == 0x9C then tried && (match i.ver with
    | some (pa, none) => versionAhead (versBounds s i.part pa).2 (BitVec.setWidth 32 (dataOf i.b))
    | _ => false)
  else if op == 0x9D then tried && ((slotPa i).map fun pa => (doStv s i.part pa (dataOf i.b)).isNone).getD false
  else if op == 0xE0 then (match i.stage with | some k => decide (barSent ≤ k) || barGen s i == BitVec.ofNat 8 (k - 2) | none => false)
  else if op == 0xE2 then barGen s i == BitVec.setWidth 8 (dataOf i.a)
  else if op == 0x84 || op == 0x86 then i.stage == some 9
  else if op == 0xD2 then (match i.stage with | some k => decide (5 ≤ k) && s.cmds.any (qwaitsFor (getE i.word) s i (k - 5)) | none => false)
  else false

/-! ### Stores that a checkpoint holds (R230, R373) -/

/-- A store of a stream that a checkpoint of its region holds. -/
def heldOf (s : State) (p bay g : Nat) (f : BitVec 20) : List Held :=
  s.stores.filter fun h => h.part == p && h.bay == bay && h.region == some g && h.frame == f.toNat

/-- An access of a grid, or an exitg, comes after a store that a checkpoint holds and must see it performed: an atomic acts on
memory itself, a fence.ar stands between (R137), an ldv waits for its version, or a later wave's frame goes on (R139). -/
def behindHeld (s : State) (i : Inst) : Bool :=
  match i.grid with
  | none => false
  | some g =>
    let op := opOf i.word
    (heldOf s i.part i.bay g i.tag.frame).any fun h =>
      isAtomic op || op == 0x7C || (h.fenced && !isStoreOp op && op != 0xA0 && op != 0xA1) || (op == 0x9C && (match h.op with
        | .stv pa _ => i.ver == some (pa, none)
        | _ => false))

/-- In a deterministic partition the region of an access holds a store of a lower key. -/
def behindKey (s : State) (i : Inst) : Bool :=
  isDet s i.part && s.stores.any fun h => h.part == i.part && h.bay == i.bay && h.region.isSome && h.region == i.grid &&
    (match h.reply with | some j => keyLt (accKeyOf s j) (accKeyOf s i) && !sameChain i j | none => false)

/-- The access waits only for the checkpoint that lets held stores out. -/
def ckBehind (s : State) (i : Inst) : Bool := i.grid.isSome && (behindHeld s i || (pendingAcc i && behindKey s i))

/-! ### The waves of a grid stream (R129, R503) -/

/-- The elements of a stream that were issued and are not consumed (R385). -/
def streamOut (s : State) (x : Stream) : Nat :=
  let toks := s.net.map (·.tok) ++ s.queues.map (·.tok) ++ s.slots.map (·.tok) ++ (s.regions.flatMap (·.exitHold)).map (·.tok) ++
    s.images.flatMap fun m => m.slots.map (·.tok) ++ m.entries.map (·.tok) ++ m.appended.map (·.tok)
  x.done.length + (toks.filter fun t => t.strm == some x.id).length

/-- A wave with a token in flight: its FRAME, the name of the region, the ordinal and the admissions of kbound. -/
structure Wave where
  frame : Nat
  reg : Option (Nat × Nat)
  ord : Nat
  adm : List Nat
  deriving DecidableEq, Repr

/-- The wave of a token that stands in, or travels to, a cell-context. -/
def cellWave (s : State) (bay cell : Nat) (t : Token) : Wave :=
  ⟨t.tag.frame.toNat, ((ctx? s bay cell t.tag.ctx.toNat).bind fun c => region? s bay c.region).map (·.name), t.ord, t.adm⟩

/-- The wave of a travelling token: at an entry, the one that it will take there (R503). -/
def flightWave (s : State) (x : Flight) : Wave :=
  match x.toward with
  | .cell b cell _ => cellWave s b cell x.tok
  | .ack => ⟨x.tok.tag.frame.toNat, none, x.tok.ord, x.tok.adm⟩
  | .dest d =>
    match s.entries.find? fun r => r.part == x.part && r.bay == fld d 10 7 && r.e == fld d 0 6 && fld d 6 4 == 0b1010 with
    | none => ⟨x.tok.tag.frame.toNat, none, x.tok.ord, x.tok.adm⟩
    | some e =>
      let h := (regionNamed s x.part (e.bay, e.region)).bind fun r => assoc x.tok.tag.frame r.ords
      ⟨x.tok.tag.frame.toNat, some (e.bay, e.region), entryOrd h x.tok.tag.wave.toNat, []⟩

/-- The wave of an instance of a grid. -/
def instWave (s : State) (i : Inst) : Wave := ⟨i.tag.frame.toNat, i.grid.bind fun g => (region? s i.bay g).map (·.name), i.ord, i.adm⟩

/-- The gcall that a region holds at its gate. -/
def gateInst : RegPhase → List Inst
  | .callGate i _ => [i]
  | _ => []

/-- Instances of grids, in flight anywhere: formed, in pipelines, waiting, at a gate, frozen with their region or in its
planes, in images, and those whose store a checkpoint holds. -/
def gridInsts (s : State) (p : Nat) : List Inst :=
  (s.ready ++ s.pipe ++ s.waits ++ s.stores.filterMap (·.reply) ++
    (s.regions.flatMap fun r => r.faulting ++ gateInst r.phase ++ r.planes.flatMap fun l => l.formed ++ l.held) ++
    s.images.flatMap (·.insts)).filter fun i => i.part == p && i.grid.isSome

/-- The waves of a partition that have a token on a link or in a queue (R37), in shadow planes, exit holds and images too. -/
def tokenWaves (s : State) (p : Nat) : List Wave :=
  let fl := s.net ++ s.images.flatMap (·.appended) ++ s.regions.flatMap fun r => r.exitHold ++ r.planes.flatMap (·.exitHold)
  let qs := s.queues ++ s.images.flatMap (·.entries) ++ s.regions.flatMap fun r => r.planes.flatMap (·.queues)
  ((fl.filter fun x => x.part == p && x.seq.isNone && x.cfg.isNone).map (flightWave s)) ++
    (qs.filter fun e => e.part == p && e.blk.isNone).map fun e => cellWave s e.bay e.cell e.tok

/-- The waves of a partition with tokens in flight (R37). -/
def gridWaves (s : State) (p : Nat) : List Wave := tokenWaves s p ++ (gridInsts s p).map (instWave s)

/-- The waves whose tokens rest, in rows and in images: not in flight, yet part of their stream (R129). -/
def restWaves (s : State) (p : Nat) : List Wave :=
  (s.slots ++ s.images.flatMap (·.slots)).filterMap fun x => if x.part == p then x.grid.map fun g => ⟨x.tok.tag.frame.toNat, some g, x.tok.ord, x.tok.adm⟩ else none

/-- The chain of a wave has passed an access with this OWN and these admissions, or has ended, by its known links. -/
def chainPast (s : State) (p : Nat) (w : Wave) (rest : List Nat) : Bool :=
  s.placed.any fun x => x.part == p && x.frame == w.frame && x.grid == w.reg.map (·, w.ord) && sameEntry x.adm w.adm &&
    (x.succ == 0x3E || keyLt rest (x.own :: x.adm.reverse))

/-- A wave comes before an access of its stream: its ordinal is lower, or it is another entry of one ordinal whose chain has
not passed the access's OWN and entry (R129, R503). -/
def waveLower (s : State) (p ord own : Nat) (adm : List Nat) (w : Wave) : Bool :=
  decide (w.ord < ord) || (w.ord == ord && !sameEntry w.adm adm && !chainPast s p w (own :: adm.reverse))

/-- Some wave of the FRAME of an instance comes before the instance's access at place `own` in its region. -/
def waveBehind (s : State) (i : Inst) (own : Nat) : Bool :=
  match i.grid.bind (region? s i.bay) with
  | none => false
  | some r => (gridWaves s i.part ++ restWaves s i.part ++ (s.streams.filter fun x => ofRegion r x.inst && decide (x.pos < x.count)).map fun x => instWave s x.inst).any fun w =>
      w.frame == i.tag.frame.toNat && w.reg == some r.name && waveLower s i.part i.ord own i.adm w

/-- A waiting instance of a grid can go on without a later access of its stream: it stands neither at a wait of R150, nor
behind a gate, a hold, an action in effect, or its own place. -/
def goesOn (s : State) (i : Inst) : Bool :=
  let op := opOf i.word
  !(unplaced i || atWait s i || ckBehind s i || i.stage == some 9 || op == 0x7C || op == 0x81 || op == 0x82 || op == 0xF6)

/-- Waves of a FRAME still move in a region: a token of them travels and can arrive, waits for room in a ready queue, stands
formed, or runs; or a stream of them can issue. Tokens that rest or queue for want of a partner do not move. DEDUCED, log 40. -/
def waveMoves (s : State) (p bay g : Nat) (f : BitVec 20) (ok : Nat → List Nat → Bool) : Bool :=
  match region? s bay g with
  | none => false
  | some r =>
    let mine := fun (i : Inst) => i.part == p && ofRegion r i && i.tag.frame == f && ok i.ord i.adm
    ((List.range s.net.length).any fun n => match s.net[n]? with
      | none => false
      | some x =>
        let w := flightWave s x
        x.part == p && x.cfg.isNone && x.tok.tag.frame == f && w.reg == some r.name && ok w.ord w.adm && !blockedBehind s.net n x &&
          (arrive { s with net := dropAt n s.net } x).isSome) ||
    (s.queues.any fun e => e.part == p && e.tok.tag.frame == f && ok e.tok.ord e.tok.adm && regionQueue r e && !readyRoom s bay e.cell) ||
    (!gated r && s.ready.any mine) || s.pipe.any mine || (s.waits.any fun i => mine i && goesOn s i) ||
    (s.streams.any fun x => mine x.inst && !x.waitcb && decide (x.pos < x.count) && decide (streamOut s x ≤ x.ahead) && r.planes.length == x.depth)

/-- Nothing of a stream moves any more, and of the accesses of the stream that wait for their place, none comes before the
place `own` of this instance: it goes, as the closure of R131 goes on in a block. DEDUCED, log 40. -/
def streamStuck (s : State) (i : Inst) (own : Nat) : Bool :=
  match i.grid with
  | none => false
  | some g => !waveMoves s i.part i.bay g i.tag.frame (fun _ _ => true) && s.waits.all fun j =>
      !(unplaced j && j.part == i.part && j.bay == i.bay && j.grid == i.grid && j.tag.frame == i.tag.frame &&
        keyLt ([j.ord, ownOf j.word] ++ j.adm.reverse) ([i.ord, own] ++ i.adm.reverse))

/-- The current access comes after no wave of its stream that is still to make one before it (R129). -/
def waveOpen (s : State) : Bool :=
  s.cur.grid.isNone || !waveBehind s s.cur (ownOf s.cur.word) || streamStuck s s.cur (ownOf s.cur.word)

/-! ### Placing (R131) -/

/-- What comes before the current access, apart from its predecessor's place, lets it be placed: a fence, a pref and a qfence
wait for places alone (R387–R389); others for the accesses before them (R132–R140, R392). -/
def edgeOpen (s : State) : Bool :=
  let op := opOf s.cur.word
  olderPlaced s && ((decide (0xA0 ≤ op) && decide (op ≤ 0xA2)) || (olderDone s && !chainPending s && waveOpen s))

/-- The current access may be placed: it is the first of its chain, or its predecessor is placed (R131). -/
def canPlace (s : State) : Bool := edgeOpen s && (predOf s.cur.word == 0x3E || s.placed.any (precedes s))

/-- A wave of the stream of the current access that nothing belongs to any more keeps no record. -/
def deadWave (s : State) (x : Placed) : Bool :=
  match x.grid, waveOf s s.cur with
  | some (n, o), some (m, k) => x.part == s.cur.part && x.frame == curFrame s && n == m && decide (o < k) &&
      !((gridWaves s x.part ++ restWaves s x.part).any fun w => w.frame == x.frame && w.reg == some n && w.ord == o)
  | _, _ => false

/-- A fence.ar of a grid stream: the stores that a checkpoint holds for it come before its later accesses (R137). -/
def fenceHeld (s : State) : State :=
  match s.cur.grid with
  | none => s
  | some g =>
    if fenceAr s.cur.word then
      { s with stores := updWhere (fun h => h.part == s.cur.part && h.bay == s.cur.bay && h.region == some g && h.frame == curFrame s) (fun h => { h with fenced := true }) s.stores }
    else s

/-- Place the current access. In a grid it takes the record of its predecessor, so that each pass of a wave through one
body is linked anew; a wave's last access leaves the record that the wave has ended. -/
def placeCur (s : State) : State :=
  let w := s.cur.word
  let s := fenceHeld (modCur s fun i => { i with stage := some 1 })
  let x : Placed := ⟨s.cur.part, curFrame s, waveOf s s.cur, s.cur.seq, ownOf w, succOf w, s.cur.adm⟩
  match s.cur.grid with
  | none => { s with placed := s.placed ++ [x] }
  | some _ =>
    let l := match findPos (precedes s) s.placed with
      | some (n, _) => dropAt n s.placed
      | none => s.placed
    let l := l.filter fun y => !deadWave s y
    { s with placed := if succOf w == 0x3E && l.contains x then l else l ++ [x] }

/-! ### Fences and the edges of frames (R137, R139, R141, R376) -/

/-- Position of an access in the chain of a block: where it was placed. -/
def chainPos (s : State) (own : Nat) : Nat :=
  match findPos (fun x => inChain s x && x.own == own) s.placed with
  | some (n, _) => n
  | none => s.placed.length

/-- A fence.ar was placed before the current access in its block (R137). -/
def fencedInBlock (s : State) : Bool :=
  match curBlock s with
  | none => false
  | some b => b.words.any fun w => fenceAr w && decide (chainPos s (ownOf w) < chainPos s (ownOf s.cur.word))

/-- The block stood in flight before the instant that `fenced` marks. -/
def beforeFence (q seq : Nat) : Bool := let d := (q + pow2 32 - seq) % pow2 32; decide (0 < d) && decide (d ≤ 4)

/-- The accesses of a frame before its last fence.ar, move, spill or reload are all performed (R137, R141). -/
def fencePast (s : State) (f : Frame) : Bool :=
  match f.fenced with
  | none => true
  | some q => !storePending s f.part f.num && !(blocksOf s f.part f.num).any fun b => beforeFence q b.seq

/-- The current access waits for stores of its agent: for a committed one that waits at the edge (R132, R383), for those that
come before a fence (R137, R141, R376), and in a grid for those that a checkpoint holds (R230). The held stores of its own
block stand outside, and a fence and a pref wait for nothing (R387, R388). -/
def drainWait (s : State) : Bool :=
  match s.cur.grid, frame? s s.cur.part (curFrame s) with
  | none, some f =>
    let stores := storePending s f.part f.num
    if isStoreOp (opOf s.cur.word) || opOf s.cur.word == 0xA0 || opOf s.cur.word == 0xA1 then false
    else stores || (fencedInBlock s && !curOldest s) ||
      ((curOlder s).any fun b => b.words.any fenceAr) ||
      (match f.fenced with
       | none => false
       | some q => if beforeFence q s.cur.seq then !curOldest s else !fencePast s f)
  | _, _ => behindHeld s s.cur && opOf s.cur.word != 0x9C

/-- The accesses before an action of the current instance's block are performed (R139, R146, R434): its block is the
oldest, no committed store of its frame waits, and no load of its own block that has its place, but for a waitm, which may
wait for what comes after the action. -/
def curSettled (s : State) : Bool :=
  s.cur.grid.isSome || (curOldest s && !storePending s s.cur.part (curFrame s) &&
    !(pendings s).any fun j => ofBlock s.cur.part (curFrame s) s.cur.seq j && !decide (j = s.cur) && opOf j.word != 0xA4)

/-- An effect that waits until the accesses before it in its block are performed (R139, R146, R434). -/
def whenSettled (s : State) (eff : State → State) : State := if curSettled s then eff s else waitCur s

end Sys2Proof.Machine
end

