-- ==== Sys2Proof/Machine/Turn.lean ====
section
/-! DEFINITION. What is in flight (R37), the closure of a chain (R131), and the turn of an access in the total order of a deterministic
partition (R148–R151, R503). -/
namespace Sys2Proof.Machine

/-! ### In flight (R37) -/

/-- A call that a block made is outstanding (R360). -/
def callOut (s : State) (p f q : Nat) : Bool :=
  s.frames.any fun x => x.part == p && (match x.link with | some l => l.frame.toNat == f && l.seq == q | none => false)

/-- A command whose completion token will target the block (R37). -/
def cmdOut (s : State) (p f q : Nat) : Bool :=
  s.cmds.any fun c => c.part == p && fld c.hdr 62 2 == 1 && (match c.sender with
    | some x => x.frame == f && x.seq == q && x.grid.isNone
    | none => false)

/-- Tokens of a block travel, queue, stand ready or in a pipeline. -/
def moving (s : State) (p f q : Nat) : Bool :=
  (s.net.any fun x => x.part == p && x.tok.tag.frame.toNat == f && x.seq == some q) || s.queues.any (entOfBlock p f q) ||
    s.ready.any (ofBlock p f q) || s.pipe.any (ofBlock p f q) ||
    (s.images.any fun m => m.part == p && m.frame == f && ((m.entries.any (entOfBlock p f q)) || (m.insts.any (ofBlock p f q)) ||
      (m.appended.any fun x => x.seq == some q)))

/-- The block's in-flight count is not zero (R37). -/
def inFlight (s : State) (p f q : Nat) : Bool :=
  moving s p f q || s.waits.any (ofBlock p f q) || callOut s p f q || cmdOut s p f q

/-! ### Held accesses and messages of a chain (R131, R260, R394) -/

/-- A word whose message is ordered among its block's by index: the engine instructions, skemb and qfence. -/
def isEngWord (w : Word) : Bool := (decide (0xC0 ≤ opOf w) && decide (opOf w ≤ 0xD2)) || opOf w == 0x94 || opOf w == 0xA2

/-- skpos (R424). -/
def isSkpos (w : Word) : Bool := opOf w == 0x95

/-- The current instruction comes after a word of lower index in its block: messages among each other, skpos among each
other, and all of them together in a deterministic partition, where skpos ranks among the engine instructions (R260, R394,
R424). -/
def followsWord (s : State) (w : Word) : Bool :=
  let det := isDet s s.cur.part
  (isEngWord w && (det || isEngWord s.cur.word)) || (isSkpos w && (det || isSkpos s.cur.word))

/-- Every instruction of lower index that the current one follows has fired or been consumed. -/
def engPrior (s : State) (b : Block) : Bool :=
  (List.range s.cur.idx).all fun k => !followsWord s (b.words.getD k 0) || b.sent.contains k

/-- Every token of the block still in flight is an instruction that waits for a lower index, and none that the current one
follows is lower than it (R394). -/
def engStuck (s : State) (b : Block) : Bool :=
  !moving s b.part b.frame b.seq && !callOut s b.part b.frame b.seq && !cmdOut s b.part b.frame b.seq &&
    (s.waits.filter (ofBlock b.part b.frame b.seq)).all fun i => i.stage == some 3 && (decide (s.cur.idx ≤ i.idx) || !followsWord s i.word)

/-- No more access of the chain can arrive before the held ones are placed (R131). -/
def chainStuck (s : State) (i : Inst) : Bool :=
  let f := i.tag.frame.toNat
  match i.grid with
  | none =>
    !moving s i.part f i.seq && !callOut s i.part f i.seq && !cmdOut s i.part f i.seq &&
      (s.waits.filter (ofBlock i.part f i.seq)).all fun j => unplaced j || ((isEngWord j.word || isSkpos j.word) && j.stage == some 3)
  | some g => !waveMoves s i.part i.bay g i.tag.frame (fun o a => o == i.ord && sameEntry a i.adm) && !(pendings s).any (sameChain i)

/-- The instance has the lowest OWN of the held accesses of its chain. -/
def lowestOwn (s : State) (i : Inst) : Bool :=
  s.waits.all fun j => !(sameChain i j && unplaced j && decide (ownOf j.word < ownOf i.word))

/-! ### Agents that can still issue (R150) -/

/-- The committed stores of a frame are performed, or the first of them waits for a version entry (R383). -/
def storesStill (s : State) (p f : Nat) : Bool :=
  match s.stores.find? fun h => h.part == p && h.frame == f && h.committed with
  | none => true
  | some h => (performStore s h).isNone

/-- A queue of 32 commands has room. -/
def queueHasRoom (s : State) (r : QRef) : Bool := decide ((s.cmds.filter fun c => c.r == r).length < 32)

/-- A command bears a key that does not lie below `k`. -/
def cmdNotBelow (k : List Nat) (c : Cmd) : Bool :=
  match c.sender with
  | some x => !x.key.isEmpty && !keyLt x.key k
  | none => false

/-- An engine instruction waits for room in a queue of its bay or its partition that holds a command whose key does not lie below
`k`: its message comes after that command. DEDUCED, log 39. -/
def roomWait (s : State) (k : List Nat) (i : Inst) : Bool :=
  isEngWord i.word && i.stage == some 4 && s.cmds.any fun c =>
    c.part == i.part && (c.r.lq || c.r.home == curKey { s with cur := i }) && !queueHasRoom s c.r && cmdNotBelow k c

/-- A held access cannot be placed as things stand, or a held message cannot be sent: something else of its block, or an older
block, must end first. -/
def behindOthers (s : State) (b : Block) (i : Inst) : Bool :=
  let t := { s with cur := i }
  if unplaced i then !(canPlace t || (edgeOpen t && chainStuck s i))
  else (isEngWord i.word || isSkpos i.word) && i.stage == some 3 && !(engPrior t b || engStuck t b)

/-- What waits here fires only when its block is the oldest in flight, or its FPC is known: all but yield, spawn, the barriers,
and the memory instructions that do not ask for it. -/
def waitsOldest (op : Nat) : Bool :=
  if isMem op then op == 0xA2 || op == 0xA3 || op == 0xA4 || decide (0xB0 ≤ op)
  else op != 0xE7 && op != 0x7F && !(decide (0xE0 ≤ op) && decide (op ≤ 0xE2))

/-- What an access of a deterministic partition waits for: its partition, its key, and the frame and the wave of its agent. -/
structure Asks where
  part : Nat
  key : List Nat
  self : Option Nat
  wave : Option Wave
  deriving DecidableEq, Repr

/-- Something of a frame stands behind the access `q`: the frame is the access's own agent, or has an access at the edge, or a
command, whose key does not lie below it. -/
def frameBehind (s : State) (q : Asks) (f : Nat) : Bool :=
  q.self == some f || (q.wave.map (·.frame)) == some f ||
    (s.waits.any fun i => i.part == q.part && i.tag.frame.toNat == f && isMem (opOf i.word) && !keyLt (accKeyOf s i) q.key) ||
    s.cmds.any fun c => c.part == q.part && c.status.isNone && (c.sender.map (·.frame)) == some f && cmdNotBelow q.key c

/-- The frames that a frame waits for at joinc, at a full child count, or in a call: its live children. -/
def childrenOf (s : State) (p f : Nat) : List Nat :=
  (s.frames.filter fun x => x.part == p && (x.parent == some f || (x.link.map (·.frame.toNat)) == some f)).map (·.num)

/-- The release of a wait is ordered after the access `q` (R150), so that the agent that waits holds nothing. A version, a
command and a queue have their releases in the order of keys. A child's end, a barrier's arrival, a free FRAME value and a
drain come after `q` where the frames that they need stand behind it, themselves or by a wait of their own, which `n` levels
tell. DEDUCED, log 38. -/
def givesWay (s : State) (q : Asks) : Nat → Inst → Bool
  | 0, _ => false
  | n + 1, i =>
    let op := opOf i.word
    let f := i.tag.frame.toNat
    let back := fun (c : Nat) => frameBehind s q c || s.waits.any fun j => j.part == q.part && j.tag.frame.toNat == c && givesWay s q n j
    let others := ((s.frames.filter fun x => x.part == q.part && x.trap.isNone).map (·.num)).filter (· != f)
    atWait s i &&
      (if op == 0x80 || op == 0x7F then (childrenOf s q.part f).any back
       else if op == 0x7D then others.any back
       else if op == 0xE0 || op == 0xE2 then others.all back
       else if op == 0x84 || op == 0x86 then
         (match regionNamed s q.part (fld (dataOf i.a) 32 7, fld (dataOf i.a) 8 5) with
          | none => false
          | some r => (q.wave.bind (·.reg)) == some r.name || s.waits.any fun j =>
              j.part == q.part && ofRegion r j && ((isMem (opOf j.word) && !keyLt (accKeyOf s j) q.key) || givesWay s q n j))
       else true)

/-- The levels of waits that `givesWay` follows: more than a tree of frames has (R50). -/
def waitDepth : Nat := 9

/-- The call that a block has outstanding returns only after `q`. -/
def callGives (s : State) (q : Asks) (b : Block) : Bool :=
  s.frames.any fun x => x.part == q.part && (x.link.map fun l => (l.frame.toNat, l.seq)) == some (b.frame, b.seq) &&
    (frameBehind s q x.num || s.waits.any fun j => j.part == q.part && j.tag.frame.toNat == x.num && givesWay s q waitDepth j)

/-- A block can issue no access that comes before `q` until a wait of its own ends (R150): nothing of it moves, and each of
its instances stands at such a wait, behind one, or, in a younger block, until that is the oldest. -/
def blockStill (s : State) (q : Asks) (b : Block) : Bool :=
  let mine := s.waits.filter (ofBlock b.part b.frame b.seq)
  let called := callOut s b.part b.frame b.seq
  !moving s b.part b.frame b.seq && (!mine.isEmpty || called || cmdOut s b.part b.frame b.seq) && (!called || callGives s q b) &&
    mine.all fun i => givesWay s q waitDepth i || roomWait s q.key i || behindOthers s b i ||
      (!isOldest s b.part b.frame b.seq && waitsOldest (opOf i.word))

/-- The frame can issue no access that comes before `q` until a wait of its own ends (R150): it is parked, or each of its
blocks of a lower key is still. -/
def frameStill (s : State) (q : Asks) (g : Frame) : Bool :=
  let p := g.part
  let f := g.num
  storesStill s p f &&
    (if g.ending then true
     else if (blocksOf s p f).isEmpty then g.parked && g.nextAddr.isNone && g.fault.isNone
     else (blocksOf s p f).all fun b => !keyLt (frameKey g ++ [b.seq]) q.key || blockStill s q b)

/-- Tokens in sync FIFO k of a bay (R188). -/
def syncCount (s : State) (bay k : Nat) : Nat := (assoc (bay, k) s.sync).getD 0

/-- The first command of a queue. -/
def cmdHead (s : State) (r : QRef) : Option Cmd := s.cmds.find? fun c => c.r == r

/-- A command waits at its queue's head for a sync token (R188). -/
def popWaits (s : State) (c : Cmd) : Bool := !c.issued && (setBits (fld c.hdr 100 6) 6).any fun k => syncCount s c.bay k == 0

/-- A sent command may still make an access that a later one must follow: it has not ended, and neither it nor the
head of its queue waits at a sync pop, for a swap, for an ordered packet or for a collective's other members (R150), and no
command whose key does not lie below `k` stands before it in the queue (R187). DEDUCED, log 39. -/
def cmdActive (s : State) (k : List Nat) (c : Cmd) : Bool :=
  c.status.isNone && !(s.cmds.any fun d => d.r == c.r && decide (d.id ≤ c.id) && d.status.isNone && cmdNotBelow k d) &&
    !((cmdHead s c.r).map fun d => popWaits s d || fld d.hdr 120 8 == 0x2C || fld d.hdr 120 8 == 0x40 || fld d.hdr 120 8 == 0x42).getD false

/-- A cell-context from which an access can come: of a memory instruction, an engine instruction, an exit or a grid call. -/
def issues? (w : Word) : Bool :=
  let op := opOf w
  isMem op || (decide (0xC0 ≤ op) && decide (op ≤ 0xD2)) || (decide (0x7C ≤ op) && decide (op ≤ 0x86))

/-- Of waves of one FRAME: the wave's region can issue nothing, or the wave's chain has passed a key with the ordinal and
the parts from OWN on, or has ended, by its known links (R150). -/
def wavePassed (s : State) (p : Nat) (w : Wave) (ord : Nat) (rest : List Nat) : Bool :=
  match w.reg.bind (regionNamed s p) with
  | none => false
  | some r =>
    !(s.ctxs.any fun c => c.bay == r.bay && c.region == r.idx && issues? c.iw) ||
      s.placed.any fun x => x.part == p && x.frame == w.frame && x.grid == some (r.name, w.ord) && sameEntry x.adm w.adm &&
        (x.succ == 0x3E || (w.ord == ord && keyLt rest (x.own :: (r.rank ++ x.adm.reverse))))

/-- A wave in flight can still issue an access that comes before `q`. -/
def waveHolds (s : State) (q : Asks) (w : Wave) : Bool :=
  keyLt [(fnameOf s q.part w.frame).toNat, 1, w.ord] q.key &&
    (match q.wave with
     | none => true
     | some m =>
       if m.frame != w.frame then true
       else if m.reg == w.reg && m.ord == w.ord && sameEntry w.adm m.adm then false
       else !wavePassed s q.part w m.ord (q.key.drop 3))

/-- An exitg token that can resume its parked frame (R358). -/
def resumes (s : State) (x : ExitgTok) : Bool :=
  match frame? s x.part x.tok.tag.frame.toNat with
  | some f => f.parked && f.fault.isNone && (blocksOf s x.part f.num).isEmpty
  | none => false

/-- A bound stream of another wave than `q`'s still has elements to read that come before `q` (R385): it holds no one while it
waits for its codebook. -/
def streamHolds (s : State) (q : Asks) (x : Stream) : Bool :=
  let i := x.inst
  let rank := ((region? s i.bay x.region).map (·.rank)).getD []
  decide (x.pos < x.count) && decide (x.depth ≤ 64) && !x.waitcb && q.wave != some (instWave s i) &&
    keyLt (gridKey (fnameOf s x.part i.tag.frame.toNat) i.ord (ownOf i.word) rank i.adm) q.key

/-- The waves that can issue: those of tokens, and of instances that do not stand at a wait that is released after `q`. -/
def issuingWaves (s : State) (q : Asks) : List Wave :=
  tokenWaves s q.part ++ ((gridInsts s q.part).filter fun i => !givesWay s q waitDepth i).map (instWave s)

/-- No agent of the partition can still issue an access that comes before `q` (R149, R150): no frame but its own, no
command, no wave, no stream, no exitg and no deferred spawn. An agent at a wait of R150 whose release comes after `q` holds
nothing. Trap frames stand outside (R454). DEDUCED, log 38. -/
def turn (s : State) (q : Asks) : Bool :=
  let p := q.part
  let k := q.key
  (s.frames.all fun g => g.part != p || g.trap.isSome || q.self == some g.num ||
    !keyLt (frameKey g ++ [((blocksOf s p g.num).head?.map (·.seq)).getD g.nextSeq]) k || frameStill s q g) &&
  (s.cmds.all fun c => c.part != p || (match c.sender with
    | some x => x.key.isEmpty || !keyLt x.key k || !cmdActive s k c
    | none => true)) &&
  !((issuingWaves s q).any (waveHolds s q)) && !(s.streams.any fun x => x.part == p && streamHolds s q x) &&
  (s.exitgs.all fun x => x.part != p || !keyLt [(fnameOf s p x.tok.tag.frame.toNat).toNat, 1, x.tok.ord, 63] k || !resumes s x) &&
  (s.deferred.all fun d => d.part != p || !keyLt [d.fname.toNat, 0] k)

/-- The frame stands outside the total order: it is a trap frame (R454). -/
def outsideOrder (s : State) (p f : Nat) : Bool := ((frame? s p f).map fun g => g.trap.isSome).getD true

/-- The turn of a block's held stores at its commit (R150). -/
def blockTurn (s : State) (p f : Nat) : Bool :=
  match frame? s p f with
  | none => true
  | some g => !isDet s p || g.trap.isSome ||
    turn s ⟨p, blockKey g (((blocksOf s p f).head?.map (·.seq)).getD g.nextSeq) 0, some f, none⟩

/-- What the current access asks for. -/
def curAsks (s : State) : Asks :=
  ⟨s.cur.part, curKeyDet s, if s.cur.grid.isNone then some (curFrame s) else none, s.cur.grid.map fun _ => instWave s s.cur⟩

/-- The current access may be performed before every access that R149 would place after it, and after all others (R150). -/
def accessTurn (s : State) : Bool :=
  let p := s.cur.part
  !isDet s p || s.cur.cleared || (s.cur.grid.isNone && outsideOrder s p (curFrame s)) || turn s (curAsks s)

/-- The turn of a command's accesses in a deterministic partition (R148–R150); a host's stand outside, and a trap frame's,
whose sender has no key. -/
def cmdTurn (s : State) (c : Cmd) : Bool :=
  match c.sender with
  | some x => !isDet s c.part || x.key.isEmpty || turn s ⟨c.part, x.key, none, none⟩
  | none => true

/-- An access of a region that has its place lands by itself: it waits neither at a wait of R150, nor for a page fault, nor
behind a store that a checkpoint holds, nor for its turn (R179, R223, R225). -/
def lands (s : State) (i : Inst) : Bool :=
  pendingAcc i && !atWait s i && !ckBehind s i && !heldByFault s i && accessTurn { s with cur := i } && opOf i.word != 0xA4

/-- A wave of the FRAME that ranks below a key is in flight in a region of the partition (R358). -/
def lowerWaves (s : State) (p f : Nat) (k : List Nat) : Bool :=
  (gridWaves s p).any fun w => w.frame == f && w.reg.isSome &&
    keyLt (gridKey 0 w.ord 0 (((w.reg.bind (regionNamed s p)).map (·.rank)).getD []) w.adm) k

end Sys2Proof.Machine
end

