-- ==== Sys2Proof/Machine/Front.lean ====
section
/-! DEFINITION. The block front end: fetch (R292), decode (R35, R81, R302, R306), placement (R33), commit (R34–R38),
the keys of a deterministic partition (R148–R150), and the trap handler's choice (R455). -/
namespace Sys2Proof.Machine

/-! ### Decode of a block (R35, R62, R81, R130, R302, R305, R306) -/

/-- COUNT, EXITS and the header bits of H0 (R291). -/
def hCount (h0 : Word) : Nat := fld h0 49 7 + 1
def hExits (h0 : Word) : Nat := fld h0 46 3
def hSup (h0 : Word) : Bool := bitAt h0 45

/-- The header is refused (R305). -/
def headerOk (h0 : Word) : Bool := fld h0 56 8 == 0xFB && !bitAt h0 44 && fld h0 32 4 == 0

/-- A block's target field is legal (R35, R301, R302). -/
def targetOk (h0 h1 : Word) (words : List Word) (t : Tgt) : Bool :=
  if t == nullT then true
  else if !bitAt t 9 then
    decide (fld t 0 7 < hCount h0) && (wordSlots (words.getD (fld t 0 7) 0)).contains (slotOf (fld t 7 2))
  else if fld t 6 4 == 0b1000 then bitAt h1 (fld t 0 6)
  else if fld t 3 7 == 0b1001000 then bitAt h0 (36 + fld t 0 3)
  else fld t 6 4 == 0b1010

/-- The form of red that sums in arrival order, which a deterministic partition refuses (R78, R355). -/
def isArr (w : Word) : Bool := opOf w == 0x75 && fld w 48 2 == 1

/-- The rules that a word keeps within its block. -/
def wordOk (h0 h1 : Word) (words : List Word) (idx : Nat) : Bool :=
  let w := words.getD idx 0
  let before := words.take idx
  let op := opOf w
  match rowOfWord w with
  | none => false
  | some r =>
    r.stand != .grid && r.pay.targets.all (targetOk h0 h1 words) &&
      (op != 0x7B || (hExits h0 != 0 && decide (fld w 51 3 < hExits h0))) &&
      (!isMem op || !(before.any fun v => isMem (opOf v) && ownOf v == ownOf w)) &&
      (!isStoreOp op || (decide (ownOf w < 32) && bitAt h0 (ownOf w) && fld w 38 10 == 0x3FF)) &&
      (op != 0xF5 || !(before.any fun v => opOf v == 0xF5)) &&
      (op != 0xF1 || !(before.any fun v => opOf v == 0xF1 && fld v 26 12 == fld w 26 12))

/-- The first failure of the decode of a block (R78, R306): the code, the index and the detail words. -/
def decodeFault (det : Bool) (h0 h1 : Word) (words : List Word) : Option (BitVec 8 × Nat × Word × Word) :=
  if !headerOk h0 then some (F_ILLOP, 128, h0, h1)
  else ((List.range words.length).find? fun i => (det && isArr (words.getD i 0)) || !wordOk h0 h1 words i).map fun i =>
    (if det && isArr (words.getD i 0) then F_DETVIOL else F_ILLOP, i, words.getD i 0, 0)

/-! ### Fetch (R33, R36, R40, R107, R157, R292) -/

/-- The destination of direct exit k of a block (R300, R357). -/
def exitDest (b : Block) (k : Nat) : Option Word :=
  (b.words.find? fun w => opOf w == 0x7B && fld w 48 3 == 0 && fld w 51 3 == k).map fun w =>
    b.addr + BitVec.ofInt 64 (signed (fld w 0 38) 38 * 8)

/-- What the frame fetches next, and whether it is predicted: the exit that fired, or exit `ex` as predicted. -/
def fetchTarget (s : State) (fr : Frame) (ex : Option Nat) : Option (Word × Bool) :=
  match (blocksOf s fr.part fr.num).getLast? with
  | none => fr.nextAddr.map fun a => (a, false)
  | some b =>
    if hExits b.h0 == 0 || b.held.isSome then none
    else match b.exit with
      | some x => x.dest.map fun a => (a, true)
      | none => (ex.bind (exitDest b)).map fun a => (a, true)

/-- The words of an image as bytes give them. -/
def wordsOf (bs : List Byte) : Nat → List Word
  | 0 => []
  | n + 1 => BitVec.ofNat 64 (ofBytes (bs.take 8)) :: wordsOf (bs.drop 8) n

/-- The record of a fetch or decode fault. -/
def fetchRec (s : State) (fr : Frame) (addr : Word) (code : BitVec 8) (idx : Nat) (g4 g5 : Word) : FaultRec :=
  { recBase code fr.part with
    index := idx, bseq := fr.nextSeq, tag := tagWord ⟨BitVec.ofNat 20 fr.num, 0, 0⟩, bay := fr.bay,
    fname := fnameOf s fr.part fr.num, addr := addr, g4 := g4, g5 := g5 }

/-- An entry token that waits for the block a frame enters and names no slot of it (R302, R359): the failure. -/
def entryFault (s : State) (fr : Frame) (h0 h1 : Word) (words : List Word) : Option (BitVec 8 × Nat × Word × Word) :=
  let toks := s.net ++ ((s.images.filter fun m => m.part == fr.part && m.frame == fr.num).flatMap (·.appended))
  (toks.findSome? fun x =>
    match x.toward with
    | .dest d =>
      let t : Tgt := BitVec.extractLsb' 0 10 d
      if x.part == fr.part && x.tok.tag.frame.toNat == fr.num && x.seq == some fr.nextSeq && x.sender == 255 && !targetOk h0 h1 words t then
        some (F_ILLOP, fld t 0 7, words.getD (fld t 0 7) 0, 0)
      else none
    | .cell _ _ _ => none
    | .ack => none)

/-- Enter a fetched block into flight with the next sequence number (R33). -/
def enterBlock (s : State) (fr : Frame) (addr h0 h1 : Word) (words : List Word) (spec : Bool) (held : Option FaultRec) : State :=
  let b : Block := { part := fr.part, frame := fr.num, seq := fr.nextSeq, addr := addr, h0 := h0, h1 := h1, words := words,
                     places := [], spec := spec, wr := [], sk := [], st := [], exit := none, flags := 0, fpc := none,
                     wrsrs := [], events := [], ret := none, acts := [], held := held, sent := [] }
  let s := modFrame s fr.part fr.num fun f => { f with nextSeq := (f.nextSeq + 1) % pow2 32, nextAddr := none }
  raiseHeld { s with blocks := s.blocks ++ [b] } fr.part fr.num

/-- The held stores that a fetch of the frame sees: it is a read by the frame, behind its blocks in flight (R132, R292). -/
def frameHeld (s : State) (p f : Nat) : List Held :=
  (s.stores.filter fun h => h.part == p && h.frame == f && h.region.isNone).foldl (fun l h => insHeld s h l) []

/-- The kind of a fetch of the frame (R501). A predicted one walks at once, so that its page fault can be held (R107). -/
def fetchKind (fr : Frame) (spec : Bool) : AccKind := ⟨false, true, fr.trap.isSome, spec, some fr.tree⟩

/-- The words of runs of an image as a fetch of the frame reads them. -/
def fetchWords (s : State) (fr : Frame) (rs : List Run) (n : Nat) : List Word :=
  let hs := frameHeld s fr.part fr.num
  wordsOf ((runBytes rs).map fun a => seenByte hs false a (rdByte s.mem a)) n

/-- Fetch the block at an address (R292, R306, R500, R501). -/
def fetchAt (s : State) (fr : Frame) (addr : Word) (spec : Bool) : State :=
  let tag := tagWord ⟨BitVec.ofNat 20 fr.num, 0, 0⟩
  let run := fun (s : State) (n : Nat) => checkRun s fr.bay fr.part (fetchKind fr spec) tag (addr.toNat : Int) n 8
  let bad := fun (s : State) (code : BitVec 8) (a : Word) => enterBlock s fr addr 0 0 [] spec (some (fetchRec s fr addr code 255 a (accDetail code 8 false true)))
  match run s 16 with
  | (s, .miss) => s
  | (s, .page w) => enterBlock s fr addr 0 0 [] spec (some { fetchRec s fr addr F_PAGE 255 (BitVec.ofNat 64 w.addr) 2 with flags := if w.malformed then flMalformed else 0 })
  | (s, .bad c a) => bad s c a
  | (s, .ok hr) =>
    let h := fetchWords s fr hr 2
    let h0 := h.getD 0 0
    let h1 := h.getD 1 0
    let n := if headerOk h0 then hCount h0 else 0
    match run s (16 + 8 * n) with
    | (s, .miss) => s
    | (s, .page w) => enterBlock s fr addr 0 0 [] spec (some { fetchRec s fr addr F_PAGE 255 (BitVec.ofNat 64 w.addr) 2 with flags := if w.malformed then flMalformed else 0 })
    | (s, .bad c a) => bad s c a
    | (s, .ok rs) =>
      match poisonedAt s rs with
      | some a => enterBlock s fr addr 0 0 [] spec (some (fetchRec s fr addr F_MEMECC 255 (BitVec.ofNat 64 a) 0))
      | none =>
        let words := (fetchWords s fr rs (n + 2)).drop 2
        let s := (readRuns s fr.part (some fr.tree) rs).2
        let held := ((decodeFault (isDet s fr.part) h0 h1 words).orElse fun _ => entryFault s fr h0 h1 words).map fun d =>
          fetchRec s fr addr d.1 d.2.1 d.2.2.1 d.2.2.2
        enterBlock s fr addr h0 h1 words spec held

/-- The image of a block in flight reads now as it was fetched. -/
def imageSame (s : State) (fr : Frame) (b : Block) : Bool :=
  let n := b.words.length + 2
  match checkRun s fr.bay fr.part (fetchKind fr true) 0 (b.addr.toNat : Int) (8 * n) 8 with
  | (_, .ok rs) => fetchWords s fr rs n == b.h0 :: b.h1 :: b.words
  | _ => false

/-- What a predicted fetch of a block found stands (R107, R292): a check of its address stopped it, or its image reads as it did.
A poisoned word was not read. -/
def fetchStands (s : State) (fr : Frame) (b : Block) : Bool :=
  match b.words.isEmpty, b.held.map (·.code) with
  | true, some c => if c == F_MEMECC then false else c != F_ILLOP || imageSame s fr b
  | _, _ => imageSame s fr b

/-- The block that becomes a frame's oldest was fetched before the older ones had ended: where its image has changed since,
by a store of theirs or by one ordered before a read of theirs, it is fetched again (R292, R40). -/
def refetchOldest (s : State) (p f : Nat) : State :=
  match (blocksOf s p f).head?, frame? s p f with
  | some b, some fr =>
    if !b.spec || fetchStands s fr b then s
    else modFrame (discardAll s (blocksOf s p f)) p f fun x => { x with nextAddr := some b.addr }
  | _, _ => s

/-- BLOCK_FETCH (R292): up to four blocks of a frame in flight, never two of one address (R33, R157). `exitNo` is
the exit that the front end predicts while the youngest block's has not fired (log 14). -/
def execBlockFetch (p f : Nat) (exitNo : Option Nat) (s : State) : Res :=
  match frame? s p f with
  | none => .next s
  | some fr =>
    let bs := blocksOf s p f
    if !fr.resident || fr.fault.isSome || fr.ending || bayGated s p fr.bay || decide (4 ≤ bs.length) then .next s
    else match fetchTarget s fr exitNo with
      | none => .next s
      | some (a, spec) => if bs.any fun b => b.addr == a then .next s else .next (fetchAt s fr a spec)

/-! ### Placement (R33) -/

/-- The instances of a block's read words: they fire at block start (R39, R311). -/
def readInsts (s : State) (fr : Frame) (b : Block) (pl : List (Nat × Nat)) : List Inst :=
  (List.range b.words.length).filterMap fun i =>
    let w := b.words.getD i 0
    if opOf w == 0x01 then
      some { Inst.empty with
        part := fr.part, bay := fr.bay, cell := (pl.getD i (0, 0)).1, ctx := (pl.getD i (0, 0)).2,
        tag := ⟨BitVec.ofNat 20 fr.num, 0, 0⟩, word := w, seq := b.seq, idx := i, level := levelOf s fr.part fr.num }
    else none

/-- A displaced block takes new cell-contexts, with what waits in it; it waits for them, and for room in their cells' queues
(R33, R152). Its slots are then examined. -/
def replaceBlock (s : State) (fr : Frame) (b : Block) : State :=
  match assignPlaces b.words (freePlaces s fr.bay) with
  | none => s
  | some pl =>
    let t := reseat s fr.part fr.num fr.bay ((blocksOf s fr.part fr.num).map fun x => if x.seq == b.seq then { x with places := pl } else x)
    if !within t fr.bay then s
    else (t.queues.filter fun e => e.part == fr.part && e.tok.tag.frame.toNat == fr.num && (e.blk.map (·.1)) == some b.seq).foldl
      (fun t e => settle e (64 + t.queues.length) t) t

/-- BLOCK_PLACEMENT (R33): the frame's first displaced block takes new cell-contexts of its bay, else its next unplaced block
takes some, and its reads fire. It waits for cell-contexts, and for room in their cells' ready queues (R152). -/
def execBlockPlacement (p f : Nat) (s : State) : Res :=
  match frame? s p f, (blocksOf s p f).find? fun b => displaced b || (b.places.isEmpty && b.held.isNone) with
  | some fr, some b =>
    if !fr.resident || bayGated s p fr.bay then .next s
    else if displaced b then .next (replaceBlock s fr b)
    else match assignPlaces b.words (freePlaces s fr.bay) with
      | none => .next s
      | some pl =>
        if !readyFits s (readInsts s fr b pl) then .next s
        else
          let s := modBlock s p f b.seq fun b => { b with places := pl }
          .next { s with ready := s.ready ++ readInsts s fr b pl }
  | _, _ => .next s

/-! ### Commit (R34, R36, R38, R65, R83, R86) -/

/-- Registers whose write has not been received; likewise stores and soft registers (R38, R449). -/
def missingWrites (b : Block) : Nat := ((setBits b.h1.toNat 64).filter fun g => (assoc g b.wr).isNone).foldl (fun a g => a + pow2 g) 0
def missingStores (b : Block) : Nat := ((setBits (fld b.h0 0 32) 32).filter fun l => (assoc l b.st).isNone).foldl (fun a l => a + pow2 l) 0
def missingSofts (b : Block) : Nat := ((setBits (fld b.h0 36 8) 8).filter fun k => (assoc k b.sk).isNone).foldl (fun a k => a + pow2 k) 0

/-- Every condition of R34 but quiescence. -/
def receiptsMet (b : Block) : Bool :=
  missingWrites b == 0 && missingStores b == 0 && missingSofts b == 0 && (hExits b.h0 == 0 || b.exit.isSome)

/-- Apply the received writes of a block to the registers of its frame. -/
def commitRegs (b : Block) (f : Frame) : Frame :=
  let g := b.wr.foldl (fun l x => match x.2 with | some v => l.set x.1 v | none => l) f.g
  let sk := b.sk.foldl (fun l x => match x.2 with | some v => l.set x.1 v | none => l) f.sk
  let fst := match assoc 0x002 b.wrsrs with
    | some v => BitVec.setWidth 7 v ||| b.flags
    | none => f.fstat ||| b.flags
  let made := (b.words.filter fun w => opOf w == 0x7D || opOf w == 0x7F).length
  { f with g := g, sk := sk, fstat := fst, fpc := (b.fpc.bind id).getD f.fpc, co := f.co + made,
           fenced := if b.words.any fenceAr && f.fenced.isNone then some ((b.seq + 1) % pow2 32) else f.fenced }

/-- A block's write of TRAP_VEC: the faults raised before it go through the old value (R91). -/
def newTrapVec (v : Word) (t : Part) : Part :=
  let pin := fun (x : TrapItem) => { x with vec := some (x.vec.getD t.trapVec) }
  { t with trapVec := v, trapQ := t.trapQ.map pin }

/-- Apply the system register writes of a block (R83): TRAP_VEC, WIDTH_ACH. -/
def commitWrsrs (s : State) (p : Nat) (l : List (Nat × Word)) : State :=
  l.foldl (fun s x =>
    if x.1 == 0x020 then modPart s p (newTrapVec x.2)
    else if x.1 == 0x060 then modPart s p fun t => { t with widthAch := x.2 }
    else s) s

/-- The held stores of a block become committed, in chain order behind those already waiting (R376). -/
def commitStores (s : State) (p f q : Nat) : State :=
  let mine := s.stores.filter fun h => h.part == p && h.frame == f && h.seq == q && h.region.isNone && !h.committed
  let rest := s.stores.filter fun h => !(h.part == p && h.frame == f && h.seq == q && h.region.isNone && !h.committed)
  let ordered := mine.foldl (fun l h => insHeld s h l) []
  let s := { s with stores := rest ++ ordered.map fun h => { h with committed := true } }
  releaseHeld p f s.stores.length s

/-- Thaw a region: its faulting instances are tried again, and waiting heads are examined (R452, R455). -/
def thawRegion (s : State) (bay g : Nat) : State :=
  match region? s bay g with
  | none => s
  | some r =>
    let s := modRegion s bay g fun r => { r with fault := none, faulting := [] }
    pairRegion { s with pipe := s.pipe ++ r.faulting } bay g

/-- Free the stream slots and KV chain bindings that a region holds (R224, R385, R386). -/
def freeBindings (s : State) (r : Region) : State :=
  { s with streams := s.streams.filter (fun x => !(x.inst.bay == r.bay && x.region == r.idx)),
           kvc := s.kvc.map (fun x => if r.kvc.any fun y => x.1 == (nameKey s r.part y.1, y.2) then (x.1, BitVec.setWidth 64 (BitVec.extractLsb' 0 63 x.2)) else x) }

/-- A token rests for a match-mode context of the region (R155). -/
def regionSlot (r : Region) (x : SlotEntry) : Bool := x.part == r.part && x.grid == some r.name

/-- The tokens of a region that rest, in rows and in the images of spilled frames. -/
def restingOf (s : State) (r : Region) : Nat := ((s.slots ++ s.images.flatMap (·.slots)).filter (regionSlot r)).length

/-- Without the tokens of a region that rest. -/
def dropResting (s : State) (r : Region) : State :=
  { s with slots := s.slots.filter (fun x => !regionSlot r x),
           images := s.images.map fun m => { m with slots := m.slots.filter fun x => !regionSlot r x } }

/-- Without the queued tokens and formed instances of a region, those in the images of spilled frames among them. -/
def dropQueued (s : State) (r : Region) : State :=
  { s with queues := s.queues.filter (fun e => !regionQueue r e), ready := s.ready.filter (fun i => !ofRegion r i),
           images := s.images.map fun m => { m with
             entries := m.entries.filter (fun e => !regionQueue r e), insts := m.insts.filter (fun i => !ofRegion r i),
             appended := m.appended.filter fun x => !toRegion r x } }

/-- Free a region: its contexts, entries, record and exit ports; its tokens and the chains of its waves go with it (R131,
R224, R455). -/
def freeRegion (s : State) (bay g : Nat) : State :=
  match region? s bay g with
  | none => s
  | some r =>
    let s := dropQueued (dropResting (freeBindings s r) r) r
    let t := { s with
      regions := s.regions.filter fun x => !(x.bay == bay && x.idx == g)
      entries := s.entries.filter fun x => !entryOf r x
      net := s.net.filter fun x => !toRegion r x
      pipe := s.pipe.filter fun i => !ofRegion r i
      waits := s.waits.filter fun i => !ofRegion r i
      stores := s.stores.filter fun h => !(h.bay == bay && h.region == some g)
      placed := s.placed.filter fun x => !(x.part == r.part && (x.grid.map (·.1)) == some r.name)
      ctxs := s.ctxs.filter fun x => !(x.bay == bay && x.region == g) }
    dropParked t r.part

/-- The tokens that a formed instance of a region holds: its operands but for the constant (R213). -/
def instTokens (s : State) (i : Inst) : Nat :=
  let n := ([i.a, i.b, i.c, i.p].filter fun o => o.isSome).length
  let k := (s.ctxs.find? fun c => c.bay == i.bay && c.cell == i.cell && c.ctx == i.ctx).bind fun c => kselOf c.pw
  n - (if k.isSome then 1 else 0)

/-- The tokens that stand in a region's queues or formed. An instance that has not fired counts as the tokens it holds
(log 35). -/
def hereOf (s : State) (r : Region) : Nat :=
  (s.queues.filter (regionQueue r)).length + ((s.ready.filter (ofRegion r)).map (instTokens s)).sum

/-- The tokens that wait for a region or stand formed, in the images of spilled frames too, without those that rest. -/
def queuedOf (s : State) (r : Region) : Nat :=
  ((s.queues ++ s.images.flatMap (·.entries)).filter (regionQueue r)).length + ((s.images.flatMap (·.appended)).filter (toRegion r)).length +
    (((s.ready ++ s.images.flatMap (·.insts)).filter (ofRegion r)).map (instTokens s)).sum

/-- Empty a region's queues and match slots into its residue and reset its phases (R455 restart). -/
def restartRegion (s : State) (bay g : Nat) : State :=
  match region? s bay g with
  | none => s
  | some r =>
    let n := queuedOf s r + restingOf s r + (r.faulting.map (instTokens s)).sum
    let s := dropQueued (dropResting s r) r
    let s := { s with ctxs := updWhere (fun c => c.bay == bay && c.region == g) (fun c => { c with ph := 0, cn := 0 }) s.ctxs }
    modRegion s bay g fun r => { r with fault := none, faulting := [], residue := r.residue + n }

/-- Abort a halted frame (R455): it ends as a final commit ends it, with nothing committed. -/
def abortFrame (s : State) (p f : Nat) : State :=
  let s := discardAll s (blocksOf s p f)
  let s := { s with stores := s.stores.filter fun h => !(h.part == p && h.frame == f && h.region.isNone && !h.committed) }
  finishFrame s p f

/-- A waiting instance whose access lies on the page of an address (R110). -/
def holdsPage (va : Nat) (s : State) (i : Inst) : Bool := onPages (instSpan s i) va && heldTag s i.part (tagWord i.tag) va

/-- A command that the open page fault of a page holds (R110, R396). -/
def onFault (s : State) (p va : Nat) (c : Cmd) : Bool :=
  c.part == p && c.held && s.pageFaults.any fun f => f.part == p && faultPage f == some (va / pow2 14) && f.cmds.contains c.id

/-- Held engine commands of a partition walk again (R110, R396). -/
def unholdCmds (s : State) (p : Nat) : State :=
  { s with cmds := updWhere (fun c => c.part == p && c.held) (fun c => { c with held := false }) s.cmds }

/-- The open stage-1 page fault on a page, without it. -/
def dropPage (s : State) (p va : Nat) : State :=
  { s with pageFaults := s.pageFaults.filter fun x => !(x.part == p && !x.stage2 && x.va / pow2 14 == va / pow2 14) }

/-- A completion word for a page. -/
def onPage (p va : Nat) (c : Completion) : Bool := c.part == p && c.va.toNat / pow2 14 == va / pow2 14

/-- Close the page fault on a page: its held accesses are retried from the walk (R110). -/
def closePage (s : State) (p va : Nat) : State := retryCompletions (unholdCmds (dropPage s p va) p) (onPage p va)

/-- A record of a page fault is answered, and its access does not go on: the other held accesses of the page stay held, so
that the fault closes only with the last of them (R455). -/
def leavePage (s : State) (p va : Nat) : State :=
  if (s.waits.any fun i => i.part == p && holdsPage va s i) || (s.cmds.any (onFault s p va)) || s.completions.any (onPage p va) then s
  else dropPage s p va

/-- Stop the holder of a held access first (R455): a block access halts its frame, a grid access freezes its region and
stays unconsumed with it; the record has been delivered already. What another fault has stopped meanwhile holds no second one
(R452). -/
def stopHolder (s : State) (p va : Nat) (r : FaultRec) : State × Victim :=
  let f := r.tag.toNat / 4096
  if r.flags &&& flGrid != 0 then
    let mine := fun (i : Inst) => i.grid == some r.region && i.bay == r.bay && i.cell == r.cell && i.ctx == r.ctx && tagWord i.tag == r.tag && holdsPage va s i
    if ((region? s r.bay r.region).bind (·.fault)).isSome then (s, .nothing)
    else (modRegion { s with waits := s.waits.filter fun i => !mine i } r.bay r.region fun x =>
      { x with fault := some r, faulting := x.faulting ++ s.waits.filter mine }, .region r.bay r.region)
  else if ((frame? s p f).bind (·.fault)).isSome then (s, .nothing)
  else
    let s := discardAll s (blocksOf s p f)
    (modFrame s p f fun x => { x with fault := some r, nextAddr := none }, .frame f)

/-- The check of the load of an edited image (R455): 512 bytes at supervisor level, by the trap frame. -/
def editRun (s : State) (fr : Frame) (a : Word) : State × Acc :=
  checkRun s fr.bay fr.part ⟨false, false, true, true, some fr.tree⟩ 0 (a.toNat : Int) 512 8

/-- ACT of a choice word: with a reserved value, 0b11 (R455). -/
def choiceAct (g8 : Word) : Nat := if fld g8 3 61 != 0 then 3 else fld g8 0 2

/-- The choice edits the image of a frame. -/
def choiceEdits (g8 : Word) : Bool := fld g8 3 61 == 0 && bitAt g8 2 && decide (choiceAct g8 < 2)

/-- The choice that a trap frame's registers make, with the edited image that was read for it. -/
def choiceOf (g : List Word) (edit : Option (List Word)) : Choice := ⟨choiceAct (g.getD 8 0), g.getD 9 0, edit⟩

/-- The spilled frame that a choice is to stop first (R31, R455): the holder of a held access. -/
def lateHolder (s : State) (p : Nat) (c : Choice) (t : TrapItem) : Option Frame :=
  match t.victim with
  | .access _ =>
    if c.act == 0 || t.rcd.flags &&& flGrid != 0 then none else (frame? s p (t.rcd.tag.toNat / 4096)).filter fun f => !f.resident
  | _ => none

/-- What a handler's choice does to what its record's fault stopped (R455). The spilled holder of a held access is stopped when
it is reloaded (R31). -/
def applyChoice (s : State) (p : Nat) (c : Choice) (t : TrapItem) : State :=
  let act := c.act
  let cmdEnd := fun (s : State) (q : QRef) =>
    { s with cmds := updWhere (fun c => c.r == q && c.held) (fun c => { c with held := false, status := some (0x8000000000000000 + BitVec.setWidth 64 t.rcd.code) }) s.cmds }
  let send3 := fun (s : State) => if act == 3 then hfqWrite s t.rcd false else s
  -- a held access: restart and abort stop the holder first
  let held : State × Victim := match t.victim with
    | .access va => if act == 0 then (closePage s p va.toNat, .nothing) else (let x := stopHolder s p va.toNat t.rcd; (leavePage x.1 p va.toNat, x.2))
    | v => (s, v)
  match lateHolder s p c t with
  | some fr => modFrame s p fr.num fun x => { x with late := some (t, c) }
  | none =>
  let s := held.1
  match held.2 with
  | .frame f =>
    if (frame? s p f).isNone then send3 s
    else if act == 0 || act == 1 then
      modFrame s p f fun x => { x with fault := none, nextAddr := some (if act == 0 then t.rcd.addr else c.addr), g := c.edit.getD x.g }
    else send3 (abortFrame s p f)
  | .region bay g =>
    if act == 0 then thawRegion s bay g
    else if act == 1 then pairRegion (restartRegion s bay g) bay g
    else send3 (freeRegion s bay g)
  | .engine q =>
    if act == 0 then closePage s p t.rcd.g4.toNat else send3 (leavePage (cmdEnd s q) p t.rcd.g4.toNat)
  | .completion id =>
    (match s.completions.find? fun c => c.id == id with
     | none => send3 s
     | some c =>
       if act == 0 then closePage s p c.va.toNat
       else send3 (leavePage { s with completions := s.completions.filter (fun c => c.id != id) } p c.va.toNat))
  | _ => send3 s

/-- The commit of a block whose conditions hold (R34). `edit` is the edited image that a trap frame's choice asks for (R455). -/
def commitBlock (s : State) (fr : Frame) (b : Block) (edit : Option (List Word)) : State :=
  let p := fr.part
  let f := fr.num
  let s := modFrame s p f (commitRegs b)
  let s := modFrame s p f fun x => { x with
    retHold := match b.ret with | some v => some v | none => x.retHold
    progress := (part s p).wdCycles }
  let s := commitWrsrs s p b.wrsrs
  let s := b.events.foldl (fun s e => interrupt s p 2 e.1 e.2) s
  let s := commitStores s p f b.seq
  let hasNext := !(youngerBlocks s p f b.seq).isEmpty
  let s := modFrame (clearBlock s p f b.seq false) p f fun x => { x with fenced := if fencePast (clearBlock s p f b.seq false) x then none else x.fenced }
  if hExits b.h0 == 0 then
    let s := discardAll s (blocksOf s p f)
    match fr.trap, frame? s p f with
    | some t, some tf => releaseAll (applyChoice (finishFrame s p f) p (choiceOf tf.g edit) t)
    | _, _ => releaseAll (finishFrame s p f)
  else
    let s := match b.exit with
      | some ⟨_, some d⟩ => if hasNext then s else modFrame s p f fun x => { x with nextAddr := some d }
      | some ⟨_, none⟩ => modFrame s p f fun x => { x with parked := true, nextAddr := none }
      | none => s
    raiseHeld (refetchOldest (releaseAll s) p f) p f

/-- The load of an edited image that a trap frame's final block asks for, which is checked before the commit; none where none is
asked for (R453, R455). -/
def editCheck (s : State) (fr : Frame) (b : Block) : Option (State × Acc) :=
  match fr.trap with
  | none => none
  | some t =>
    let g := (commitRegs b fr).g
    let edits := hExits b.h0 == 0 && choiceEdits (g.getD 8 0) && (match t.victim with
      | .frame f => (frame? s fr.part f).isSome
      | .access _ => t.rcd.flags &&& flGrid == 0 && choiceAct (g.getD 8 0) == 1
      | _ => false)
    if edits then some (editRun s fr (g.getD 10 0)) else none

/-- BLOCK_COMMIT (R34, R38): the oldest block of a frame, when its in-flight count is zero. In a deterministic
partition its stores wait for their turn (R150). A trap frame whose edited image fails its checks halts (R453). -/
def execBlockCommit (p f : Nat) (s : State) : Res :=
  match frame? s p f, (blocksOf s p f).head? with
  | some fr, some b =>
    if savedAway s p || b.places.isEmpty || !fr.resident || fr.fault.isSome || inFlight s p f b.seq then .next s
    else
      let r := { recBase F_NOEXIT p with
        bseq := b.seq, tag := tagWord ⟨BitVec.ofNat 20 f, 0, 0⟩, bay := fr.bay, fname := fr.fname, addr := b.addr,
        g4 := BitVec.ofNat 64 (missingWrites b),
        g5 := BitVec.ofNat 64 (missingStores b * pow2 32 + missingSofts b * 256 + (if b.exit.isSome then 1 else 0)) }
      if !receiptsMet b then .next (haltFrame s p f b.seq r)
      else if b.ret.isSome && fr.retHold.isSome then
        .next (haltFrame s p f b.seq { r with code := F_DUPTOK, index := (b.ret.map (·.1)).getD 255, g4 := (fr.retHold.bind (·.2)).getD 0, g5 := (b.ret.bind (·.2)).getD 0, aux := 0xC00 })
      else if (s.stores.any fun h => h.part == p && h.frame == f && h.seq == b.seq && h.region.isNone) && !blockTurn s p f then .next s
      else
        match editCheck s fr b with
        | none => .next (commitBlock s fr b none)
        | some (_, .miss) => .next s
        | some (s, .bad c a) => .next (haltFrame s p f b.seq { r with code := c, g4 := a, g5 := accDetail c 8 false false })
        | some (s, .page w) =>
          if w.stage2 then .next (openStage2 s p w.addr w.malformed none)
          else .next (haltFrame s p f b.seq (withMalformed { r with code := F_PAGE, g4 := BitVec.ofNat 64 w.addr, g5 := 0 } w.malformed))
        | some (s, .ok rs) =>
          match poisonedAt s rs with
          | some a => .next (haltFrame s p f b.seq { r with code := F_MEMECC, g4 := BitVec.ofNat 64 a, g5 := 0 })
          | none => let x := readRuns s p (some fr.tree) rs; .next (commitBlock x.2 fr b (some (wordsOf x.1 64)))
  | _, _ => .next s

/-- A frame that is resident again meets the choice that was to stop it (R31, R455). -/
def meetLate (s : State) (p f : Nat) : State :=
  match (frame? s p f).filter (·.resident) |>.bind (·.late) with
  | some (t, c) => applyChoice (modFrame s p f fun x => { x with late := none }) p c t
  | none => s

/-- FRAME_RELOAD (R31, R46, R166, R504). A full append area comes before deferred spawns, other frames after them. A partition
that is halted whole reloads none (R506). -/
def execFrameReload (p bay : Nat) (s : State) : Res :=
  if freeRows s bay == 0 || trapWants s p || departing (part s p) bay || (part s p).preHalted then .next s
  else
    let sp := spilledOf s p bay
    match lowestName (sp.filter (appendFull s)) with
    | some f => .next (meetLate (reload s f) p f.num)
    | none =>
      let waiting := s.deferred.any fun d => d.part == p
      if waiting && (freeFrame s p).isSome then .next s
      else match lowestName sp with
        | some f => .next (meetLate (reload s f) p f.num)
        | none => .next s

end Sys2Proof.Machine
end

