-- ==== Sys2Proof/Machine/Access.lean ====
section
/-! DEFINITION. What every memory instruction does at the edge: its place in the chain (R130, R131), the turn of a
deterministic partition (R148–R150), its checks (R105, R372), widening and narrowing (R59), and the events of the edge. -/
namespace Sys2Proof.Machine

/-- The gate of a memory instruction: its place, its block's age where it must be the oldest, the stores that it follows,
its turn where the partition is deterministic; then the effect. -/
def memGate (needOldest ordered : Bool) (s : State) (eff : State → State) : State :=
  let placedAlready := match s.cur.stage with
    | some k => decide (0 < k)
    | none => false
  if !placedAlready && !canPlace s then waitStage s 0
  else
    let s := if placedAlready then s else placeCur s
    if (needOldest && !curOldest s) || drainWait s || (ordered && !accessTurn s) then waitCur s else eff s

/-- The shell of a memory instruction (R27, R130, R294, R373): a null access takes its place, counts as its LSID's
store, and sends nulls; in a block a marker at a store acts as a null. -/
def memShell (f : MFmt) (store needOldest ordered : Bool) (s : State) (eff : State → State) : Res :=
  let blk := s.cur.grid.isNone
  let nul := anyNull s.cur || (anyEos s.cur && store && blk)
  if anyEos s.cur && !(store && blk) then .next (sendAll s [f.t0] .eos 0)
  else if nul then
    .next (memGate false false s fun s =>
      let s := if store && blk then recvStore s s.cur.part (curFrame s) s.cur.seq f.own.toNat s.cur.idx 0 s.cur.tag else s
      sendAll s [f.t0] .null 0)
  else if !predOk f.pr s then .next s
  else if passes s.cur then .next (sendAll s [f.t0] .data (opA s))
  else .next (memGate needOldest ordered s eff)

/-! ### Addresses and values (R59, R372) -/

/-- widen(SF, bytes) of R59. -/
def widenSf (sf : Nat) (bs : List Byte) : Word :=
  let v := ofBytes bs
  if sf == 0 then BitVec.ofInt 64 (signed v 8)
  else if sf == 2 then BitVec.ofInt 64 (signed v 16)
  else if sf == 7 then BitVec.ofNat 64 (loadWiden bf16 v)
  else if sf == 8 then BitVec.ofNat 64 (loadWiden f16 v)
  else BitVec.ofNat 64 v

/-- The bytes that a store writes and the flags of a narrowing; none is F_CVTOVF (R59, R375). -/
def narrowSf (sf : Nat) (c : Ctl) (b : Word) : Option (List Byte × Nat) :=
  if sf == 7 || sf == 8 then
    (narrowF (if sf == 7 then bf16 else f16) c.rm c.ftz c.ovp (fld b 0 32)).map fun r => (toBytes 2 r.1, r.2)
  else some (toBytes (sfBytes sf) (b.toNat % pow2 (8 * sfBytes sf)), 0)

/-- The current block runs at supervisor level (R80). -/
def curSup (s : State) : Bool :=
  match curBlock s with
  | some b => hSup b.h0 && ((frame? s s.cur.part (curFrame s)).map fun f => f.trap.isSome).getD false
  | none => false

/-- The record of a failed check of an access (R392, R449): EA, and the size or what the access was. -/
def accFault (s : State) (code : BitVec 8) (ea : Int) (n : Nat) (store : Bool) : State :=
  fault s code (BitVec.ofInt 64 ea) (accDetail code n store false)

/-- The tree that the current instance's charges fall to. -/
def curTree (s : State) : Option Nat := treeOf s s.cur.part (curFrame s)

/-- The checked access of the current instance over n bytes: on success the runs, else a wait or a fault. -/
def withRuns (s : State) (ea : Int) (n algn : Nat) (store : Bool) (go : State → List Run → State) : State :=
  match checkRun s s.cur.bay s.cur.part ⟨store, false, curSup s, false, curTree s⟩ (tagWord s.cur.tag) ea n algn with
  | (s, .ok rs) =>
    (match poisonedAt s rs with
     | some a => if store then go s rs else fault s F_MEMECC (BitVec.ofNat 64 a) 0
     | none => go s rs)
  | (s, .bad c a) => accFault s c a.toNat n store
  | (s, _) => waitCur s

/-- The checks of lds and sts (R117, R372): alignment, then the shelf's bounds; on success the address in the shelf. A store
is charged when it is performed (R266). A parked shelf lies in the cellar (R242, R506). -/
def withShelf (s : State) (ea : Int) (n : Nat) (store : Bool) (go : State → Nat → State) : State :=
  if ea % (n : Int) != 0 then accFault s F_ALIGN ea n store
  else if ea < 0 ∨ (pow2 22 : Int) < ea + n then accFault s F_PROT ea n store
  else
    let k := shelfKey (curKey s) ea.toNat
    match parkedTouch s s.cur.part (curKey s) ea.toNat n store with
    | .error s => waitCur s
    | .ok s =>
    if !store && s.poison.contains (.shelf, k / 8) then fault s F_MEMECC (BitVec.ofNat 64 k) 0
    else go (if store then s else charge s s.cur.part (curTree s) 3 1) k

/-- Note the slot of a versioned word at which the current access waits (R382, R383). -/
def foundSlot (s : State) : StoreOp → State
  | .stv pa _ => modCur s fun i => { i with ver := some (pa, none) }
  | _ => s

/-- Hand a store of the current instance to the edge (R34, R230, R373): held to commit in a block; in a grid held under its
region while it keeps checkpoints, with its T0, else performed at once, whereupon T0 receives its value. -/
def handStore (s : State) (f : MFmt) (op : StoreOp) : State :=
  let i := s.cur
  match i.grid with
  | none =>
    let dup := ((curBlock s).map fun b => (assoc f.own.toNat b.st).isSome).getD false
    let s := recvStore s i.part (curFrame s) i.seq f.own.toNat i.idx (opB s) i.tag
    if dup then s
    else { s with stores := s.stores ++ [⟨i.part, i.bay, curFrame s, i.seq, f.own.toNat, none, false, op, none, false⟩] }
  | some g =>
    let h : Held := ⟨i.part, i.bay, curFrame s, 0, f.own.toNat, some g, false, op, none, false⟩
    if ((region? s i.bay g).map (·.ck)).getD false then { s with stores := s.stores ++ [{ h with reply := some i }] }
    else match performStore s h with
      | some t => send t f.t0 (storeValue s h)
      | none => waitCur (foundSlot s op)

/-! ### The order of a block's engine messages (R389, R394, R415) -/

/-- Note that the current engine instruction has fired, or that the shell consumed it. -/
def markSent (s : State) : State :=
  match s.cur.grid with
  | some _ => s
  | none => modBlock s s.cur.part (curFrame s) s.cur.seq fun b => { b with sent := s.cur.idx :: b.sent }

/-- The shell consumes the current instance without its effect (R294). -/
def consumed (pr : BitVec 2) (s : State) : Bool := anyEos s.cur || anyNull s.cur || !predOk pr s

/-- Mark an engine instruction that the shell consumes. -/
def markConsumed (pr : BitVec 2) (s : State) : State := if consumed pr s then markSent s else s

/-- The turn of the current instance among its block's engine messages; then the effect (R394). -/
def engGate (s : State) (eff : State → State) : State :=
  match curBlock s with
  | none => eff s
  | some b => if s.cur.stage == some 4 || engPrior s b || engStuck s b then eff (modCur s fun i => { i with stage := some 4 }) else waitStage s 3

/-! ### Events of the edge -/

/-- Take a waiting instance out and run it next. -/
def wakeInst (s : State) (n : Nat) (i : Inst) : State := { s with waits := dropAt n s.waits, pipe := s.pipe ++ [i] }

/-- ACCESS_PLACEMENT (R131): a held access is placed after its predecessor, or by closure in ascending OWN. -/
def execAccessPlacement (n : Nat) (s : State) : Res :=
  match s.waits[n]? with
  | none => .next s
  | some i =>
    let t := { s with cur := i }
    if !savedAway s i.part && unplaced i && (canPlace t || (edgeOpen t && chainStuck s i && lowestOwn s i)) then
      let t := placeCur t
      .next { wakeInst t n t.cur with cur := s.cur }
    else .next s

/-- DETERMINISTIC_APPLY (R149, R150): a placed access passes when no other can still come before it. -/
def execDeterministicApply (n : Nat) (s : State) : Res :=
  match s.waits[n]? with
  | none => .next s
  | some i =>
    if !savedAway s i.part && isMem (opOf i.word) && !unplaced i && !i.cleared && isDet s i.part && accessTurn { s with cur := i } then
      .next (wakeInst s n { i with cleared := true })
    else .next s

/-- An instruction that walks: the memory instructions, and those that read a descriptor or a record. -/
def walks? (op : Nat) : Bool := isMem op || (decide (0xC0 ≤ op) && decide (op ≤ 0xD1)) || op == 0xE4 || op == 0xF4 || op == 0x95 || op == 0x96

/-- The waiting instance, or the trigger of the stream, whose tag a walk bears: one whose access lies on its page, if any does. -/
def walkOwner (s : State) (w : Walk) : Option Inst :=
  let l := (s.waits ++ s.streams.map (·.inst)).filter fun i => i.part == w.part && i.bay == w.bay && tagWord i.tag == w.tag && walks? (opOf i.word)
  (l.find? fun i => opOf i.word != 0x9F && onPages (instSpan s i) w.va).orElse fun _ => l.head?

/-- The bay's commands and completion words that a walk kept waiting are tried again; those on a page with an open fault stay
held (R110, R507). -/
def afterWalk (s : State) (bay : Nat) : State :=
  retryCompletions { s with cmds := updWhere (fun c => c.bay == bay && c.held) (fun c => { c with held := false }) s.cmds }
    fun c => c.bay == bay && !faultOpen s c.part c.va.toNat

/-- What a walk finds. It sets D for a store that has passed its checks while its page still reads as it was checked (R102). -/
def walkEnd (s : State) (w : Walk) : State × Except WalkBad TlbEntry :=
  let tree := treeOf s w.part (w.tag.toNat / 4096)
  let r := walkFill s w.bay w.part w.root w.va false tree
  match r.2 with
  | .error _ => r
  | .ok e => if w.dirty && (s.tlb.any fun x => x == { e with dirty := x.dirty }) then walkFill s w.bay w.part w.root w.va true tree else r

/-- A stage-1 page fault of a trap frame (R453): its access or its fetch faults, and the frame halts. -/
def trapPage (s : State) (w : Walk) (r : FaultRec) : State :=
  match walkOwner s w with
  | some i => { faultRec { s with cur := i, waits := s.waits.erase i } r with cur := s.cur }
  | none => haltFrame s w.part (w.tag.toNat / 4096) r.bseq r

/-- The walk is a trap frame's own. -/
def ofTrap (s : State) (w : Walk) : Bool :=
  ((frame? s w.part (w.tag.toNat / 4096)).map fun f => f.trap.isSome).getD false && ((walkOwner s w).map fun i => i.grid.isNone).getD true

/-- PAGE_WALK (R102, R110): a walk completes and fills the TLB, or opens a page fault for its tag. It goes through the network, in
a slot that its partition owns (R20, R239). -/
def execPageWalk (n : Nat) (s : State) : Res :=
  match s.walks[n]? with
  | none => .next s
  | some w =>
    if !inSlot s w.part then .next s
    else match walkEnd { s with walks := dropAt n s.walks } w with
    | (s, .ok e) => .next (afterWalk (tlbFill s e) w.bay)
    | (s, .error b) =>
      let g5 : Word := BitVec.ofNat 64 ((if w.store then 1 else 0) + (if w.fetch then 2 else 0))
      let f := w.tag.toNat / 4096
      let r := match walkOwner s w with
        | some i => recCur { s with cur := i } F_PAGE (if opOf i.word == 0x9F || !isMem (opOf i.word) then BitVec.ofNat 64 w.va else instEa i) g5
        | none => (match frame? s w.part f with
          | some fr => { fetchRec s fr (fr.nextAddr.getD 0) F_PAGE 255 (BitVec.ofNat 64 w.va) g5 with bseq := fr.nextSeq }
          | none => { recBase F_PAGE w.part with tag := w.tag, g4 := BitVec.ofNat 64 w.va, g5 := g5 })
      .next (if !b.stage2 && ofTrap s w then afterWalk (trapPage s w (withMalformed r b.malformed)) w.bay
        else afterWalk (openPage s w.part { b with addr := if b.stage2 then b.addr else w.va } r (.access (BitVec.ofNat 64 w.va)) none false) w.bay)

/-- An event of R147 reaches the frame of a waiting waitm: note the cause and run it again. -/
def wakeWaitm (s : State) (n : Nat) (i : Inst) (cause : Nat) : State :=
  let s := modFrame s i.part i.tag.frame.toNat fun f =>
    { f with mon := f.mon.map (noteCause s cause) }
  wakeInst s n i

/-- WAITM_TIMEOUT (R147, R390): the deadline that waitm noted has come. -/
def execWaitmTimeout (n : Nat) (s : State) : Res :=
  match s.waits[n]? with
  | none => .next s
  | some i =>
    if !savedAway s i.part && opOf i.word == 0xA4 && (match i.stage with
        | some k => decide (2 ≤ k) && decide (k - 2 ≤ s.pkg.cycle)
        | none => false) then .next (wakeWaitm s n i 4)
    else .next s

/-- The last spurious wake of a frame lies 1,024 cycles back (R147). -/
def spurOpen (s : State) (p f : Nat) : Bool :=
  match (frame? s p f).bind (·.spurAt) with
  | some c => decide (c + 1024 ≤ s.pkg.cycle)
  | none => true

/-- SPURIOUS_WAKE (R147): at most one per 1,024 cycles for a waiting frame. -/
def execSpuriousWake (n : Nat) (s : State) : Res :=
  match s.waits[n]? with
  | none => .next s
  | some i =>
    let f := i.tag.frame.toNat
    if !savedAway s i.part && opOf i.word == 0xA4 && !unplaced i && spurOpen s i.part f then
      .next (wakeWaitm (modFrame s i.part f fun x => { x with spurAt := some s.pkg.cycle }) n i 5)
    else .next s

end Sys2Proof.Machine
end

