-- ==== Sys2Proof/Machine/Integer.lean ====
section
/-! DEFINITION. Integer arithmetic (R315–R317). -/
namespace Sys2Proof.Machine

/-- x, y and z of R315. -/
def xOf (f : AFmt) (s : State) : Int := valT f.ty.toNat (opA s)
def yOf (f : AFmt) (s : State) : Int := valT f.ty.toNat (bOf f s)
def zOf (f : AFmt) (s : State) : Int := valT f.ty.toNat (opC s)

/-- Deliver the exact result of an arithmetic instruction (R316). -/
def arith (f : AFmt) (s : State) (r : Int) : Res := aluInt f s (deliverT f.ty.toNat (f.md == 1) r)

/-- Quotient and remainder (R75, R317). -/
def divRem (ty : Nat) (x y : Int) : Int × Int :=
  if y == 0 then (if tySgn ty then -1 else (pow2 (tyW ty) : Int) - 1, x)
  else (Int.tdiv x y, x - Int.tdiv x y * y)

/-- add (R315, R316). -/
def execAdd (f : AFmt) (s : State) : Res := arith f s (xOf f s + yOf f s)

/-- sub (R315, R316). -/
def execSub (f : AFmt) (s : State) : Res := arith f s (xOf f s - yOf f s)

/-- mul (R315, R316). -/
def execMul (f : AFmt) (s : State) : Res := arith f s (xOf f s * yOf f s)

/-- mulh (R315, R316). -/
def execMulh (f : AFmt) (s : State) : Res := arith f s (Int.fdiv (xOf f s * yOf f s) (pow2 (tyW f.ty.toNat) : Int))

/-- mad (R315, R316). -/
def execMad (f : AFmt) (s : State) : Res := arith f s (xOf f s * yOf f s + zOf f s)

/-- div (R315, R317). -/
def execDiv (f : AFmt) (s : State) : Res := arith f s ((divRem f.ty.toNat (xOf f s) (yOf f s)).1)

/-- rem (R315, R317). -/
def execRem (f : AFmt) (s : State) : Res := arith f s ((divRem f.ty.toNat (xOf f s) (yOf f s)).2)

/-- neg (R315, R316). -/
def execNeg (f : AFmt) (s : State) : Res := arith f s (-xOf f s)

/-- abs (R315, R316). -/
def execAbs (f : AFmt) (s : State) : Res := arith f s (if xOf f s < 0 then -xOf f s else xOf f s)

/-- min (R315, R316). -/
def execMin (f : AFmt) (s : State) : Res := arith f s (if xOf f s ≤ yOf f s then xOf f s else yOf f s)

/-- max (R315, R316). -/
def execMax (f : AFmt) (s : State) : Res := arith f s (if xOf f s ≤ yOf f s then yOf f s else xOf f s)

end Sys2Proof.Machine
end

