-- ==== Sys2Proof/Machine/Logic.lean ====
section
/-! DEFINITION. Logic, shifts, counts, fields, extension, selection, compare and test (R318–R323). -/
namespace Sys2Proof.Machine

/-- u and s of R318: the low w bits of the operands. -/
def uOf (f : AFmt) (s : State) : Nat := bitsT f.ty.toNat (opA s)
def sOf (f : AFmt) (s : State) : Nat := bitsT f.ty.toNat (bOf f s)

/-- The width of the word's type. -/
def wOf (f : AFmt) : Nat := tyW f.ty.toNat

/-- A bit pattern delivered through put. -/
def putBits (f : AFmt) (s : State) (v : Nat) : Res := aluInt f s (putT f.ty.toNat (v : Nat))

/-- NOT of a w-bit pattern. -/
def notW (w x : Nat) : Nat := pow2 w - 1 - x

/-- The shift count (R319). -/
def shCount (f : AFmt) (s : State) : Nat := fld (bOf f s) 0 (if wOf f == 32 then 5 else 6)

/-- Rotate a w-bit pattern left. -/
def rotl (w u k : Nat) : Nat := (u * pow2 k + u / pow2 (w - k)) % pow2 w

/-- The number of leading zero bits of a w-bit pattern. -/
def clzW (w u : Nat) : Nat := w - bitLen u

/-- The number of trailing zero bits, w for 0, looking at k bits. -/
def ctzGo (u w : Nat) : Nat → Nat
  | 0 => w
  | k + 1 => if Nat.testBit u (w - (k + 1)) then w - (k + 1) else ctzGo u w k

/-- The number of set bits among the low k. -/
def popGo (u : Nat) : Nat → Nat
  | 0 => 0
  | k + 1 => popGo u k + (if Nat.testBit u k then 1 else 0)

/-- The low k bits reversed within w. -/
def brevGo (u w : Nat) : Nat → Nat
  | 0 => 0
  | k + 1 => brevGo u w k + (if Nat.testBit u k then pow2 (w - 1 - k) else 0)

/-- pos and the effective length of a field control (R321). -/
def fieldCtl (w : Nat) (c : Word) : Nat × Nat :=
  let pos := fld c 0 6
  (pos, if w ≤ pos then 0 else Nat.min (fld c 8 7) (w - pos))

/-- Slot b as a control value: the operand, or IMM (R321). -/
def bOf64 (f : AFmt) (s : State) : Word := if f.i then BitVec.ofInt 64 (signed f.imm.toNat 28) else opB s

/-- sext and zext by n bits (R322). -/
def extendBy (f : AFmt) (s : State) (sg : Bool) : Word :=
  let w := wOf f
  let n := if f.i then fld f.imm 0 7 else fld (opB s) 0 7
  let u := uOf f s
  if n == 0 then putT f.ty.toNat 0
  else if w ≤ n then putT f.ty.toNat (u : Nat)
  else putT f.ty.toNat (if sg then signed u n else (u % pow2 n : Nat))

/-- The six conditions of cmp (R304, R323). -/
def cmpCond (hi : Bool) (md : Nat) (x y : Int) : Bool :=
  if hi then (if md == 0 then decide (y < x) else decide (y ≤ x))
  else if md == 0 then x == y else if md == 1 then x != y else if md == 2 then decide (x < y) else decide (x ≤ y)

/-- A truth value as a token (R323). -/
def bool64 (b : Bool) : Word := if b then 1 else 0

/-- and (R318). -/
def execAnd (f : AFmt) (s : State) : Res := putBits f s (Nat.land (uOf f s) (sOf f s))

/-- or (R318). -/
def execOr (f : AFmt) (s : State) : Res := putBits f s (Nat.lor (uOf f s) (sOf f s))

/-- xor (R318). -/
def execXor (f : AFmt) (s : State) : Res := putBits f s (Nat.xor (uOf f s) (sOf f s))

/-- andn (R318). -/
def execAndn (f : AFmt) (s : State) : Res := putBits f s (Nat.land (uOf f s) (notW (wOf f) (sOf f s)))

/-- orn (R318). -/
def execOrn (f : AFmt) (s : State) : Res := putBits f s (Nat.lor (uOf f s) (notW (wOf f) (sOf f s)))

/-- not (R318). -/
def execNot (f : AFmt) (s : State) : Res := putBits f s (notW (wOf f) (uOf f s))

/-- shl (R319). -/
def execShl (f : AFmt) (s : State) : Res := putBits f s (uOf f s * pow2 (shCount f s) % pow2 (wOf f))

/-- shr (R319). -/
def execShr (f : AFmt) (s : State) : Res := putBits f s (uOf f s / pow2 (shCount f s))

/-- sha (R319). -/
def execSha (f : AFmt) (s : State) : Res := putBits f s (wrapNat (Int.fdiv (signed (uOf f s) (wOf f)) (pow2 (shCount f s) : Int)) (wOf f))

/-- rot (R319). -/
def execRot (f : AFmt) (s : State) : Res := putBits f s (if f.md == 0 then rotl (wOf f) (uOf f s) (shCount f s) else rotl (wOf f) (uOf f s) ((wOf f - shCount f s) % wOf f))

/-- clz (R320). -/
def execClz (f : AFmt) (s : State) : Res := putBits f s (clzW (wOf f) (uOf f s))

/-- ctz (R320). -/
def execCtz (f : AFmt) (s : State) : Res := putBits f s (ctzGo (uOf f s) (wOf f) (wOf f))

/-- popc (R320). -/
def execPopc (f : AFmt) (s : State) : Res := putBits f s (popGo (uOf f s) (wOf f))

/-- brev (R320). -/
def execBrev (f : AFmt) (s : State) : Res := putBits f s (brevGo (uOf f s) (wOf f) (wOf f))

/-- bfx (R321). -/
def execBfx (f : AFmt) (s : State) : Res :=
  let c := fieldCtl (wOf f) (bOf64 f s)
  let x := nbits (uOf f s) c.1 c.2
  aluInt f s (putT f.ty.toNat (if c.2 == 0 then 0 else if tySgn f.ty.toNat then signed x c.2 else (x : Nat)))

/-- bfi (R321). -/
def execBfi (f : AFmt) (s : State) : Res :=
  let c := fieldCtl (wOf f) (bOf64 f s)
  putBits f s (if c.2 == 0 then uOf f s else putFld (uOf f s) c.1 c.2 (bitsT f.ty.toNat (opC s)))

/-- sel (R322). -/
def execSel (f : AFmt) (s : State) : Res := putBits f s (if opC s != 0 then uOf f s else sOf f s)

/-- sext (R322). -/
def execSext (f : AFmt) (s : State) : Res := aluInt f s (extendBy f s true)

/-- zext (R322). -/
def execZext (f : AFmt) (s : State) : Res := aluInt f s (extendBy f s false)

/-- cmp (R323). -/
def execCmp (hi : Bool) (f : AFmt) (s : State) : Res :=
  aluInt f s (bool64 (cmpCond hi f.md.toNat (xOf f s) (yOf f s)))

/-- tst (R323). -/
def execTst (f : AFmt) (s : State) : Res :=
  let z := Nat.land (uOf f s) (sOf f s) == 0
  aluInt f s (bool64 (if f.md == 0 then !z else z))

end Sys2Proof.Machine
end

