-- ==== Sys2Proof/Machine/Address.lean ====
section
/-! DEFINITION. Address arithmetic (R324–R326). -/
namespace Sys2Proof.Machine

/-- b as a signed 64-bit value (R324). -/
def sb (f : AFmt) (s : State) : Int := if f.i then signed f.imm.toNat 28 else signed (opB s).toNat 64

/-- Both ends of a checked form lie in one half (R325). -/
def inHalf (a : Nat) (e : Int) : Bool := decide (0 ≤ e) && sameHalf a e.toNat

/-- A checked address form: a + d within a's half, or F_NONCANON with a and d (R325). -/
def checkedAdd (f : AFmt) (s : State) (d : Int) : Res :=
  .next (shellA f s fun s =>
    let a := (opA s).toNat
    if inHalf a ((a : Int) + d) then send2 f s (BitVec.ofInt 64 ((a : Int) + d))
    else fault s F_NONCANON (opA s) (BitVec.ofInt 64 d))

/-- adda (R325). -/
def execAdda (f : AFmt) (s : State) : Res :=
  if f.md == 1 then aluInt f s (BitVec.ofInt 64 (((opA s).toNat : Int) + sb f s)) else checkedAdd f s (sb f s)

/-- lea (R325). -/
def execLea (f : AFmt) (s : State) : Res := checkedAdd f s (sb f s * (pow2 f.md.toNat : Int))

/-- alignd (R326). -/
def execAlignd (f : AFmt) (s : State) : Res :=
  let b := if f.i then BitVec.ofInt 64 (signed f.imm.toNat 28) else opB s
  let n := Nat.min b.toNat 64
  let low := (opA s).toNat % pow2 n
  aluInt f s (BitVec.ofNat 64 (if f.md == 0 then (opA s).toNat - low else low))

/-- canon (R326). -/
def execCanon (f : AFmt) (s : State) : Res :=
  let a := opA s
  if f.md == 0 then aluInt f s (bool64 (canon a.toNat))
  else if f.md == 1 then aluInt f s (BitVec.ofInt 64 (signed a.toNat 57))
  else .next (shellA f s fun s => if canon (opA s).toNat then send2 f s (opA s) else fault s F_NONCANON (opA s) 0)

end Sys2Proof.Machine
end

