-- ==== Sys2Proof/Machine/Flow.lean ====
section
/-! DEFINITION. Steering, joining, waves, reductions and end-of-stream markers (R350–R356). -/
namespace Sys2Proof.Machine

/-- steer (R350): the shell with its predicate lines replaced by the selection. -/
def execSteer (f : AFmt) (s : State) : Res :=
  .next (shell 0 [f.t0, f.t1] s fun s =>
    let sel := if f.pr == 2 then opP s == 0 else opP s != 0
    send s (if sel then f.t0 else f.t1) (opA s))

/-- gate (R351). -/
def execGate (f : AFmt) (s : State) : Res :=
  .next (shellA f s fun s => if opB s != 0 then send2 f s (opA s) else sendAll s [f.t0, f.t1] .null 0)

/-- join (R351). -/
def execJoin (f : AFmt) (s : State) : Res := .next (shellA f s fun s => send2 f s (opA s))

/-- eos (R356): data becomes a marker; a marker is forwarded as itself. -/
def execEos (f : AFmt) (s : State) : Res := .next (shellA f s fun s => sendAll s [f.t0, f.t1] .eos 0)

/-- eosq (R356). -/
def execEosq (f : AFmt) (s : State) : Res :=
  .next (if isKind .eos s.cur.a then send s f.t1 1 else shellA f s fun s => send s f.t0 (opA s))

/-! ### Single heads and waves -/

/-- The operand of an instance that takes one token. -/
def oneOp (i : Inst) : Operand :=
  match i.a with
  | some o => o
  | none => i.b.getD ⟨.null, 0⟩

/-- The token of the current instance goes on to both targets, with its kind. -/
def forward (f : AFmt) (s : State) : State := sendAll s [f.t0, f.t1] (oneOp s.cur).kind (oneOp s.cur).data

/-- The token of an instance of one operand. -/
def oneToken (i : Inst) : Token := ⟨i.tag, (oneOp i).kind, (oneOp i).data, i.ord, i.adm, none⟩

/-- The context of the current grid instance. -/
def curCtx (s : State) : Option Ctx := ctx? s s.cur.bay s.cur.cell s.cur.ctx

/-- Examine the heads of the current context again. -/
def pairCur (s : State) : State := pairCtx s.cur.bay s.cur.cell s.cur.ctx 64 s

/-- An instance whose phase passes slot a performs no operation (R214). -/
def phased (f : AFmt) (s : State) (eff : State → State) : State := if passes s.cur then forward f s else eff s

/-- What a merge.o delivery does to the merge table (R352). -/
def mergeNote (t : Token) (c : Ctx) : Ctx :=
  if t.kind == .eos then { c with merges := c.merges.filter fun m => m.1 != t.tag.frame }
  else if t.tag.wave == mergeLast c t.tag.frame + 1 then { c with merges := assocSet t.tag.frame t.tag.wave c.merges }
  else c

/-- The ordering merge (R352). -/
def mergeOrdered (f : AFmt) (s : State) : State :=
  match curCtx s with
  | none => forward f s
  | some c =>
    let t := oneToken s.cur
    let other := (headOf s c (if s.cur.a.isSome then .b else .a)).map fun h => h.2.tok
    if mergeAdmits c t other then pairCur (forward f (modCtx s c.bay c.cell c.ctx (mergeNote t))) else requeueCur s

/-- merge.u (R352, R164): arrival order, or merge.o's in a deterministic partition. -/
def execMergeU (f : AFmt) (s : State) : Res := .next (if isDet s s.cur.part then mergeOrdered f s else forward f s)

/-- merge.o (R352). -/
def execMergeO (f : AFmt) (s : State) : Res := .next (mergeOrdered f s)

/-- wadv (R353, R503): any kind of token takes WAVE + 1. -/
def execWadv (f : AFmt) (s : State) : Res :=
  .next (phased f s fun s => forward f (modCur s fun i => { i with tag := { i.tag with wave := i.tag.wave + 1 }, ord := i.ord + 1 }))

/-- Admission of a token by kbound (R354). -/
def openEntry (t : Tag) (ord : Nat) (c : Ctx) : Ctx :=
  match loopRec c t.frame with
  | none => { c with loops := c.loops ++ [⟨t.frame, t.wave, 1, ord⟩] }
  | some _ => { c with loops := updWhere (fun r => r.frame == t.frame) (fun r => { r with n := r.n + 1 }) c.loops }

/-- An admitted token bears the number of its admission in the region, by which equal keys rank (R503). -/
def noteAdm (s : State) : State :=
  match curRegion s with
  | none => s
  | some r => modRegion (modCur s fun i => { i with adm := r.admNo :: i.adm }) r.bay r.idx fun r => { r with admNo := r.admNo + 1 }

/-- kbound (R354). -/
def execKbound (f : AFmt) (s : State) : Res :=
  .next (phased f s fun s => match curCtx s with
  | none => forward f s
  | some c =>
    if anyEos s.cur then pairCur (forward f s)
    else if kboundAdmits c (fld f.imm 0 7) s.cur.tag then
      pairCur (forward f (noteAdm (modCtx s c.bay c.cell c.ctx (openEntry s.cur.tag s.cur.ord))))
    else requeueCur s)

/-- A wreset closes one live entry of a FRAME (R354). -/
def closeEntry (fr : BitVec 20) (c : Ctx) : Ctx :=
  { c with loops := (updWhere (fun r => r.frame == fr) (fun r => { r with n := r.n - 1 }) c.loops).filter fun r => r.n != 0 }

/-- wreset (R354): the link names the kbound context, relative to this cell. A token leaves the loop that admitted it. -/
def execWreset (f : AFmt) (s : State) : Res :=
  let i := s.cur
  let cell := routeCell i.cell f.imm.toNat
  let k := fld f.imm 0 3
  let toward := fun (r : LoopRec) => modCur s fun i => { i with tag := { i.tag with wave := r.e }, ord := r.ord }
  .next (phased f s fun s => match (ctx? s i.bay cell k).bind fun c => loopRec c i.tag.frame with
  | some r =>
    if anyEos i then forward f (toward r)
    else
      let s := modCur (toward r) fun i => { i with adm := i.adm.drop 1 }
      pairCtx i.bay cell k 64 (forward f (modCtx s i.bay cell k (closeEntry i.tag.frame)))
  | none => if anyEos i then forward f s else illop s)

/-! ### Reductions (R78, R355) -/

/-- Combine two values under a red variant: 0 and 1 sum, 2 min, 3 max. -/
def redCombine (ty md : Nat) (c : Ctl) (x y : Word) : Word × Nat :=
  if ty == 4 then
    let r := if decide (md < 2) then faddF f32 c.rm c.ftz (fld x 0 32) (fld y 0 32) else fminmaxF f32 c.ftz (md == 3) false (fld x 0 32) (fld y 0 32)
    (BitVec.ofNat 64 r.1, r.2)
  else
    let a := valT ty x
    let b := valT ty y
    (putT ty (if decide (md < 2) then a + b else if md == 2 then (if a ≤ b then a else b) else (if a ≤ b then b else a)), 0)

/-- The identity of a red variant (R355). -/
def redIdentity (ty md : Nat) : Word :=
  if decide (md < 2) then 0
  else if ty == 4 then BitVec.ofNat 64 (f32.inf (md == 3))
  else putT ty (if md == 2 then hiT ty else loT ty)

/-- A first value, placed as its type places it (R55). -/
def redValue (ty : Nat) (x : Word) : Word := if ty == 4 then BitVec.ofNat 64 (fld x 0 32) else putT ty (valT ty x)

/-- Take one contribution: a null is empty. -/
def redTake (ty md : Nat) (c : Ctl) (o : Operand) (r : RedState × Nat) : RedState × Nat :=
  if o.kind != .data then r
  else match r.1.acc with
    | none => ({ r.1 with acc := some (redValue ty o.data) }, r.2)
    | some a =>
      let x := redCombine ty md c a o.data
      ({ r.1 with acc := some x.1 }, orF r.2 x.2)

/-- Combine from the buffer while it holds the wave NEXT. -/
def redDrain (ty md : Nat) (c : Ctl) : Nat → RedState × Nat → RedState × Nat
  | 0, r => r
  | n + 1, r =>
    match assoc r.1.next.toNat r.1.buf with
    | none => r
    | some o =>
      let t := redTake ty md c o r
      redDrain ty md c n ({ t.1 with next := t.1.next + 1, buf := t.1.buf.filter fun x => x.1 != r.1.next.toNat }, t.2)

/-- Set NEXT. The buffer's places count from it (R355), so that a token keeps its place. -/
def redReach (r : RedState) (next : BitVec 8) : RedState :=
  { r with next := next, buf := r.buf.map fun x => ((BitVec.ofNat 8 x.1 - r.next + next).toNat, x.2) }

/-- red (R355). What the buffer holds of later waves when the reduction closes stays in its places, whichever FRAME comes next.
DESIGN CHOICE, log 114. -/
def execRed (f : AFmt) (s : State) : Res :=
  .next (phased f s fun s => match curCtx s with
  | none => s
  | some c =>
    let t := oneToken s.cur
    let ty := f.ty.toNat
    let md := f.md.toNat
    if !redAdmits c (md == 1) t then requeueCur s
    else
      let ctl := (curCtl s).getD ⟨0, false, 0⟩
      let r0 := { redReach c.red (redNext c.red t.tag.frame) with frame := some t.tag.frame }
      if t.kind == .eos then
        let s := modCtx s c.bay c.cell c.ctx fun c =>
          { c with red := { redReach r0 t.tag.wave with frame := none, last := some t.tag.frame, acc := none } }
        let s := sendAll s [f.t0, f.t1] .data (r0.acc.getD (redIdentity ty md))
        pairCur (sendAll s [f.t0, f.t1] .eos 0)
      else
        let r := if md == 1 then redTake ty md ctl (oneOp s.cur) (r0, 0)
          else redDrain ty md ctl 9 ({ r0 with buf := assocSet t.tag.wave.toNat (oneOp s.cur) r0.buf }, 0)
        pairCur (raiseFl (modCtx s c.bay c.cell c.ctx fun c => { c with red := r.1 }) r.2))

end Sys2Proof.Machine
end

