-- ==== Sys2Proof/Machine/Calls.lean ====
section
/-! DEFINITION. Exits, calls, returns, spawns and joins (R51, R175, R357–R363). -/
namespace Sys2Proof.Machine

/-- exit (R277, R357): with a null on a or p it is not chosen and sends nothing; a null on b is told on to T0 (R27). -/
def execExit (f : XFmt) (s : State) : Res :=
  .next (if anyEos s.cur then sendAll s [f.t0] .eos 0
    else if isKind .null s.cur.a || isKind .null s.cur.p || !predOk f.pr s then s
    else if isKind .null s.cur.b then sendAll s [f.t0] .null 0
    else match curBlock s with
      | none => s
      | some b =>
        match b.exit with
        | some x => fault s F_MULTIEXIT (BitVec.ofNat 64 x.index) 0
        | none =>
          let dest : Option Word := if f.md == 2 then none else some (xAddr f (f.md == 1) s)
          let s := modBlock s b.part b.frame b.seq fun b => { b with exit := some ⟨s.cur.idx, dest⟩ }
          let s := match youngerBlocks s b.part b.frame b.seq with
            | y :: _ => if dest == some y.addr then s else discardYounger s b.part b.frame b.seq
            | [] => s
          send s f.t0 (b.addr + BitVec.ofNat 64 (16 + 8 * hCount b.h0)))

/-- The slot that EX and MOD[49:48] name in the block entered, as a target value (R359). -/
def entrySlot (f : XFmt) : Nat := fld f.md 0 2 * 128 + f.ex.toNat

/-- The accesses of the current instance's grid stream that come before it are performed: those of its wave that have their
place, those that a checkpoint holds, and those of lower waves (R129, R139). -/
def streamSettled (s : State) : Bool := !chainPending s && !behindHeld s s.cur && (!waveBehind s s.cur 64 || streamStuck s s.cur 64)

/-- exitg (R358): its token goes to the front end of the bay, behind the accesses of its stream (R139). -/
def execExitg (f : XFmt) (s : State) : Res :=
  .next (shell f.pr [f.t0] s fun s =>
    if !streamSettled s then waitCur s
    else
      let x : ExitgTok := ⟨s.cur.part, s.cur.bay, s.cur.grid.getD 0, curTok s .data (opA s), xAddr f (bitAt f.md 2) s,
        f.ex.toNat, slotOf (fld f.md 0 2)⟩
      { s with exitgs := s.exitgs ++ [x] })

/-- The rank of an exitg token: the grid key of its wave (R148, R358, R503). -/
def exitgKey (s : State) (x : ExitgTok) : List Nat :=
  gridKey 0 x.tok.ord 0 (((region? s x.bay x.region).map (·.rank)).getD []) x.tok.adm

/-- Another exitg token of the same frame comes first: in a deterministic partition each of a lower wave, which may also be
still in flight in a region; else the earlier one (R358). -/
def exitgBehind (s : State) (n : Nat) (x : ExitgTok) : Bool :=
  let same := fun (y : ExitgTok) => y.part == x.part && y.tok.tag.frame == x.tok.tag.frame
  if isDet s x.part then
    (s.exitgs.any fun y => same y && keyLt (exitgKey s y) (exitgKey s x)) || lowerWaves s x.part x.tok.tag.frame.toNat (exitgKey s x)
  else (s.exitgs.take n).any same

/-- EXITG_RESUME (R358). -/
def execExitgResume (n : Nat) (s : State) : Res :=
  match s.exitgs[n]? with
  | none => .next s
  | some x =>
    let p := x.part
    let f := x.tok.tag.frame.toNat
    let t := slotNo x.slot * 128 + x.idx
    let out := { s with exitgs := dropAt n s.exitgs }
    match frame? s p f with
    | none =>
      .next (tagRange out ⟨p, x.tok, .dest (BitVec.ofNat 17 (x.bay * 1024 + t)), none, 255, none⟩ (inRange s p f))
    | some fr =>
      if !fr.parked || fr.fault.isSome || !fr.resident || !(blocksOf s p f).isEmpty || stopped s p || exitgBehind s n x then .next s
      else
        let s := modFrame out p f fun fr => { fr with parked := false, nextAddr := some x.addr, resumed := some x.tok.ord }
        .next (entryToken s p f 0 t x.tok.data)

/-! ### Making frames (R359–R362) -/

/-- The ordinal of the current call or spawn word in its block (R359). -/
def childOrd (s : State) (fr : Frame) (b : Block) : Nat :=
  fr.co + ((b.words.take s.cur.idx).filter fun w => opOf w == 0x7D || opOf w == 0x7F).length

/-- The effect of a call or spawn on the current frame and block; it waits until the block is the oldest, and until every
access before it is performed (R139, R359). -/
def asMaker (f : XFmt) (s : State) (eff : State → Frame → Word → State) : Res :=
  .next (shell f.pr [f.t0] s fun s =>
    match curBlock s, frame? s s.cur.part (curFrame s) with
    | some b, some fr =>
      if !curSettled s then waitCur s
      else if isDet s fr.part then
        (match childName fr.fname (childOrd s fr b) with
         | some n => eff s fr n
         | none => fault s F_DETVIOL s.cur.word 0)
      else eff s fr 0
    | _, _ => s)

/-- A frame that the current instance makes: the maker's priority and tree, the block FPC (R67, R168, R266). -/
def madeFrame (s : State) (maker : Frame) (num : Nat) (name : Word) : Frame :=
  { newFrame maker.part num 0 0 name with
    pri := maker.pri, tree := maker.tree, fpc := (blockFpc s maker.part maker.num s.cur.seq).getD maker.fpc }

/-- call (R174, R359, R360). -/
def execCall (f : XFmt) (s : State) : Res :=
  asMaker f s fun s fr name =>
    let p := fr.part
    let addr := xAddr f (bitAt f.md 2) s
    match freeFrame s p with
    | none => waitCur s
    | some num =>
      let room := match pickBay s p (some fr.bay) with
        | some bay => Room.row s bay
        | none => makeRoom s p fr.bay
      match room with
      | .wait s => waitCur s
      | .spent => fault s F_FRAMEOVF addr 0
      | .row s bay =>
        let link : CallLink := ⟨s.cur.tag.frame, s.cur.tag.wave, s.cur.tag.ctx, s.cur.ord, s.cur.seq, f.t0⟩
        match startFrame s { madeFrame s fr num name with link := some link } bay addr with
        | .error s => waitCur s
        | .ok s => entryToken (noteAct s) p num 0 (entrySlot f) (opA s)

/-- What the shell sends for a ret that received a null or a marker (R294). -/
def retTold (f : AFmt) (s : State) : State :=
  if anyEos s.cur then sendAll s [f.t0, f.t1] .eos 0 else if anyNull s.cur then sendAll s [f.t0, f.t1] .null 0 else s

/-- ret (R361): a value or a null for the return hold. -/
def execRet (f : AFmt) (s : State) : Res :=
  .next (match curBlock s with
    | none => sendAll s [f.t0, f.t1] .null 0
    | some b =>
      let v : Option Word := if anyNull s.cur || anyEos s.cur then none else some (opA s)
      if v.isSome && !predOk f.pr s then s
      else match b.ret with
        | some old => faultAux s F_DUPTOK (old.2.getD 0) (v.getD 0) 0xC00
        | none => modBlock (retTold f s) b.part b.frame b.seq fun b => { b with ret := some (s.cur.idx, v) })

/-- The room that a spawn finds (R175): a row without a spill, else the parent that waits at joinc or the youngest
frame of the bay spills. `home` is the maker's bay. -/
def spawnRoom (s : State) (p home : Nat) : Room :=
  match roomiest s p with
  | some b => .row s b
  | none =>
    match spillBay s p home with
    | none => .wait s
    | some bay =>
      match (spillable s p bay).filter fun g => atJoinc s p g.num with
      | [] => roomBySpill s bay (spillable s p bay)
      | l => (match roomBySpill s bay l with
        | .spent => roomBySpill s bay (spillable s p bay)
        | r => r)

/-- The deferred spawn records of a bay. -/
def deferredOf (s : State) (bay : Nat) : List SpawnRec := s.deferred.filter fun d => d.bay == bay

/-- spawn (R175, R359, R362). -/
def execSpawn (f : XFmt) (s : State) : Res :=
  asMaker f s fun s fr name =>
    let p := fr.part
    let addr := xAddr f (bitAt f.md 2) s
    let counted := fun (s : State) => modFrame s p fr.num fun x => { x with cc := x.cc + 1 }
    let defer := fun (s : State) =>
      if 16 ≤ (deferredOf s fr.bay).length then fault s F_QUOTA addr 0
      else
        let m := madeFrame s fr 0 name
        let d : SpawnRec := ⟨p, fr.bay, some fr.num, addr, opA s, f.ex.toNat, slotOf (fld f.md 0 2), m.fpc, name, m.pri, m.tree⟩
        send (noteAct (counted { s with deferred := s.deferred ++ [d] })) f.t0 0
    if 0xFFFF ≤ fr.cc then waitCur s
    else match freeFrame s p with
      | none => defer s
      | some num =>
        match spawnRoom s p fr.bay with
        | .wait s => waitCur s
        | .spent => defer s
        | .row s bay =>
          match startFrame s { madeFrame s fr num name with parent := some fr.num } bay addr with
          | .error s => waitCur s
          | .ok s => send (noteAct (counted (entryToken s p num 0 (entrySlot f) (opA s)))) f.t0 1

/-- DEFERRED_SPAWN_ALLOCATION (R174, R175, R504): the oldest record of the partition takes a free row, in the bay that has
most of them, and a FRAME value; its turn in the bay comes after trap frames and spilled frames whose append area is full. -/
def execDeferredSpawnAllocation (p bay : Nat) (s : State) : Res :=
  match s.deferred.find? fun d => d.part == p, freeFrame s p with
  | some d, some num =>
    if roomiest s p != some bay || trapWants s p || stopped s p ||
        (spilledOf s p bay).any (appendFull s) then .next s
    else
      let fr := { newFrame p num 0 0 d.fname with pri := d.pri, tree := d.tree, fpc := d.fpc, parent := d.parent }
      (match startFrame s fr bay d.addr with
       | .error s => .next s
       | .ok s => .next (entryToken { s with deferred := s.deferred.erase d } p num 0 (slotNo d.slot * 128 + d.idx) d.arg))
  | _, _ => .next s

/-- joinc (R363). -/
def execJoinc (f : AFmt) (s : State) : Res :=
  .next (shellA f s fun s =>
    match frame? s s.cur.part (curFrame s) with
    | none => s
    | some fr =>
      if fr.cc != 0 then waitCur s
      else modFrame (send2 f s (BitVec.ofNat 64 fr.jn)) fr.part fr.num fun x => { x with jn := 0 })

end Sys2Proof.Machine
end

