-- ==== Sys2Proof/Machine/FloatArith.lean ====
section
/-! DEFINITION. Floating-point arithmetic, special functions, rounding, classification and comparison (R328–R338). -/
namespace Sys2Proof.Machine

/-- Map the elements of one, two or three operands (R57, R328). -/
def map1 (ty : Nat) (op : Fmt → Nat → Nat × Nat) (a : Word) : Word × Nat :=
  joinElems ty ((elems ty a).map fun x => op (fmtOf ty) x)

def map2 (ty : Nat) (op : Fmt → Nat → Nat → Nat × Nat) (a b : Word) : Word × Nat :=
  joinElems ty (((elems ty a).zip (elems ty b)).map fun x => op (fmtOf ty) x.1 x.2)

def map3 (ty : Nat) (op : Fmt → Nat → Nat → Nat → Nat × Nat) (a b c : Word) : Word × Nat :=
  joinElems ty (((elems ty a).zip ((elems ty b).zip (elems ty c))).map fun x => op (fmtOf ty) x.1 x.2.1 x.2.2)

/-- A special function: type f32 alone, rm and ftz unread (R334). -/
def special (f : AFmt) (s : State) (op : Nat → Nat × Nat) : Res :=
  aluFp f s fun _ => joinElems 4 ((elems 4 (opA s)).map op)

/-- A floating operation that reads no control and raises no flag: it waits for its block FPC all the same (R62, R345). -/
def plainFp (f : AFmt) (s : State) (v : Word) : Res := aluFp f s fun _ => (v, 0)

/-- A sign-bit operation (R333). -/
def signOp (f : AFmt) (s : State) (v : Word × Nat) : Res := plainFp f s v.1

/-- fadd (R330). -/
def execFadd (f : AFmt) (s : State) : Res :=
  aluFp f s fun c => map2 f.ty.toNat (fun g => faddF g c.rm c.ftz) (opA s) (bOf f s)

/-- fsub (R330). -/
def execFsub (f : AFmt) (s : State) : Res :=
  aluFp f s fun c => map2 f.ty.toNat (fun g => fsubF g c.rm c.ftz) (opA s) (bOf f s)

/-- fmul (R330). -/
def execFmul (f : AFmt) (s : State) : Res :=
  aluFp f s fun c => map2 f.ty.toNat (fun g => fmulF g c.rm c.ftz) (opA s) (bOf f s)

/-- fdiv (R330). -/
def execFdiv (f : AFmt) (s : State) : Res :=
  aluFp f s fun c => map2 f.ty.toNat (fun g => fdivF g c.rm c.ftz) (opA s) (bOf f s)

/-- fma (R330). -/
def execFma (f : AFmt) (s : State) : Res :=
  aluFp f s fun c => map3 f.ty.toNat (fun g => fmaF g c.rm c.ftz) (opA s) (bOf f s) (opC s)

/-- fmin (R332). -/
def execFmin (f : AFmt) (s : State) : Res :=
  aluFp f s fun c => map2 f.ty.toNat (fun g => fminmaxF g c.ftz false (f.md == 1)) (opA s) (bOf f s)

/-- fmax (R332). -/
def execFmax (f : AFmt) (s : State) : Res :=
  aluFp f s fun c => map2 f.ty.toNat (fun g => fminmaxF g c.ftz true (f.md == 1)) (opA s) (bOf f s)

/-- fabs (R333). -/
def execFabs (f : AFmt) (s : State) : Res := signOp f s (map1 f.ty.toNat (fun g x => (fabsF g x, 0)) (opA s))

/-- fneg (R333). -/
def execFneg (f : AFmt) (s : State) : Res := signOp f s (map1 f.ty.toNat (fun g x => (fnegF g x, 0)) (opA s))

/-- fcpsgn (R333). -/
def execFcpsgn (f : AFmt) (s : State) : Res :=
  signOp f s (map2 f.ty.toNat (fun g x y => (fcpsgnF g x y, 0)) (opA s) (bOf f s))

/-- fsqrt (R330). -/
def execFsqrt (f : AFmt) (s : State) : Res := aluFp f s fun c => map1 4 (fun g => fsqrtF g c.rm c.ftz) (opA s)

/-- fround (R335): the mode is MOD[1:0], not rm. -/
def execFround (f : AFmt) (s : State) : Res :=
  aluFp f s fun c => map1 f.ty.toNat (fun g => froundF g f.md.toNat c.ftz) (opA s)

/-- fclass (R336): the masks stand 16 bits apart. -/
def execFclass (f : AFmt) (s : State) : Res :=
  let l := (elems f.ty.toNat (opA s)).map (fclassF (fmtOf f.ty.toNat))
  plainFp f s (BitVec.ofNat 64 (l.getD 0 0 + l.getD 1 0 * pow2 16))

/-- fcmp (R337). -/
def execFcmp (hi : Bool) (f : AFmt) (s : State) : Res :=
  aluFp f s fun c =>
    let r := fcmpF ((if hi then 4 else 0) + f.md.toNat) c.ftz (fld (opA s) 0 32) (fld (bOf f s) 0 32)
    (bool64 r.1, r.2)

/-- fdot2 (R338). -/
def execFdot2 (f : AFmt) (s : State) : Res :=
  aluFp f s fun c =>
    let a := elems f.ty.toNat (opA s)
    let b := elems f.ty.toNat (bOf f s)
    joinElems 4 [fdot2F (fmtOf f.ty.toNat) c.rm c.ftz (a.getD 0 0) (a.getD 1 0) (b.getD 0 0) (b.getD 1 0) (fld (opC s) 0 32)]

/-- frcp (R334). -/
def execFrcp (f : AFmt) (s : State) : Res := special f s frcpF

/-- frsq (R334). -/
def execFrsq (f : AFmt) (s : State) : Res := special f s frsqF

/-- fexp2 (R334). -/
def execFexp2 (f : AFmt) (s : State) : Res := special f s fexp2F

/-- flog2 (R334). -/
def execFlog2 (f : AFmt) (s : State) : Res := special f s flog2F

/-- ftanh (R334). -/
def execFtanh (f : AFmt) (s : State) : Res := special f s ftanhF

end Sys2Proof.Machine
end

