-- ==== Sys2Proof/Machine/Convert.lean ====
section
/-! DEFINITION. Conversion (R339–R344). -/
namespace Sys2Proof.Machine

/-- A conversion that may fault under policy 0b11 (R342): no token and no flag then. -/
def convFault (f : AFmt) (s : State) (r : Ctl → Option (Nat × Nat)) : Res :=
  .next (shellA f s fun s =>
    match curCtl s with
    | none => waitCur s
    | some c =>
      match r c with
      | some v => send2 f (raiseFl s v.2) (BitVec.ofNat 64 v.1)
      | none => fault s F_CVTOVF (opA s) (BitVec.ofNat 64 (f.ty.toNat * 4 + f.md.toNat)))

/-- The rounding mode that cvtfi names; .dyn takes rm (R340). -/
def cvtMode (c : Ctl) (md : Nat) : Nat := if md == 0 then c.rm else md - 1

/-- cvtfi (R340). -/
def execCvtfi (f : AFmt) (s : State) : Res :=
  aluFp f s fun c =>
    let r := cvtfiF (cvtMode c f.md.toNat) c.ftz (loT f.ty.toNat) (hiT f.ty.toNat) (fld (opA s) 0 32)
    (putT f.ty.toNat r.1, r.2)

/-- cvtif (R341). -/
def execCvtif (f : AFmt) (s : State) : Res :=
  convFault f s fun c => cvtifF (fmtOf f.ty.toNat) c.rm f.md.toNat (valT (fld f.imm 0 2) (opA s))

/-- fcvt (R342). -/
def execFcvt (f : AFmt) (s : State) : Res :=
  convFault f s fun c => narrowF (fmtOf f.ty.toNat) c.rm c.ftz f.md.toNat (fld (opA s) 0 32)

/-- Element k of a pair widened to f32 (R343). -/
def widenElem (f : AFmt) (s : State) (c : Ctl) (k : Nat) : Nat × Nat :=
  widenF (fmtOf f.ty.toNat) c.ftz ((elems f.ty.toNat (opA s)).getD k 0)

/-- fwid (R343). -/
def execFwid (f : AFmt) (s : State) : Res := aluFp f s fun c => joinElems 4 [widenElem f s c f.md.toNat]

/-- pack2 (R339, R344): no floating operation, but one of the conversion instructions, which wait for the block FPC (R345). -/
def execPack2 (f : AFmt) (s : State) : Res :=
  let k := if f.md == 0 then 0 else 16
  plainFp f s (BitVec.ofNat 64 (fld (opA s) k 16 + fld (bOf f s) k 16 * pow2 16))

/-- unpack (R343): element 0 to T0 and element 1 to T1. -/
def execUnpack (f : AFmt) (s : State) : Res :=
  .next (shellA f s fun s =>
    match curCtl s with
    | none => waitCur s
    | some c =>
      let e0 := widenElem f s c 0
      let e1 := widenElem f s c 1
      send (send (raiseFl s (orF e0.2 e1.2)) f.t0 (BitVec.ofNat 64 e0.1)) f.t1 (BitVec.ofNat 64 e1.1))

end Sys2Proof.Machine
end

