-- ==== Sys2Proof/Machine/Sched.lean ====
section
/-! DEFINITION. The scheduler: the host inbox (R190–R192), launch records and their queues (R169–R174), trap frames
(R450, R453). -/
namespace Sys2Proof.Machine

/-! ### The inbox -/

/-- Beats that the inbox of a partition holds, whole messages and parts of messages. -/
def inboxUsed (t : Part) : Nat := (t.inbox.map List.length).sum + t.asm0.length + t.asm1.length

/-- INBOX_FREE (R191). -/
def inboxFree (t : Part) : Nat := 256 - inboxUsed t

/-- A 32-bit counter that stops at all ones. -/
def satInc (x : BitVec 32) : BitVec 32 := if x == 0xFFFFFFFF then x else x + 1

/-- A beat joins a link's message; a message whose last beat has landed is whole (R192). -/
def joinBeat (l : List Beat) (b : Beat) : List Beat × Option (List Beat) :=
  let m := l ++ [b]
  if fld (m.headD 0) 96 2 + 1 ≤ m.length then ([], some m) else (m, none)

/-- A whole message takes its place (R192): behind the others, but link 0's before those of link 1 that came whole in the same
cycle. -/
def joinInbox (t : Part) (link cycle : Nat) (m : List Beat) : Part :=
  let late := if t.tail1.1 == cycle then t.tail1.2 else 0
  if link == 0 then
    let n := t.inbox.length - late
    { t with inbox := t.inbox.take n ++ m :: t.inbox.drop n }
  else { t with inbox := t.inbox ++ [m], tail1 := (cycle, late + 1) }

/-- A host write of 16 bytes lands in a partition's inbox. -/
def appendBeat (t : Part) (link cycle : Nat) (b : Beat) : Part :=
  let r := joinBeat (if link == 0 then t.asm0 else t.asm1) b
  let t := if link == 0 then { t with asm0 := r.1 } else { t with asm1 := r.1 }
  match r.2 with
  | some m => joinInbox t link cycle m
  | none => t

/-- A PCIe link is up (R461). -/
def linkUp (s : State) (link : Nat) : Bool := s.pkg.pcieUp.getD link false

/-- INBOX_APPEND (R190–R192): a write that comes over one of the two links, while that one is up (R461). -/
def execInboxAppend (vf link off : Nat) (bytes : List Byte) (s : State) : Res :=
  .next (if !linkUp s link || !live s vf || 0x1000 ≤ off then s
    else if bytes.length != 16 || off % 16 != 0 || inboxFree (part s vf) == 0 then
      modPart s vf fun t => { t with drops := satInc t.drops }
    else modPart s vf fun t => appendBeat t link s.pkg.cycle (BitVec.ofNat 128 (ofBytes bytes)))

/-- What an offset of a partition's aperture reads as in a state (R190, R191): INBOX_FREE, the drop count, and 0 elsewhere and
while the partition is not live. A host read made in a cycle takes it at that cycle's end (R270): hostRead. -/
def readAperture (s : State) (vf off : Nat) : Word :=
  if !live s vf then 0
  else if off == 0x1000 then BitVec.ofNat 64 (inboxFree (part s vf))
  else if off == 0x1008 then BitVec.setWidth 64 (part s vf).drops
  else 0

/-! ### Launch records (R169, R170) -/

/-- Beat k of a record. -/
def recBeat (r : BitVec 512) (k : Nat) : Beat := BitVec.extractLsb' (128 * k) 128 r

/-- The fields of a record. -/
def recPri (r : BitVec 512) : Nat := fld (recBeat r 0) 112 2
def recOrd (r : BitVec 512) : Nat := fld (recBeat r 0) 88 8
def recEctx (r : BitVec 512) : BitVec 3 := BitVec.extractLsb' 85 3 (recBeat r 0)
def recCont (r : BitVec 512) : Word := BitVec.extractLsb' 0 64 (recBeat r 0)
def recEntry (r : BitVec 512) : Word := BitVec.extractLsb' 64 64 (recBeat r 1)
def recT0 (r : BitVec 512) : Tgt := BitVec.extractLsb' 54 10 (recBeat r 1)
def recT1 (r : BitVec 512) : Tgt := BitVec.extractLsb' 44 10 (recBeat r 1)
def recA0 (r : BitVec 512) : Word := BitVec.extractLsb' 0 64 (recBeat r 2)
def recA1 (r : BitVec 512) : Word := BitVec.extractLsb' 64 64 (recBeat r 2)
def recLease (r : BitVec 512) : Nat := fld (recBeat r 3) 0 64

/-- The record of four beats. -/
def recOf (m : List Beat) : BitVec 512 := m.getD 3 0 ++ m.getD 2 0 ++ m.getD 1 0 ++ m.getD 0 0

/-- An argument target is refused. -/
def argBad (t : Tgt) : Bool := bitAt t 9 && t != nullT

/-- The check of R170 that a record fails, with its detail words. HND counts as a reserved field here, since R169 gives it as 0.
DESIGN CHOICE, log 100. -/
def recordBad (s : State) (p : Nat) (r : BitVec 512) : Option (BitVec 8 × Word × Word) :=
  let b0 := recBeat r 0
  let hi : Word := BitVec.extractLsb' 64 64 b0
  if fld b0 120 8 != 1 || fld b0 116 4 != 0 || fld b0 114 2 != 0 || fld b0 96 16 != 3 || fld b0 64 21 != 0 || fld (recBeat r 1) 0 44 != 0 ||
      fld (recBeat r 3) 64 64 != 0 || argBad (recT0 r) || argBad (recT1 r) then some (F_ILLOP, hi, 0)
  else if !canon (recEntry r).toNat then some (F_NONCANON, recEntry r, 0)
  else if fld (recEntry r) 0 3 != 0 then some (F_ALIGN, recEntry r, 8)
  else if isDet s p && recOrd r == 0 then some (F_DETVIOL, 0, 0)
  else if (part s p).enBudget.toNat < recLease r then some (F_ENERGY, 0, (part s p).enUsed)
  else none

/-- Append a record to its queue, or to its overflow in the cellar (R172); unappended (false) when the quota is spent or a page
of the cellar is missing (R506). -/
def appendLaunch (s : State) (p : Nat) (r : Queued) : State × Bool :=
  let k := recPri r.rcd
  let t := part s p
  let q := t.launch.getD k []
  let o := t.overflow.getD k []
  if q.length < 64 && o.isEmpty then (modPart s p fun t => { t with launch := t.launch.set k (q ++ [r]) }, true)
  else if cellarHas s p 64 then
    (match cellarItem s p 64 true with
     | .error s => (s, false)
     | .ok s => (modPart s p fun t => { t with overflow := t.overflow.set k (o ++ [r]) }, true))
  else (s, false)

/-- The inbox without its head message: one of link 1 that came whole in a cycle no longer stands behind those of link 0 that
come whole in it (R192). -/
def dropHead (t : Part) : Part :=
  { t with inbox := t.inbox.drop 1, tail1 := (t.tail1.1, if t.inbox.length ≤ t.tail1.2 then t.tail1.2 - 1 else t.tail1.2) }

/-- Take the head message off the inbox. -/
def popInbox (s : State) (p : Nat) : State := modPart s p dropHead

/-- The record due next: the lowest by a time, the earliest placed first. -/
def dueBy (time : Timed → Nat) (t : Part) (now : Word) : Option Timed :=
  (t.timed.filter fun x => decide (x.reach ≤ now.toNat)).foldl (fun acc x => match acc with
    | none => some x
    | some y => if time x < time y then some x else some y) none

/-- The record due next: the one that reached its start time first (R171). -/
def dueTimed (t : Part) (now : Word) : Option Timed := dueBy (·.reach) t now

/-- A timed record whose time has come can enter its queue; the host's come after it (R171). -/
def timedFirst (s : State) (p : Nat) : Bool := (dueTimed (part s p) s.pkg.podTime).any fun x => (appendLaunch s p ⟨x.rcd, false⟩).2

/-- HOST_LAUNCH_INTAKE (R170–R172). -/
def execHostLaunchIntake (p : Nat) (s : State) : Res :=
  match (part s p).inbox with
  | [] => .next s
  | m :: _ =>
    if stopped s p || fld (m.headD 0) 120 8 != 1 || timedFirst s p then .next s
    else
      let r := recOf m
      match recordBad s p r with
      | some b => .next (deliverN (popInbox s p) { recBase b.1 p with flags := flHost, g4 := b.2.1, g5 := b.2.2 } .nothing)
      | none =>
        match appendLaunch s p ⟨r, true⟩ with
        | (s, true) => .next (popInbox s p)
        | (s, false) => .next s

/-- Release a timed record: it enters its queue, or stays in the table while the cellar has no room for it (R172). -/
def releaseTimed (s : State) (p : Nat) (x : Timed) : State :=
  match appendLaunch s p ⟨x.rcd, false⟩ with
  | (s, false) => s
  | (s, true) => modPart s p fun t => { t with timed := t.timed.erase x }

/-- TIMED_LAUNCH_RELEASE (R171, R172): the record due next. One that finds no room keeps the later due ones behind it, of every
priority, while host records of other priorities are taken. DESIGN CHOICE, log 122. -/
def execTimedLaunchRelease (p : Nat) (s : State) : Res :=
  .next (if stopped s p then s
    else match dueTimed (part s p) s.pkg.podTime with
      | none => s
      | some x => releaseTimed s p x)

/-! ### Admission (R173, R174) -/

/-- What a tree adds to S: the unspent part of its lease; once its root has ended, of what elease has granted since, which is
spent last (R269, R437; the order is log 120). -/
def leaseShare (x : Tree) : Nat := if x.live then x.lease else Nat.min x.late x.lease

/-- S: the unspent parts of the leases of live roots, and of later grants (R173, R437). -/
def leaseSum (t : Part) : Nat := (t.trees.map leaseShare).sum

/-- H: EN_BUDGET − EN_USED − S, exact (R437). -/
def headroom (t : Part) : Int := (t.enBudget.toNat : Int) - t.enUsed.toNat - leaseSum t

/-- The room that a launch or a trap frame finds (R174). -/
def launchRoom (s : State) (p : Nat) : Room :=
  match roomiest s p with
  | some b => .row s b
  | none => makeRoom s p (hostBay s p)

/-- Claimants come before a launch (R450, R504): a trap record and a deferred spawn for a row and a FRAME value, free or to come,
and a spilled frame for the free row that the launch would take. -/
def rowClaimed (s : State) (p : Nat) : Bool :=
  trapWants s p || (s.deferred.any fun d => d.part == p) || (match roomiest s p with
    | some b => !(spilledOf s p b).isEmpty
    | none => false)

/-- Records return from the overflow in their order as the queue drains (R172, R506). -/
def refill (p : Nat) (s : State) (k : Nat) : State :=
  let t := part s p
  let q := t.launch.getD k []
  let o := t.overflow.getD k []
  let n := Nat.min (64 - q.length) o.length
  if n == 0 then s
  else match cellarItem s p (64 * n) false with
    | .error s => s
    | .ok s => modPart s p fun t => { t with launch := t.launch.set k (q ++ o.take n), overflow := t.overflow.set k (o.drop n) }

/-- All four queues. -/
def refillAll (s : State) (p : Nat) : State := (List.range 4).foldl (refill p) s

/-- The next number for a launch tree. -/
def nextTree (t : Part) : Nat := t.trees.foldl (fun n x => Nat.max n (x.id + 1)) 1

/-- Start a root frame for a record (R50, R169, R173). -/
def startRoot (s : State) (p k num bay : Nat) (q : Queued) : Except State State :=
  let t := part s p
  let r := q.rcd
  let id := nextTree t
  let fr := { newFrame p num 0 0 (BitVec.ofNat 64 (recOrd r * pow2 56)) with isRoot := true, tree := id, pri := recPri r, cont := recCont r, host := q.host }
  match startFrame s fr bay (recEntry r) with
  | .error s => .error s
  | .ok s =>
    let s := modPart s p fun t =>
      { t with
        launch := t.launch.set k ((t.launch.getD k []).drop 1)
        trees := t.trees ++ [⟨id, fnameOf s p num, recLease r, true, false, 0⟩]
        roots := if t.det then t.roots ++ [recOrd r] else t.roots }
    let s := if recT0 r == nullT then s else entryToken s p num (recEctx r) (recT0 r).toNat (recA0 r)
    .ok (if recT1 r == nullT then s else entryToken s p num (recEctx r) (recT1 r).toNat (recA1 r))

/-- Try to admit the head of a priority (R173); none once EN_USED has reached EN_BUDGET (R269). -/
def admitHead (s : State) (p k : Nat) : Option State :=
  let t := part s p
  match t.launch.getD k [], freeFrame s p with
  | r :: _, some num =>
    if (t.det && t.roots.contains (recOrd r.rcd)) || headroom t < recLease r.rcd || decide (t.enBudget.toNat ≤ t.enUsed.toNat) || rowClaimed s p then none
    else match launchRoom s p with
      | .row s bay => (match startRoot s p k num bay r with | .ok s => some s | .error s => some s)
      | _ => none
  | _, _ => none

/-- LAUNCH_ADMISSION (R173): the first head, from L0 down, that meets every condition. -/
def execLaunchAdmission (p : Nat) (s : State) : Res :=
  if stopped s p || !live s p then .next s
  else
    let s := refillAll s p
    match (List.range 4).findSome? (admitHead s p) with
    | some s => .next (refillAll s p)
    | none => .next s

/-! ### Trap frames (R450, R453, R454) -/

/-- TRAP_VEC is 0 at delivery (R453): the record goes to the hypervisor and the partition halts whole. -/
def haltWhole (s : State) (p : Nat) (x : TrapItem) : State :=
  let s := modPart s p fun t => { t with preHalted := true, haltRec := some x, trapQ := t.trapQ.drop 1 }
  hfqWrite s { x.rcd with flags := x.rcd.flags ||| flNovec } false

/-- A trap frame's allocation is notified to the host, with SRC 0x04 (R194). Its vector is the part's own, and its DATA a free
value. DESIGN CHOICE, log 98. -/
def notifyFault (s : State) (p : Nat) : State :=
  let v := freshWord s
  interrupt v.2 p 4 Sys2Proof.Config.faultVector.toNat v.1

/-- The record of a region that froze in this cycle: another instance may still be the one that records (R452). -/
def faultsNow (s : State) (x : TrapItem) : Bool :=
  match x.victim with
  | .region b g => ((region? s b g).map fun r => r.fault.isSome && r.faultAt == s.pkg.cycle).getD false
  | _ => false

/-- TRAP_FRAME_ALLOCATION (R91, R450, R453). In a deterministic partition the FNAME of a trap frame is a free value (log 20). -/
def execTrapFrameAllocation (p : Nat) (s : State) : Res :=
  match (part s p).trapQ with
  | [] => .next s
  | x :: _ =>
    if stopped s p || faultsNow s x then .next s
    else if x.vec.getD (part s p).trapVec == 0 then .next (haltWhole s p x)
    else if 16 ≤ liveTraps s p then .next s
    else match freeFrame s p with
      | none => .next s
      | some num =>
        match launchRoom s p with
        | .row s bay =>
          let n := if isDet s p then freshWord s else (0, s)
          let fr := { newFrame p num 0 0 n.1 with trap := some x, g := recWords x.rcd ++ List.replicate 56 0 }
          (match startFrame n.2 fr bay (x.vec.getD (part s p).trapVec) with
           | .error s => .next s
           | .ok s => .next (notifyFault (modPart s p fun t => { t with trapQ := t.trapQ.drop 1 }) p))
        | .wait s => .next s
        | .spent => .next s

end Sys2Proof.Machine
end

