-- ==== Sys2Proof/Machine/Crypto.lean ====
section
/-! DEFINITION. The codes and ciphers that the manual names by their public standards: CRC-32C (R126, R216, R463),
SHA-512 (R307, R417, R471) and AES-256-GCM (R263). Their definitions are the standards' own (log 26). -/
namespace Sys2Proof.Machine

/-! ### CRC-32C -/

/-- One bit of the reflected division by the Castagnoli polynomial. -/
def crcBit (c : Nat) : Nat := if c % 2 == 1 then Nat.xor (c / 2) 0x82F63B78 else c / 2

/-- One byte. -/
def crcByte (c : Nat) (b : Byte) : Nat :=
  let x := Nat.xor c b.toNat
  crcBit (crcBit (crcBit (crcBit (crcBit (crcBit (crcBit (crcBit x)))))))

/-- CRC-32C of a byte string. -/
def crc32c (bs : List Byte) : BitVec 32 := BitVec.ofNat 32 (Nat.xor (bs.foldl crcByte 0xFFFFFFFF) 0xFFFFFFFF)

/-! ### SHA-512 -/

/-- Words of 64 bits, the first one topmost, out of one number. -/
def unpackWords (n x : Nat) : List Word := (List.range n).map fun k => BitVec.ofNat 64 (nbits x (64 * (n - 1 - k)) 64)

/-- The constants of rounds 0–39, five to a number. -/
def shaKeysLow : List Nat :=
  [ 0x428a2f98d728ae227137449123ef65cdb5c0fbcfec4d3b2fe9b5dba58189dbbc3956c25bf348b538,
    0x59f111f1b605d019923f82a4af194f9bab1c5ed5da6d8118d807aa98a303024212835b0145706fbe,
    0x243185be4ee4b28c550c7dc3d5ffb4e272be5d74f27b896f80deb1fe3b1696b19bdc06a725c71235,
    0xc19bf174cf692694e49b69c19ef14ad2efbe4786384f25e30fc19dc68b8cd5b5240ca1cc77ac9c65,
    0x2de92c6f592b02754a7484aa6ea6e4835cb0a9dcbd41fbd476f988da831153b5983e5152ee66dfab,
    0xa831c66d2db43210b00327c898fb213fbf597fc7beef0ee4c6e00bf33da88fc2d5a79147930aa725,
    0x06ca6351e003826f142929670a0e6e7027b70a8546d22ffc2e1b21385c26c9264d2c6dfc5ac42aed,
    0x53380d139d95b3df650a73548baf63de766a0abb3c77b2a881c2c92e47edaee692722c851482353b ]

/-- The constants of rounds 40–79, five to a number. -/
def shaKeysHigh : List Nat :=
  [ 0xa2bfe8a14cf10364a81a664bbc423001c24b8b70d0f89791c76c51a30654be30d192e819d6ef5218,
    0xd69906245565a910f40e35855771202a106aa07032bbd1b819a4c116b8d2d0c81e376c085141ab53,
    0x2748774cdf8eeb9934b0bcb5e19b48a8391c0cb3c5c95a634ed8aa4ae3418acb5b9cca4f7763e373,
    0x682e6ff3d6b2b8a3748f82ee5defb2fc78a5636f43172f6084c87814a1f0ab728cc702081a6439ec,
    0x90befffa23631e28a4506cebde82bde9bef9a3f7b2c67915c67178f2e372532bca273eceea26619c,
    0xd186b8c721c0c207eada7dd6cde0eb1ef57d4f7fee6ed17806f067aa72176fba0a637dc5a2c898a6,
    0x113f9804bef90dae1b710b35131c471b28db77f523047d8432caab7b40c724933c9ebe0a15c9bebc,
    0x431d67c49c100d4c4cc5d4becb3e42b6597f299cfc657e2a5fcb6fab3ad6faec6c44198c4a475817 ]

/-- The chaining value at the start, as one number. -/
def shaStart : Nat :=
  0x6a09e667f3bcc908bb67ae8584caa73b3c6ef372fe94f82ba54ff53a5f1d36f1510e527fade682d19b05688c2b3e6c1f1f83d9abfb41bd6b5be0cd19137e2179

/-- The exclusive or of a word's rotations. -/
def spin (rots : List Nat) (x : Word) : Word := rots.foldl (fun acc r => acc ^^^ x.rotateRight r) 0

/-- One round on the working words a to h, with the sum of its constant and its schedule word. -/
def shaStep (v : List Word) (kw : Word) : List Word :=
  let at_ := fun k => v.getD k 0
  let pick := at_ 6 ^^^ (at_ 4 &&& (at_ 5 ^^^ at_ 6))
  let most := (at_ 0 &&& at_ 1) ||| (at_ 2 &&& (at_ 0 ||| at_ 1))
  let down := at_ 7 + spin [14, 18, 41] (at_ 4) + pick + kw
  (down + spin [28, 34, 39] (at_ 0) + most) :: v.take 3 ++ (at_ 3 + down) :: (v.drop 4).take 3

/-- The schedule moves on by a word: `w` holds its latest sixteen, oldest first. -/
def shaSlide (w : List Word) : List Word :=
  let late := w.getD 14 0
  let early := w.getD 1 0
  w.drop 1 ++ [w.headD 0 + (spin [1, 8] early ^^^ (early >>> 7)) + w.getD 9 0 + (spin [19, 61] late ^^^ (late >>> 6))]

/-- A block of 128 bytes enters the chaining value. -/
def shaAbsorb (h : List Word) (block : List Byte) : List Word :=
  let first := unpackWords 16 (ofBytes block.reverse)
  let keys := (shaKeysLow ++ shaKeysHigh).flatMap (unpackWords 5)
  let last := keys.foldl (fun (x : List Word × List Word) k => (shaSlide x.1, shaStep x.2 (k + x.1.headD 0))) (first, h)
  (h.zip last.2).map fun x => x.1 + x.2

/-- The padding of a message of n bytes: a one bit, zeros, and the length in bits as 128 bits, to a multiple of 128 bytes. -/
def shaTail (n : Nat) : List Byte := 0x80 :: List.replicate ((239 - n % 128) % 128) 0 ++ (toBytes 16 (8 * n)).reverse

/-- sha512(x): the 64-byte digest (R307). -/
def sha512 (m : List Byte) : List Byte :=
  let bs := m ++ shaTail m.length
  let ends := (List.range (bs.length / 128)).foldl (fun h k => shaAbsorb h ((bs.drop (128 * k)).take 128)) (unpackWords 8 shaStart)
  ends.flatMap fun w => (toBytes 8 w.toNat).reverse

/-! ### AES-256 -/

/-- Multiplication by x in the field of AES. -/
def xtime (a : Nat) : Nat := if a < 128 then 2 * a else Nat.xor (2 * a % 256) 0x1B

/-- Multiplication in the field of AES, over the bits of `b`. -/
def gmul : Nat → Nat → Nat → Nat
  | 0, _, _ => 0
  | n + 1, a, b => Nat.xor (if b % 2 == 1 then a else 0) (gmul n (xtime a) (b / 2))

/-- x^254: the inverse, and 0 for 0. -/
def ginv (x : Nat) : Nat :=
  let m := gmul 8
  let x2 := m x x
  let x4 := m x2 x2
  let x8 := m x4 x4
  let x16 := m x8 x8
  let x32 := m x16 x16
  let x64 := m x32 x32
  let x128 := m x64 x64
  m x128 (m x64 (m x32 (m x16 (m x8 (m x4 x2)))))

/-- SubBytes on one byte. -/
def sbox (b : Byte) : Byte :=
  let i : Byte := BitVec.ofNat 8 (ginv b.toNat)
  i ^^^ i.rotateLeft 1 ^^^ i.rotateLeft 2 ^^^ i.rotateLeft 3 ^^^ i.rotateLeft 4 ^^^ 0x63

/-- Bytes XORed pairwise. -/
def xorBytes (a b : List Byte) : List Byte := List.zipWith (· ^^^ ·) a b

/-- The key schedule: words of four bytes, from the last eight, `i` the number of the next. -/
def aesExpand : Nat → Nat → Byte → List (List Byte) → List (List Byte)
  | 0, _, _, ws => ws
  | n + 1, i, rc, ws =>
    let prev := ws.getLastD []
    let t :=
      if i % 8 == 0 then xorBytes ((prev.drop 1 ++ prev.take 1).map sbox) [rc, 0, 0, 0]
      else if i % 8 == 4 then prev.map sbox else prev
    let rc2 := if i % 8 == 0 then BitVec.ofNat 8 (xtime rc.toNat) else rc
    aesExpand n (i + 1) rc2 (ws ++ [xorBytes (ws.getD (i - 8) []) t])

/-- Cut bytes into groups of four. -/
def fours : Nat → List Byte → List (List Byte)
  | 0, _ => []
  | n + 1, bs => bs.take 4 :: fours n (bs.drop 4)

/-- The fifteen round keys of a 32-byte key. -/
def aesKeys (key : List Byte) : List (List Byte) :=
  let ws := aesExpand 52 8 1 (fours 8 key)
  (List.range 15).map fun r => ((ws.drop (4 * r)).take 4).flatten

/-- ShiftRows: byte r + 4c comes from column c + r. -/
def shiftRows (b : List Byte) : List Byte := (List.range 16).map fun k => b.getD ((k + 4 * (k % 4)) % 16) 0

/-- MixColumns on one column. -/
def mixCol (c : List Byte) : List Byte :=
  let g := fun (k : Nat) => (c.getD (k % 4) 0).toNat
  (List.range 4).map fun r => BitVec.ofNat 8 (Nat.xor (Nat.xor (gmul 2 (g r) 2) (gmul 2 (g (r + 1)) 3)) (Nat.xor (g (r + 2)) (g (r + 3))))

/-- The rounds with the keys that remain. -/
def aesRounds : List (List Byte) → List Byte → List Byte
  | [], b => b
  | [k], b => xorBytes (shiftRows (b.map sbox)) k
  | k :: ks, b => aesRounds ks (xorBytes ((fours 4 (shiftRows (b.map sbox))).flatMap mixCol) k)

/-- AES-256 of one 16-byte block. -/
def aesBlock (keys : List (List Byte)) (b : List Byte) : List Byte :=
  match keys with
  | k :: ks => aesRounds ks (xorBytes b k)
  | [] => b

/-! ### GCM -/

/-- Multiplication in GCM's field, on 128-bit values with the first bit at the top. -/
def ghMul : Nat → BitVec 128 → BitVec 128 → BitVec 128 → BitVec 128
  | 0, _, _, z => z
  | n + 1, x, v, z =>
    let z := if x.getLsbD 127 then z ^^^ v else z
    let w := v >>> 1
    ghMul n (x <<< 1) (if v.getLsbD 0 then w ^^^ (0xE1#128 <<< 120) else w) z

/-- Sixteen bytes, the first at the top; short blocks are padded with zeros. -/
def beBlock (bs : List Byte) : BitVec 128 := BitVec.ofNat 128 (ofBytes ((bs ++ List.replicate (16 - bs.length) 0).take 16).reverse)

/-- The bytes of a 128-bit value, the top first. -/
def beBytes (x : BitVec 128) : List Byte := (toBytes 16 x.toNat).reverse

/-- GHASH over whole blocks. -/
def ghash (h : BitVec 128) : Nat → List Byte → BitVec 128 → BitVec 128
  | 0, _, y => y
  | n + 1, bs, y => ghash h n (bs.drop 16) (ghMul 128 (y ^^^ beBlock (bs.take 16)) h 0)

/-- Zeros up to a multiple of sixteen. -/
def pad16 (bs : List Byte) : List Byte := bs ++ List.replicate ((16 - bs.length % 16) % 16) 0

/-- Counter mode from counter `c` on. -/
def ctrMode (keys : List (List Byte)) (nonce : List Byte) : Nat → Nat → List Byte → List Byte
  | 0, _, _ => []
  | n + 1, c, bs =>
    xorBytes (bs.take 16) (aesBlock keys (nonce ++ (toBytes 4 c).reverse)) ++ ctrMode keys nonce n (c + 1) (bs.drop 16)

/-- The GCM tag of a ciphertext under a 12-byte nonce. -/
def gcmTag (keys : List (List Byte)) (nonce aad ct : List Byte) : List Byte :=
  let h := beBlock (aesBlock keys (List.replicate 16 0))
  let data := pad16 aad ++ pad16 ct ++ (toBytes 8 (8 * aad.length)).reverse ++ (toBytes 8 (8 * ct.length)).reverse
  xorBytes (beBytes (ghash h (data.length / 16) data 0)) (aesBlock keys (nonce ++ [0, 0, 0, 1]))

/-- AES-256-GCM encryption: the ciphertext and the tag. -/
def gcmSeal (key nonce aad pt : List Byte) : List Byte × List Byte :=
  let keys := aesKeys key
  let ct := ctrMode keys nonce ((pt.length + 15) / 16) 2 pt
  (ct, gcmTag keys nonce aad ct)

/-- AES-256-GCM decryption: none when the tag does not match. -/
def gcmOpen (key nonce aad ct tag : List Byte) : Option (List Byte) :=
  let keys := aesKeys key
  if gcmTag keys nonce aad ct == tag then some (ctrMode keys nonce ((ct.length + 15) / 16) 2 ct) else none

end Sys2Proof.Machine
end

