-- ==== Sys2Proof/Machine/Regions.lean ====
section
/-! DEFINITION. Grid regions: images and placement (R210–R220, R364), constants in flight (R222, R366), drain and release
(R223, R224, R365), grid calls (R225–R228, R367, R368), checkpoints and configuration errors (R126, R230, R231, R444). -/
namespace Sys2Proof.Machine

/-! ### Reading through translation -/

/-- Why a read of the device on an agent's behalf does not answer: it waits, or a check failed. -/
inductive ReadErr where
  | wait
  | bad (code : BitVec 8) (g4 g5 : Word)
  deriving DecidableEq, Repr

/-- n bytes at a virtual address, checked as an access of kind `k` (R105, R500). -/
def readVa (s : State) (bay p : Nat) (k : AccKind) (tag : BitVec 32) (va : Word) (n algn : Nat) : State × Except ReadErr (List Byte) :=
  match checkRun s bay p k tag (va.toNat : Int) n algn with
  | (s, .ok rs) =>
    (match poisonedAt s rs with
     | some a => (s, .error (.bad F_MEMECC (BitVec.ofNat 64 a) 0))
     | none =>
       let r := readRuns s p k.tree rs
       (r.2, .ok r.1))
  | (s, .bad c a) => (s, .error (.bad c a (BitVec.ofNat 64 (if c == F_ALIGN then algn else if c == F_PROT && k.fetch then 2 else 0))))
  | (s, _) => (s, .error .wait)

/-! ### Images (R216, R217) -/

/-- A grid image as read: its header fields, words, constants and entries (x, y, slot, context). -/
structure Img where
  addr : Word
  h0 : Word
  w : Nat
  h : Nat
  c : Nat
  ne : Nat
  nx : Nat
  ck : Bool
  sigs : Word
  words : List (Word × Word × Word)
  consts : List (List Word)
  ents : List Word
  deriving DecidableEq, Repr

/-- Cut a list into groups of `n`. -/
def groups {α : Type} (n : Nat) : Nat → List α → List (List α)
  | 0, _ => []
  | k + 1, l => l.take n :: groups n k (l.drop n)

/-- An entry word holds a reserved bit: in each of the header's 16 (R216, R217). -/
def imgEntryRsvd (e : Word) : Bool := fld e 16 48 != 0 || fld e 0 3 != 0

/-- The header is refused: MAGIC, a reserved field, or a port count above 16 (R216, R217). -/
def imgHeaderBad (h : List Word) : Bool :=
  let h0 := h.getD 0 0
  fld h0 48 16 != 0x4744 || fld h0 0 26 != 0 || h.getD 3 0 != 0 || decide (16 < fld h0 32 5) || decide (16 < fld h0 27 5) ||
    (h.getD 2 0 == 0 && fld (h.getD 1 0) 32 32 != 0) || (h.drop 4).any imgEntryRsvd

/-- Read an image with the checks of a fetch (R217). -/
def readImage (s : State) (bay p : Nat) (quick : Bool) (tag : BitVec 32) (tree : Option Nat) (addr : Word) : State × Except ReadErr Img :=
  let k : AccKind := ⟨false, true, false, quick, tree⟩
  match readVa s bay p k tag addr 0xA0 64 with
  | (s, .error e) => (s, .error e)
  | (s, .ok hb) =>
    let h := wordsOf hb 20
    let h0 := h.getD 0 0
    if imgHeaderBad h then (s, .error (.bad F_ILLOP (((h.drop 4).find? imgEntryRsvd).getD h0) 0))
    else
      let n := (fld h0 44 4 + 1) * (fld h0 40 4 + 1) * (fld h0 37 3 + 1)
      match readVa s bay p k tag (addr + 0xA0) (24 * n) 1 with
      | (s, .error e) => (s, .error e)
      | (s, .ok body) =>
        let sigs := h.getD 1 0
        if (crc32c body).toNat != fld sigs 0 32 then (s, .error (.bad F_ILLOP sigs 0))
        else
          let ctab := h.getD 2 0
          let tab : State × Except ReadErr (List Byte) :=
            if ctab == 0 then (s, .ok (List.replicate (32 * n) 0)) else readVa s bay p k tag ctab (32 * n) 32
          match tab with
          | (s, .error e) => (s, .error e)
          | (s, .ok cb) =>
            if ctab != 0 && (crc32c cb).toNat != fld sigs 32 32 then (s, .error (.bad F_ILLOP sigs 0))
            else
              let ws := (groups 3 n (wordsOf body (3 * n))).map fun l => (l.getD 0 0, l.getD 1 0, l.getD 2 0)
              (s, .ok { addr := addr, h0 := h0, w := fld h0 44 4 + 1, h := fld h0 40 4 + 1, c := fld h0 37 3 + 1, ne := fld h0 32 5,
                        nx := fld h0 27 5, ck := bitAt h0 26, sigs := sigs, words := ws, consts := groups 4 n (wordsOf cb (4 * n)),
                        ents := (h.drop 4).take (fld h0 32 5) })

/-- The words of the image's context c of cell (x, y). -/
def imgAt (m : Img) (x y : Int) (c : Nat) : Option (Word × Word × Word) :=
  if 0 ≤ x && x < m.w && 0 ≤ y && y < m.h && decide (c < m.c) then m.words[((y.toNat * m.w + x.toNat) * m.c + c)]? else none

/-- An entry word is refused (R217, R302, R310). -/
def imgEntryBad (m : Img) (e : Word) : Bool :=
  match imgAt m (fld e 12 4 : Nat) (fld e 8 4 : Nat) (fld e 3 3) with
  | none => true
  | some w => w.1 == 0 || !(wordSlots w.1).contains (slotOf (fld e 6 2))

/-- A route that a target of the word at (x, y) names is refused (R211, R217, R221, R302, R310, R366, R368). -/
def imgRouteBad (m : Img) (op : Nat) (x y : Int) (rt : Nat) : Bool :=
  if nbits rt 15 1 == 1 then nbits rt 6 9 != 0 || decide (m.nx ≤ nbits rt 0 6) || op == 0x85
  else op == 0x82 || (match imgAt m (x + signed (nbits rt 10 5) 5) (y + signed (nbits rt 5 5) 5) (nbits rt 0 3) with
    | none => true
    | some w => w.1 == 0 || !(wordSlots w.1).contains (slotOf (nbits rt 3 2)) || (op == 0x85 && !bitAt w.2.2 63))

/-- The P-word is refused for an instruction (R162, R163, R212, R213, R354, R355). -/
def imgPwordBad (i : Instr) (r : Row) (pw : Word) : Bool :=
  fld pw 61 2 == 3 || fld pw 40 3 != 0 || (bitAt pw 63 && fld pw 49 7 != 0) || (fld pw 61 2 == 2 && (padIdentity i 0).isNone) ||
    ((r.op == 0x75 || r.op == 0x78) && !bitAt pw 63) ||
    (match r.pay with | .fa f => f.i && fld pw 47 2 == 2 | .fe f => f.i && fld pw 47 2 == 2 | _ => false)

/-- What is wrong with word `n` of an image: the code (R78, R130, R210–R213, R217, R347, R354, R368, R394, R431, R444). The target
of an engine instruction is an entry, every other a route; what R368 asks of a gret's route concerns T0 alone. -/
def imgWordBad (det : Bool) (m : Img) (n : Nat) : Option (BitVec 8) :=
  let w := m.words.getD n (0, 0, 0)
  let c := m.c
  let x : Int := ((n / c) % m.w : Nat)
  let y : Int := (n / (c * m.w) : Nat)
  match decodeWord w.1 with
  | .error _ => some F_ILLOP
  | .ok i =>
    match row i with
    | none => some F_ILLOP
    | some r =>
      let route := fun (op : Nat) (t : Tgt) => fld t 2 8 == 0 && !imgRouteBad m op x y (routeOf w.2.1 (fld t 0 2))
      let tOk := fun (k : Nat) (t : Tgt) => t == nullT || (match r.pay with
        | .fe _ => fld t 6 4 == 0b1010
        | _ => route (if k == 0 then r.op else 0) t)
      if det && isArr w.1 then some F_DETVIOL
      else if r.stand == .block || imgPwordBad i r w.2.2 || !((List.range r.pay.targets.length).all fun k => tOk k (r.pay.targets.getD k nullT)) ||
          (isMem r.op && (m.words.take n).any fun v => isMem (opOf v.1) && ownOf v.1 == ownOf w.1) ||
          (r.op == 0xF6 && !m.ck) || (r.op == 0xF0 && decide (1 ≤ fld w.1 26 12) && decide (fld w.1 26 12 ≤ 3)) ||
          (r.op == 0x77 && (match imgAt m (x + signed (fld w.1 10 5) 5) (y + signed (fld w.1 5 5) 5) (fld w.1 0 3) with
            | none => true
            | some v => opOf v.1 != 0x78)) then some F_ILLOP
      else none

/-- The first failure of an image: its code and the offending word (R217). -/
def imgBad (det : Bool) (m : Img) : Option (BitVec 8 × Word) :=
  match m.ents.find? (imgEntryBad m) with
  | some e => some (F_ILLOP, e)
  | none => (List.range m.words.length).findSome? fun n => (imgWordBad det m n).map fun c => (c, (m.words.getD n (0, 0, 0)).1)

/-! ### Placement (R218) -/

/-- Where an image fits: bay, record, entry base, origin and context base. -/
structure Fit where
  bay : Nat
  idx : Nat
  ebase : Nat
  x0 : Nat
  y0 : Nat
  c0 : Nat
  deriving DecidableEq, Repr

/-- An entry of a bay's entry table is free. -/
def entryFree (s : State) (p bay e : Nat) : Bool := !(s.entries.any fun x => x.part == p && x.bay == bay && x.e == e) && !entryPushed s p bay e

/-- The lowest run of consecutive free entries. -/
def entryRun (s : State) (p bay ne : Nat) : Option Nat :=
  (List.range (65 - ne)).find? fun b => (List.range ne).all fun k => entryFree s p bay (b + k)

/-- The first fit in a bay: ascending y0, then x0, then c0. -/
def fitIn (s : State) (p bay w h c ne : Nat) : Option Fit :=
  match (List.range 32).find? (fun k => (region? s bay k).isNone && (regionNamed s p (bay, k)).isNone), entryRun s p bay ne with
  | some idx, some eb =>
    let used := usedPlaces s bay
    (List.range (17 - h)).findSome? fun y0 => (List.range (17 - w)).findSome? fun x0 => (List.range (9 - c)).findSome? fun c0 =>
      if (rectPlaces x0 y0 w h c0 c).all fun p => !used.contains p then some ⟨bay, idx, eb, x0, y0, c0⟩ else none
  | _, _ => none

/-- The first fit of the partition: the requester's bay first, then ascending; not on departing bays (R242). -/
def findFit (s : State) (p first w h c ne : Nat) : Option Fit :=
  let l := allocBays s p
  ((l.filter (· == first)) ++ l.filter (· != first)).findSome? fun b => fitIn s p b w h c ne

/-- The R-word with the context base added to each route inside the region (R218). -/
def placeRw (rw : Word) (c0 : Nat) : Word :=
  BitVec.ofNat 64 ((List.range 4).foldl (fun acc k =>
    let rt := routeOf rw k
    acc + (if nbits rt 15 1 == 1 then rt else putFld rt 0 3 (nbits rt 0 3 + c0)) * pow2 (16 * k)) 0)

/-- The I-word with the context base added to a wreset's link (R354). -/
def placeIw (iw : Word) (c0 : Nat) : Word := if opOf iw == 0x77 then BitVec.ofNat 64 (putFld iw.toNat 0 3 (fld iw 0 3 + c0)) else iw

/-- The contexts of an image laid at an origin. -/
def layCtxs (m : Img) (bay idx x0 y0 c0 : Nat) : List Ctx :=
  (List.range m.words.length).map fun n =>
    let w := m.words.getD n (0, 0, 0)
    let q := (List.range 4).map fun k => (m.consts.getD n []).getD k 0
    let iw := placeIw w.1 c0
    let rw := placeRw w.2.1 c0
    { bay := bay, cell := 16 * (y0 + n / (m.c * m.w)) + x0 + (n / m.c) % m.w, ctx := c0 + n % m.c, region := idx, iw := iw, rw := rw,
      pw := w.2.2, q := q, copy := [iw, rw, w.2.2] ++ q, bad := false, copyBad := false, ph := 0, cn := 0, pend := none, disc := 0,
      loops := [], merges := [], red := ⟨none, none, 0, none, []⟩ }

/-- The entries of an image laid at an origin. -/
def layEnts (m : Img) (p : Nat) (name : Nat × Nat) (x0 y0 c0 ebase : Nat) : List EntryRec :=
  (List.range m.ents.length).map fun e =>
    let w := m.ents.getD e 0
    ⟨p, name.1, ebase + e, name.2, 16 * (y0 + fld w 8 4) + x0 + fld w 12 4, slotOf (fld w 6 2), c0 + fld w 3 3⟩

/-- The words of a context as they were written: those of the protected copy where it is good. -/
def goodWords (c : Ctx) : List Word := if c.copyBad then [c.iw, c.rw, c.pw] else c.copy.take 3

/-- The signature of contexts: CRC-32C over their words (R126). -/
def signature (l : List Ctx) : BitVec 32 := crc32c (l.flatMap fun c => (goodWords c).flatMap fun w => toBytes 8 w.toNat)

/-- The push state of a region whose image has just been written (R225, R230). -/
def freshPlane (cs : List Ctx) (es : List EntryRec) (exits : List Word) (image : Word) (ebase ne nx : Nat) : Plane :=
  { ctxs := cs, entries := es, queues := [], formed := [], held := [], flags := 0, exits := exits, image := image, entryBase := ebase,
    ne := ne, nx := nx, caller := (0, 0), attic := true, placed := [], exitHold := [] }

/-- Place an image: words, protected copy, signature, entries and exit ports at one instant (R218, R220); with CK = 1 its
first checkpoint too (R230). `rank` is the key of the request (R503). -/
def installRegion (s : State) (p : Nat) (m : Img) (f : Fit) (exits : List Word) (rank : List Nat) : State :=
  let cs := layCtxs m f.bay f.idx f.x0 f.y0 f.c0
  let es := layEnts m p (f.bay, f.idx) f.x0 f.y0 f.c0 f.ebase
  let ports := exits ++ List.replicate (16 - exits.length) 0
  let r : Region :=
    { part := p, bay := f.bay, idx := f.idx, x0 := f.x0, y0 := f.y0, w := m.w, h := m.h, c0 := f.c0, c := m.c, entryBase := f.ebase,
      ne := m.ne, nx := m.nx, ck := m.ck, image := m.addr, sig := signature cs, exits := ports,
      flags := 0, closed := false, residue := 0, ords := [], phase := .run, fault := none, faulting := [], faultAt := 0, rank := rank, admNo := 0, planes := [],
      ckpt := if m.ck then some ⟨freshPlane cs es ports m.addr f.ebase m.ne m.nx, [], []⟩ else none, exitHold := [], entryLog := [], streams := [], kvc := [],
      key := f.bay, name := (f.bay, f.idx), progress := (part s p).wdCycles }
  { s with regions := s.regions ++ [r], ctxs := s.ctxs ++ cs, entries := s.entries ++ es }

/-- An exit destination is refused: V = 0 or a reserved bit set (R215, R364). -/
def exitWordBad (w : Word) : Bool := !bitAt w 63 || fld w 21 42 != 0

/-- A failed read of the current instance: it waits, or faults. -/
def readFail (s : State) : ReadErr → State
  | .wait => waitCur s
  | .bad c g4 g5 => fault s c g4 g5

/-- The image and the exit destinations that the current cfgreq asks for, checked (R217, R364). -/
def cfgreqRead (f : XFmt) (s : State) : State × Except ReadErr (Img × List Word) :=
  let i := s.cur
  match readImage s i.bay i.part false (tagWord i.tag) (curTree s) (xAddr f (f.md == 1) s) with
  | (s, .error e) => (s, .error e)
  | (s, .ok m) =>
    match imgBad (isDet s i.part) m with
    | some b => (s, .error (.bad b.1 b.2 0))
    | none =>
      if m.nx == 0 then (s, .ok (m, []))
      else match readVa s i.bay i.part ⟨false, false, false, false, curTree s⟩ (tagWord i.tag) (opA s) (8 * m.nx) 64 with
        | (s, .error e) => (s, .error e)
        | (s, .ok bs) =>
          let ws := wordsOf bs m.nx
          match ws.find? exitWordBad with
          | some w => (s, .error (.bad F_ILLOP w 0))
          | none => (s, .ok (m, ws))

/-- cfgreq (R217, R220, R364): the request passes its checks and waits for the placer, in effect from then on (R369). -/
def execCfgreq (f : XFmt) (s : State) : Res :=
  .next (shell f.pr [f.t0] s fun s =>
    if !curOldest s || (s.cur.grid.isNone && storePending s s.cur.part (curFrame s)) || !accessTurn s then waitCur s
    else match cfgreqRead f s with
      | (s, .error e) => readFail s e
      | (s, .ok _) => waitStage (if s.cur.stage == some 9 then s else noteAct s) 9)

/-- The X word of an instance. -/
def xWord (i : Inst) : XFmt := getX i.word

/-- On-chip planes of a region. -/
def chipPlanes (r : Region) : Nat := (r.planes.filter fun p => !p.attic).length

/-- Bytes of the attic that a region's planes take (R227), with its checkpoint. -/
def planeBytes (r : Region) : Nat := 1152 * r.w * r.h * r.c

/-- The attic bytes in use by a partition: planes, checkpoints, and regions that wait there for a place (R227, R230, R242). -/
def atticUsed (s : State) (p : Nat) : Nat :=
  ((s.regions.filter fun r => r.part == p).map fun r =>
    planeBytes r * ((r.planes.filter (·.attic)).length + (if r.ckpt.isSome then 1 else 0) + (if 128 ≤ r.bay then 1 + chipPlanes r else 0))).sum

/-- A record of n bytes of the attic is written, or read back; a fresh one comes behind those in use. DESIGN CHOICE, log 91. -/
def atticTouch (s : State) (p n : Nat) (store fresh : Bool) : Except State State :=
  devTouch s p ((entWord s p 17).toNat + (if fresh then atticUsed s p else atticUsed s p - n)) n store

/-- The result of an action goes to its targets, and nowhere once the action's block is gone (R40, R369). -/
def sendBack (s : State) (ts : List Tgt) (v : Word) : State := if s.cur.seq == orphanSeq then s else sendAll s ts .data v

/-- REGION_PLACEMENT (R218, R220): a request that waits for the placer is placed at the first fit; with CK = 1 its first
checkpoint goes into the attic (R230). -/
def execRegionPlacement (n : Nat) (s : State) : Res :=
  match s.waits[n]? with
  | none => .next s
  | some i =>
    if savedAway s i.part || !(opOf i.word == 0x83 && i.stage == some 9) || !accessTurn { s with cur := i } then .next s
    else match cfgreqRead (xWord i) { s with cur := i } with
      | (t, .error .wait) => .next { t with cur := s.cur }
      | (t, .error (.bad c g4 g5)) => .next { fault { t with waits := dropAt n t.waits } c g4 g5 with cur := s.cur }
      | (t, .ok m) =>
        match findFit t i.part i.bay m.1.w m.1.h m.1.c m.1.ne with
        | none => .next s
        | some ft =>
          match if m.1.ck then atticTouch t i.part (1152 * m.1.w * m.1.h * m.1.c) true true else .ok t with
          | .error t => .next { t with cur := s.cur }
          | .ok t =>
            let t := installRegion { t with waits := dropAt n t.waits } i.part m.1 ft m.2 (engineKey t i)
            .next { sendBack t [(xWord i).t0] (BitVec.ofNat 64 (ft.bay * pow2 32 + ft.idx * 256 + ft.ebase)) with cur := s.cur }

/-! ### Settlement (R223, R225) -/

/-- A token or a flit travels on a link of the region; with CK = 1 the exit tokens beyond a full hold stand on links (R230). -/
def linkBusy (s : State) (r : Region) : Bool :=
  s.net.any (toRegion r) || (r.ck && decide (256 < (r.exitHold.filter fun x => !toRegion r x).length))

/-- A waiting instance is still on its way: an access that lands by itself, or an instruction that goes on by itself (R179,
R225). -/
def unsettled (s : State) (i : Inst) : Bool := if isMem (opOf i.word) then lands s i else goesOn s i

/-- The region has settled: links and pipelines are empty, and no access lands by itself any more. -/
def settledRegion (s : State) (r : Region) : Bool :=
  !linkBusy s r && !s.pipe.any (ofRegion r) && !(s.waits.any fun i => ofRegion r i && unsettled s i)

/-- The sum of the EOS discard counts of a region, saturating (R365). -/
def discSum (s : State) (r : Region) : Nat :=
  Nat.min 0xFFFF ((s.ctxs.filter fun c => c.bay == r.bay && c.region == r.idx).map (·.disc)).sum

/-- The contexts of a region. -/
def regionCtxs (s : State) (r : Region) : List Ctx := s.ctxs.filter fun c => c.bay == r.bay && c.region == r.idx

/-- A placed access of a wave of the region. -/
def regionPlaced (r : Region) (x : Placed) : Bool := x.part == r.part && (x.grid.map (·.1)) == some r.name

/-- What gcall's push and a checkpoint keep of a region (R225, R230): words, constants, queues, phases and pending writes,
instances, flags, entries and exit ports; `caller` is the context that calls. -/
def pushState (s : State) (r : Region) (caller : Nat × Nat) : Plane :=
  { ctxs := regionCtxs s r, entries := s.entries.filter (entryOf r), queues := s.queues.filter (regionQueue r),
    formed := s.ready.filter (ofRegion r), held := s.waits.filter (ofRegion r), flags := r.flags, exits := r.exits, image := r.image,
    entryBase := r.entryBase, ne := r.ne, nx := r.nx, caller := caller, attic := false, placed := s.placed.filter (regionPlaced r),
    exitHold := r.exitHold.filter (toRegion r) }

/-- A store that the region holds. -/
def heldBy (r : Region) (h : Held) : Bool := h.bay == r.bay && h.region == some r.idx

/-- Perform held stores in their order, up to one that must wait; with the instances whose T0 receives a value (R230, R373). -/
def outHeld : List Held → State → State × List (Inst × Word)
  | [], s => (s, [])
  | h :: hs, s =>
    match performStore { s with stores := s.stores.erase h } h with
    | none => (s, [])
    | some t => let r := outHeld hs t; (r.1, (h.reply.map fun i => (i, storeValue s h)).toList ++ r.2)

/-- The values of stores that have been performed go to their T0 (R373). -/
def sendReplies (s : State) (l : List (Inst × Word)) : State :=
  { l.foldl (fun s x => send { s with cur := x.1 } (getM x.1.word).t0 x.2) s with cur := s.cur }

/-- Release what the region holds, stores and exits in their order, and record its push state in the attic (R230); `own` is the
ckpt that asks, as an instance that has not acted. It waits while a store must wait, or for the attic. -/
def takeCkpt (s : State) (r : Region) (own : List Inst) : Except State State :=
  match atticTouch s r.part (planeBytes r) true false with
  | .error s => .error s
  | .ok s =>
    let o := outHeld (s.stores.filter (heldBy r)) s
    if o.1.stores.any (heldBy r) then .error (releaseAll (sendReplies o.1 o.2))
    else
      let s := { modRegion o.1 r.bay r.idx (fun r => { r with exitHold := r.exitHold.filter (toRegion r), entryLog := [] }) with
                 net := o.1.net ++ r.exitHold.filter fun x => !toRegion r x }
      let top := pushState s r (0, 0)
      let ck : Ckpt := ⟨{ top with attic := true, held := own ++ top.held }, r.planes, o.2⟩
      .ok (releaseAll (sendReplies (modRegion s r.bay r.idx fun r => { r with ckpt := some ck }) o.2))

/-! ### Drain and release (R223, R224, R365) -/

/-- The region that a handle names (R220, R365). -/
def handleOf (a : Word) : Nat × Nat := (fld a 32 7, fld a 8 5)

/-- The shared effect of cfgrel and drain up to their completion (R365). -/
def askDrain (f : AFmt) (release : Bool) (s : State) : Res :=
  .next (shellA f s fun s =>
    let h := handleOf (opA s)
    if !curOldest s then waitCur s
    else match regionNamed s s.cur.part h with
      | none => fault s F_PROT (opA s) 0
      | some r =>
        if s.cur.grid == some r.idx && s.cur.bay == r.bay then illop s
        else if release && !r.planes.isEmpty then
          waitCur (freezeRegion s r.bay r.idx { recBase F_ILLOP r.part with flags := flGrid, bay := r.bay, region := r.idx, addr := r.image, g4 := s.cur.word } none)
        else if !r.planes.isEmpty || gated r then waitCur s
        else
          let s := if s.cur.stage == some 9 then s else noteAct s
          waitStage (modRegion s r.bay r.idx fun r => { r with closed := true }) 9)

/-- cfgrel (R224, R365). -/
def execCfgrel (f : AFmt) (s : State) : Res := askDrain f true s

/-- drain (R223, R365). -/
def execDrain (f : AFmt) (s : State) : Res := askDrain f false s

/-- The waiting cfgrel or drain of a region, with its position. -/
def drainer (s : State) (r : Region) : Option (Nat × Inst) :=
  findPos (fun (i : Inst) => (opOf i.word == 0x84 || opOf i.word == 0x86) && i.stage == some 9 && i.part == r.part && handleOf (dataOf i.a) == r.name) s.waits

/-- The region is empty, as R223 asks: of tokens in the images of spilled frames too. A stream holds it through the elements
that it has issued; an access that only a checkpoint's release lets go does not yet. -/
def drained (s : State) (r : Region) : Bool :=
  !gated r && r.planes.isEmpty && settledRegion s r && (s.waits.all fun i => !ofRegion r i || ckBehind s i) && queuedOf s r == 0 &&
    !(s.streams.any fun x => ofRegion r x.inst && !x.done.isEmpty) && !s.net.any (replays r)

/-- The region holds stores or exits for a checkpoint. -/
def holdsOut (s : State) (r : Region) : Bool := s.stores.any (heldBy r) || r.exitHold.any fun x => !toRegion r x

/-- REGION_DRAIN_COMPLETE (R223, R224, R365). Stores and exits that a checkpoint holds are released first, as a checkpoint
releases them; the drain completes once nothing is held (log 27). -/
def execRegionDrainComplete (bay g : Nat) (s : State) : Res :=
  match region? s bay g, (region? s bay g).bind (drainer s) with
  | some r, some (n, i) =>
    if savedAway s r.part || !drained s r then .next s
    else if holdsOut s r then .next (match takeCkpt s r [] with | .ok s => s | .error s => s)
    else
      let res := Nat.min 0xFFFF (r.residue + restingOf s r)
      let v : Word := BitVec.ofNat 64 (res * pow2 48 + discSum s r * pow2 32) + BitVec.setWidth 64 r.flags
      let old := s.cur
      let s := { dropResting s r with waits := dropAt n s.waits, cur := i }
      let s :=
        if opOf i.word == 0x84 then freeRegion s bay g
        else
          let s := modRegion s bay g fun r => { r with closed := false, flags := 0, residue := 0 }
          { s with ctxs := updWhere (fun c => c.bay == bay && c.region == g) (fun c => { c with disc := 0 }) s.ctxs }
      .next { sendBack s [(getA i.word).t0, (getA i.word).t1] v with cur := old }
  | _, _ => .next s

/-! ### Constants (R222, R366) -/

/-- cfgtok (R366): a configuration flit along route T0. -/
def execCfgtok (f : AFmt) (s : State) : Res :=
  .next (shell f.pr [f.t0] s fun s =>
    let rk := fld f.t0 0 2
    if f.t0 == nullT || !phaseAllows s rk then s
    else match curCtx s with
      | none => s
      | some c => sendRoute s (routeOf c.rw rk) (curTok s .data (opA s)) (some f.md))

/-! ### Grid calls (R225–R228) -/


/-- A gcall's callee is refused (R226, R227, R367): the code and detail words. -/
def callBad (s : State) (r : Region) (m : Img) (w : Word) : Option (BitVec 8 × Word × Word) :=
  let aq := entWord s r.part 18
  match imgBad (isDet s r.part) m with
  | some b => some (b.1, b.2, 0)
  | none =>
    if decide (r.w < m.w) || decide (r.h < m.h) || decide (r.c < m.c) || m.ne == 0 ||
        (m.words.any fun v => v.1 != 0 && !bitAt v.2.2 63) then some (F_ILLOP, w, 0)
    else if decide (64 ≤ r.planes.length) || (4 ≤ chipPlanes r && decide (aq.toNat < atticUsed s r.part + planeBytes r)) then
      some (F_PLANEOVF, BitVec.ofNat 64 r.planes.length, aq)
    else none

/-- gcall (R225, R226, R367): the callee's image passes its checks, and the region gates. -/
def execGcall (f : XFmt) (s : State) : Res :=
  .next (shell f.pr [f.t0] s fun s =>
    match curRegion s with
    | none => s
    | some r =>
      if gated r then waitCur s
      else
        let addr := xAddr f (f.md == 1) s
        match readImage s s.cur.bay r.part false (tagWord s.cur.tag) (curTree s) addr with
        | (s, .error e) => readFail s e
        | (s, .ok m) =>
          match callBad s r m s.cur.word with
          | some b => fault s b.1 b.2.1 b.2.2
          | none => modRegion s r.bay r.idx fun r => { r with phase := .callGate s.cur addr })

/-- Mark the oldest on-chip plane as spilled to the attic; the list holds the newest first. -/
def spillPlane (l : List Plane) : List Plane :=
  match findPos (fun (p : Plane) => !p.attic) l.reverse with
  | some (n, p) => (l.reverse.set n { p with attic := true }).reverse
  | none => l

/-- The tokens and instances of match-mode contexts whose FRAME is spilled stand in its image (R46, R166). -/
def stowSpilled (s : State) (r : Region) : State :=
  let mineE := fun (m : Image) (e : QEntry) => e.part == m.part && e.tok.tag.frame.toNat == m.frame && regionQueue r e && matchMode s e.bay e.cell e.tok.tag.ctx.toNat
  let mineI := fun (m : Image) (i : Inst) => i.part == m.part && i.tag.frame.toNat == m.frame && ofRegion r i && matchMode s i.bay i.cell i.ctx
  { s with images := s.images.map fun m => { m with entries := m.entries ++ s.queues.filter (mineE m), insts := m.insts ++ s.ready.filter (mineI m) },
           queues := s.queues.filter (fun e => !(s.images.any fun m => mineE m e)), ready := s.ready.filter fun i => !(s.images.any fun m => mineI m i) }

/-- The queues of the cells, and their ready queues, have room for what a plane brings back into a region (R152). -/
def planeFits (s : State) (r : Region) (pl : Plane) : Bool :=
  let others := s.queues.filter fun e => !regionQueue r e
  readyFits { s with ready := s.ready.filter fun i => !ofRegion r i } pl.formed &&
    pl.queues.all fun e => decide (((others ++ pl.queues).filter fun d => d.bay == e.bay && d.cell == e.cell && d.slot == e.slot).length ≤ 16)

/-- Put a plane in the place of a region's active state (R225, R228, R231). What had issued issues first again. -/
def loadPlane (s : State) (r : Region) (pl : Plane) : State :=
  let s := { s with
    ctxs := s.ctxs.filter (fun c => !(c.bay == r.bay && c.region == r.idx)) ++ pl.ctxs
    entries := s.entries.filter (fun e => !entryOf r e) ++ pl.entries
    queues := s.queues.filter (fun e => !regionQueue r e) ++ pl.queues
    ready := pl.formed.map (atBase s) ++ s.ready.filter (fun i => !ofRegion r i)
    waits := s.waits.filter fun i => !ofRegion r i
    pipe := s.pipe.filter (fun i => !ofRegion r i) ++ pl.held
    placed := s.placed.filter (fun x => !regionPlaced r x) ++ pl.placed }
  stowSpilled (modRegion s r.bay r.idx fun r => { r with
    phase := .run, flags := pl.flags, exits := pl.exits, image := pl.image, entryBase := pl.entryBase, ne := pl.ne, nx := pl.nx,
    sig := signature pl.ctxs, exitHold := r.exitHold.filter (fun x => !toRegion r x) ++ pl.exitHold }) r

/-- Push a region's plane and load the callee over it (R225 steps 3 to 5). -/
def pushPlane (s : State) (r : Region) (i : Inst) (m : Img) (ebase : Nat) : State :=
  let pl := pushState s r (i.cell, i.ctx)
  let planes := pl :: (if 4 ≤ chipPlanes r then spillPlane r.planes else r.planes)
  let ports := List.replicate m.nx (0x8000000000000000 : Word) ++ List.replicate (16 - m.nx) 0
  let callee := freshPlane (layCtxs m r.bay r.idx r.x0 r.y0 r.c0) (layEnts m r.part r.name r.x0 r.y0 r.c0 ebase) ports m.addr ebase m.ne m.nx
  let s := modRegion (loadPlane s r callee) r.bay r.idx fun r => { r with planes := planes }
  launchTok s ⟨r.part, ⟨i.tag, .data, dataOf i.a, i.ord, [], none⟩, .dest (BitVec.ofNat 17 (r.name.1 * 1024 + 0x280 + ebase)), none, gcallSender i, none⟩

/-- The gcall at a region's gate faults at its settlement: the gate opens and the region freezes with it (R217, R226, R227). -/
def gcallFault (s : State) (bay g : Nat) (i : Inst) (code : BitVec 8) (g4 g5 : Word) : State :=
  { fault { modRegion s bay g (fun r => { r with phase := .run }) with cur := i } code g4 g5 with cur := s.cur }

/-- GCALL_SETTLED (R225). -/
def execGcallSettled (bay g : Nat) (s : State) : Res :=
  match region? s bay g with
  | none => .next s
  | some r =>
    match r.phase with
    | .callGate i addr =>
      if savedAway s r.part || !settledRegion s r then .next s
      else (match readImage s bay r.part true (tagWord i.tag) (treeOf s r.part i.tag.frame.toNat) addr with
        | (t, .error .wait) => .next t
        | (t, .error (.bad c g4 g5)) => .next (gcallFault t bay g i c g4 g5)
        | (t, .ok m) =>
          (match callBad t r m i.word with
           | some b => .next (gcallFault t bay g i b.1 b.2.1 b.2.2)
           | none =>
             (match entryRun t r.part r.name.1 m.ne with
              | none => .next s
              | some eb =>
                (match if 4 ≤ chipPlanes r then atticTouch t r.part (planeBytes r) true true else .ok t with
                 | .error t => .next t
                 | .ok t => .next (pushPlane t r i m eb)))))
    | _ => .next s

/-- gret (R228, R368). -/
def execGret (f : AFmt) (s : State) : Res :=
  .next (shellA f s fun s =>
    match curRegion s with
    | none => s
    | some r =>
      match r.phase with
      | .retGate _ => modRegion s r.bay r.idx fun r => { r with residue := r.residue + 1 }
      | .run =>
        if r.planes.isEmpty then illop s
        else modRegion (send s f.t0 (opA s)) r.bay r.idx fun r => { r with phase := .retGate s.cur }
      | _ => waitCur s)

/-- Pop the top plane of a region (R228): the callee's tokens go into the residue, its flags into the caller's, and its
results, held until now, to the caller. A stream that the callee bound keeps its slot (R371) and issues nothing more: no
region is 65 deep. DESIGN CHOICE, log 95. -/
def popPlane (s : State) (r : Region) (pl : Plane) (rest : List Plane) : State :=
  let s := { s with
    streams := updWhere (fun (x : Stream) => ofRegion r x.inst && x.depth == r.planes.length) (fun x => { x with depth := 65 }) s.streams
    net := s.net ++ r.exitHold.filter (toRegion r) }
  modRegion (loadPlane s r { pl with flags := pl.flags ||| r.flags }) r.bay r.idx fun x => { x with planes := rest, residue := x.residue + hereOf s r }

/-- GRET_THAW (R228). -/
def execGretThaw (bay g : Nat) (s : State) : Res :=
  match region? s bay g with
  | none => .next s
  | some r =>
    match r.phase, r.planes with
    | .retGate _, pl :: rest =>
      if savedAway s r.part || !settledRegion s r || r.fault.isSome || !planeFits s r pl then .next s
      else (match if pl.attic then atticTouch s r.part (planeBytes r) false false else .ok s with
        | .error s => .next s
        | .ok s => .next (pairRegion (popPlane s r pl rest) bay g))
    | _, _ => .next s

/-! ### Checkpoints and configuration errors (R126, R230, R231, R444) -/

/-- ckpt (R230, R444): it gates its region; run again after settlement it records the push state in the attic and resumes.
The record holds the ckpt itself as an instance that has not acted, so that a recovery goes on from it. -/
def execCkpt (f : SFmt) (s : State) : Res :=
  .next (shell f.pr [f.t0] s fun s =>
    match curRegion s with
    | none => s
    | some r =>
      match r.phase with
      | .run => waitStage (modRegion s r.bay r.idx fun r => { r with phase := .ckptGate }) 9
      | .ckptGate =>
        if s.cur.stage != some 9 || r.fault.isSome || !settledRegion s r then waitCur s
        else match takeCkpt s r [{ s.cur with stage := none }] with
          | .error s => waitCur s
          | .ok s => pairRegion (send (modRegion s r.bay r.idx fun r => { r with phase := .run }) f.t0 (opA s)) r.bay r.idx
      | _ => waitCur s)

/-- The words and constants of a context, reloaded from the protected copy. -/
def reloadCtx (c : Ctx) : Ctx :=
  { c with iw := c.copy.getD 0 0, rw := c.copy.getD 1 0, pw := c.copy.getD 2 0, q := c.copy.drop 3, bad := false }

/-- F_CFGECC of a region whose protected copy fails too (R126, R230): the word index of the first bad word. -/
def cfgEcc (s : State) (r : Region) : State :=
  let l := regionCtxs s r
  let n := ((findPos (fun (c : Ctx) => c.bad) l).map (·.1)).getD 0
  let c := l[n]?
  freezeRegion s r.bay r.idx
    { recBase F_CFGECC r.part with
        flags := flGrid, bay := r.bay, region := r.idx, addr := r.image, g4 := BitVec.ofNat 64 n
        cell := (c.map (·.cell)).getD 0, ctx := (c.map (·.ctx)).getD 0 } none

/-- The reloaded words of a region are accepted: the copy is correctable and its signature matches (R126). -/
def copyGood (s : State) (r : Region) : Bool :=
  let l := regionCtxs s r
  !(l.any fun c => c.bad && c.copyBad) && signature (l.map reloadCtx) == r.sig

/-- CONFIG_ECC_RECOVERY (R126, R230): the region gates and settles as by R225; then its bad words come back from the
protected copy, and it thaws with its queues intact. -/
def execConfigEccRecovery (bay g : Nat) (s : State) : Res :=
  match region? s bay g with
  | none => .next s
  | some r =>
    if !((regionCtxs s r).any (·.bad)) || r.ck || r.fault.isSome then .next s
    else if r.phase == .run then .next (modRegion s bay g fun r => { r with phase := .eccGate })
    else if !settledRegion s r then .next s
    else
      let s := if r.phase == .eccGate then modRegion s bay g fun r => { r with phase := .run } else s
      if copyGood s r then
        .next (pairRegion { s with ctxs := updWhere (fun c => c.bay == bay && c.region == g && c.bad) reloadCtx s.ctxs } bay g)
      else .next (cfgEcc s r)

/-- The argument of a grid call of the region on its way to the callee: it is made again by the call that a recovery repeats. -/
def callArg (r : Region) (x : Flight) : Bool :=
  x.part == r.part && decide (4096 ≤ x.sender) && decide (x.sender < 8192) && (match x.toward with
    | .dest d => fld d 10 7 == r.name.1 && decide (r.entryBase ≤ fld d 0 6) && decide (fld d 0 6 < r.entryBase + r.ne)
    | _ => false)

/-- CHECKPOINT_RECOVERY (R231): the checkpoint is restored, held exits and stores are dropped, the values of the stores that
it let out go to T0 again, and the logged entry tokens come again in the log's order, before those that came after them. It
waits for room in the cells' queues (R152). -/
def execCheckpointRecovery (bay g : Nat) (s : State) : Res :=
  match region? s bay g with
  | none => .next s
  | some r =>
    match r.ckpt with
    | none => .next s
    | some ck =>
      if !((regionCtxs s r).any (·.bad)) || !r.ck || r.fault.isSome then .next s
      else if !copyGood s r then .next (cfgEcc s r)
      else if !planeFits s r ck.top then .next s
      else match atticTouch s r.part (planeBytes r) false false with
        | .error s => .next s
        | .ok s =>
          let s := { s with stores := s.stores.filter (fun h => !(h.bay == bay && h.region == some g)),
                            net := r.entryLog.map (fun x => { x with sender := replaySender r }) ++
                              s.net.filter fun x => !toRegion r x && !callArg r x && !replays r x }
          let s := modRegion s bay g fun r => { r with exitHold := [], entryLog := [], planes := ck.under }
          .next (pairRegion (sendReplies (loadPlane s r ck.top) ck.sent) bay g)

end Sys2Proof.Machine
end

