-- ==== Sys2Proof/Machine/Streams.lean ====
section
/-! DEFINITION. Streams: binding (R108, R385), the issue of elements (R60, R111), and KV chains (R255, R256, R386). -/
namespace Sys2Proof.Machine

/-- The slot of a stream control word. -/
def strSlot (c : Word) : Nat := fld c 0 5

/-- The bound stream of a slot. -/
def stream? (s : State) (bay slot : Nat) : Option Stream := s.streams.find? fun x => x.bay == bay && x.slot == slot

/-- The codebook of a stream slot; +0.0 in every entry unless one was loaded (R249, R250). -/
def codebook (s : State) (bay slot : Nat) : BitVec 256 := (assoc (bay, slot) s.codebooks).getD 0

/-- Code k of a codebook, as f32 (R59, R60). -/
def decodeC4 (cb : BitVec 256) (k : Nat) : Word := BitVec.ofNat 64 (loadWiden bf16 (fld cb (16 * k) 16))

/-- First byte of element e of a stream, and the bytes it takes; of c4, the byte that holds the code (R60, R385). -/
def elemAt (sf : Nat) (base : Int) (a : Word) (stride : Int) (e : Nat) : Int × Nat :=
  if sf == 9 then ((a.toNat : Int) + (base + (e : Int) * stride) / 2, 1)
  else (base + (e : Int) * stride * (sfBytes sf : Int), sfBytes sf)

/-- The lowest and the highest byte that the bounds of a stream reach (R108). -/
def extent (sf : Nat) (base : Int) (a : Word) (stride : Int) (count : Nat) : Int × Int :=
  let x := elemAt sf base a stride 0
  let y := elemAt sf base a stride (count - 1)
  (if x.1 ≤ y.1 then x.1 else y.1, (if x.1 ≤ y.1 then y.1 else x.1) + (x.2 : Int) - 1)

/-- Bind a read stream (R385). -/
def streamBind (f : MFmt) (s : State) : State :=
  let c := opC s
  let sf := f.sf.toNat
  let slot := strSlot c
  if bitAt c 62 || fld c 5 34 != 0 || (sf == 9 && !bitAt c 61) then illop s
  else if (stream? s (curKey s) slot).isSome then waitCur s
  else
    let count := fld (opB s) 0 32
    let stride := signed (fld c 39 16) 16
    let base : Int := if sf == 9 then offM f else eaOf f (sfBytes sf) (opA s)
    let ex := extent sf base (opA s) stride count
    if count != 0 && !(decide (0 ≤ ex.1) && sameHalf ex.1.toNat ex.2.toNat) then fault s F_NONCANON (BitVec.ofInt 64 (elemAt sf base (opA s) stride 0).1) 0
    else if sf != 9 && base % (sfBytes sf : Int) != 0 then fault s F_ALIGN (BitVec.ofInt 64 base) (BitVec.ofNat 64 (sfBytes sf))
    else
      let g := s.cur.grid.getD 0
      let x : Stream :=
        { id := s.cmdNo, bay := curKey s, slot := slot, part := s.cur.part, region := g, inst := s.cur, count := count, pos := 0, done := [], runs := [], base := base,
          stride := stride, sf := sf, ahead := fld c 55 6, waitcb := bitAt c 61,
          depth := ((curRegion s).map fun r => r.planes.length).getD 0 }
      { s with streams := s.streams ++ [x], codebooks := assocSet (curKey s, slot) 0 s.codebooks, cmdNo := s.cmdNo + 1 }

/-- The place of a bay in snake order (R255). -/
def snake (b : Nat) : Nat := b / 4 * 4 + (if b / 4 % 2 == 0 then b % 4 else 3 - b % 4)

/-- A list strictly rises. -/
def rising : List Nat → Bool
  | a :: b :: l => decide (a < b) && rising (b :: l)
  | _ => true

/-- The register that a chain's bay at position j takes (R256, R386). -/
def kvcWord (bays : List Nat) (cap j : Nat) : Word :=
  let last := j + 1 == bays.length
  BitVec.ofNat 64 (pow2 63 + (if last then pow2 62 else (bays.getD (j + 1) 0) * pow2 55) + cap * pow2 32)

/-- The chain register KVCk kept under a key. -/
def kvcAt (s : State) (key k : Nat) : Word := (assoc (key, k) s.kvc).getD 0

/-- The bays of a 32-byte chain record, in chain order, and the capacity of each (R386). -/
def kvBays (bs : List Byte) : List Nat := (List.range ((bs.getD 0 0).toNat % 16 + 1)).map fun j => (bs.getD (j + 1) 0).toNat
def kvCap (bs : List Byte) : Nat := ofBytes ((bs.drop 20).take 4)

/-- Chain k cannot be bound by this record: its count, a reserved byte or its capacity is out of range, its bays do not rise
in snake order, or one lies outside PART_BAYS or holds chain k already (R255, R386). -/
def kvRecordBad (s : State) (k : Nat) (bs : List Byte) : Bool :=
  decide (16 ≤ (bs.getD 0 0).toNat) || ((bs.drop 17).take 3 ++ bs.drop 24).any (· != 0) || kvCap bs == 0 || decide (pow2 23 ≤ kvCap bs) ||
    !rising ((kvBays bs).map snake) ||
    (kvBays bs).any fun y => !((part s s.cur.part).bays.getLsbD y) || bitAt (kvcAt s (nameKey s s.cur.part y) k) 63

/-- Install chain k in KVCk of each of its bays, for the current region (R256, R386). -/
def kvInstall (s : State) (k : Nat) (bs : List Byte) : State :=
  let bays := kvBays bs
  let regs := (List.range bays.length).map fun j => ((bays.getD j 0, k), kvcWord bays (kvCap bs) j)
  let s := { s with kvc := regs.foldl (fun l x => assocSet (nameKey s s.cur.part x.1.1, x.1.2) x.2 l) s.kvc }
  modRegion s s.cur.bay (s.cur.grid.getD 0) fun r => { r with kvc := r.kvc ++ regs.map (·.1) }

/-- Bind a KV chain of bays of PART_BAYS (R255, R386). -/
def kvBind (f : MFmt) (s : State) : State :=
  if fld (opC s) 5 34 != 0 then illop s
  else withRuns s ((opA s).toNat : Int) 32 32 false fun s rs =>
    let r := loadRuns s f.own.toNat rs
    let k := fld (opB r.2) 0 3
    if kvRecordBad r.2 k r.1 then illop r.2 else sendKind (send (kvInstall r.2 k r.1) f.t0 0) f.t0 .eos 0

/-- stream (R385). -/
def execStream (f : MFmt) (s : State) : Res :=
  memShell f false false (fld (opC s) 62 2 == 2) s fun s => if fld (opC s) 62 2 == 2 then kvBind f s else streamBind f s

/-- stream with DIR = 0b10 (R386). -/
def execStreamKvBind (f : MFmt) (s : State) : Res := memShell f false false true s (kvBind f)

/-- The stream may issue: its region runs at the depth at which it was bound, and its partition is not gated (R179, R225), in a
slot that it owns (R239). -/
def streamRuns (s : State) (x : Stream) : Bool :=
  !bayGated s x.part x.inst.bay && inSlot s x.part && (match region? s x.inst.bay x.region with
    | some r => !gated r && r.planes.length == x.depth
    | none => false)

/-- Send a token of a stream along its route, under the trigger's tag. -/
def streamSend (s : State) (x : Stream) (k : Kind) (v : Word) : State :=
  let t := { s with cur := x.inst }
  let f := getM x.inst.word
  let rk := fld f.t0 0 2
  let t :=
    if f.t0 == nullT || !phaseAllows t rk then t
    else match ctx? t x.inst.bay x.inst.cell x.inst.ctx with
      | some c => sendRoute t (routeOf c.rw rk) { curTok t k v with strm := if k == .data then some x.id else none } none
      | none => t
  { t with cur := s.cur }

/-- A fault at an element: the region freezes, and the element is tried again after a thaw. -/
def streamFault (s : State) (x : Stream) (code : BitVec 8) (g4 g5 : Word) : State :=
  freezeRegion s x.inst.bay x.region (recCur { s with cur := x.inst } code g4 g5) none

/-- The element with its page translated by a patched run (R109). -/
def patched? (x : Stream) (va : Nat) : Option TlbEntry := x.runs.find? (tlbHits x.inst.bay x.part va)

/-- The kind of a stream's accesses: loads at program level (R501). -/
def streamKind (s : State) (x : Stream) (quick : Bool) : AccKind := ⟨false, false, false, quick, treeOf s x.part x.inst.tag.frame.toNat⟩

/-- Patch the pages from a virtual address on, one after the other in the stream's direction (`up`), while each has a valid
translation that passes its checks and lies in the extent, whose last byte in that direction is `last` (R109). -/
def patchRuns (x : Stream) (up : Bool) (step last : Nat) : Nat → State → Nat → List TlbEntry → State × List TlbEntry
  | 0, s, _, acc => (s, acc)
  | n + 1, s, va, acc =>
    let k := streamKind s x true
    match pageEntry x.inst.bay x.part k 0 s va with
    | (s, .error _) => (s, acc)
    | (s, .ok e) =>
      if pageProt k e (e.pa + va % pow2 e.size) then (s, acc)
      else
        let next := if up then Nat.max (va + step) (e.va + pow2 e.size) else Nat.min (va - step) (e.va - 1)
        if (if up then decide (last < next) else decide (next < last) || e.va == 0) then (s, acc ++ [e])
        else patchRuns x up step last n s next (acc ++ [e])

/-- Patch the window of up to 64 pages that begins at element e (R109). -/
def patchWindow (s : State) (x : Stream) (e : Nat) : State :=
  let a := elemAt x.sf x.base (dataOf x.inst.a) x.stride e
  let z := elemAt x.sf x.base (dataOf x.inst.a) x.stride (x.count - 1)
  let up := decide (0 ≤ x.stride)
  let r := patchRuns x up (x.stride.natAbs * sfBytes x.sf) z.1.toNat 64 s a.1.toNat []
  let old := x.runs.filter fun o => !(r.2.any fun n => n.va == o.va)
  let l := old ++ r.2
  { r.1 with streams := updWhere (fun y => y.id == x.id) (fun y => { y with runs := l.drop (l.length - 64) }) r.1.streams }

/-- What an element's turn answers: its value, a wait, or a check that failed. -/
inductive Elem where
  | value (v : Word)
  | held
  | bad (code : BitVec 8) (addr : Word)
  deriving DecidableEq, Repr

/-- The value of element e from the runs of its bytes (R59, R60). -/
def elemValue (s : State) (x : Stream) (e : Nat) (rs : List Run) : State × Elem :=
  match poisonedAt s rs with
  | some a => (s, .bad F_MEMECC (BitVec.ofNat 64 a))
  | none =>
    let r := readRuns s x.part (treeOf s x.part x.inst.tag.frame.toNat) rs
    let n := x.base + (e : Int) * x.stride
    (r.2, .value (if x.sf == 9 then decodeC4 (codebook s x.bay x.slot) (nbits (ofBytes r.1) (if n % 2 == 0 then 0 else 4) 4) else widenSf x.sf r.1))

/-- Read element e: through a patched run, or with a translation of its own, from which the next window is patched. -/
def elemRead (s : State) (x : Stream) (e : Nat) : State × Elem :=
  let a := elemAt x.sf x.base (dataOf x.inst.a) x.stride e
  match patched? x a.1.toNat with
  | some t => elemValue s x e [⟨t.pa + a.1.toNat % pow2 t.size, a.2, t.uncached, t.vr⟩]
  | none =>
    match checkRun s x.inst.bay x.part (streamKind s x false) (tagWord x.inst.tag) a.1 a.2 1 with
    | (s, .bad c v) => (s, .bad c v)
    | (s, .ok rs) => elemValue (patchWindow s x e) x e rs
    | (s, _) => (s, .held)

/-- The element's page waits for a walk or an open page fault (R110, R111). -/
def elemHeld (s : State) (x : Stream) (e : Nat) : Bool :=
  let va := (elemAt x.sf x.base (dataOf x.inst.a) x.stride e).1.toNat
  (patched? x va).isNone && (heldTag s x.part (tagWord x.inst.tag) va || (!(s.tlb.any (tlbHits x.inst.bay x.part va)) && walking s x.inst.bay x.part va))

/-- The next element that the generator may issue: not complete, not held, within 64 places of the oldest incomplete one
(R111) and within the read-ahead (R385). -/
def nextElement (s : State) (x : Stream) : Option Nat :=
  let out := streamOut s x - x.done.length
  ((List.range 64).map (x.pos + ·)).find? fun e =>
    decide (e < x.count) && decide (out + (e - x.pos) ≤ x.ahead) && !(x.done.any fun d => d.1 == e) && !elemHeld s x e

/-- The turn of a stream's elements in a deterministic partition (R148–R150). -/
def streamTurn (s : State) (x : Stream) : Bool :=
  !isDet s x.part || turn s ⟨x.part, accKeyOf s x.inst, none, some (instWave s x.inst)⟩

/-- Hand the oldest element on, in element order (R111). -/
def handOn (s : State) (x : Stream) (v : Word) : State :=
  let s := { s with streams := updWhere (fun y => y.id == x.id) (fun y => { y with pos := y.pos + 1, done := y.done.filter fun d => d.1 != x.pos }) s.streams }
  streamSend s x .data v

/-- STREAM_ELEMENT_ISSUE (R60, R109, R111, R385): an element that is complete and the oldest goes on; else the next one is
read, and waits in the reorder unit while an older one is held; after the last, the marker. -/
def execStreamElementIssue (bay slot : Nat) (s : State) : Res :=
  match stream? s bay slot with
  | none => .next s
  | some x =>
    if !streamRuns s x || x.waitcb then .next s
    else if x.count ≤ x.pos then
      .next (streamSend { s with streams := s.streams.filter fun y => !(y.bay == bay && y.slot == slot) } x .eos 0)
    else match assoc x.pos x.done with
      | some v => .next (handOn s x v)
      | none =>
        match nextElement s x with
        | none => .next s
        | some e =>
          if !streamTurn s x then .next s
          else match elemRead s x e with
            | (s, .bad c a) => .next (streamFault s x c a 0)
            | (s, .held) => .next s
            | (s, .value v) =>
              .next (if e == x.pos then handOn s x v
                else { s with streams := updWhere (fun y => y.id == x.id) (fun y => { y with done := y.done ++ [(e, v)] }) s.streams })

end Sys2Proof.Machine
end

