-- ==== Sys2Proof/Machine/EngineMsg.lean ====
section
/-! DEFINITION. Engine messages: their fields (R182, R183), operand descriptors (R398), acceptance (R185, R416), and the
instructions that send them (R393–R395, R413–R415). -/
namespace Sys2Proof.Machine

/-! ### The header beat (R182, R183) -/

def mEop (h : Beat) : Nat := fld h 120 8
def mHnd (h : Beat) : Nat := fld h 116 4
def mQn (h : Beat) : Nat := fld h 112 4
def mPush (h : Beat) : Nat := fld h 106 6
def mPop (h : Beat) : Nat := fld h 100 6
def mBeats (h : Beat) : Nat := fld h 96 2
def mArg (h : Beat) : Nat := fld h 64 32
def mCont (h : Beat) : Word := BitVec.extractLsb' 0 64 h
def mCk (h : Beat) : Nat := fld h 62 2

/-- The upper half of a header beat. -/
def mHigh (h : Beat) : Word := BitVec.extractLsb' 64 64 h

/-- Beats in all that an EOP requires (R393); 0 for an EOP that no message may bear. -/
def needBeats (e : Nat) : Nat :=
  if e == 0x10 || e == 0x20 || e == 0x28 || e == 0x29 || e == 0x2A || e == 0x40 then 4
  else if e == 0x2B || e == 0x2C || e == 0x41 || e == 0x43 || e == 0x44 then 3
  else if e == 0x08 || e == 0x12 || e == 0x13 || e == 0x2D || e == 0x42 then 2
  else if e == 0x11 then 1 else 0

/-- The engine of an EOP (R186, R413): 0 matrix, 1 copy, 2 gather, 3 link; 4 for handler install. -/
def engOf (e : Nat) : Nat :=
  if e == 0x08 then 4 else if e < 0x20 then 0 else if e < 0x28 then 1 else if e < 0x40 then 2 else 3

/-- A header with its fields. -/
def mkHeader (eop hnd q push pop beats arg : Nat) (cont : Word) : Beat :=
  BitVec.ofNat 128 (eop * pow2 120 + hnd * pow2 116 + q * pow2 112 + push * pow2 106 + pop * pow2 100 + beats * pow2 96 +
    arg * pow2 64 + cont.toNat)

/-- The completion address of a CONT with CK = 0b10, sign-extended from bit 56. -/
def contAddr (c : Word) : Word := BitVec.signExtend 64 (BitVec.extractLsb' 0 57 c)

/-- The queue of a command (R187, R413): link commands and link templates use LQ. -/
def queueOf (p bay : Nat) (h : Beat) : QRef :=
  let lq := engOf (mEop h) == 3 || (mEop h == 0x08 && mArg h % 4 == 3)
  ⟨lq, if lq then p else bay, mQn h⟩

/-! ### Operand descriptors (R398, R399) -/

def oShelf (b : Beat) : Bool := fld b 126 2 == 1
def oSf (b : Beat) : Nat := fld b 122 4
def oSlot (b : Beat) : Nat := fld b 117 5
def oOvp (b : Beat) : Nat := fld b 112 2
def oVa (b : Beat) : Nat := fld b 0 64
def oBase (b : Beat) : Nat := fld b 0 22
def oRot (b : Beat) : Nat := fld b 38 3
def oTile (b : Beat) : Nat := fld b 64 22

/-- Row pitch: bytes in the shelf, elements in memory. -/
def oPitch (b : Beat) : Nat := if oShelf b then fld b 22 16 else fld b 64 32

/-- Every storage format, and those that a store may write (R59). -/
def anySf : List Nat := [0, 1, 2, 3, 4, 5, 6, 7, 8, 9, 10]
def dstSf : List Nat := [0, 1, 2, 3, 4, 5, 6, 7, 8, 10]

/-- A local operand beat breaks R398 or R416, for an entry that allows the formats `ok`. -/
def opndBad (ok : List Nat) (b : Beat) : Bool :=
  let sh := oShelf b
  (fld b 126 2 == 0 || fld b 126 2 == 3) || fld b 114 3 != 0 || fld b 96 16 != 0 || !ok.contains (oSf b) || (sh && oSf b == 9) ||
    (oSlot b != 0 && oSf b != 9) || (sh && (fld b 86 10 != 0 || fld b 41 23 != 0)) ||
    (sh && oRot b != 0 && (oBase b % 16 != 0 || oPitch b % 16 != 0 || oTile b % 16 != 0))

/-- The memory run [lo, hi] leaves the canonical space or crosses halves (R108). -/
def runBad (lo hi : Nat) : Bool := !sameHalf lo hi

/-- The byte behind the last that `planes` planes of a shelf operand reach. -/
def shelfEnd (b : Beat) (planes rows elems : Nat) : Nat := oBase b + (planes - 1) * oTile b + (rows - 1) * oPitch b + elems * sfBytes (oSf b)

/-- The extent of an operand over planes, rows and elements leaves the shelf (R117) or the canonical space (R108). -/
def extBad (b : Beat) (planes rows elems pp : Nat) : Option (BitVec 8) :=
  if oShelf b then
    if pow2 22 < shelfEnd b planes rows elems then some F_ENGINE else none
  else
    let last := (planes - 1) * pp + (rows - 1) * oPitch b + (elems - 1)
    let hi := if oSf b == 9 then oVa b + last / 2 else oVa b + (last + 1) * sfBytes (oSf b) - 1
    if runBad (oVa b) hi then some F_NONCANON else none

/-! ### The checks of one command (R185, R400–R416) -/

/-- What a refusal reports: its code and its detail words. -/
abbrev Refused := BitVec 8 × Word × Word

/-- F_ENGINE of a message (R449). -/
def engRefused (h : Beat) : Refused := (F_ENGINE, mHigh h, mCont h)

/-- A refusal with a code that an extent gave. -/
def extRefused (h b : Beat) (c : BitVec 8) : Refused := if c == F_ENGINE then engRefused h else (c, BitVec.extractLsb' 0 64 b, 0)

/-- The first extent of a list that is refused. -/
def extsRefused (h : Beat) (l : List (Beat × Nat × Nat × Nat × Nat)) : Option Refused :=
  l.findSome? fun x => (extBad x.1 x.2.1 x.2.2.1 x.2.2.2.1 x.2.2.2.2).map (extRefused h x.1)

/-- The memory run that a plain address names: n bytes. -/
def addrRefused (va n : Nat) : Option Refused := if runBad va (va + n - 1) then some (F_NONCANON, BitVec.ofNat 64 va, 0) else none

/-- A message sets a bit of ARG that its EOP leaves unused (R393). -/
def argBadBits (h : Beat) : Bool := argUnused (mEop h) (mArg h)

/-- COUNT of a gather command (R404). -/
def gCount (h : Beat) : Nat := if mEop h == 0x29 then nbits (mArg h) 9 23 else nbits (mArg h) 5 27

/-- Candidates per group: 1 outside gathw. -/
def gGroup (h : Beat) : Nat := if mEop h == 0x29 then nbits (mArg h) 5 4 + 1 else 1

/-- KV = 1. -/
def gKv (h : Beat) : Bool := (mEop h == 0x28 || mEop h == 0x2A) && nbits (mArg h) 4 1 == 1

/-- Fields of a matrix control beat (R400). -/
def mmM (c : Beat) : Nat := fld c 0 7 + 1
def mmN (c : Beat) : Nat := fld c 7 7 + 1
def mmK (c : Beat) : Nat := fld c 14 20 + 1
def mmTile (c : Beat) : Nat := fld c 34 3
def mmRow (c : Beat) : Nat := fld c 37 7
def mmCol (c : Beat) : Nat := fld c 44 7
def mmInt (c : Beat) : Bool := bitAt c 51
def mmTb (c : Beat) : Bool := bitAt c 52

/-- The extent of a matrix operand of n elements a row: in the shelf they stand in tiles of 128, the last of which may hold
fewer (R117, R400). -/
def tiledRefused (h b : Beat) (rows n : Nat) : Option Refused :=
  if oShelf b then
    let t := (n + 127) / 128
    let whole := if t == 1 then 0 else shelfEnd b (t - 1) rows 128
    if pow2 22 < Nat.max whole (shelfEnd b t rows (n - 128 * (t - 1))) then some (engRefused h) else none
  else extsRefused h [(b, 1, rows, n, 0)]

/-- Fields of a copy control beat (R402). -/
def cpN0 (c : Beat) : Nat := fld c 0 24 + 1
def cpN1 (c : Beat) : Nat := fld c 24 16 + 1
def cpN2 (c : Beat) : Nat := fld c 40 16 + 1
def cpMode (c : Beat) : Nat := fld c 56 2
def cpSpp (c : Beat) : Nat := fld c 64 32
def cpDpp (c : Beat) : Nat := fld c 96 32
def cpTrailer (c : Beat) : Nat := fld c 64 64

/-- A matrix operand has a format of its mode. -/
def mmSfOk (c b : Beat) : Bool := if mmInt c then oSf b == 0 else oSf b == 7 || (oSf b == 9 && !oShelf b)

/-- The checks of mm. -/
def mmRefused (h a b c : Beat) : Option Refused :=
  if opndBad anySf a || opndBad anySf b || fld c 53 75 != 0 || !mmSfOk c a || !mmSfOk c b || decide (128 < mmRow c + mmM c) ||
      decide (128 < mmCol c + mmN c) then some (engRefused h)
  else (tiledRefused h a (mmM c) (mmK c)).orElse fun _ => if mmTb c then tiledRefused h b (mmN c) (mmK c) else tiledRefused h b (mmK c) (mmN c)

/-- Rows of an accumulator range (R401). -/
def accRow (h : Beat) : Nat := nbits (mArg h) 3 7
def accRows (h : Beat) : Nat := nbits (mArg h) 10 7 + 1
def accTile (h : Beat) : Nat := nbits (mArg h) 0 3

/-- The checks of acczero, accld and accst. -/
def accRefused (h : Beat) (b : Option Beat) : Option Refused :=
  if 128 < accRow h + accRows h then some (engRefused h)
  else match b with
    | none => none
    | some b => if opndBad [4, 6, 7, 8] b then some (engRefused h) else extsRefused h [(b, 1, accRows h, 128, 0)]

/-- The partition's key and its sealing counter allow a sealing or opening copy (R263). -/
def keyReady (s : State) (p mode : Nat) : Bool := (part s p).key.isSome && (mode != 1 || (part s p).sealCnt != 0xFFFFFFFFFFFFFFFF)

/-- The checks of copy (R402, R403). -/
def copyRefused (s : State) (p : Nat) (h a b c : Beat) : Option Refused :=
  if opndBad anySf a || opndBad dstSf b || fld c 58 6 != 0 || cpMode c == 3 then some (engRefused h)
  else if cpMode c == 0 then
    extsRefused h [(a, cpN2 c, cpN1 c, cpN0 c, cpSpp c), (b, cpN2 c, cpN1 c, cpN0 c, cpDpp c)]
  else if cpN0 c != 2048 || cpN1 c != 1 || cpN2 c != 1 || oSf a != 5 || oSf b != 5 || oShelf a || oShelf b || oVa a % pow2 14 != 0 ||
      oVa b % pow2 14 != 0 || cpTrailer c % 32 != 0 || !keyReady s p (cpMode c) then some (engRefused h)
  else (extsRefused h [(a, 1, 1, 2048, 0), (b, 1, 1, 2048, 0)]).orElse fun _ => addrRefused (cpTrailer c) 32

/-- The chain register that a gather command names (R404). -/
def chainReg (s : State) (bay : Nat) (h : Beat) : Word := kvcAt s bay (nbits (mArg h) 0 3)

/-- Shelf base and row bytes of a KV geometry beat (R404). -/
def kvBase (b : Beat) : Nat := fld b 0 22
def kvRowBytes (b : Beat) : Nat := fld b 22 16

/-- The geometry beat of gath and scat is refused. -/
def geomBad (s : State) (bay : Nat) (h g : Beat) : Bool :=
  if gKv h then
    let r := chainReg s bay h
    !bitAt r 63 || fld g 38 90 != 0 || kvRowBytes g % 16 != 0 || decide (pow2 22 < kvBase g + fld r 32 23 * kvRowBytes g)
  else g != 0

/-- The storage format in which a chain keeps the elements of a source: c4 codes as the f32 values they decode to. -/
def kvSf (sf : Nat) : Nat := if sf == 9 then 6 else sf

/-- The extent of the operand that a gather command on a chain moves its rows to or from: COUNT rows of the geometry's
length (R108, R117, R404). -/
def kvRefused (h b g : Beat) : Option Refused :=
  if gKv h && gCount h != 0 then extsRefused h [(b, 1, gCount h, kvRowBytes g / sfBytes (kvSf (oSf b)), 0)] else none

/-- The checks of a gather command whose index list, with `n` entries, stands first; `other` are its further operands
with the formats they may have. -/
def listRefused (h : Beat) (n : Nat) (idx : Beat) (other : List (Beat × List Nat)) : Option Refused :=
  if opndBad [4] idx || other.any fun x => opndBad x.2 x.1 then some (engRefused h)
  else if n == 0 then none else extsRefused h [(idx, 1, 1, n, 0)]

/-- The geometry of a table (R251, R407): the second beat of tblswap is refused. -/
def tblGeomBad (b : Beat) : Bool :=
  let rowb := fld b 32 16
  fld b 78 50 != 0 || decide (rowb < 4) || rowb % 4 != 0 || fld b 48 4 == 9 || decide (10 < fld b 48 4)

/-- The checks of a command on its ARG and all its beats. -/
def bodyRefused (s : State) (p bay : Nat) (h : Beat) (l : List Beat) : Option Refused :=
  let e := mEop h
  let b1 := l.getD 0 0
  let b2 := l.getD 1 0
  let b3 := l.getD 2 0
  let n := mArg h
  if argBadBits h then some (engRefused h)
  else if e == 0x10 then mmRefused h b1 b2 b3
  else if e == 0x11 then accRefused h none
  else if e == 0x12 || e == 0x13 then accRefused h (some b1)
  else if e == 0x20 then copyRefused s p h b1 b2 b3
  else if e == 0x28 then
    (if geomBad s bay h b3 then some (engRefused h) else (listRefused h (gCount h) b1 [(b2, dstSf)]).orElse fun _ => kvRefused h b2 b3)
  else if e == 0x2A then
    (if geomBad s bay h b3 then some (engRefused h) else (listRefused h (gCount h) b1 [(b2, anySf)]).orElse fun _ => kvRefused h b2 b3)
  else if e == 0x29 then
    (listRefused h (gCount h * gGroup h) b1 [(b2, [6, 7]), (b3, dstSf)]).orElse fun _ =>
      if gCount h == 0 then none else extsRefused h [(b2, 1, 1, gCount h * gGroup h, 0)]
  else if e == 0x2B then listRefused h (gCount h) b1 [(b2, anySf)]
  else if e == 0x2C then
    (if fld b1 96 32 != 0 || oVa b1 % 64 != 0 || tblGeomBad b2 then some (engRefused h) else if !canon (oVa b1) then some (F_NONCANON, BitVec.ofNat 64 (oVa b1), 0) else none)
  else if e == 0x2D then (if fld b1 64 64 != 0 then some (engRefused h) else addrRefused (oVa b1) 32)
  else if e == 0x08 then (if fld b1 64 64 != 0 then some (engRefused h) else addrRefused (oVa b1) 64)
  else if e == 0x40 then
    let nm := fld b3 64 16 + 1
    if opndBad [4, 5, 6] b1 || opndBad [4, 5, 6] b2 || fld b3 85 43 != 0 || fld b3 80 2 == 3 || fld b3 82 2 == 3 then some (engRefused h)
    else (addrRefused (fld b3 0 64) (8 * nm)).orElse fun _ =>
      if n == 0 then none else extsRefused h [(b1, 1, 1, n, 0), (b2, if fld b3 80 2 == 1 then nm else 1, 1, n, oPitch b2)]
  else if e == 0x41 then
    (if opndBad [1] b1 || decide (8160 < n) || fld b2 80 48 != 0 then some (engRefused h)
     else (addrRefused (oVa b2) (8 * (fld b2 64 16 + 1))).orElse fun _ => if n == 0 then none else extsRefused h [(b1, 1, 1, n, 0)])
  else if e == 0x42 then (if opndBad [1] b1 || decide (n < 32) then some (engRefused h) else extsRefused h [(b1, 1, 1, n, 0)])
  else if e == 0x43 then
    (if opndBad [1] b1 || fld b2 81 47 != 0 then some (engRefused h)
     else if n == 0 then none else (extsRefused h [(b1, 1, 1, n, 0)]).orElse fun _ => addrRefused (oVa b2) n)
  else if e == 0x44 then
    (if opndBad [1] b2 || fld b1 81 47 != 0 then some (engRefused h)
     else if n == 0 then none else (addrRefused (oVa b1) n).orElse fun _ => extsRefused h [(b2, 1, 1, n, 0)])
  else none

/-- A reserved field of the header or of CONT is not zero (R182, R183). -/
def headBad (h : Beat) : Bool :=
  let ck := mCk h
  fld h 98 2 != 0 || (ck == 0 && fld h 0 62 != 0) || (ck == 1 && (fld h 49 13 != 0 || bitAt h 0)) || (ck == 2 && fld h 57 5 != 0) ||
    (ck == 3 && fld h 6 56 != 0)

/-- The checks that a header alone allows (R185, R416). -/
def headerRefused (s : State) (bay : Nat) (h : Beat) : Option Refused :=
  let e := mEop h
  if argBadBits h then some (engRefused h)
  else if e == 0x11 || e == 0x12 || e == 0x13 then accRefused h none
  else if ((e == 0x28 || e == 0x2A) && gKv h && !bitAt (chainReg s bay h) 63) || (e == 0x41 && decide (8160 < mArg h)) ||
      (e == 0x42 && decide (mArg h < 32)) then some (engRefused h)
  else none

/-- The checks of beat 1 of a message that lacks a later one: its fields, and its extent where ARG gives it. -/
def beat1Refused (h b : Beat) : Option Refused :=
  let e := mEop h
  let n := mArg h
  if e == 0x10 then (if opndBad [0, 7, 9] b then some (engRefused h) else none)
  else if e == 0x20 then (if opndBad anySf b then some (engRefused h) else none)
  else if e == 0x28 || e == 0x2A || e == 0x2B then listRefused h (gCount h) b []
  else if e == 0x29 then listRefused h (gCount h * gGroup h) b []
  else if e == 0x2C then
    (if fld b 96 32 != 0 || oVa b % 64 != 0 then some (engRefused h) else if !canon (oVa b) then some (F_NONCANON, BitVec.ofNat 64 (oVa b), 0) else none)
  else if e == 0x40 then (if opndBad [4, 5, 6] b then some (engRefused h) else if n == 0 then none else extsRefused h [(b, 1, 1, n, 0)])
  else if e == 0x41 || e == 0x43 then (if opndBad [1] b then some (engRefused h) else if n == 0 then none else extsRefused h [(b, 1, 1, n, 0)])
  else if e == 0x44 then (if fld b 81 47 != 0 then some (engRefused h) else if n == 0 then none else addrRefused (oVa b) n)
  else none

/-- The checks of beat 2 of a message that lacks beat 3. -/
def beat2Refused (h b : Beat) : Option Refused :=
  let e := mEop h
  let n := gCount h * gGroup h
  if e == 0x10 then (if opndBad [0, 7, 9] b then some (engRefused h) else none)
  else if e == 0x20 || e == 0x28 then (if opndBad dstSf b then some (engRefused h) else none)
  else if e == 0x2A then (if opndBad anySf b then some (engRefused h) else none)
  else if e == 0x29 then (if opndBad [6, 7] b then some (engRefused h) else if n == 0 then none else extsRefused h [(b, 1, 1, n, 0)])
  else if e == 0x40 then (if opndBad [4, 5, 6] b then some (engRefused h) else none)
  else none

/-- The checks of a message that a template is to complete: on its header and on the beats that it carries (R185). -/
def carriedRefused (s : State) (bay : Nat) (h : Beat) (l : List Beat) : Option Refused :=
  (headerRefused s bay h).orElse fun _ => (l.head?.bind (beat1Refused h)).orElse fun _ => (l[1]?).bind (beat2Refused h)

/-- Why a message is refused (R185, R416); none when it is accepted. -/
def msgRefused (s : State) (p bay : Nat) (h : Beat) (l : List Beat) : Option Refused :=
  let need := needBeats (mEop h)
  if need == 0 || headBad h || (mHnd h == 0 && l.length + 1 != need) || (mHnd h == 0 && mBeats h + 1 != need) || decide (need < l.length + 1) then
    some (engRefused h)
  else if mCk h == 2 && !canon (contAddr (mCont h)).toNat then some (F_NONCANON, contAddr (mCont h), 0)
  else if mCk h == 2 && (contAddr (mCont h)).toNat % 8 != 0 then some (F_ALIGN, contAddr (mCont h), 8)
  else if l.length + 1 == need then bodyRefused s p bay h l
  else carriedRefused s bay h l

/-! ### The queues (R187) -/

/-- An accepted message enters its queue (R185); coll takes its ordinal (R397). -/
def pushCmd (s : State) (p bay : Nat) (h : Beat) (l : List Beat) (x : Option Sender) : State :=
  let c : Cmd := { r := queueOf p bay h, id := s.cmdNo, part := p, bay := bay, hdr := h, beats := l, sender := x, issued := false, pos := 0,
                   base := 0, ver := 0, old := false, key := none, nonce := 0, status := none, held := false, out := 0, lost := false }
  let s := { s with cmds := s.cmds ++ [c], cmdNo := s.cmdNo + 1 }
  if mEop h == 0x40 then
    modPart s p fun t => { t with cn := assocSet (mQn h) (((assoc (mQn h) t.cn).getD 0 + 1) % pow2 32) t.cn }
  else s

/-! ### Sending from an instruction (R394, R395, R414) -/

/-- The sender of a message: the current instance. -/
def curSender (s : State) : Sender :=
  { key := if outsideOrder s s.cur.part (curFrame s) then [] else engineKey s s.cur, frame := curFrame s, seq := s.cur.seq,
    idx := s.cur.idx, tag := tagWord s.cur.tag, fname := fnameOf s s.cur.part (curFrame s), sup := curSup s,
    tree := (curTree s).getD 0, grid := s.cur.grid }

/-- CONT of an E word (R394). -/
def contOf (f : EFmt) (s : State) : Word :=
  if f.ck == 1 then BitVec.ofNat 64 (pow2 62 + (curName s * 1024 + f.t0.toNat) * pow2 32 + (tagWord s.cur.tag).toNat)
  else if f.ck == 2 then BitVec.ofNat 64 (2 * pow2 62 + fld (opC s) 0 57)
  else if f.ck == 3 then BitVec.ofNat 64 (3 * pow2 62 + fld (opC s) 0 6)
  else 0

/-- ARG of an E word. -/
def argOf (f : EFmt) (s : State) : Nat := if f.i then f.arg.toNat else fld (opB s) 0 32

/-- Read a descriptor as a load at .pkg that sees the frame's committed blocks alone (R146). -/
def readDesc (s : State) (rs : List Run) : List Byte × State :=
  if s.cur.grid.isSome then loadRuns s 0x3F rs else readRuns s s.cur.part (curTree s) rs

/-- The beats of bytes. -/
def beatsOf (bs : List Byte) : Nat → List Beat
  | 0 => []
  | n + 1 => BitVec.ofNat 128 (ofBytes (bs.take 16)) :: beatsOf (bs.drop 16) n

/-- n beats at an address, canonical and aligned to 16 (R394); in a deterministic partition in the turn of the engine access
(R148). -/
def withBeats (s : State) (a : Word) (n : Nat) (go : State → List Beat → State) : State :=
  if n == 0 then go s []
  else if !accessTurn s then waitCur s
  else withRuns s (a.toNat : Int) (16 * n) 16 false fun s rs => let r := readDesc s rs; go r.2 (beatsOf r.1 n)

/-- Accept the message of the current instance, refuse it precisely, or wait for room (R185, R187). A gated engine accepts
none (R179). -/
def offer (s : State) (h : Beat) (l : List Beat) : State :=
  let r := queueOf s.cur.part (curKey s) h
  if bayGated s s.cur.part (curKey s) then waitCur s
  else match msgRefused s s.cur.part (curKey s) h l with
  | some x => fault s x.1 x.2.1 x.2.2
  | none => if queueHasRoom s r then noteAct (markSent (pushCmd s s.cur.part (curKey s) h l (some (curSender s)))) else waitCur s

/-- The shell of an engine instruction (R294, R394): it fires when its block is the oldest in flight, in its turn among
the block's messages, after every store of the frame's committed blocks and every load placed before it (R146). -/
def engShell (f : EFmt) (s : State) (eff : State → State) : Res :=
  .next (shell f.pr [f.t0] (markConsumed f.pr s) fun s =>
    whenSettled s fun s => engGate s eff)

/-- A dedicated engine instruction with its EOP (R394). With HND ≠ 0 and a zero in slot a, those from mm to xget send their
header beat alone (R395). -/
def engSend (eop : Nat) (f : EFmt) (s : State) : Res :=
  engShell f s fun s =>
    let n := if eop != 0x08 && f.hnd != 0 && opA s == 0 then 0 else needBeats eop - 1
    withBeats s (opA s) n fun s l =>
      offer s (mkHeader eop f.hnd.toNat f.q.toNat f.push.toNat f.pop.toNat n (argOf f s) (contOf f s)) l

/-- mm (R393, R400). -/
def execMm (f : EFmt) (s : State) : Res := engSend 0x10 f s
/-- acczero (R401). -/
def execAcczero (f : EFmt) (s : State) : Res := engSend 0x11 f s
/-- accld (R401). -/
def execAccld (f : EFmt) (s : State) : Res := engSend 0x12 f s
/-- accst (R401). -/
def execAccst (f : EFmt) (s : State) : Res := engSend 0x13 f s
/-- copy (R402). -/
def execCopy (f : EFmt) (s : State) : Res := engSend 0x20 f s
/-- gath (R404). -/
def execGath (f : EFmt) (s : State) : Res := engSend 0x28 f s
/-- gathw (R405). -/
def execGathw (f : EFmt) (s : State) : Res := engSend 0x29 f s
/-- scat (R404). -/
def execScat (f : EFmt) (s : State) : Res := engSend 0x2A f s
/-- scatadd (R406). -/
def execScatadd (f : EFmt) (s : State) : Res := engSend 0x2B f s
/-- tblswap (R407). -/
def execTblswap (f : EFmt) (s : State) : Res := engSend 0x2C f s
/-- cbload (R408). -/
def execCbload (f : EFmt) (s : State) : Res := engSend 0x2D f s
/-- coll (R409). -/
def execColl (f : EFmt) (s : State) : Res := engSend 0x40 f s
/-- osend (R410). -/
def execOsend (f : EFmt) (s : State) : Res := engSend 0x41 f s
/-- orecv (R411). -/
def execOrecv (f : EFmt) (s : State) : Res := engSend 0x42 f s
/-- xsend (R412). -/
def execXsend (f : EFmt) (s : State) : Res := engSend 0x43 f s
/-- xget (R412). -/
def execXget (f : EFmt) (s : State) : Res := engSend 0x44 f s
/-- enghnd (R413). -/
def execEnghnd (f : EFmt) (s : State) : Res := engSend 0x08 f s

/-- eng (R414): the header in memory gives EOP, BEATS and ARG, and zero in the fields that the word supplies. -/
def execEng (f : EFmt) (s : State) : Res :=
  engShell f s fun s =>
    withBeats s (opA s) 1 fun s l =>
      let m := l.getD 0 0
      if fld m 98 22 != 0 || mCont m != 0 then (let x := engRefused m; fault s x.1 x.2.1 x.2.2)
      else withBeats s (opA s) (mBeats m + 1) fun s l =>
        offer s (mkHeader (mEop m) f.hnd.toNat f.q.toNat f.push.toNat f.pop.toNat (mBeats m) (mArg m) (contOf f s)) (l.drop 1)

/-- Send a when every command before number k has retired; else wait with that number. -/
def qwaitOn (f : EFmt) (s : State) (k : Nat) : State :=
  if s.cmds.any (qwaitsFor f s s.cur k) then waitStage s (5 + k) else send s f.t0 (opA s)

/-- qwait (R415): `stage` keeps 5 more than the number of the first command that it does not wait for. -/
def execQwait (f : EFmt) (s : State) : Res :=
  match s.cur.stage with
  | some k => if 5 ≤ k then .next (qwaitOn f s (k - 5)) else engShell f s fun s => qwaitOn f (markSent s) s.cmdNo
  | none => engShell f s fun s => qwaitOn f (markSent s) s.cmdNo

/-! ### Messages of the host (R185, R187) -/

/-- HOST_ENGINE_MESSAGE_INTAKE (R187): the head message of the inbox goes to the partition's host bay, waits for room,
or is refused and reported without a faulting frame. -/
def execHostEngineMessageIntake (p : Nat) (s : State) : Res :=
  match (part s p).inbox with
  | [] => .next s
  | m :: _ =>
    let h := m.headD 0
    let bay := hostBay s p
    if bayGated s p bay || mEop h == 1 then .next s
    else
      match msgRefused s p bay h (m.drop 1) with
      | some x =>
        let r := { recBase x.1 p with flags := flHost ||| flEngine, bay := bay, queue := mQn h + (if (queueOf p bay h).lq then 16 else 0), g4 := x.2.1, g5 := x.2.2 }
        .next (deliverN (popInbox s p) r .nothing)
      | none => if queueHasRoom s (queueOf p bay h) then .next (pushCmd (popInbox s p) p bay h (m.drop 1) none) else .next s

end Sys2Proof.Machine
end

