-- ==== Sys2Proof/Machine/Move.lean ====
section
/-! DEFINITION. Moves and constants (R309–R314). -/
namespace Sys2Proof.Machine

/-- The value of gN for a READ of block q (R39): from the youngest older in-flight block that writes it, past
nulls, else the committed value; none while that write has not arrived. -/
def regFrom (g : Nat) (committed : Word) : List Block → Option Word
  | [] => some committed
  | b :: bs =>
    if bitAt b.h1 g then
      match assoc g b.wr with
      | none => none
      | some (some v) => some v
      | some none => regFrom g committed bs
    else regFrom g committed bs

/-- The value of skN for a READ (R39). -/
def softFrom (k : Nat) (committed : BitVec 512) : List Block → Option (BitVec 512)
  | [] => some committed
  | b :: bs =>
    if bitAt b.h0 (36 + k) then
      match assoc k b.sk with
      | none => none
      | some (some v) => some v
      | some none => softFrom k committed bs
    else softFrom k committed bs

/-- gN as the current block reads it. -/
def readReg (s : State) (g : Nat) : Option Word :=
  regFrom g ((((frame? s s.cur.part (curFrame s)).map (·.g)).getD []).getD g 0) (olderBlocks s s.cur.part (curFrame s) s.cur.seq)

/-- skN as the current block reads it. -/
def readSoft (s : State) (k : Nat) : Option (BitVec 512) :=
  softFrom k ((((frame? s s.cur.part (curFrame s)).map (·.sk)).getD []).getD k 0) (olderBlocks s s.cur.part (curFrame s) s.cur.seq)

/-- A soft value as the block's write of a soft-register target; the null target takes nothing (R311). -/
def writeSoft (s : State) (t : Tgt) (v : Option (BitVec 512)) : State :=
  if t == nullT then s else recvSoft s s.cur.part (curFrame s) s.cur.seq (fld t 0 3) v s.cur.idx s.cur.tag

/-- nop fires never and sends nothing (R310); a step on its word changes nothing. -/
def execNop (s : State) : Res := .next s

/-- read (R311). -/
def execRead (f : AFmt) (s : State) : Res :=
  .next (if f.md == 0 then
      (match readReg s (fld f.imm 0 6) with
       | none => waitCur s
       | some v => send2 f s v)
    else
      (match readSoft s (fld f.imm 0 3) with
       | none => waitCur s
       | some v => writeSoft (writeSoft s f.t0 (some v)) f.t1 (some v)))

/-- mov (R312). -/
def execMov (f : AFmt) (s : State) : Res := aluInt f s (opA s)

/-- mov4 (R312). -/
def execMov4 (f : FFmt) (s : State) : Res :=
  .next (shell f.pr [f.t0, f.t1, f.t2, f.t3] s fun s => sendAll s [f.t0, f.t1, f.t2, f.t3] .data (opA s))

/-- const (R313). -/
def execConst (f : AFmt) (s : State) : Res := aluInt f s (immT f.ty.toNat f.imm)

/-- consth (R314). -/
def execConsth (f : AFmt) (s : State) : Res :=
  aluInt f s (putT f.ty.toNat ((bitsT f.ty.toNat (opA s) * pow2 28 + f.imm.toNat : Nat) : Int))

/-- null (R313). -/
def execNull (f : AFmt) (s : State) : Res := .next (shellA f s fun s => sendAll s [f.t0, f.t1] .null 0)

end Sys2Proof.Machine
end

