-- ==== Sys2Proof/Machine/Soft.lean ====
section
/-! DEFINITION. Soft tokens: their registers (R87), the instructions that build, record and collapse them (R417–R430), and
position records (R258–R260). -/
namespace Sys2Proof.Machine

/-! ### The register layout (R87) -/

/-- A soft-token register. -/
abbrev Soft := BitVec 512

def skKind (v : Soft) : Nat := fld v 510 2
def skEf (v : Soft) : Nat := fld v 294 2
def skLen (v : Soft) : Nat := fld v 278 16
def skAddr (v : Soft) : Nat := fld v 256 22
def skDigest (v : Soft) : BitVec 256 := BitVec.extractLsb' 0 256 v
def skN (v : Soft) : Nat := fld v 240 3

/-- The candidates of a mixture: token number and BF16 weight. -/
def skCands (v : Soft) : List (Nat × Nat) := (List.range (skN v)).map fun k => (fld v (40 * k) 24, fld v (40 * k + 24) 16)

/-- The bits of candidates from place k on. -/
def candBits : Nat → List (Nat × Nat) → Nat
  | _, [] => 0
  | k, (t, w) :: l => (w * pow2 24 + t) * pow2 (40 * k) + candBits (k + 1) l

/-- A mixture. -/
def mkMix (l : List (Nat × Nat)) : Soft := BitVec.ofNat 512 (2 * pow2 510 + l.length * pow2 240 + candBits 0 l)

/-- A latent. -/
def mkLatent (ef len addr : Nat) (d : BitVec 256) : Soft :=
  BitVec.ofNat 512 (3 * pow2 510 + ef * pow2 294 + len * pow2 278 + addr * pow2 256 + d.toNat)

/-- A soft value to every soft-register target, and `plain` to every other (R418). -/
def sendSoft (f : AFmt) (s : State) (v : Soft) (plain : Word) : State :=
  [f.t0, f.t1].foldl (fun s t => if tgtSoft t then writeSoft s t (some v) else send s t plain) s

/-- V, and V[63:0]. -/
def yieldSoft (f : AFmt) (s : State) (v : Soft) : State := sendSoft f s v (BitVec.setWidth 64 v)

/-- The source register, as READ reads it (R39, R418). -/
def withSrc (f : AFmt) (s : State) (go : State → Soft → State) : State :=
  match readSoft s (fld f.imm 0 3) with
  | none => waitCur s
  | some v => go s v

/-- An effect that reads the shelf or memory as the frame's committed blocks left them (R418). -/
def whenCommitted (s : State) (eff : State → State) : State :=
  if !curOldest s || storePending s s.cur.part (curFrame s) then waitCur s else eff s

/-- An f32 weight narrowed to BF16 (R418): RNE, subnormals kept, overflow to infinity, NaN to 0x7FC0. -/
def toBf (x : Nat) : Nat := ((narrowF bf16 0 false 1 x).map (·.1)).getD 0

/-- A shelf run, checked as lds checks it (R418): aligned to 4, inside the shelf. -/
def softShelf (s : State) (a n : Nat) (store : Bool) (go : State → State) : State :=
  if a % 4 != 0 then accFault s F_ALIGN a 4 store
  else if pow2 22 < a + n then accFault s F_PROT a n store
  else go s

/-- The shelf bytes of a run, or F_MEMECC at a poisoned word (R115). -/
def withShelfBytes (s : State) (a n : Nat) (go : State → List Byte → State) : State :=
  softShelf s a n false fun s =>
    match parkedTouch s s.cur.part (curKey s) a n false with
    | .error s => waitCur s
    | .ok s =>
    match shelfPoison s (shelfKey (curKey s) a) n with
    | some k => fault s F_MEMECC (BitVec.ofNat 64 (k / 8 * 8)) 0
    | none => go (charge s s.cur.part (curTree s) 3 ((n + 15) / 16)) (rdBytes s.shelf (shelfKey (curKey s) a) n)

/-- The first 32 bytes of SHA-512. -/
def sha32 (bs : List Byte) : BitVec 256 := BitVec.ofNat 256 (ofBytes ((sha512 bs).take 32))

/-- Bytes of an element of a latent. -/
def efBytes (ef : Nat) : Nat := if ef == 0 then 4 else 2

/-! ### Building (R419–R422) -/

/-- sklat (R419). -/
def execSklat (f : AFmt) (s : State) : Res :=
  .next (shellA f s fun s => whenCommitted s fun s =>
    let a := (opA s).toNat
    let b := (bOf f s).toNat
    let ef := f.md.toNat
    if b < 1 ∨ 65535 < b then accFault s F_PROT a 0 false
    else withShelfBytes s a (b * efBytes ef) fun s bs => yieldSoft f s (mkLatent ef b a (sha32 bs)))

/-- The f32 elements of bytes. -/
def f32s (bs : List Byte) : Nat → List Nat
  | 0 => []
  | n + 1 => ofBytes (bs.take 4) :: f32s (bs.drop 4) n

/-- Score x of format g ranks strictly above y: −0 equals +0, a NaN lies below every number (R420, R427). -/
def ranksAbove (g : Fmt) (x y : Nat) : Bool := (!g.isNan x && g.isNan y) || frel g x y == .gt

/-- Insert an entry behind every entry that it does not outrank. -/
def insRank (x : Nat × Nat) : List (Nat × Nat) → List (Nat × Nat)
  | [] => [x]
  | y :: ys => if ranksAbove f32 x.2 y.2 then x :: y :: ys else y :: insRank x ys

/-- The n best entries (index, score), best first, equal ranks by the lower index. -/
def bestOf (n : Nat) (l : List (Nat × Nat)) : List (Nat × Nat) := l.foldl (fun acc x => (insRank x acc).take n) []

/-- The f32 vector of a shelf address and a count of 1 to 2^24 (R420, R427). -/
def withScores (f : AFmt) (s : State) (go : State → List (Nat × Nat) → State) : State :=
  let a := (opA s).toNat
  let b := (bOf f s).toNat
  if b < 1 ∨ pow2 24 < b then accFault s F_PROT a 0 false
  else withShelfBytes s a (4 * b) fun s bs => go s ((List.range b).zip (f32s bs b))

/-- skmix (R420). -/
def execSkmix (f : AFmt) (s : State) : Res :=
  .next (shellA f s fun s => whenCommitted s fun s => withScores f s fun s l =>
    yieldSoft f s (mkMix ((bestOf (fld f.md 0 2 + 4 * (fld f.ty 0 1)) l).map fun x => (x.1, toBf x.2))))

/-- skadd (R421). -/
def execSkadd (f : AFmt) (s : State) : Res :=
  .next (shellA f s fun s => withSrc f s fun s v =>
    let x := (fld (opA s) 0 24, toBf (fld (opB s) 0 32))
    if skKind v == 0 then yieldSoft f s (mkMix [x])
    else if skKind v == 2 && decide (skN v < 6) then yieldSoft f s (mkMix (skCands v ++ [x]))
    else illop s)

/-- The exact sum of BF16 weights. -/
def sumBf (l : List Nat) : Dy := l.foldl (fun d w => addDy 0 d (toDy bf16 w)) ⟨false, 0, 0, false⟩

/-- A BF16 value is finite and not below −0 (R422). -/
def finPos (w : Nat) : Bool := bf16.isFin w && (!bf16.sign w || bf16.isZero w)

/-- sknorm (R422). -/
def execSknorm (f : AFmt) (s : State) : Res :=
  .next (shellA f s fun s => withSrc f s fun s v =>
    if skKind v != 2 then illop s
    else
      let c := skCands v
      let t := sumBf (c.map (·.2))
      let ok := (c.all fun x => finPos x.2) && t.m != 0
      let w := fun (x : Nat) => if !ok then 0x7FC0 else if bf16.isZero x then x else (roundTo bf16 0 (divDy (toDy bf16 x) t)).bits
      yieldSoft f s (mkMix (c.map fun x => (x.1, w x.2))))

/-! ### The next input vector (R423) -/

/-- A table slot of a partition (R251). -/
def tableOf (s : State) (p k : Nat) : BitVec 256 := (assoc k (part s p).tables).getD 0

def tBase (t : BitVec 256) : Nat := fld t 192 64
def tOldb (t : BitVec 256) : Nat := fld t 128 64
def tVer (t : BitVec 256) : BitVec 32 := BitVec.extractLsb' 96 32 t
def tRows (t : BitVec 256) : Nat := fld t 64 32
def tRowb (t : BitVec 256) : Nat := fld t 48 16
def tSf (t : BitVec 256) : Nat := fld t 44 4
def tSharded (t : BitVec 256) : Bool := bitAt t 43
def tSpkg (t : BitVec 256) : Nat := fld t 26 17
def tNsh (t : BitVec 256) : Nat := fld t 18 8
def tOuto (t : BitVec 256) : Nat := fld t 9 9
def tOutn (t : BitVec 256) : Nat := fld t 0 9

/-- Elements of a table row. -/
def tElems (t : BitVec 256) : Nat := tRowb t / sfBytes (tSf t)

/-- A shelf operand beat: base, format, row pitch. -/
def shelfBeat (base sf pitch : Nat) : Beat := BitVec.ofNat 128 (pow2 126 + sf * pow2 122 + pitch * pow2 22 + base)

/-- Two beats that carry up to six candidates of a register as a gathw's lists (R423): KIND 0b00, which no accepted
message bears; bits [119:0] hold three candidates as R87 lays them out. -/
def inlineBeats (v : Soft) : List Beat := [BitVec.ofNat 128 (fld v 0 120), BitVec.ofNat 128 (fld v 120 120)]

/-- The header of skemb's command. -/
def skembHeader (f : AFmt) (s : State) (eop beats arg : Nat) : Beat :=
  mkHeader eop 0 (fld f.imm 7 4) 0 0 beats arg (BitVec.ofNat 64 (pow2 62 + (curName s * 1024 + f.t0.toNat) * pow2 32 + (tagWord s.cur.tag).toNat))

/-- Send skemb's command when its queue has room and its engine is not gated (R179, R187). -/
def skembPush (s : State) (h : Beat) (l : List Beat) : State :=
  if !bayGated s s.cur.part (curKey s) && queueHasRoom s (queueOf s.cur.part (curKey s) h) then
    noteAct (markSent (pushCmd s s.cur.part (curKey s) h l (some (curSender s))))
  else waitCur s

/-- A gathw over one group, its candidates in the register's order (R405, R423). -/
def skembGather (f : AFmt) (s : State) (v : Soft) (g : Nat) : State :=
  let slot := fld f.imm 3 4
  let n := tElems (tableOf s s.cur.part slot)
  let a := (opA s).toNat
  softShelf s a (4 * n) true fun s =>
    skembPush s (skembHeader f s 0x29 3 (slot + (g - 1) * 32 + 512)) (inlineBeats v ++ [shelfBeat a 6 0])

/-- The copy of a latent's vector (R423), which must still have its digest. -/
def skembCopy (f : AFmt) (s : State) (v : Soft) : State :=
  let a := (opA s).toNat
  let n := skLen v
  softShelf s a (4 * n) true fun s =>
    withShelfBytes s (skAddr v) (n * efBytes (skEf v)) fun s bs =>
      if sha32 bs != skDigest v then fault s F_INTEG (BitVec.ofNat 64 (skAddr v)) 0
      else
        let h := skembHeader f s 0x20 3 0
        let l := [shelfBeat (skAddr v) (if skEf v == 0 then 6 else 7) 0, shelfBeat a 6 0, BitVec.ofNat 128 (n - 1)]
        match msgRefused s s.cur.part (curKey s) h l with
        | some x => fault s x.1 x.2.1 x.2.2
        | none => skembPush s h l

/-- A text token as a mixture of one candidate of weight 1.0. -/
def textAsMix (v : Soft) : Soft := mkMix [(fld v 0 24, 0x3F80)]

/-- skemb (R423). -/
def execSkemb (f : AFmt) (s : State) : Res :=
  .next (shellA f (markConsumed f.pr s) fun s => whenSettled s fun s => engGate s fun s => withSrc f s fun s v =>
    if skKind v == 0 then illop s
    else if skKind v == 1 then skembGather f s (textAsMix v) 1
    else if skKind v == 2 then skembGather f s v (skN v)
    else skembCopy f s v)

/-! ### Position records (R258–R260, R424, R425) -/

/-- The body of the record of a value (R259). -/
def recBody (v : Soft) : List Byte :=
  toBytes 30 (if skKind v == 1 then fld v 0 24 else fld v 0 240) ++
    [BitVec.ofNat 8 (if skKind v == 2 then skN v else if skKind v == 3 then skEf v else 0), BitVec.ofNat 8 (skKind v * 64)]

/-- The prefix hash of a record after a previous one (R259). -/
def recHash (prev : List Byte) (v : Soft) : List Byte :=
  (sha512 (prev ++ recBody v ++ (if skKind v == 3 then toBytes 32 (skDigest v).toNat else []))).take 32

/-- skhash (R425). -/
def execSkhash (f : AFmt) (s : State) : Res :=
  .next (shellA f s fun s => whenCommitted s fun s => withSrc f s fun s v =>
    if skKind v == 0 then illop s
    else if !accessTurn s then waitCur s
    else withRuns s (((opA s).toNat : Int) + 0x40) 32 32 false fun s rs =>
      let r := readRuns s s.cur.part (curTree s) rs
      let h := recHash r.1 v
      send2 f r.2 (BitVec.ofNat 64 (ofBytes ((h.drop (8 * fld f.imm 3 2)).take 8))))

/-- A field of a descriptor's bytes. -/
def descField (bs : List Byte) (off n : Nat) : Nat := ofBytes ((bs.drop off).take n)

/-- The two pieces of a run of n bytes from an index of a ring: offset and length of each. -/
def ringRuns (head size n : Nat) : List (Nat × Nat) :=
  let o := head % size
  if o + n ≤ size then [(o, n)] else [(o, size - o), (0, n - (size - o))]

/-- Check store runs one after another, collecting what they translate to. -/
def withStores (s : State) : List (Nat × Nat) → List (List Run) → (State → List (List Run) → State) → State
  | [], acc, go => go s acc.reverse
  | (va, n) :: l, acc, go => withRuns s (va : Int) n 64 true fun s rs => withStores s l (rs :: acc) go

/-- Write bytes over runs. -/
def putRuns (s : State) (rs : List Run) (bs : List Byte) : State := writeRuns s s.cur.part (curTree s) rs bs

/-- Write bytes over the pieces of a ring. -/
def putPieces (s : State) : List (List Run) → List Byte → State
  | [], _ => s
  | rs :: l, bs =>
    let n := (rs.map (·.len)).sum
    putPieces (putRuns s rs (bs.take n)) l (bs.drop n)

/-- The vector of a latent as it stands on the shelf, padded with zeros to 64 bytes, where the log takes it (R424). -/
def withVector (s : State) (v : Soft) (taken : Bool) (go : State → List Byte → State) : State :=
  if taken then
    let n := skLen v * efBytes (skEf v)
    withShelfBytes s (skAddr v) n fun s bs => go s (bs ++ List.replicate (roundUp n 64 - n) 0)
  else go s []

/-- The step of R260 once every page is translated. `d` is the descriptor, `vec` the vector that the log takes, `rs` the
runs of the descriptor, the record and the log. -/
def skposStep (f : AFmt) (s : State) (v : Soft) (d vec : List Byte) (n : Nat) (rs : List (List Run)) : State :=
  let count := descField d 0x08 4
  let h := recHash ((d.drop 0x40).take 32) v
  let rcd := recBody v ++ h
  let mode := nbits (descField d 0x18 8) 62 2
  let s := putRuns s (rs.getD 1 []) rcd
  let s := if mode == 0 then s else putPieces s (rs.drop 2) (rcd ++ vec)
  let head := (descField d 0x20 8 + n) % pow2 64
  let d := d.take 0x08 ++ toBytes 4 ((count + 1) % pow2 32) ++ (d.drop 0x0C).take 0x14 ++ toBytes 8 head ++ (d.drop 0x28).take 0x18 ++ h ++ d.drop 0x60
  send2 f (noteAct (markSent (putRuns s (rs.getD 0 []) d))) (BitVec.ofNat 64 count)

/-- F_MEMECC when a run holds a poisoned word (R115). -/
def unpoisoned (s : State) (rs : List Run) (go : State → State) : State :=
  match poisonedAt s rs with
  | some a => fault s F_MEMECC (BitVec.ofNat 64 a) 0
  | none => go s

/-- skpos (R260, R424): after the accesses before it and the skpos of lower index in its block; in a deterministic partition
it ranks among its block's engine accesses. LOGB and LOGSZ are used as they stand, also where LOGB is not aligned to 4 KiB or
LOGSZ is no power of two. DESIGN CHOICE, log 121. -/
def execSkpos (f : AFmt) (s : State) : Res :=
  .next (shellA f (markConsumed f.pr s) fun s => whenSettled s fun s => engGate s fun s => withSrc f s fun s v =>
    if skKind v == 0 then illop s
    else if !accessTurn s then waitCur s
    else withRuns s ((opA s).toNat : Int) 128 64 true fun s drs => unpoisoned s drs fun s =>
      let r := readRuns s s.cur.part (curTree s) drs
      let s := r.2
      let d := r.1
      let mode := nbits (descField d 0x18 8) 62 2
      let count := descField d 0x08 4
      let cap := descField d 0x0C 4
      let size := descField d 0x18 4
      let head := descField d 0x20 8
      let n := 64 + (if mode == 2 && skKind v == 3 then roundUp (skLen v * efBytes (skEf v)) 64 else 0)
      if mode == 3 then illop s
      else if count == cap then accFault s F_PROT ((opA s).toNat : Int) 128 true
      else if mode != 0 && decide (size < (head + pow2 64 - descField d 0x28 8) % pow2 64 + n) then waitCur s
      else
        let log := if mode == 0 then [] else (ringRuns head size n).map fun x => (descField d 0x10 8 + x.1, x.2)
        withStores s ((descField d 0x00 8 + 64 * count, 64) :: log) [] fun s rs =>
          withVector s v (n != 64) fun s vec => skposStep f s v d vec n (drs :: rs))

/-- skrd (R426). -/
def execSkrd (f : AFmt) (s : State) : Res :=
  .next (shellA f s fun s => withSrc f s fun s v => send2 f s (BitVec.ofNat 64 (fld v (64 * fld f.imm 3 3) 64)))

/-- skclr (R426). -/
def execSkclr (f : AFmt) (s : State) : Res := .next (shellA f s fun s => sendSoft f s 0 0)

/-! ### Collapse (R427–R430) -/

/-- The chosen token number to every target (R430). -/
def choose (f : AFmt) (s : State) (t : Nat) : State := sendSoft f s (textOf (BitVec.ofNat 64 t)) (BitVec.ofNat 64 t)

/-- collapse.max (R427). -/
def execCollapseMax (f : AFmt) (s : State) : Res :=
  .next (shellA f s fun s => whenCommitted s fun s => withScores f s fun s l =>
    choose f s (((bestOf 1 l).head?.map (·.1)).getD 0))

/-- The candidate of the highest weight, the lower token number among equals (R428). -/
def mixBest (l : List (Nat × Nat)) : Nat :=
  let better := fun (x y : Nat × Nat) => ranksAbove bf16 x.2 y.2 || (!ranksAbove bf16 y.2 x.2 && decide (x.1 < y.1))
  ((l.foldl (fun acc x => match acc with
    | none => some x
    | some y => if better x y then some x else some y) (none : Option (Nat × Nat))).map (·.1)).getD 0

/-- collapse.mix (R428). -/
def execCollapseMix (f : AFmt) (s : State) : Res :=
  .next (shellA f s fun s => withSrc f s fun s v =>
    if skKind v == 2 then choose f s (mixBest (skCands v)) else if skKind v == 1 then choose f s (fld v 0 24) else illop s)

/-- c[k] of R429 when it is finite: a negative value, a NaN and −∞ count as 0. -/
def cdfWeight (w : Nat) : Nat := if bf16.isNan w || bf16.sign w then 0 else w

/-- An exact value is above another; signs included. -/
def dyGt (a b : Dy) : Bool := let d := addDy 0 a { b with s := !b.s }; d.m != 0 && !d.s

/-- The first candidate at which C > u × S, C the running sum (R429). -/
def cdfGo (u : Nat) (t : Dy) : Dy → List (Nat × Nat) → Option Nat
  | _, [] => none
  | c, (tok, w) :: l =>
    let c := addDy 0 c (toDy bf16 (cdfWeight w))
    let hit :=
      if f32.isNan u then false
      else if f32.isInf u then f32.sign u && t.m != 0
      else t.m != 0 && dyGt c (mulDy (toDy f32 u) t)
    if hit then some tok else cdfGo u t c l

/-- The choice of R429 over the candidates of a mixture. -/
def cdfPick (u : Nat) (l : List (Nat × Nat)) : Nat :=
  match l.find? fun x => bf16.isInf x.2 && !bf16.sign x.2 with
  | some x => x.1
  | none => (cdfGo u (sumBf (l.map fun x => cdfWeight x.2)) ⟨false, 0, 0, false⟩ l).getD ((l.getLast?.map (·.1)).getD 0)

/-- collapse.cdf (R429). -/
def execCollapseCdf (f : AFmt) (s : State) : Res :=
  .next (shellA f s fun s => withSrc f s fun s v =>
    if skKind v == 2 then choose f s (cdfPick (fld (opA s) 0 32) (skCands v)) else if skKind v == 1 then choose f s (fld v 0 24) else illop s)

end Sys2Proof.Machine
end

