-- ==== Sys2Proof/Machine/Engines.lean ====
section
/-! DEFINITION. The engines: issue (R144, R188, R189), element access (R396, R399), the matrix engine (R76, R77, R400, R401),
the copy engine (R402, R403, R263, R264), handler install (R413), and retirement (R184, R188). -/
namespace Sys2Proof.Machine

/-! ### Commands -/

/-- Change a command. -/
def modCmd (s : State) (id : Nat) (f : Cmd → Cmd) : State := { s with cmds := updWhere (fun c => c.id == id) f s.cmds }

/-- A command by its number. -/
def cmd? (s : State) (id : Nat) : Option Cmd := s.cmds.find? fun c => c.id == id

/-- The fault status of a code (R184). -/
def faultStatus (code : BitVec 8) : Word := 0x8000000000000000 ||| BitVec.setWidth 64 code

/-- Set or clear the FIFO count k of a bay. -/
def setSync (s : State) (bay k n : Nat) : State := { s with sync := assocSet (bay, k) n s.sync }

/-- A record about a command (R396, R448). -/
def cmdRec (s : State) (c : Cmd) (code : BitVec 8) (g4 g5 : Word) : FaultRec :=
  { recBase code c.part with
      flags := flEngine ||| (if c.sender.isNone then flHost else 0), bay := c.bay, queue := c.r.q + (if c.r.lq then 16 else 0),
      tag := ((c.sender.map (·.tag)).getD 0), fname := (c.sender.map fun x => fnameOf s c.part x.frame).getD 0, g4 := g4, g5 := g5 }

/-- A command ends with a fault (R184, R396): its status; without a continuation the fault is also delivered, once. -/
def failCmd (s : State) (c : Cmd) (code : BitVec 8) (g4 g5 : Word) : State :=
  let s := modCmd s c.id fun x => { x with status := some (faultStatus code), held := false }
  if mCk c.hdr == 0 && code != F_PAGE then deliverN s (cmdRec s c code g4 g5) .nothing else s

/-- F_ENGINE of a command: its header halves. -/
def failEngine (s : State) (c : Cmd) : State := failCmd s c F_ENGINE (mHigh c.hdr) (mCont c.hdr)

/-- A command ends well. -/
def endCmd (s : State) (c : Cmd) : State := modCmd s c.id fun x => { x with status := some 0 }

/-! ### Issue (R144, R187, R188, R189) -/

/-- A queue stands in the set of a qfence. -/
def fenceNames (q : QFence) (r : QRef) : Bool := q.lq == r.lq && q.home == r.home && bitAt q.mask r.q

/-- A qfence holds a command back (R144). -/
def fenced (s : State) (c : Cmd) : Bool :=
  s.qfences.any fun q => fenceNames q c.r && decide (q.id < c.id) && s.cmds.any fun d => fenceNames q d.r && decide (d.id < q.id)

/-- The engine kind whose handler table serves a command (R189, R413). -/
def handlerKind (h : Beat) : Nat := if mEop h == 0x08 then mArg h % 4 else engOf (mEop h)

/-- Form a command from its template (R189, R395): the beats, or nothing where it may not be formed. -/
def formBeats (s : State) (c : Cmd) : Option (List Beat) :=
  if mHnd c.hdr == 0 then some c.beats
  else match assoc (c.bay, handlerKind c.hdr, mHnd c.hdr) s.handlers with
    | none => none
    | some t =>
      let b := fun (k : Nat) => (BitVec.extractLsb' (128 * k) 128 t : Beat)
      let l := c.beats ++ ((List.range (mBeats (b 0) + 1)).drop (c.beats.length + 1)).map b
      if mEop (b 0) != mEop c.hdr || l.length + 1 != needBeats (mEop c.hdr) then none else some l

/-- Issue a command: it takes its sync tokens and is formed; none where it must wait. -/
def issueCmd (s : State) (c : Cmd) : Option State :=
  if fenced s c || popWaits s c then none
  else
    let s := (setBits (mPop c.hdr) 6).foldl (fun s k => setSync s c.bay k (syncCount s c.bay k - 1)) s
    let s := modCmd s c.id fun x => { x with issued := true }
    match formBeats s c with
    | none => some (failEngine s c)
    | some l =>
      let s := modCmd s c.id fun x => { x with beats := l }
      if mHnd c.hdr == 0 then some s
      else match bodyRefused s c.part c.bay c.hdr l with
        | some x => some (failCmd s c x.1 x.2.1 x.2.2)
        | none => some s

/-- Run the head of a queue, if it bears one of some EOPs and is not held or ended, in a slot that its partition owns (R239); in a
stopped partition none issues (R146, R179): issue it, bind it (`bind`, when it issues), and go on. -/
def withCmd (s : State) (r : QRef) (eops : List Nat) (ready : State → Cmd → Bool) (bind go : State → Cmd → State) : Res :=
  match cmdHead s r with
  | none => .next s
  | some c =>
    if !eops.contains (mEop c.hdr) || c.status.isSome || c.held || savedAway s c.part || !inSlot s c.part || (!c.issued && bayGated s c.part c.bay) || !cmdTurn s c then .next s
    else if c.issued then .next (go s c)
    else if !ready s c then .next s
    else match issueCmd s c with
      | none => .next s
      | some s =>
        match cmd? s c.id with
        | some c => if c.status.isSome then .next s
          else (let s := bind s c; match cmd? s c.id with
            | some c => if c.status.isSome then .next s else .next (go s c)
            | none => .next s)
        | none => .next s

/-- Nothing to bind at issue. -/
def noBind (s : State) (_ : Cmd) : State := s

/-- A command may issue as soon as its queue lets it. -/
def always (_ : State) (_ : Cmd) : Bool := true

/-! ### Element access (R396, R398, R399) -/

/-- What an element's access answers. -/
inductive Got (α : Type) where
  | val (v : α)
  | hold
  | bad (code : BitVec 8) (g4 g5 : Word)
  deriving DecidableEq, Repr

/-- The tree that a command's charges fall to (R266). -/
def cmdTree (c : Cmd) : Option Nat := c.sender.map (·.tree)

/-- A command's checks of a run in memory: a page fault holds the command and is delivered without a faulting frame. -/
def cmdRuns (s : State) (c : Cmd) (store : Bool) (ea n algn : Nat) : State × Got (List Run) :=
  if s.pageFaults.any fun f => f.part == c.part && f.cmds.contains c.id then (s, .hold)
  else
    let sup := (c.sender.map (·.sup)).getD true
    match checkRun s c.bay c.part ⟨store, false, sup, true, cmdTree c⟩ ((c.sender.map (·.tag)).getD 0) (ea : Int) n algn with
    | (s, .ok rs) =>
      (match (if store then none else poisonedAt s rs) with
       | some a => (s, .bad F_MEMECC (BitVec.ofNat 64 a) 0)
       | none => (s, .val rs))
    | (s, .bad code a) => (s, .bad code a (BitVec.ofNat 64 (if code == F_ALIGN then algn else if store then 1 else 0)))
    | (s, .page w) =>
      let r := { cmdRec s c F_PAGE (BitVec.ofNat 64 ea) (if store then 1 else 0) with addr := BitVec.ofNat 64 ea, g4 := BitVec.ofNat 64 w.addr }
      (openPage s c.part w r (.engine c.r) (some c.id) true, .hold)
    | (s, .miss) => (s, .hold)

/-- The shelf offset of element k of row r in tile t (R399). -/
def shelfAt (b : Beat) (t r k : Nat) : Nat :=
  let e := oBase b + t * oTile b + r * oPitch b + k * sfBytes (oSf b)
  if oRot b == 0 then e else putFld e 4 5 ((nbits e 4 5 + r * oRot b) % 32)

/-- The index of element k of row r in plane t of a memory operand (R399). -/
def memIndex (b : Beat) (t r k pp : Nat) : Nat := t * pp + r * oPitch b + k

/-- An element of the shelf stands whole and aligned in it (R117). -/
def shelfOk (e n : Nat) : Bool := e % n == 0 && decide (e + n ≤ pow2 22)

/-- The code of an element that does not. -/
def shelfCode (e n : Nat) : BitVec 8 := if e % n != 0 then F_ALIGN else F_PROT

/-- An access of a command to n bytes of the state under a key: it waits where that is a parked image whose page does not
translate (R242, R506). -/
def withParked {α : Type} (s : State) (c : Cmd) (key off n : Nat) (store : Bool) (go : State → State × Got α) : State × Got α :=
  match parkedTouch s c.part key off n store with
  | .error s => (s, .hold)
  | .ok s => go s

/-- Read element (t, r, k) of an operand, widened by R59. -/
def readElem (s : State) (c : Cmd) (b : Beat) (t r k pp : Nat) : State × Got Word :=
  let n := sfBytes (oSf b)
  if oShelf b then
    let e := shelfAt b t r k
    if !shelfOk e n then (s, .bad (shelfCode e n) (BitVec.ofNat 64 e) 0)
    else withParked s c c.bay e n false fun s =>
      if s.poison.contains (.shelf, shelfKey c.bay e / 8) then (s, .bad F_MEMECC (BitVec.ofNat 64 (shelfKey c.bay e)) 0)
      else (charge s c.part (cmdTree c) 3 1, .val (widenSf (oSf b) (rdBytes s.shelf (shelfKey c.bay e) n)))
  else
    let i := memIndex b t r k pp
    let ea := if oSf b == 9 then oVa b + i / 2 else oVa b + i * n
    match cmdRuns s c false ea n n with
    | (s, .val rs) =>
      let x := readRuns s c.part (cmdTree c) rs
      (x.2, .val (if oSf b == 9 then decodeC4 (codebook s c.bay (oSlot b)) (nbits (ofBytes x.1) (4 * (i % 2)) 4) else widenSf (oSf b) x.1))
    | (s, .hold) => (s, .hold)
    | (s, .bad x g4 g5) => (s, .bad x g4 g5)

/-- Write element k of a row on the shelf. With the last element of a word whose others the row has written before, the word
has been rewritten whole, and its poison goes (R115). -/
def shelfElem (s : State) (c : Cmd) (e k : Nat) (bs : List Byte) : State :=
  let s := charge (shelfPoke s (shelfKey c.bay e) bs) c.part (cmdTree c) 3 1
  if e % 8 + bs.length == 8 && decide (e % 8 ≤ k * bs.length) then
    { s with poison := s.poison.filter fun x => x != (.shelf, shelfKey c.bay e / 8) }
  else s

/-- Write the storage bits of element (t, r, k) of an operand. -/
def writeElem (s : State) (c : Cmd) (b : Beat) (t r k pp v : Nat) : State × Got Unit :=
  let n := sfBytes (oSf b)
  let bs := toBytes n (v % pow2 (8 * n))
  if oShelf b then
    let e := shelfAt b t r k
    if !shelfOk e n then (s, .bad (shelfCode e n) (BitVec.ofNat 64 e) 1)
    else withParked s c c.bay e n true fun s => (shelfElem s c e k bs, .val ())
  else
    match cmdRuns s c true (oVa b + memIndex b t r k pp * n) n n with
    | (s, .val rs) => (writeRuns s c.part (cmdTree c) rs bs, .val ())
    | (s, .hold) => (s, .hold)
    | (s, .bad x g4 g5) => (s, .bad x g4 g5)

/-- Read a list of elements in order; the first that does not answer stands for all. -/
def readElems (s : State) (c : Cmd) (b : Beat) (pp : Nat) : List (Nat × Nat × Nat) → List Word → State × Got (List Word)
  | [], acc => (s, .val acc.reverse)
  | (t, r, k) :: l, acc =>
    match readElem s c b t r k pp with
    | (s, .val v) => readElems s c b pp l (v :: acc)
    | (s, .hold) => (s, .hold)
    | (s, .bad x g4 g5) => (s, .bad x g4 g5)

/-- Go on with an answer: a page fault holds the command, a fault ends it. -/
def gotten {α : Type} (c : Cmd) (x : State × Got α) (go : State → α → State) : State :=
  match x with
  | (s, .val v) => go s v
  | (s, .hold) => modCmd s c.id fun c => { c with held := true }
  | (s, .bad code g4 g5) => failCmd s c code g4 g5

/-- The aligned shelf word that holds an element of a destination, where it holds more than that element; where rows or planes lie
at no multiple of 8 bytes all elements count as in one, since such rows and planes share words. -/
def wordOf (b : Beat) (t r k : Nat) : Option Nat :=
  if !oShelf b || sfBytes (oSf b) == 8 then none
  else if oPitch b % 8 != 0 || oTile b % 8 != 0 || (oTile b != 0 && oBase b % 8 != 0) then some 0
  else some (shelfAt b t r k / 8)

/-- Perform a command's elements from its position on while they lie in one shelf word, which is written at one instant
(R118): where a page fault holds one of them, none is written yet. `f` performs one element and leaves the position; `word`
tells the word of the element at the position; `from_` is the state and the position at the start. -/
def runWord (total : Nat) (word : Cmd → Option Nat) (f : State → Cmd → State) (id : Nat) (from_ : State × Nat) : Nat → State → State
  | 0, s => s
  | n + 1, s =>
    match cmd? s id with
    | none => s
    | some c =>
      let s := f s c
      match cmd? s id with
      | none => s
      | some d =>
        if d.status.isSome then s
        else if d.held then modCmd { s with shelf := from_.1.shelf, poison := from_.1.poison } id fun c => { c with pos := from_.2 }
        else
          let s := modCmd s id fun c => { c with pos := c.pos + 1 }
          if d.pos + 1 < total && (word c).isSome && word { c with pos := d.pos + 1 } == word c then runWord total word f id from_ n s else s

/-- Perform up to n steps of a command, `total` elements in all, from its position on; then it ends (R396). -/
def runElems (total : Nat) (word : Cmd → Option Nat) (f : State → Cmd → State) (id : Nat) : Nat → State → State
  | n, s =>
    match cmd? s id with
    | none => s
    | some c =>
      if c.status.isSome || c.held then s
      else if total ≤ c.pos then endCmd s c
      else match n with
        | 0 => s
        | n + 1 => runElems total word f id n (runWord total word f id (s, c.pos) (total - c.pos) s)

/-- The destination is no part of the shelf. -/
def noWord (_ : Cmd) : Option Nat := none

/-! ### Conversion between storage formats (R402) -/

/-- A floating storage format; c4 decodes to one. -/
def floatSf (sf : Nat) : Bool := sf == 6 || sf == 7 || sf == 8 || sf == 9

/-- The floating format of a storage format. -/
def fmtSf (sf : Nat) : Fmt := if sf == 7 then bf16 else if sf == 8 then f16 else f32

/-- The range that a floating value saturates to (R402). -/
def loSf (sf : Nat) : Int := if sf == 0 then -128 else if sf == 2 then -32768 else 0
def hiSf (sf : Nat) : Int :=
  if sf == 0 then 127 else if sf == 1 then 255 else if sf == 2 then 32767 else if sf == 3 then 65535
  else if sf == 5 then (pow2 64 : Int) - 1 else (pow2 32 : Int) - 1

/-- The exact value of a widened integer element. -/
def intSf (sf : Nat) (v : Word) : Int := if sf == 0 || sf == 2 then v.toInt else (v.toNat : Int)

/-- A raw storage format. -/
def rawSf (sf : Nat) : Bool := sf == 4 || sf == 5 || sf == 10

/-- A widened element of format `a` in the storage bits of format `b` under an overflow policy; none is F_CVTOVF. -/
def convSf (a b : Nat) (ovp : Nat) (v : Word) : Option Nat :=
  if floatSf a && floatSf b then
    (if b == 6 then some (fld v 0 32) else (narrowF (fmtSf b) 0 false ovp (fld v 0 32)).map (·.1))
  else if (rawSf a || rawSf b) && a != 9 && sfBytes a == sfBytes b then
    some (if floatSf a && a != 6 then ((narrowF (fmtSf a) 0 false 1 (fld v 0 32)).map (·.1)).getD 0 else v.toNat % pow2 (8 * sfBytes b))
  else if floatSf a then some (wrapNat (cvtfiF 0 false (loSf b) (hiSf b) (fld v 0 32)).1 (8 * sfBytes b))
  else if floatSf b then (cvtifF (fmtSf b) 0 ovp (intSf a v)).map (·.1)
  else some (v.toNat % pow2 (8 * sfBytes b))

/-- Convert an element, or end the command with F_CVTOVF (R399). -/
def converted (c : Cmd) (a b ovp : Nat) (s : State) (v : Word) (go : State → Nat → State) : State :=
  match convSf a b ovp v with
  | some x => go s x
  | none => failCmd s c F_CVTOVF v (BitVec.ofNat 64 ovp)

/-! ### The accumulator store (R119) -/

/-- The byte address of an accumulator word of a bay. -/
def accKey (bay w : Nat) : Nat := bay * pow2 19 + 4 * w

/-- The word number of a tile, row and column. -/
def accIndex (t r c : Nat) : Nat := t * 16384 + r * 128 + c

/-- The accumulator word that a command sees. -/
def accWord (s : State) (c : Cmd) (w : Nat) : Nat := ofBytes (rdBytes s.acc (accKey c.bay w) 4)

/-- Write an accumulator word. -/
def accPut (s : State) (c : Cmd) (w v : Nat) : State :=
  { s with acc := wrBytes s.acc (accKey c.bay w) (toBytes 4 (v % pow2 32)) }

/-- An accumulator word of a parked image lies behind its shelf (R242). -/
def withAcc {α : Type} (s : State) (c : Cmd) (w : Nat) (store : Bool) (go : State → State × Got α) : State × Got α :=
  withParked s c c.bay (pow2 22 + 4 * w) 4 store go

/-- Write a word of a range of whole rows: with the second word of a pair the pair has been rewritten whole (R115). -/
def accFill (s : State) (c : Cmd) (w v : Nat) : State :=
  gotten c (withAcc s c w true fun s => (s, .val ())) fun s _ =>
    let s := accPut s c w v
    if w % 2 == 1 then { s with poison := s.poison.filter fun x => x != (.acc, accKey c.bay w / 8) } else s

/-- Read an accumulator word, or F_MEMECC (R115); `store` says that it is written then. -/
def readAcc (s : State) (c : Cmd) (w : Nat) (store : Bool) : State × Got Nat :=
  withAcc s c w store fun s =>
    if s.poison.contains (.acc, accKey c.bay w / 8) then (s, .bad F_MEMECC (BitVec.ofNat 64 (accKey c.bay w)) 0)
    else (s, .val (accWord s c w))

/-! ### The matrix engine -/

/-- The elements of row i of an operand, K of them (R400). -/
def mmRow' (b : Beat) (i k : Nat) : List (Nat × Nat × Nat) :=
  (List.range k).map fun e => if oShelf b then (e / 128, i, e % 128) else (0, i, e)

/-- Column j of an operand that holds K rows of N elements. -/
def mmColOf (b : Beat) (j k : Nat) : List (Nat × Nat × Nat) :=
  (List.range k).map fun e => if oShelf b then (j / 128, e, j % 128) else (0, e, j)

/-- One chunk of R76: the exact sum of products, rounded once. -/
def mmChunk (l : List (Nat × Nat)) : Nat :=
  let zi := fun (x : Nat × Nat) => (f32.isZero x.1 && f32.isInf x.2) || (f32.isInf x.1 && f32.isZero x.2)
  let infs := (l.filter fun x => f32.isInf x.1 || f32.isInf x.2).map fun x => f32.sign x.1 != f32.sign x.2
  if l.any fun x => f32.isNan x.1 || f32.isNan x.2 || zi x then f32.qnan
  else match infs with
    | b :: _ => if infs.contains (!b) then f32.qnan else f32.inf b
    | [] =>
      let t := l.foldl (fun d x => addDy 0 d (mulDy (toDy f32 x.1) (toDy f32 x.2))) ⟨false, 0, 0, false⟩
      if t.m == 0 then 0 else (roundTo f32 0 t).bits

/-- The sum of R76 from an accumulator, in chunks of 32 products. -/
def mmSum : Nat → Nat → List (Nat × Nat) → Nat
  | 0, acc, _ => acc
  | n + 1, acc, l => mmSum n (faddF f32 0 false acc (mmChunk (l.take 32))).1 (l.drop 32)

/-- The sum of R77: s32, wrapping. -/
def mmSumInt (acc : Nat) (l : List (Word × Word)) : Nat :=
  wrapNat (l.foldl (fun t x => t + x.1.toInt * x.2.toInt) (signed acc 32)) 32

/-- One output element of mm (R400). -/
def mmElem (s : State) (c : Cmd) : State :=
  let a := c.beats.getD 0 0
  let b := c.beats.getD 1 0
  let x := c.beats.getD 2 0
  let i := c.pos / mmN x
  let j := c.pos % mmN x
  let k := mmK x
  let w := accIndex (mmTile x) (mmRow x + i) (mmCol x + j)
  gotten c (readElems s c a 0 (mmRow' a i k) []) fun s xs =>
    gotten c (readElems s c b 0 (if mmTb x then mmRow' b j k else mmColOf b j k) []) fun s ys =>
      gotten c (readAcc s c w true) fun s v =>
        let v := if mmInt x then mmSumInt v (xs.zip ys) else mmSum ((k + 31) / 32) v ((xs.zip ys).map fun p => (fld p.1 0 32, fld p.2 0 32))
        accPut (charge s c.part (cmdTree c) (if mmInt x then 1 else 0) k) c w v

/-- MM_COMMAND (R400). -/
def execMmCommand (r : QRef) (n : Nat) (s : State) : Res :=
  withCmd s r [0x10] always noBind fun s c =>
    let x := c.beats.getD 2 0
    runElems (mmM x * mmN x) noWord mmElem c.id n s

/-- The accumulator word of element `pos` of a range. -/
def rangeWord (c : Cmd) : Nat := accIndex (accTile c.hdr) (accRow c.hdr + c.pos / 128) (c.pos % 128)

/-- ACCZERO_COMMAND (R401). -/
def execAcczeroCommand (r : QRef) (s : State) : Res :=
  withCmd s r [0x11] always noBind fun s c =>
    runElems (accRows c.hdr * 128) noWord (fun s c => accFill s c (rangeWord c) 0) c.id (accRows c.hdr * 128) s

/-- ACCLD_COMMAND (R401). -/
def execAccldCommand (r : QRef) (n : Nat) (s : State) : Res :=
  withCmd s r [0x12] always noBind fun s c =>
    runElems (accRows c.hdr * 128) noWord (fun s c =>
      gotten c (readElem s c (c.beats.getD 0 0) 0 (c.pos / 128) (c.pos % 128) 0) fun s v => accFill s c (rangeWord c) (fld v 0 32)) c.id n s

/-- The bits that accst writes for a word. -/
def accstBits (c : Cmd) (b : Beat) (s : State) (v : Nat) (go : State → Nat → State) : State :=
  if oSf b == 7 || oSf b == 8 then converted c 6 (oSf b) (oOvp b) s (BitVec.ofNat 64 v) go else go s v

/-- ACCST_COMMAND (R401). -/
def execAccstCommand (r : QRef) (n : Nat) (s : State) : Res :=
  withCmd s r [0x13] always noBind fun s c =>
    runElems (accRows c.hdr * 128) (fun c => wordOf (c.beats.getD 0 0) 0 (c.pos / 128) (c.pos % 128)) (fun s c =>
      let b := c.beats.getD 0 0
      gotten c (readAcc s c (rangeWord c) false) fun s v => accstBits c b s v fun s x =>
        gotten c (writeElem s c b 0 (c.pos / 128) (c.pos % 128) 0 x) fun s _ => s) c.id n s

/-! ### The copy engine -/

/-- Plane, row and element of the position of a plain copy (R402). -/
def copyAt (c : Cmd) : Nat × Nat × Nat :=
  let x := c.beats.getD 2 0
  (c.pos / (cpN0 x * cpN1 x), c.pos / cpN0 x % cpN1 x, c.pos % cpN0 x)

/-- One element of a plain copy (R402). -/
def copyElem (s : State) (c : Cmd) : State :=
  let a := c.beats.getD 0 0
  let b := c.beats.getD 1 0
  let x := c.beats.getD 2 0
  let i := copyAt c
  gotten c (readElem s c a i.1 i.2.1 i.2.2 (cpSpp x)) fun s v =>
    converted c (oSf a) (oSf b) (oOvp b) s v fun s w =>
      gotten c (writeElem s c b i.1 i.2.1 i.2.2 (cpDpp x) w) fun s _ => s

/-- The shelf word of the element at the position of a plain copy. -/
def copyWord (c : Cmd) : Option Nat := let i := copyAt c; wordOf (c.beats.getD 1 0) i.1 i.2.1 i.2.2

/-- The mode of the copy at the head of a queue. -/
def headMode (s : State) (r : QRef) : Option Nat :=
  (cmdHead s r).bind fun c => if mHnd c.hdr == 0 || c.issued then some (cpMode (c.beats.getD 2 0))
    else (formBeats s c).map fun l => cpMode (l.getD 2 0)

/-- COPY_COMMAND (R402): a plain copy; a command that its template cannot form ends here. -/
def execCopyCommand (r : QRef) (n : Nat) (s : State) : Res :=
  if headMode s r == some 1 || headMode s r == some 2 then .next s
  else withCmd s r [0x20] always noBind fun s c =>
    let x := c.beats.getD 2 0
    if cpMode x != 0 then failEngine s c else runElems (cpN0 x * cpN1 x * cpN2 x) copyWord copyElem c.id n s

/-- A command is a sealing copy that has issued and not ended. -/
def isSealing (d : Cmd) : Bool := d.issued && d.status.isNone && mEop d.hdr == 0x20 && cpMode (d.beats.getD 2 0) == 1

/-- A seal takes SEALCNT at its issue and raises it when its page is sealed (R249, R403), so a second one of the partition waits
at its queue's head meanwhile, or two pages would share a nonce. DEDUCED, log 96. -/
def sealReady (s : State) (c : Cmd) : Bool := !s.cmds.any fun d => d.part == c.part && d.id != c.id && isSealing d

/-- What a sealing or opening copy takes at its issue (R263, R403): the key, EPOCH and SEALCNT. -/
def takeKey (sealing : Bool) (s : State) (c : Cmd) : State :=
  let t := part s c.part
  if !keyReady s c.part (if sealing then 1 else 2) then failEngine s c
  else modCmd s c.id fun x => { x with key := t.key, nonce := t.sealCnt ++ t.epoch }

/-- A run lies in HBM, or in host memory (R103). -/
def inHbm (rs : List Run) : Bool := rs.all fun r => decide (r.pa + r.len ≤ 0x6000000000)
def inHost (rs : List Run) : Bool := rs.all fun r => decide (0x8000000000000 ≤ r.pa)

/-- The additional data of R263: PART_ID and a virtual address. -/
def sealAad (p va : Nat) : List Byte := BitVec.ofNat 8 p :: toBytes 8 va

/-- Read, destination and trailer runs of a sealing or opening copy. -/
def withSealRuns (s : State) (c : Cmd) (trailerStore : Bool) (go : State → List Run → List Run → List Run → State) : State :=
  let a := c.beats.getD 0 0
  let b := c.beats.getD 1 0
  let x := c.beats.getD 2 0
  gotten c (cmdRuns s c false (oVa a) 16384 8) fun s src =>
    gotten c (cmdRuns s c true (oVa b) 16384 8) fun s dst =>
      gotten c (cmdRuns s c trailerStore (cpTrailer x) 32 32) fun s tr => go s src dst tr

/-- Encrypt the page and write it with its trailer; SEALCNT rises (R249, R263, R403). -/
def sealPage (s : State) (c : Cmd) : State :=
  withSealRuns s c true fun s src dst tr =>
    if !inHbm src || !inHost dst then failCmd s c F_PROT (BitVec.ofNat 64 (oVa (c.beats.getD 1 0))) 1
    else
      let r := readRuns s c.part (cmdTree c) src
      let nonce := toBytes 12 c.nonce.toNat
      let e := gcmSeal (toBytes 32 ((c.key.getD 0).toNat)) nonce (sealAad c.part (oVa (c.beats.getD 0 0))) r.1
      let s := writeRuns r.2 c.part (cmdTree c) dst e.1
      let s := writeRuns s c.part (cmdTree c) tr (nonce ++ [0, 0, 0, 0] ++ e.2)
      endCmd (modPart s c.part fun t => { t with sealCnt := t.sealCnt + 1 }) c

/-- COPY_SEAL (R263, R403). -/
def execCopySeal (r : QRef) (s : State) : Res :=
  if headMode s r != some 1 then .next s else withCmd s r [0x20] sealReady (takeKey true) sealPage

/-- Check the page against its trailer and write it (R264, R403): a trailer of another epoch does not match. -/
def openPageCopy (s : State) (c : Cmd) : State :=
  withSealRuns s c false fun s src dst tr =>
    if !inHost src || !inHbm dst then failCmd s c F_PROT (BitVec.ofNat 64 (oVa (c.beats.getD 1 0))) 1
    else
      let r := readRuns s c.part (cmdTree c) src
      let t := readRuns r.2 c.part (cmdTree c) tr
      let va := oVa (c.beats.getD 1 0)
      let plain := if t.1.take 4 != toBytes 4 (fld c.nonce 0 32) then none
        else gcmOpen (toBytes 32 ((c.key.getD 0).toNat)) (t.1.take 12) (sealAad c.part va) r.1 (t.1.drop 16)
      match plain with
      | none => failCmd t.2 c F_INTEG (BitVec.ofNat 64 va) 0
      | some bs => endCmd (writeRuns t.2 c.part (cmdTree c) dst bs) c

/-- COPY_OPEN (R264, R403). -/
def execCopyOpen (r : QRef) (s : State) : Res :=
  if headMode s r != some 2 then .next s else withCmd s r [0x20] always (takeKey false) openPageCopy

/-! ### Handler install (R189, R413) and codebooks (R250, R408) -/

/-- Install the template that a command has read. -/
def installHandler (s : State) (c : Cmd) (bs : List Byte) : State :=
  let kind := mArg c.hdr % 4
  let h := nbits (mArg c.hdr) 2 4
  let t : BitVec 512 := BitVec.ofNat 512 (ofBytes bs)
  let e := mEop (BitVec.extractLsb' 0 128 t)
  if h == 0 || needBeats e == 0 || engOf e != kind then failEngine s c
  else endCmd { s with handlers := assocSet (c.bay, kind, h) t s.handlers } c

/-- HANDLER_INSTALL_COMMAND (R413). -/
def execHandlerInstallCommand (r : QRef) (s : State) : Res :=
  withCmd s r [0x08] always noBind fun s c =>
    gotten c (cmdRuns s c false (oVa (c.beats.getD 0 0)) 64 64) fun s rs =>
      let x := readRuns s c.part (cmdTree c) rs
      installHandler x.2 c x.1

/-- CBLOAD_COMMAND (R250, R408): it reads the table whole; the slot takes it at retirement. -/
def execCbloadCommand (r : QRef) (s : State) : Res :=
  withCmd s r [0x2D] always noBind fun s c =>
    gotten c (cmdRuns s c false (oVa (c.beats.getD 0 0)) 32 32) fun s rs =>
      let x := readRuns s c.part (cmdTree c) rs
      endCmd (modCmd x.2 c.id fun d => { d with beats := d.beats ++ beatsOf x.1 2 }) c

/-- The codebook of a slot takes a table of two beats, whether or not a stream is bound there, and a stream that waits for it
goes on (R250, R385). -/
def loadCodebook (s : State) (bay slot : Nat) (lo hi : Beat) : State :=
  { s with codebooks := assocSet (bay, slot) (hi ++ lo) s.codebooks
           streams := updWhere (fun y => y.bay == bay && y.slot == slot) (fun y => { y with waitcb := false }) s.streams }

/-! ### Retirement (R184, R188, R396) -/

/-- The completion token of a command (R184): to the block that sent it, or by its tag and destination alone. -/
def completionFlight (c : Cmd) (v : Word) : Flight :=
  let seq := match c.sender with
    | some x => if x.grid.isNone then some x.seq else none
    | none => none
  ⟨c.part, ⟨tagOf (BitVec.extractLsb' 0 32 c.hdr), .data, v, 0, [], none⟩, .dest (BitVec.extractLsb' 32 17 c.hdr), seq, (c.sender.map (·.idx)).getD 255, none⟩

/-- Deliver a status to a continuation (R184, R507). -/
def deliverStatus (s : State) (c : Cmd) (v : Word) : State :=
  let sup := (c.sender.map (·.sup)).getD true
  if mCk c.hdr == 1 then launchTok s (completionFlight c v)
  else if mCk c.hdr == 2 then
    completionWrite { s with cmdNo := s.cmdNo + 1 } ⟨s.cmdNo, c.part, c.bay, contAddr (mCont c.hdr), v, sup, c.sender.isNone, cmdTree c⟩
  else if mCk c.hdr == 3 then interrupt s c.part 1 (fld c.hdr 0 6) v
  else s

/-- A gather command is bound to a bank of its table slot (R253). -/
def boundCmd (c : Cmd) : Bool := engOf (mEop c.hdr) == 2 && c.base != 0

/-- A gather command leaves the bank of its table slot (R253). -/
def unbind (s : State) (c : Cmd) : State :=
  if !boundCmd c then s
  else
    let k := mArg c.hdr % 16
    let t := tableOf s c.part k
    let t := if c.old then putFld t.toNat 9 9 (tOuto t - 1) else putFld t.toNat 0 9 (tOutn t - 1)
    modPart s c.part fun p => { p with tables := assocSet k (BitVec.ofNat 256 t) p.tables }

/-- The keys of the state of a partition's bays: those that are its own now, and those that lie parked or saved (R242, R458). -/
def stateKeys (s : State) (p : Nat) : List Nat :=
  let t := part s p
  baysOf s p ++ t.parkedImgs.map (·.2) ++ t.saved.map (·.2)

/-- A swap of a live slot retires (R253, R254): the old bank goes, and what the windows hold of its version. -/
def dropBank (s : State) (p k : Nat) (ver : BitVec 32) : State :=
  let keys := stateKeys s p
  let t := tableOf s p k
  let t := if tBase t == 0 then 0 else putFld t.toNat 128 64 0
  let s := { s with dup := s.dup.filter fun x => !(keys.contains x.1.1 && x.1.2.1 == k && x.1.2.2.1 == ver) }
  modPart s p fun x => { x with tables := assocSet k (BitVec.ofNat 256 t) x.tables }

/-- What a command that ended well leaves at its retirement: cbload its codebook, tblswap of a live slot the new bank alone. -/
def retireEffect (s : State) (c : Cmd) : State :=
  if c.status != some 0 then s
  else if mEop c.hdr == 0x2D then loadCodebook s c.bay (mArg c.hdr % 32) (c.beats.getD 1 0) (c.beats.getD 2 0)
  else if mEop c.hdr == 0x2C && c.pos == 1 then dropBank s c.part (mArg c.hdr % 16) c.ver
  else s

/-- qfences that hold nothing back any more go. -/
def pruneFences (s : State) : State :=
  { s with qfences := s.qfences.filter fun q => s.cmds.any fun d => fenceNames q d.r && decide (d.id < q.id) }

/-- A FIFO that a retiring command pushes into is full: the command waits (R188). -/
def pushFull (s : State) (c : Cmd) : Bool := (setBits (mPush c.hdr) 6).any fun k => decide (16 ≤ syncCount s c.bay k)

/-- COMMAND_RETIREMENT (R143, R184, R188): with room in every FIFO that it pushes, the command leaves its queue, pushes,
and its status goes to its continuation. -/
def execCommandRetirement (r : QRef) (s : State) : Res :=
  match cmdHead s r with
  | none => .next s
  | some c =>
    match c.status with
    | none => .next s
    | some v =>
      if savedAway s c.part || pushFull s c then .next s
      else
        let s := (setBits (mPush c.hdr) 6).foldl (fun s k => setSync s c.bay k (syncCount s c.bay k + 1)) s
        let s := retireEffect (unbind { s with cmds := s.cmds.filter fun d => d.id != c.id } c) c
        .next (deliverStatus (pruneFences s) c v)

end Sys2Proof.Machine
end

