-- ==== Sys2Proof/Machine/Gather.lean ====
section
/-! DEFINITION. The gather engine: binding to a table slot (R251, R253), rows (R252), the duplicate window (R254), chains
(R257), and the commands gath, gathw, scat, scatadd and tblswap (R404–R407). An element is one entry of the index list, or
one group of gathw; its row moves whole. -/
namespace Sys2Proof.Machine

/-- The table slot that a command names (R404, R407). -/
def slotNoOf (c : Cmd) : Nat := mArg c.hdr % 16

/-- Set a table slot. -/
def setTable (s : State) (p k : Nat) (t : Nat) : State :=
  modPart s p fun x => { x with tables := assocSet k (BitVec.ofNat 256 t) x.tables }

/-! ### Binding (R253, R416) -/

/-- A bank has room for one more bound command in the 9 bits of OUTN. -/
def bankRoom (s : State) (c : Cmd) : Bool := gKv c.hdr || decide (tOutn (tableOf s c.part (slotNoOf c)) < 511)

/-- Bind a command to BASE at issue: its slot must be live and of a format that the command allows, and `rows` rows of
its operand `b` must lie in their space. A command with COUNT 0 retires at once. -/
def bindTable (okSf : Nat → Bool) (b : Cmd → Beat) (s : State) (c : Cmd) : State :=
  let n := gCount c.hdr
  let k := slotNoOf c
  let t := tableOf s c.part k
  if n == 0 then endCmd s c
  else if gKv c.hdr then s
  else if tBase t == 0 || !okSf (tSf t) then failEngine s c
  else match extBad (b c) 1 n (tElems t) 0 with
    | some x => (let r := extRefused c.hdr (b c) x; failCmd s c r.1 r.2.1 r.2.2)
    | none =>
      let s := setTable s c.part k (putFld t.toNat 0 9 (tOutn t + 1))
      modCmd s c.id fun c => { c with base := BitVec.ofNat 64 (tBase t), ver := tVer t, old := false }

/-! ### Rows (R252) -/

/-- GROUP of a partition: its pod group, 0 for none (R233). -/
def groupOf (s : State) (p : Nat) : Nat := fld (entWord s p 0) 0 8

/-- Where a row lies: here, or in another package. -/
inductive RowAt where
  | here (va : Nat)
  | away (pkg : Nat)
  | none
  deriving DecidableEq, Repr

/-- The place of row i of the bank that a command is bound to. -/
def rowAt (s : State) (c : Cmd) (i : Nat) : RowAt :=
  let t := tableOf s c.part (slotNoOf c)
  let n := if tSharded t then tNsh t + 1 else 1
  let pkg := if tSharded t then tSpkg t + i % n else s.pkg.number.toNat
  if tRows t ≤ i / n || 131071 < pkg then .none
  else if pkg == s.pkg.number.toNat then .here (c.base.toNat + i / n * tRowb t)
  else .away pkg

/-- The flits of n bytes to another package, where each packet has a header of 32 bytes and up to 8,160 bytes, 236 to a flit
(R463). For traffic that is not of the ordered class this is DESIGN CHOICE, log 97. -/
def flitsOf (n : Nat) : Nat := 35 * (n / 8160) + (if n % 8160 == 0 && n != 0 then 0 else (32 + n % 8160 + 235) / 236)

/-- Charge the flits of n bytes of a command's own traffic, sent `times` times (R266, R267). -/
def chargeLink (s : State) (c : Cmd) (n times : Nat) : State := charge s c.part (cmdTree c) 6 (flitsOf n * times)

/-- What a package of another place answers: F_LINK where the partition has no pod group, and a wait while nothing has
come (R252, R412). -/
def awayReply (s : State) (c : Cmd) (r : Option XReply) : Got (List Byte) :=
  if groupOf s c.part == 0 then .bad F_LINK 0 0
  else match r with
    | none => .hold
    | some r => if r.code != 0 then .bad r.code 0 0 else .val r.bytes

/-- The key of a row in the duplicate window. -/
def dupKey (c : Cmd) (i : Nat) : Nat × Nat × BitVec 32 × Nat := (c.bay, slotNoOf c, c.ver, i)

/-- Allocate an entry of the bay's window of 64, in place of the oldest (R254). -/
def dupPut (s : State) (c : Cmd) (i : Nat) (bs : List Byte) : State :=
  let mine := s.dup.filter fun x => x.1.1 == c.bay
  let d := if 64 ≤ mine.length then (match findPos (fun (x : (Nat × Nat × BitVec 32 × Nat) × List Byte) => x.1.1 == c.bay) s.dup with
    | some (n, _) => dropAt n s.dup
    | none => s.dup) else s.dup
  { s with dup := d ++ [(dupKey c i, bs)] }

/-- The bytes of a row, without the window. -/
def fetchRow (s : State) (c : Cmd) (i : Nat) (r : Option XReply) : State × Got (List Byte) :=
  let t := tableOf s c.part (slotNoOf c)
  match rowAt s c i with
  | .none => (s, .bad F_ENGINE (mHigh c.hdr) (mCont c.hdr))
  | .away _ => (if r.isSome then chargeLink s c 0 1 else s, awayReply s c r)
  | .here va =>
    match cmdRuns s c false va (tRowb t) (sfBytes (tSf t)) with
    | (s, .val rs) => (let x := readRuns s c.part (cmdTree c) rs; (x.2, .val x.1))
    | (s, .hold) => (s, .hold)
    | (s, .bad x g4 g5) => (s, .bad x g4 g5)

/-- The bytes of a row (R252, R254): a row of up to 512 bytes through the window. -/
def tableRow (s : State) (c : Cmd) (i : Nat) (r : Option XReply) : State × Got (List Byte) :=
  let t := tableOf s c.part (slotNoOf c)
  match (if tRowb t ≤ 512 then assoc (dupKey c i) s.dup else none) with
  | some bs => (s, .val bs)
  | none =>
    match fetchRow s c i r with
    | (s, .val bs) => (if tRowb t ≤ 512 then dupPut s c i bs else s, .val bs)
    | x => x

/-- The elements of a row's bytes, widened (R59). -/
def rowElems (sf n : Nat) (bs : List Byte) : List Word := (List.range n).map fun k => widenSf sf ((bs.drop (k * sfBytes sf)).take (sfBytes sf))

/-! ### Rows of an operand (R399) -/

/-- The offsets of the elements of row r of a shelf operand. -/
def shelfRow (b : Beat) (r n : Nat) : List Nat := (List.range n).map fun k => shelfAt b 0 r k

/-- Write row r of an operand whole: nothing moves where one of its elements fails. -/
def writeRow (s : State) (c : Cmd) (b : Beat) (r : Nat) (vs : List Nat) : State × Got Unit :=
  let n := sfBytes (oSf b)
  if oShelf b then
    match (shelfRow b r vs.length).find? fun e => !shelfOk e n with
    | some e => (s, .bad (shelfCode e n) (BitVec.ofNat 64 e) 1)
    | none => withParked s c c.bay (shelfAt b 0 r 0) (vs.length * n) true fun s =>
      ((((shelfRow b r vs.length).zip vs).zip (List.range vs.length)).foldl (fun s x => shelfElem s c x.1.1 x.2 (toBytes n x.1.2)) s, .val ())
  else
    match cmdRuns s c true (oVa b + r * oPitch b * n) (vs.length * n) n with
    | (s, .val rs) => (writeRuns s c.part (cmdTree c) rs (vs.flatMap (toBytes n)), .val ())
    | (s, .hold) => (s, .hold)
    | (s, .bad x g4 g5) => (s, .bad x g4 g5)

/-- Row r of an operand, n elements widened. -/
def readRow (s : State) (c : Cmd) (b : Beat) (r n : Nat) : State × Got (List Word) :=
  readElems s c b 0 ((List.range n).map fun k => (0, r, k)) []

/-- Convert a list of elements; none where one is F_CVTOVF. -/
def convAll (a b ovp : Nat) : List Word → Except Word (List Nat)
  | [] => .ok []
  | v :: l =>
    match convSf a b ovp v with
    | none => .error v
    | some x => (convAll a b ovp l).map (x :: ·)

/-- Go on with converted elements, or end the command with F_CVTOVF. -/
def convertedAll (c : Cmd) (a b ovp : Nat) (s : State) (vs : List Word) (go : State → List Nat → State) : State :=
  match convAll a b ovp vs with
  | .ok l => go s l
  | .error v => failCmd s c F_CVTOVF v (BitVec.ofNat 64 ovp)

/-- An element that must wait for what another package answers leaves its command as it is. -/
def answered {α : Type} (c : Cmd) (x : State × Got α) (away : Bool) (go : State → α → State) : State :=
  match x with
  | (s, .hold) => if away then s else gotten c (s, .hold) go
  | x => gotten c x go

/-- Row i lies in another package and is not in the window: a wait is for its answer. -/
def isAway (s : State) (c : Cmd) (i : Nat) : Bool := match rowAt s c i with
  | .away _ => true
  | _ => false

/-- Rows r and r + 1 of a shelf destination, of n elements each, share an aligned word (R118). -/
def rowsShare (b : Beat) (r n : Nat) : Bool :=
  oShelf b && decide (0 < n) && decide ((oBase b + (r + 1) * oPitch b) / 8 ≤ (oBase b + r * oPitch b + n * sfBytes (oSf b) - 1) / 8)

/-- Perform a gather command's rows from its position on while the last one shares a shelf word with the next (`joint`): such
rows are written at one instant (R118). Where one of them is held, or waits for an answer, none is written yet. `from_` is the
state and the position at the start; the answers that are left come back. -/
def runJoint (total : Nat) (joint : State → Cmd → Bool) (f : State → Cmd → List XReply → State) (g id : Nat) (from_ : State × Nat) :
    Nat → List XReply → State → State × List XReply
  | 0, rs, s => (s, rs)
  | n + 1, rs, s =>
    match cmd? s id with
    | none => (s, rs)
    | some c =>
      let t := f s c (rs.take g)
      match cmd? t id with
      | none => (t, rs.drop g)
      | some d =>
        if d.status.isSome then (t, rs.drop g)
        else if d.pos == c.pos then
          (modCmd { t with shelf := from_.1.shelf, poison := from_.1.poison, kvc := from_.1.kvc } id fun c => { c with pos := from_.2 }, rs.drop g)
        else if decide (d.pos < total) && joint t c then runJoint total joint f g id from_ n (rs.drop g) t
        else (t, rs.drop g)

/-- Perform up to n steps of a gather command; the answers from other packages stand in the event, `g` of them for
each element. An element that still waits for an answer stops the event. -/
def runRows (total : Nat) (joint : State → Cmd → Bool) (f : State → Cmd → List XReply → State) (g id : Nat) : Nat → List XReply → State → State
  | n, rs, s =>
    match cmd? s id with
    | none => s
    | some c =>
      if c.status.isSome || c.held then s
      else if total ≤ c.pos then endCmd s c
      else match n with
        | 0 => s
        | n + 1 =>
          let x := runJoint total joint f g id (s, c.pos) (total - c.pos) rs s
          runRows total joint f g id n x.2 x.1

/-- The destination is no part of the shelf. -/
def noJoint (_ : State) (_ : Cmd) : Bool := false

/-- An element is done. -/
def nextElem (s : State) (c : Cmd) : State := modCmd s c.id fun x => { x with pos := c.pos + 1 }

/-! ### Chains (R255–R257) -/

/-- The key under which a chain register names the next bay's state. -/
def chainNext? (s : State) (p key k : Nat) : Option Nat :=
  let r := kvcAt s key k
  if bitAt r 63 && !bitAt r 62 then some (nameKey s p (fld r 55 7)) else none

/-- The first bay, by key, of the chain that a bay belongs to. -/
def chainHead (s : State) (p k : Nat) : Nat → Nat → Nat
  | 0, b => b
  | n + 1, b =>
    match (baysOf s p ++ (part s p).parkedImgs.map (·.2)).find? fun x => x != b && chainNext? s p x k == some b with
    | some x => chainHead s p k n x
    | none => b

/-- The bays of a chain from one on, by key, each with the position it starts at. -/
def chainFrom (s : State) (p k : Nat) : Nat → Nat → Nat → List (Nat × Nat)
  | 0, _, _ => []
  | n + 1, b, start =>
    (b, start) :: (match chainNext? s p b k with
      | none => []
      | some x => chainFrom s p k n x (fld (kvcAt s b k) 0 32))

/-- The chain of a command. -/
def chainOf (s : State) (c : Cmd) : List (Nat × Nat) :=
  let k := slotNoOf c % 8
  if bitAt (kvcAt s c.bay k) 63 then chainFrom s c.part k 16 (chainHead s c.part k 16 c.bay) 0 else []

/-- The bay that holds a position, and the shelf offset of its row. -/
def chainFind (s : State) (c : Cmd) (g : Beat) (p : Nat) : Option (Nat × Nat) :=
  ((chainOf s c).find? fun x => decide (p < fld (kvcAt s x.1 (slotNoOf c % 8)) 0 32)).map fun x => (x.1, kvBase g + (p - x.2) * kvRowBytes g)

/-- The bay that takes the next position, and that position (R257). -/
def chainNext (s : State) (c : Cmd) : Option (Nat × Nat × Nat) :=
  let k := slotNoOf c % 8
  ((chainOf s c).find? fun x => decide (fld (kvcAt s x.1 k) 0 32 < x.2 + fld (kvcAt s x.1 k) 32 23)).map fun x =>
    (x.1, x.2, Nat.max x.2 (fld (kvcAt s x.1 k) 0 32))

/-- The row bytes of a chain at a shelf offset of a bay. -/
def chainBytes (s : State) (c : Cmd) (bay off n : Nat) : State × Got (List Byte) :=
  if pow2 22 < off + n then (s, .bad F_PROT (BitVec.ofNat 64 off) 0)
  else withParked s c bay off n false fun s => match shelfPoison s (shelfKey bay off) n with
    | some a => (s, .bad F_MEMECC (BitVec.ofNat 64 a) 0)
    | none => (charge s c.part (cmdTree c) 3 ((n + 15) / 16), .val (rdBytes s.shelf (shelfKey bay off) n))

/-- A look-up of R257. -/
def kvLookup (s : State) (c : Cmd) (g : Beat) (p : Nat) : State × Got (List Byte) :=
  match chainFind s c g p with
  | none => (s, .bad F_PROT (BitVec.ofNat 64 p) 0)
  | some x => chainBytes s c x.1 x.2 (kvRowBytes g)

/-- One element of a gath on a chain: the row's bytes are the elements of the destination row. -/
def kvGathElem (s : State) (c : Cmd) : State :=
  let d := c.beats.getD 1 0
  let g := c.beats.getD 2 0
  gotten c (readElem s c (c.beats.getD 0 0) 0 0 c.pos 0) fun s p =>
    gotten c (kvLookup s c g p.toNat) fun s bs =>
      let n := sfBytes (oSf d)
      let vs := (List.range (bs.length / n)).map fun k => ofBytes ((bs.drop (k * n)).take n)
      gotten c (writeRow s c d c.pos vs) fun s _ => nextElem s c

/-- Append a row of a chain (R257): the data, then LIMIT. -/
def kvAppend (s : State) (c : Cmd) (g : Beat) (p : Nat) (bs : List Byte) : State :=
  match chainNext s c with
  | none => failEngine s c
  | some (bay, start, q) =>
    let off := kvBase g + (p - start) * kvRowBytes g
    if p != q then failEngine s c
    else if pow2 22 < off + bs.length then failCmd s c F_PROT (BitVec.ofNat 64 off) 1
    else gotten c (withParked s c bay off bs.length true fun s => (s, .val ())) fun s _ =>
      let s := charge (shelfPoke s (shelfKey bay off) bs) c.part (cmdTree c) 3 ((bs.length + 15) / 16)
      let k := slotNoOf c % 8
      nextElem { s with kvc := assocSet (bay, k) (BitVec.ofNat 64 (putFld (kvcAt s bay k).toNat 0 32 (p + 1))) s.kvc } c

/-- The row that a chain takes next begins inside a word of the row before it. -/
def appendJoint (s : State) (c : Cmd) : Bool :=
  let g := c.beats.getD 2 0
  match chainNext s c with
  | none => false
  | some (_, start, q) => decide (start < q) && (kvBase g + (q - start) * kvRowBytes g) % 8 != 0

/-- One element of a scat on a chain. -/
def kvScatElem (s : State) (c : Cmd) : State :=
  let b := c.beats.getD 1 0
  let g := c.beats.getD 2 0
  let sf := kvSf (oSf b)
  gotten c (readElem s c (c.beats.getD 0 0) 0 0 c.pos 0) fun s p =>
    gotten c (readRow s c b c.pos (kvRowBytes g / sfBytes sf)) fun s vs =>
      convertedAll c (if oSf b == 9 then 6 else oSf b) sf (oOvp b) s vs fun s l =>
        kvAppend s c g p.toNat (l.flatMap (toBytes (sfBytes sf)))

/-! ### gath and gathw (R404, R405) -/

/-- One element of a gath on a table. -/
def gathElem (s : State) (c : Cmd) (rs : List XReply) : State :=
  let d := c.beats.getD 1 0
  let t := tableOf s c.part (slotNoOf c)
  gotten c (readElem s c (c.beats.getD 0 0) 0 0 c.pos 0) fun s i =>
    answered c (tableRow s c i.toNat rs.head?) (isAway s c i.toNat) fun s bs =>
      convertedAll c (tSf t) (oSf d) (oOvp d) s (rowElems (tSf t) (tElems t) bs) fun s l =>
        gotten c (writeRow s c d c.pos l) fun s _ => nextElem s c

/-- GATH_COMMAND (R404). -/
def execGathCommand (r : QRef) (n : Nat) (replies : List XReply) (s : State) : Res :=
  withCmd s r [0x28] bankRoom (bindTable (fun _ => true) fun c => c.beats.getD 1 0) fun s c =>
    let d := c.beats.getD 1 0
    let wide := if gKv c.hdr then kvRowBytes (c.beats.getD 2 0) / sfBytes (oSf d) else tElems (tableOf s c.part (slotNoOf c))
    let joint := fun (_ : State) (c : Cmd) => rowsShare d c.pos wide
    if gKv c.hdr then runRows (gCount c.hdr) joint (fun s c _ => kvGathElem s c) 0 c.id n [] s
    else runRows (gCount c.hdr) joint gathElem 1 c.id n replies s

/-- The exact value of a table element in f32 (R405): an integer of 8 or 16 bits, or the float itself. -/
def asF32 (sf : Nat) (v : Word) : Nat := if floatSf sf then fld v 0 32 else ((cvtifF f32 0 1 (intSf sf v)).map (·.1)).getD 0

/-- Candidate k of a gathw: its row number and its weight in f32, from the lists or from skemb's own beats. -/
def candidate (s : State) (c : Cmd) (k : Nat) : State × Got (Nat × Nat) :=
  let a := c.beats.getD 0 0
  let w := c.beats.getD 1 0
  if fld a 126 2 == 0 then
    let b := if k < 3 then a else w
    (s, .val (fld b (40 * (k % 3)) 24, (loadWiden bf16 (fld b (40 * (k % 3) + 24) 16))))
  else
    match readElem s c a 0 0 k 0 with
    | (s, .hold) => (s, .hold)
    | (s, .bad x g4 g5) => (s, .bad x g4 g5)
    | (s, .val i) =>
      match readElem s c w 0 0 k 0 with
      | (s, .hold) => (s, .hold)
      | (s, .bad x g4 g5) => (s, .bad x g4 g5)
      | (s, .val v) => (s, .val (i.toNat, fld v 0 32))

/-- Add the weighted rows of a group's candidates to the sum (R79, R405). -/
def gathwSum (c : Cmd) (k : Nat) : Nat → List XReply → List Nat → State → (State → List Nat → State) → State
  | 0, _, acc, s, go => go s acc
  | n + 1, rs, acc, s, go =>
    let t := tableOf s c.part (slotNoOf c)
    gotten c (candidate s c k) fun s x =>
      answered c (tableRow s c x.1 rs.head?) (isAway s c x.1) fun s bs =>
        let es := (rowElems (tSf t) (tElems t) bs).map (asF32 (tSf t))
        gathwSum c (k + 1) n rs.tail ((acc.zip es).map fun p => (fmaF f32 0 false p.2 x.2 p.1).1) s go

/-- One group of a gathw. -/
def gathwElem (s : State) (c : Cmd) (rs : List XReply) : State :=
  let d := c.beats.getD 2 0
  let t := tableOf s c.part (slotNoOf c)
  let g := gGroup c.hdr
  gathwSum c (c.pos * g) g rs (List.replicate (tElems t) 0) s fun s acc =>
    convertedAll c 6 (oSf d) (oOvp d) s (acc.map fun x => (BitVec.ofNat 64 x)) fun s l =>
      gotten c (writeRow s c d c.pos l) fun s _ => nextElem s c

/-- GATHW_COMMAND (R405). -/
def execGathwCommand (r : QRef) (n : Nat) (replies : List XReply) (s : State) : Res :=
  withCmd s r [0x29] bankRoom (bindTable (fun sf => sf != 4 && sf != 5 && sf != 10) fun c => c.beats.getD 2 0) fun s c =>
    let wide := tElems (tableOf s c.part (slotNoOf c))
    runRows (gCount c.hdr) (fun _ c => rowsShare (c.beats.getD 2 0) c.pos wide) gathwElem (gGroup c.hdr) c.id n replies s

/-! ### scat and scatadd (R404, R406) -/

/-- What an entry of a scat or scatadd will do: the runs of its row (none: in another package) and the new elements. -/
structure RowWrite where
  runs : Option (List Run)
  elems : List Nat
  deriving DecidableEq, Repr

/-- Check entry e: its index, its source row, the conversion, and its table row; `add` reads the row too. -/
def withEntry (add : Bool) (s : State) (c : Cmd) (e : Nat) (r : Option XReply) (go : State → RowWrite → State) : State :=
  let b := c.beats.getD 1 0
  let t := tableOf s c.part (slotNoOf c)
  let sz := sfBytes (tSf t)
  gotten c (readElem s c (c.beats.getD 0 0) 0 0 e 0) fun s i =>
    gotten c (readRow s c b e (tElems t)) fun s vs =>
      convertedAll c (oSf b) (tSf t) (oOvp b) s vs fun s l =>
        match rowAt s c i.toNat with
        | .none => failEngine s c
        | .away _ => answered c (s, awayReply s c r) true fun s _ => go (chargeLink s c (tElems t * sz) 1) ⟨none, l⟩
        | .here va =>
          gotten c (cmdRuns s c true va (tElems t * sz) sz) fun s rs =>
            match (if add then poisonedAt s rs else none) with
            | some a => failCmd s c F_MEMECC (BitVec.ofNat 64 a) 0
            | none => go s ⟨some rs, l⟩

/-- Write the elements over a row. -/
def putRow (s : State) (c : Cmd) (w : RowWrite) : State :=
  let sz := sfBytes (tSf (tableOf s c.part (slotNoOf c)))
  match w.runs with
  | none => s
  | some rs => writeRuns s c.part (cmdTree c) rs (w.elems.flatMap (toBytes sz))

/-- The sum of a table element and a source element in the table's format (R406). -/
def addSf (sf x y : Nat) : Nat := if sf == 6 then (faddF f32 0 false x y).1 else (x + y) % pow2 (8 * sfBytes sf)

/-- Add the elements into a row. -/
def addRow (s : State) (c : Cmd) (w : RowWrite) : State :=
  let sf := tSf (tableOf s c.part (slotNoOf c))
  let sz := sfBytes sf
  match w.runs with
  | none => s
  | some rs =>
    let r := readRuns s c.part (cmdTree c) rs
    let old := (List.range w.elems.length).map fun k => ofBytes ((r.1.drop (k * sz)).take sz)
    writeRuns r.2 c.part (cmdTree c) rs ((old.zip w.elems).flatMap fun p => toBytes sz (addSf sf p.1 p.2))

/-- SCAT_COMMAND (R404). -/
def execScatCommand (r : QRef) (n : Nat) (replies : List XReply) (s : State) : Res :=
  withCmd s r [0x2A] bankRoom (bindTable (fun _ => true) fun c => c.beats.getD 1 0) fun s c =>
    if gKv c.hdr then runRows (gCount c.hdr) appendJoint (fun s c _ => kvScatElem s c) 0 c.id n [] s
    else runRows (gCount c.hdr) noJoint (fun s c rs => withEntry false s c c.pos rs.head? fun s w => nextElem (putRow s c w) c) 1 c.id n replies s

/-- Check every entry of a scatadd from `e` on in list order, as far as each passes: their writes with their places. -/
def checkEntries (c : Cmd) : Nat → Nat → List XReply → List (Nat × RowWrite) → State → (State → List (Nat × RowWrite) → State) → State
  | 0, _, _, acc, s, go => go s acc
  | n + 1, e, rs, acc, s, go =>
    let t := withEntry true s c e rs.head? fun t w => checkEntries c n (e + 1) rs.tail (acc ++ [(e, w)]) t go
    -- an entry that did not pass: the ones before it are applied
    if (cmd? t c.id).map (·.pos) == some c.pos then go t acc else t

/-- Apply checked additions in the order that a permutation of the list gives. -/
def applyIn (perm : List Nat) (c : Cmd) (s : State) (l : List (Nat × RowWrite)) : State :=
  let s := perm.foldl (fun s e => match assoc e l with
    | some w => addRow s c w
    | none => s) s
  modCmd s c.id fun x => { x with pos := c.pos + l.length }

/-- A list is a permutation of the numbers from lo up to hi. -/
def isPerm (perm : List Nat) (lo hi : Nat) : Bool := perm.length == hi - lo && (List.range hi).all fun k => decide (k < lo) || perm.contains k

/-- SCATADD_COMMAND (R79, R406): in list order, or in a permutation of what is left where the partition is not
deterministic. -/
def execScataddCommand (r : QRef) (n : Nat) (perm : List Nat) (replies : List XReply) (s : State) : Res :=
  withCmd s r [0x2B] bankRoom (bindTable (fun sf => sf == 4 || sf == 5 || sf == 6) fun c => c.beats.getD 1 0) fun s c =>
    let total := gCount c.hdr
    if isPerm perm c.pos total && !isDet s c.part && decide (c.pos < total) && !c.held then
      let s := checkEntries c (total - c.pos) c.pos replies [] s (applyIn perm c)
      match cmd? s c.id with
      | some c => if c.status.isNone && !c.held && decide (total ≤ c.pos) then endCmd s c else s
      | none => s
    else runRows total noJoint (fun s c rs => withEntry true s c c.pos rs.head? fun s w => nextElem (addRow s c w) c) 1 c.id n replies s

/-! ### tblswap (R253, R407) -/

/-- A second swap on a slot waits at its queue head until the first has retired. -/
def swapReady (s : State) (c : Cmd) : Bool :=
  tOldb (tableOf s c.part (slotNoOf c)) == 0 &&
    !s.cmds.any fun d => d.id != c.id && d.issued && mEop d.hdr == 0x2C && d.part == c.part && slotNoOf d == slotNoOf c

/-- The geometry of a slot, laid out as beat 2. -/
def slotGeometry (t : BitVec 256) : Nat :=
  fld t 64 32 + tRowb t * pow2 32 + tSf t * pow2 48 + fld t 43 1 * pow2 52 + tSpkg t * pow2 53 + tNsh t * pow2 70

/-- A slot with a base, a version and a geometry beat, nothing bound. -/
def slotWith (base ver : Nat) (g : Beat) : Nat :=
  base * pow2 192 + ver * pow2 96 + fld g 0 32 * pow2 64 + fld g 32 16 * pow2 48 + fld g 48 4 * pow2 44 + fld g 52 1 * pow2 43 +
    fld g 53 17 * pow2 26 + fld g 70 8 * pow2 18

/-- The swap at issue, at one instant. -/
def swapTable (s : State) (c : Cmd) : State :=
  let b := c.beats.getD 0 0
  let g := c.beats.getD 1 0
  let k := slotNoOf c
  let t := tableOf s c.part k
  let base := oVa b
  let ver := fld b 64 32
  if tBase t == 0 then (if base == 0 then s else setTable s c.part k (slotWith base ver g))
  else if slotGeometry t != fld g 0 78 then failEngine s c
  else
    let s := setTable s c.part k (slotWith base ver g + tBase t * pow2 128 + tOutn t * pow2 9)
    let s := { s with cmds := updWhere (fun x => x.part == c.part && boundCmd x && slotNoOf x == k && !x.old) (fun x => { x with old := true }) s.cmds }
    modCmd s c.id fun x => { x with pos := 1, ver := tVer t }

/-- TBLSWAP_COMMAND (R407): a swap of a live slot ends once nothing is bound to the old bank, which goes at retirement. -/
def execTblswapCommand (r : QRef) (s : State) : Res :=
  withCmd s r [0x2C] swapReady swapTable fun s c =>
    let k := slotNoOf c
    let t := tableOf s c.part k
    if c.pos != 0 && tOuto t != 0 then s else endCmd s c

end Sys2Proof.Machine
end

