-- ==== Sys2Proof/Machine/Inval.lean ====
section
/-! DEFINITION. Invalidations (R112, R113). -/
namespace Sys2Proof.Machine

/-- Fields of an invalidation descriptor (R112). -/
def invBase (d : BitVec 256) : Word := BitVec.extractLsb' 0 64 d
def invPart (d : BitVec 256) : Nat := fld d 100 6
def invStage (d : BitVec 256) : Nat := fld d 98 2
def invSize (d : BitVec 256) : Nat := fld d 96 2
def invCount (d : BitVec 256) : Nat := fld d 64 32
def invDone (d : BitVec 256) : Word := BitVec.extractLsb' 128 64 d

/-- log2 of the page size that a SIZE code names. -/
def invBits (n : Nat) : Nat := if n == 0 then 14 else if n == 1 then 25 else 36

/-- The descriptor is refused (R112). -/
def invBad (d : BitVec 256) : Bool :=
  fld d 106 22 != 0 || fld d 192 64 != 0 || invStage d == 0 || invSize d == 3 ||
    (invBase d).toNat % pow2 (invBits (invSize d)) != 0 || (bitAt d 98 && !canon (invBase d).toNat)

/-- A TLB entry matches. An entry holds a combined translation, so a stage-2 invalidation drops every entry of its
partition (log 28). -/
def invMatches (d : BitVec 256) (p : Nat) (e : TlbEntry) : Bool :=
  let lo := (invBase d).toNat
  let hi := lo + invCount d * pow2 (invBits (invSize d))
  e.part == p && (bitAt d 99 || invCount d == 0 || (decide (e.va < hi) && decide (lo < e.va + pow2 e.size)))

/-- Start an invalidation (R113): the entries and the patched runs drop, and a drain token goes to every port of the
partition's bays. A walk that is out starts again, so that it fills in nothing older (log 94). -/
def startInval (s : State) (p : Nat) (d : BitVec 256) (physical : Bool) : State :=
  { s with tlb := s.tlb.filter (fun e => !invMatches d p e), invals := s.invals ++ [⟨p, d, physical, baysOf s p⟩],
           walks := updWhere (fun w => w.part == p) (fun w => { w with root := s1root s p }) s.walks,
           streams := s.streams.map fun x => { x with runs := x.runs.filter fun e => !invMatches d p e } }

/-- INVALIDATION_SUBMIT (R112, R113): a descriptor written through the hypervisor window. -/
def execInvalidationSubmit (d : BitVec 256) (s : State) : Res :=
  .next (if invBad d then modPkg s fun k => { k with winRefused := true } else startInval s (invPart d) d true)

/-- A bay's ports have acknowledged: no walk of an earlier request is out there. A store that was translated before and waits at
the edge (a block's to its commit, a grid's to its checkpoint, a committed stv to its version) is not waited for: it is performed
at its old physical address. DESIGN CHOICE, log 94. -/
def bayQuiet (s : State) (p bay : Nat) : Bool := !(s.walks.any fun w => w.part == p && w.bay == bay)

/-- Write the DONE word (R113, R501, R507): physical for the window, virtual at supervisor level for an hcall. A physical address
that is not a multiple of 8 is written as it stands. DESIGN CHOICE, log 94. -/
def writeDone (s : State) (v : Inval) : State :=
  let d := invDone v.desc
  if v.physical then
    if paOk d.toNat then pokeBytes s d.toNat (toBytes 8 1)
    else hfqFault s { recBase F_PROT v.part with addr := d, g4 := d, g5 := 1 } false
  else complete s v.part d 1 true false none

/-- INVALIDATION_DONE (R113): every port has acknowledged. -/
def execInvalidationDone (n : Nat) (s : State) : Res :=
  match s.invals[n]? with
  | none => .next s
  | some v =>
    if v.pending.all (bayQuiet s v.part) then .next (writeDone { s with invals := dropAt n s.invals } v) else .next s

end Sys2Proof.Machine
end

