-- ==== Sys2Proof/Machine/LinkCmd.lean ====
section
/-! DEFINITION. The link engines: collectives (R409), ordered sends and receives (R201, R202, R410, R411), and remote
copies (R412), with the access that another package makes here. -/
namespace Sys2Proof.Machine

/-- A data word kept in a command's beats. -/
def keepWord (w : Nat) : Beat := BitVec.ofNat 128 w

/-- Checked bytes of memory for a command, from an address without an alignment of its own. -/
def cmdRead (s : State) (c : Cmd) (va n algn : Nat) (go : State → List Byte → State) : State :=
  if n == 0 then go s []
  else gotten c (cmdRuns s c false va n algn) fun s rs => let r := readRuns s c.part (cmdTree c) rs; go r.2 r.1

/-- The 8-byte entries of a list of bytes, as numbers. -/
def words8 : Nat → List Byte → List Nat
  | 0, _ => []
  | n + 1, bs => ofBytes (bs.take 8) :: words8 n (bs.drop 8)

/-! ### Bytes of a local operand of SF 1 (R396, R398, R399) -/

/-- The bytes of row 0 from byte k on. -/
def localRead (s : State) (c : Cmd) (b : Beat) (k n : Nat) : State × Got (List Byte) :=
  if oShelf b then
    let e := oBase b + k
    if pow2 22 < e + n then (s, .bad F_PROT (BitVec.ofNat 64 e) 0)
    else withParked s c c.bay e n false fun s => match shelfPoison s (shelfKey c.bay e) n with
      | some a => (s, .bad F_MEMECC (BitVec.ofNat 64 a) 0)
      | none => (charge s c.part (cmdTree c) 3 ((n + 15) / 16), .val (rdBytes s.shelf (shelfKey c.bay e) n))
  else
    match cmdRuns s c false (oVa b + k) n 1 with
    | (s, .val rs) => (let r := readRuns s c.part (cmdTree c) rs; (r.2, .val r.1))
    | (s, .hold) => (s, .hold)
    | (s, .bad x g4 g5) => (s, .bad x g4 g5)

/-- Write bytes of row 0 from byte k on. -/
def localWrite (s : State) (c : Cmd) (b : Beat) (k : Nat) (bs : List Byte) : State × Got Unit :=
  if oShelf b then
    let e := oBase b + k
    if pow2 22 < e + bs.length then (s, .bad F_PROT (BitVec.ofNat 64 e) 1)
    else withParked s c c.bay e bs.length true fun s =>
      (charge (shelfPoke s (shelfKey c.bay e) bs) c.part (cmdTree c) 3 ((bs.length + 15) / 16), .val ())
  else
    match cmdRuns s c true (oVa b + k) bs.length 1 with
    | (s, .val rs) => (writeRuns s c.part (cmdTree c) rs bs, .val ())
    | (s, .hold) => (s, .hold)
    | (s, .bad x g4 g5) => (s, .bad x g4 g5)

/-- All n bytes of row 0. -/
def cmdBytes (s : State) (c : Cmd) (b : Beat) (n : Nat) (go : State → List Byte → State) : State :=
  if n == 0 then go s [] else gotten c (localRead s c b 0 n) go

/-- The address of byte k of row 0. -/
def localAt (b : Beat) (k : Nat) : Nat := (if oShelf b then oBase b else oVa b) + k

/-- Move bytes from the command's position up to `total` in ascending offset, each aligned 8-byte word of the destination,
which begins at `dst`, at one instant; then `fin`. Where a word fails its bytes go one by one, so that every byte before the
failing one is moved (R396, R412). -/
def carryBytes (take_ : State → Nat → Nat → State × Got (List Byte)) (put : State → Nat → List Byte → State × Got Unit)
    (dst total : Nat) (fin : State → Cmd → State) (id : Nat) : Nat → State → State
  | 0, s => s
  | n + 1, s =>
    match cmd? s id with
    | none => s
    | some c =>
      if c.status.isSome || c.held then s
      else if total ≤ c.pos then fin s c
      else
        let k := Nat.min (total - c.pos) (8 - (dst + c.pos) % 8)
        let go := fun (m : Nat) => gotten c (take_ s c.pos m) fun s bs => gotten c (put s c.pos bs) fun s _ => modCmd s id fun x => { x with pos := c.pos + m }
        let t := go k
        carryBytes take_ put dst total fin id n (if 1 < k && ((cmd? t id).bind (·.status)).isSome then go 1 else t)

/-! ### Pod time and watermarks (R199, R201, R204) -/

/-- cmp48 of R199. -/
def cmp48 (a b : BitVec 48) : Int := (a - b).toInt

/-- The lower of two stamps. -/
def lower (a b : BitVec 48) : BitVec 48 := if cmp48 b a < 0 then b else a

/-- The lowest of a list and one more. -/
def lowest (a : BitVec 48) (l : List (BitVec 48)) : BitVec 48 := l.foldl lower a

/-- POD_TIME[47:0]. -/
def podStamp (s : State) : BitVec 48 := BitVec.setWidth 48 s.pkg.podTime

/-- WML is formed anew (R201): at each stamp, at each placing of a stamped packet, and at each tick. -/
def setWml (s : State) : State := modPkg s fun k => { k with wml := lowest (BitVec.setWidth 48 k.podTime - 3) k.stamped }

/-- A port is up (R465). -/
def portUp (s : State) (k : Nat) : Bool := ((s.pkg.ports[k]?).map (·.state)) == some 5

/-- Change a port. -/
def modPort (s : State) (k : Nat) (f : Port → Port) : State := modPkg s fun g => { g with ports := g.ports.modify k f }

/-- A port counts in M: it is up, its ORD_EXCL bit is clear, and it is not waiting to come back (R204, R208). -/
def inMin (s : State) (k : Nat) : Bool := portUp s k && !s.pkg.ordExcl.getLsbD k && !s.pkg.readmit.getLsbD k

/-- WMI of a port. -/
def wmiOf (s : State) (k : Nat) : BitVec 48 := ((s.pkg.ports[k]?).map (·.wmi)).getD 0

/-- The ports that count. -/
def minPorts (s : State) : List Nat := (List.range 24).filter (inMin s)

/-- The live minimum M (R204). -/
def liveMin (s : State) : BitVec 48 := lowest s.pkg.wml ((minPorts s).map (wmiOf s))

/-- The key of delivery: STAMP, SRC, SPORT, SEQ (R205). -/
abbrev OrdKey := BitVec 48 × Nat × Nat × Nat

/-- Key order of R205. -/
def ordLess (x y : OrdKey) : Bool :=
  let c := cmp48 x.1 y.1
  decide (c < 0) || (c == 0 && (decide (x.2.1 < y.2.1) || (x.2.1 == y.2.1 &&
    (decide (x.2.2.1 < y.2.2.1) || (x.2.2.1 == y.2.2.1 && decide (x.2.2.2 < y.2.2.2))))))

/-! ### ORD packets (R200–R202) -/

/-- An ORD packet's header (R202); WM is filled in when it is transmitted. -/
def ordHeader (stamp seq src sport dst grp len : Nat) : BitVec 256 :=
  BitVec.ofNat 256 (stamp * pow2 208 + seq * pow2 128 + src * pow2 111 + sport * pow2 107 + dst * pow2 90 + grp * pow2 82 + pow2 80 + len * pow2 64)

def hdStamp (h : BitVec 256) : BitVec 48 := BitVec.extractLsb' 208 48 h
def hdWm (h : BitVec 256) : BitVec 48 := BitVec.extractLsb' 160 48 h
def hdSeq (h : BitVec 256) : Nat := fld h 128 32
def hdSrc (h : BitVec 256) : Nat := fld h 111 17
def hdSport (h : BitVec 256) : Nat := fld h 107 4
def hdDst (h : BitVec 256) : Nat := fld h 90 17
def hdGroup (h : BitVec 256) : Nat := fld h 82 8
def hdLen (h : BitVec 256) : Nat := fld h 64 16

/-- The delivery key of a packet. -/
def hdKey (h : BitVec 256) : OrdKey := (hdStamp h, hdSrc h, hdSport h, hdSeq h)

/-- A header with its WM filled in (R202). -/
def putWm (h : BitVec 256) (w : BitVec 48) : BitVec 256 := BitVec.ofNat 256 (putFld h.toNat 160 48 w.toNat)

/-- The copy that a package sends to itself crosses no port: its WM is its own STAMP (R496). -/
def ownCopy (p : Packet) : Packet := { p with hdr := putWm p.hdr (hdStamp p.hdr) }

/-- The part of the receive buffer for local injection (R200). -/
def localPart : Nat := 24

/-- A part of the receive buffer has a free entry (R200). -/
def rxRoom (s : State) (k : Nat) : Bool := decide ((s.pkg.rxbuf.filter fun x => x.1 == k).length < 128)

/-- The sequence number of a partition's link queue (R200). -/
def osqOf (s : State) (p q : Nat) : Nat := (assoc (p, q) s.pkg.osq).getD 0

/-- Stamp an ordered command: it takes one stamp and one value of its queue's sequence (R201). -/
def takeStamp (s : State) (c : Cmd) : State :=
  let stamp := podStamp s
  let q := osqOf s c.part c.r.q
  let s := setWml (modPkg s fun k => { k with stamped := k.stamped ++ [stamp], osq := assocSet (c.part, c.r.q) ((q + 1) % pow2 32) k.osq })
  modCmd s c.id fun x => { x with base := BitVec.setWidth 64 stamp, ver := BitVec.ofNat 32 q, out := 1 }

/-- A packet of a stamped command. -/
def ordPacket (s : State) (c : Cmd) (dst : Nat) (payload : List Byte) : Packet :=
  ⟨ordHeader c.base.toNat c.ver.toNat s.pkg.number.toNat c.r.q dst (groupOf s c.part) payload.length, payload, none⟩

/-- Some port is up. -/
def anyUp (s : State) : Bool := (List.range 24).any (portUp s)

/-- Hand the copies of a stamped command to the crossbar in list order, up to one that must wait: for room in the local part,
or for its route. `packets` gives the packets of a destination, `routes` each copy's egress port; 24 and above stand for none.
-/
def handCopies (dsts : List Nat) (packets : Nat → List Packet) (routes : List Nat) (id : Nat) : Nat → State → State
  | 0, s => s
  | n + 1, s =>
    match cmd? s id with
    | none => s
    | some c =>
      let k := c.out - 1
      match dsts[k]? with
      | none => s
      | some dst =>
        let next := fun (s : State) => handCopies dsts packets routes id n (modCmd s id fun x => { x with out := c.out + 1 })
        let lost := fun (s : State) => next (modCmd s id fun x => { x with lost := true })
        match packets dst with
        | [] => next s
        | ps =>
          if dst == s.pkg.number.toNat then
            (if rxRoom s localPart then next (modPkg s fun g => { g with rxbuf := g.rxbuf ++ ps.map fun p => (localPart, ownCopy p) }) else s)
          else if groupOf s c.part == 0 || !anyUp s then lost s
          else match routes[k]? with
            | none => s
            | some r => if portUp s r then next (modPort s r fun x => { x with egress := x.egress ++ ps }) else lost s

/-- Hand out what is left of a stamped command's copies; with the last one its stamp holds WML no more (R201). -/
def handOut (s : State) (c : Cmd) (dsts : List Nat) (packets : Nat → List Packet) (routes : List Nat) : State :=
  if dsts.length < c.out then s
  else
    let s := handCopies dsts packets routes c.id dsts.length s
    match cmd? s c.id with
    | none => s
    | some d => if d.out ≤ dsts.length then s else setWml (modPkg s fun g => { g with stamped := g.stamped.erase (BitVec.setWidth 48 d.base) })

/-- A header is that of a copy of a stamped command. -/
def copyHead (s : State) (c : Cmd) (h : BitVec 256) : Bool :=
  decide (0 < c.out) && (mEop c.hdr == 0x41 || mEop c.hdr == 0x40) &&
    hdKey h == (BitVec.setWidth 48 c.base, s.pkg.number.toNat, c.r.q, c.ver.toNat) && hdGroup h == groupOf s c.part

/-- A packet is a copy of a stamped command. -/
def isCopyOf (s : State) (c : Cmd) (p : Packet) : Bool := p.ctl.isNone && copyHead s c p.hdr

/-- A copy of a stamped command has not left the package. -/
def copiesLeft (s : State) (c : Cmd) : Bool := s.pkg.ports.any fun x => x.egress.any (isCopyOf s c)

/-- The pieces of a payload, of up to 8,160 bytes each (R202); an empty payload is one piece. -/
def pieces : Nat → List Byte → List (List Byte)
  | 0, bs => [bs]
  | n + 1, bs => if bs.length ≤ 8160 then [bs] else bs.take 8160 :: pieces n (bs.drop 8160)

/-! ### coll (R409) -/

def clGt (x : Beat) : Nat := fld x 0 64
def clNm (x : Beat) : Nat := fld x 64 16 + 1
def clOp (x : Beat) : Nat := fld x 80 2
def clRed (x : Beat) : Nat := fld x 82 2
def clOrdf (x : Beat) : Bool := bitAt x 84

/-- The control beat of a coll, and the storage format of its source. -/
def clBeat (c : Cmd) : Beat := c.beats.getD 2 0
def clSf (c : Cmd) : Nat := oSf (c.beats.getD 0 0)

/-- combine of R409. -/
def combine (red sf : Nat) (x y : Nat) : Nat :=
  if red == 0 then (if sf == 6 then (faddF f32 0 false x y).1 else (x + y) % pow2 (8 * sfBytes sf))
  else if sf == 6 then (fminmaxF f32 false (red == 2) false x y).1
  else if red == 1 then Nat.min x y else Nat.max x y

/-- All-reduce at every element: the contributions in their order. -/
def reduceAll (red sf : Nat) : List (List Nat) → List Nat
  | [] => []
  | x :: l => l.foldl (fun acc y => (acc.zip y).map fun p => combine red sf p.1 p.2) x

/-- What a coll keeps once it has begun: the group table, and its own elements. -/
def clTable (c : Cmd) : List Nat := ((c.beats.drop 3).take (clNm (clBeat c))).map fun b => fld b 0 64
def clOwn (c : Cmd) : List Nat := (c.beats.drop (3 + clNm (clBeat c))).map fun b => fld b 0 64

/-- The issuer's member index. -/
def clMe (s : State) (c : Cmd) : Nat := (clTable c).findIdx fun w => w == s.pkg.number.toNat

/-- The elements of a member. -/
def contribution (s : State) (c : Cmd) (l : List Contribution) (k : Nat) : List Nat :=
  if k == clMe s c then clOwn c else ((l.find? fun x => x.member == k).map fun x => x.elems.map (·.toNat)).getD []

/-- The delivery key of a member's packets in an ordered coll (R205). -/
def memberKey (s : State) (c : Cmd) (l : List Contribution) (k : Nat) : OrdKey :=
  if k == clMe s c then (BitVec.setWidth 48 c.base, s.pkg.number.toNat, c.r.q, c.ver.toNat)
  else match l.find? fun x => x.member == k with
    | some x => (BitVec.ofNat 48 x.key.1, (clTable c).getD k 0, x.key.2.1, x.key.2.2)
    | none => (0, 0, 0, 0)

/-- Insert a member by its key. -/
def insMember (x : OrdKey × Nat) : List (OrdKey × Nat) → List (OrdKey × Nat)
  | [] => [x]
  | y :: l => if ordLess x.1 y.1 then x :: y :: l else y :: insMember x l

/-- The members in the order in which R409 combines them: by index, or in delivery order. -/
def memberOrder (s : State) (c : Cmd) (l : List Contribution) : List Nat :=
  let all := List.range (clNm (clBeat c))
  if clOrdf (clBeat c) then (all.foldl (fun acc k => insMember (memberKey s c l k, k) acc) []).map (·.2) else all

/-- Every other member's contribution has come; in an ordered coll no packet of a lower key can still arrive (R205). -/
def allCame (s : State) (c : Cmd) (l : List Contribution) : Bool :=
  ((List.range (clNm (clBeat c))).all fun k => k == clMe s c || l.any fun x => x.member == k) &&
    (!clOrdf (clBeat c) || (List.range (clNm (clBeat c))).all fun k => decide (cmp48 (memberKey s c l k).1 (liveMin s) ≤ 0))

/-- A member met with other parameters. -/
def mismatched (s : State) (c : Cmd) (l : List Contribution) : Bool :=
  let x := clBeat c
  l.any fun y => y.member != clMe s c && (y.nm != clNm x || y.op != clOp x || y.red != clRed x || y.ordf != clOrdf x || y.count != mArg c.hdr ||
    y.sf != clSf c || y.elems.length != y.count)

/-- The result of a collective is formed and kept; its elements are written next. -/
def formColl (s : State) (c : Cmd) (l : List Contribution) : State :=
  let x := clBeat c
  let val := contribution s c l
  let res := if clOp x == 0 then reduceAll (clRed x) (clSf c) ((memberOrder s c l).map val)
    else if clOp x == 1 then (List.range (clNm x)).flatMap val else val 0
  modCmd s c.id fun c => { c with beats := c.beats.take 3 ++ res.map keepWord, old := true }

/-- Meet the other members, and form the result. -/
def meetColl (others : List Contribution) (s : State) (c : Cmd) : State :=
  if !allCame s c others then s else if mismatched s c others then failEngine s c else formColl s c others

/-- The bytes that an ordered coll sends: its own elements in their storage format. -/
def collBytes (c : Cmd) : List Byte := (clOwn c).flatMap (toBytes (sfBytes (clSf c)))

/-- The packets of an ordered coll for another member. What they hold beside the header is DESIGN CHOICE, log 97. -/
def collPackets (s : State) (c : Cmd) (dst : Nat) : List Packet :=
  if dst == s.pkg.number.toNat then [] else (pieces ((collBytes c).length / 8160 + 1) (collBytes c)).map (ordPacket s c dst)

/-- A coll begins: it reads its group table and its own elements; an ordered one is stamped, another sends (R201, R409). -/
def beginColl (s : State) (c : Cmd) : State :=
  let x := clBeat c
  let nm := clNm x
  cmdRead s c (clGt x) (8 * nm) 8 fun s bs =>
    let gt := words8 nm bs
    let me := gt.findIdx fun w => w == s.pkg.number.toNat
    let keep := fun (s : State) (own : List Nat) =>
      let s := modCmd s c.id fun d => { d with beats := d.beats ++ gt.map keepWord ++ own.map keepWord }
      if clOrdf x then takeStamp s c else modCmd (chargeLink s c (own.length * sfBytes (clSf c)) (nm - 1)) c.id fun d => { d with out := nm + 1 }
    if (gt.filter fun w => w == s.pkg.number.toNat).length != 1 || gt.any fun w => decide (pow2 17 ≤ w) then failEngine s c
    else if groupOf s c.part == 0 && nm != 1 then failCmd s c F_LINK 24 0
    else if clOp x == 2 && me != 0 then keep s []
    else gotten c (readRow s c (c.beats.getD 0 0) 0 (mArg c.hdr)) fun s vs => keep s (vs.map (·.toNat))

/-- The place in the destination of the result's element at the position: its plane and its number there. -/
def collAt (c : Cmd) : Nat × Nat := (c.pos / mArg c.hdr, c.pos % mArg c.hdr)

/-- One element of the result. -/
def collElem (s : State) (c : Cmd) : State :=
  let b := c.beats.getD 1 0
  converted c (clSf c) (oSf b) (oOvp b) s (BitVec.setWidth 64 (c.beats.getD (3 + c.pos) 0)) fun s v =>
    gotten c (writeElem s c b (collAt c).1 0 (collAt c).2 (oPitch b) v) fun s _ => s

/-- The shelf word of that element. -/
def collWord (c : Cmd) : Option Nat := wordOf (c.beats.getD 1 0) (collAt c).1 0 (collAt c).2

/-- A command goes on unless it has ended or is held. -/
def onCmd (s : State) (id : Nat) (go : State → Cmd → State) : State :=
  match cmd? s id with
  | some c => if c.status.isSome || c.held then s else go s c
  | none => s

/-- Write the result, once it is formed. -/
def writeColl (s : State) (c : Cmd) : State :=
  if c.old then runElems (c.beats.length - 3) collWord collElem c.id (c.beats.length - 3) s else s

/-- A coll that has begun and has no result yet hands out its packets, then meets the other members. One that has lost a copy
for want of a route ends with F_LINK (R412). -/
def gatherColl (others : List Contribution) (routes : List Nat) (s : State) (c : Cmd) : State :=
  onCmd (handOut s c (clTable c) (collPackets s c) routes) c.id fun s c =>
    if c.out ≤ clNm (clBeat c) then s
    else if c.lost then failCmd s c F_LINK 24 0
    else onCmd (meetColl others s c) c.id writeColl

/-- COLL_COMMAND (R409). -/
def execCollCommand (r : QRef) (others : CollInput) (s : State) : Res :=
  withCmd s r [0x40] always noBind fun s c =>
    onCmd (if c.out == 0 then beginColl s c else s) c.id fun s c =>
      if c.out == 0 then s else if c.old then writeColl s c else gatherColl others.others others.routes s c

/-! ### osend (R201, R202, R410) -/

/-- The packages that the list of an osend names. -/
def osCount (c : Cmd) : Nat := fld (c.beats.getD 1 0) 64 16 + 1

/-- The listed packages of an osend that has been stamped. -/
def osList (c : Cmd) : List Nat := ((c.beats.drop 2).take (osCount c)).map fun b => fld b 0 17

/-- Its payload. -/
def osPayload (c : Cmd) : List Byte := (c.beats.drop (2 + osCount c)).map fun b => BitVec.setWidth 8 b

/-- An osend begins: its list and its payload as they stand now, then its stamp (R201). -/
def beginSend (s : State) (c : Cmd) : State :=
  let n := osCount c
  cmdRead s c (oVa (c.beats.getD 1 0)) (8 * n) 8 fun s l =>
    cmdBytes s c (c.beats.getD 0 0) (mArg c.hdr) fun s bs =>
      takeStamp (modCmd s c.id fun x => { x with beats := x.beats ++ (words8 n l).map keepWord ++ bs.map fun b => keepWord b.toNat }) c

/-- A stamped osend hands out its copies, and ends when none is left in the package (R410). -/
def sendCopies (routes : List Nat) (s : State) (c : Cmd) : State :=
  onCmd (handOut s c (osList c) (fun dst => [ordPacket s c dst (osPayload c)]) routes) c.id fun s d =>
    if d.out ≤ osCount d || copiesLeft s d then s else if d.lost then failCmd s d F_LINK 24 0 else endCmd s d

/-- OSEND_COMMAND (R410). -/
def execOsendCommand (r : QRef) (routes : List Nat) (s : State) : Res :=
  withCmd s r [0x41] always noBind fun s c =>
    onCmd (if c.out == 0 then beginSend s c else s) c.id fun s c => if c.out == 0 then s else sendCopies routes s c

/-! ### orecv (R411) -/

/-- ORQ refills from the head of the partition's hold in the cellar (R505, R506). -/
def refillOrq (s : State) (p : Nat) : State :=
  let t := part s p
  let n := Nat.min (64 - t.orq.length) t.hold.length
  if n == 0 then s
  else match cellarItem s p (8192 * n) false with
    | .error s => s
    | .ok s => modPart s p fun t => { t with orq := t.orq ++ t.hold.take n, hold := t.hold.drop n }

/-- The bytes that orecv writes of a packet: its header, then its payload. -/
def packetBytes (p : Packet) : List Byte := toBytes 32 p.hdr.toNat ++ p.payload

/-- Take the head packet of ORQ. -/
def takeOrd (s : State) (c : Cmd) : State :=
  match (part s c.part).orq with
  | [] => s
  | p :: l =>
    let s := refillOrq (modPart s c.part fun t => { t with orq := l }) c.part
    modCmd s c.id fun x => { x with beats := x.beats.take 1 ++ (packetBytes p).map fun b => keepWord b.toNat }

/-- ORQ holds a packet. -/
def ordReady (s : State) (c : Cmd) : Bool := !(part s c.part).orq.isEmpty

/-- The bytes of the packet that an orecv has taken. -/
def orBytes (c : Cmd) : List Byte := (c.beats.drop 1).map fun b => BitVec.setWidth 8 b

/-- The bytes of that packet from k on. -/
def orTake (c : Cmd) (s : State) (k m : Nat) : State × Got (List Byte) := (s, .val (((orBytes c).drop k).take m))

/-- How many of them fit. -/
def orLen (c : Cmd) : Nat := Nat.min (orBytes c).length (mArg c.hdr)

/-- ORECV_COMMAND (R411). -/
def execOrecvCommand (r : QRef) (s : State) : Res :=
  withCmd s r [0x42] ordReady takeOrd fun s c =>
    let b := c.beats.getD 0 0
    carryBytes (orTake c) (localWrite · c b) (localAt b 0) (orLen c)
      (fun s d => if mArg c.hdr < (orBytes c).length then failEngine s d else endCmd s d) c.id (orLen c + 1) s

/-! ### xsend, xget and the remote side (R412) -/

/-- The package of a remote operand beat. -/
def rmPkg (b : Beat) : Nat := fld b 64 17

/-- The access that the remote side makes for a partition of this package, checked by R105 without opening a page fault: the
bytes read (none for a write), or the check that failed; it waits for a walk that is out. -/
def remoteOp (s : State) (bay p : Nat) (sup : Bool) (tree : Option Nat) (va n : Nat) (write : Option (List Byte)) : State × Got (List Byte) :=
  let st : Word := if write.isSome then 1 else 0
  if n == 0 then (s, .val [])
  else match checkRun s bay p ⟨write.isSome, false, sup, true, tree⟩ 0 (va : Int) n 1 with
    | (s, .bad x a) => (s, .bad x a st)
    | (s, .page _) => (s, .bad F_PAGE (BitVec.ofNat 64 va) st)
    | (s, .miss) => (s, .hold)
    | (s, .ok rs) =>
      match write with
      | some bs => (writeRuns s p tree rs bs, .val [])
      | none =>
        match poisonedAt s rs with
        | some a => (s, .bad F_MEMECC (BitVec.ofNat 64 a) 0)
        | none => (let r := readRuns s p tree rs; (r.2, .val r.1))

/-- The level of a command: that of its sender's block, supervisor for a host's (R501). -/
def cmdSup (c : Cmd) : Bool := (c.sender.map (·.sup)).getD true

/-- A remote operand lies in this package. -/
def rmHere (s : State) (b : Beat) : Bool := rmPkg b == s.pkg.number.toNat

/-- A link command's flits are charged at its issue: n bytes go to another package. -/
def bindLink (k : Nat) (n : Cmd → Nat) (s : State) (c : Cmd) : State :=
  if rmHere s (c.beats.getD k 0) || groupOf s c.part == 0 then s else chargeLink s c (n c) 1

/-- Write bytes from byte k on to the remote operand of an xsend: here in the issuer's own package, else as `reply`, the
remote side's answer, says. -/
def xsendPut (reply : XReply) (c : Cmd) (s : State) (k : Nat) (bs : List Byte) : State × Got Unit :=
  let b := c.beats.getD 1 0
  if rmHere s b then
    (match remoteOp s c.bay c.part (cmdSup c) (cmdTree c) (oVa b + k) bs.length (some bs) with
     | (s, .val _) => (s, .val ())
     | (s, .hold) => (s, .hold)
     | (s, .bad x g4 g5) => (s, .bad x g4 g5))
  else (s, if reply.code != 0 then .bad reply.code (BitVec.ofNat 64 (oVa b)) 1 else .val ())

/-- The end of a remote copy: one that moves no byte ends with what the other package answers (R412). -/
def linkEnd (k : Nat) (reply : XReply) (s : State) (c : Cmd) : State :=
  if mArg c.hdr == 0 && !rmHere s (c.beats.getD k 0) && reply.code != 0 then failCmd s c reply.code (BitVec.ofNat 64 (oVa (c.beats.getD k 0))) 0
  else endCmd s c

/-- XSEND_COMMAND (R412). -/
def execXsendCommand (r : QRef) (reply : XReply) (s : State) : Res :=
  withCmd s r [0x43] always (bindLink 1 fun c => mArg c.hdr) fun s c =>
    let b := c.beats.getD 1 0
    if !rmHere s b && groupOf s c.part == 0 then failCmd s c F_LINK 24 0
    else carryBytes (localRead · c (c.beats.getD 0 0)) (xsendPut reply c) (oVa b) (mArg c.hdr) (linkEnd 1 reply) c.id (mArg c.hdr + 1) s

/-- Read bytes from byte k on of the remote operand of an xget: where the other package answers with a failure, the bytes that
precede it come with that answer. -/
def xgetTake (reply : XReply) (c : Cmd) (s : State) (k m : Nat) : State × Got (List Byte) :=
  let a := c.beats.getD 0 0
  if rmHere s a then remoteOp s c.bay c.part (cmdSup c) (cmdTree c) (oVa a + k) m none
  else (s, if reply.code != 0 && decide (reply.bytes.length < k + m) then .bad reply.code (BitVec.ofNat 64 (oVa a + k)) 0 else .val ((reply.bytes.drop k ++ List.replicate m 0).take m))

/-- XGET_COMMAND (R412). -/
def execXgetCommand (r : QRef) (reply : XReply) (s : State) : Res :=
  withCmd s r [0x44] always (bindLink 0 fun _ => 0) fun s c =>
    let b := c.beats.getD 1 0
    if !rmHere s (c.beats.getD 0 0) && groupOf s c.part == 0 then failCmd s c F_LINK 24 0
    else carryBytes (xgetTake reply c) (localWrite · c b) (localAt b 0) (mArg c.hdr) (linkEnd 0 reply) c.id (mArg c.hdr + 1) s

/-- The words of a remote write, each at one instant, up to one that fails (R412). -/
def remoteWrite (p : Nat) (sup : Bool) : Nat → Nat → List Byte → State → State
  | 0, _, _, s => s
  | n + 1, va, bs, s =>
    if bs.isEmpty then s
    else
      let k := Nat.min bs.length (8 - va % 8)
      match remoteOp s (hostBay s p) p sup none va k (some (bs.take k)) with
      | (s, .val _) => remoteWrite p sup n (va + k) (bs.drop k) s
      | (s, _) => s

/-- REMOTE_ACCESS (R412): an access that another package makes to the partition of its pod group here, at the level of the
command's sender (R501). What it reads goes to that package. An access has fewer than 2^18 bytes (R394): bit 18 of `size` is the
sender's level, the bits below it the bytes that a read asks for. -/
def execRemoteAccess (p : Nat) (va : Word) (size : Nat) (write : Option (List Byte)) (s : State) : Res :=
  if !live s p || groupOf s p == 0 then .next s
  else .next (match write with
    | some bs => remoteWrite p (nbits size 18 1 == 1) (bs.length + 1) va.toNat bs s
    | none => charge (remoteOp s (hostBay s p) p (nbits size 18 1 == 1) none va.toNat (size % pow2 18) none).1 p none 6 (flitsOf (size % pow2 18)))

end Sys2Proof.Machine
end

