-- ==== Sys2Proof/Machine/Memory.lean ====
section
/-! DEFINITION. Loads, stores, versioned words, prefetch, fences, monitored waits and atomics (R370–R391). -/
namespace Sys2Proof.Machine

/-- ld (R374). -/
def execLd (f : MFmt) (s : State) : Res :=
  memShell f false false true s fun s =>
    let n := sfBytes f.sf.toNat
    withRuns s (eaOf f n (opA s)) n n false fun s rs =>
      let r := loadRuns s f.own.toNat rs
      send r.2 f.t0 (widenSf f.sf.toNat r.1)

/-- Give a store its narrowed bytes (R375): it waits for its controls, raises its flags, or faults with
its address (R392, log 43). -/
def withBytes (f : MFmt) (ea : Int) (s : State) (go : State → List Byte → State) : State :=
  match curCtl s with
  | none => if f.sf.toNat == 7 || f.sf.toNat == 8 then waitCur s
    else (match narrowSf f.sf.toNat ⟨0, false, 0⟩ (opB s) with
      | some r => go s r.1
      | none => s)
  | some c =>
    match narrowSf f.sf.toNat c (opB s) with
    | some r => go (raiseFl s r.2) r.1
    | none => fault s F_CVTOVF (BitVec.ofInt 64 ea) (BitVec.ofNat 64 f.sf.toNat)

/-- st (R375). -/
def execSt (f : MFmt) (s : State) : Res :=
  memShell f true false s.cur.grid.isSome s fun s =>
    let n := sfBytes f.sf.toNat
    withRuns s (eaOf f n (opA s)) n n true fun s rs =>
      withBytes f (eaOf f n (opA s)) s fun s bs =>
        match rs with
        | r :: _ => handStore s f (.mem r.pa bs (!r.uncached))
        | [] => s

/-- lds (R372, R374). -/
def execLds (f : MFmt) (s : State) : Res :=
  memShell f false false true s fun s =>
    let n := sfBytes f.sf.toNat
    withShelf s (eaOf f n (opA s)) n false fun s a =>
      let hs := seenHeld s f.own.toNat
      let bs := (List.range n).map fun k => seenByte hs true (a + k) (rdByte s.shelf (a + k))
      send s f.t0 (widenSf f.sf.toNat bs)

/-- sts (R375). -/
def execSts (f : MFmt) (s : State) : Res :=
  memShell f true false s.cur.grid.isSome s fun s =>
    let n := sfBytes f.sf.toNat
    withShelf s (eaOf f n (opA s)) n true fun s a => withBytes f (eaOf f n (opA s)) s fun s bs => handStore s f (.shelf a bs)

/-- The aligned 16-byte slot of a versioned word: F_PROT when the page is not versioned or is uncached (R381). -/
def withSlot (f : MFmt) (s : State) (store : Bool) (go : State → Nat → State) : State :=
  let ea := eaOf f 16 (opA s)
  withRuns s ea 16 16 store fun s rs =>
    match rs with
    | r :: _ => if !r.vr || r.uncached then accFault s F_PROT ea 16 store else go s r.pa
    | [] => s

/-- ldv (R382): one that waits takes the value of its version from the stv that makes it. -/
def execLdv (f : MFmt) (s : State) : Res :=
  memShell f false false true s fun s =>
    withSlot f s false fun s pa =>
      let n : BitVec 32 := BitVec.setWidth 32 (opB s)
      let b := versBounds s s.cur.part pa
      let out := fun (v : Word) => send (l2Touch s s.cur.part (curTree s) pa false) f.t0 v
      match s.cur.ver.bind (·.2) with
      | some v => out v
      | none =>
      if (n - b.1).toNat ≤ (b.2 - b.1).toNat then out (versValue s s.cur.part pa n)
      else if versionAhead b.2 n then waitCur (modCur s fun i => { i with ver := some (pa, none) })
      else fault s F_VGONE (BitVec.ofInt 64 (eaOf f 16 (opA s))) (BitVec.setWidth 64 n)

/-- stv (R383): held to commit in a block; in a grid performed, or waiting, with the new number to T0. -/
def execStv (f : MFmt) (s : State) : Res :=
  memShell f true false s.cur.grid.isSome s fun s =>
    withSlot f s true fun s pa => handStore s f (.stv pa (opB s))

/-- reclaim (R384). -/
def execReclaim (f : MFmt) (s : State) : Res :=
  memShell f true false s.cur.grid.isSome s fun s =>
    withSlot f s true fun s pa =>
      let s2 := handStore s f (.reclaim pa (BitVec.setWidth 32 (opB s)))
      if s.cur.grid.isSome then releaseAll s2 else s2

/-- pref (R387): the line of EA into L2, or nothing; no walk is started, no bit set. -/
def execPref (f : MFmt) (s : State) : Res :=
  memShell f false false false s fun s =>
    let ea := eaOf f 1 (opA s)
    let k : AccKind := ⟨false, false, curSup s, true, none⟩
    match (checkRun s s.cur.bay s.cur.part k 0 ea 1 1).2 with
    | .ok (r :: _) => if r.uncached then s else l2Touch s s.cur.part (curTree s) r.pa false
    | _ => s

/-- fence (R388): it takes its place in the chain and forwards a. -/
def execFence (f : MFmt) (s : State) : Res := memShell f false false false s fun s => send s f.t0 (opA s)

/-- The barrier of a qfence goes into the named queues. -/
def putQfence (f : MFmt) (s : State) : State :=
  let lq := bitAt f.imm 16
  let q : QFence := ⟨lq, if lq then s.cur.part else curKey s, BitVec.extractLsb' 0 16 f.imm, s.cmdNo⟩
  noteAct (markSent { s with qfences := s.qfences ++ [q], cmdNo := s.cmdNo + 1 })

/-- qfence (R144, R389). -/
def execQfence (f : MFmt) (s : State) : Res :=
  memShell f false true false (markConsumed f.pr s) fun s => engGate s fun s => send (putQfence f s) f.t0 (opA s)

/-- monitor (R390). -/
def execMonitor (f : MFmt) (s : State) : Res :=
  memShell f false true false s fun s =>
    withRuns s (eaOf f 1 (opA s)) 1 1 false fun s rs =>
      match rs with
      | r :: _ => send (modFrame s s.cur.part (curFrame s) fun x => { x with mon := some ⟨r.pa / 64, 0, 0⟩ }) f.t0 (opA s)
      | [] => s

/-- waitm (R390, R391): in a deterministic partition every wake sends 0. -/
def execWaitm (f : MFmt) (s : State) : Res :=
  memShell f false true false s fun s =>
    match (frame? s s.cur.part (curFrame s)).bind (·.mon) with
    | none => send s f.t0 6
    | some m =>
      if m.cause != 0 then
        let s := modFrame s s.cur.part (curFrame s) fun x => { x with mon := none }
        send s f.t0 (if isDet s s.cur.part then 0 else BitVec.ofNat 64 m.cause)
      else
        let t := fld (opB s) 0 32
        match s.cur.stage with
        | some 1 => if t == 0 then waitCur s else waitStage s (2 + s.pkg.cycle + t)
        | _ => waitCur s

/-! ### Atomics (R377–R379) -/

/-- What an atomic leaves of memory: n bytes written, or none (R379). -/
def atomicPut (s : State) (rs : List Run) (n : Nat) : Option Nat → State
  | some v => writeRuns (refetch s rs) s.cur.part (curTree s) rs (toBytes n (v % pow2 (8 * n)))
  | none => (readRuns s s.cur.part (curTree s) rs).2

/-- An atomic read-modify-write of n bytes: `upd` gives the bytes to write, if any (R138, R377). -/
def atomic (f : MFmt) (s : State) (n : Nat) (upd : Nat → Option Nat) (res : Nat → Word) : State :=
  let ea := (((opA s).toNat : Int)) + offM f
  withRuns s ea n n true fun s rs =>
    match poisonedAt s rs with
    | some a => fault s F_MEMECC (BitVec.ofNat 64 a) 0
    | none =>
      let m := ofBytes ((runBytes rs).map (rdByte s.mem))
      send (noteAct (atomicPut s rs n (upd m))) f.t0 (res m)

/-- An amo: the new value from the old value and b's low 8n bits (R378). -/
def amo (f : MFmt) (s : State) (op : Nat → Nat → Nat → Nat) : Res :=
  let n := sfBytes f.sf.toNat
  memShell f false true true s fun s =>
    atomic f s n (fun m => some (op (8 * n) m (fld (opB s) 0 (8 * n)))) (fun m => widenSf f.sf.toNat (toBytes n m))

/-- The lower or the higher of two w-bit values, signed when I = 1. -/
def amoPick (sg hi : Bool) (w m b : Nat) : Nat :=
  let le := if sg then decide (signed m w ≤ signed b w) else decide (m ≤ b)
  if le == hi then b else m

/-- amo.add (R378). -/
def execAmoAdd (f : MFmt) (s : State) : Res := amo f s fun w m b => (m + b) % pow2 w
/-- amo.and. -/
def execAmoAnd (f : MFmt) (s : State) : Res := amo f s fun _ m b => Nat.land m b
/-- amo.or. -/
def execAmoOr (f : MFmt) (s : State) : Res := amo f s fun _ m b => Nat.lor m b
/-- amo.xor. -/
def execAmoXor (f : MFmt) (s : State) : Res := amo f s fun _ m b => Nat.xor m b
/-- amo.min. -/
def execAmoMin (f : MFmt) (s : State) : Res := amo f s fun w m b => amoPick f.i false w m b
/-- amo.max. -/
def execAmoMax (f : MFmt) (s : State) : Res := amo f s fun w m b => amoPick f.i true w m b
/-- amo.xchg. -/
def execAmoXchg (f : MFmt) (s : State) : Res := amo f s fun _ _ b => b
/-- amo.fadd (R378): RNE, subnormals kept, no flag. -/
def execAmoFadd (f : MFmt) (s : State) : Res := amo f s fun _ m b => (faddF f32 0 false m b).1
/-- amo.fmin. -/
def execAmoFmin (f : MFmt) (s : State) : Res := amo f s fun _ m b => (fminmaxF f32 false false false m b).1
/-- amo.fmax. -/
def execAmoFmax (f : MFmt) (s : State) : Res := amo f s fun _ m b => (fminmaxF f32 false true false m b).1

/-- cas (R379). -/
def execCas (f : MFmt) (s : State) : Res :=
  let n := sfBytes f.sf.toNat
  memShell f false true true s fun s =>
    atomic f s n (fun m => if m == fld (opB s) 0 (8 * n) then some (fld (opC s) 0 (8 * n)) else none)
      (fun m => widenSf f.sf.toNat (toBytes n m))

/-- cas2 (R379): the value word at EA, the tag word at EA + 8. -/
def execCas2 (f : MFmt) (s : State) : Res :=
  memShell f false true true s fun s =>
    atomic f s 16 (fun m =>
        let told := nbits m 64 64
        if told == (opB s).toNat then some ((opC s).toNat + (told + 1) % pow2 64 * pow2 64) else none)
      (fun m => BitVec.ofNat 64 (nbits m 64 64))

end Sys2Proof.Machine
end

