-- ==== Sys2Proof/Machine/System.lean ====
section
/-! DEFINITION. Barriers, time, energy and the system instructions (R431–R446). -/
namespace Sys2Proof.Machine

/-- An effect that waits until its block is the oldest in flight. -/
def whenOldest (s : State) (eff : State → State) : State := if curOldest s then eff s else waitCur s

/-! ### Barriers (R209, R432–R434) -/

/-- The channel that the current bar, bara or barw names. -/
def curBar (f : SFmt) (s : State) : Bar := let u := barUnit s s.cur f; barOf s s.cur.part u.1 u.2 (fld f.imm 0 4)

/-- The count of an arrival (R433). -/
def barCount (f : SFmt) : Nat := fld f.imm 4 16 + 1

/-- Count an arrival with count n (R433): the channel after it, and the generation that it joins; none where another count
runs. -/
def arriveBar (b : Bar) (n : Nat) : Option (Bar × BitVec 8) :=
  if b.cnt != 0 && b.n != n then none
  else if b.cnt + 1 == n then some ({ b with gen := b.gen + 1, cnt := 0, n := n }, b.gen)
  else some ({ b with cnt := b.cnt + 1, n := n }, b.gen)

/-- Put a channel back. -/
def putBar (s : State) (p : Nat) (b : Bar) : State :=
  modPart s p fun t => { t with bars := b :: t.bars.filter fun x => !(x.scope == b.scope && x.unit == b.unit && x.ch == b.ch) }

/-- The packet of a pod barrier's control flit to a package: its SPORT is 0 and its SEQ the number of the instance. Its bytes
are not the manual's. DESIGN CHOICE, log 48. -/
def barPacket (s : State) (c : BarFlit) (dst : Nat) : Packet :=
  ⟨ordHeader (fld s.pkg.podTime 0 48) (c.id % pow2 32) s.pkg.number.toNat 0 dst (groupOf s s.cur.part) 0, Sys2Proof.Config.barrierBytes c.ch c.n, some c⟩

/-- An arrival at .pod in a pod group: one ordered control flit for this package and one for each other package that is joined,
on the port that leads to it, under one stamp (R12, R13, R201, R209); it waits for room in the local part of the receive buffer.
Which packages are joined is not the manual's: DESIGN CHOICE, log 48. -/
def sendBar (f : SFmt) (s : State) : State :=
  if !rxRoom s localPart then waitCur s
  else
    let c : BarFlit := ⟨fld f.imm 0 4, barCount f, s.cmdNo, curTree s⟩
    let own := barPacket s c s.pkg.number.toNat
    let others := (Sys2Proof.Config.podMembers (groupOf s s.cur.part)).filter (· != s.pkg.number.toNat)
    let t := modPkg { s with cmdNo := s.cmdNo + 1 } fun g => { g with rxbuf := g.rxbuf ++ [(localPart, ownCopy own)] }
    let t := others.foldl (fun t d =>
      let k := Sys2Proof.Config.route d
      if portUp t k then modPort t k fun x => { x with egress := x.egress ++ [barPacket s c d] } else t) t
    waitStage (noteAct t) (barSent + c.id)

/-- The arrival of the current bar or bara, with what follows it once it is counted (R433). -/
def barArrive (f : SFmt) (s : State) (go : State → BitVec 8 → State) : State :=
  match s.cur.stage with
  | some k => if barSent ≤ k then waitCur s else if k == 1 then illop s else go s (BitVec.ofNat 8 (k - 2))
  | none =>
    let b := curBar f s
    if b.scope == 5 then sendBar f s
    else match arriveBar b (barCount f) with
      | none => illop s
      | some r => go (noteAct (putBar s s.cur.part r.1)) r.2

/-- Wait until the generation of the channel has left g, then send it. -/
def barAwait (f : SFmt) (s : State) (g : BitVec 8) : State :=
  let b := curBar f s
  if b.gen != g then send s f.t0 (BitVec.setWidth 64 b.gen) else waitStage s (2 + g.toNat)

/-- A barrier of scope .lane completes at once (R433). -/
def barLane (f : SFmt) (s : State) : State := send (noteAct s) f.t0 0

/-- bar (R433): an arrival, then the wait on the generation that it joined. -/
def execBar (f : SFmt) (s : State) : Res :=
  .next (shell f.pr [f.t0] s fun s => whenSettled s fun s =>
    if fld f.md 0 3 == 0 then barLane f s else barArrive f s fun s g => barAwait f s g)

/-- bara (R433). -/
def execBara (f : SFmt) (s : State) : Res :=
  .next (shell f.pr [f.t0] s fun s => whenSettled s fun s =>
    if fld f.md 0 3 == 0 then barLane f s else barArrive f s fun s g => send s f.t0 (BitVec.setWidth 64 g))

/-- barw (R433): its firing is named among its block's actions (R446). -/
def execBarw (f : SFmt) (s : State) : Res :=
  .next (shell f.pr [f.t0] s fun s => whenSettled s fun s =>
    if fld f.md 0 3 == 0 then barLane f s
    else barAwait f (if s.cur.stage.isNone then noteAct s else s) (BitVec.setWidth 8 (opA s)))

/-! ### Time and energy (R435–R439) -/

/-- Pod time may not be read (R92, R435). -/
def timeBarred (s : State) (p : Nat) : Bool := isDet s p && !(part s p).detTimeOk

/-- tnow (R435). -/
def execTnow (f : SFmt) (s : State) : Res :=
  .next (shell f.pr [f.t0] s fun s =>
    if timeBarred s s.cur.part then fault s F_DETVIOL s.cur.word 0 else send s f.t0 s.pkg.podTime)

/-- The first free entry of the timed-launch table. -/
def freeTimed (t : Part) : Option Nat := (List.range 32).find? fun k => !(t.timed.any fun x => x.slot == k)

/-- Another attime of the partition that has fired before the current one still waits for an entry. -/
def attimeBefore (s : State) : Bool :=
  s.waits.any fun i => i.part == s.cur.part && opOf i.word == 0xE4 && i.rcd.isSome && decide (i.stage.getD 0 < s.cur.stage.getD 0)

/-- Place the record of the current attime, in the order of firing; it waits for a free entry (R171, R436). -/
def placeTimed (f : SFmt) (s : State) (rcd : BitVec 512) : State :=
  if attimeBefore s then waitCur s
  else match freeTimed (part s s.cur.part) with
    | none => waitCur s
    | some k =>
      send (noteAct (modPart s s.cur.part fun t =>
        { t with timed := t.timed ++ [⟨k, opB s, Nat.max (opB s).toNat (s.pkg.podTime.toNat + 1), rcd⟩] })) f.t0 (BitVec.ofNat 64 k)

/-- attime (R436): once it has fired it keeps its record, and `stage` its place among those that wait. -/
def execAttime (f : SFmt) (s : State) : Res :=
  .next (shell f.pr [f.t0] s fun s =>
    match s.cur.rcd with
    | some r => placeTimed f s r
    | none => whenOldest s fun s =>
      if !accessTurn s then waitCur s
      else withRuns s ((opA s).toNat : Int) 64 16 false fun s rs =>
        let r := loadRuns s 0x3F rs
        let s := r.2
        let rcd : BitVec 512 := BitVec.ofNat 512 (ofBytes r.1)
        match recordBad s s.cur.part rcd with
        | some b => fault s b.1 b.2.1 b.2.2
        | none => placeTimed f (modCur { s with cmdNo := s.cmdNo + 1 } fun i => { i with rcd := some rcd, stage := some (10 + s.cmdNo) }) rcd)

/-- The tree of the current frame. -/
def treeRec (s : State) : Option Tree := (curTree s).bind fun k => (part s s.cur.part).trees.find? fun x => x.id == k

/-- What elease grants of `a` under the headroom (R437). -/
def grant (all : Bool) (a : Nat) (h : Int) : Nat :=
  if all then (if (a : Int) ≤ h then a else 0) else Nat.min a h.toNat

/-- elease (R437). -/
def execElease (f : SFmt) (s : State) : Res :=
  .next (shell f.pr [f.t0] s fun s => whenOldest s fun s =>
    let p := s.cur.part
    let g := grant (bitAt f.md 0) (opA s).toNat (headroom (part s p))
    let s := match treeRec s with
      | none => s
      | some tr => modPart s p fun t =>
        { t with trees := updWhere (fun x => x.id == tr.id) (fun x => { x with
            lease := Nat.min (x.lease + g) (pow2 64 - 1), late := if x.live then x.late else leaseShare x + g
            notified := x.notified && x.lease + g == 0 }) t.trees }
    send (noteAct s) f.t0 (BitVec.ofNat 64 g))

/-- equery (R438). -/
def execEquery (f : SFmt) (s : State) : Res :=
  .next (shell f.pr [f.t0] s fun s =>
    let t := part s s.cur.part
    let k := fld f.md 0 2
    send s f.t0 (if k == 0 then BitVec.ofNat 64 (((treeRec s).map (·.lease)).getD 0) else if k == 1 then t.enUsed
      else if k == 2 then t.enBudget else BitVec.ofNat 64 (headroom t).toNat))

/-- yield (R439): a token or a null is held; `stage` keeps the cycle of its firing. -/
def execYield (f : SFmt) (s : State) : Res :=
  .next (if anyEos s.cur then sendAll s [f.t0] .eos 0
    else if !anyNull s.cur && !predOk f.pr s then s
    else match s.cur.stage with
      | some _ => waitCur s
      | none => waitStage s s.pkg.cycle)

/-- The cycle starts an owned, unwithheld slot of a later period than cycle `c` (R439). -/
def yieldDue (s : State) (p c n : Nat) : Bool :=
  decide (c + n ≤ s.pkg.cycle) && s.pkg.cycle % 16 == 0 && (issueSlots s p).contains (slotNow s) && decide (c / 1024 < s.pkg.cycle / 1024)

/-- YIELD_EXPIRY (R439). -/
def execYieldExpiry (n : Nat) (s : State) : Res :=
  match s.waits[n]? with
  | none => .next s
  | some i =>
    match opOf i.word == 0xE7, i.stage with
    | true, some c =>
      let f := getS i.word
      if !savedAway s i.part && yieldDue s i.part c f.imm.toNat then
        let t := { s with cur := i, waits := dropAt n s.waits }
        let t := if anyNull i then sendKind t f.t0 .null 0 else send t f.t0 (opA t)
        .next { t with cur := s.cur }
      else .next s
    | _, _ => .next s

/-! ### System registers (R80–R92, R440) -/

/-- A register whose read needs supervisor level (R89). -/
def srReadS (n : Nat) : Bool := n == 0x015 || n == 0x020 || n == 0x051

/-- PART_RESIZE as it reads (R90). -/
def resizeWord (t : Part) : Word :=
  BitVec.ofNat 64 ((if t.rszBusy then pow2 63 else 0) + t.rszStep * pow2 60 + t.rszErr * pow2 56 + fld t.rszDesc 6 46 * 64)

/-- The value of a system register, but for FPC and FSTAT (R89, R90). EN_LEASE reads 0 in a frame that belongs to no launch tree,
such as a trap frame (DESIGN CHOICE, log 103), and PART_ID of a partition that is not live its number (DESIGN CHOICE, log 23). -/
def srValue (s : State) (n : Nat) (half : Bool) : Word :=
  let p := s.cur.part
  let t := part s p
  if n == 0x003 then fnameOf s p (curFrame s)
  else if n == 0x010 then BitVec.ofNat 64 p
  else if n == 0x011 then BitVec.setWidth 64 t.gen
  else if n == 0x012 then BitVec.extractLsb' (if half then 64 else 0) 64 t.bays
  else if n == 0x013 then (if t.det then 1 else 0)
  else if n == 0x014 then t.frames
  else if n == 0x015 then resizeWord t
  else if n == 0x016 then (if t.detTimeOk then 1 else 0)
  else if n == 0x020 then t.trapVec
  else if n == 0x030 then BitVec.ofNat 64 (inboxFree t)
  else if n == 0x040 then t.enUsed
  else if n == 0x041 then t.enBudget
  else if n == 0x042 then BitVec.ofNat 64 (((treeRec s).map (·.lease)).getD 0)
  else if n == 0x050 then s.pkg.podTime
  else if n == 0x051 then BitVec.setWidth 64 s.pkg.wmTimeout
  else if n == 0x060 then t.widthAch
  else if n == 0x070 then BitVec.ofNat 64 (occL2 s p)
  else if n == 0x071 then BitVec.setWidth 64 t.occLimit
  else if n == 0x080 then t.cal
  else if n == 0x0F0 then BitVec.setWidth 64 s.pkg.pcap
  else BitVec.setWidth 64 s.pkg.power

/-- rdsr (R440). FSTAT and FPC are those of the block (R65, R86): the read waits until they are known. -/
def execRdsr (f : SFmt) (s : State) : Res :=
  .next (shell f.pr [f.t0] s fun s =>
    let n := f.sr.toNat
    if srReadS n && !curSup s then fault s F_PROT (BitVec.ofNat 64 n) 0
    else if n == 0x050 && timeBarred s s.cur.part then fault s F_DETVIOL s.cur.word 0
    else if n == 0x001 then
      (match blockFpc s s.cur.part (curFrame s) s.cur.seq with
       | some v => send s f.t0 (BitVec.setWidth 64 v)
       | none => waitCur s)
    else if n == 0x002 then
      whenOldest s fun s => send s f.t0 (BitVec.setWidth 64 (((frame? s s.cur.part (curFrame s)).map (·.fstat)).getD 0))
    else send s f.t0 (srValue s n (bitAt f.imm 0)))

/-- wrsr (R82, R83, R86, R91, R265, R440): it takes effect when its block commits. -/
def execWrsr (f : SFmt) (s : State) : Res :=
  .next (shell f.pr [f.t0] s fun s =>
    let n := f.sr.toNat
    let a := opA s
    let prot := !(n == 0x002 || n == 0x020 || n == 0x060) || (n != 0x002 && !curSup s) || (n == 0x060 && a != 0)
    if prot then fault s F_PROT (BitVec.ofNat 64 n) 0
    else if n == 0x020 && !canon a.toNat then fault s F_NONCANON a 0
    else if n == 0x020 && fld a 0 3 != 0 then fault s F_ALIGN a 8
    else send (modBlock s s.cur.part (curFrame s) s.cur.seq fun b => { b with wrsrs := b.wrsrs ++ [(n, a)] }) f.t0 a)

/-! ### Traps, services, controls and events (R441–R445) -/

/-- trap (R441). -/
def execTrap (f : SFmt) (s : State) : Res :=
  .next (shell f.pr [f.t0] s fun s => faultAux s F_TRAP (opA s) 0 (BitVec.setWidth 64 f.imm))

/-- A frame or a region stops with a record that goes to the hypervisor's queue, not to TRAP_VEC (R441; log 29). In a region that
has stopped already the instance stays unconsumed (R452). -/
def stopToHyper (s : State) (r : FaultRec) : State :=
  match s.cur.grid with
  | some g =>
    (match region? s s.cur.bay g with
     | some x =>
       if x.fault.isSome then modRegion s s.cur.bay g fun x => { x with faulting := x.faulting ++ [s.cur] }
       else hfqFault (modRegion s s.cur.bay g fun x => { x with fault := some r, faulting := x.faulting ++ [s.cur] }) r false
     | none => s)
  | none =>
    let p := s.cur.part
    let fr := curFrame s
    let r := withActs r (((curBlock s).map (·.acts)).getD [])
    let s := discardYounger s p fr s.cur.seq
    let s := clearBlock s p fr s.cur.seq true
    hfqFault (modFrame s p fr fun x => { x with fault := some r, nextAddr := none }) r false

/-- brk (R441, R447). -/
def execBrk (f : SFmt) (s : State) : Res :=
  .next (shell f.pr [f.t0] s fun s =>
    if bitAt f.md 0 then
      (if curOldest s then stopToHyper s { recCur s F_BRK (opA s) 0 with aux := BitVec.setWidth 64 f.imm } else waitCur s)
    else faultAux s F_BRK (opA s) 0 (BitVec.setWidth 64 f.imm))

/-- hcall (R442): a request of 0x10–0xFF waits for the hypervisor's answer; `stage` keeps its record's number. Request 1 reads
its 32-byte descriptor at any multiple of 8, and request 2 takes a root that is not aligned to 8 KiB as it stands, from where a
walk then starts. DESIGN CHOICE, log 104. -/
def execHcall (f : SFmt) (s : State) : Res :=
  .next (shell f.pr [f.t0] s fun s =>
    let p := s.cur.part
    let v := fld f.imm 0 8
    if !curSup s then fault s F_PROT (BitVec.ofNat 64 v) 0
    else whenOldest s fun s =>
      if s.cur.stage.isSome then waitCur s
      else if v == 1 then
        withRuns s ((opA s).toNat : Int) 32 8 false fun s rs =>
          let r := loadRuns s 0x3F rs
          let d : BitVec 256 := BitVec.ofNat 256 (ofBytes r.1)
          if invBad d || bitAt d 99 then fault r.2 F_PROT (opA r.2) 0
          else send (noteAct (startInval r.2 p d false)) f.t0 0
      else if v == 2 then
        send (noteAct (modPart s p fun t => { t with ent := t.ent.set 12 (opA s) })) f.t0 0
      else if 16 ≤ v then
        let r := { recCur s F_HCALL (opA s) 0 with aux := BitVec.ofNat 64 v }
        let n := numbered s r
        waitStage (noteAct (hfqWrite n.2 n.1 true)) (2 + n.1.seq)
      else send (noteAct s) f.t0 0xFFFFFFFFFFFFFFFF)

/-- fpcset (R62, R443): a null leaves FPC unchanged and counts. -/
def execFpcset (f : SFmt) (s : State) : Res :=
  .next (let put := fun (s : State) (v : Option (BitVec 5)) =>
      modBlock s s.cur.part (curFrame s) s.cur.seq fun b => { b with fpc := some v }
    if anyNull s.cur || anyEos s.cur then
      sendAll (put s none) [f.t0] (if anyEos s.cur then .eos else .null) 0
    else if !predOk f.pr s then s
    else
      let v : BitVec 5 := if bitAt f.md 0 then BitVec.setWidth 5 f.imm else BitVec.setWidth 5 (opA s)
      send (put s (some v)) f.t0 (BitVec.setWidth 64 v))

/-- event (R445): the interrupt arises at commit, in a grid at once. -/
def execEvent (f : SFmt) (s : State) : Res :=
  .next (shell f.pr [f.t0] s fun s =>
    let vec := fld f.imm 0 6
    let s := match s.cur.grid with
      | some _ => interrupt s s.cur.part 2 vec (opA s)
      | none => modBlock s s.cur.part (curFrame s) s.cur.seq fun b => { b with events := b.events ++ [(vec, opA s)] }
    send s f.t0 (opA s))

end Sys2Proof.Machine
end

