-- ==== Sys2Proof/Machine/Hyper.lean ====
section
/-! DEFINITION. The hypervisor's side of interrupts and faults: the interrupt log (R193–R197), the answers of the
hypervisor fault queue (R456), and UNHALT (R453, R457). -/
namespace Sys2Proof.Machine

/-- A window write is dropped and the write-refused bit is set (R82). -/
def refuseWrite (s : State) : State := modPkg s fun k => { k with winRefused := true }

/-- A refused write of PRE_CTL (R457). -/
def preErr (s : State) (p e : Nat) : State := refuseWrite (modPart s p fun t => { t with preErr := e })

/-! ### The interrupt log (R193–R196) -/

/-- A record of the log that stands n behind IL_TAIL: its two first words. -/
def logWord (s : State) (p n : Nat) : Word :=
  let t := part s p
  rd64 s.mem (t.ilBase.toNat + (t.ilTail.toNat + n) % pow2 32 % Nat.max 1 t.ilSize.toNat * 32)

/-- Replay the log (R196): records of this generation are posted in order, the others discarded; then vector 63 when
records were lost. -/
def replayLog (s : State) (p : Nat) : State :=
  let t := part s p
  let n := (t.ilHead - t.ilTail).toNat
  let s2 := (List.range n).foldl (fun s2 k =>
    let w := logWord s p k
    if BitVec.extractLsb' 32 32 w == t.vdGen then postVec s2 p (fld w 0 6) else s2) s
  let s3 := modPart s2 p fun t => { t with ilTail := t.ilHead }
  if t.ilLost != 0 then postVec s3 p 63 else s3

/-- VD_RES_WRITE (R196): each write of 1 replays the log, then posts directly; 0 logs from here on. -/
def execVdResWrite (p : Nat) (v : Bool) (s : State) : Res :=
  .next (if v then modPart (replayLog s p) p fun t => { t with vdRes := true }
    else modPart s p fun t => { t with vdRes := false })

/-- FUNCTION_LEVEL_RESET (R193). -/
def execFunctionLevelReset (p : Nat) (s : State) : Res := .next (modPart s p fun t => { t with vdGen := t.vdGen + 1 })

/-! ### Answers to held faults (R456) -/

/-- The open stage-2 fault with a record number. -/
def heldFault (s : State) (p seq : Nat) : Option PageFault := s.pageFaults.find? fun f => f.part == p && f.stage2 && f.seq == seq && !f.aborted

/-- The waiting hcall with a record number, with its place. -/
def heldCall (s : State) (p seq : Nat) : Option (Nat × Inst) :=
  findPos (fun (i : Inst) => i.part == p && opOf i.word == 0xF4 && i.stage == some (2 + seq)) s.waits

/-- Close a stage-2 fault: what it held walks again. -/
def closeStage2 (s : State) (f : PageFault) : State :=
  unholdCmds { s with pageFaults := s.pageFaults.erase f } f.part

/-- The completion words that a page fault held are written again (R507). -/
def retryCompletion (s : State) (id : Nat) : State :=
  match s.completions.find? fun c => c.id == id with
  | none => s
  | some c => completionWrite { s with completions := s.completions.filter fun c => c.id != id } c

/-- An answer reaches a waiting hcall: its status goes to T0 (R442). -/
def answerCall (s : State) (n : Nat) (i : Inst) (v : Word) : State :=
  let t := { s with cur := i, waits := dropAt n s.waits }
  { send t (getS i.word).t0 v with cur := s.cur }

/-- HFQ_RELEASE (R456, R506): the held access walks again, or the hcall gets HFQ_ANSV. -/
def execHfqRelease (p seq : Nat) (s : State) : Res :=
  match heldFault s p seq with
  | some f =>
    let s := closeStage2 s f
    .next (match f.item with
      | some ⟨_, .completion id, _⟩ => retryCompletion s id
      | some _ => s
      | none => finishEnding s)
  | none =>
    match heldCall s p seq with
    | some (n, i) => .next (answerCall s n i s.pkg.hfqAnsv)
    | none => .next s

/-- The instance that a record of a held access names, with its place. -/
def recHolder (s : State) (r : FaultRec) : Option (Nat × Inst) :=
  findPos (fun (i : Inst) => i.part == r.part && tagWord i.tag == r.tag && walks? (opOf i.word) &&
    (if r.flags &&& flGrid != 0 then i.grid == some r.region && i.cell == r.cell else i.grid.isNone && i.idx == r.index && i.seq == r.bseq)) s.waits

/-- A held access raises F_PROT in its own partition (R456): the instance, the stream element, or the fetch that it belongs to.
A spilled frame's is raised when it is reloaded (R31). -/
def failAccess (s : State) (r : FaultRec) : State :=
  let r := { r with code := F_PROT, seq := 0 }
  match recHolder s r with
  | some (n, i) =>
    let t := { s with cur := i, waits := dropAt n s.waits }
    { faultRec t r with cur := s.cur }
  | none =>
    if r.flags &&& flGrid != 0 then freezeRegion s r.bay r.region r none
    else match frame? s r.part (r.tag.toNat / 4096) with
      | some f =>
        if f.resident then haltFrame s r.part f.num r.bseq r
        else (match f.nextAddr with
          | some a => enterBlock s f a 0 0 [] false (some r)
          | none => s)
      | none => s

/-- The partition halts whole (R453), with no record of its own. -/
def haltPart (s : State) (p : Nat) : State := modPart s p fun t => { t with preHalted := true }

/-- HFQ_ABORT (R456, R506): F_PROT for the held access, all ones for an hcall; an access of the device's own halts the
partition whole, and is tried again after UNHALT. -/
def execHfqAbort (p seq : Nat) (s : State) : Res :=
  match heldFault s p seq with
  | some f =>
    let t := { s with pageFaults := s.pageFaults.erase f }
    .next (match f.item with
      | none => haltPart { t with pageFaults := { f with aborted := true } :: t.pageFaults } p
      | some ⟨r, .engine q, _⟩ =>
        { t with cmds := updWhere (fun c => c.r == q && c.held) (fun c => { c with held := false, status := some (faultStatus F_PROT) }) t.cmds } |> fun t =>
          if (s.cmds.any fun c => c.r == q && c.held && mCk c.hdr == 0) then deliverN t { r with code := F_PROT } .nothing else t
      | some ⟨r, .completion id, _⟩ =>
        deliverN { t with completions := t.completions.filter fun c => c.id != id } { r with code := F_PROT } .nothing
      | some ⟨r, _, _⟩ => failAccess t r)
  | none =>
    match heldCall s p seq with
    | some (n, i) => .next (answerCall s n i 0xFFFFFFFFFFFFFFFF)
    | none => .next s

/-! ### UNHALT (R453, R457) -/

/-- The device's own accesses that the hypervisor has aborted are tried again (R506). -/
def retryAborted (s : State) (p : Nat) : State :=
  unholdCmds { s with pageFaults := s.pageFaults.filter fun f => !(f.part == p && f.aborted) } p

/-- PRE_CTL_UNHALT (R453, R506): the halt is released, its record is delivered through TRAP_VEC, and the device's own accesses
that were aborted are tried again, the end of a frame that waits for the directory among them. While a save or a restore runs
it is taken only if the partition is halted, as R506 has the save go on then. DEDUCED, log 119. -/
def execPreCtlUnhalt (p : Nat) (s : State) : Res :=
  .next (if (part s p).preHalted then
      finishEnding (modPart (retryAborted s p) p fun t => { t with preHalted := false, haltRec := none, trapQ := (t.haltRec.toList.map fun x => { x with vec := none }) ++ t.trapQ })
    else if (part s p).preBusy then preErr s p 1 else s)

end Sys2Proof.Machine
end

