-- ==== Sys2Proof/Machine/Ordered.lean ====
section
/-! DEFINITION. The ordered class (R198–R209, R505): stamps and watermarks, the order of delivery, arrivals and beacons,
exclusion, stalls. -/
namespace Sys2Proof.Machine

/-! ### Time and faults (R199, R448) -/

/-- A stamp lies within 2^46 of the package's own time (R199). -/
def stampNear (s : State) (x : BitVec 48) : Bool := decide ((cmp48 x (podStamp s)).natAbs < pow2 46)

/-- A class H record of the package (R448): F_LINK names a port, 24 for none (R449). -/
def linkFault (s : State) (port : Nat) : State :=
  hfqFault s { recBase F_LINK 0 with pkg := true, flags := flNoframe, g4 := BitVec.ofNat 64 port } false

/-! ### Watermarks (R201, R202, R204, R206) -/

/-- The input ports whose watermarks bound what a forwarding port sends: those that are up and not excluded (R206). -/
def boundPorts (s : State) : List Nat := (List.range 24).filter fun k => portUp s k && !s.pkg.ordExcl.getLsbD k

/-- The watermark that a port may send (R202, R206); it never falls. -/
def wmoOf (s : State) (x : Port) (k : Nat) : BitVec 48 :=
  let w := lowest s.pkg.wml (x.egress.map fun p => hdStamp p.hdr)
  let w := if Sys2Proof.Config.forwards k then lowest w ((boundPorts s).map (wmiOf s)) else w
  if cmp48 w x.wmo < 0 then x.wmo else w

/-- An arriving watermark raises WMI (R204). -/
def raiseWmi (s : State) (k : Nat) (w : BitVec 48) : State := modPort s k fun x => { x with wmi := if cmp48 w x.wmi > 0 then w else x.wmi }

/-! ### Delivery (R205, R505) -/

/-- Insert a buffered packet in key order, behind its equals. -/
def insKey (x : Nat × Packet) : List (Nat × Packet) → List (Nat × Packet)
  | [] => [x]
  | y :: l => if ordLess (hdKey x.2.hdr) (hdKey y.2.hdr) then x :: y :: l else y :: insKey x l

/-- The live partition of a pod group. -/
def groupPart (s : State) (g : Nat) : Option Nat := if g == 0 then none else (List.range 64).find? fun p => live s p && groupOf s p == g

/-- FRONT takes a delivered stamp. -/
def raiseFront (s : State) (x : BitVec 48) : State := modPkg s fun k => { k with front := if cmp48 x k.front > 0 then x else k.front }

/-- A 32-bit counter of the package that stops at all ones. -/
def satNext (x : BitVec 32) : BitVec 32 := if x == 0xFFFFFFFF then x else x + 1

/-- A control flit of a pod barrier is delivered (R209, R433): it counts in the channel of the group's partition, and where it
came from this package the waiting bar or bara takes the generation that it joined, or 1 where its count was refused. -/
def deliverBar (s : State) (q : Nat) (c : BarFlit) (own : Bool) : State :=
  let r := arriveBar (barOf s q 5 0 c.ch) c.n
  let s := match r with
    | some x => putBar s q x.1
    | none => s
  let st := match r with
    | some x => 2 + x.2.toNat
    | none => 1
  if own then { s with waits := s.waits.map fun i => if i.part == q && i.stage == some (barSent + c.id) then { i with stage := some st } else i } else s

/-- Deliver one packet: to ORQ, to the hold behind a full ORQ, or nowhere when no partition holds its group. It stays in
the buffer (false) while the quota cannot take it, or a page of the cellar is missing (R506). -/
def deliverOne (s : State) (p : Packet) : State × Bool :=
  let front := fun (s : State) => raiseFront s (hdStamp p.hdr)
  match groupPart s (hdGroup p.hdr) with
  | none => (front (modPkg s fun k => { k with ordDrop := satNext k.ordDrop }), true)
  | some q =>
    match p.ctl with
    | some c => (front (deliverBar s q c (hdSrc p.hdr == s.pkg.number.toNat)), true)
    | none =>
      let t := part s q
      if t.orq.length < 64 && t.hold.isEmpty then (front (modPart s q fun t => { t with orq := t.orq ++ [p] }), true)
      else if cellarHas s q 8192 then
        (match cellarItem s q 8192 true with
         | .ok s => (front (modPart s q fun t => { t with hold := t.hold ++ [p] }), true)
         | .error s => (s, false))
      else (s, false)

/-- Deliver packets in their order; those of a group behind one that stays stay too (R505). -/
def deliverEach : List (Nat × Packet) → List Nat → List (Nat × Packet) → State → State × List (Nat × Packet)
  | [], _, kept, s => (s, kept)
  | x :: l, stuck, kept, s =>
    let g := hdGroup x.2.hdr
    if stuck.contains g then deliverEach l stuck (kept ++ [x]) s
    else match deliverOne s x.2 with
      | (s, true) => deliverEach l stuck kept s
      | (s, false) => deliverEach l (g :: stuck) (kept ++ [x]) s

/-- Ports that come back into M, their WMI at or above FRONT (R208). -/
def readmitPorts (s : State) : State :=
  modPkg s fun k => { k with readmit := (List.range 24).foldl (fun m j =>
    if m.getLsbD j && decide (0 ≤ cmp48 (wmiOf s j) k.front) then m &&& ~~~(BitVec.ofNat 24 (pow2 j)) else m) k.readmit }

/-- Note how M has moved (R207): an advance ends a stall. The time counts only while a packet waits. -/
def noteMin (s : State) : State :=
  let m := liveMin s
  if cmp48 m s.pkg.mLast > 0 || s.pkg.rxbuf.isEmpty then modPkg s fun k => { k with mLast := m, mSince := k.podTime.toNat, stalled := false }
  else modPkg s fun k => { k with mLast := m }

/-- Deliver every buffered packet whose stamp is at or below M, in key order (R205). -/
def deliverOrd (s : State) : State :=
  let s := readmitPorts s
  let m := liveMin s
  let due := fun (x : Nat × Packet) => decide (cmp48 (hdStamp x.2.hdr) m ≤ 0)
  let sorted := (s.pkg.rxbuf.filter due).foldl (fun l x => insKey x l) []
  let r := deliverEach sorted [] [] (modPkg s fun k => { k with rxbuf := k.rxbuf.filter fun x => !due x })
  noteMin (modPkg r.1 fun k => { k with rxbuf := r.2 ++ k.rxbuf })

/-- ORDERED_HOLD_MOVE (R505): what the hold kept enters ORQ, and quota room has appeared for a packet that waits in the buffer. -/
def execOrderedHoldMove (p : Nat) (s : State) : Res :=
  let s := refillOrq s p
  .next (if s.pkg.rxbuf.any fun x => groupPart s (hdGroup x.2.hdr) == some p then deliverOrd s else s)

/-! ### Arrivals (R199, R204, R208) -/

/-- An ORD packet for this package reaches its receive buffer, or is discarded. -/
def bufferPacket (s : State) (port : Nat) (p : Packet) : State :=
  if decide (cmp48 (hdStamp p.hdr) s.pkg.front ≤ 0) then
    let s := modPkg s fun k => { k with ordLate := satNext k.ordLate }
    if s.pkg.ordExcl.getLsbD port then s else linkFault s port
  else modPkg s fun k => { k with rxbuf := k.rxbuf ++ [(port, p)] }

/-- Another package's packet goes on to the port that leads to it, if that port is up and forwards (R206); else it is dropped,
without a fault or a count. DESIGN CHOICE, log 118. -/
def forwardPacket (s : State) (p : Packet) : State :=
  let r := Sys2Proof.Config.route (hdDst p.hdr)
  if portUp s r && Sys2Proof.Config.forwards r then modPort s r fun x => { x with egress := x.egress ++ [p] } else s

/-- An ORD packet comes in on a port. -/
def takePacket (s : State) (port : Nat) (p : Packet) : State :=
  if !(stampNear s (hdStamp p.hdr) && stampNear s (hdWm p.hdr)) then linkFault s port
  else
    let s := raiseWmi s port (hdWm p.hdr)
    deliverOrd (if hdDst p.hdr == s.pkg.number.toNat then bufferPacket s port p else forwardPacket s p)

/-- The port's part of the buffer holds the packet back (R200). -/
def portHeld (s : State) (port : Nat) (p : Packet) : Bool := hdDst p.hdr == s.pkg.number.toNat && !rxRoom s port

/-- The class of a header (R202). -/
def hdCls (h : BitVec 256) : Nat := fld h 80 2

/-- ORD_PACKET_ARRIVAL (R204): only a port in state 5 carries ORD packets. -/
def execOrdPacketArrival (port : Nat) (hdr : BitVec 256) (payload : OrdBody) (s : State) : Res :=
  let p : Packet := ⟨hdr, if payload.bar.isSome then payload.bytes else payload.bytes.take (hdLen hdr), payload.bar.map fun b => ⟨b.1, b.2, hdSeq hdr, none⟩⟩
  .next (if !portUp s port || hdCls hdr != 1 || portHeld s port p then s else takePacket s port p)

/-! ### Beacons (R198, R203, R204) -/

/-- The time parent's beacon (R198): the difference to slew, the run of beacons beyond 3 ticks, and the lock. -/
def heedParent (s : State) (port : Nat) (stamp : BitVec 48) : State :=
  match s.pkg.ports[port]? with
  | none => s
  | some x =>
    if !x.tpar then s
    else
      let d := cmp48 (stamp + BitVec.ofNat 48 x.delay) (podStamp s)
      let far := decide (3 < d.natAbs)
      let s := modPkg s fun k => { k with drift := d, driftRun := if far then k.driftRun + 1 else 0, locked := if far then 0 else k.locked + 1 }
      if far && s.pkg.driftRun % 16 == 0 then linkFault s port else s

/-- A beacon comes in on a port. -/
def takeBeacon (s : State) (port : Nat) (hdr : BitVec 256) : State :=
  if !(stampNear s (hdStamp hdr) && stampNear s (hdWm hdr)) then linkFault s port
  else deliverOrd (heedParent (raiseWmi s port (hdWm hdr)) port (hdStamp hdr))

/-- BEACON_RECEIVE (R204). -/
def execBeaconReceive (port : Nat) (hdr : BitVec 256) (s : State) : Res :=
  .next (if !portUp s port || hdCls hdr != 2 then s else takeBeacon s port hdr)

/-! ### Exclusion and stalls (R207, R208) -/

/-- ORD_EXCL_WRITE (R208): it takes effect at once; a port whose bit is cleared comes back once its WMI reaches FRONT. -/
def execOrdExclWrite (v : Word) (s : State) : Res :=
  let e : BitVec 24 := BitVec.setWidth 24 v
  .next (deliverOrd (modPkg s fun k => { k with ordExcl := e, readmit := (k.readmit ||| (k.ordExcl &&& ~~~e)) &&& ~~~e }))

/-- The port that ORD_STAT names (R207). -/
def stallPort (s : State) : Nat := ((minPorts s).find? fun k => wmiOf s k == liveMin s).getD 24

/-- F_WMSTALL (R207): once for each stall. -/
def execFWmstall (s : State) : Res :=
  let k := s.pkg
  if k.stalled || k.rxbuf.isEmpty || decide (k.podTime.toNat < k.mSince + k.wmTimeout.toNat) then .next s
  else
    let m := liveMin s
    let st : BitVec 32 := BitVec.ofNat 32 (pow2 31 + stallPort s)
    let s := modPkg s fun k => { k with stalled := true, ordStat := st }
    .next (hfqFault s { recBase F_WMSTALL 0 with pkg := true, flags := flNoframe, g4 := BitVec.setWidth 64 st, g5 := BitVec.setWidth 64 m } false)

end Sys2Proof.Machine
end

