-- ==== Sys2Proof/Machine/Link.lean ====
section
/-! DEFINITION. Ororus Link ports (R463–R467, R469): flits and their retry, sparing, training, leaving. -/
namespace Sys2Proof.Machine

/-! ### Flits (R463) -/

/-- The last FSEQ received in order: none before the first, so the field is one below it (R463, modulo 2^12). -/
def ackOf (x : Port) : Nat := (x.fseqIn + 4095) % 4096

/-- A flit. -/
def mkFlit (fseq ack ftype : Nat) (payload : List Byte) : List Byte :=
  let body := toBytes 4 (fseq * pow2 20 + ack * pow2 8 + ftype * pow2 4) ++ (payload ++ List.replicate 236 0).take 236
  let b := body ++ toBytes 4 (crc32c body).toNat
  b ++ Sys2Proof.Config.fecEncode b

/-- The flits of a packet's bytes, 236 to a flit: the first of type 1, the others of type 2. -/
def packetFlits (ack : Nat) : Nat → Nat → Nat → List Byte → List (List Byte)
  | 0, _, _, _ => []
  | n + 1, fseq, ft, bs =>
    mkFlit fseq ack ft (bs.take 236) :: (if bs.length ≤ 236 then [] else packetFlits ack n ((fseq + 1) % 4096) 2 (bs.drop 236))

def flitHdr (f : List Byte) : Nat := ofBytes (f.take 4)
def flitSeq (f : List Byte) : Nat := nbits (flitHdr f) 20 12
def flitAck (f : List Byte) : Nat := nbits (flitHdr f) 8 12
def flitType (f : List Byte) : Nat := nbits (flitHdr f) 4 4
def flitPayload (f : List Byte) : List Byte := (f.drop 4).take 236

/-- Send the bytes of a packet on a port, its first flit of type `ft`: its flits stay in the replay buffer until they are
acknowledged. None while they would pass 512 (R464). -/
def sendBytes (x : Port) (ft : Nat) (bs : List Byte) : Option (Port × Nat) :=
  let fs := packetFlits (ackOf x) 36 x.fseqOut ft bs
  if 512 < x.replay.length + fs.length then none
  else some ({ x with replay := x.replay ++ fs, fseqOut := (x.fseqOut + fs.length) % 4096 }, fs.length)

/-- The command that sent a packet of this package, if it still stands in its queue (R409, R410). -/
def sendingCmd (s : State) (p : Packet) : Option Cmd := s.cmds.find? fun c => isCopyOf s c p

/-- Flits that no partition sends: beacons, and packets that are forwarded (R268). -/
def chargeInfra (s : State) (n : Nat) : State := modPkg s fun k => { k with infra := k.infra + n * costOf 6 }

/-- The charge of a packet's flits (R266, R267): it falls to the partition that sent it, and to its sender's tree. -/
def chargeFlits (s : State) (p : Packet) (n : Nat) : State :=
  if hdSrc p.hdr != s.pkg.number.toNat then chargeInfra s n
  else match sendingCmd s p, groupPart s (hdGroup p.hdr) with
    | some c, _ => charge s c.part (cmdTree c) 6 n
    | none, some q => charge s q (p.ctl.bind (·.tree)) 6 n
    | none, none => chargeInfra s n

/-- The type of a packet's first flit and its bytes, with a watermark and an unchanged payload (R202, R206, R463): a barrier's is
a control flit. -/
def wireOf (p : Packet) (w : BitVec 48) : Nat × List Byte :=
  (if p.ctl.isSome then 3 else 1, toBytes 32 (putWm p.hdr w).toNat ++ p.payload)

/-- A port transmits the packet at the head of its egress queue, its watermark taken as it leaves (R202). -/
def transmit (s : State) (k : Nat) : State :=
  match s.pkg.ports[k]? with
  | none => s
  | some x =>
    match x.egress with
    | [] => s
    | p :: rest =>
      if x.state != 5 then s
      else
        let y := { x with egress := rest }
        let w := wmoOf s y k
        match sendBytes y (wireOf p w).1 (wireOf p w).2 with
        | none => s
        | some (y, n) => chargeFlits (modPort s k fun _ => { y with wmo := w, lastSent := s.pkg.podTime.toNat }) p n

/-- BEACON_SEND (R203): 640 ticks have passed since the port last sent an ORD packet or a beacon. The GROUP of a beacon is
not stated: it is a free value (log 20). -/
def execBeaconSend (port : Nat) (s : State) : Res :=
  match s.pkg.ports[port]? with
  | none => .next s
  | some x =>
    if x.state != 5 || decide (s.pkg.podTime.toNat < x.lastSent + 640) then .next s
    else
      let r := freshWord s
      let w := wmoOf s x port
      let h : BitVec 256 := BitVec.ofNat 256 ((podStamp s).toNat * pow2 208 + w.toNat * pow2 160 + s.pkg.number.toNat * pow2 111 +
        x.peer % pow2 17 * pow2 90 + fld r.1 0 8 * pow2 82 + 2 * pow2 80)
      match sendBytes x 1 (toBytes 32 h.toNat) with
      | none => .next s
      | some (y, n) => .next (chargeInfra (modPort r.2 port fun _ => { y with wmo := w, lastSent := s.pkg.podTime.toNat }) n)

/-! ### A port that goes down or leaves (R464, R469) -/

/-- The headers in the flits of a replay buffer, with WM zeroed. -/
def replayHeads (x : Port) : List (BitVec 256) :=
  (x.replay.filter fun f => flitType f == 1).map fun f => putWm (BitVec.ofNat 256 (ofBytes ((flitPayload f).take 32))) 0

/-- Link commands with flits in a port that is lost end with status F_LINK (R412, R464): ordered ones mark the loss. -/
def loseCopies (s : State) (x : Port) : State :=
  let heads := replayHeads x ++ (x.egress.filter (·.ctl.isNone)).map (·.hdr)
  { s with cmds := updWhere (fun c => heads.any (copyHead s c)) (fun c => { c with lost := true }) s.cmds }

/-- A port leaves the live minimum: what it holds is discarded. -/
def closePort (s : State) (k state : Nat) : State :=
  match s.pkg.ports[k]? with
  | none => s
  | some x =>
    deliverOrd (modPort (loseCopies s x) k fun x =>
      { x with state := state, replay := [], egress := [], partial_ := [], retries := 0, fseqOut := 0, fseqIn := 0, tpar := false, flits := 0, symbols := [] })

/-- The port goes down with F_LINK, and retries its training in 10 ms (R464, R466). -/
def portDown (s : State) (k : Nat) : State :=
  linkFault (modPort (closePort s k 0) k fun x => { x with retryAt := s.pkg.podTime.toNat + 25000000, fails := Nat.max 1 x.fails }) k

/-- LEAVE_FLIT (R469): the partner leaves. -/
def execLeaveFlit (port : Nat) (s : State) : Res := .next (if portUp s port then closePort s port 6 else s)

/-! ### Receiving (R464) -/

/-- Acknowledged flits leave the replay buffer. -/
def dropAcked (x : Port) (ack : Nat) : Port :=
  match findPos (fun f => flitSeq f == ack) x.replay with
  | some (n, _) => { x with replay := x.replay.drop (n + 1), retries := 0 }
  | none => x

/-- The bytes of a packet as far as they have come: whole once LEN bytes follow the header. -/
def wholePacket (bs : List Byte) : Option Packet :=
  let h : BitVec 256 := BitVec.ofNat 256 (ofBytes (bs.take 32))
  if 32 ≤ bs.length && 32 + hdLen h ≤ bs.length then some ⟨h, (bs.drop 32).take (hdLen h), none⟩ else none

/-- The packet of a control flit's payload, where it is a pod barrier's. -/
def barrierPacket (bs : List Byte) : Option Packet :=
  let h : BitVec 256 := BitVec.ofNat 256 (ofBytes (bs.take 32))
  (Sys2Proof.Config.barrierOf (bs.drop 32)).map fun b => ⟨h, bs.drop 32, some ⟨b.1, b.2, hdSeq h, none⟩⟩

/-- A packet that has come whole: an ORD packet or a beacon; other classes are not the ordered class's. -/
def landPacket (s : State) (port : Nat) (p : Packet) : State :=
  if hdCls p.hdr == 1 then takePacket s port p else if hdCls p.hdr == 2 then takeBeacon s port p.hdr else s

/-- The bytes of the packet that a flit goes on with. -/
def flitBytes (x : Port) (f : List Byte) : List Byte := (if flitType f == 1 then [] else x.partial_) ++ flitPayload f

/-- The packet that a flit completes; a control flit holds a barrier's. -/
def flitPacket (x : Port) (f : List Byte) : Option Packet :=
  if flitType f == 1 || flitType f == 2 then wholePacket (flitBytes x f) else if flitType f == 3 then barrierPacket (flitPayload f) else none

/-- The packet that a flit completes has no room yet: the flit waits on the link for its credit (R463). -/
def flitHeld (s : State) (port : Nat) (x : Port) (f : List Byte) : Bool :=
  (flitPacket x f).any fun p => portHeld s port p && (flitType f == 3 || hdCls p.hdr == 1)

/-- A flit that has come in order on a port, as the port stood. -/
def acceptFlit (s : State) (port : Nat) (x : Port) (f : List Byte) : State :=
  let y := { dropAcked x (flitAck f) with fseqIn := (x.fseqIn + 1) % 4096 }
  match flitPacket x f with
  | some p =>
    if flitType f == 3 then takePacket (modPort s port fun _ => y) port p
    else landPacket (modPort s port fun _ => { y with partial_ := [] }) port p
  | none => modPort s port fun _ => if flitType f == 1 || flitType f == 2 then { y with partial_ := flitBytes x f } else y

/-- A port sends a control flit of its own, which no partition is charged for (R267). -/
def sendCtl (s : State) (k : Nat) (c : CtlFlit) : State := chargeInfra (modPort s k fun x => { x with sent := x.sent ++ [c] }) 1

/-- The receiver asks again from the last flit that it has in order (R464). -/
def askAgain (s : State) (k : Nat) (x : Port) : State := sendCtl (modPort s k fun _ => x) k (.retry (ackOf x))

/-- A retry request names the last flit that the partner has in order (R464): the sender goes back to the one after it; 64 in a
row bring the port down. The flits sent again are charged to no partition. DESIGN CHOICE, log 117. -/
def goBack (s : State) (port : Nat) (x : Port) (fseq : Nat) : State :=
  let y := dropAcked x fseq
  let y := { y with retry := satNext x.retry, retries := y.retries + 1 }
  if 64 ≤ y.retries then portDown (modPort s port fun _ => y) port
  else chargeInfra (modPort s port fun _ => { y with sent := y.sent ++ [.again ((fseq + 1) % 4096)] }) y.replay.length

/-- The lanes, one by one, of the symbols that FEC corrected in a flit. -/
def correctedLanes (flit f : List Byte) : List Nat :=
  let w := f.take 244 ++ Sys2Proof.Config.fecEncode (f.take 244)
  (List.range 256).filterMap fun k => if flit.getD k 0 != w.getD k 0 then some (Sys2Proof.Config.laneOf k % 8) else none

/-- Count a flit and the symbols corrected in it, each in its lane, over the last 2^24 flits (R464). -/
def countFlit (x : Port) (lanes : List Nat) : Port :=
  { x with flits := x.flits + 1
           symbols := (x.symbols.filter fun y => decide (x.flits + 1 < y.2 + pow2 24)) ++ lanes.map fun l => (l, x.flits + 1) }

/-- A lane that has passed 65,536 corrected symbols (R464). -/
def failingLane (x : Port) : Option Nat := (List.range 8).find? fun l => decide (65536 < (x.symbols.filter fun y => y.1 == l).length)

/-- A lane is failing: the spare replaces it at both ends, and with the spare in use the port goes down (R464). -/
def loseLane (s : State) (port lane : Nat) : State :=
  match (s.pkg.ports[port]?).bind (·.spared) with
  | some _ => portDown s port
  | none => sendCtl (modPort s port fun x => { x with spared := some lane, symbols := x.symbols.filter fun y => y.1 != lane }) port (.spare lane)

/-- A lane that has come to fail is replaced. -/
def checkLanes (s : State) (port : Nat) : State :=
  match (s.pkg.ports[port]?).bind failingLane with
  | some l => loseLane s port l
  | none => s

/-- A flit reaches an up port (R464): one that FEC cannot correct or whose CRC fails is dropped and asked for again; a retry
request, FTYPE 4, names its flit in ACK (log 117); one that is not the next in order is dropped, another is accepted. -/
def receiveFlit (s : State) (port : Nat) (x : Port) (flit : List Byte) : State :=
  match Sys2Proof.Config.fecDecode flit with
  | none => askAgain s port (countFlit x [])
  | some f =>
    let y := countFlit x (correctedLanes flit f)
    if ofBytes ((f.drop 240).take 4) != (crc32c (f.take 240)).toNat then checkLanes (askAgain s port y) port
    else if flitType f == 4 then goBack s port y (flitAck f)
    else if flitSeq f != x.fseqIn then checkLanes (modPort s port fun _ => y) port
    else if flitHeld s port x f then s
    else checkLanes (acceptFlit s port y f) port

/-- FLIT_RECEIVE (R464). -/
def execFlitReceive (port : Nat) (flit : List Byte) (s : State) : Res :=
  match s.pkg.ports[port]? with
  | some x => .next (if x.state == 5 then receiveFlit s port x flit else s)
  | none => .next s

/-- FLIT_REPLAY (R464): a retry request comes. -/
def execFlitReplay (port fseq : Nat) (s : State) : Res :=
  match s.pkg.ports[port]? with
  | none => .next s
  | some x =>
    .next (if x.state != 5 then s else goBack s port x fseq)

/-- LANE_SPARE (R464): a lane that has lost its lock, or that a lane check names, is failing. -/
def execLaneSpare (port lane : Nat) (s : State) : Res := .next (if portUp s port && decide (lane < 8) then loseLane s port lane else s)

/-! ### Training (R466, R467) -/

/-- (root, hops) ranks before another report: the lower root, then the fewer hops. -/
def reportBefore (a b : Nat × Nat) : Bool := decide (a.1 < b.1) || (a.1 == b.1 && decide (a.2 < b.2))

/-- The ports in time lock or up whose partner reports a root. -/
def reports (s : State) : List (Nat × (Nat × Nat)) :=
  (List.range 24).filterMap fun k => (s.pkg.ports[k]?).bind fun x => if x.state == 4 || x.state == 5 then x.report.map fun r => (k, r) else none

/-- The time parent: the lowest root, then the fewest hops, then the lowest port (R467). -/
def bestParent (s : State) : Option (Nat × (Nat × Nat)) :=
  (reports s).foldl (fun acc x => match acc with
    | none => some x
    | some y => if reportBefore x.2 y.2 then some x else some y) none

/-- Choose the time parent, if any; a package with TROOT that hears of a lower root gives up its claim, once with F_LINK naming no
port (R467). -/
def chooseParent (s0 : State) : State :=
  let s := s0
  let me := s.pkg.number.toNat
  let best := bestParent s
  let keep := s.pkg.troot && !(best.any fun b => decide (b.2.1 < me))
  let gives := s.pkg.troot && !keep
  let par := if keep then none else best
  let s := modPkg s fun k =>
    { k with
        gaveUp := gives
        root := if keep then some (me, 0) else par.map fun b => (b.2.1, b.2.2 + 1)
        ports := (List.range 24).map fun j => let x := k.ports.getD j Port.reset; { x with tpar := par.any fun b => b.1 == j } }
  if gives && !s0.pkg.gaveUp then linkFault s 24 else s

/-- A port fails a state: it returns to state 0 and retries in 10 ms. -/
def failTraining (s : State) (k : Nat) : State :=
  modPort s k fun x => { x with state := 0, fails := x.fails + 1, retryAt := s.pkg.podTime.toNat + 25000000, tpar := false }

/-- A port is up: its link starts afresh, and FRONT with the first one (R200; the reading is log 76). Bring-up notes it (R471). -/
def portReady (s : State) (k : Nat) : State :=
  let s := if anyUp s then s else modPkg s fun g => { g with front := 0 }
  let s := modPort s k fun x => { x with
    state := 5, wmi := 0, fseqIn := 0, fseqOut := 0, replay := [], partial_ := [], retries := 0, fails := 0, lastSent := s.pkg.podTime.toNat, flits := 0, symbols := [] }
  modPkg s fun g => { g with portsUp := if g.phase < 5 then g.portsUp ||| BitVec.ofNat 24 (pow2 k) else g.portsUp }

/-- The one-way delay: half of the round trip without the partner's turnaround (R466). DEDUCED, log 117. -/
def oneWay (i : TrainInfo) : Nat := (i.trip - i.turnaround) / 2

/-- Time lock (R466, R467): the root is done once the delay is measured; every other package needs a parent. -/
def lockTime (s : State) (k : Nat) (i : TrainInfo) : State :=
  let s := modPkg s fun g => { g with root := if g.troot && g.root.isNone then some (g.number.toNat, 0) else g.root }
  let s := chooseParent (modPort s k fun x => { x with delay := oneWay i, report := i.report, peer := i.peer })
  if s.pkg.root.isSome then portReady s k else failTraining s k

/-- PORT_TRAINING (R466): the next state of a port's training; `info` is what the port hears from its partner there. A port whose
partner had left trains again with it, unless this package itself is quiescing (R469). -/
def execPortTraining (port : Nat) (info : TrainInfo) (s : State) : Res :=
  match s.pkg.ports[port]? with
  | none => .next s
  | some x =>
    .next (if s.pkg.phase < 3 || s.pkg.phase == 15 || x.state == 5 || (x.state == 0 && 0 < x.fails) then s
      else if 6 ≤ x.state then (if info.ok && s.pkg.quiesce == .run then modPort s port fun x => { x with state := 1, fails := 0 } else s)
      else if !info.ok then failTraining s port
      else if x.state < 3 then modPort s port fun x => { x with state := x.state + 1 }
      else if x.state == 3 then modPort s port fun x => { x with state := 4, spared := info.badLane }
      else lockTime s port info)

/-- TRAINING_RETRY (R466): 10 ms after a failure a port trains again. -/
def execTrainingRetry (port : Nat) (s : State) : Res :=
  match s.pkg.ports[port]? with
  | none => .next s
  | some x =>
    .next (if x.state == 0 && 0 < x.fails && x.retryAt ≤ s.pkg.podTime.toNat && 3 ≤ s.pkg.phase && s.pkg.phase != 15 then
        modPort s port fun x => { x with state := 1 }
      else s)

end Sys2Proof.Machine
end

