-- ==== Sys2Proof/Machine/Reloc.lean ====
section
/-! DEFINITION. Moving a partition's work between bays (R54, R229, R242): regions, frames, and the state that a bay keeps for
them. -/
namespace Sys2Proof.Machine

/-! ### Regions -/

/-- A cell of a region after its move to a fit. -/
def newCell (r : Region) (f : Fit) (cell : Nat) : Nat := (cell % 16 - r.x0 + f.x0) + 16 * (cell / 16 - r.y0 + f.y0)

/-- A context number of a region after its move. -/
def newCtx (r : Region) (f : Fit) (c : Nat) : Nat := c - r.c0 + f.c0

/-- A tag that names a context of the region. -/
def newTag (r : Region) (f : Fit) (t : Tag) : Tag := { t with ctx := BitVec.ofNat 3 (newCtx r f t.ctx.toNat) }

/-- The routes of an R-word, each with its context renumbered (R218). -/
def newRw (r : Region) (f : Fit) (rw : Word) : Word :=
  BitVec.ofNat 64 ((List.range 4).foldl (fun acc k =>
    let rt := routeOf rw k
    acc + (if nbits rt 15 1 == 1 then rt else putFld rt 0 3 (newCtx r f (nbits rt 0 3))) * pow2 (16 * k)) 0)

/-- An I-word, with the link of a wreset renumbered (R354). -/
def newIw (r : Region) (f : Fit) (iw : Word) : Word :=
  if opOf iw == 0x77 then BitVec.ofNat 64 (putFld iw.toNat 0 3 (newCtx r f (fld iw 0 3))) else iw

/-- A context of the region. -/
def moveCtx (r : Region) (f : Fit) (c : Ctx) : Ctx :=
  { c with
      bay := f.bay, cell := newCell r f c.cell, ctx := newCtx r f c.ctx, region := f.idx, iw := newIw r f c.iw, rw := newRw r f c.rw
      copy := newIw r f (c.copy.getD 0 0) :: newRw r f (c.copy.getD 1 0) :: c.copy.drop 2 }

/-- A queue entry of the region. -/
def moveEnt (r : Region) (f : Fit) (e : QEntry) : QEntry := { e with bay := f.bay, cell := newCell r f e.cell, tok := { e.tok with tag := newTag r f e.tok.tag } }

/-- An instance of the region. -/
def moveInst (r : Region) (f : Fit) (i : Inst) : Inst :=
  { i with bay := f.bay, cell := newCell r f i.cell, ctx := newCtx r f i.ctx, grid := some f.idx, tag := newTag r f i.tag }

/-- A travelling token, where it is bound for a cell of the region. -/
def moveFlight (r : Region) (f : Fit) (x : Flight) : Flight :=
  match x.toward with
  | .cell b cell sl =>
    if b == r.bay && inRegion r cell x.tok.tag.ctx.toNat then
      { x with toward := .cell f.bay (newCell r f cell) sl, tok := { x.tok with tag := newTag r f x.tok.tag } }
    else x
  | .dest _ | .ack => x

/-- An entry of the region's entry table. -/
def moveEntry (r : Region) (f : Fit) (e : EntryRec) : EntryRec := { e with cell := newCell r f e.cell, ctx := newCtx r f e.ctx }

/-- A record, where it names the region. -/
def moveRec (r : Region) (f : Fit) (x : FaultRec) : FaultRec :=
  if x.flags &&& flGrid != 0 && x.part == r.part && x.bay == r.bay && x.region == r.idx then
    { x with bay := f.bay, region := f.idx, cell := newCell r f x.cell, ctx := newCtx r f x.ctx }
  else x

/-- A record with its victim, where it names the region. -/
def moveItem (r : Region) (f : Fit) (x : TrapItem) : TrapItem :=
  { x with
      rcd := moveRec r f x.rcd
      victim := match x.victim with
        | .region b g => if x.rcd.part == r.part && b == r.bay && g == r.idx then .region f.bay f.idx else .region b g
        | v => v }

/-- A frozen plane of the region. -/
def movePlane (r : Region) (f : Fit) (p : Plane) : Plane :=
  { p with
      ctxs := p.ctxs.map (moveCtx r f), entries := p.entries.map (moveEntry r f), queues := p.queues.map (moveEnt r f)
      formed := p.formed.map (moveInst r f), held := p.held.map (moveInst r f), exitHold := p.exitHold.map (moveFlight r f), caller := (newCell r f p.caller.1, newCtx r f p.caller.2) }

/-- The phase of the region. -/
def movePhase (r : Region) (f : Fit) : RegPhase → RegPhase
  | .callGate i a => .callGate (moveInst r f i) a
  | .retGate i => .retGate (moveInst r f i)
  | p => p

/-- The record of the region itself: its name and its key stay. -/
def moveRecord (r : Region) (f : Fit) (sig : BitVec 32) : Region :=
  { r with
      bay := f.bay, idx := f.idx, x0 := f.x0, y0 := f.y0, c0 := f.c0, sig := sig, phase := movePhase r f r.phase, fault := r.fault.map (moveRec r f)
      faulting := r.faulting.map (moveInst r f), planes := r.planes.map (movePlane r f), exitHold := r.exitHold.map (moveFlight r f)
      ckpt := r.ckpt.map fun k => ⟨movePlane r f k.top, k.under.map (movePlane r f), k.sent.map fun x => (moveInst r f x.1, x.2)⟩ }

/-- The tokens and instances of the region in the image of a spilled frame. -/
def moveInImage (r : Region) (f : Fit) (m : Image) : Image :=
  { m with
      entries := m.entries.map fun e => if regionQueue r e then moveEnt r f e else e
      insts := m.insts.map fun i => if ofRegion r i then moveInst r f i else i
      appended := m.appended.map (moveFlight r f) }

/-- A held store of the region. -/
def moveHeld (r : Region) (f : Fit) (h : Held) : Held := if h.bay == r.bay && h.region == some r.idx then { h with bay := f.bay, region := some f.idx, reply := h.reply.map (moveInst r f) } else h

/-- A stream of the region: it patches anew the translations ahead of it (R109). -/
def moveStream (r : Region) (f : Fit) (x : Stream) : Stream :=
  if x.inst.bay == r.bay && x.region == r.idx then { x with inst := moveInst r f x.inst, region := f.idx, runs := [] } else x

/-- Move a region to a fit (R54, R242): its contexts, queues, instances, planes and records with it, also where they stand in
the images of spilled frames. -/
def moveRegion (s : State) (r : Region) (f : Fit) : State :=
  let mi := fun (i : Inst) => if ofRegion r i then moveInst r f i else i
  let mx := fun (t : TrapItem) => moveItem r f t
  let cs := (regionCtxs s r).map (moveCtx r f)
  { s with
      ctxs := s.ctxs.filter (fun c => !(c.bay == r.bay && c.region == r.idx)) ++ cs
      queues := s.queues.map fun e => if regionQueue r e then moveEnt r f e else e
      net := s.net.map (moveFlight r f)
      ready := s.ready.map mi
      pipe := s.pipe.map mi
      waits := s.waits.map mi
      stores := s.stores.map (moveHeld r f)
      images := s.images.map (moveInImage r f)
      exitgs := s.exitgs.map fun x => if x.bay == r.bay && x.region == r.idx then { x with bay := f.bay, region := f.idx } else x
      entries := s.entries.map fun e => if entryOf r e then moveEntry r f e else e
      streams := s.streams.map (moveStream r f)
      frames := s.frames.map fun x => { x with trap := x.trap.map mx, late := x.late.map fun l => (mx l.1, l.2) }
      parts := s.parts.map fun t => { t with trapQ := t.trapQ.map mx, haltRec := t.haltRec.map mx }
      pageFaults := s.pageFaults.map fun x => { x with item := x.item.map mx }
      regions := updWhere (fun x => x.bay == r.bay && x.idx == r.idx) (fun x => moveRecord x f (signature cs)) s.regions }

/-! ### Frames -/

/-- Bring a resident frame to a row of a bay, its blocks to the places of a list: the poison of its row goes with it (R115),
and its accesses go on as after fence.ar (R141). -/
def bringFrame (s : State) (fr : Frame) (bay row : Nat) (bs : List Block) : State :=
  let p := fr.part
  let bad := (rowPoisons s fr.bay fr.row).map fun k => (PoisonKind.row, (bay * 256 + row) * 512 + k)
  let s := reseat (cleanRow (cleanRow s fr.bay fr.row) bay row) p fr.num bay bs
  { s with
      frames := updWhere (fun f => f.part == p && f.num == fr.num) (fun f => fenceFrame { f with bay := bay, row := row }) s.frames
      stores := s.stores.map fun h => if h.part == p && h.frame == fr.num && h.region.isNone then { h with bay := bay } else h
      poison := s.poison ++ bad }

/-- Move a resident frame to a row of a bay (R242): its placed blocks take cell-contexts there, and those that find too few wait
in the front end (R33). -/
def moveFrame (s : State) (fr : Frame) (bay row : Nat) : State :=
  bringFrame s fr bay row (refit ((blocksOf s fr.part fr.num).map lostPlaces) (freePlaces s bay))

/-- A spilled frame's bay changes with its image: the bay it will be reloaded in, where its blocks are placed anew. -/
def moveSpilled (s : State) (fr : Frame) (bay : Nat) : State :=
  { s with
      frames := updWhere (fun f => f.part == fr.part && f.num == fr.num) (fun f => { f with bay := bay }) s.frames
      blocks := updWhere (fun b => b.part == fr.part && b.frame == fr.num) lostPlaces s.blocks
      images := updWhere (fun m => m.part == fr.part && m.frame == fr.num) (fun m => { m with
        bay := bay
        entries := m.entries.map fun e => if e.blk.isSome then { e with bay := bay } else e
        insts := m.insts.map fun i => if i.grid.isNone then { i with bay := bay } else i }) s.images
      stores := s.stores.map fun h => if h.part == fr.part && h.frame == fr.num && h.region.isNone then { h with bay := bay } else h }

/-! ### What a bay keeps (R114, R181, R249) -/

/-- Move the bytes of one range of keys to another. -/
def moveBytes (m : Memory) (lo len to_ : Nat) : Memory :=
  (m.filter fun c => decide (lo ≤ c.1) && decide (c.1 < lo + len)).foldl (fun m c => wrByte m (c.1 - lo + to_) c.2) (clearRange (clearRange m to_ len) lo len)

/-- Rename a key. -/
def reName (a b k : Nat) : Nat := if k == a then b else k

/-- The state kept under key a of a partition is kept under key b from here on: shelf, accumulators, queues, FIFOs,
handlers, codebooks, streams' slots, chain registers, and the row window. A resize so moves engine commands, FIFO counts and
handlers with the shelf, and a frame goes on with the shelf that it had. DESIGN CHOICE, log 125. -/
def rekey (s : State) (p a b : Nat) : State :=
  let q := fun (r : QRef) => if !r.lq && r.home == a then { r with home := b } else r
  let inKey := fun (size : Nat) (x : Nat) => decide (a * size ≤ 8 * x) && decide (8 * x < (a + 1) * size)
  let mx := fun (t : TrapItem) => match t.victim with
    | .engine r => if t.rcd.part == p then { t with victim := .engine (q r) } else t
    | _ => t
  { s with
      frames := s.frames.map fun f => { (if f.part == p && f.key == a then { f with key := b } else f) with trap := f.trap.map mx }
      regions := updWhere (fun r => r.part == p && r.key == a) (fun r => { r with key := b }) s.regions
      shelf := moveBytes s.shelf (a * pow2 22) (pow2 22) (b * pow2 22)
      acc := moveBytes s.acc (a * pow2 19) (pow2 19) (b * pow2 19)
      poison := s.poison.map fun x =>
        if x.1 == .shelf && inKey (pow2 22) x.2 then (x.1, x.2 - a * pow2 19 + b * pow2 19)
        else if x.1 == .acc && inKey (pow2 19) x.2 then (x.1, x.2 - a * pow2 16 + b * pow2 16) else x
      stores := s.stores.map fun h => match h.op with
        | .shelf x bs => if h.part == p && decide (a * pow2 22 ≤ x) && decide (x < (a + 1) * pow2 22) then { h with op := .shelf (x - a * pow2 22 + b * pow2 22) bs } else h
        | _ => h
      sync := s.sync.map fun x => ((reName a b x.1.1, x.1.2), x.2)
      handlers := s.handlers.map fun x => ((reName a b x.1.1, x.1.2), x.2)
      codebooks := s.codebooks.map fun x => ((reName a b x.1.1, x.1.2), x.2)
      kvc := s.kvc.map fun x => ((reName a b x.1.1, x.1.2), x.2)
      dup := s.dup.map fun x => ((reName a b x.1.1, x.1.2), x.2)
      streams := updWhere (fun x => x.part == p && x.bay == a) (fun x => { x with bay := b }) s.streams
      cmds := s.cmds.map fun c => if c.part == p then { c with r := q c.r, bay := reName a b c.bay } else c
      qfences := s.qfences.map fun x => if !x.lq && x.home == a then { x with home := b } else x
      completions := s.completions.map fun c => if c.part == p then { c with bay := reName a b c.bay } else c
      pageFaults := s.pageFaults.map fun x => { x with item := x.item.map mx }
      parts := s.parts.modify p fun t => { t with trapQ := t.trapQ.map mx, haltRec := t.haltRec.map mx, parkedImgs := t.parkedImgs.map fun m => (m.1, reName a b m.2) } }

/-- The name by which a partition's chains know a bay changes (R256). -/
def renameBay (s : State) (p a b : Nat) : State :=
  let keys := baysOf s p ++ (part s p).parkedImgs.map (·.2) ++ (part s p).saved.map (·.2) ++ [a, b]
  { s with
      kvc := s.kvc.map fun x => if keys.contains x.1.1 && bitAt x.2 63 && fld x.2 55 7 == a then (x.1, BitVec.ofNat 64 (putFld x.2.toNat 55 7 b)) else x
      regions := updWhere (fun r => r.part == p) (fun r => { r with kvc := r.kvc.map fun y => (reName a b y.1, y.2) }) s.regions }

/-- Drop what is kept under a key (R127). -/
def clearKey (s : State) (k : Nat) : State :=
  { s with
      shelf := clearRange s.shelf (k * pow2 22) (pow2 22)
      acc := clearRange s.acc (k * pow2 19) (pow2 19)
      poison := s.poison.filter fun x => !((x.1 == .shelf && decide (x.2 / pow2 19 = k)) || (x.1 == .acc && decide (x.2 / pow2 16 = k)))
      sync := s.sync.filter fun x => x.1.1 != k
      handlers := s.handlers.filter fun x => x.1.1 != k
      codebooks := s.codebooks.filter fun x => x.1.1 != k
      kvc := s.kvc.filter fun x => x.1.1 != k
      dup := s.dup.filter fun x => x.1.1 != k
      tlb := s.tlb.filter fun x => x.bay != k }

/-! ### A whole bay -/

/-- A number for a bay of no package, used for one purpose only. -/
def freshBay (s : State) : Nat × State := (128 + s.cmdNo, { s with cmdNo := s.cmdNo + 1 })

/-- The bay of a list with the most free rows, ties to the lower number (R174); none when none has one. -/
def roomiestOf (s : State) (l : List Nat) : Option Nat :=
  l.foldl (fun acc b => match acc with
    | none => if freeRows s b == 0 then none else some b
    | some a => if freeRows s a < freeRows s b then some b else some a) none

/-- Move one resident frame out of a bay: to a free row of a new bay, else to the cellar (R46, R242); unmoved where the quota is
spent or its directory entry cannot be written. Where the new cells have no queue room for its work its blocks wait in the front
end. -/
def departFrame (l : List Nat) (s : State) (fr : Frame) : State :=
  match roomiestOf s l with
  | some bay =>
    let row := lowestFree (rowsUsed s bay) 256 0
    (match dirWrite s fr.part fr.num (dirResident bay row) with
     | .error s => s
     | .ok s =>
       let t := moveFrame s fr bay row
       if within t bay then t else bringFrame s fr bay row ((blocksOf s fr.part fr.num).map lostPlaces))
  | none =>
    if cellarHas s fr.part (spillSize s fr) then
      (match spillFrame s fr with
       | .ok s => moveSpilled s fr (l.headD 0)
       | .error s => s)
    else s

/-- The first fit of a region in a list of bays (R218). -/
def fitFor (s : State) (l : List Nat) (r : Region) : Option Fit := l.findSome? fun b => fitIn s r.part b r.w r.h r.c r.ne

/-- The bytes of a region that is saved to the attic as a frozen image, with its planes on chip (R227, R242). -/
def frozenBytes (r : Region) : Nat := planeBytes r * (1 + chipPlanes r)

/-- Move one region out of a bay: to the first fit, else to wait in the attic (R242). -/
def departRegion (l : List Nat) (s : State) (r : Region) : State :=
  match fitFor s l r with
  | some f => let t := moveRegion s r f; if within t f.bay then t else s
  | none => match atticTouch s r.part (frozenBytes r) true true with
    | .error s => s
    | .ok s => let v := freshBay s; moveRegion v.2 r ⟨v.1, r.idx, 0, r.x0, r.y0, r.c0⟩

/-- Everything else of a bay that names it: deferred records and spilled frames go on in another. -/
def departRest (l : List Nat) (s : State) (p bay : Nat) : State :=
  let to_ := l.headD 0
  let s := { s with deferred := updWhere (fun d => d.part == p && d.bay == bay) (fun d => { d with bay := to_ }) s.deferred }
  (s.frames.filter fun f => f.part == p && f.bay == bay && !f.resident).foldl (fun s f => moveSpilled s f to_) s

/-- Frames in a given order, the others behind them as they stand. -/
def inFrameOrder (order : List Nat) (l : List Frame) : List Frame :=
  order.filterMap (fun n => l.find? fun f => f.num == n) ++ l.filter fun f => !order.contains f.num

/-- The state of each departing bay passes to an arriving one, in ascending order, or becomes a parked image (R242); each
bay is given with the name that the partition's chains know it by. -/
def passKeys (p : Nat) : List (Nat × Nat) → List Nat → State → State
  | [], _, s => s
  | (name, bay) :: rest, a :: more, s => passKeys p rest more (renameBay (rekey s p bay a) p name a)
  | (name, bay) :: rest, [], s =>
    let v := freshBay s
    passKeys p rest [] (modPart (rekey v.2 p bay v.1) p fun t => { t with parkedImgs := t.parkedImgs ++ [(name, v.1)] })

/-- passKeys, once the parked images' pages are translated; `.error` is the state, with nothing moved, in which the move waits
for a stage-2 fault on them (R506). -/
def departKeys (p : Nat) (gone : List (Nat × Nat)) (come : List Nat) (s : State) : Except State State :=
  match cellarItem s p (4718592 * (gone.length - come.length)) true with
  | .error s => .error s
  | .ok s => .ok (passKeys p gone come s)

/-- Move what still stands in a bay into a list of bays (R242). -/
def departWork (l order : List Nat) (p : Nat) (s : State) (bay : Nat) : State :=
  let s := (inFrameOrder order (s.frames.filter fun f => f.part == p && f.bay == bay && f.resident)).foldl (departFrame l) s
  let s := (s.regions.filter fun r => r.part == p && r.bay == bay).foldl (departRegion l) s
  departRest l s p bay

/-- No work of the partition stands in a bay any more. -/
def bayEmpty (s : State) (p bay : Nat) : Bool :=
  !(s.frames.any fun f => f.part == p && f.bay == bay) && !(s.regions.any fun r => r.part == p && r.bay == bay)

/-- Frames and regions that wait for a place are placed where rows and contexts are free (R242). -/
def placeParked (s : State) (p : Nat) : State :=
  if savedAway s p then s
  else
    let l := allocBays s p
    let s := (s.frames.filter fun f => f.part == p && decide (128 ≤ f.bay) && f.resident).foldl (departFrame l) s
    (s.regions.filter fun r => r.part == p && decide (128 ≤ r.bay)).foldl (fun s r =>
      match fitFor s l r with
      | none => s
      | some f => match atticTouch s p (frozenBytes r) false false with
        | .error s => s
        | .ok s => let t := moveRegion s r f; if within t f.bay then pairRegion t f.bay f.idx else s) s

/-- A freeze or a thaw of a grid call goes on: it is finished before the region is saved or moved (R229). -/
def callsOn (r : Region) : Bool := r.fault.isNone && (match r.phase with
  | .callGate _ _ | .retGate _ => true
  | _ => false)

/-- No token that meets a condition can still arrive: each waits on its link (R179). -/
def linksStill (s : State) (cond : Flight → Bool) : Bool :=
  (List.range s.net.length).all fun n => match s.net[n]? with
    | some x => !cond x || blockedBehind s.net n x || (arrive { s with net := dropAt n s.net } x).isNone
    | none => true

/-- The bay that a travelling token is bound for. -/
def boundFor (s : State) (x : Flight) : Option Nat :=
  match x.toward with
  | .cell b _ _ => some b
  | .dest d =>
    if fld d 6 4 == 0b1010 then
      (s.entries.find? fun e => e.part == x.part && e.bay == fld d 10 7 && e.e == fld d 0 6).bind fun e => (regionNamed s x.part (e.bay, e.region)).map (·.bay)
    else (frame? s x.part x.tok.tag.frame.toNat).map (·.bay)
  | .ack => (frame? s x.part x.tok.tag.frame.toNat).map (·.bay)

/-- A command still runs: it is neither held nor done up to a token that a full FIFO has no room for (R146, R188). -/
def cmdRunning (s : State) (c : Cmd) : Bool := c.issued && !c.held && !(c.status.isSome && pushFull s c)

/-- A waiting instance lands by itself, though nothing new starts (R179): an access of its own block or region that waits for
nothing but its turn at the edge, or for a place in its chain that is open. A stream binds no more. -/
def landing (s : State) (i : Inst) : Bool :=
  let t := { s with cur := i }
  let op := opOf i.word
  op != 0x9F && ((unplaced i && canPlace t) || (lands s i && (i.grid.isSome || ((!waitsOldest op || curOldest t) && !drainWait t)) &&
    (!isStoreOp op || (curCtl t).isSome)))

/-- The settlement of R179: no token of the partition can still arrive, none of its instances runs, no walk is out, no access
still lands, every command that runs is done or held, and no grid call is half done (R229). -/
def settledPart (s : State) (p : Nat) : Bool :=
  !(s.pipe.any fun i => i.part == p) && !(s.walks.any fun w => w.part == p) && !(s.waits.any fun i => i.part == p && landing s i) &&
    !(s.cmds.any fun c => c.part == p && cmdRunning s c) && !(s.regions.any fun r => r.part == p && callsOn r) &&
    linksStill s fun x => x.part == p

/-- A bay of the partition has settled likewise (R179, R242). -/
def baySettled (s : State) (p bay : Nat) : Bool :=
  !(s.pipe.any fun i => i.part == p && i.bay == bay) && !(s.walks.any fun w => w.part == p && w.bay == bay) &&
    !(s.waits.any fun i => i.part == p && i.bay == bay && landing s i) &&
    !(s.cmds.any fun c => c.part == p && c.bay == bay && cmdRunning s c) && !(s.regions.any fun r => r.part == p && r.bay == bay && callsOn r) &&
    linksStill s fun x => x.part == p && boundFor s x == some bay

end Sys2Proof.Machine
end

