-- ==== Sys2Proof/Machine/Resize.lean ====
section
/-! DEFINITION. The resize protocol (R240–R248): its descriptor and checks, and the six steps. -/
namespace Sys2Proof.Machine

/-! ### The descriptor (R240, R241) -/

/-- The resize descriptor as read: bays, slices, channels, slots, frame range, and its last word. -/
structure Resize where
  bays : Nat
  slices : Nat
  chans : Nat
  cal : Nat
  frames : Word
  last : Word
  deriving DecidableEq, Repr

/-- Words of a list from one place on, as one number. -/
def joinWords (l : List Word) (k n : Nat) : Nat := (List.range n).foldl (fun acc j => acc + (l.getD (k + j) 0).toNat * pow2 (64 * j)) 0

/-- n words of physical memory. -/
def physWords (m : Memory) (pa n : Nat) : List Word := (List.range n).map fun k => rd64 m (pa + 8 * k)

/-- The channels of a partition: those of its entry (R233). -/
def chansOf (t : Part) : Nat := joinWords t.ent 5 4

/-- A range in PART_FRAMES layout breaks R90. -/
def rangeBad (w : Word) : Bool :=
  fld w 20 12 != 0 || fld w 53 11 != 0 || fld w 32 21 == 0 || decide (pow2 20 < fld w 32 21) || decide (pow2 20 < fld w 0 20 + fld w 32 21)

/-- Two ranges overlap. -/
def rangesOverlap (a b : Nat × Nat) : Bool := decide (0 < (rangeMeet a b).2)

/-- The sets that a partition owns now: bays, channels and slots (R234, R245). While a resize runs they are both sets,
and after its scrub the new ones. -/
def ownedSet (t : Part) (old new : Nat) : Nat := if !t.rszBusy then old else if 6 ≤ t.rszStep then new else Nat.lor old new

def ownedBays (t : Part) : Nat := ownedSet t t.bays.toNat (newBays t)
def ownedChans (t : Part) : Nat := ownedSet t (chansOf t) (joinWords t.rszNew 4 4)
def ownedSlots (t : Part) : Nat := ownedSet t t.cal.toNat (joinWords t.rszNew 8 1)

/-- Another live partition has property q. -/
def otherLive (s : State) (p : Nat) (q : Part → Bool) : Bool := (List.range 64).any fun k => k != p && live s k && q (part s k)

/-- Another live partition owns one of these bays, channels or slots. -/
def ownedElsewhere (s : State) (p bays chans cal : Nat) : Bool :=
  otherLive s p fun t => Nat.land bays (ownedBays t) != 0 || Nat.land chans (ownedChans t) != 0 || Nat.land cal (ownedSlots t) != 0

/-- A range overlaps that of another live partition, or the one that it is moving to. -/
def rangeTaken (s : State) (p : Nat) (w : Word) : Bool :=
  otherLive s p fun t => rangesOverlap (rangeOf w) (rangeOf t.frames) || ((newRange t).map (rangesOverlap (rangeOf w))).getD false

/-- The members of a set that another set lacks. -/
def lacking (a b : Nat) : Nat := Nat.xor a (Nat.land a b)

/-- The number of members of a set of at most n. -/
def members (a n : Nat) : Nat := (setBits a n).length

/-- The descriptor at a physical address, or RESULT 1 where an alignment is broken or no memory stands there. -/
def readResize (m : Memory) (pa : Nat) : Option Resize :=
  if !paOk pa then none
  else
    let d := physWords m pa 8
    let ch := (d.getD 4 0).toNat
    if fld (d.getD 7 0) 7 49 != 0 || ch % 32 != 0 || !paOk ch || (d.getD 6 0 != 0 && rangeBad (d.getD 6 0)) then none
    else some ⟨joinWords d 0 2, joinWords d 2 2, joinWords (physWords m ch 4) 0 4, (d.getD 5 0).toNat, d.getD 6 0, d.getD 7 0⟩

/-- The check that a descriptor fails (R241): its RESULT, 0 for none. -/
def resizeResult (s : State) (p : Nat) (r : Resize) : Nat :=
  let t := part s p
  let gone := members (lacking t.bays.toNat r.bays) 128
  let come := members (lacking r.bays t.bays.toNat) 128
  if r.bays == 0 || r.slices == 0 || r.chans == 0 || r.cal == 0 then 2
  else if ownedElsewhere s p r.bays r.chans r.cal then 3
  else if r.frames != 0 && (rangeTaken s p r.frames ||
      s.frames.any fun f => f.part == p && !(decide ((rangeOf r.frames).1 ≤ f.num) && decide (f.num < (rangeOf r.frames).1 + (rangeOf r.frames).2))) then 4
  else if !cellarHas s p (4718592 * (gone - come)) then 5
  else 0

/-- RESULT goes into the descriptor (R240). -/
def putResult (s : State) (pa v : Nat) : State := if paOk pa then pokeBytes s (pa + 63) [BitVec.ofNat 8 v] else s

/-- A number as n words. -/
def splitWords (x n : Nat) : List Word := (List.range n).map fun k => BitVec.ofNat 64 (nbits x (64 * k) 64)

/-- A refused window write of a partition that is being resized sets ERR too (R247). -/
def resizeErr (s : State) (p e : Nat) : State := refuseWrite (modPart s p fun t => { t with rszErr := e })

/-- RESIZE_GO (R90, R240, R241): a write of PART_RESIZE. -/
def execResizeGo (p : Nat) (v : Word) (s : State) : Res :=
  let t := part s p
  if !bitAt v 0 then .next (modPart s p fun t => { t with rszDesc := BitVec.ofNat 64 (fld v 6 46 * 64) })
  else if t.rszBusy then .next (resizeErr s p 1)
  else if !live s p then .next (refuseWrite s)
  else
    let pa := fld v 6 46 * 64
    let s := modPart s p fun t => { t with rszDesc := BitVec.ofNat 64 pa }
    match readResize s.mem pa with
    | none => .next (putResult s pa 1)
    | some r =>
      let e := resizeResult s p r
      if e != 0 then .next (putResult s pa e)
      else .next (modPart s p fun t =>
        { t with
            rszBusy := true, rszStep := 1, rszKept := false
            rszNew := splitWords r.bays 2 ++ splitWords r.slices 2 ++ splitWords r.chans 4 ++ [BitVec.ofNat 64 r.cal, r.frames, r.last, BitVec.ofNat 64 pa] })

/-! ### Steps 1 and 2 (R242, R238) -/

/-- Bytes of physical memory are zeroed; monitors of their lines wake as by a write. -/
def zeroRange (s : State) (pa n : Nat) : State :=
  { s with
      mem := clearRange s.mem pa n
      poison := s.poison.filter fun x => !((x.1 == .mem || x.1 == .hbm) && decide (pa ≤ 8 * x.2) && decide (8 * x.2 + 8 ≤ pa + n))
      frames := s.frames.map fun f => match f.mon with
        | some m => if decide (pa / 64 ≤ m.line) && decide (64 * m.line < pa + n) then { f with mon := some (noteCause s 1 m) } else f
        | none => f }

/-- Zero a run of guest physical memory page by page; `.error` waits for a stage-2 fault (R506). -/
def zeroGuest (p : Nat) : Nat → State → Nat → Nat → Except State State
  | 0, s, _, _ => .ok s
  | k + 1, s, gpa, n =>
    if n == 0 then .ok s
    else
      let here := Nat.min n (pow2 14 - gpa % pow2 14)
      match devAddr s p gpa true with
      | .error s => .error s
      | .ok (s, pa) => zeroGuest p k (zeroRange s pa here) (gpa + here) (n - here)

/-- Write directory entries at their places under a first FRAME value. -/
def putDir (p first : Nat) : List (Nat × Word) → State → Except State State
  | [], s => .ok s
  | (f, w) :: l, s =>
    match devAddr s p ((entWord s p 14).toNat + 8 * (f - first)) true with
    | .error s => .error s
    | .ok (s, pa) => putDir p first l (pokeBytes s pa (toBytes 8 w.toNat))

/-- Read the directory entries of frames. -/
def getDir (p : Nat) : List Nat → State → Except State (List (Nat × Word))
  | [], _ => .ok []
  | f :: l, s =>
    match devAddr s p (dirAddr s p f) false, getDir p l s with
    | .error s, _ => .error s
    | _, .error s => .error s
    | .ok (_, pa), .ok r => .ok ((f, rd64 s.mem pa) :: r)

/-- Rewrite the directory for the new range (R238): the entries of live frames move, every other becomes free. Every page
is translated before the first byte is written, so that a stage-2 fault leaves the old directory whole. -/
def rewriteDir (s : State) (p : Nat) (r : Nat × Nat) : Except State State :=
  match getDir p ((s.frames.filter fun f => f.part == p).map (·.num)) s, devTouch s p (entWord s p 14).toNat (8 * r.2) true with
  | .error s, _ => .error s
  | _, .error s => .error s
  | .ok l, .ok s =>
    match zeroGuest p 514 s (entWord s p 14).toNat (8 * r.2) with
    | .error s => .error s
    | .ok s => putDir p r.1 l s

/-- The bays that a resize takes away. -/
def departingBays (t : Part) : List Nat := setBits (lacking t.bays.toNat (newBays t)) 128

/-- The bays that it brings. -/
def arrivingBays (t : Part) : List Nat := setBits (lacking (newBays t) t.bays.toNat) 128

/-- Move the work out of the departing bays. -/
def departAll (s : State) (p : Nat) (order : List Nat) : State :=
  (departingBays (part s p)).foldl (departWork (setBits (newBays (part s p)) 128) order p) s

/-- Go to a step. -/
def toStep (s : State) (p k : Nat) : State := modPart s p fun t => { t with rszStep := k }

/-- Step 2 ends when the departing bays are empty and the directory stands for the new range. -/
def endMigration (s : State) (p : Nat) : State :=
  let t := part s p
  if !(departingBays t).all (bayEmpty s p) then s
  else match newRange t with
    | none => toStep s p 3
    | some r => match rewriteDir s p r with
      | .ok s => toStep s p 3
      | .error s => s

/-- RESIZE_MIGRATE (R242): a settled departing bay is emptied. `order` is the order in which frames move. What was
pre-empted lies in the save area and moves at its restore (R247). -/
def execResizeMigrate (p : Nat) (order : List Nat) (s : State) : Res :=
  let t := part s p
  if !t.rszBusy || t.preBusy then .next s
  else if t.rszStep == 1 then
    (if (departingBays t).all (baySettled s p) then
      (match if t.preSaved then .ok s else departKeys p ((departingBays t).map fun b => (b, b)) (arrivingBays t) s with
       | .error s => .next s
       | .ok s => .next (endMigration (departAll (toStep s p 2) p order) p))
    else .next s)
  else if t.rszStep == 2 then .next (endMigration (departAll s p order) p)
  else .next s

/-! ### Step 3 (R243) -/

/-- RESIZE_SLICE_REHASH (R243): every line and version entry of the partition goes to its new home. -/
def execResizeSliceRehash (p : Nat) (s : State) : Res :=
  let t := part s p
  if !t.rszBusy || t.rszStep != 3 then .next s
  else
    let sl := slicesOf s p
    let s := { s with
      l2 := updWhere (fun (x : L2Line) => x.part == p) (fun x => { x with slice := homeSlice sl (64 * x.line) }) s.l2
      vers := updWhere (fun (v : VersEntry) => v.part == p) (fun v => { v with slice := homeSlice sl v.pa }) s.vers }
    .next (modPart s p fun t => { t with rszStep := 4, ent := (t.ent.set 3 (t.rszNew.getD 2 0)).set 4 (t.rszNew.getD 3 0) })

/-! ### Step 4 (R244) -/

/-- Bytes of an HBM channel (R103). -/
def chanSize : Nat := 0x60000000

/-- The leaves below a stage-2 table of a level. Only entries with V = 1 are looked at. -/
def leaves2 (m : Memory) : Nat → Nat → Nat → List Leaf
  | 0, _, _ => []
  | k + 1, lvl, tab =>
    let n := if lvl == 1 then 32 else 2048
    (m.filter fun c => decide (tab ≤ c.1) && decide (c.1 < tab + 8 * n) && (c.1 - tab) % 8 == 0 && bitAt c.2 0).flatMap fun c =>
      let e := rd64 m c.1
      if malformedEnt e lvl then []
      else if bitAt e 1 then [⟨fld e 14 38 * pow2 14, leafSize lvl, e, c.1⟩]
      else leaves2 m k (lvl + 1) (fld e 14 38 * pow2 14)

/-- The channel that a whole page lies in. -/
def pageChan (l : Leaf) : Option Nat :=
  let c := l.base / chanSize
  if c < 256 && c == (l.base + pow2 l.size - 1) / chanSize then some c else none

/-- A page touches a channel. -/
def touchesChan (l : Leaf) (c : Nat) : Bool := decide (l.base < (c + 1) * chanSize) && decide (c * chanSize < l.base + pow2 l.size)

/-- An address of a page that moves. -/
def movedPa (lo len to_ pa : Nat) : Nat := if lo ≤ pa && decide (pa < lo + len) then pa - lo + to_ else pa

/-- A cached line takes another address, and its place in the set of that address (R123). -/
def moveLine (s : State) (x : L2Line) (pa : Nat) : State :=
  let slice := homeSlice (slicesOf s x.part) pa
  let s := l2Room { s with l2 := s.l2.erase x } x.part slice (l2Set pa)
  { s with l2 := s.l2 ++ [{ x with slice := slice, set := l2Set pa, line := pa / 64 }] }

/-- Copy a page to another place (R244): its bytes, its versions, the stores held for it and the lines that frames
watch go with it; its translations drop, and its lines stay cached, under their new addresses. A version entry stands in the home
slice of its new line (R122). Reading and writing each line takes HBM traffic (R267). -/
def movePage (s : State) (p : Nat) (l : Leaf) (to_ : Nat) : State :=
  let len := pow2 l.size
  let mv := movedPa l.base len to_
  let inPage := fun (a : Nat) => decide (l.base ≤ a) && decide (a < l.base + len)
  let bytes := s.mem.filter fun c => inPage c.1
  let op : StoreOp → StoreOp := fun o => match o with
    | .mem pa bs c => .mem (mv pa) bs c
    | .shelf a bs => .shelf a bs
    | .stv pa v => .stv (mv pa) v
    | .reclaim pa b => .reclaim (mv pa) b
  let s : State := { s with
    mem := bytes.foldl (fun m c => wrByte m (c.1 - l.base + to_) c.2) (clearRange s.mem to_ len)
    poison := s.poison ++ (s.poison.filter fun x => (x.1 == .mem || x.1 == .hbm) && inPage (8 * x.2)).map fun x => (x.1, mv (8 * x.2) / 8)
    vers := updWhere (fun (v : VersEntry) => v.part == p) (fun v => { v with pa := mv v.pa, slice := if inPage v.pa then homeSlice (slicesOf s p) (mv v.pa) else v.slice }) s.vers
    stores := s.stores.map fun h => if h.part == p then { h with op := op h.op } else h
    frames := s.frames.map fun f => if f.part == p then { f with mon := f.mon.map fun m => { m with line := mv (64 * m.line) / 64 } } else f
    waits := s.waits.map fun i => if i.part == p then { i with ver := i.ver.map fun v => (mv v.1, v.2) } else i
    tlb := s.tlb.filter fun e => !(e.part == p && inPage e.pa)
    streams := s.streams.map fun x => { x with runs := x.runs.filter fun e => !(e.part == p && inPage e.pa) } }
  let s := (s.l2.filter fun x => x.part == p && inPage (64 * x.line)).foldl (fun s x => moveLine s x (mv (64 * x.line))) s
  pokeBytes (charge s p none 5 (2 * (len / 64))) l.addr (toBytes 8 (putFld l.ent.toNat 14 38 (to_ / pow2 14)))

/-- Move every page of the paired channels. -/
def moveChans (s : State) (p : Nat) (pairs : List (Nat × Nat)) : State :=
  (leaves2 s.mem 4 1 (entWord s p 13).toNat).foldl (fun s l =>
    match (pageChan l).bind fun c => (assoc c pairs).map fun d => (c, d) with
    | some (c, d) => movePage s p l (l.base - c * chanSize + d * chanSize)
    | none => s) s

/-- RESIZE_CHANNEL_REHASH (R244): a departing channel that still holds a mapped page stays. -/
def execResizeChannelRehash (p : Nat) (s : State) : Res :=
  let t := part s p
  if !t.rszBusy || t.rszStep != 4 then .next s
  else
    let new := joinWords t.rszNew 4 4
    let gone := setBits (lacking (chansOf t) new) 256
    let s := moveChans s p (gone.zip (setBits (lacking new (chansOf t)) 256))
    let ls := leaves2 s.mem 4 1 (entWord s p 13).toNat
    let kept := gone.filter fun c => ls.any fun l => touchesChan l c
    let all := kept.foldl (fun x c => Nat.lor x (pow2 c)) new
    .next (modPart s p fun t => { t with rszStep := 5, rszKept := !kept.isEmpty, rszNew := t.rszNew.take 4 ++ splitWords all 4 ++ t.rszNew.drop 8 })

/-! ### Steps 5 and 6 (R245, R246) -/

/-- Scrub a channel that leaves a partition (R127). -/
def scrubChan (p : Nat) (s : State) (c : Nat) : State :=
  let inChan := fun (a : Nat) => decide (a / chanSize = c)
  { s with
      mem := clearRange s.mem (c * chanSize) chanSize
      poison := s.poison.filter fun x => !((x.1 == .mem || x.1 == .hbm) && inChan (8 * x.2))
      l2 := s.l2.filter fun x => !(x.part == p && inChan (64 * x.line))
      vers := s.vers.filter fun v => !(v.part == p && inChan v.pa)
      tlb := s.tlb.filter fun e => !(e.part == p && inChan e.pa) }

/-- Note that a partition gives up calendar slots in this period (R245). -/
def freeSlots (s : State) (l : List Nat) : State :=
  let now := s.pkg.cycle / 1024
  modPkg s fun k => { k with calFreed := (k.calFreed.filter fun x => x.2 == now) ++ l.map fun n => (n, now) }

/-- RESIZE_SCRUB (R245): the departing slots and FRAME values leave, then the departing bays and channels are scrubbed. -/
def execResizeScrub (p : Nat) (s : State) : Res :=
  let t := part s p
  if !t.rszBusy || t.rszStep != 5 then .next s
  else
    let s := (departingBays t).foldl clearKey s
    let s := (setBits (lacking (chansOf t) (joinWords t.rszNew 4 4)) 256).foldl (scrubChan p) s
    .next (releaseAll (toStep (freeSlots s (setBits (lacking t.cal.toNat (t.rszNew.getD 8 0).toNat) 64)) p 6))

/-- The entry and the registers take the new sets (R246). -/
def takeNewSets (t : Part) : Part :=
  let frames := if t.rszNew.getD 9 0 != 0 then t.rszNew.getD 9 0 else t.frames
  let put := fun (e : List Word) (kv : Nat × Word) => e.set kv.1 kv.2
  { t with
      gen := t.gen + 1, bays := BitVec.ofNat 128 (newBays t), cal := t.rszNew.getD 8 0, frames := frames, rszBusy := false, rszStep := 0
      ent := [(1, t.rszNew.getD 0 0), (2, t.rszNew.getD 1 0), (5, t.rszNew.getD 4 0), (6, t.rszNew.getD 5 0), (7, t.rszNew.getD 6 0),
        (8, t.rszNew.getD 7 0), (9, frames), (10, t.rszNew.getD 8 0)].foldl put t.ent
      prePending := false, preBusy := t.preBusy || t.prePending }

/-- RESIZE_COMPLETE (R246). The DATA word of a logged resize interrupt is not stated: it is a free value (log 20). -/
def execResizeComplete (p : Nat) (s : State) : Res :=
  let t := part s p
  if !t.rszBusy || t.rszStep != 6 then .next s
  else
    let s := modPart s p takeNewSets
    let s := putResult s (t.rszNew.getD 11 0).toNat (if t.rszKept then 6 else 0)
    let s := wakeAll s p
    let d := freshWord s
    let last := t.rszNew.getD 10 0
    .next (if bitAt last 6 then interrupt d.2 p 3 (fld last 0 6) d.1 else s)

end Sys2Proof.Machine
end

