-- ==== Sys2Proof/Machine/Partition.lean ====
section
/-! DEFINITION. Partitions: creation and destruction (R232–R238), writes to a live entry (R235, R247), and pre-emption
(R179, R180, R457–R460). -/
namespace Sys2Proof.Machine

/-! ### Creation (R234, R238) -/

/-- A reserved field of an entry is not zero, or an address of it breaks its alignment (R233). -/
def entryBad (e : List Word) : Bool :=
  let w := fun k => (e.getD k 0).toNat
  nbits (w 0) 9 54 != 0 || (e.drop 20).any (· != 0) || w 12 % 8192 != 0 || w 13 % 8192 != 0 ||
    [14, 15, 16, 17, 18, 19].any fun k => w k % 4096 != 0

/-- The write of VALID = 1 is refused for an entry (R234, R469, R471). -/
def createBad (s : State) (p : Nat) (e : List Word) : Bool :=
  let bays := joinWords e 1 2
  let chans := joinWords e 5 4
  let grp := fld (e.getD 0 0) 0 8
  s.pkg.phase != 5 || s.pkg.quiesce != .run || Nat.land chans s.pkg.chFail.toNat != 0 ||
    entryBad e || bays == 0 || joinWords e 3 2 == 0 || chans == 0 || ownedElsewhere s p bays chans (e.getD 10 0).toNat ||
    rangeBad (e.getD 9 0) || rangeTaken s p (e.getD 9 0) || (grp != 0 && otherLive s p fun t => fld (t.ent.getD 0 0) 0 8 == grp)

/-- Zero a run of guest physical memory through stage 2, up to a page that it does not translate; whether all was written. -/
def zeroPages (p : Nat) : Nat → State → Nat → Nat → State × Bool
  | 0, s, _, _ => (s, true)
  | k + 1, s, gpa, n =>
    if n == 0 then (s, true)
    else
      let here := Nat.min n (pow2 14 - gpa % pow2 14)
      match devWalk s p gpa true with
      | .error _ => (s, false)
      | .ok (s, pa) => zeroPages p k (zeroRange s pa here) (gpa + here) (n - here)

/-- The registers of a partition at its creation (R89, R234): those with a source in the entry, and the record numbers. -/
def bornPart (t : Part) (e : List Word) : Part :=
  { t with
      ent := e, gen := 0, bays := BitVec.ofNat 128 (joinWords e 1 2), det := bitAt (e.getD 0 0) 8, frames := e.getD 9 0, cal := e.getD 10 0
      enBudget := e.getD 11 0, recSeq := 0, ilSeq := 0 }

/-- A write of VALID = 1 with word w of the entry (R234, R238). -/
def createPart (s : State) (p : Nat) (w : Word) : State :=
  let e := (part s p).ent.set 0 w
  if createBad s p e then refuseWrite s
  else match zeroPages p 514 s (e.getD 14 0).toNat (8 * (rangeOf (e.getD 9 0)).2) with
    | (s, false) => refuseWrite s
    | (s, true) => modPart s p fun t => bornPart t e

/-- PARTITION_CREATE (R234): VALID = 1 is written over the entry as it stands. -/
def execPartitionCreate (p : Nat) (s : State) : Res :=
  .next (if live s p || decide (64 ≤ p) then s
    else createPart s p (BitVec.ofNat 64 (putFld (entWord s p 0).toNat 63 1 1)))

/-! ### Destruction (R236) -/

/-- The partition's work and everything that it holds go. -/
def dropWork (s : State) (p : Nat) : State :=
  let keys := stateKeys s p
  let mineBay := fun (b r : Nat) => keys.contains b || s.regions.any fun x => x.part == p && x.bay == b && x.idx == r
  { s with
      frames := s.frames.filter (·.part != p), blocks := s.blocks.filter (·.part != p), slots := s.slots.filter (·.part != p)
      queues := s.queues.filter (·.part != p), net := s.net.filter (·.part != p), ready := s.ready.filter (·.part != p)
      pipe := s.pipe.filter (·.part != p), waits := s.waits.filter (·.part != p), stores := s.stores.filter (·.part != p)
      placed := s.placed.filter (·.part != p), exitgs := s.exitgs.filter (·.part != p), regions := s.regions.filter (·.part != p)
      ctxs := s.ctxs.filter fun c => !mineBay c.bay c.region
      entries := s.entries.filter (·.part != p), streams := s.streams.filter (·.part != p), tlb := s.tlb.filter (·.part != p)
      walks := s.walks.filter (·.part != p), pageFaults := s.pageFaults.filter (·.part != p), l2 := s.l2.filter (·.part != p)
      vers := s.vers.filter (·.part != p), cmds := s.cmds.filter (·.part != p), qfences := s.qfences.filter fun q => !(if q.lq then q.home == p else keys.contains q.home)
      deferred := s.deferred.filter (·.part != p), images := s.images.filter (·.part != p)
      completions := s.completions.filter (·.part != p), invals := s.invals.filter (·.part != p)
      pkg := { s.pkg with hfqWait := s.pkg.hfqWait.filter fun r => r.pkg || r.part != p } }

/-- The state of a partition number whose partition is gone (R95): its entry stays as written but for VALID, and its
virtual function keeps its own (R193). -/
def deadPart (t : Part) : Part :=
  { Part.reset with
      ent := t.ent.set 0 (BitVec.ofNat 64 (putFld ((t.ent.getD 0 0).toNat) 63 1 0))
      vdGen := t.vdGen, vdRes := t.vdRes, ilBase := t.ilBase, ilSize := t.ilSize, ilHead := t.ilHead, ilTail := t.ilTail, ilLost := t.ilLost }

/-- Discard, scrub and reset a settled partition (R127, R236). -/
def wipePart (s : State) (p : Nat) : State :=
  let keys := stateKeys s p
  let chans := setBits (ownedChans (part s p)) 256
  let s := keys.foldl clearKey (dropWork (freeSlots s (setBits (ownedSlots (part s p)) 64)) p)
  releaseAll (modPart (chans.foldl (scrubChan p) s) p deadPart)

/-- PARTITION_DESTROY (R236, R247): the partition is gated, and goes once it has settled. -/
def execPartitionDestroy (p : Nat) (s : State) : Res :=
  if !live s p then .next s
  else if (part s p).rszBusy then .next (resizeErr s p 3)
  else
    let s := modPart s p fun t => { t with dying := true }
    .next (if settledPart s p then wipePart s p else s)

/-! ### Writes to an entry (R234, R235, R247) -/

/-- PARTITION_ENTRY_WRITE: word v at byte offset `off` of entry p. The word that writes VALID = 0 stores its other fields, DET and
GROUP among them, at once, while VALID reads 1 until the partition has settled. DESIGN CHOICE, log 115. -/
def execPartitionEntryWrite (p off : Nat) (v : Word) (s : State) : Res :=
  let k := off / 8
  if decide (64 ≤ p) || off % 8 != 0 || decide (256 ≤ off) then .next (refuseWrite s)
  else if live s p then
    (if k == 11 then .next (modPart s p fun t => { t with ent := t.ent.set 11 v, enBudget := v })
    else if k == 12 then .next (modPart s p fun t => { t with ent := t.ent.set 12 v })
    else if k == 0 && !bitAt v 63 then
      execPartitionDestroy p (if (part s p).rszBusy then s
        else modPart s p fun t => { t with ent := t.ent.set 0 (v ||| BitVec.ofNat 64 (pow2 63)) })
    else .next (if (part s p).rszBusy then resizeErr s p 2 else refuseWrite s))
  else if k == 0 && bitAt v 63 then .next (createPart s p v)
  else .next (modPart s p fun t => { t with ent := t.ent.set k v })

/-! ### Pre-emption (R179, R457) -/

/-- PRE_CTL_SAVE (R179, R457): the partition is gated; during a resize the request takes effect at its completion. -/
def execPreCtlSave (p : Nat) (s : State) : Res :=
  let t := part s p
  .next (if !live s p then refuseWrite s
    else if t.preBusy then preErr s p 1
    else if t.preSaved then preErr s p 3
    else if t.rszBusy then modPart s p fun t => { t with prePending := true }
    else modPart s p fun t => { t with preBusy := true })

/-- Bring a bay's work to another bay with nothing in it, each frame in its row, and each block and region in its place. -/
def shiftBay (s : State) (p a b : Nat) : State :=
  let s := (s.frames.filter fun f => f.part == p && f.bay == a && f.resident).foldl (fun s f => bringFrame s f b f.row (blocksOf s p f.num)) s
  let s := (s.regions.filter fun r => r.part == p && r.bay == a).foldl (fun s r => moveRegion s r ⟨b, r.idx, 0, r.x0, r.y0, r.c0⟩) s
  rekey (departRest [b] s p a) p a b

/-- The state of a bay goes to the save area. -/
def saveBay (p : Nat) (s : State) (b : Nat) : State :=
  let v := freshBay s
  modPart (shiftBay v.2 p b v.1) p fun t => { t with saved := t.saved ++ [(b, v.1)] }

/-- The header of the save area (R458). -/
def saveHeader (s : State) (p n : Nat) : List Byte :=
  toBytes 8 (0x5356 * pow2 48 + n * pow2 40) ++ toBytes 8 (part s p).gen.toNat ++ toBytes 8 s.pkg.podTime.toNat ++ List.replicate 40 0

/-- The size of a save area (R458). -/
def saveSize (bays : Nat) : Nat := pow2 20 + pow2 24 * bays

/-- The save area of a partition is written or read through stage 2 (R506): the header's physical address. A stage-2 fault of
this access is none of the settle step's, so its record goes out at once. -/
def saveTouch (s : State) (p bays : Nat) (store : Bool) : Except State (State × Nat) :=
  let back := fun (s : State) => modPart s p fun t => { t with preBusy := true }
  match devTouch (modPart s p fun t => { t with preBusy := false }) p (entWord s p 19).toNat (saveSize bays) store with
  | .error s => .error (back s)
  | .ok s => (devAddr s p (entWord s p 19).toNat store).map fun x => (back x.1, x.2)

/-- PREEMPT_SETTLED (R179, R458): the state of a settled partition goes to its save area, the header last. -/
def execPreemptSettled (p : Nat) (s : State) : Res :=
  let t := part s p
  if !t.preBusy || t.preSaved || !settledPart s p then .next s
  else match saveTouch s p (baysOf s p).length true with
    | .error s => .next s
    | .ok (s, pa) =>
      let l := baysOf s p
      let s := pokeBytes (l.foldl (saveBay p) s) pa (saveHeader s p l.length)
      .next (modPart s p fun t => { t with preBusy := false, preSaved := true })

/-! ### Restore (R459) -/

/-- A page fault's address still does not translate. -/
def stillFaults (s : State) (f : PageFault) : Bool :=
  if f.stage2 then (match stage2 s f.part f.va with | .ok _ => false | .error _ => true)
  else (match walk1 s f.part f.va 4 1 (entWord s f.part 12).toNat [] with | .ok _ => false | .error _ => true)

/-- The held accesses of a partition walk again (R179): those whose page now translates go on. -/
def rewalk (s : State) (p : Nat) : State :=
  let s := unholdCmds { s with pageFaults := s.pageFaults.filter fun f => f.part != p || stillFaults s f } p
  (s.completions.filter fun c => c.part == p).foldl (fun s c => retryCompletion s c.id) s

/-- Put the saved state into the bays that the partition holds now, as step 2 of a resize does; `.error` waits for a stage-2
fault on a parked image. -/
def restoreBays (s : State) (p : Nat) : Except State State :=
  let t := part s p
  let now := setBits (if t.rszBusy then newBays t else t.bays.toNat) 128
  let sv := t.saved
  let same := sv.filter fun x => now.contains x.1
  let gone := sv.filter fun x => !now.contains x.1
  let come := now.filter fun b => !(sv.any fun x => x.1 == b)
  match cellarItem s p (4718592 * (gone.length - come.length)) true with
  | .error s => .error s
  | .ok s =>
    let s := modPart s p fun t => { t with saved := [], preSaved := false }
    let s := same.foldl (fun s x => shiftBay s p x.2 x.1) s
    let s := passKeys p gone come s
    .ok (gone.foldl (fun s x => departWork now [] p s x.2) s)

/-- The records for the hypervisor that a settle step made are delivered (R180). -/
def releaseHv (s : State) (p : Nat) : State :=
  (part s p).hvQ.foldl (fun s x => hfqWrite s x.1 x.2) (modPart s p fun t => { t with hvQ := [] })

/-- A restored partition goes on (R179, R459): faults of the settle step are delivered, armed waitms return, held accesses walk
again, and the due timed records enter their queues before intake resumes. -/
def resumePart (s : State) (p : Nat) : State :=
  let s := rewalk (wakeAll (releaseHv (modPart s p fun t => { t with preBusy := false }) p) p) p
  (part s p).timed.foldl (fun s _ => match dueBy (·.start.toNat) (part s p) s.pkg.podTime with
    | some x => releaseTimed s p x
    | none => s) s

/-- PRE_CTL_RESTORE (R459): the header is checked, and the saved state placed. -/
def execPreCtlRestore (p : Nat) (s : State) : Res :=
  let t := part s p
  if !live s p then .next (refuseWrite s)
  else if !t.preSaved then .next (preErr s p (if t.preBusy then 1 else 3))
  else match saveTouch s p t.saved.length false with
    | .error s => .next s
    | .ok (s, pa) =>
      let h := rd64 s.mem pa
      if fld h 48 16 != 0x5356 || fld h 40 8 != t.saved.length then .next (preErr (modPart s p fun t => { t with preBusy := false }) p 2)
      else match restoreBays s p with
        | .error s => .next s
        | .ok s => .next (resumePart s p)

end Sys2Proof.Machine
end

