-- ==== Sys2Proof/Machine/Time.lean ====
section
/-! DEFINITION. What comes with time: the tick (R198, R239), held bays (R267), reconciliation and power capping (R268,
R274), watchdogs (R273). -/
namespace Sys2Proof.Machine

/-! ### The tick -/

/-- The ticks that POD_TIME advances by in this cycle (R198): 2 or 0 in place of 1 towards the parent, at most once in 256
cycles; and the first cycle of the next such correction with what is left to correct. -/
def slew (k : Pkg) : Nat × Nat × Int :=
  if k.drift == 0 || decide (k.cycle < k.slewAt) then (1, k.slewAt, k.drift)
  else if 0 < k.drift then (2, k.cycle + 256, k.drift - 1) else (0, k.cycle + 256, k.drift + 1)

/-- One cycle passes in the package. -/
def tickPkg (k : Pkg) : Pkg :=
  let w := slew k
  { k with podTime := k.podTime + BitVec.ofNat 64 w.1, cycle := k.cycle + 1, slewAt := w.2.1, drift := w.2.2
           ports := k.ports.map fun x => { x with sent := [] } }

/-- The wait counts of the ready instances rise (R177); those in a save area keep theirs (R179). -/
def ageReady (s : State) : State := { s with ready := s.ready.map fun i => if savedAway s i.part then i else { i with wait := i.wait + 1 } }

/-- A calendar period has ended. -/
def periodEnd (s : State) : Bool := s.pkg.cycle % 1024 == 0

/-- A partition after this cycle: one more cycle of its slots, if it is one (R273); none is counted while it is saved away. -/
def wdTick (s : State) (p : Nat) : Part :=
  let t := part s p
  if live s p && !t.preSaved && (setBits (calSlots t) 64).contains (slotNow s) then { t with wdCycles := t.wdCycles + 1 } else t

/-- POD_TIME_TICK (R198, R239): a cycle passes; ports transmit, packets whose time has come are delivered, waiting work is
placed; the end of a calendar period is an event of its own. The cycle counts for the watchdog of each partition whose slot it
is (R273). -/
def execPodTimeTick (s : State) : Res :=
  let s := { s with parts := (List.range s.parts.length).map (wdTick s) }
  let s := setWml (modPkg (ageReady { s with issued := [] }) tickPkg)
  let s := (List.range 24).foldl transmit s
  let s := deliverOrd s
  let s := ((List.range 64).filter (live s)).foldl placeParked s
  .next (if periodEnd s then { s with script := s.script ++ [.ev .bayHeldCalendarPeriod] } else s)

/-! ### Held bays (R267) -/

/-- The bays that a partition owns are held for a period. The tree that a held bay's charge falls to is not stated: a free
value picks a live tree, or none (log 20). -/
def heldBays (s : State) (p : Nat) : State :=
  let n := members (ownedBays (part s p)) 128
  let trees := (part s p).trees.filter (·.live)
  (List.range n).foldl (fun s _ =>
    match trees with
    | [] => chargeFj s p none (costOf 7)
    | _ => (let r := freshWord s; chargeFj r.2 p ((trees[r.1.toNat % (trees.length + 1)]?).map (·.id)) (costOf 7))) s

/-- BAY_HELD_CALENDAR_PERIOD (R267). -/
def execBayHeldCalendarPeriod (s : State) : Res := .next (((List.range 64).filter (live s)).foldl heldBays s)

/-! ### Reconciliation and capping (R268, R274) -/

/-- The integer nearest to a fraction; the part's own choice half way between two. -/
def nearest (a : Int) (b : Nat) : Int :=
  let q := a / (b : Int)
  let r := 2 * (a % (b : Int))
  if (b : Int) < r || (r == (b : Int) && Sys2Proof.Config.tieUp) then q + 1 else q

/-- d of R268 for a partition with charge m, of a total M, against E − I, the rail energy without the charge of unowned
resources. -/
def reconcile (m tot : Nat) (e : Int) : Int :=
  if tot == 0 then 0
  else if 2 * e ≤ (tot : Int) then nearest (-(m : Int)) 2
  else if 2 * (tot : Int) ≤ e then (m : Int)
  else nearest ((m : Int) * (e - (tot : Int))) tot

/-- Apply a difference (R268), and begin the next millisecond. -/
def settleEnergy (tot : Nat) (e : Int) (t : Part) : Part :=
  let d := reconcile t.msCharge tot e
  let t := { t with msCharge := 0 }
  if 0 ≤ d then { t with enUsed := t.enUsed + BitVec.ofInt 64 d } else { t with enCredit := t.enCredit + BitVec.ofInt 64 (-d) }

/-- h after a reconciliation (R274). -/
def nextHold (h p c : Nat) : Nat :=
  if c < p then Nat.min 63 (h + (64 * (p - c) + p - 1) / p)
  else if 16 * p ≤ 15 * c && 0 < h then h - 1 else h

/-- The cycles of a millisecond (R268). -/
def msCycles : Nat := 2500000

/-- The millisecond that a reconciliation closes, by its number: one that has ended and none has closed yet. -/
def msNow (k : Pkg) : Nat := k.cycle / msCycles

/-- I of R268 for a millisecond, in femtojoules: the flits charged to no partition, and what else of the package belongs to none,
which is the part's own (log 99). -/
def unownedFj (s : State) : Nat := s.pkg.infra + (Sys2Proof.Config.unownedCharge (msNow s.pkg)).toNat * 1000000

/-- ENERGY_RECONCILIATION (R268, R274): once for every millisecond; `rail` is the rails' energy in it, in nanojoules. E − I and M
are taken in femtojoules, so that their quotient is exact. -/
def execEnergyReconciliation (rail : Nat) (s : State) : Res :=
  if msNow s.pkg ≤ s.pkg.recMs then .next s
  else
    let tot := (s.parts.map (·.msCharge)).sum
    let e : Int := ((rail * 1000000 : Nat) : Int) - (unownedFj s : Nat)
    let w := rail / 1000000
    let s := { s with parts := s.parts.map (settleEnergy (tot * 1000000) e) }
    .next (modPkg s fun k =>
      { k with power := BitVec.ofNat 32 w, pcHold := nextHold k.pcHold w k.pcap.toNat, infra := 0, recMs := msNow k })

/-- What a write of PKG_PCAP stores (R274). -/
def pcapOf (v : Nat) : BitVec 32 := BitVec.ofNat 32 (Nat.max 800 (Nat.min 3200 v))

/-- PKG_PCAP_WRITE (R274): a write of the management port. It stands against the window's of the same cycle (R468). -/
def execPkgPcapWrite (v : Nat) (s : State) : Res :=
  .next (if s.pkg.phase == 15 then s else modPkg s fun k => { k with pcap := pcapOf v, pcapAt := some k.cycle })

/-! ### Watchdogs (R273) -/

/-- No progress since a count of the cycles of owned slots, for WD_LIMIT of them. -/
def wdOver (s : State) (p since : Nat) : Bool :=
  let t := part s p
  t.wdLimit != 0 && decide (since ≤ t.wdCycles) && decide (t.wdLimit.toNat ≤ t.wdCycles - since)

/-- A frame has operands waiting. -/
def operandsWait (s : State) (p f : Nat) : Bool :=
  (s.slots.any fun x => x.part == p && x.frame == f && x.blk.isSome) || s.queues.any fun e => e.part == p && e.blk.isSome && e.tok.tag.frame.toNat == f

/-- A frame waits at joinc, waitm or ldv. -/
def waitsByRight (s : State) (p f : Nat) : Bool :=
  s.waits.any fun i => i.grid.isNone && i.part == p && i.tag.frame.toNat == f && (opOf i.word == 0x80 || opOf i.word == 0xA4 || opOf i.word == 0x9C)

/-- A count that no run reaches: a frame or a region reported by the watchdog has its progress there until it fires again. -/
def reported : Nat := pow2 64

/-- Report a hit: WD_HITS, WD_LAST and the interrupt. -/
def wdReport (s : State) (p : Nat) (last : BitVec 32) : State :=
  interrupt (modPart s p fun t => { t with wdHits := satInc t.wdHits, wdLast := last }) p 2 62 (BitVec.setWidth 64 last)

/-- WATCHDOG_HIT (R273): frame a of the partition, or region b of bay a. What WD_LAST names of a region beside its bit [31]
is not stated: it is a free value (log 20). -/
def execWatchdogHit (p : Nat) (region : Bool) (a b : Nat) (s : State) : Res :=
  if region then
    match region? s a b with
    | none => .next s
    | some r =>
      if r.part != p || r.fault.isSome || !s.queues.any (regionQueue r) || !wdOver s p r.progress then .next s
      else
        let v := freshWord (modRegion s a b fun r => { r with progress := reported })
        .next (wdReport v.2 p (BitVec.ofNat 32 (pow2 31 + fld v.1 0 31)))
  else
    match frame? s p a with
    | none => .next s
    | some f =>
      if !f.resident || !operandsWait s p a || waitsByRight s p a || !wdOver s p f.progress then .next s
      else .next (wdReport (modFrame s p a fun f => { f with progress := reported }) p (BitVec.ofNat 32 a))

end Sys2Proof.Machine
end

