-- ==== Sys2Proof/Machine/Mgmt.lean ====
section
/-! DEFINITION. Management, bring-up and the host (R461, R467–R471): firmware, attestation, quiesce, the time root, reset,
and host accesses to guest memory. -/
namespace Sys2Proof.Machine

/-! ### Bring-up (R470, R471) -/

/-- The digest of stage k: that of an accepted update for the first. -/
def stageOf (k : Pkg) (n : Nat) : BitVec 512 := match n, k.fwDigest with
  | 0, some d => d
  | n, _ => Sys2Proof.Config.stageDigest n

/-- M := SHA-512(M ‖ digest) (R470). -/
def extend (m d : BitVec 512) : BitVec 512 := BitVec.ofNat 512 (ofBytes (sha512 (toBytes 64 m.toNat ++ toBytes 64 d.toNat)))

/-- Firmware is verified: register k takes the digest of stage k (log 16). -/
def verified (k : Pkg) : Pkg :=
  { k with phase := 1, fwOk := true, meas := (List.range 8).map fun n => extend (k.meas.getD n 0) (stageOf k n) }

/-- Every port has either reached state 5 or failed three times (R471). -/
def portsSettled (k : Pkg) : Bool := (List.range 24).all fun n => k.portsUp.getLsbD n || decide (3 ≤ (k.ports.getD n Port.reset).fails)

/-- The host links that train: the two are independent of each other (R461). Those that `failed` names do not; one that is up
stays up. -/
def trainLinks (failed : BitVec 256) (k : Pkg) : List Bool := (List.range 2).map fun n => k.pcieUp.getD n false || !failed.getLsbD n

/-- BRING_UP_PHASE (R471): the next phase; `ok` is what verification or training answers, `failed` the channels, or the host
links, that failed. PCIe has trained once a link has; in the ready state a link that is down trains again (R461). -/
def execBringUpPhase (ok : Bool) (failed : BitVec 256) (s : State) : Res :=
  let ph := s.pkg.phase
  .next (if ph == 0 then modPkg s fun k => if ok then verified k else { k with phase := 15, fwOk := false }
    else if ph == 1 then modPkg s fun k => { k with phase := 2, chFail := failed }
    else if ph == 2 then (if ok && (trainLinks failed s.pkg).any id then modPkg s fun k => { k with phase := 3, pcieUp := trainLinks failed k } else s)
    else if ph == 5 then (if ok then modPkg s fun k => { k with pcieUp := trainLinks failed k } else s)
    else if (ph == 3 || ph == 4) && portsSettled s.pkg then modPkg s fun k => { k with phase := ph + 1 }
    else s)

/-- FIRMWARE_UPDATE (R470): an image that passes verification is kept for the next boot; a package that stays in reset
for want of one boots again. -/
def execFirmwareUpdate (image : List Byte) (s : State) : Res :=
  .next (if Sys2Proof.Config.firmwareAccepted image then
      modPkg s fun k => { k with fwDigest := some (BitVec.ofNat 512 (ofBytes (sha512 image))), phase := if k.phase == 15 then 0 else k.phase }
    else s)

/-- PACKAGE_RESET (R89, R234, R467): every resource is scrubbed and every state card at its reset value. Host memory, the
package's number and the firmware that it holds are not of that state. -/
def execPackageReset (s : State) : Res :=
  .next { State.reset with
    mem := s.mem.filter fun c => decide (0x8000000000000 ≤ c.1), script := s.script, fresh := s.fresh
    pkg := { Pkg.reset with number := s.pkg.number, fwDigest := s.pkg.fwDigest } }

/-! ### The management port (R467–R469) -/

/-- A package whose firmware was refused accepts an update alone (R470). -/
def mgmtTakes (s : State) : Bool := s.pkg.phase != 15

/-- TROOT_WRITE (R467): it takes effect at the next time lock of each port. -/
def execTrootWrite (v : Bool) (s : State) : Res := .next (if mgmtTakes s then modPkg s fun k => { k with troot := v, gaveUp := false } else s)

/-- Some partition is live. -/
def anyLive (s : State) : Bool := (List.range 64).any (live s)

/-- Destroy the live partitions (R236, R469). -/
def destroyAll (s : State) : State :=
  (List.range 64).foldl (fun s p => match execPartitionDestroy p s with
    | .next s => s
    | _ => s) s

/-- Each up port sends LEAVE and leaves. -/
def leavePorts (s : State) : State :=
  (List.range 24).foldl (fun s k => if portUp s k then sendCtl (closePort s k 6) k .leave else s) s

/-- Some port is up. -/
def upPorts (s : State) : Bool := (List.range 24).any (portUp s)

/-- QUIESCE_REQUEST (R469): in RUN it starts, refused with status BUSY while a partition is live unless FORCE destroys them;
in QUIESCING it goes on: the ports leave, then HBM enters self-refresh. -/
def execQuiesceRequest (force : Bool) (s : State) : Res :=
  .next (if !mgmtTakes s then s else match s.pkg.quiesce with
    | .run => if anyLive s && !force then modPkg s fun k => { k with refusedBusy := true }
      else destroyAll (modPkg s fun k => { k with quiesce := .quiescing, refusedBusy := false })
    | .quiescing =>
      if anyLive s then destroyAll s
      else if upPorts s then leavePorts s
      else modPkg s fun k => { k with quiesce := .quiesced }
    | .quiesced => s)

/-- QUIESCE_ABORT (R469): back to RUN; ports in state 6 train again. -/
def execQuiesceAbort (s : State) : Res :=
  .next (match s.pkg.quiesce with
    | .quiescing => modPkg s fun k => { k with quiesce := .run, ports := k.ports.map fun x => if x.state == 6 then { x with state := 0, fails := 0 } else x }
    | _ => s)

/-! ### Attestation (R470) -/

/-- What a report holds of a live partition. -/
def partReport (s : State) (p : Nat) : List Word :=
  let t := part s p
  let e := t.ent
  [BitVec.ofNat 64 p, BitVec.setWidth 64 t.gen, if bitAt (e.getD 0 0) 8 then 1 else 0, BitVec.ofNat 64 (fld (e.getD 0 0) 0 8)] ++
    (e.drop 1).take 8 ++ [e.getD 9 0, e.getD 10 0]

/-- A report for a nonce (R470): the nonce, the eight measurements, the fields of each live partition, and the signature over
all of it. The widths are the model's (DESIGN CHOICE, log 16). A PLDM request that carries a nonce is answered with it. -/
def attReport (s : State) (nonce : List Byte) : List Byte :=
  let body := nonce ++ s.pkg.meas.flatMap (fun m => toBytes 64 m.toNat) ++
    ((List.range 64).filter (live s)).flatMap fun p => (partReport s p).flatMap fun w => toBytes 8 w.toNat
  body ++ Sys2Proof.Config.attestationSignature body

/-- ATT_REQ (R470): the report for the nonce at a physical address goes behind it. -/
def execAttReq (nonce : Word) (s : State) : Res :=
  let a := nonce.toNat
  if !paOk a then .next s
  else .next (pokeBytes s (a + 64) (attReport s (rdBytes s.mem a 64)))

/-! ### What the management port reads (R468) -/

/-- The temperature of sensor k. -/
def mgmtTemperature (s : State) (k : Nat) : Int := Sys2Proof.Config.temperature k s.pkg.cycle

/-- PKG_POWER, and the error log. -/
def mgmtPower (s : State) : BitVec 32 := s.pkg.power
def mgmtLog (s : State) : List FaultRec := s.pkg.errLog

/-- KEY_SLOT_WRITE (R249): the fourth word loads the key. -/
def execKeySlotWrite (p k : Nat) (v : Word) (s : State) : Res :=
  if 4 ≤ k then .next s
  else .next (modPart s p fun t =>
    let w := t.keyWords.set k v
    if k == 3 then { t with keyWords := w, key := some (BitVec.ofNat 256 (joinWords w 0 4)), epoch := t.epoch + 1, sealCnt := 0 }
    else { t with keyWords := w })

/-! ### The host links (R461) -/

/-- PCIE_LINK_DOWN (R461): the other link carries its traffic. -/
def execPcieLinkDown (link : Nat) (s : State) : Res := .next (modPkg s fun k => { k with pcieUp := k.pcieUp.set link false })

/-- The host reaches the package: a link is up (R461, R471). -/
def hostLink (s : State) : Bool := s.pkg.pcieUp.any id

/-- Read n bytes at a guest physical address: the bytes, up to a page that stage 2 does not translate (Unsupported Request), and
the state with A set in the leaves that were used. -/
def guestRead (p : Nat) : Nat → State → Nat → Nat → State × Option (List Byte)
  | 0, s, _, _ => (s, some [])
  | k + 1, s, gpa, n =>
    if n == 0 then (s, some [])
    else
      let here := Nat.min n (pow2 14 - gpa % pow2 14)
      match devWalk s p gpa false with
      | .error _ => (s, none)
      | .ok (s, pa) =>
        let r := guestRead p k s (gpa + here) (n - here)
        (charge r.1 p none 5 ((here + 63) / 64), r.2.map fun l => rdBytes s.mem pa here ++ l)

/-- Write bytes at a guest physical address page by page, as far as stage 2 translates. -/
def guestWrite (p : Nat) : Nat → State → Nat → List Byte → State
  | 0, s, _, _ => s
  | k + 1, s, gpa, bs =>
    if bs.isEmpty then s
    else
      let here := Nat.min bs.length (pow2 14 - gpa % pow2 14)
      match devWalk s p gpa true with
      | .error _ => s
      | .ok (s, pa) => guestWrite p k (charge (pokeBytes s pa (bs.take here)) p none 5 ((here + 63) / 64)) (gpa + here) (bs.drop here)

/-- HOST_BAR2_ACCESS (R461): an access that stage 2 cannot translate completes with Unsupported Request and opens no fault. What
a read of `size` bytes returns is guestRead's; it leaves the A bits of its pages behind. -/
def execHostBar2Access (p gpa size : Nat) (write : Option (List Byte)) (s : State) : Res :=
  let n := (write.map List.length).getD size
  .next (if !hostLink s || !live s p || decide (pow2 36 < gpa + n) then s
    else match write with
      | some bs => guestWrite p (n / 16384 + 2) s gpa bs
      | none => (guestRead p (n / 16384 + 2) s gpa n).1)

end Sys2Proof.Machine
end

