-- ==== Sys2Proof/Machine/Window.lean ====
section
/-! DEFINITION. The hypervisor window (R82, R462): what a write to each offset does, and what each offset reads as. -/
namespace Sys2Proof.Machine

/-- A write to a register that takes only zero (R265, R456). -/
def zeroOnly (s : State) (v : Word) (clear : State → State) : State := if v == 0 then clear s else refuseWrite s

/-- A ring or log size: a power of two from 16 to 65,536 (R193, R456). -/
def sizeOk (v : Word) : Bool := (List.range 13).any fun k => v.toNat == pow2 (k + 4)

/-- A 32-bit register's value of a written word. -/
def low32 (v : Word) : BitVec 32 := BitVec.setWidth 32 v

/-- The state of an event that always goes on. -/
def goOn (s : State) : Res → State
  | .next t => t
  | _ => s

/-- A write of PRE_CTL (R457): each action bit that is set, from bit 0 up. While a save or a restore runs a write is refused, but
for one that releases a halt alone (R506). DEDUCED, log 119. -/
def writePreCtl (p : Nat) (v : Word) (s : State) : State :=
  if (part s p).preBusy && fld v 0 3 != 4 then preErr s p 1
  else
  let s := if bitAt v 0 then goOn s (execPreCtlSave p s) else s
  let s := if bitAt v 1 then goOn s (execPreCtlRestore p s) else s
  if bitAt v 2 then goOn s (execPreCtlUnhalt p s) else s

/-- A write of a partition's system register n (R82, R89): each by its Access column. PART_DET, PART_FRAMES and CAL_SLOTS of a
partition that is not live take their values from its entry at creation (R82, R233): such a write, which R82 does not refuse,
changes nothing (R3). DESIGN CHOICE, log 101. -/
def writeSysReg (p n : Nat) (v : Word) (s : State) : State :=
  if n == 0x015 then goOn s (execResizeGo p v s)
  else if n == 0x016 then modPart s p fun t => { t with detTimeOk := bitAt v 0 }
  else if n == 0x020 then modPart s p fun t => { t with trapVec := v }
  else if n == 0x041 then modPart s p fun t => { t with enBudget := v }
  else if n == 0x060 then zeroOnly s v fun s => modPart s p fun t => { t with widthAch := 0 }
  else if n == 0x071 then modPart s p fun t => { t with occLimit := low32 v }
  else if (n == 0x013 || n == 0x014 || n == 0x080) && !live s p then s
  else refuseWrite s

/-- A write to the named registers of a partition block, from offset 0x1000 (R462). -/
def writeBlockReg (p o : Nat) (v : Word) (s : State) : State :=
  if o == 0x1000 then writePreCtl p v s
  else if o == 0x1008 then modPart s p fun t => { t with vdGen := low32 v }
  else if o == 0x1010 then goOn s (execVdResWrite p (bitAt v 0) s)
  else if o == 0x1018 then (if v.toNat % 4096 == 0 then modPart s p fun t => { t with ilBase := v } else refuseWrite s)
  else if o == 0x1020 then (if sizeOk v then modPart s p fun t => { t with ilSize := low32 v } else refuseWrite s)
  else if o == 0x1030 then modPart s p fun t => { t with ilTail := low32 v }
  else if o == 0x1038 then zeroOnly s v fun s => modPart s p fun t => { t with ilLost := 0 }
  else if o == 0x1040 then modPart s p fun t => { t with wdLimit := low32 v }
  else if o == 0x1048 then zeroOnly s v fun s => modPart s p fun t => { t with wdHits := 0 }
  else if o == 0x1058 then zeroOnly s v fun s => modPart s p fun t => { t with trapLost := 0 }
  else if 0x1100 ≤ o && decide (o < 0x1120) then goOn s (execKeySlotWrite p ((o - 0x1100) / 8) v s)
  else refuseWrite s

/-- A write to a partition block. -/
def writeBlock (p o : Nat) (v : Word) (s : State) : State := if o < 0x1000 then writeSysReg p (o / 8) v s else writeBlockReg p o v s

/-- The partition whose waiting fault a SEQ names: HFQ_ANS has no field for it, so the lowest that has one (log 34). -/
def answerPart (s : State) (seq : Nat) : Option Nat := (List.range 64).find? fun p => (heldFault s p seq).isSome || (heldCall s p seq).isSome

/-- A write of HFQ_ANS (R456). -/
def writeAnswer (v : Word) (s : State) : State :=
  let seq := fld v 0 32
  if fld v 32 30 != 0 then refuseWrite s
  else match answerPart s seq with
    | none => s
    | some p =>
      if fld v 62 2 == 0 then goOn s (execHfqRelease p seq s)
      else if fld v 62 2 == 2 then goOn s (execHfqAbort p seq s) else s

/-- A write to the package's registers (R462). -/
def writePkgReg (o : Nat) (v : Word) (s : State) : State :=
  if o == 0x0 then (if bitAt v 0 then modPkg s fun k => { k with winRefused := false } else s)
  else if 0x100 ≤ o && decide (o < 0x120) then
    let s := modPkg s fun k => { k with invWords := k.invWords.set ((o - 0x100) / 8) v }
    (if o == 0x118 then goOn s (execInvalidationSubmit (BitVec.ofNat 256 (joinWords s.pkg.invWords 0 4)) s) else s)
  else if o == 0x1008 then modPkg s fun k => { k with wmTimeout := low32 v }
  else if o == 0x1010 then (if s.pkg.pcapAt == some s.pkg.cycle then s else modPkg s fun k => { k with pcap := pcapOf v.toNat })
  else if o == 0x2000 then (if v.toNat % 4096 == 0 then modPkg s fun k => { k with hfqBase := v } else refuseWrite s)
  else if o == 0x2008 then (if sizeOk v then hfqFlush (modPkg s fun k => { k with hfqSize := low32 v }) else refuseWrite s)
  else if o == 0x2018 then hfqFlush (modPkg s fun k => { k with hfqTail := low32 v })
  else if o == 0x2020 then zeroOnly s v fun s => modPkg s fun k => { k with hfqLost := 0 }
  else if o == 0x2028 then modPkg s fun k => { k with hfqAnsv := v }
  else if o == 0x2030 then writeAnswer v s
  else if o == 0x3008 then goOn s (execOrdExclWrite v s)
  else if o == 0x3010 then zeroOnly s v fun s => modPkg s fun k => { k with ordStat := 0 }
  else if o == 0x3018 then zeroOnly s v fun s => modPkg s fun k => { k with ordLate := 0 }
  else if o == 0x3020 then zeroOnly s v fun s => modPkg s fun k => { k with ordDrop := 0 }
  else if o == 0x8000 then goOn s (execAttReq v s)
  else refuseWrite s

/-- An access that the window takes: 8 aligned bytes (R462). -/
def windowTakes (off size : Nat) : Bool := off % 8 == 0 && size == 8

/-- A write of `size` bytes to an offset of the window. -/
def writeWindow (off size : Nat) (v : Word) (s : State) : State :=
  if !windowTakes off size then refuseWrite s
  else if off < 0x10000 then writePkgReg off v s
  else if off < 0x14000 then goOn s (execPartitionEntryWrite ((off - 0x10000) / 0x100) (off % 0x100) v s)
  else if 0x100000 ≤ off && decide (off < 0x500000) then writeBlock ((off - 0x100000) / 0x10000) (off % 0x10000) v s
  else refuseWrite s

/-- WINDOW_REGISTER_WRITE (R82, R462): the window answers once PCIe has trained (R471). -/
def execWindowRegisterWrite (off : WindowPlace) (v : Word) (s : State) : Res := .next (if hostLink s then writeWindow off.off off.size v s else s)

/-! ### Reads (R462) -/

/-- BRING_STAT (R471). -/
def bringStat (k : Pkg) : Word := BitVec.ofNat 64 (k.phase * pow2 60 + (if k.troot then pow2 59 else 0) + k.portsUp.toNat)

/-- LNK_STAT (R465). -/
def lnkStat (x : Port) : Word :=
  BitVec.ofNat 64 (x.state * pow2 61 + (match x.spared with | some l => pow2 60 + l % 16 * pow2 56 | none => 0) + (if x.tpar then pow2 55 else 0) + x.retry.toNat)

/-- PRE_CTL as it reads (R457). -/
def preCtl (t : Part) : Word :=
  BitVec.ofNat 64 ((if t.preBusy then pow2 63 else 0) + (if t.preSaved then pow2 62 else 0) + (if t.preHalted then pow2 61 else 0) + t.preErr % 8 * pow2 58)

/-- A partition block as it reads: registers of frame or package scope read 0, and so does the key slot. The one address of the
128-bit PART_BAYS returns bits [63:0]. DESIGN CHOICE, log 102. -/
def readBlock (s : State) (p o : Nat) : Word :=
  let t := part s p
  if o < 0x1000 then
    (let n := o / 8
     if n == 0x001 || n == 0x002 || n == 0x003 || n == 0x042 || n == 0x050 || n == 0x051 || n == 0x0F0 || n == 0x0F1 then 0
     else if [0x010, 0x011, 0x012, 0x013, 0x014, 0x015, 0x016, 0x020, 0x030, 0x040, 0x041, 0x060, 0x070, 0x071, 0x080].contains n then
       srValue { s with cur := { Inst.empty with part := p } } n false
     else 0)
  else if o == 0x1000 then preCtl t
  else if o == 0x1008 then BitVec.setWidth 64 t.vdGen
  else if o == 0x1010 then (if t.vdRes then 1 else 0)
  else if o == 0x1018 then t.ilBase
  else if o == 0x1020 then BitVec.setWidth 64 t.ilSize
  else if o == 0x1028 then BitVec.setWidth 64 t.ilHead
  else if o == 0x1030 then BitVec.setWidth 64 t.ilTail
  else if o == 0x1038 then BitVec.setWidth 64 t.ilLost
  else if o == 0x1040 then BitVec.setWidth 64 t.wdLimit
  else if o == 0x1048 then BitVec.setWidth 64 t.wdHits
  else if o == 0x1050 then BitVec.setWidth 64 t.wdLast
  else if o == 0x1058 then BitVec.setWidth 64 t.trapLost
  else if o == 0x1060 then t.enCredit
  else if o == 0x1068 then BitVec.setWidth 64 t.epoch
  else if o == 0x1070 then t.sealCnt
  else 0

/-- A partition table entry's word as it reads: reserved fields read 0 (R4, R233). -/
def readEntry (s : State) (p k : Nat) : Word :=
  let w := entWord s p k
  if k == 0 then BitVec.ofNat 64 (putFld w.toNat 9 54 0)
  else if k == 9 then BitVec.ofNat 64 (fld w 32 21 * pow2 32 + fld w 0 20)
  else if 20 ≤ k then 0 else w

/-- A word of the invalidation descriptor as it reads (R4, R112). -/
def readInv (k : Pkg) (n : Nat) : Word :=
  let w := k.invWords.getD n 0
  if n == 1 then BitVec.ofNat 64 (fld w 0 42) else if n == 3 then 0 else w

/-- The package's registers as they read. -/
def readPkgReg (s : State) (o : Nat) : Word :=
  let k := s.pkg
  if o == 0x0 then (if k.winRefused then 1 else 0)
  else if o == 0x8 then bringStat k
  else if 0x10 ≤ o && decide (o < 0x30) then BitVec.ofNat 64 (nbits k.chFail.toNat (8 * (o - 0x10)) 64)
  else if 0x100 ≤ o && decide (o < 0x120) then readInv k ((o - 0x100) / 8)
  else if o == 0x1000 then k.podTime
  else if o == 0x1008 then BitVec.setWidth 64 k.wmTimeout
  else if o == 0x1010 then BitVec.setWidth 64 k.pcap
  else if o == 0x1018 then BitVec.setWidth 64 k.power
  else if o == 0x1020 then BitVec.ofNat 64 k.pcHold
  else if 0x1080 ≤ o && decide (o < 0x1100) then BitVec.ofNat 64 (costOf ((o - 0x1080) / 8))
  else if o == 0x2000 then k.hfqBase
  else if o == 0x2008 then BitVec.setWidth 64 k.hfqSize
  else if o == 0x2010 then BitVec.setWidth 64 k.hfqHead
  else if o == 0x2018 then BitVec.setWidth 64 k.hfqTail
  else if o == 0x2020 then BitVec.setWidth 64 k.hfqLost
  else if o == 0x2028 then k.hfqAnsv
  else if o == 0x3000 then BitVec.setWidth 64 k.front
  else if o == 0x3008 then BitVec.setWidth 64 k.ordExcl
  else if o == 0x3010 then BitVec.setWidth 64 k.ordStat
  else if o == 0x3018 then BitVec.setWidth 64 k.ordLate
  else if o == 0x3020 then BitVec.setWidth 64 k.ordDrop
  else if 0x4000 ≤ o && decide (o < 0x40C0) then lnkStat (k.ports.getD ((o - 0x4000) / 8) Port.reset)
  else if 0x5000 ≤ o && decide (o < 0x5400) then BitVec.ofNat 64 (vsFree s ((o - 0x5000) / 8))
  else 0

/-- What a read of `size` bytes at an offset of the window returns; 0 for an access that it does not take, and before PCIe has
trained, when nothing answers (R471). -/
def readWindow (s : State) (off size : Nat) : Word :=
  if !windowTakes off size || !hostLink s then 0
  else if off < 0x10000 then readPkgReg s off
  else if off < 0x14000 then readEntry s ((off - 0x10000) / 0x100) (off % 0x100 / 8)
  else if 0x100000 ≤ off && decide (off < 0x500000) then readBlock s ((off - 0x100000) / 0x10000) (off % 0x10000)
  else 0

end Sys2Proof.Machine
end

