-- ==== Sys2Proof/Machine/Dispatch.lean ====
section
/-! DEFINITION. The dispatch of every instruction and event to its meaning, arm by arm. -/
namespace Sys2Proof.Machine

/-- The meaning of an instruction or event in a state. -/
def exec (i : Instr) (s : State) : Host.Outcome State Fault Refusal :=
  match i with
  | .nop => Sys2Proof.Machine.execNop s
  | .read f => Sys2Proof.Machine.execRead f s
  | .mov f => Sys2Proof.Machine.execMov f s
  | .mov4 f => Sys2Proof.Machine.execMov4 f s
  | .const f => Sys2Proof.Machine.execConst f s
  | .consth f => Sys2Proof.Machine.execConsth f s
  | .null f => Sys2Proof.Machine.execNull f s
  | .add f => Sys2Proof.Machine.execAdd f s
  | .sub f => Sys2Proof.Machine.execSub f s
  | .mul f => Sys2Proof.Machine.execMul f s
  | .mulh f => Sys2Proof.Machine.execMulh f s
  | .mad f => Sys2Proof.Machine.execMad f s
  | .div f => Sys2Proof.Machine.execDiv f s
  | .rem f => Sys2Proof.Machine.execRem f s
  | .neg f => Sys2Proof.Machine.execNeg f s
  | .abs f => Sys2Proof.Machine.execAbs f s
  | .min f => Sys2Proof.Machine.execMin f s
  | .max f => Sys2Proof.Machine.execMax f s
  | .and f => Sys2Proof.Machine.execAnd f s
  | .or f => Sys2Proof.Machine.execOr f s
  | .xor f => Sys2Proof.Machine.execXor f s
  | .andn f => Sys2Proof.Machine.execAndn f s
  | .orn f => Sys2Proof.Machine.execOrn f s
  | .not f => Sys2Proof.Machine.execNot f s
  | .shl f => Sys2Proof.Machine.execShl f s
  | .shr f => Sys2Proof.Machine.execShr f s
  | .sha f => Sys2Proof.Machine.execSha f s
  | .rot f => Sys2Proof.Machine.execRot f s
  | .clz f => Sys2Proof.Machine.execClz f s
  | .ctz f => Sys2Proof.Machine.execCtz f s
  | .popc f => Sys2Proof.Machine.execPopc f s
  | .brev f => Sys2Proof.Machine.execBrev f s
  | .bfx f => Sys2Proof.Machine.execBfx f s
  | .bfi f => Sys2Proof.Machine.execBfi f s
  | .sel f => Sys2Proof.Machine.execSel f s
  | .sext f => Sys2Proof.Machine.execSext f s
  | .zext f => Sys2Proof.Machine.execZext f s
  | .adda f => Sys2Proof.Machine.execAdda f s
  | .lea f => Sys2Proof.Machine.execLea f s
  | .alignd f => Sys2Proof.Machine.execAlignd f s
  | .canon f => Sys2Proof.Machine.execCanon f s
  | .cmp hi f => Sys2Proof.Machine.execCmp hi f s
  | .tst f => Sys2Proof.Machine.execTst f s
  | .fadd f => Sys2Proof.Machine.execFadd f s
  | .fsub f => Sys2Proof.Machine.execFsub f s
  | .fmul f => Sys2Proof.Machine.execFmul f s
  | .fma f => Sys2Proof.Machine.execFma f s
  | .fmin f => Sys2Proof.Machine.execFmin f s
  | .fmax f => Sys2Proof.Machine.execFmax f s
  | .fabs f => Sys2Proof.Machine.execFabs f s
  | .fneg f => Sys2Proof.Machine.execFneg f s
  | .fcpsgn f => Sys2Proof.Machine.execFcpsgn f s
  | .fdiv f => Sys2Proof.Machine.execFdiv f s
  | .fsqrt f => Sys2Proof.Machine.execFsqrt f s
  | .frcp f => Sys2Proof.Machine.execFrcp f s
  | .frsq f => Sys2Proof.Machine.execFrsq f s
  | .fexp2 f => Sys2Proof.Machine.execFexp2 f s
  | .flog2 f => Sys2Proof.Machine.execFlog2 f s
  | .ftanh f => Sys2Proof.Machine.execFtanh f s
  | .fround f => Sys2Proof.Machine.execFround f s
  | .fclass f => Sys2Proof.Machine.execFclass f s
  | .fcmp hi f => Sys2Proof.Machine.execFcmp hi f s
  | .fdot2 f => Sys2Proof.Machine.execFdot2 f s
  | .cvtfi f => Sys2Proof.Machine.execCvtfi f s
  | .cvtif f => Sys2Proof.Machine.execCvtif f s
  | .fcvt f => Sys2Proof.Machine.execFcvt f s
  | .fwid f => Sys2Proof.Machine.execFwid f s
  | .pack2 f => Sys2Proof.Machine.execPack2 f s
  | .unpack f => Sys2Proof.Machine.execUnpack f s
  | .steer f => Sys2Proof.Machine.execSteer f s
  | .mergeU f => Sys2Proof.Machine.execMergeU f s
  | .mergeO f => Sys2Proof.Machine.execMergeO f s
  | .gate f => Sys2Proof.Machine.execGate f s
  | .join f => Sys2Proof.Machine.execJoin f s
  | .red f => Sys2Proof.Machine.execRed f s
  | .wadv f => Sys2Proof.Machine.execWadv f s
  | .wreset f => Sys2Proof.Machine.execWreset f s
  | .kbound f => Sys2Proof.Machine.execKbound f s
  | .eos f => Sys2Proof.Machine.execEos f s
  | .eosq f => Sys2Proof.Machine.execEosq f s
  | .exit f => Sys2Proof.Machine.execExit f s
  | .exitg f => Sys2Proof.Machine.execExitg f s
  | .call f => Sys2Proof.Machine.execCall f s
  | .ret f => Sys2Proof.Machine.execRet f s
  | .spawn f => Sys2Proof.Machine.execSpawn f s
  | .joinc f => Sys2Proof.Machine.execJoinc f s
  | .gcall f => Sys2Proof.Machine.execGcall f s
  | .gret f => Sys2Proof.Machine.execGret f s
  | .cfgreq f => Sys2Proof.Machine.execCfgreq f s
  | .cfgrel f => Sys2Proof.Machine.execCfgrel f s
  | .cfgtok f => Sys2Proof.Machine.execCfgtok f s
  | .drain f => Sys2Proof.Machine.execDrain f s
  | .sklat f => Sys2Proof.Machine.execSklat f s
  | .skmix f => Sys2Proof.Machine.execSkmix f s
  | .skadd f => Sys2Proof.Machine.execSkadd f s
  | .sknorm f => Sys2Proof.Machine.execSknorm f s
  | .skemb f => Sys2Proof.Machine.execSkemb f s
  | .skpos f => Sys2Proof.Machine.execSkpos f s
  | .skhash f => Sys2Proof.Machine.execSkhash f s
  | .skrd f => Sys2Proof.Machine.execSkrd f s
  | .skclr f => Sys2Proof.Machine.execSkclr f s
  | .collapseMax f => Sys2Proof.Machine.execCollapseMax f s
  | .collapseMix f => Sys2Proof.Machine.execCollapseMix f s
  | .collapseCdf f => Sys2Proof.Machine.execCollapseCdf f s
  | .ld f => Sys2Proof.Machine.execLd f s
  | .st f => Sys2Proof.Machine.execSt f s
  | .lds f => Sys2Proof.Machine.execLds f s
  | .sts f => Sys2Proof.Machine.execSts f s
  | .ldv f => Sys2Proof.Machine.execLdv f s
  | .stv f => Sys2Proof.Machine.execStv f s
  | .reclaim f => Sys2Proof.Machine.execReclaim f s
  | .stream f => Sys2Proof.Machine.execStream f s
  | .streamKvBind f => Sys2Proof.Machine.execStreamKvBind f s
  | .pref f => Sys2Proof.Machine.execPref f s
  | .fence f => Sys2Proof.Machine.execFence f s
  | .qfence f => Sys2Proof.Machine.execQfence f s
  | .monitor f => Sys2Proof.Machine.execMonitor f s
  | .waitm f => Sys2Proof.Machine.execWaitm f s
  | .amoAdd f => Sys2Proof.Machine.execAmoAdd f s
  | .amoAnd f => Sys2Proof.Machine.execAmoAnd f s
  | .amoOr f => Sys2Proof.Machine.execAmoOr f s
  | .amoXor f => Sys2Proof.Machine.execAmoXor f s
  | .amoMin f => Sys2Proof.Machine.execAmoMin f s
  | .amoMax f => Sys2Proof.Machine.execAmoMax f s
  | .amoXchg f => Sys2Proof.Machine.execAmoXchg f s
  | .amoFadd f => Sys2Proof.Machine.execAmoFadd f s
  | .amoFmin f => Sys2Proof.Machine.execAmoFmin f s
  | .amoFmax f => Sys2Proof.Machine.execAmoFmax f s
  | .cas f => Sys2Proof.Machine.execCas f s
  | .cas2 f => Sys2Proof.Machine.execCas2 f s
  | .mm f => Sys2Proof.Machine.execMm f s
  | .acczero f => Sys2Proof.Machine.execAcczero f s
  | .accld f => Sys2Proof.Machine.execAccld f s
  | .accst f => Sys2Proof.Machine.execAccst f s
  | .copy f => Sys2Proof.Machine.execCopy f s
  | .gath f => Sys2Proof.Machine.execGath f s
  | .gathw f => Sys2Proof.Machine.execGathw f s
  | .scat f => Sys2Proof.Machine.execScat f s
  | .scatadd f => Sys2Proof.Machine.execScatadd f s
  | .tblswap f => Sys2Proof.Machine.execTblswap f s
  | .cbload f => Sys2Proof.Machine.execCbload f s
  | .coll f => Sys2Proof.Machine.execColl f s
  | .osend f => Sys2Proof.Machine.execOsend f s
  | .orecv f => Sys2Proof.Machine.execOrecv f s
  | .xsend f => Sys2Proof.Machine.execXsend f s
  | .xget f => Sys2Proof.Machine.execXget f s
  | .enghnd f => Sys2Proof.Machine.execEnghnd f s
  | .eng f => Sys2Proof.Machine.execEng f s
  | .qwait f => Sys2Proof.Machine.execQwait f s
  | .bar f => Sys2Proof.Machine.execBar f s
  | .bara f => Sys2Proof.Machine.execBara f s
  | .barw f => Sys2Proof.Machine.execBarw f s
  | .tnow f => Sys2Proof.Machine.execTnow f s
  | .attime f => Sys2Proof.Machine.execAttime f s
  | .elease f => Sys2Proof.Machine.execElease f s
  | .equery f => Sys2Proof.Machine.execEquery f s
  | .yield f => Sys2Proof.Machine.execYield f s
  | .rdsr f => Sys2Proof.Machine.execRdsr f s
  | .wrsr f => Sys2Proof.Machine.execWrsr f s
  | .trap f => Sys2Proof.Machine.execTrap f s
  | .brk f => Sys2Proof.Machine.execBrk f s
  | .hcall f => Sys2Proof.Machine.execHcall f s
  | .fpcset f => Sys2Proof.Machine.execFpcset f s
  | .ckpt f => Sys2Proof.Machine.execCkpt f s
  | .event f => Sys2Proof.Machine.execEvent f s
  | .tokenArrival n => Sys2Proof.Machine.execTokenArrival n s
  | .collisionRetry n => Sys2Proof.Machine.execCollisionRetry n s
  | .gangIssue bay cell => Sys2Proof.Machine.execGangIssue bay cell s
  | .priorityAging n => Sys2Proof.Machine.execPriorityAging n s
  | .blockFetch part frame exitNo => Sys2Proof.Machine.execBlockFetch part frame exitNo s
  | .blockPlacement part frame => Sys2Proof.Machine.execBlockPlacement part frame s
  | .blockCommit part frame => Sys2Proof.Machine.execBlockCommit part frame s
  | .exitgResume n => Sys2Proof.Machine.execExitgResume n s
  | .regionPlacement n => Sys2Proof.Machine.execRegionPlacement n s
  | .regionDrainComplete bay region => Sys2Proof.Machine.execRegionDrainComplete bay region s
  | .gcallSettled bay region => Sys2Proof.Machine.execGcallSettled bay region s
  | .gretThaw bay region => Sys2Proof.Machine.execGretThaw bay region s
  | .hostLaunchIntake part => Sys2Proof.Machine.execHostLaunchIntake part s
  | .timedLaunchRelease part => Sys2Proof.Machine.execTimedLaunchRelease part s
  | .launchAdmission part => Sys2Proof.Machine.execLaunchAdmission part s
  | .frameReload part bay => Sys2Proof.Machine.execFrameReload part bay s
  | .deferredSpawnAllocation part bay => Sys2Proof.Machine.execDeferredSpawnAllocation part bay s
  | .inboxAppend vf link off bytes => Sys2Proof.Machine.execInboxAppend vf link off bytes s
  | .hostEngineMessageIntake part => Sys2Proof.Machine.execHostEngineMessageIntake part s
  | .handlerInstallCommand r => Sys2Proof.Machine.execHandlerInstallCommand r s
  | .mmCommand r n => Sys2Proof.Machine.execMmCommand r n s
  | .acczeroCommand r => Sys2Proof.Machine.execAcczeroCommand r s
  | .accldCommand r n => Sys2Proof.Machine.execAccldCommand r n s
  | .accstCommand r n => Sys2Proof.Machine.execAccstCommand r n s
  | .copyCommand r n => Sys2Proof.Machine.execCopyCommand r n s
  | .copySeal r => Sys2Proof.Machine.execCopySeal r s
  | .copyOpen r => Sys2Proof.Machine.execCopyOpen r s
  | .gathCommand r n replies => Sys2Proof.Machine.execGathCommand r n replies s
  | .gathwCommand r n replies => Sys2Proof.Machine.execGathwCommand r n replies s
  | .scatCommand r n replies => Sys2Proof.Machine.execScatCommand r n replies s
  | .scataddCommand r n perm replies => Sys2Proof.Machine.execScataddCommand r n perm replies s
  | .tblswapCommand r => Sys2Proof.Machine.execTblswapCommand r s
  | .cbloadCommand r => Sys2Proof.Machine.execCbloadCommand r s
  | .collCommand r others => Sys2Proof.Machine.execCollCommand r others s
  | .osendCommand r routes => Sys2Proof.Machine.execOsendCommand r routes s
  | .orecvCommand r => Sys2Proof.Machine.execOrecvCommand r s
  | .xsendCommand r reply => Sys2Proof.Machine.execXsendCommand r reply s
  | .xgetCommand r reply => Sys2Proof.Machine.execXgetCommand r reply s
  | .commandRetirement r => Sys2Proof.Machine.execCommandRetirement r s
  | .vdResWrite part v => Sys2Proof.Machine.execVdResWrite part v s
  | .functionLevelReset part => Sys2Proof.Machine.execFunctionLevelReset part s
  | .pageWalk n => Sys2Proof.Machine.execPageWalk n s
  | .streamElementIssue bay slot => Sys2Proof.Machine.execStreamElementIssue bay slot s
  | .accessPlacement n => Sys2Proof.Machine.execAccessPlacement n s
  | .deterministicApply n => Sys2Proof.Machine.execDeterministicApply n s
  | .configEccRecovery bay region => Sys2Proof.Machine.execConfigEccRecovery bay region s
  | .checkpointRecovery bay region => Sys2Proof.Machine.execCheckpointRecovery bay region s
  | .invalidationSubmit d => Sys2Proof.Machine.execInvalidationSubmit d s
  | .invalidationDone n => Sys2Proof.Machine.execInvalidationDone n s
  | .waitmTimeout n => Sys2Proof.Machine.execWaitmTimeout n s
  | .spuriousWake n => Sys2Proof.Machine.execSpuriousWake n s
  | .yieldExpiry n => Sys2Proof.Machine.execYieldExpiry n s
  | .trapFrameAllocation part => Sys2Proof.Machine.execTrapFrameAllocation part s
  | .hfqRelease part seq => Sys2Proof.Machine.execHfqRelease part seq s
  | .hfqAbort part seq => Sys2Proof.Machine.execHfqAbort part seq s
  | .preCtlSave part => Sys2Proof.Machine.execPreCtlSave part s
  | .preemptSettled part => Sys2Proof.Machine.execPreemptSettled part s
  | .preCtlRestore part => Sys2Proof.Machine.execPreCtlRestore part s
  | .preCtlUnhalt part => Sys2Proof.Machine.execPreCtlUnhalt part s
  | .partitionCreate part => Sys2Proof.Machine.execPartitionCreate part s
  | .partitionDestroy part => Sys2Proof.Machine.execPartitionDestroy part s
  | .partitionEntryWrite part off v => Sys2Proof.Machine.execPartitionEntryWrite part off v s
  | .resizeGo part v => Sys2Proof.Machine.execResizeGo part v s
  | .resizeMigrate part order => Sys2Proof.Machine.execResizeMigrate part order s
  | .resizeSliceRehash part => Sys2Proof.Machine.execResizeSliceRehash part s
  | .resizeChannelRehash part => Sys2Proof.Machine.execResizeChannelRehash part s
  | .resizeScrub part => Sys2Proof.Machine.execResizeScrub part s
  | .resizeComplete part => Sys2Proof.Machine.execResizeComplete part s
  | .windowRegisterWrite off v => Sys2Proof.Machine.execWindowRegisterWrite off v s
  | .watchdogHit part region a b => Sys2Proof.Machine.execWatchdogHit part region a b s
  | .podTimeTick => Sys2Proof.Machine.execPodTimeTick s
  | .beaconSend port => Sys2Proof.Machine.execBeaconSend port s
  | .beaconReceive port hdr => Sys2Proof.Machine.execBeaconReceive port hdr s
  | .ordPacketArrival port hdr payload => Sys2Proof.Machine.execOrdPacketArrival port hdr payload s
  | .orderedHoldMove part => Sys2Proof.Machine.execOrderedHoldMove part s
  | .fWmstall => Sys2Proof.Machine.execFWmstall s
  | .trainingRetry port => Sys2Proof.Machine.execTrainingRetry port s
  | .quiesceRequest force => Sys2Proof.Machine.execQuiesceRequest force s
  | .flitReceive port flit => Sys2Proof.Machine.execFlitReceive port flit s
  | .flitReplay port fseq => Sys2Proof.Machine.execFlitReplay port fseq s
  | .laneSpare port lane => Sys2Proof.Machine.execLaneSpare port lane s
  | .portTraining port info => Sys2Proof.Machine.execPortTraining port info s
  | .leaveFlit port => Sys2Proof.Machine.execLeaveFlit port s
  | .trootWrite v => Sys2Proof.Machine.execTrootWrite v s
  | .quiesceAbort => Sys2Proof.Machine.execQuiesceAbort s
  | .firmwareUpdate image => Sys2Proof.Machine.execFirmwareUpdate image s
  | .attReq nonce => Sys2Proof.Machine.execAttReq nonce s
  | .bringUpPhase ok failed => Sys2Proof.Machine.execBringUpPhase ok failed s
  | .pcieLinkDown link => Sys2Proof.Machine.execPcieLinkDown link s
  | .hostBar2Access part gpa size write => Sys2Proof.Machine.execHostBar2Access part gpa size write s
  | .remoteAccess part va size write => Sys2Proof.Machine.execRemoteAccess part va size write s
  | .keySlotWrite part k v => Sys2Proof.Machine.execKeySlotWrite part k v s
  | .ordExclWrite v => Sys2Proof.Machine.execOrdExclWrite v s
  | .pkgPcapWrite v => Sys2Proof.Machine.execPkgPcapWrite v s
  | .energyReconciliation rail => Sys2Proof.Machine.execEnergyReconciliation rail s
  | .packageReset => Sys2Proof.Machine.execPackageReset s
  | .bayHeldCalendarPeriod => Sys2Proof.Machine.execBayHeldCalendarPeriod s

end Sys2Proof.Machine
end

