-- ==== Sys2Proof/Machine/Next.lean ====
section
/-! DEFINITION. What a step runs when the pipeline is empty: the script's next entry, else the first event that
changes the machine, in one fixed order, else the tick of time (log 1). -/
namespace Sys2Proof.Machine

/-- The constructor that an instance runs as: the opcode table gives stream's DIR 0b10 a row of its own (R385, R386). -/
def resolve (i : Instr) (s : State) : Instr :=
  match i with
  | .stream f => if fld (opC s) 62 2 == 2 then .streamKvBind f else .stream f
  | j => j

/-- Run an instance with its word decoded. -/
def runInst (i : Inst) (s : State) : Res :=
  let t := { s with cur := i }
  match decodeWord i.word with
  | .ok j => exec (resolve j t) t
  | .error _ => .fault .undecodedWord

/-- A waiting instance can go on: one that lies in a save area stays (R179), and an access crosses the network only in a slot that
its partition owns (R20, R239; log 123). -/
def mayRetry (s : State) (i : Inst) : Bool := !savedAway s i.part && (!walks? (opOf i.word) || inSlot s i.part)

/-- Retry a waiting instance: it leaves the list of those that wait and enters the pipeline. -/
def retryInst (n : Nat) (s : State) : Res :=
  match s.waits[n]? with
  | some i => .next (if mayRetry s i then wakeInst s n i else s)
  | none => .fault .emptyRetry

/-- A retry of the waiting instance would do more than put it back. -/
def retryHelps (s : State) (n : Nat) : Bool :=
  match s.waits[n]? with
  | none => false
  | some i => mayRetry s i &&
    let rest := { s with waits := dropAt n s.waits }
    match runInst i rest with
    | .next t => !decide ({ t with cur := s.cur, waits := [] } = { rest with waits := [] }) || t.waits.length < s.waits.length
    | _ => false

/-- A remote command reaches this package alone, or fails here: it needs no answer. `k` is its remote operand beat. -/
def answersHere (s : State) (c : Cmd) (k : Nat) : Bool :=
  match (if c.issued then some c.beats else formBeats s c) with
  | none => true
  | some l => rmPkg (l.getD k 0) == s.pkg.number.toNat || groupOf s c.part == 0

/-- The event that performs the command at the head of its queue, by its opcode (R182, R394), where it needs no answer
from another package. -/
def cmdEvent (s : State) (c : Cmd) : Option Instr :=
  if c.status.isSome then some (.commandRetirement c.r)
  else match mEop c.hdr with
    | 0x08 => some (.handlerInstallCommand c.r)
    | 0x10 => some (.mmCommand c.r 1)
    | 0x11 => some (.acczeroCommand c.r)
    | 0x12 => some (.accldCommand c.r 1)
    | 0x13 => some (.accstCommand c.r 1)
    | 0x20 => some (if headMode s c.r == some 1 then .copySeal c.r else if headMode s c.r == some 2 then .copyOpen c.r else .copyCommand c.r 1)
    | 0x28 => some (.gathCommand c.r 1 [])
    | 0x29 => some (.gathwCommand c.r 1 [])
    | 0x2A => some (.scatCommand c.r 1 [])
    | 0x2B => some (.scataddCommand c.r 1 [] [])
    | 0x2C => some (.tblswapCommand c.r)
    | 0x2D => some (.cbloadCommand c.r)
    | 0x40 => some (.collCommand c.r ⟨[], []⟩)
    | 0x41 => some (.osendCommand c.r [])
    | 0x42 => some (.orecvCommand c.r)
    | 0x43 => if answersHere s c 1 then some (.xsendCommand c.r ⟨0, []⟩) else none
    | 0x44 => if answersHere s c 0 then some (.xgetCommand c.r ⟨0, []⟩) else none
    | _ => none

/-- The events that the machine can take of itself, in the model's order. -/
def candidates (s : State) : List Instr :=
  let parts := (List.range 64).filter (live s)
  let bays := parts.flatMap fun p => (baysOf s p).map fun b => (p, b)
  (List.range s.walks.length).map .pageWalk ++
  (List.range s.net.length).map .tokenArrival ++
  (List.range s.queues.length).map .collisionRetry ++
  (List.range s.waits.length).map .accessPlacement ++
  (List.range s.waits.length).map .deterministicApply ++
  s.frames.map (fun f => .blockCommit f.part f.num) ++
  s.frames.map (fun f => .blockPlacement f.part f.num) ++
  s.frames.map (fun f => .blockFetch f.part f.num none) ++
  (List.range s.exitgs.length).map .exitgResume ++
  parts.map .timedLaunchRelease ++
  parts.map .hostLaunchIntake ++
  parts.map .hostEngineMessageIntake ++
  parts.map .trapFrameAllocation ++
  parts.map .launchAdmission ++
  bays.map (fun x => .deferredSpawnAllocation x.1 x.2) ++
  bays.map (fun x => .frameReload x.1 x.2) ++
  s.cmds.filterMap (cmdEvent s) ++
  s.streams.map (fun x => .streamElementIssue x.bay x.slot) ++
  (List.range s.waits.length).map .regionPlacement ++
  s.regions.map (fun r => .regionDrainComplete r.bay r.idx) ++
  s.regions.map (fun r => .gcallSettled r.bay r.idx) ++
  s.regions.map (fun r => .gretThaw r.bay r.idx) ++
  (List.range s.waits.length).map .waitmTimeout ++
  (List.range s.waits.length).map .yieldExpiry ++
  (List.range s.invals.length).map .invalidationDone ++
  s.regions.map (fun r => .configEccRecovery r.bay r.idx) ++
  s.regions.map (fun r => .checkpointRecovery r.bay r.idx) ++
  parts.map .preemptSettled ++
  (parts.filter fun p => (part s p).preBusy && (part s p).preSaved).map .preCtlRestore ++
  (parts.filter fun p => (part s p).dying).map .partitionDestroy ++
  parts.map (fun p => .resizeMigrate p []) ++
  parts.map .resizeSliceRehash ++
  parts.map .resizeChannelRehash ++
  parts.map .resizeScrub ++
  parts.map .resizeComplete ++
  parts.map .orderedHoldMove ++
  (List.range 24).map .beaconSend ++
  (List.range 24).map .trainingRetry ++
  [.fWmstall, .energyReconciliation (Sys2Proof.Config.railEnergy (msNow s.pkg)).toNat] ++
  (if s.pkg.quiesce == .quiescing then [.quiesceRequest true] else []) ++
  s.frames.map (fun f => .watchdogHit f.part false f.num 0) ++
  s.regions.map (fun r => .watchdogHit r.part true r.bay r.idx) ++
  (List.range s.ready.length).map .priorityAging ++
  s.ready.map (fun i => .gangIssue i.bay i.cell)

/-- An event that changes the machine. -/
def acts (s : State) (e : Instr) : Bool :=
  match exec e s with
  | .next t => !decide (t = s)
  | _ => false

/-- The event that a step takes. -/
def nextEvent (s : State) : Option Instr := (candidates s).find? (acts s)

/-- The waiting instance that a step retries when no event acts. -/
def nextRetry (s : State) : Option Nat := (List.range s.waits.length).find? (retryHelps s)

/-- A step with an empty pipeline. -/
def idleStep (s : State) : Res :=
  match s.script with
  | .ev e :: rest => exec e { s with script := rest }
  | .retry n :: rest => retryInst n { s with script := rest }
  | [] =>
    match nextEvent s with
    | some e => exec e s
    | none =>
      match nextRetry s with
      | some n => retryInst n s
      | none => exec .podTimeTick s

/-- The operand that withFetchWord gives a slot of a placed word. -/
def fetchOperand : Option Operand := some ⟨.data, 0⟩

/-- An instance of a word with an operand in every slot, as matching forms it (R155, R161): of a grid when the word
may stand only there, else of a block. -/
def placedInst (w : Word) : Inst :=
  let i := { Inst.empty with word := w, a := fetchOperand, b := fetchOperand, c := fetchOperand, p := fetchOperand }
  match rowOfWord w with
  | some r => if r.stand == .grid then { i with grid := some 0 } else i
  | none => i

end Sys2Proof.Machine
end

