-- ==== Sys2Proof/Machine/Step.lean ====
section
/-! DEFINITION. One step of the machine: the instance at the head of the pipeline runs; with an empty pipeline an
event of the machine takes place (log 1). -/
namespace Sys2Proof.Machine

/-- One step. -/
def step (s : State) : Host.Outcome State Fault Refusal :=
  match s.pipe with
  | i :: rest => runInst i { s with pipe := rest }
  | [] => idleStep s

/-- The state with an instance of the instruction word `w` at the head of the pipeline, where step takes its next
instruction from: it stands for the placement and the matching that bring an instruction there (log 10). -/
def State.withFetchWord (s : State) (nbits w : Nat) : State :=
  { s with pipe := placedInst (BitVec.ofNat 64 (w % pow2 nbits)) :: s.pipe }

end Sys2Proof.Machine
end

