-- ==== Sys2Proof/Safety.lean ====
section
/-! DEFINITION. What claims call a safe run, and the words that they are stated in: an instance that performs its
operation, an access that takes its place and its turn, a translation that is held. -/
namespace Sys2Proof

open Sys2Proof.Machine

/-- The state can step. -/
def Runs (s : State) : Prop := ∃ t, step s = .next t

/-- A property that every step of the machine keeps. -/
def Kept (P : State → Prop) : Prop := ∀ s t, P s → step s = .next t → P t

/-- The canonical form of the three memories. -/
def MemInv (s : State) : Prop := Memory.wf s.mem = true ∧ Memory.wf s.shelf = true ∧ Memory.wf s.acc = true

/-- The current instance performs its operation: no operand is a marker or a null, its predicate holds, and its phase
does not pass slot a on (R27, R214, R293, R294). -/
abbrev Acts (pr : BitVec 2) (s : State) : Prop :=
  anyEos s.cur = false ∧ anyNull s.cur = false ∧ predOk pr s = true ∧ passes s.cur = false

/-- The current instance has its place in its chain. -/
def hasPlace (s : State) : Bool :=
  match s.cur.stage with
  | some k => decide (0 < k)
  | none => false

/-- The state once the current access has its place (R131). -/
def placedState (s : State) : State := if hasPlace s then s else placeCur s

/-- The current access performs: it has or takes its place, its block is the oldest where `o` asks that, and it is its
turn where `t` asks that, and no store that it follows is still to be performed (R130–R132, R137, R150, R373). -/
abbrev Accesses (pr : BitVec 2) (o t : Bool) (s : State) : Prop :=
  Acts pr s ∧ (hasPlace s || canPlace s) = true ∧ (!o || curOldest (placedState s)) = true ∧
    drainWait (placedState s) = false ∧ (!t || accessTurn (placedState s)) = true

/-- What the checks of R105 answer for the n bytes at ea that the current instance accesses. -/
abbrev checked (s : State) (ea : Int) (n algn : Nat) (store : Bool) : State × Acc :=
  checkRun s s.cur.bay s.cur.part ⟨store, false, curSup s, false, curTree s⟩ (tagWord s.cur.tag) ea n algn

/-- The run of n bytes at ea passes the checks of R105 for the current instance, in a state that becomes s1, as the runs
rs, none of them poisoned (R115). -/
abbrev Translates (s : State) (ea : Int) (n algn : Nat) (store : Bool) (s1 : State) (rs : List Run) : Prop :=
  checked s ea n algn store = (s1, .ok rs) ∧ poisonedAt s1 rs = none

/-- The run of n bytes at ea lies aligned in the shelf, is reached in the state u, and a load of it meets no poisoned word (R115,
R117, R242, R372). -/
abbrev ShelfHolds (s : State) (ea : Int) (n : Nat) (store : Bool) (u : State) : Prop :=
  ea % (n : Int) = 0 ∧ 0 ≤ ea ∧ ea + n ≤ (pow2 22 : Int) ∧ parkedTouch s s.cur.part (curKey s) ea.toNat n store = .ok u ∧
    (store || !u.poison.contains (.shelf, shelfKey (curKey s) ea.toNat / 8)) = true

/-- The accesses before the current instance's action are performed (R139, R146, R418, R434). -/
abbrev Settled (s : State) : Prop := curSettled s = true

/-- The current instance's block is the oldest, and the frame's committed stores are performed (R418). -/
abbrev Committed (s : State) : Prop := curOldest s = true ∧ storePending s s.cur.part (curFrame s) = false

/-- The n shelf bytes from a lie aligned in the shelf, are reached in the state u, and hold no poisoned word (R115, R242,
R418). -/
abbrev SoftHolds (s : State) (a n : Nat) (u : State) : Prop :=
  a % 4 = 0 ∧ a + n ≤ pow2 22 ∧ parkedTouch s s.cur.part (curKey s) a n false = .ok u ∧ shelfPoison u (shelfKey (curKey u) a) n = none

/-- The state once n shelf bytes were read (R265), and those bytes. -/
def softRead (s : State) (n : Nat) : State := charge s s.cur.part (curTree s) 3 ((n + 15) / 16)
def softBytes (s : State) (a n : Nat) : List Byte := rdBytes s.shelf (shelfKey (curKey s) a) n

/-- It is the current instance's turn among its block's engine messages (R394). -/
def inTurn (s : State) : Bool :=
  match curBlock s with
  | none => true
  | some b => s.cur.stage == some 4 || engPrior s b || engStuck s b

/-- The state once the current instance took that turn. -/
def turned (s : State) : State := if (curBlock s).isSome then modCur s fun i => { i with stage := some 4 } else s

/-- An engine instruction may send (R146, R394): it acts, the accesses before it are performed, and it is its turn. -/
abbrev Sends (pr : BitVec 2) (s : State) : Prop :=
  Acts pr s ∧ Settled s ∧ inTurn s = true

/-- The n beats of a message at address a, and the state once they were read, in their turn (R148, R394). -/
abbrev Beats (t : State) (a : Word) (n : Nat) (u : State) (l : List Beat) : Prop :=
  (n = 0 ∧ u = t ∧ l = []) ∨
    (n ≠ 0 ∧ accessTurn t = true ∧ ∃ s1 rs, Translates t (a.toNat : Int) (16 * n) 16 false s1 rs ∧ u = (readDesc s1 rs).2 ∧ l = beatsOf (readDesc s1 rs).1 n)

/-- An instruction that ends as x sends an accepted message from the state u: it enters its queue; a full queue or a gated
engine makes it wait (R179, R187, R242). -/
abbrev Pushes (x : Res) (u : State) (h : Beat) (l : List Beat) : Prop :=
  (bayGated u u.cur.part (curKey u) = false → queueHasRoom u (queueOf u.cur.part (curKey u) h) = true →
    x = .next (noteAct (markSent (pushCmd u u.cur.part (curKey u) h l (some (curSender u)))))) ∧
  (bayGated u u.cur.part (curKey u) = true ∨ queueHasRoom u (queueOf u.cur.part (curKey u) h) = false → x = .next (waitCur u))

/-- An instruction that ends as x offers a message from the state u: accepted, it enters its queue; refused, it faults
precisely; a full queue or a gated engine makes it wait (R179, R185, R187, R242, R394). -/
abbrev Offers (x : Res) (u : State) (h : Beat) (l : List Beat) : Prop :=
  (bayGated u u.cur.part (curKey u) = true → x = .next (waitCur u)) ∧
  (bayGated u u.cur.part (curKey u) = false → msgRefused u u.cur.part (curKey u) h l = none → Pushes x u h l) ∧
  (∀ r, bayGated u u.cur.part (curKey u) = false → msgRefused u u.cur.part (curKey u) h l = some r → x = .next (fault u r.1 r.2.1 r.2.2))

/-- A dedicated engine instruction offers a message of its EOP with the beats at a; none, but for enghnd, with a handler and a = 0
(R394, R395). -/
def SendsMessage (i : EFmt → Instr) (eop : Nat) : Prop :=
  ∀ (f : EFmt) (s u : State) (l : List Beat), Sends f.pr s →
    let t := turned s
    let n := if eop ≠ 0x08 ∧ f.hnd ≠ 0 ∧ opA t = 0 then 0 else needBeats eop - 1
    Beats t (opA t) n u l →
      Offers (exec (i f) s) u (mkHeader eop f.hnd.toNat f.q.toNat f.push.toNat f.pop.toNat n (argOf f u) (contOf f u)) l

/-- The command c stands at the head of queue r, bears EOP e, is issued and may go on: it is not ended and not held by a
page fault, its partition is not saved away and owns the slot, and it is its sender's turn in a deterministic partition (R143,
R150, R179, R239, R396). -/
abbrev InEngine (s : State) (r : QRef) (e : Nat) (c : Cmd) : Prop :=
  cmdHead s r = some c ∧ mEop c.hdr = e ∧ c.status = none ∧ c.held = false ∧ savedAway s c.part = false ∧ inSlot s c.part = true ∧
    c.issued = true ∧ cmdTurn s c = true ∧ cmd? s c.id = some c

/-- The command c at the head of queue r issues: it becomes d in the state t, in a slot that its partition owns, its bay
taking new work (R144, R146, R179, R188, R239, R242). -/
abbrev Issues (s : State) (r : QRef) (e : Nat) (c : Cmd) (t : State) (d : Cmd) : Prop :=
  cmdHead s r = some c ∧ mEop c.hdr = e ∧ c.status = none ∧ c.held = false ∧ savedAway s c.part = false ∧ inSlot s c.part = true ∧ c.issued = false ∧
    bayGated s c.part c.bay = false ∧ cmdTurn s c = true ∧ issueCmd s c = some t ∧ cmd? t c.id = some d ∧ d.status = none

/-- A read of an operand element, and a run of memory for a command, that answer (R396, R399). -/
abbrev Reads (s : State) (c : Cmd) (b : Beat) (t r k pp : Nat) (u : State) (v : Word) : Prop := readElem s c b t r k pp = (u, .val v)
abbrev ReadsAll (s : State) (c : Cmd) (b : Beat) (pp : Nat) (l : List (Nat × Nat × Nat)) (u : State) (vs : List Word) : Prop :=
  readElems s c b pp l [] = (u, .val vs)
abbrev RunsAt (s : State) (c : Cmd) (store : Bool) (va n algn : Nat) (u : State) (rs : List Run) : Prop :=
  cmdRuns s c store va n algn = (u, .val rs)

/-- m elements of a command, each of which answers, take it from the state s to its last position in t (R396). `f` performs
the element at the position. -/
inductive Performed (total : Nat) (f : State → Cmd → State) (id : Nat) : Nat → State → State → Prop
  | last (s : State) (c : Cmd) : cmd? s id = some c → c.status = none → c.held = false → total ≤ c.pos → Performed total f id 0 s s
  | elem (m : Nat) (s t : State) (c d : Cmd) : cmd? s id = some c → c.status = none → c.held = false → c.pos < total →
      cmd? (f s c) id = some d → d.status = none → d.held = false →
      Performed total f id m (modCmd (f s c) id fun c => { c with pos := c.pos + 1 }) t → Performed total f id (m + 1) s t

/-- The bytes of a command from its position on, each aligned word of the destination at dst as one piece, are taken and put
and take it from the state s to its last position in t (R396, R412). -/
inductive Carried (take_ : State → Nat → Nat → State × Got (List Byte)) (put : State → Nat → List Byte → State × Got Unit)
    (dst total id : Nat) : State → State → Prop
  | last (s : State) (c : Cmd) : cmd? s id = some c → c.status = none → c.held = false → total ≤ c.pos →
      Carried take_ put dst total id s s
  | word (s u v t : State) (c : Cmd) (bs : List Byte) : cmd? s id = some c → c.status = none → c.held = false → c.pos < total →
      take_ s c.pos (min (total - c.pos) (8 - (dst + c.pos) % 8)) = (u, .val bs) → put u c.pos bs = (v, .val ()) →
      Carried take_ put dst total id (modCmd v id fun x => { x with pos := c.pos + min (total - c.pos) (8 - (dst + c.pos) % 8) }) t →
      Carried take_ put dst total id s t

/-! ### What an instruction leaves -/

/-- The targets of an instruction whose effect stands behind the plain shell of R294, and its predicate control. -/
def shelled (i : Instr) : Option (BitVec 2 × List Tgt) :=
  match i with
  | .mov f | .const f | .consth f | .null f | .add f | .sub f | .mul f | .mulh f | .mad f | .div f | .rem f | .neg f | .abs f | .min f
  | .max f | .and f | .or f | .xor f | .andn f | .orn f | .not f | .shl f | .shr f | .sha f | .rot f | .clz f | .ctz f | .popc f
  | .brev f | .bfx f | .bfi f | .sel f | .sext f | .zext f | .adda f | .lea f | .alignd f | .canon f | .cmp _ f | .tst f | .fadd f
  | .fsub f | .fmul f | .fma f | .fmin f | .fmax f | .fabs f | .fneg f | .fcpsgn f | .fdiv f | .fsqrt f | .frcp f | .frsq f
  | .fexp2 f | .flog2 f | .ftanh f | .fround f | .fclass f | .fcmp _ f | .fdot2 f | .cvtfi f | .cvtif f | .fcvt f | .fwid f
  | .pack2 f | .unpack f | .gate f | .join f | .eos f | .skadd f | .sknorm f | .skrd f | .skclr f | .collapseMix f | .collapseCdf f =>
    some (f.pr, [f.t0, f.t1])
  | .mov4 f => some (f.pr, [f.t0, f.t1, f.t2, f.t3])
  | .tnow f | .equery f | .rdsr f | .wrsr f | .trap f => some (f.pr, [f.t0])
  | _ => none

/-- The registers of every frame (R65, R81, R87). -/
def frameRegs (s : State) : List (Nat × Nat × List Word × List (BitVec 512) × BitVec 7 × BitVec 5) :=
  s.frames.map fun f => (f.part, f.num, f.g, f.sk, f.fstat, f.fpc)

/-- A partition's registers and tables, but for the records that await a trap frame or the hypervisor's ring, and their
numbers (R180, R448, R450). -/
def bare (t : Part) : Part := { t with trapQ := [], trapLost := 0, recSeq := 0, hvQ := [] }

/-- Those of every partition. -/
def partRegs (s : State) : List Part := s.parts.map bare

/-- The package, but for what a record that enters the hypervisor's fault queue advances (R456). -/
def barePkg (k : Pkg) : Pkg := { k with hfqHead := 0, hfqLost := 0, errLog := [] }

/-- The ring of the hypervisor's fault queue, where a record goes that a trap frame raises (R450, R456). -/
def inHfq (s : State) (a : Nat) : Prop := s.pkg.hfqBase.toNat ≤ a ∧ a < s.pkg.hfqBase.toNat + 64 * s.pkg.hfqSize.toNat

/-- Registers of frames, the shelf, the accumulators and every byte of memory outside A stand; memory changes in that ring at
most besides. -/
def LeavesBytes (s t : State) (A : Nat → Prop) : Prop :=
  frameRegs t = frameRegs s ∧ t.shelf = s.shelf ∧ t.acc = s.acc ∧ ∀ a, ¬ A a → ¬ inHfq s a → rdByte t.mem a = rdByte s.mem a

/-- All that an instruction leaves which only computes and sends. -/
def Leaves (s t : State) : Prop :=
  LeavesBytes s t (fun _ => False) ∧ partRegs t = partRegs s ∧
    barePkg t.pkg = barePkg s.pkg ∧
    t.cmds = s.cmds ∧ t.sync = s.sync ∧ t.handlers = s.handlers ∧ t.codebooks = s.codebooks ∧ t.tlb = s.tlb ∧ t.l2 = s.l2 ∧ t.vers = s.vers

/-- The n bytes at ea that the current access stores to: from the physical address that its checks give it. -/
def storedAt (s : State) (ea : Int) (n : Nat) (a : Nat) : Prop :=
  ∃ s1 r rs, checked (placedState s) ea n n true = (s1, .ok (r :: rs)) ∧ r.pa ≤ a ∧ a < r.pa + n

end Sys2Proof
end

