-- ==== Sys2Proof/Certificates/Slice0/Obligations.lean ====
section
/-! DEFINITION. The statements for the provers. -/

open Sys2Proof Sys2Proof.Machine

/-! ### Encoding -/

/-- R293–R300, R305. For every instruction that is well formed and has a word, decoding that word gives the instruction back,
with every field at every value that its encoding admits. -/
def Obligations.EncodeThenDecode : Prop :=
  ∀ (i : Instr) (w : Word), i.wellFormed = true → encode i = some w → decodeWord w = .ok i

/-- R293–R300, R305. For every word that decodes, the instruction that it decodes to is well formed, and encoding it gives that
word back; so no two words stand for one instruction. -/
def Obligations.DecodeThenEncode : Prop :=
  ∀ (w : Word) (i : Instr), decodeWord w = .ok i → i.wellFormed = true ∧ encode i = some w

/-! ### Results of the plain families -/

/-- R310–R314. nop changes nothing; where it acts, mov sends slot a, const the value of its immediate for its type, consth slot
a shifted by 28 bits with the immediate behind it, null sends nulls, each to T0 and T1, and mov4 slot a to four targets; read of
a general register that has its value sends it, and read of a soft register hands the value to the soft registers of its
targets. -/
def Obligations.MovesDeliver : Prop :=
  (∀ s, exec .nop s = .next s) ∧
  (∀ (f : AFmt) s, Acts f.pr s →
    exec (.mov f) s = .next (send2 f s (opA s)) ∧
    exec (.const f) s = .next (send2 f s (immT f.ty.toNat f.imm)) ∧
    exec (.consth f) s = .next (send2 f s (putT f.ty.toNat ((bitsT f.ty.toNat (opA s) * 2 ^ 28 + f.imm.toNat : Nat) : Int))) ∧
    exec (.null f) s = .next (sendAll s [f.t0, f.t1] .null 0)) ∧
  (∀ (f : FFmt) s, Acts f.pr s → exec (.mov4 f) s = .next (sendAll s [f.t0, f.t1, f.t2, f.t3] .data (opA s))) ∧
  (∀ (f : AFmt) s v, f.md = 0 → readReg s (fld f.imm 0 6) = some v → exec (.read f) s = .next (send2 f s v)) ∧
  (∀ (f : AFmt) s v, f.md = 1 → readSoft s (fld f.imm 0 3) = some v →
    exec (.read f) s = .next (writeSoft (writeSoft s f.t0 (some v)) f.t1 (some v)))

/-- R315–R317. Each of add, sub, mul, mulh, mad, div, rem, neg, abs, min and max computes exactly over its operands as its type
reads them and delivers the result, saturated when MOD says so, to T0 and T1; division by zero gives all ones, and the dividend
as remainder. -/
def Obligations.IntegerArithmetic : Prop :=
  ∀ (f : AFmt) (s : State), Acts f.pr s →
    let x := xOf f s
    let y := yOf f s
    let out := fun (r : Int) => (.next (send2 f s (deliverT f.ty.toNat (f.md == 1) r)) : Res)
    exec (.add f) s = out (x + y) ∧
    exec (.sub f) s = out (x - y) ∧
    exec (.mul f) s = out (x * y) ∧
    exec (.mulh f) s = out (Int.fdiv (x * y) (2 ^ tyW f.ty.toNat)) ∧
    exec (.mad f) s = out (x * y + zOf f s) ∧
    (y ≠ 0 → exec (.div f) s = out (Int.tdiv x y)) ∧
    (y = 0 → exec (.div f) s = out (if tySgn f.ty.toNat then -1 else 2 ^ tyW f.ty.toNat - 1)) ∧
    (y ≠ 0 → exec (.rem f) s = out (x - Int.tdiv x y * y)) ∧
    (y = 0 → exec (.rem f) s = out x) ∧
    exec (.neg f) s = out (-x) ∧
    exec (.abs f) s = out x.natAbs ∧
    exec (.min f) s = out (min x y) ∧
    exec (.max f) s = out (max x y)

/-- R318–R323. Each of and, or, xor, andn, orn, not, shl, shr, sha, rot, clz, ctz, popc, brev and sel sends its result over the
low w bits of its operands, placed by its type; tst sends whether the AND of both is zero, by MOD. -/
def Obligations.LogicAndShifts : Prop :=
  ∀ (f : AFmt) (s : State), Acts f.pr s →
    let w := wOf f
    let u := uOf f s
    let v := sOf f s
    let k := shCount f s
    let out := fun (n : Nat) => (.next (send2 f s (putT f.ty.toNat n)) : Res)
    exec (.and f) s = out (u &&& v) ∧
    exec (.or f) s = out (u ||| v) ∧
    exec (.xor f) s = out (u ^^^ v) ∧
    exec (.andn f) s = out (u &&& (2 ^ w - 1 - v)) ∧
    exec (.orn f) s = out (u ||| (2 ^ w - 1 - v)) ∧
    exec (.not f) s = out (2 ^ w - 1 - u) ∧
    exec (.shl f) s = out (u * 2 ^ k % 2 ^ w) ∧
    exec (.shr f) s = out (u / 2 ^ k) ∧
    exec (.sha f) s = out (wrapNat (Int.fdiv (signed u w) (2 ^ k)) w) ∧
    (f.md = 0 → exec (.rot f) s = out (rotl w u k)) ∧
    (f.md = 1 → exec (.rot f) s = out (rotl w u ((w - k) % w))) ∧
    exec (.clz f) s = out (clzW w u) ∧
    exec (.ctz f) s = out (ctzGo u w w) ∧
    exec (.popc f) s = out ((List.range w).filter fun n => Nat.testBit u n).length ∧
    exec (.brev f) s = out (brevGo u w w) ∧
    exec (.sel f) s = out (if opC s = 0 then v else u) ∧
    (f.md = 0 → exec (.tst f) s = .next (send2 f s (if u &&& v = 0 then 0 else 1))) ∧
    (f.md = 1 → exec (.tst f) s = .next (send2 f s (if u &&& v = 0 then 1 else 0)))

/-- R321, R322, R304, R323. bfx, bfi, sext and zext give their result for an empty and a non-empty field and for a count of 0,
between, and of the width or more; the six conditions of cmp over both operands as their type reads them give 1 or 0. -/
def Obligations.FieldsAndComparisons : Prop :=
  (∀ (f : AFmt) (s : State), Acts f.pr s →
    let w := wOf f
    let u := uOf f s
    let pos := fld (bOf64 f s) 0 6
    let len := if w ≤ pos then 0 else min (fld (bOf64 f s) 8 7) (w - pos)
    let n := if f.i then fld f.imm 0 7 else fld (opB s) 0 7
    let out := fun (r : Int) => (.next (send2 f s (putT f.ty.toNat r)) : Res)
    (len = 0 → exec (.bfx f) s = out 0 ∧ exec (.bfi f) s = out u) ∧
    (len ≠ 0 →
      exec (.bfx f) s = out (if tySgn f.ty.toNat then signed (u / 2 ^ pos % 2 ^ len) len else (u / 2 ^ pos % 2 ^ len : Nat)) ∧
      exec (.bfi f) s = out (putFld u pos len (bitsT f.ty.toNat (opC s)) : Nat)) ∧
    (n = 0 → exec (.sext f) s = out 0 ∧ exec (.zext f) s = out 0) ∧
    (w ≤ n → exec (.sext f) s = out u ∧ exec (.zext f) s = out u) ∧
    (0 < n ∧ n < w → exec (.sext f) s = out (signed u n) ∧ exec (.zext f) s = out (u % 2 ^ n : Nat))) ∧
  (∀ (f : AFmt) (s : State), Acts f.pr s →
    let x := xOf f s
    let y := yOf f s
    let out := fun (b : Bool) => (.next (send2 f s (if b then 1 else 0)) : Res)
    (f.md = 0 → exec (.cmp false f) s = out (x == y) ∧ exec (.cmp true f) s = out (decide (y < x))) ∧
    (f.md = 1 → exec (.cmp false f) s = out (x != y) ∧ exec (.cmp true f) s = out (decide (y ≤ x))) ∧
    (f.md = 2 → exec (.cmp false f) s = out (decide (x < y))) ∧
    (f.md = 3 → exec (.cmp false f) s = out (decide (x ≤ y))))

/-- R324–R326, R449. adda.wrap adds modulo 2^64; adda and lea deliver a sum that stays in the half of a canonical a and else
raise F_NONCANON with a and the addend; alignd clears or keeps the low n bits; canon tests, repairs, passes a canonical address
and else raises F_NONCANON. -/
def Obligations.AddressForms : Prop :=
  (∀ (f : AFmt) (s : State), Acts f.pr s →
    let a := (opA s).toNat
    let d := sb f s
    let n := min (if f.i then BitVec.ofInt 64 (signed f.imm.toNat 28) else opB s).toNat 64
    let out := fun (v : Word) => (.next (send2 f s v) : Res)
    (f.md = 1 → exec (.adda f) s = out (opA s + BitVec.ofInt 64 d)) ∧
    (f.md = 0 → inHalf a (a + d) = true → exec (.adda f) s = out (BitVec.ofInt 64 (a + d))) ∧
    (inHalf a (a + d * 2 ^ f.md.toNat) = true → exec (.lea f) s = out (BitVec.ofInt 64 (a + d * 2 ^ f.md.toNat))) ∧
    (f.md = 0 → exec (.alignd f) s = out (BitVec.ofNat 64 (a - a % 2 ^ n))) ∧
    (f.md = 1 → exec (.alignd f) s = out (BitVec.ofNat 64 (a % 2 ^ n))) ∧
    (f.md = 0 → exec (.canon f) s = out (if canon a then 1 else 0)) ∧
    (f.md = 1 → exec (.canon f) s = out (BitVec.ofInt 64 (signed a 57))) ∧
    (f.md = 2 → canon a = true → exec (.canon f) s = out (opA s))) ∧
  (∀ (f : AFmt) (s : State), Acts f.pr s →
    let a := (opA s).toNat
    let d := sb f s
    (f.md = 0 → inHalf a (a + d) = false → exec (.adda f) s = .next (fault s F_NONCANON (opA s) (BitVec.ofInt 64 d))) ∧
    (inHalf a (a + d * 2 ^ f.md.toNat) = false →
      exec (.lea f) s = .next (fault s F_NONCANON (opA s) (BitVec.ofInt 64 (d * 2 ^ f.md.toNat)))) ∧
    (f.md = 2 → canon a = false → exec (.canon f) s = .next (fault s F_NONCANON (opA s) 0)))

/-- R330–R338, R345, R333, R334, R337. Where its controls are known, each of fadd, fsub, fmul, fma, fmin, fmax, fdiv, fsqrt,
fround, fdot2 and fcmp raises its flags and sends its value, and so do the special functions frcp, frsq, fexp2, flog2 and ftanh,
whose values are correctly rounded (the working precision that decides the rounding is log 12); fabs, fneg, fcpsgn and fclass
raise no flag. -/
def Obligations.FloatResults : Prop :=
  (∀ (f : AFmt) (s : State) (c : Ctl), Acts f.pr s → curCtl s = some c →
    let a := opA s
    let b := bOf f s
    let ty := f.ty.toNat
    let out := fun (r : Word × Nat) => (.next (send2 f (raiseFl s r.2) r.1) : Res)
    let fl := fun (hi : Bool) => fcmpF ((if hi then 4 else 0) + f.md.toNat) c.ftz (fld a 0 32) (fld b 0 32)
    let l := elems ty a
    let m := elems ty b
    exec (.fadd f) s = out (map2 ty (fun g => faddF g c.rm c.ftz) a b) ∧
    exec (.fsub f) s = out (map2 ty (fun g => fsubF g c.rm c.ftz) a b) ∧
    exec (.fmul f) s = out (map2 ty (fun g => fmulF g c.rm c.ftz) a b) ∧
    exec (.fma f) s = out (map3 ty (fun g => fmaF g c.rm c.ftz) a b (opC s)) ∧
    exec (.fmin f) s = out (map2 ty (fun g => fminmaxF g c.ftz false (f.md == 1)) a b) ∧
    exec (.fmax f) s = out (map2 ty (fun g => fminmaxF g c.ftz true (f.md == 1)) a b) ∧
    exec (.fdiv f) s = out (map2 ty (fun g => fdivF g c.rm c.ftz) a b) ∧
    exec (.fsqrt f) s = out (map1 4 (fun g => fsqrtF g c.rm c.ftz) a) ∧
    exec (.fround f) s = out (map1 ty (fun g => froundF g f.md.toNat c.ftz) a) ∧
    exec (.fdot2 f) s =
      out (joinElems 4 [fdot2F (fmtOf ty) c.rm c.ftz (l.getD 0 0) (l.getD 1 0) (m.getD 0 0) (m.getD 1 0) (fld (opC s) 0 32)]) ∧
    (∀ hi, exec (.fcmp hi f) s = out (if (fl hi).1 then 1 else 0, (fl hi).2))) ∧
  (∀ (f : AFmt) (s : State) (c : Ctl), Acts f.pr s → curCtl s = some c →
    let a := opA s
    let ty := f.ty.toNat
    let out := fun (v : Word) => (.next (send2 f s v) : Res)
    let cls := (elems ty a).map (fclassF (fmtOf ty))
    exec (.fabs f) s = out (map1 ty (fun g x => (fabsF g x, 0)) a).1 ∧
    exec (.fneg f) s = out (map1 ty (fun g x => (fnegF g x, 0)) a).1 ∧
    exec (.fcpsgn f) s = out (map2 ty (fun g x y => (fcpsgnF g x y, 0)) a (bOf f s)).1 ∧
    exec (.fclass f) s = out (BitVec.ofNat 64 (cls.getD 0 0 + cls.getD 1 0 * 2 ^ 16)) ∧
    let sp := fun (op : Nat → Nat × Nat) =>
      (.next (send2 f (raiseFl s (joinElems 4 ((elems 4 a).map op)).2) (joinElems 4 ((elems 4 a).map op)).1) : Res)
    exec (.frcp f) s = sp frcpF ∧ exec (.frsq f) s = sp frsqF ∧ exec (.fexp2 f) s = sp fexp2F ∧
      exec (.flog2 f) s = sp flog2F ∧ exec (.ftanh f) s = sp ftanhF)

/-- R340–R344, R341, R342, R449. Where its controls are known, each of cvtfi, cvtif, fcvt, fwid and unpack raises its flags and
sends its value, and pack2 joins two halves; cvtif and fcvt that overflow under the trapping policy raise F_CVTOVF with slot a
and the type and MOD. -/
def Obligations.Conversions : Prop :=
  (∀ (f : AFmt) (s : State) (c : Ctl), Acts f.pr s → curCtl s = some c →
    let a := opA s
    let ty := f.ty.toNat
    let out := fun (r : Word × Nat) => (.next (send2 f (raiseFl s r.2) r.1) : Res)
    let fi := cvtfiF (cvtMode c f.md.toNat) c.ftz (loT ty) (hiT ty) (fld a 0 32)
    let k := if f.md = 0 then 0 else 16
    exec (.cvtfi f) s = out (putT ty fi.1, fi.2) ∧
    (∀ v, cvtifF (fmtOf ty) c.rm f.md.toNat (valT (fld f.imm 0 2) a) = some v → exec (.cvtif f) s = out (BitVec.ofNat 64 v.1, v.2)) ∧
    (∀ v, narrowF (fmtOf ty) c.rm c.ftz f.md.toNat (fld a 0 32) = some v → exec (.fcvt f) s = out (BitVec.ofNat 64 v.1, v.2)) ∧
    exec (.fwid f) s = out (joinElems 4 [widenElem f s c f.md.toNat]) ∧
    exec (.unpack f) s =
      .next (send (send (raiseFl s (orF (widenElem f s c 0).2 (widenElem f s c 1).2)) f.t0 (BitVec.ofNat 64 (widenElem f s c 0).1))
        f.t1 (BitVec.ofNat 64 (widenElem f s c 1).1)) ∧
    exec (.pack2 f) s = .next (send2 f s (BitVec.ofNat 64 (fld a k 16 + fld (bOf f s) k 16 * 2 ^ 16)))) ∧
  (∀ (f : AFmt) (s : State) (c : Ctl), Acts f.pr s → curCtl s = some c →
    let ovf := fault s F_CVTOVF (opA s) (BitVec.ofNat 64 (f.ty.toNat * 4 + f.md.toNat))
    (cvtifF (fmtOf f.ty.toNat) c.rm f.md.toNat (valT (fld f.imm 0 2) (opA s)) = none → exec (.cvtif f) s = .next ovf) ∧
    (narrowF (fmtOf f.ty.toNat) c.rm c.ftz f.md.toNat (fld (opA s) 0 32) = none → exec (.fcvt f) s = .next ovf))

/-! ### Steering, waves and reductions -/

/-- R350, R351, R356. steer sends a to T0 or T1 as p and its predicate control say; gate sends a, or nulls when b is zero; join
sends a; eos sends a marker to both targets; eosq sends data to T0 and, for a marker, the value 1 to T1. -/
def Obligations.SteeringAndJoining : Prop :=
  ∀ (f : AFmt) (s : State),
    (Acts 0 s → f.pr ≠ 2 → exec (.steer f) s = .next (send s (if opP s = 0 then f.t1 else f.t0) (opA s))) ∧
    (Acts 0 s → f.pr = 2 → exec (.steer f) s = .next (send s (if opP s = 0 then f.t0 else f.t1) (opA s))) ∧
    (Acts f.pr s →
      (opB s ≠ 0 → exec (.gate f) s = .next (send2 f s (opA s))) ∧
      (opB s = 0 → exec (.gate f) s = .next (sendAll s [f.t0, f.t1] .null 0)) ∧
      exec (.join f) s = .next (send2 f s (opA s)) ∧
      exec (.eos f) s = .next (sendAll s [f.t0, f.t1] .eos 0) ∧
      (isKind .eos s.cur.a = false → exec (.eosq f) s = .next (send s f.t0 (opA s)))) ∧
    (isKind .eos s.cur.a = true → exec (.eosq f) s = .next (send s f.t1 1))

/-- R352–R354, R503. merge.u outside a deterministic partition forwards its token; merge.o, and merge.u in a deterministic one,
forwards a token that it admits and notes it, and merge.o puts any other back; wadv forwards its token under the next wave and
ordinal; kbound opens an entry for a token that it admits, numbers the admission (R503) and puts any other back; wreset forwards
its token under the wave of the loop record of its frame, out of its innermost loop, and closes one entry; a marker passes
kbound. -/
def Obligations.WaveHeads : Prop :=
  ∀ (f : AFmt) (s : State) (c : Ctx), curCtx s = some c →
    let t := oneToken s.cur
    let other := (headOf s c (if s.cur.a.isSome then .b else .a)).map fun h => h.2.tok
    let out := fun (g : Ctx → Ctx) => (.next (pairCur (forward f (modCtx s c.bay c.cell c.ctx g))) : Res)
    (isDet s s.cur.part = false → exec (.mergeU f) s = .next (forward f s)) ∧
    (mergeAdmits c t other = true →
      exec (.mergeO f) s = out (mergeNote t) ∧ (isDet s s.cur.part = true → exec (.mergeU f) s = out (mergeNote t))) ∧
    (mergeAdmits c t other = false → exec (.mergeO f) s = .next (requeueCur s)) ∧
    (passes s.cur = false →
      exec (.wadv f) s =
        .next (forward f (modCur s fun i => { i with tag := { i.tag with wave := i.tag.wave + 1 }, ord := i.ord + 1 })) ∧
      (anyEos s.cur = false →
        (kboundAdmits c (fld f.imm 0 7) s.cur.tag = true → exec (.kbound f) s =
          .next (pairCur (forward f (noteAdm (modCtx s c.bay c.cell c.ctx (openEntry s.cur.tag s.cur.ord)))))) ∧
        (kboundAdmits c (fld f.imm 0 7) s.cur.tag = false → exec (.kbound f) s = .next (requeueCur s)) ∧
        (∀ k r, ctx? s s.cur.bay (routeCell s.cur.cell f.imm.toNat) (fld f.imm 0 3) = some k → loopRec k s.cur.tag.frame = some r →
          let toward := modCur s fun i => { i with tag := { i.tag with wave := r.e }, ord := r.ord, adm := i.adm.drop 1 }
          let cell := routeCell s.cur.cell f.imm.toNat
          let n := fld f.imm 0 3
          exec (.wreset f) s =
            .next (pairCtx s.cur.bay cell n 64 (forward f (modCtx toward s.cur.bay cell n (closeEntry s.cur.tag.frame)))))) ∧
      (anyEos s.cur = true → exec (.kbound f) s = .next (pairCur (forward f s))))

/-- R355. A head that red does not admit is put back; a marker that it admits delivers the accumulated value, or the identity of
the operation, then a marker, closes the FRAME, clears the accumulator and leaves NEXT at its wave (what the buffer holds of later
waves keeps its places, log 114); any other head that it admits is combined and its flags raised. -/
def Obligations.Reductions : Prop :=
  ∀ (f : AFmt) (s : State) (c : Ctx), curCtx s = some c → passes s.cur = false →
    let t := oneToken s.cur
    let r0 := { redReach c.red (redNext c.red t.tag.frame) with frame := some t.tag.frame }
    let ctl := (curCtl s).getD ⟨0, false, 0⟩
    let r := if f.md.toNat = 1 then redTake f.ty.toNat 1 ctl (oneOp s.cur) (r0, 0)
      else redDrain f.ty.toNat f.md.toNat ctl 9 ({ r0 with buf := assocSet t.tag.wave.toNat (oneOp s.cur) r0.buf }, 0)
    let cleared := modCtx s c.bay c.cell c.ctx fun c =>
      { c with red := { redReach r0 t.tag.wave with frame := none, last := some t.tag.frame, acc := none } }
    (redAdmits c (f.md.toNat == 1) t = false → exec (.red f) s = .next (requeueCur s)) ∧
    (redAdmits c (f.md.toNat == 1) t = true →
      (t.kind = .eos → exec (.red f) s = .next (pairCur (sendAll (sendAll cleared [f.t0, f.t1] .data
        (r0.acc.getD (redIdentity f.ty.toNat f.md.toNat))) [f.t0, f.t1] .eos 0))) ∧
      (t.kind ≠ .eos → exec (.red f) s =
        .next (pairCur (raiseFl (modCtx s c.bay c.cell c.ctx fun c => { c with red := r.1 }) r.2))))

/-! ### Exits, calls, returns, spawns and joins -/

/-- R357, R449, R358, R361, R363. exit records its destination, discards younger blocks fetched from another address and sends
the address behind its own block, and a second one of its block raises F_MULTIEXIT; it is not chosen with a null on a or p or
where its predicate does not hold, and a null on b alone it tells on; exitg hands its token to the front end once the accesses
of its stream before it are performed, and waits before; ret keeps its value, or a null, in its block, and a second one raises
F_DUPTOK (what a null or a marker sends besides is R294's); joinc sends the number of joined children and clears it once none is
outstanding, and waits before. -/
def Obligations.ExitsReturnsAndJoins : Prop :=
  (∀ (f : XFmt) (s : State) (b : Block), anyEos s.cur = false → anyNull s.cur = false → predOk f.pr s = true → curBlock s = some b →
    let dest : Option Word := if f.md = 2 then none else some (xAddr f (f.md == 1) s)
    let t := modBlock s b.part b.frame b.seq fun b => { b with exit := some ⟨s.cur.idx, dest⟩ }
    let behind : Word := b.addr + BitVec.ofNat 64 (16 + 8 * hCount b.h0)
    (b.exit = none →
      (youngerBlocks t b.part b.frame b.seq = [] → exec (.exit f) s = .next (send t f.t0 behind)) ∧
      (∀ y l, youngerBlocks t b.part b.frame b.seq = y :: l →
        (dest = some y.addr → exec (.exit f) s = .next (send t f.t0 behind)) ∧
        (dest ≠ some y.addr → exec (.exit f) s = .next (send (discardYounger t b.part b.frame b.seq) f.t0 behind)))) ∧
    (∀ x, b.exit = some x → exec (.exit f) s = .next (fault s F_MULTIEXIT (BitVec.ofNat 64 x.index) 0))) ∧
  (∀ (f : XFmt) (s : State), anyEos s.cur = false →
    (isKind .null s.cur.a = true ∨ isKind .null s.cur.p = true ∨ predOk f.pr s = false → exec (.exit f) s = .next s) ∧
    (isKind .null s.cur.a = false → isKind .null s.cur.p = false → predOk f.pr s = true → isKind .null s.cur.b = true →
      exec (.exit f) s = .next (sendAll s [f.t0] .null 0))) ∧
  ((∀ (f : XFmt) (s : State), Acts f.pr s →
    (streamSettled s = true → exec (.exitg f) s =
      .next { s with exitgs := s.exitgs ++ [⟨s.cur.part, s.cur.bay, s.cur.grid.getD 0, ⟨s.cur.tag, .data, opA s, s.cur.ord, s.cur.adm, none⟩,
        xAddr f (bitAt f.md 2) s, f.ex.toNat, slotOf (fld f.md 0 2)⟩] }) ∧
    (streamSettled s = false → exec (.exitg f) s = .next (waitCur s))) ∧
  (∀ (f : AFmt) (s : State) (b : Block), curBlock s = some b →
    let v := if anyNull s.cur || anyEos s.cur then none else some (opA s)
    (v = none ∨ predOk f.pr s = true →
      (b.ret = none → exec (.ret f) s = .next (modBlock (retTold f s) b.part b.frame b.seq fun b => { b with ret := some (s.cur.idx, v) })) ∧
      (∀ k old, b.ret = some (k, old) → exec (.ret f) s = .next (faultAux s F_DUPTOK (old.getD 0) (v.getD 0) 0xC00)))) ∧
  (∀ (f : AFmt) (s : State) (fr : Frame), Acts f.pr s → frame? s s.cur.part (curFrame s) = some fr →
    (fr.cc = 0 → exec (.joinc f) s =
      .next (modFrame (send2 f s (BitVec.ofNat 64 fr.jn)) fr.part fr.num fun x => { x with jn := 0 })) ∧
    (fr.cc ≠ 0 → exec (.joinc f) s = .next (waitCur s))))

/-- R51, R139, R174, R175, R359, R360, R362. Before the accesses before them are performed call and spawn wait; then, with a
free FRAME value and a row, call starts a frame that links back to its caller, spawn starts a child that its parent counts and
sends 1, and a goes to the entry token of either; with no FRAME value free, call waits, and spawn joins the waiting spawns and
sends 0, or raises F_QUOTA when 16 wait. In a deterministic partition the child's name is its maker's with the ordinal of the
word, and one past the last ordinal or level raises F_DETVIOL; in any other the allocator draws it. -/
def Obligations.CallsAndSpawns : Prop :=
  ∀ (f : XFmt) (s : State) (b : Block) (fr : Frame),
    Acts f.pr s → curBlock s = some b → frame? s s.cur.part (curFrame s) = some fr →
    let called := if isDet s fr.part then childName fr.fname (childOrd s fr b) else some 0
    let addr := xAddr f (bitAt f.md 2) s
    let link : CallLink := ⟨s.cur.tag.frame, s.cur.tag.wave, s.cur.tag.ctx, s.cur.ord, s.cur.seq, f.t0⟩
    let counted := fun (t : State) => modFrame t fr.part fr.num fun x => { x with cc := x.cc + 1 }
    (curSettled s = false → exec (.call f) s = .next (waitCur s) ∧ exec (.spawn f) s = .next (waitCur s)) ∧
    (curSettled s = true → called = none →
      exec (.call f) s = .next (fault s F_DETVIOL s.cur.word 0) ∧ exec (.spawn f) s = .next (fault s F_DETVIOL s.cur.word 0)) ∧
    (∀ name, curSettled s = true → called = some name →
      (∀ num, freeFrame s fr.part = some num →
        (∀ bay t, pickBay s fr.part (some fr.bay) = some bay →
          startFrame s { madeFrame s fr num name with link := some link } bay addr = .ok t →
          exec (.call f) s = .next (entryToken (noteAct t) fr.part num 0 (entrySlot f) (opA t))) ∧
        (∀ r bay t, spawnRoom s fr.part fr.bay = .row r bay → fr.cc < 0xFFFF →
          startFrame r { madeFrame r fr num name with parent := some fr.num } bay addr = .ok t →
          exec (.spawn f) s = .next (send (noteAct (counted (entryToken t fr.part num 0 (entrySlot f) (opA t)))) f.t0 1))) ∧
      (freeFrame s fr.part = none →
        exec (.call f) s = .next (waitCur s) ∧
        (16 ≤ (deferredOf s fr.bay).length → fr.cc < 0xFFFF → exec (.spawn f) s = .next (fault s F_QUOTA addr 0)) ∧
        ((deferredOf s fr.bay).length < 16 → fr.cc < 0xFFFF →
          let m := madeFrame s fr 0 name
          let d : SpawnRec := ⟨fr.part, fr.bay, some fr.num, addr, opA s, f.ex.toNat, slotOf (fld f.md 0 2), m.fpc, name, m.pri, m.tree⟩
          let t := counted { s with deferred := s.deferred ++ [d] }
          exec (.spawn f) s = .next (send (noteAct t) f.t0 0))))

/-! ### Grid regions -/

/-- R364, R365, R366–R368, R444. cfgreq whose image passes its checks waits for the placer, and else faults or waits; cfgrel and
drain of a region that runs close it and wait for the drain, and a handle of no region raises F_PROT; cfgtok sends slot a as a
configuration flit along the route that T0 names; gcall gates its region for a callee that passes its checks and else faults;
gret of a callee sends its value and gates the return, and outside a callee is F_ILLOP; ckpt gates its region and, run again
once all has settled, lets out the held stores and exits, records the checkpoint and sends its operand; it waits while a store
must wait, or for the attic. -/
def Obligations.Regions : Prop :=
  ((∀ (f : XFmt) (s t : State), Acts f.pr s → curOldest s = true → accessTurn s = true →
    (s.cur.grid = none → storePending s s.cur.part (curFrame s) = false) →
    (∀ m, cfgreqRead f s = (t, .ok m) → exec (.cfgreq f) s = .next (waitStage (if t.cur.stage = some 9 then t else noteAct t) 9)) ∧
    (∀ c x y, cfgreqRead f s = (t, .error (.bad c x y)) → exec (.cfgreq f) s = .next (fault t c x y)) ∧
    (cfgreqRead f s = (t, .error .wait) → exec (.cfgreq f) s = .next (waitCur t))) ∧
  (∀ (f : AFmt) (s : State), Acts f.pr s → curOldest s = true →
    (∀ r, regionNamed s s.cur.part (handleOf (opA s)) = some r → r.planes = [] → gated r = false → s.cur.grid = none →
      s.cur.stage = none →
      let t := waitStage (modRegion (noteAct s) r.bay r.idx fun r => { r with closed := true }) 9
      exec (.cfgrel f) s = .next t ∧ exec (.drain f) s = .next t) ∧
    (regionNamed s s.cur.part (handleOf (opA s)) = none →
      exec (.cfgrel f) s = .next (fault s F_PROT (opA s) 0) ∧ exec (.drain f) s = .next (fault s F_PROT (opA s) 0)))) ∧
  ((∀ (f : AFmt) (s : State) (c : Ctx), Acts f.pr s → curCtx s = some c → f.t0 ≠ nullT → phaseAllows s (fld f.t0 0 2) = true →
    exec (.cfgtok f) s = .next (sendRoute s (routeOf c.rw (fld f.t0 0 2)) (curTok s .data (opA s)) (some f.md))) ∧
  (∀ (f : XFmt) (s t : State) (r : Region) (m : Img), Acts f.pr s → curRegion s = some r → gated r = false →
    let addr := xAddr f (f.md == 1) s
    readImage s s.cur.bay r.part false (tagWord s.cur.tag) (curTree s) addr = (t, .ok m) →
    (callBad t r m t.cur.word = none → exec (.gcall f) s =
      .next (modRegion t r.bay r.idx fun r => { r with phase := .callGate t.cur addr })) ∧
    (∀ c x y, callBad t r m t.cur.word = some (c, x, y) → exec (.gcall f) s = .next (fault t c x y))) ∧
  (∀ (f : AFmt) (s : State) (r : Region), Acts f.pr s → curRegion s = some r → r.phase = .run →
    (r.planes ≠ [] → exec (.gret f) s =
      .next (modRegion (send s f.t0 (opA s)) r.bay r.idx fun r => { r with phase := .retGate s.cur })) ∧
    (r.planes = [] → exec (.gret f) s = .next (illop s))) ∧
  (∀ (f : SFmt) (s t : State) (r : Region), Acts f.pr s → curRegion s = some r →
    (r.phase = .run → exec (.ckpt f) s = .next (waitStage (modRegion s r.bay r.idx fun r => { r with phase := .ckptGate }) 9)) ∧
    (r.phase = .ckptGate → s.cur.stage = some 9 → r.fault = none → settledRegion s r = true →
      let own := { s.cur with stage := none }
      (takeCkpt s r [own] = .ok t → exec (.ckpt f) s =
        .next (pairRegion (send (modRegion t r.bay r.idx fun r => { r with phase := .run }) f.t0 (opA t)) r.bay r.idx)) ∧
      (takeCkpt s r [own] = .error t → exec (.ckpt f) s = .next (waitCur t)) ∧
      (∀ u, atticTouch s r.part (planeBytes r) true false = .ok u →
        let o := outHeld (u.stores.filter (heldBy r)) u
        let v := { modRegion o.1 r.bay r.idx (fun r => { r with exitHold := r.exitHold.filter (toRegion r), entryLog := [] }) with
                   net := o.1.net ++ r.exitHold.filter fun x => !toRegion r x }
        let top := pushState v r (0, 0)
        let ck : Ckpt := ⟨{ top with attic := true, held := own :: top.held }, r.planes, o.2⟩
        o.1.stores.any (heldBy r) = false → takeCkpt s r [own] =
          .ok (releaseAll (sendReplies (modRegion v r.bay r.idx fun r => { r with ckpt := some ck }) o.2))))))

/-! ### Soft tokens -/

/-- R419, R420, R427, R449, R421, R422, R426, R428, R429. sklat, skmix and collapse.max read their vector from the shelf and
deliver the latent, the mixture or the choice; a count out of range is F_PROT, a misaligned address F_ALIGN, a run past the
shelf F_PROT; skrd sends a word of its register, skclr the empty value; skadd appends a candidate, sknorm scales the weights,
collapse.mix and collapse.cdf choose; each is F_ILLOP on a kind that it does not take. -/
def Obligations.SoftValues : Prop :=
  ((∀ (f : AFmt) (s u : State), Acts f.pr s → Committed s →
    let a := (opA s).toNat
    let n := (bOf f s).toNat
    let e := n * efBytes f.md.toNat
    let l := (List.range n).zip (f32s (softBytes u a (4 * n)) n)
    (1 ≤ n → n ≤ 65535 → SoftHolds s a e u →
      exec (.sklat f) s = .next (yieldSoft f (softRead u e) (mkLatent f.md.toNat n a (sha32 (softBytes u a e))))) ∧
    (1 ≤ n → n ≤ 2 ^ 24 → SoftHolds s a (4 * n) u →
      exec (.skmix f) s =
        .next (yieldSoft f (softRead u (4 * n)) (mkMix ((bestOf (fld f.md 0 2 + 4 * fld f.ty 0 1) l).map fun x => (x.1, toBf x.2)))) ∧
      exec (.collapseMax f) s = .next (choose f (softRead u (4 * n)) (((bestOf 1 l).head?.map (·.1)).getD 0)))) ∧
  (∀ (f : AFmt) (s : State), Acts f.pr s → Committed s →
    let a := (opA s).toNat
    let n := (bOf f s).toNat
    (n < 1 ∨ 65535 < n → exec (.sklat f) s = .next (accFault s F_PROT a 0 false)) ∧
    (n < 1 ∨ 2 ^ 24 < n →
      exec (.skmix f) s = .next (accFault s F_PROT a 0 false) ∧ exec (.collapseMax f) s = .next (accFault s F_PROT a 0 false)) ∧
    (1 ≤ n → n ≤ 65535 → a % 4 ≠ 0 → exec (.sklat f) s = .next (accFault s F_ALIGN a 4 false)) ∧
    (1 ≤ n → n ≤ 2 ^ 24 → a % 4 = 0 → 2 ^ 22 < a + 4 * n →
      exec (.skmix f) s = .next (accFault s F_PROT a (4 * n) false) ∧ exec (.collapseMax f) s = .next (accFault s F_PROT a (4 * n) false)))) ∧
  (∀ (f : AFmt) (s : State) (v : Soft), Acts f.pr s → readSoft s (fld f.imm 0 3) = some v →
    let c := skCands v
    let x := (fld (opA s) 0 24, toBf (fld (opB s) 0 32))
    let sum := sumBf (c.map (·.2))
    let share := fun (w : Nat) => if bf16.isZero w then w else (roundTo bf16 0 (divDy (toDy bf16 w) sum)).bits
    exec (.skrd f) s = .next (send2 f s (BitVec.ofNat 64 (fld v (64 * fld f.imm 3 3) 64))) ∧
    exec (.skclr f) s = .next (sendSoft f s 0 0) ∧
    (skKind v = 0 → exec (.skadd f) s = .next (yieldSoft f s (mkMix [x]))) ∧
    (skKind v = 1 → exec (.collapseMix f) s = .next (choose f s (fld v 0 24)) ∧ exec (.collapseCdf f) s = .next (choose f s (fld v 0 24))) ∧
    (skKind v = 2 →
      (skN v < 6 → exec (.skadd f) s = .next (yieldSoft f s (mkMix (c ++ [x])))) ∧
      (6 ≤ skN v → exec (.skadd f) s = .next (illop s)) ∧
      ((∀ y ∈ c, finPos y.2 = true) → sum.m ≠ 0 → exec (.sknorm f) s = .next (yieldSoft f s (mkMix (c.map fun y => (y.1, share y.2))))) ∧
      ((∃ y ∈ c, finPos y.2 = false) ∨ sum.m = 0 → exec (.sknorm f) s = .next (yieldSoft f s (mkMix (c.map fun y => (y.1, 0x7FC0))))) ∧
      exec (.collapseMix f) s = .next (choose f s (mixBest c)) ∧
      exec (.collapseCdf f) s = .next (choose f s (cdfPick (fld (opA s) 0 32) c))) ∧
    (skKind v = 0 ∨ skKind v = 3 → exec (.collapseMix f) s = .next (illop s) ∧ exec (.collapseCdf f) s = .next (illop s)) ∧
    (skKind v = 1 ∨ skKind v = 3 → exec (.skadd f) s = .next (illop s)) ∧
    (skKind v ≠ 2 → exec (.sknorm f) s = .next (illop s)))

/-- R259, R260, R424, R425, R423, R187. skhash sends 8 bytes of the digest of its value behind the record that it reads; skpos
writes the next record of a descriptor without a log, and F_PROT when it is full; skemb whose destination lies in the shelf
sends a gathw of the candidates of a text token or a mixture, or a copy of the vector of a latent that still has its digest:
with room in the queue the command enters it, and without room the instruction waits; a changed vector is F_INTEG, and the empty
value F_ILLOP in each. -/
def Obligations.RecordsAndEmbeddings : Prop :=
  (∀ (f : AFmt) (s s1 : State) (v : Soft) (rs : List Run), Acts f.pr s →
    (Committed s → readSoft s (fld f.imm 0 3) = some v →
      (skKind v = 0 → exec (.skhash f) s = .next (illop s)) ∧
      (skKind v ≠ 0 → accessTurn s = true → Translates s ((opA s).toNat + 0x40) 32 32 false s1 rs →
        let r := readRuns s1 s1.cur.part (curTree s1) rs
        exec (.skhash f) s = .next (send2 f r.2 (BitVec.ofNat 64 (ofBytes (((recHash r.1 v).drop (8 * fld f.imm 3 2)).take 8)))))) ∧
    (Settled s → inTurn s = true →
      let t := turned s
      readSoft t (fld f.imm 0 3) = some v →
      (skKind v = 0 → exec (.skpos f) s = .next (illop t)) ∧
      (skKind v ≠ 0 → accessTurn t = true → Translates t (opA t).toNat 128 64 true s1 rs →
        let r := readRuns s1 s1.cur.part (curTree s1) rs
        let d := r.1
        (nbits (descField d 0x18 8) 62 2 = 0 → descField d 0x08 4 ≠ descField d 0x0C 4 →
          ∀ s2 ps, Translates r.2 (descField d 0x00 8 + 64 * descField d 0x08 4 : Nat) 64 64 true s2 ps →
            exec (.skpos f) s = .next (skposStep f s2 v d [] 64 [rs, ps])) ∧
        (nbits (descField d 0x18 8) 62 2 ≠ 3 → descField d 0x08 4 = descField d 0x0C 4 →
          exec (.skpos f) s = .next (accFault r.2 F_PROT (opA r.2).toNat 128 true))))) ∧
  (∀ (f : AFmt) (s : State) (v : Soft), Acts f.pr s → Settled s → inTurn s = true → readSoft (turned s) (fld f.imm 0 3) = some v →
    let t := turned s
    let a := (opA t).toNat
    let slot := fld f.imm 3 4
    let n := tElems (tableOf t t.cur.part slot)
    let gathers := fun (m : Soft) (g : Nat) => a % 4 = 0 → a + 4 * n ≤ 2 ^ 22 →
      Pushes (exec (.skemb f) s) t (skembHeader f t 0x29 3 (slot + (g - 1) * 32 + 512)) (inlineBeats m ++ [shelfBeat a 6 0])
    (skKind v = 0 → exec (.skemb f) s = .next (illop t)) ∧
    (skKind v = 1 → gathers (textAsMix v) 1) ∧
    (skKind v = 2 → gathers v (skN v)) ∧
    (skKind v = 3 → a % 4 = 0 → a + 4 * skLen v ≤ 2 ^ 22 →
      let k := skLen v * efBytes (skEf v)
      ∀ r, SoftHolds t (skAddr v) k r →
      let u := softRead r k
      let h := skembHeader f u 0x20 3 0
      let l := [shelfBeat (skAddr v) (if skEf v = 0 then 6 else 7) 0, shelfBeat a 6 0, BitVec.ofNat 128 (skLen v - 1)]
      (sha32 (softBytes r (skAddr v) k) ≠ skDigest v → exec (.skemb f) s = .next (fault u F_INTEG (BitVec.ofNat 64 (skAddr v)) 0)) ∧
      (sha32 (softBytes r (skAddr v) k) = skDigest v → msgRefused u u.cur.part (curKey u) h l = none →
        Pushes (exec (.skemb f) s) u h l)))

/-! ### Loads and stores -/

/-- R59, R117, R370, R372, R374, R385, R386, R105, R449. ld whose run passes its checks, unpoisoned, sends the widened bytes as
its held stores leave them; lds likewise from the shelf; ld and st raise the code of a failed check with its address, and wait
while the page is walked. -/
def Obligations.Loads : Prop :=
  (∀ (f : MFmt) (s s1 : State) (rs : List Run),
    let n := sfBytes f.sf.toNat
    let t := placedState s
    let ea := eaOf f n (opA t)
    (Accesses f.pr false true s → Translates t ea n n false s1 rs →
      let r := loadRuns s1 f.own.toNat rs
      exec (.ld f) s = .next (send r.2 f.t0 (widenSf f.sf.toNat r.1))) ∧
    (Accesses f.pr false true s → ShelfHolds t ea n false s1 →
      let k := shelfKey (curKey t) ea.toNat
      let u := charge s1 s1.cur.part (curTree s1) 3 1
      let bs := (List.range n).map fun j => seenByte (seenHeld u f.own.toNat) true (k + j) (rdByte u.shelf (k + j))
      exec (.lds f) s = .next (send u f.t0 (widenSf f.sf.toNat bs)))) ∧
  (∀ (f : MFmt) (s s1 : State),
    let n := sfBytes f.sf.toNat
    let t := placedState s
    let ea := eaOf f n (opA t)
    (Accesses f.pr false true s →
      (∀ c a, checked t ea n n false = (s1, .bad c a) → exec (.ld f) s = .next (accFault s1 c a.toNat n false)) ∧
      (checked t ea n n false = (s1, .miss) → exec (.ld f) s = .next (waitCur s1))) ∧
    (Accesses f.pr false s.cur.grid.isSome s →
      (∀ c a, checked t ea n n true = (s1, .bad c a) → exec (.st f) s = .next (accFault s1 c a.toNat n true)) ∧
      (checked t ea n n true = (s1, .miss) → exec (.st f) s = .next (waitCur s1))))

/-- R59, R372, R373, R375. A store whose run passes its checks is handed to the memory edge at the physical address of its run
with the bytes that its format gives, and raises the flags of narrowing; one whose format converts nothing needs no controls,
and one that does waits for them; st that overflows under the trapping policy raises F_CVTOVF with its address; sts goes to the
shelf. A block's store that is handed over is held to its commit and counts as received. -/
def Obligations.Stores : Prop :=
  ∀ (f : MFmt) (s : State), (
    let n := sfBytes f.sf.toNat
    let t := placedState s
    let ea := eaOf f n (opA t)
    let k := shelfKey (curKey t) ea.toNat
    let narrows := f.sf.toNat = 7 ∨ f.sf.toNat = 8
    let plain := fun (u : State) => toBytes n ((opB u).toNat % 2 ^ (8 * n))
    (∀ s1 r rs, Accesses f.pr false s.cur.grid.isSome s → checked t ea n n true = (s1, .ok (r :: rs)) →
      (curCtl s1 = none → ¬ narrows → exec (.st f) s = .next (handStore s1 f (.mem r.pa (plain s1) (!r.uncached)))) ∧
      (curCtl s1 = none → narrows → exec (.st f) s = .next (waitCur s1)) ∧
      (∀ c bs fl, curCtl s1 = some c → narrowSf f.sf.toNat c (opB s1) = some (bs, fl) →
        exec (.st f) s = .next (handStore (raiseFl s1 fl) f (.mem r.pa bs (!r.uncached)))) ∧
      (∀ c, curCtl s1 = some c → narrowSf f.sf.toNat c (opB s1) = none →
        exec (.st f) s = .next (fault s1 F_CVTOVF (BitVec.ofInt 64 (eaOf f n (opA s1))) (BitVec.ofNat 64 f.sf.toNat)))) ∧
    (∀ u, Accesses f.pr false s.cur.grid.isSome s → ShelfHolds t ea n true u →
      (curCtl u = none → ¬ narrows → exec (.sts f) s = .next (handStore u f (.shelf k (plain u)))) ∧
      (curCtl u = none → narrows → exec (.sts f) s = .next (waitCur u)) ∧
      (∀ c bs fl, curCtl u = some c → narrowSf f.sf.toNat c (opB u) = some (bs, fl) →
        exec (.sts f) s = .next (handStore (raiseFl u fl) f (.shelf k bs))))) ∧
  (∀ (op : StoreOp) (b : Block), s.cur.grid = none → curBlock s = some b → assoc f.own.toNat b.st = none →
    let t := handStore s f op
    t.mem = s.mem ∧ t.shelf = s.shelf ∧
      t.stores = s.stores ++ [⟨s.cur.part, s.cur.bay, curFrame s, s.cur.seq, f.own.toNat, none, false, op, none, false⟩] ∧
      ∃ c, curBlock t = some c ∧ (assoc f.own.toNat c.st).isSome = true)

/-- R380–R384. On a versioned, cached page: ldv sends the value of an available version, waits for one that is yet to come, and
raises F_VGONE for one that is gone; stv and reclaim of a block are handed to its commit; stv of a grid region without
checkpoints makes the version at once and sends its number; ldv on any other page raises F_PROT. -/
def Obligations.VersionedWords : Prop :=
  ∀ (f : MFmt) (s s1 : State) (r : Run) (rs : List Run),
    let t := placedState s
    let ea := eaOf f 16 (opA t)
    (Accesses f.pr false true s → Translates t ea 16 16 false s1 (r :: rs) →
      let n := BitVec.setWidth 32 (opB s1)
      let b := versBounds s1 s1.cur.part r.pa
      (r.vr = true → r.uncached = false →
        let out := fun (v : Word) => (.next (send (l2Touch s1 s1.cur.part (curTree s1) r.pa false) f.t0 v) : Res)
        (∀ v, s1.cur.ver.bind (·.2) = some v → exec (.ldv f) s = out v) ∧
        (s1.cur.ver.bind (·.2) = none →
          ((n - b.1).toNat ≤ (b.2 - b.1).toNat → exec (.ldv f) s = out (versValue s1 s1.cur.part r.pa n)) ∧
          (¬ (n - b.1).toNat ≤ (b.2 - b.1).toNat → 0 < (n - b.2).toNat → (n - b.2).toNat < 2 ^ 31 →
            exec (.ldv f) s = .next (waitCur (modCur s1 fun i => { i with ver := some (r.pa, none) }))) ∧
          (¬ (n - b.1).toNat ≤ (b.2 - b.1).toNat → 2 ^ 31 ≤ (n - b.2).toNat →
            exec (.ldv f) s = .next (fault s1 F_VGONE (BitVec.ofInt 64 (eaOf f 16 (opA s1))) (BitVec.setWidth 64 n))))) ∧
      (r.vr = false ∨ r.uncached = true → exec (.ldv f) s = .next (accFault s1 F_PROT ea 16 false))) ∧
    (Accesses f.pr false s.cur.grid.isSome s → checked t ea 16 16 true = (s1, .ok (r :: rs)) → r.vr = true → r.uncached = false →
      (s1.cur.grid = none →
        exec (.stv f) s = .next (handStore s1 f (.stv r.pa (opB s1))) ∧
        exec (.reclaim f) s = .next (handStore s1 f (.reclaim r.pa (BitVec.setWidth 32 (opB s1))))) ∧
      (∀ g x, s1.cur.grid = some g → region? s1 s1.cur.bay g = some x → x.ck = false →
        (∀ v, doStv s1 s1.cur.part r.pa (opB s1) = some v → exec (.stv f) s =
          .next (send (l2Touch v.1 s1.cur.part (treeOf s1 s1.cur.part (curFrame s1)) r.pa false) f.t0
            (BitVec.setWidth 64 ((versBounds s1 s1.cur.part r.pa).2 + 1)))) ∧
        (doStv s1 s1.cur.part r.pa (opB s1) = none → exec (.stv f) s =
          .next (waitCur (modCur s1 fun i => { i with ver := some (r.pa, none) })))))

/-- R96, R108, R137, R144, R147, R255, R256, R385–R391. A chain record that passes its checks installs its chain in the
registers of its bays, and sends 0 and a marker. Any other stream whose extent, with every element of its count, lies canonical
in one half and whose first element is aligned binds the slot that its control word names: nothing is issued yet, and the slot
keeps the count, the first element's place, the stride, the format, the read-ahead, the waiting bit and the instruction whose T0
its elements go to; its codebook reads 0. A bad control word is F_ILLOP, a bad extent F_NONCANON, a misaligned base F_ALIGN, and
a slot in use makes the stream wait. fence forwards a; pref touches the line of a page that translates and else does nothing;
monitor arms its line and forwards a; qfence inserts its barrier in its turn and forwards a; waitm sends 6 where no line is
armed, and the cause, or 0 in a deterministic partition, where an event has come. -/
def Obligations.StreamsHintsAndWaits : Prop :=
  (∀ (f : MFmt) (s : State), Accesses f.pr false true s →
    let t := placedState s
    (fld (opC t) 62 2 = 2 → exec (.stream f) s = exec (.streamKvBind f) s) ∧
    (fld (opC t) 5 34 ≠ 0 → exec (.streamKvBind f) s = .next (illop t)) ∧
    (∀ s1 rs, fld (opC t) 5 34 = 0 → Translates t (opA t).toNat 32 32 false s1 rs →
      let r := loadRuns s1 f.own.toNat rs
      let k := fld (opB r.2) 0 3
      (kvRecordBad r.2 k r.1 = false → exec (.streamKvBind f) s = .next (sendKind (send (kvInstall r.2 k r.1) f.t0 0) f.t0 .eos 0)) ∧
      (kvRecordBad r.2 k r.1 = true → exec (.streamKvBind f) s = .next (illop r.2)))) ∧
  (∀ (f : MFmt) (s : State), Accesses f.pr false false s →
    let t := placedState s
    let c := opC t
    let slot := fld c 0 5
    let sf := f.sf.toNat
    let n := sfBytes sf
    let count := fld (opB t) 0 32
    let stride := signed (fld c 39 16) 16
    let first : Int := (opA t).toNat + offM f * (if f.i then (n : Int) else 1)
    let base : Int := if sf = 9 then offM f else first
    let byte := fun (e : Nat) => if sf = 9 then ((opA t).toNat : Int) + (base + e * stride) / 2 else base + e * stride * n
    let size := if sf = 9 then 1 else n
    let lo := min (byte 0) (byte (count - 1))
    let hi := max (byte 0) (byte (count - 1)) + size - 1
    let fits := count = 0 ∨ (0 ≤ lo ∧ sameHalf lo.toNat hi.toNat = true)
    let free := stream? t (curKey t) slot = none
    let good := fld c 62 2 = 0 ∧ fld c 5 34 = 0 ∧ (sf = 9 → bitAt c 61 = true)
    (fld c 62 2 = 1 ∨ fld c 62 2 = 3 ∨ (fld c 62 2 = 0 ∧ (fld c 5 34 ≠ 0 ∨ (sf = 9 ∧ bitAt c 61 = false))) → exec (.stream f) s = .next (illop t)) ∧
    (good → ¬ free → exec (.stream f) s = .next (waitCur t)) ∧
    (good → free → ¬ fits → exec (.stream f) s = .next (fault t F_NONCANON (BitVec.ofInt 64 (byte 0)) 0)) ∧
    (good → free → fits → sf ≠ 9 → first % n ≠ 0 → exec (.stream f) s = .next (fault t F_ALIGN (BitVec.ofInt 64 first) (BitVec.ofNat 64 n))) ∧
    (good → free → fits → (sf ≠ 9 → first % n = 0) → ∃ u x, exec (.stream f) s = .next u ∧ u.streams = t.streams ++ [x] ∧
      stream? u (curKey t) slot = some x ∧ x.inst = t.cur ∧ x.count = count ∧ x.pos = 0 ∧ x.done = [] ∧ x.base = base ∧ x.stride = stride ∧
      x.sf = sf ∧ x.ahead = fld c 55 6 ∧ x.waitcb = bitAt c 61 ∧ x.part = t.cur.part ∧ codebook u (curKey t) slot = 0 ∧
      u.mem = t.mem ∧ u.frames = t.frames ∧ u.net = t.net)) ∧
  (∀ (f : MFmt) (s : State),
    let t := placedState s
    (Accesses f.pr false false s →
      exec (.fence f) s = .next (send t f.t0 (opA t)) ∧
      (∀ u r rs, checkRun t t.cur.bay t.cur.part ⟨false, false, curSup t, true, none⟩ 0 (eaOf f 1 (opA t)) 1 1 = (u, .ok (r :: rs)) →
        exec (.pref f) s = .next (if r.uncached then t else l2Touch t t.cur.part (curTree t) r.pa false)) ∧
      ((∀ r rs, (checkRun t t.cur.bay t.cur.part ⟨false, false, curSup t, true, none⟩ 0 (eaOf f 1 (opA t)) 1 1).2 ≠ .ok (r :: rs)) →
        exec (.pref f) s = .next t)) ∧
    (Accesses f.pr true false s →
      (∀ s1 r rs, Translates t (eaOf f 1 (opA t)) 1 1 false s1 (r :: rs) → exec (.monitor f) s =
        .next (send (modFrame s1 s1.cur.part (curFrame s1) fun x => { x with mon := some ⟨r.pa / 64, 0, 0⟩ }) f.t0 (opA s1))) ∧
      (inTurn t = true → exec (.qfence f) s = .next (send (putQfence f (turned t)) f.t0 (opA (turned t)))) ∧
      (∀ fr, frame? t t.cur.part (curFrame t) = some fr →
        (fr.mon = none → exec (.waitm f) s = .next (send t f.t0 6)) ∧
        (∀ m, fr.mon = some m → m.cause ≠ 0 → exec (.waitm f) s =
          .next (send (modFrame t t.cur.part (curFrame t) fun x => { x with mon := none }) f.t0
            (if isDet (modFrame t t.cur.part (curFrame t) fun x => { x with mon := none }) t.cur.part then 0 else BitVec.ofNat 64 m.cause))))))

/-! ### Atomics -/

/-- R377–R379. An atomic whose run passes its checks, unpoisoned, writes what its operation gives for the value in memory and
its operand and sends the old value widened; cas writes c when the value equals b and else nothing; cas2 writes c and advances
the tag when the tag equals b and else nothing, and sends the old tag. -/
def Obligations.Atomics : Prop :=
  ∀ (f : MFmt) (s s1 : State) (rs : List Run), Accesses f.pr true true s →
    let n := sfBytes f.sf.toNat
    let t := placedState s
    let ea := (opA t).toNat + offM f
    let r := readRuns s1 s1.cur.part (curTree s1) rs
    let m := ofBytes r.1
    let b := fld (opB t) 0 (8 * n)
    let wr := fun (k v : Nat) => writeRuns (refetch s1 rs) s1.cur.part (curTree s1) rs (toBytes k (v % 2 ^ (8 * k)))
    let out := fun (v : Nat) => (.next (send (noteAct (wr n v)) f.t0 (widenSf f.sf.toNat (toBytes n m))) : Res)
    (Translates t ea n n true s1 rs →
      exec (.amoAdd f) s = out (m + b) ∧
      exec (.amoAnd f) s = out (m &&& b) ∧
      exec (.amoOr f) s = out (m ||| b) ∧
      exec (.amoXor f) s = out (m ^^^ b) ∧
      exec (.amoMin f) s = out (if f.i then (if signed m (8 * n) ≤ signed b (8 * n) then m else b) else min m b) ∧
      exec (.amoMax f) s = out (if f.i then (if signed m (8 * n) ≤ signed b (8 * n) then b else m) else max m b) ∧
      exec (.amoXchg f) s = out b ∧
      exec (.amoFadd f) s = out (faddF f32 0 false m b).1 ∧
      exec (.amoFmin f) s = out (fminmaxF f32 false false false m b).1 ∧
      exec (.amoFmax f) s = out (fminmaxF f32 false true false m b).1 ∧
      (m = b → exec (.cas f) s = out (fld (opC t) 0 (8 * n))) ∧
      (m ≠ b → exec (.cas f) s = .next (send (noteAct r.2) f.t0 (widenSf f.sf.toNat (toBytes n m))))) ∧
    (Translates t ea 16 16 true s1 rs →
      let told := nbits m 64 64
      let v := (opC t).toNat + (told + 1) % 2 ^ 64 * 2 ^ 64
      (told = (opB t).toNat → exec (.cas2 f) s = .next (send (noteAct (wr 16 v)) f.t0 (BitVec.ofNat 64 told))) ∧
      (told ≠ (opB t).toNat → exec (.cas2 f) s = .next (send (noteAct r.2) f.t0 (BitVec.ofNat 64 told))))

/-! ### Engine messages -/

/-- R185, R187, R394, R395, R400–R413, R414, R415. Every dedicated engine instruction that may send reads its beats and offers a
message of its opcode: accepted it enters its queue, refused it faults, and a full queue makes it wait; eng does so with the
header that it reads, and faults on a header whose other fields are not zero; qwait sends a once no command that it waits for is
left, and waits before. -/
def Obligations.EngineMessages : Prop :=
  (SendsMessage .mm 0x10 ∧ SendsMessage .acczero 0x11 ∧ SendsMessage .accld 0x12 ∧ SendsMessage .accst 0x13 ∧
  SendsMessage .copy 0x20 ∧ SendsMessage .gath 0x28 ∧ SendsMessage .gathw 0x29 ∧ SendsMessage .scat 0x2A ∧
  SendsMessage .scatadd 0x2B ∧ SendsMessage .tblswap 0x2C ∧ SendsMessage .cbload 0x2D ∧ SendsMessage .coll 0x40 ∧
  SendsMessage .osend 0x41 ∧ SendsMessage .orecv 0x42 ∧ SendsMessage .xsend 0x43 ∧ SendsMessage .xget 0x44 ∧
  SendsMessage .enghnd 0x08) ∧
  ((∀ (f : EFmt) (s u v : State) (l r : List Beat), Sends f.pr s →
    let t := turned s
    Beats t (opA t) 1 u l →
    let m := l.getD 0 0
    (fld m 98 22 = 0 → mCont m = 0 → Beats u (opA u) (mBeats m + 1) v r →
      Offers (exec (.eng f) s) v
        (mkHeader (mEop m) f.hnd.toNat f.q.toNat f.push.toNat f.pop.toNat (mBeats m) (mArg m) (contOf f v)) (r.drop 1)) ∧
    (fld m 98 22 ≠ 0 ∨ mCont m ≠ 0 →
      exec (.eng f) s = .next (fault u (engRefused m).1 (engRefused m).2.1 (engRefused m).2.2))) ∧
  (∀ (f : EFmt) (s : State),
    ((∀ k, s.cur.stage = some k → k < 5) → Sends f.pr s →
      let t := markSent (turned s)
      (t.cmds.any (qwaitsFor f t t.cur s.cmdNo) = false → exec (.qwait f) s = .next (send t f.t0 (opA t))) ∧
      (t.cmds.any (qwaitsFor f t t.cur s.cmdNo) = true → exec (.qwait f) s = .next (waitStage t (5 + s.cmdNo)))) ∧
    (∀ k, s.cur.stage = some (5 + k) →
      (s.cmds.any (qwaitsFor f s s.cur k) = false → exec (.qwait f) s = .next (send s f.t0 (opA s))) ∧
      (s.cmds.any (qwaitsFor f s s.cur k) = true → exec (.qwait f) s = .next (waitStage s (5 + k))))))

/-! ### Barriers, time and energy -/

/-- R12, R209, R432–R434, R446. A barrier waits until the accesses before it are performed; one of scope 0 sends 0; outside a
pod group an arrival counts, the last opens the next generation and clears the count, and a count that differs from the one in
progress is F_ILLOP; bara sends the generation that it joined; bar waits for the generation that follows its own; barw sends the
present generation once it differs from a, and waits before; each firing is named among its block's actions. In a pod group an
arrival sends a control flit and waits until it is delivered (which packages the flits go to is the model's choice, log 48). -/
def Obligations.Barriers : Prop :=
  ∀ (f : SFmt) (s : State), Acts f.pr s →
    let b := curBar f s
    let n := fld f.imm 4 16 + 1
    let arrived := fun (x : Bar) => noteAct (putBar s s.cur.part x)
    (curSettled s = false → exec (.bar f) s = .next (waitCur s) ∧ exec (.bara f) s = .next (waitCur s) ∧ exec (.barw f) s = .next (waitCur s)) ∧
    (curSettled s = true → fld f.md 0 3 = 0 →
      exec (.bar f) s = .next (send (noteAct s) f.t0 0) ∧ exec (.bara f) s = .next (send (noteAct s) f.t0 0) ∧
      exec (.barw f) s = .next (send (noteAct s) f.t0 0)) ∧
    (curSettled s = true → fld f.md 0 3 ≠ 0 →
      (s.cur.stage = none → b.scope ≠ 5 →
        (b.cnt ≠ 0 → n ≠ b.n → exec (.bar f) s = .next (illop s) ∧ exec (.bara f) s = .next (illop s)) ∧
        (b.cnt = 0 ∨ n = b.n →
          let x : Bar := if b.cnt + 1 = n then { b with gen := b.gen + 1, cnt := 0, n := n } else { b with cnt := b.cnt + 1, n := n }
          exec (.bara f) s = .next (send (arrived x) f.t0 (BitVec.setWidth 64 b.gen)) ∧
          exec (.bar f) s = .next (barAwait f (arrived x) b.gen))) ∧
      (s.cur.stage = none → b.scope = 5 →
        (rxRoom s localPart = false → exec (.bar f) s = .next (waitCur s) ∧ exec (.bara f) s = .next (waitCur s)) ∧
        (rxRoom s localPart = true →
          let c : BarFlit := ⟨fld f.imm 0 4, n, s.cmdNo, curTree s⟩
          let t := sendBar f s
          exec (.bar f) s = .next t ∧ exec (.bara f) s = .next t ∧ t.cmdNo = s.cmdNo + 1 ∧
            t.pkg.rxbuf = s.pkg.rxbuf ++ [(localPart, ownCopy (barPacket s c s.pkg.number.toNat))])) ∧
      (s.cur.stage = some 1 → exec (.bar f) s = .next (illop s) ∧ exec (.bara f) s = .next (illop s)) ∧
      (∀ k, s.cur.stage = some k → barSent ≤ k → exec (.bar f) s = .next (waitCur s) ∧ exec (.bara f) s = .next (waitCur s)) ∧
      (∀ k, s.cur.stage = some k → k < barSent → k ≠ 1 →
        exec (.bar f) s = .next (barAwait f s (BitVec.ofNat 8 (k - 2))) ∧
        exec (.bara f) s = .next (send s f.t0 (BitVec.setWidth 64 (BitVec.ofNat 8 (k - 2))))) ∧
      (let u := if s.cur.stage = none then noteAct s else s;
        (b.gen ≠ BitVec.setWidth 8 (opA s) → exec (.barw f) s = .next (send u f.t0 (BitVec.setWidth 64 b.gen))) ∧
        (b.gen = BitVec.setWidth 8 (opA s) → exec (.barw f) s = .next (waitStage u (2 + b.gen.toNat)))))

/-- R171, R435–R439. tnow sends the pod time, or raises F_DETVIOL where time may not be read; attime faults on a bad record and
keeps any other, which it puts on a free timed entry, to be released at its time or at the next tick where that has passed, and
sends the entry; it waits without one, and behind an attime that fired before it; elease grants within the request, and within
the headroom unless it grants nothing, adds the grant to its tree and sends it; equery sends the quantity that MOD names; yield
holds its token. -/
def Obligations.TimeAndEnergy : Prop :=
  (∀ (f : SFmt) (s : State), Acts f.pr s →
    let p := s.cur.part
    let t := part s p
    let g := grant (bitAt f.md 0) (opA s).toNat (headroom t)
    (timeBarred s p = false → exec (.tnow f) s = .next (send s f.t0 s.pkg.podTime)) ∧
    (timeBarred s p = true → exec (.tnow f) s = .next (fault s F_DETVIOL s.cur.word 0)) ∧
    (s.cur.rcd = none → curOldest s = true → accessTurn s = true → ∀ s1 rs, Translates s (opA s).toNat 64 16 false s1 rs →
      let u := (loadRuns s1 0x3F rs).2
      let rcd : BitVec 512 := BitVec.ofNat 512 (ofBytes (loadRuns s1 0x3F rs).1)
      let fired := modCur { u with cmdNo := u.cmdNo + 1 } fun i => { i with rcd := some rcd, stage := some (10 + u.cmdNo) }
      (recordBad u p rcd = none → exec (.attime f) s = .next (placeTimed f fired rcd)) ∧
      (∀ c x y, recordBad u p rcd = some (c, x, y) → exec (.attime f) s = .next (fault u c x y))) ∧
    (∀ rcd, s.cur.rcd = some rcd → exec (.attime f) s = .next (placeTimed f s rcd)) ∧
    (curOldest s = true →
      (treeRec s = none → exec (.elease f) s = .next (send (noteAct s) f.t0 (BitVec.ofNat 64 g))) ∧
      (∀ tr, treeRec s = some tr →
        let late := fun (x : Tree) => if x.live then x.late else leaseShare x + g
        let leased := fun (x : Tree) =>
          { x with lease := min (x.lease + g) (2 ^ 64 - 1), late := late x, notified := x.notified && x.lease + g == 0 }
        let u := modPart s p fun t => { t with trees := updWhere (fun x => x.id == tr.id) leased t.trees }
        exec (.elease f) s = .next (send (noteAct u) f.t0 (BitVec.ofNat 64 g)))) ∧
    (fld f.md 0 2 = 0 → exec (.equery f) s = .next (send s f.t0 (BitVec.ofNat 64 (((treeRec s).map (·.lease)).getD 0)))) ∧
    (fld f.md 0 2 = 1 → exec (.equery f) s = .next (send s f.t0 t.enUsed)) ∧
    (fld f.md 0 2 = 2 → exec (.equery f) s = .next (send s f.t0 t.enBudget)) ∧
    (fld f.md 0 2 = 3 → exec (.equery f) s = .next (send s f.t0 (BitVec.ofNat 64 (headroom t).toNat))) ∧
    (s.cur.stage = none → exec (.yield f) s = .next (waitStage s s.pkg.cycle))) ∧
  (∀ (f : SFmt) (s : State) (rcd : BitVec 512),
    let p := s.cur.part
    (∀ k, attimeBefore s = false → freeTimed (part s p) = some k →
      let x : Timed := ⟨k, opB s, max (opB s).toNat (s.pkg.podTime.toNat + 1), rcd⟩
      placeTimed f s rcd = send (noteAct (modPart s p fun t => { t with timed := t.timed ++ [x] })) f.t0 (BitVec.ofNat 64 k)) ∧
    (attimeBefore s = true ∨ freeTimed (part s p) = none → placeTimed f s rcd = waitCur s)) ∧
  (∀ (all : Bool) (a : Nat) (h : Int),
    grant all a h ≤ a ∧ (grant all a h ≠ 0 → (grant all a h : Int) ≤ h) ∧
    (all = true → grant all a h = 0 ∨ grant all a h = a) ∧ (all = false → 0 ≤ h → (grant all a h : Int) = min (a : Int) h))

/-! ### System registers -/

/-- R80, R89, R91, R440, R449, R82, R83, R86, R265. rdsr sends the register that SR names; a supervisor register at user level
is F_PROT, and time that may not be read F_DETVIOL; wrsr of FSTAT, at supervisor level of an aligned canonical TRAP_VEC and of
WIDTH_ACH with 0, keeps its write for the commit and sends a; a TRAP_VEC that is not canonical or aligned, and every other
register or value, faults. -/
def Obligations.SystemRegisters : Prop :=
  (∀ (f : SFmt) (s : State), Acts f.pr s →
    let n := f.sr.toNat
    (srReadS n = true → curSup s = false → exec (.rdsr f) s = .next (fault s F_PROT (BitVec.ofNat 64 n) 0)) ∧
    (n = 0x050 → timeBarred s s.cur.part = true → exec (.rdsr f) s = .next (fault s F_DETVIOL s.cur.word 0)) ∧
    (∀ v, n = 0x001 → blockFpc s s.cur.part (curFrame s) s.cur.seq = some v →
      exec (.rdsr f) s = .next (send s f.t0 (BitVec.setWidth 64 v))) ∧
    (∀ fr, n = 0x002 → curOldest s = true → frame? s s.cur.part (curFrame s) = some fr →
      exec (.rdsr f) s = .next (send s f.t0 (BitVec.setWidth 64 fr.fstat))) ∧
    (n ≠ 0x001 → n ≠ 0x002 → (srReadS n = true → curSup s = true) → (n = 0x050 → timeBarred s s.cur.part = false) →
      exec (.rdsr f) s = .next (send s f.t0 (srValue s n (bitAt f.imm 0))))) ∧
  (∀ (f : SFmt) (s : State), Acts f.pr s →
    let n := f.sr.toNat
    let a := opA s
    let kept : Res :=
      .next (send (modBlock s s.cur.part (curFrame s) s.cur.seq fun b => { b with wrsrs := b.wrsrs ++ [(n, a)] }) f.t0 a)
    let refused : Res := .next (fault s F_PROT (BitVec.ofNat 64 n) 0)
    (n = 0x002 → exec (.wrsr f) s = kept) ∧
    (n = 0x020 → curSup s = true → canon a.toNat = true → a.toNat % 8 = 0 → exec (.wrsr f) s = kept) ∧
    (n = 0x020 → curSup s = true → canon a.toNat = true → a.toNat % 8 ≠ 0 → exec (.wrsr f) s = .next (fault s F_ALIGN a 8)) ∧
    (n = 0x020 → curSup s = true → canon a.toNat = false → exec (.wrsr f) s = .next (fault s F_NONCANON a 0)) ∧
    (n = 0x060 → curSup s = true → a = 0 → exec (.wrsr f) s = kept) ∧
    (n = 0x060 → a ≠ 0 → exec (.wrsr f) s = refused) ∧
    (n ≠ 0x002 → curSup s = false → exec (.wrsr f) s = refused) ∧
    (n ≠ 0x002 → n ≠ 0x020 → n ≠ 0x060 → exec (.wrsr f) s = refused))

/-! ### Traps, services, controls and events -/

/-- R441–R445, R447. trap and brk raise their exception with slot a and the code of the immediate, and brk.hv stops to the
hypervisor; hcall at user level is F_PROT, service 1 submits its invalidation or faults on a malformed one, 2 writes the stage-1
root, 16 and up ask the hypervisor and wait, any other sends all ones; event notes its interrupt for the commit, or posts it in
a grid; fpcset sets the controls that its block commits, and a null leaves them. -/
def Obligations.TrapsAndServices : Prop :=
  ∀ (f : SFmt) (s : State),
    let p := s.cur.part
    let v := fld f.imm 0 8
    let put := fun (x : Option (BitVec 5)) => modBlock s p (curFrame s) s.cur.seq fun b => { b with fpc := some x }
    (Acts f.pr s →
      exec (.trap f) s = .next (faultAux s F_TRAP (opA s) 0 (BitVec.setWidth 64 f.imm)) ∧
      (bitAt f.md 0 = false → exec (.brk f) s = .next (faultAux s F_BRK (opA s) 0 (BitVec.setWidth 64 f.imm))) ∧
      (bitAt f.md 0 = true → curOldest s = true →
        exec (.brk f) s = .next (stopToHyper s { recCur s F_BRK (opA s) 0 with aux := BitVec.setWidth 64 f.imm })) ∧
      (curSup s = false → exec (.hcall f) s = .next (fault s F_PROT (BitVec.ofNat 64 v) 0)) ∧
      (curSup s = true → curOldest s = true → s.cur.stage = none →
        (v = 2 → exec (.hcall f) s = .next (send (noteAct (modPart s p fun t => { t with ent := t.ent.set 12 (opA s) })) f.t0 0)) ∧
        (∀ s1 rs, v = 1 → Translates s (opA s).toNat 32 8 false s1 rs →
          let u := (loadRuns s1 0x3F rs).2
          let d : BitVec 256 := BitVec.ofNat 256 (ofBytes (loadRuns s1 0x3F rs).1)
          (invBad d = false → bitAt d 99 = false → exec (.hcall f) s = .next (send (noteAct (startInval u p d false)) f.t0 0)) ∧
          (invBad d = true ∨ bitAt d 99 = true → exec (.hcall f) s = .next (fault u F_PROT (opA u) 0))) ∧
        (16 ≤ v →
          let n := numbered s { recCur s F_HCALL (opA s) 0 with aux := BitVec.ofNat 64 v }
          exec (.hcall f) s = .next (waitStage (noteAct (hfqWrite n.2 n.1 true)) (2 + n.1.seq))) ∧
        (v = 0 ∨ (3 ≤ v ∧ v < 16) → exec (.hcall f) s = .next (send (noteAct s) f.t0 0xFFFFFFFFFFFFFFFF))) ∧
      (s.cur.grid = none → exec (.event f) s =
        .next (send (modBlock s p (curFrame s) s.cur.seq fun b => { b with events := b.events ++ [(fld f.imm 0 6, opA s)] }) f.t0 (opA s))) ∧
      (∀ g, s.cur.grid = some g → exec (.event f) s =
        .next (send (interrupt s p 2 (fld f.imm 0 6) (opA s)) f.t0 (opA (interrupt s p 2 (fld f.imm 0 6) (opA s)))))) ∧
    (anyEos s.cur = false → anyNull s.cur = false → predOk f.pr s = true →
      (bitAt f.md 0 = true → exec (.fpcset f) s =
        .next (send (put (some (BitVec.setWidth 5 f.imm))) f.t0 (BitVec.setWidth 64 (BitVec.setWidth 5 f.imm)))) ∧
      (bitAt f.md 0 = false → exec (.fpcset f) s =
        .next (send (put (some (BitVec.setWidth 5 (opA s)))) f.t0 (BitVec.setWidth 64 (BitVec.setWidth 5 (opA s)))))) ∧
    (anyEos s.cur = false → anyNull s.cur = true → exec (.fpcset f) s = .next (sendAll (put none) [f.t0] .null 0))

/-! ### Tokens between sending and firing -/

/-- R28, R155, R156, R160, R165, R177, R239. In a slot that its partition owns a token at the head of its way arrives as its
place takes it; one whose frame is out of range or not live is reported as F_TAGRANGE; the tokens that wait in a cell, or for
one row index, are examined again, the oldest that can act first, until none can; in a slot that it owns a cell issues the first
gang of its order and is charged; an instance that waited 4,096 cycles rises one level. -/
def Obligations.TokensMove : Prop :=
  (∀ (n : Nat) (s t : State) (x : Flight), s.net[n]? = some x → savedAway s x.part = false → inSlot s x.part = true →
    blockedBehind s.net n x = false →
    let out := { s with net := dropAt n s.net }
    (arrive out x = some t → imageTouch s t x = .ok s → exec (.tokenArrival n) s = .next t) ∧
    (x.cfg = none → inRange out x.part x.tok.tag.frame.toNat = false → exec (.tokenArrival n) s = .next (tagRange out x false)) ∧
    (x.cfg = none → inRange out x.part x.tok.tag.frame.toNat = true → frame? out x.part x.tok.tag.frame.toNat = none →
      exec (.tokenArrival n) s = .next (tagRange out x true))) ∧
  (∀ (n : Nat) (s : State) (e : QEntry), s.queues[n]? = some e → savedAway s e.part = false →
    (tryCell s e = none → exec (.collisionRetry n) s = .next s) ∧
    (∀ u, tryCell s e = some u → exec (.collisionRetry n) s = .next (settle e (63 + s.queues.length) u))) ∧
  (∀ (bay cell p : Nat) (s : State) (x : Inst) (xs : List Inst), cell < 256 → bayOwner s bay = some p → bayGated s p bay = false →
    s.issued.contains (bay, cell) = false → inSlot s p = true →
    issueOrder s (isDet s p) (s.ready.filter fun i => i.bay == bay && i.cell == cell && mayIssue s i) = x :: xs →
    let gang := x :: fillGang x [x.tag] xs (8 - lanes x)
    let t := { s with ready := gang.foldl (fun l i => l.erase i) s.ready, pipe := s.pipe ++ gang, issued := s.issued ++ [(bay, cell)] }
    let t := modPart t p fun r => { r with widthAch := r.widthAch + BitVec.ofNat 64 gang.length }
    exec (.gangIssue bay cell) s = .next (gang.foldl (fun t i => charge t p (treeOf t p i.tag.frame.toNat) 2 (lanes i)) t)) ∧
  (∀ (n : Nat) (s : State) (i : Inst), s.ready[n]? = some i → 4096 ≤ i.wait → i.level ≠ 0 →
    exec (.priorityAging n) s = .next { s with ready := s.ready.set n { i with level := i.level - 1, wait := 0 } })

/-- R115, R155, R156, R159, R160. When every other slot that the word takes holds a token of its identity and the ready queue
has room, a waiting token fires an instance of that word under its tag, and takes the partners, or raises F_MEMECC where a
partner's word is poisoned; when a partner is missing it rests in an empty slot, one of the same identity there raises F_DUPTOK
with both values, and one of another identity keeps it waiting; a token for a slot that the word does not take fires nothing,
and a block without cell-contexts fires nothing. Of the tokens that wait in one cell, or for one row index, the oldest that can
act acts. -/
def Obligations.TokensMatch : Prop :=
  (∀ (s : State) (b : Block) (idx n : Nat) (e : QEntry),
    let t := e.tok
    let w := b.words.getD idx 0
    let used := wordSlots w
    let others := used.filter (· != e.slot)
    let bay := ((frame? s b.part b.frame).map (·.bay)).getD 0
    let pl := b.places.getD idx (0, 0)
    let out := { s with queues := dropAt n s.queues }
    let partner := fun (o : Slot) => ∃ x, resting? s b.part b.frame idx o = some x ∧ sameId x t (some b.seq) = true
    (displaced b = true → matchBlock s b idx n e = none) ∧
    (displaced b = false → e.slot ∈ used → (∀ o ∈ others, partner o) →
      (readyRoom s bay pl.1 = false → matchBlock s b idx n e = none) ∧
      (readyRoom s bay pl.1 = true → rowPoison s b.part b.frame idx used e.slot = none →
        ∃ i u, matchBlock s b idx n e = some u ∧ u.ready = s.ready ++ [i] ∧ i.word = w ∧ i.tag = t.tag ∧ i.bay = bay ∧ i.cell = pl.1 ∧
          u.queues = out.queues ∧
          u.slots = s.slots.filter fun x => !(x.part == b.part && x.frame == b.frame && x.idx == idx && others.contains x.slot)) ∧
      (∀ a, readyRoom s bay pl.1 = true → rowPoison s b.part b.frame idx used e.slot = some a → b.held = none → ∃ r : FaultRec,
        matchBlock s b idx n e = some (raiseBlock s b.part b.frame b.seq r) ∧ r.code = F_MEMECC ∧ r.g4 = BitVec.ofNat 64 (8 * a))) ∧
    (displaced b = false → e.slot ∉ used ∨ (∃ o ∈ others, ¬ partner o) →
      (resting? s b.part b.frame idx e.slot = none → ∃ u, matchBlock s b idx n e = some u ∧
        u.slots = s.slots ++ [⟨b.part, b.frame, idx, e.slot, some b.seq, none, t⟩] ∧ u.queues = out.queues ∧ u.ready = s.ready) ∧
      (∀ x, resting? s b.part b.frame idx e.slot = some x →
        (sameId x t (some b.seq) = true → ∃ r : FaultRec,
          matchBlock s b idx n e = some (raiseBlock out b.part b.frame b.seq r) ∧ r.code = F_DUPTOK ∧ r.g4 = x.tok.data ∧ r.g5 = t.data) ∧
        (sameId x t (some b.seq) = false → matchBlock s b idx n e = none)))) ∧
  (∀ (s u : State) (e : QEntry), tryCell s e = some u →
    ∃ n d, s.queues[n]? = some d ∧ together s e d = true ∧ tryHead s n d = some u ∧
      ∀ m c, m < n → s.queues[m]? = some c → together s e c = true → tryHead s m c = none)

/-! ### Blocks -/

/-- R33, R34, R38, R292, R358. A frame with fewer than four blocks in flight fetches where its exit leads; a displaced block
takes new cell-contexts, before the next block takes its first and its reads fire; the oldest block, with all its receipts and
nothing in flight, commits in its turn, and with a receipt missing raises F_NOEXIT; a parked frame resumes at the address of its
exitg token. -/
def Obligations.BlockEvents : Prop :=
  ∀ (p f : Nat) (s : State) (fr : Frame), frame? s p f = some fr → fr.resident = true → fr.fault = none →
    (∀ k a spec, fr.ending = false → bayGated s p fr.bay = false → (blocksOf s p f).length < 4 → fetchTarget s fr k = some (a, spec) →
      (∀ b ∈ blocksOf s p f, b.addr ≠ a) → exec (.blockFetch p f k) s = .next (fetchAt s fr a spec)) ∧
    (∀ b pl, bayGated s p fr.bay = false →
      (blocksOf s p f).find? (fun b => displaced b || (b.places.isEmpty && b.held.isNone)) = some b →
      (displaced b = true → exec (.blockPlacement p f) s = .next (replaceBlock s fr b)) ∧
      (displaced b = false → assignPlaces b.words (freePlaces s fr.bay) = some pl → readyFits s (readInsts s fr b pl) = true →
      let t := modBlock s p f b.seq fun b => { b with places := pl }
      exec (.blockPlacement p f) s = .next { t with ready := t.ready ++ readInsts t fr b pl })) ∧
    (∀ b, savedAway s p = false → (blocksOf s p f).head? = some b → b.places ≠ [] → inFlight s p f b.seq = false →
      (receiptsMet b = true → b.ret = none ∨ fr.retHold = none →
        (s.stores.any fun h => h.part == p && h.frame == f && h.seq == b.seq && h.region.isNone) = false ∨ blockTurn s p f = true →
        editCheck s fr b = none → exec (.blockCommit p f) s = .next (commitBlock s fr b none)) ∧
      (receiptsMet b = true → ∀ x v, b.ret = some x → fr.retHold = some v → ∃ r : FaultRec,
        exec (.blockCommit p f) s = .next (haltFrame s p f b.seq r) ∧ r.code = F_DUPTOK ∧ r.index = x.1 ∧ r.g4 = v.2.getD 0 ∧ r.g5 = x.2.getD 0 ∧ r.aux = 0xC00) ∧
      (receiptsMet b = false → ∃ r : FaultRec, exec (.blockCommit p f) s = .next (haltFrame s p f b.seq r) ∧ r.code = F_NOEXIT ∧
        r.part = p ∧ r.addr = b.addr ∧ r.bseq = b.seq ∧ r.g4 = BitVec.ofNat 64 (missingWrites b))) ∧
    (∀ n x, s.exitgs[n]? = some x → x.part = p → x.tok.tag.frame.toNat = f → fr.parked = true → blocksOf s p f = [] →
      stopped s p = false → exitgBehind s n x = false →
      let t := modFrame { s with exitgs := dropAt n s.exitgs } p f
        fun fr => { fr with parked := false, nextAddr := some x.addr, resumed := some x.tok.ord }
      exec (.exitgResume n) s = .next (entryToken t p f 0 (slotNo x.slot * 128 + x.idx) x.tok.data))

/-- R34, R36, R65, R83. Each general and soft register that the block wrote with data takes that value, and every other keeps
its own; the flags are ORed into FSTAT, or into the value that a wrsr of the block wrote to it. -/
def Obligations.CommitApplies : Prop :=
  ∀ (b : Block) (f : Frame), f.g.length = 64 → f.sk.length = 8 →
    (b.wr.map (·.1)).Nodup → (b.sk.map (·.1)).Nodup →
    (∀ k v, (k, some v) ∈ b.wr → k < 64 → (commitRegs b f).g[k]? = some v) ∧
    (∀ k, (∀ v, (k, some v) ∉ b.wr) → (commitRegs b f).g[k]? = f.g[k]?) ∧
    (∀ k v, (k, some v) ∈ b.sk → k < 8 → (commitRegs b f).sk[k]? = some v) ∧
    (∀ k, (∀ v, (k, some v) ∉ b.sk) → (commitRegs b f).sk[k]? = f.sk[k]?) ∧
    (assoc 0x002 b.wrsrs = none → (commitRegs b f).fstat = f.fstat ||| b.flags) ∧
    (∀ v, assoc 0x002 b.wrsrs = some v → (commitRegs b f).fstat = BitVec.setWidth 7 v ||| b.flags) ∧
    (commitRegs b f).part = f.part ∧ (commitRegs b f).num = f.num ∧ (commitRegs b f).bay = f.bay

/-! ### Launches and frames -/

/-- R170–R173, R269. A launch record at the head of the inbox joins its queue behind a timed one that is due, or is refused and
reported; a timed launch whose time has come joins its queue; the first head, from L0 down, that is admitted starts its frame; a
head whose lease exceeds the headroom, or of a partition that has spent its budget, is not admitted. -/
def Obligations.Launches : Prop :=
  ∀ (p : Nat) (s t : State), stopped s p = false →
    (∀ m l, (part s p).inbox = m :: l → fld (m.headD 0) 120 8 = 1 → timedFirst s p = false →
      (recordBad s p (recOf m) = none → appendLaunch s p ⟨recOf m, true⟩ = (t, true) → exec (.hostLaunchIntake p) s = .next (popInbox t p)) ∧
      (∀ c x y, recordBad s p (recOf m) = some (c, x, y) → exec (.hostLaunchIntake p) s =
        .next (deliverN (popInbox s p) { recBase c p with flags := flHost, g4 := x, g5 := y } .nothing))) ∧
    (∀ x, dueTimed (part s p) s.pkg.podTime = some x → appendLaunch s p ⟨x.rcd, false⟩ = (t, true) →
      exec (.timedLaunchRelease p) s = .next (modPart t p fun r => { r with timed := r.timed.erase x })) ∧
    (∀ k, live s p = true → k < 4 → (∀ j, j < k → admitHead (refillAll s p) p j = none) → admitHead (refillAll s p) p k = some t →
      exec (.launchAdmission p) s = .next (refillAll t p)) ∧
    (∀ k r l, (part s p).launch.getD k [] = r :: l →
      headroom (part s p) < recLease r.rcd ∨ (part s p).enBudget.toNat ≤ (part s p).enUsed.toNat → admitHead s p k = none)

/-- R46, R166, R175, R504, R448, R450, R451. Into a free row a spilled frame with a full append area reloads first, then a
deferred spawn starts in the bay that has most free rows, then another spilled frame reloads, the lowest FNAME first; the oldest
record takes a trap frame at TRAP_VEC, as it stood when a later block wrote it, whose first eight registers hold the record and
whose others are 0, and the host is notified; with TRAP_VEC 0 the partition halts. -/
def Obligations.FramesStart : Prop :=
  (∀ (p bay : Nat) (s : State), 0 < freeRows s bay → trapWants s p = false → departing (part s p) bay = false →
    (part s p).preHalted = false →
    (∀ f, lowestName ((spilledOf s p bay).filter (appendFull s)) = some f →
      exec (.frameReload p bay) s = .next (meetLate (reload s f) p f.num)) ∧
    (∀ f, lowestName ((spilledOf s p bay).filter (appendFull s)) = none → lowestName (spilledOf s p bay) = some f →
      (s.deferred.any fun d => d.part == p) = false ∨ freeFrame s p = none →
      exec (.frameReload p bay) s = .next (meetLate (reload s f) p f.num)) ∧
    (∀ d num t, s.deferred.find? (fun d => d.part == p) = some d → freeFrame s p = some num → roomiest s p = some bay →
      stopped s p = false → (spilledOf s p bay).any (appendFull s) = false →
      startFrame s { newFrame p num 0 0 d.fname with pri := d.pri, tree := d.tree, fpc := d.fpc, parent := d.parent } bay d.addr = .ok t →
      exec (.deferredSpawnAllocation p bay) s =
        .next (entryToken { t with deferred := t.deferred.erase d } p num 0 (slotNo d.slot * 128 + d.idx) d.arg))) ∧
  (∀ (p : Nat) (s : State) (x : TrapItem) (l : List TrapItem), (part s p).trapQ = x :: l → stopped s p = false → faultsNow s x = false →
    let vec := fun (t : State) => x.vec.getD (part t p).trapVec
    (vec s = 0 → exec (.trapFrameAllocation p) s = .next (haltWhole s p x)) ∧
    (vec s ≠ 0 → liveTraps s p < 16 →
      ∀ num bay u t, freeFrame s p = some num → launchRoom s p = .row u bay → isDet u p = false →
        let fr := { newFrame p num 0 0 0 with trap := some x, g := recWords x.rcd ++ List.replicate 56 0 }
        startFrame u fr bay (vec u) = .ok t →
        exec (.trapFrameAllocation p) s = .next (notifyFault (modPart t p fun r => { r with trapQ := r.trapQ.drop 1 }) p)))

/-! ### Taking an exception -/

/-- R38, R447, R448, R450. A fault of a block of a frame that is neither halted nor a trap frame halts the frame with its record
and no next address; the record takes the next number of its partition and joins those that await a trap frame; memory, the
shelf, the accumulators, the package and every other frame stand. -/
def Obligations.ExceptionIsTaken : Prop :=
  ∀ (s : State) (p f q : Nat) (r : FaultRec) (fr : Frame), frame? s p f = some fr → fr.fault = none → fr.trap = none →
    p < s.parts.length → r.part = p → r.pkg = false →
    let t := haltFrame s p f q r
    (∃ r' fr', frame? t p f = some fr' ∧ fr' = { fr with fault := some r', nextAddr := none } ∧ r'.code = r.code ∧
      (part t p).trapQ = (part s p).trapQ ++ [⟨{ r' with seq := (part s p).recSeq }, .frame f, none⟩]) ∧
    (part t p).recSeq = ((part s p).recSeq + 1) % 2 ^ 32 ∧
    (∀ p' f', ¬ (p' = p ∧ f' = f) → frame? t p' f' = frame? s p' f') ∧
    t.mem = s.mem ∧ t.shelf = s.shelf ∧ t.acc = s.acc ∧ t.pkg = s.pkg

/-! ### Events of regions -/

/-- R218, R220, R223–R225, R228, R365, R126, R230, R231. The placer installs a waiting request at its first fit and sends its
handle; a drained region releases what a checkpoint holds and then answers with its residue, discards and flags, and is freed
for cfgrel and open again for drain; a settled call pushes a plane, or faults where its image no longer passes, a settled return
pops a plane; bad configuration words gate their region and, once it has settled, are reloaded from a good protected copy; a
region with checkpoints goes back to its checkpoint, with its logged entry tokens in front of the others and the values of the
stores that it let out sent again; without a good copy F_CFGECC freezes the region. -/
def Obligations.RegionEvents : Prop :=
  ((∀ (n : Nat) (s t : State) (i : Inst) (m : Img × List Word) (ft : Fit), s.waits[n]? = some i → savedAway s i.part = false →
    opOf i.word = 0x83 → i.stage = some 9 → accessTurn { s with cur := i } = true → cfgreqRead (xWord i) { s with cur := i } = (t, .ok m) →
    findFit t i.part i.bay m.1.w m.1.h m.1.c m.1.ne = some ft →
    ∀ v, (m.1.ck = false ∧ v = t) ∨ (m.1.ck = true ∧ atticTouch t i.part (1152 * m.1.w * m.1.h * m.1.c) true true = .ok v) →
    let u := installRegion { v with waits := dropAt n v.waits } i.part m.1 ft m.2 (engineKey v i)
    exec (.regionPlacement n) s =
      .next { sendBack u [(xWord i).t0] (BitVec.ofNat 64 (ft.bay * 2 ^ 32 + ft.idx * 256 + ft.ebase)) with cur := s.cur }) ∧
  (∀ (bay g n : Nat) (s t : State) (r : Region) (i : Inst), region? s bay g = some r → drainer s r = some (n, i) →
    savedAway s r.part = false → drained s r = true →
    let res := min 0xFFFF (r.residue + restingOf s r)
    let v : Word := BitVec.ofNat 64 (res * 2 ^ 48 + discSum s r * 2 ^ 32) + BitVec.setWidth 64 r.flags
    let u := { dropResting s r with waits := dropAt n s.waits, cur := i }
    let answer := fun u => { sendBack u [(getA i.word).t0, (getA i.word).t1] v with cur := s.cur }
    (holdsOut s r = true → takeCkpt s r [] = .ok t → exec (.regionDrainComplete bay g) s = .next t) ∧
    (holdsOut s r = false → opOf i.word = 0x84 → exec (.regionDrainComplete bay g) s = .next (answer (freeRegion u bay g))) ∧
    (holdsOut s r = false → opOf i.word ≠ 0x84 →
      let d := modRegion u bay g fun r => { r with closed := false, flags := 0, residue := 0 }
      let d := { d with ctxs := updWhere (fun c => c.bay == bay && c.region == g) (fun c => { c with disc := 0 }) d.ctxs }
      exec (.regionDrainComplete bay g) s = .next (answer d))) ∧
  (∀ (bay g eb : Nat) (s t : State) (r : Region) (i : Inst) (addr : Word) (m : Img), region? s bay g = some r →
    r.phase = .callGate i addr → savedAway s r.part = false → settledRegion s r = true →
    let read := readImage s bay r.part true (tagWord i.tag) (treeOf s r.part i.tag.frame.toNat) addr
    let refused := fun c g4 g5 =>
      { fault { modRegion t bay g (fun r => { r with phase := .run }) with cur := i } c g4 g5 with cur := t.cur }
    (∀ c g4 g5, read = (t, .error (.bad c g4 g5)) → exec (.gcallSettled bay g) s = .next (refused c g4 g5)) ∧
    (∀ c g4 g5, read = (t, .ok m) → callBad t r m i.word = some (c, g4, g5) → exec (.gcallSettled bay g) s = .next (refused c g4 g5)) ∧
    (read = (t, .ok m) → callBad t r m i.word = none → entryRun t r.part r.name.1 m.ne = some eb →
      ∀ v, (chipPlanes r < 4 ∧ v = t) ∨ (4 ≤ chipPlanes r ∧ atticTouch t r.part (planeBytes r) true true = .ok v) →
      exec (.gcallSettled bay g) s = .next (pushPlane v r i m eb))) ∧
  (∀ (bay g : Nat) (s t : State) (r : Region) (i : Inst) (pl : Plane) (rest : List Plane), region? s bay g = some r →
    r.phase = .retGate i → r.planes = pl :: rest → savedAway s r.part = false → settledRegion s r = true → r.fault = none →
    planeFits s r pl = true →
    (pl.attic = false ∧ t = s) ∨ (pl.attic = true ∧ atticTouch s r.part (planeBytes r) false false = .ok t) →
    exec (.gretThaw bay g) s = .next (pairRegion (popPlane t r pl rest) bay g))) ∧
  (∀ (bay g : Nat) (s : State) (r : Region), region? s bay g = some r → r.fault = none → (regionCtxs s r).any (·.bad) = true →
    (r.ck = false → r.phase = .run →
      exec (.configEccRecovery bay g) s = .next (modRegion s bay g fun r => { r with phase := .eccGate })) ∧
    (r.ck = false → r.phase = .eccGate → settledRegion s r = true →
      let t := modRegion s bay g fun r => { r with phase := .run }
      (copyGood t r = true → exec (.configEccRecovery bay g) s =
        .next (pairRegion { t with ctxs := updWhere (fun c => c.bay == bay && c.region == g && c.bad) reloadCtx t.ctxs } bay g)) ∧
      (copyGood t r = false → exec (.configEccRecovery bay g) s = .next (cfgEcc t r))) ∧
    (∀ ck, r.ck = true → r.ckpt = some ck →
      (copyGood s r = false → exec (.checkpointRecovery bay g) s = .next (cfgEcc s r)) ∧
      (∀ u, copyGood s r = true → planeFits s r ck.top = true → atticTouch s r.part (planeBytes r) false false = .ok u →
        let again := r.entryLog.map fun x => { x with sender := replaySender r }
        let v := { u with stores := u.stores.filter (fun h => !(h.bay == bay && h.region == some g)),
                          net := again ++ u.net.filter fun x => !toRegion r x && !callArg r x && !replays r x }
        let w := modRegion v bay g fun r => { r with exitHold := [], entryLog := [], planes := ck.under }
        exec (.checkpointRecovery bay g) s = .next (pairRegion (sendReplies (loadPlane w r ck.top) ck.sent) bay g) ∧
        (loadPlane w r ck.top).ctxs = (u.ctxs.filter fun c => !(c.bay == r.bay && c.region == r.idx)) ++ ck.top.ctxs ∧
        (loadPlane w r ck.top).mem = u.mem ∧ (loadPlane w r ck.top).frames = u.frames)))

/-! ### Engine commands -/

/-- R76, R77, R118, R396, R400, R401. An issued mm, accld or accst performs its elements in order, n shelf words or elements in
this step, and ends with status 0 once each of them has answered; an element of mm adds the products of its row and column to
its accumulator word, in chunks of 32 products or exactly in integers; accld moves an operand element to the accumulator and
accst back. -/
def Obligations.MatrixCommands : Prop :=
  (∀ (r : QRef) (n m : Nat) (s t : State) (c d : Cmd), m ≤ n → cmd? t c.id = some d →
    let x := c.beats.getD 2 0
    let load := fun (s : State) (c : Cmd) =>
      gotten c (readElem s c (c.beats.getD 0 0) 0 (c.pos / 128) (c.pos % 128) 0) fun s v => accFill s c (rangeWord c) (fld v 0 32)
    let store := fun (s : State) (c : Cmd) =>
      gotten c (readAcc s c (rangeWord c) false) fun s v => accstBits c (c.beats.getD 0 0) s v fun s x =>
        gotten c (writeElem s c (c.beats.getD 0 0) 0 (c.pos / 128) (c.pos % 128) 0 x) fun s _ => s
    (InEngine s r 0x10 c → exec (.mmCommand r n) s = .next (runElems (mmM x * mmN x) noWord mmElem c.id n s)) ∧
    (InEngine s r 0x10 c → Performed (mmM x * mmN x) mmElem c.id m s t → exec (.mmCommand r n) s = .next (endCmd t d)) ∧
    (InEngine s r 0x12 c → exec (.accldCommand r n) s = .next (runElems (accRows c.hdr * 128) noWord load c.id n s)) ∧
    (InEngine s r 0x12 c → Performed (accRows c.hdr * 128) load c.id m s t → exec (.accldCommand r n) s = .next (endCmd t d)) ∧
    (InEngine s r 0x13 c → exec (.accstCommand r n) s = .next (runElems (accRows c.hdr * 128)
      (fun c => wordOf (c.beats.getD 0 0) 0 (c.pos / 128) (c.pos % 128)) store c.id n s)) ∧
    (InEngine s r 0x13 c → Performed (accRows c.hdr * 128) store c.id m s t → exec (.accstCommand r n) s = .next (endCmd t d))) ∧
  (∀ (s u v w : State) (c : Cmd) (xs ys : List Word),
    let a := c.beats.getD 0 0
    let b := c.beats.getD 1 0
    let x := c.beats.getD 2 0
    let i := c.pos / mmN x
    let j := c.pos % mmN x
    let k := mmK x
    let at_ := accIndex (mmTile x) (mmRow x + i) (mmCol x + j)
    ReadsAll s c a 0 (mmRow' a i k) u xs → ReadsAll u c b 0 (if mmTb x then mmRow' b j k else mmColOf b j k) v ys →
    withAcc v c at_ true (fun s => (s, .val ())) = (w, .val ()) → w.poison.contains (.acc, accKey c.bay at_ / 8) = false →
    let old := accWord w c at_
    mmElem s c = accPut (charge w c.part (cmdTree c) (if mmInt x then 1 else 0) k) c at_
      (if mmInt x then mmSumInt old (xs.zip ys) else mmSum ((k + 31) / 32) old ((xs.zip ys).map fun p => (fld p.1 0 32, fld p.2 0 32))))

/-- R401. An issued acczero of a bay that holds its accumulator store writes 0 to every word of its rows and to no other byte of
that store, and ends with status 0; memory, the shelf and the frames stand. -/
def Obligations.AcczeroClears : Prop :=
  ∀ (r : QRef) (s : State) (c : Cmd), MemInv s → InEngine s r 0x11 c → c.pos = 0 → parkedAt s c.part c.bay = none →
    ∃ t, exec (.acczeroCommand r) s = .next t ∧ t.mem = s.mem ∧ t.shelf = s.shelf ∧ t.frames = s.frames ∧
      (cmd? t c.id).map (·.status) = some (some 0) ∧
      (∀ i j, i < accRows c.hdr → j < 128 → accWord t c (accIndex (accTile c.hdr) (accRow c.hdr + i) j) = 0) ∧
      (∀ a, (∀ i j, i < accRows c.hdr → j < 128 →
        let k := accKey c.bay (accIndex (accTile c.hdr) (accRow c.hdr + i) j)
        a < k ∨ k + 4 ≤ a) → rdByte t.acc a = rdByte s.acc a)

/-- R118, R249, R263, R264, R396, R402, R403. A plain copy performs its elements in order and ends with status 0 once each has
answered; a sealing copy from HBM to the host writes the page encrypted under the key of the partition with its nonce and check
value, and raises SEALCNT; an opening copy writes the page whose trailer and check hold, and fails with F_INTEG otherwise. -/
def Obligations.CopyCommands : Prop :=
  ∀ (r : QRef) (n : Nat) (s : State) (c : Cmd), InEngine s r 0x20 c →
    let x := c.beats.getD 2 0
    let total := cpN0 x * cpN1 x * cpN2 x
    let src := oVa (c.beats.getD 0 0)
    let dst := oVa (c.beats.getD 1 0)
    let key := toBytes 32 ((c.key.getD 0).toNat)
    (cpMode x = 0 → exec (.copyCommand r n) s = .next (runElems total copyWord copyElem c.id n s)) ∧
    (∀ m t d, cpMode x = 0 → m ≤ n → Performed total copyElem c.id m s t → cmd? t c.id = some d →
      exec (.copyCommand r n) s = .next (endCmd t d)) ∧
    (∀ u v w ss ds ts, RunsAt s c false src 16384 8 u ss → RunsAt u c true dst 16384 8 v ds →
      (cpMode x = 1 → RunsAt v c true (cpTrailer x) 32 32 w ts → inHbm ss = true → inHost ds = true →
        let q := readRuns w c.part (cmdTree c) ss
        let nonce := toBytes 12 c.nonce.toNat
        let e := gcmSeal key nonce (sealAad c.part src) q.1
        let t := writeRuns (writeRuns q.2 c.part (cmdTree c) ds e.1) c.part (cmdTree c) ts (nonce ++ [0, 0, 0, 0] ++ e.2)
        exec (.copySeal r) s = .next (endCmd (modPart t c.part fun x => { x with sealCnt := x.sealCnt + 1 }) c)) ∧
      (cpMode x = 2 → RunsAt v c false (cpTrailer x) 32 32 w ts → inHost ss = true → inHbm ds = true →
        let q := readRuns w c.part (cmdTree c) ss
        let h := readRuns q.2 c.part (cmdTree c) ts
        let ok := if h.1.take 4 = toBytes 4 (fld c.nonce 0 32) then gcmOpen key (h.1.take 12) (sealAad c.part dst) q.1 (h.1.drop 16) else none
        exec (.copyOpen r) s = .next (match ok with
          | some bs => endCmd (writeRuns h.2 c.part (cmdTree c) ds bs) c
          | none => failCmd h.2 c F_INTEG (BitVec.ofNat 64 dst) 0)))

/-- R118, R253, R254, R404–R407. An issued gather or scatter performs its elements in list order, or the rows of a KV chain,
rows that share a word of the shelf at one instant; scatadd does so in a deterministic partition; a table swap of a live slot
ends once nothing is bound to the bank that it replaced, and any other at once; its retirement drops that bank and what the
windows hold of its version. -/
def Obligations.GatherCommands : Prop :=
  (∀ (r : QRef) (n : Nat) (rs : List XReply) (s : State) (c : Cmd),
    let wide := tElems (tableOf s c.part (slotNoOf c))
    (InEngine s r 0x28 c → gKv c.hdr = true → exec (.gathCommand r n rs) s = .next (runRows (gCount c.hdr)
      (fun _ d => rowsShare (c.beats.getD 1 0) d.pos (kvRowBytes (c.beats.getD 2 0) / sfBytes (oSf (c.beats.getD 1 0))))
      (fun s c _ => kvGathElem s c) 0 c.id n [] s)) ∧
    (InEngine s r 0x28 c → gKv c.hdr = false → exec (.gathCommand r n rs) s = .next (runRows (gCount c.hdr)
      (fun _ d => rowsShare (c.beats.getD 1 0) d.pos wide) gathElem 1 c.id n rs s)) ∧
    (InEngine s r 0x29 c → exec (.gathwCommand r n rs) s = .next (runRows (gCount c.hdr)
      (fun _ d => rowsShare (c.beats.getD 2 0) d.pos wide) gathwElem (gGroup c.hdr) c.id n rs s)) ∧
    (InEngine s r 0x2A c → gKv c.hdr = true → exec (.scatCommand r n rs) s =
      .next (runRows (gCount c.hdr) appendJoint (fun s c _ => kvScatElem s c) 0 c.id n [] s)) ∧
    (InEngine s r 0x2A c → gKv c.hdr = false → exec (.scatCommand r n rs) s = .next (runRows (gCount c.hdr) noJoint
      (fun s c rs => withEntry false s c c.pos rs.head? fun s w => nextElem (putRow s c w) c) 1 c.id n rs s)) ∧
    (InEngine s r 0x2B c → isDet s c.part = true → ∀ perm, exec (.scataddCommand r n perm rs) s = .next (runRows (gCount c.hdr) noJoint
      (fun s c rs => withEntry true s c c.pos rs.head? fun s w => nextElem (addRow s c w) c) 1 c.id n rs s)) ∧
    (InEngine s r 0x2C c →
      (c.pos ≠ 0 → tOuto (tableOf s c.part (slotNoOf c)) ≠ 0 → exec (.tblswapCommand r) s = .next s) ∧
      (c.pos = 0 ∨ tOuto (tableOf s c.part (slotNoOf c)) = 0 → exec (.tblswapCommand r) s = .next (endCmd s c)))) ∧
  (∀ (s : State) (p k : Nat) (ver : BitVec 32), p < s.parts.length → tBase (tableOf s p k) ≠ 0 →
    let u := dropBank s p k ver
    tOldb (tableOf u p k) = 0 ∧ tBase (tableOf u p k) = tBase (tableOf s p k) ∧ u.mem = s.mem ∧
      ∀ x ∈ u.dup, x ∈ s.dup ∧ ¬ (x.1.1 ∈ stateKeys s p ∧ x.1.2.1 = k ∧ x.1.2.2.1 = ver))

/-- R189, R250, R385, R408, R413, R201, R409–R412. Handler install keeps its template under its engine and index, or fails;
cbload reads its table, and its slot takes it at retirement, whether or not a stream waits for it; coll, once it has begun,
hands out its packets, meets the other members and writes the result; osend, once stamped, hands out its copies and ends when
none is left in the package; orecv writes the packet that it holds, or fails when it does not fit; xsend and xget move bytes,
each aligned word as one piece, to and from the issuer's own package or as the remote side answers, also where they move none,
and fail with F_LINK without a pod group. -/
def Obligations.InstallAndLinkCommands : Prop :=
  (∀ (r : QRef) (s u : State) (c : Cmd) (rs : List Run),
    let va := oVa (c.beats.getD 0 0)
    let x := readRuns u c.part (cmdTree c) rs
    (InEngine s r 0x08 c → RunsAt s c false va 64 64 u rs →
      let t : BitVec 512 := BitVec.ofNat 512 (ofBytes x.1)
      let e := mEop (BitVec.extractLsb' 0 128 t)
      let k := mArg c.hdr % 4
      let h := nbits (mArg c.hdr) 2 4
      (h ≠ 0 → needBeats e ≠ 0 → engOf e = k → exec (.handlerInstallCommand r) s =
        .next (endCmd { x.2 with handlers := assocSet (c.bay, k, h) t x.2.handlers } c)) ∧
      (h = 0 ∨ needBeats e = 0 ∨ engOf e ≠ k → exec (.handlerInstallCommand r) s = .next (failEngine x.2 c))) ∧
    (InEngine s r 0x2D c → RunsAt s c false va 32 32 u rs → exec (.cbloadCommand r) s =
      .next (endCmd (modCmd x.2 c.id fun d => { d with beats := d.beats ++ beatsOf x.1 2 }) c)) ∧
    (c.status = some 0 → mEop c.hdr = 0x2D →
      let t := retireEffect s c
      let slot := mArg c.hdr % 32
      codebook t c.bay slot = c.beats.getD 2 0 ++ c.beats.getD 1 0 ∧ (∀ k, k ≠ (c.bay, slot) → assoc k t.codebooks = assoc k s.codebooks) ∧
        (∀ y, stream? t c.bay slot = some y → y.waitcb = false) ∧ t.mem = s.mem)) ∧
  (∀ (r : QRef) (l : List Contribution) (routes : List Nat) (s : State) (c : Cmd), InEngine s r 0x40 c →
    let t := if c.out = 0 then beginColl s c else s
    (∀ b, cmd? t c.id = some b → b.status = none → b.held = false → b.out ≠ 0 → b.old = false → exec (.collCommand r ⟨l, routes⟩) s =
      .next (gatherColl l routes t b)) ∧
    (∀ m v g, c.out ≠ 0 → c.old = true → Performed (c.beats.length - 3) collElem c.id m s v → m ≤ c.beats.length - 3 →
      cmd? v c.id = some g → exec (.collCommand r ⟨l, routes⟩) s = .next (endCmd v g)) ∧
    (∀ d, c.out ≠ 0 → c.old = false →
      let u := handOut s c (clTable c) (collPackets s c) routes
      cmd? u c.id = some d → d.status = none → d.held = false →
        (d.out ≤ clNm (clBeat d) → exec (.collCommand r ⟨l, routes⟩) s = .next u) ∧
        (clNm (clBeat d) < d.out → d.lost = true → exec (.collCommand r ⟨l, routes⟩) s = .next (failCmd u d F_LINK 24 0)) ∧
        (clNm (clBeat d) < d.out → d.lost = false →
          (allCame u d l = true → mismatched u d l = true → exec (.collCommand r ⟨l, routes⟩) s = .next (failEngine u d)) ∧
          (∀ e m v g, allCame u d l = true → mismatched u d l = false → cmd? (formColl u d l) c.id = some e →
            Performed (e.beats.length - 3) collElem c.id m (formColl u d l) v → m ≤ e.beats.length - 3 → cmd? v c.id = some g →
            exec (.collCommand r ⟨l, routes⟩) s = .next (endCmd v g))))) ∧
  (∀ (r : QRef) (routes : List Nat) (s : State) (c : Cmd), InEngine s r 0x41 c →
    let t := if c.out = 0 then beginSend s c else s
    (∀ b, cmd? t c.id = some b → b.status = none → b.held = false → b.out ≠ 0 → exec (.osendCommand r routes) s =
      .next (sendCopies routes t b)) ∧
    (∀ d, c.out ≠ 0 →
      let u := handOut s c (osList c) (fun dst => [ordPacket s c dst (osPayload c)]) routes
      cmd? u c.id = some d → d.status = none → d.held = false →
        (d.out ≤ osCount d ∨ copiesLeft u d = true → exec (.osendCommand r routes) s = .next u) ∧
        (osCount d < d.out → copiesLeft u d = false →
          exec (.osendCommand r routes) s = .next (if d.lost then failCmd u d F_LINK 24 0 else endCmd u d)))) ∧
  (∀ (r : QRef) (reply : XReply) (s t : State) (c d : Cmd), cmd? t c.id = some d →
    let a := c.beats.getD 0 0
    let b := c.beats.getD 1 0
    let n := mArg c.hdr
    (InEngine s r 0x42 c → Carried (orTake c) (localWrite · c a) (localAt a 0) (orLen c) c.id s t →
      ((orBytes c).length ≤ n → exec (.orecvCommand r) s = .next (endCmd t d)) ∧
      (n < (orBytes c).length → exec (.orecvCommand r) s = .next (failEngine t d))) ∧
    (InEngine s r 0x43 c →
      (rmHere s b = false → groupOf s c.part = 0 → exec (.xsendCommand r reply) s = .next (failCmd s c F_LINK 24 0)) ∧
      (rmHere s b = true ∨ groupOf s c.part ≠ 0 → Carried (localRead · c a) (xsendPut reply c) (oVa b) n c.id s t →
        (mArg d.hdr ≠ 0 ∨ rmHere t (d.beats.getD 1 0) = true ∨ reply.code = 0 → exec (.xsendCommand r reply) s = .next (endCmd t d)) ∧
        (mArg d.hdr = 0 → rmHere t (d.beats.getD 1 0) = false → reply.code ≠ 0 →
          exec (.xsendCommand r reply) s = .next (failCmd t d reply.code (BitVec.ofNat 64 (oVa (d.beats.getD 1 0))) 0)))) ∧
    (InEngine s r 0x44 c →
      (rmHere s a = false → groupOf s c.part = 0 → exec (.xgetCommand r reply) s = .next (failCmd s c F_LINK 24 0)) ∧
      (rmHere s a = true ∨ groupOf s c.part ≠ 0 → Carried (xgetTake reply c) (localWrite · c b) (localAt b 0) n c.id s t →
        (mArg d.hdr ≠ 0 ∨ rmHere t (d.beats.getD 0 0) = true ∨ reply.code = 0 → exec (.xgetCommand r reply) s = .next (endCmd t d)) ∧
        (mArg d.hdr = 0 → rmHere t (d.beats.getD 0 0) = false → reply.code ≠ 0 →
          exec (.xgetCommand r reply) s = .next (failCmd t d reply.code (BitVec.ofNat 64 (oVa (d.beats.getD 0 0))) 0)))))

/-- R144, R146, R187–R189, R396, R143, R184, R188. A command that a fence or a FIFO holds back does not issue; else, without a
handler, it issues and takes one token of each FIFO that it pops and of no other; in a bay that takes no new work none issues;
an ended command retires when each FIFO that it pushes has room: it leaves its queue, pushes, and its status goes to its
continuation. A seal waits while another of its partition is under way. -/
def Obligations.CommandsIssueAndRetire : Prop :=
  (∀ (s : State) (c : Cmd),
    (fenced s c = true ∨ popWaits s c = true → issueCmd s c = none) ∧
    (fenced s c = false → popWaits s c = false → mHnd c.hdr = 0 → cmd? s c.id = some c →
      ∃ t, issueCmd s c = some t ∧ cmd? t c.id = some { c with issued := true } ∧ t.mem = s.mem ∧ t.frames = s.frames ∧
        (∀ k, k < 6 → k ∈ setBits (mPop c.hdr) 6 → syncCount t c.bay k = syncCount s c.bay k - 1) ∧
        (∀ b k, (b ≠ c.bay ∨ k ∉ setBits (mPop c.hdr) 6) → syncCount t b k = syncCount s b k)) ∧
    (∀ r n t d, Issues s r 0x10 c t d → exec (.mmCommand r n) s =
      .next (runElems (mmM (d.beats.getD 2 0) * mmN (d.beats.getD 2 0)) noWord mmElem d.id n t)) ∧
    (∀ r n, cmdHead s r = some c → c.issued = false → bayGated s c.part c.bay = true → exec (.mmCommand r n) s = .next s) ∧
    (∀ r, cmdHead s r = some c → c.issued = false → sealReady s c = false → exec (.copySeal r) s = .next s)) ∧
  (∀ (r : QRef) (s : State) (c : Cmd) (v : Word), cmdHead s r = some c → c.status = some v → savedAway s c.part = false →
    let push := setBits (mPush c.hdr) 6
    let pushed := push.foldl (fun s k => setSync s c.bay k (syncCount s c.bay k + 1)) s
    let t := pruneFences (retireEffect (unbind { pushed with cmds := pushed.cmds.filter fun d => d.id != c.id } c) c)
    ((∃ k ∈ push, 16 ≤ syncCount s c.bay k) → exec (.commandRetirement r) s = .next s) ∧
    ((∀ k ∈ push, syncCount s c.bay k < 16) →
      (mCk c.hdr = 0 → exec (.commandRetirement r) s = .next t) ∧
      (mCk c.hdr = 1 → exec (.commandRetirement r) s = .next (launchTok t (completionFlight c v))) ∧
      (mCk c.hdr = 2 → exec (.commandRetirement r) s = .next (completionWrite { t with cmdNo := t.cmdNo + 1 }
        ⟨t.cmdNo, c.part, c.bay, contAddr (mCont c.hdr), v, (c.sender.map (·.sup)).getD true, c.sender.isNone, cmdTree c⟩)) ∧
      (mCk c.hdr = 3 → exec (.commandRetirement r) s = .next (interrupt t c.part 1 (fld c.hdr 0 6) v))))

/-! ### Events of the memory edge -/

/-- R102, R104, R110, R111, R131, R147, R150, R385, R390, R439, R112, R113. A walk that finds its page fills the TLB; a held
access takes its place behind its predecessor, or by closure, and passes in its turn; a deadline wakes a monitored wait, and so
does a spurious event, at most once in 1,024 cycles for a frame; a held token goes on at its slot; a stream hands its oldest
complete element on, reads the next one that it may, and sends a marker at its end; an invalidation drops every translation that
it names and no other, starts the walks that are out again, and its DONE word is written once every port has acknowledged; a
malformed one is refused. -/
def Obligations.EdgeEvents : Prop :=
  ((∀ (n : Nat) (s t : State) (w : Walk) (e : TlbEntry), s.walks[n]? = some w → inSlot s w.part = true →
    walkEnd { s with walks := dropAt n s.walks } w = (t, .ok e) → exec (.pageWalk n) s = .next (afterWalk (tlbFill t e) w.bay)) ∧
  (∀ (n : Nat) (s : State) (i : Inst), s.waits[n]? = some i → savedAway s i.part = false →
    (unplaced i = true → canPlace { s with cur := i } = true ∨
        (edgeOpen { s with cur := i } = true ∧ chainStuck s i = true ∧ lowestOwn s i = true) →
      let t := placeCur { s with cur := i }
      exec (.accessPlacement n) s = .next { wakeInst t n t.cur with cur := s.cur }) ∧
    (isMem (opOf i.word) = true → unplaced i = false → i.cleared = false → isDet s i.part = true → accessTurn { s with cur := i } = true →
      exec (.deterministicApply n) s = .next (wakeInst s n { i with cleared := true })) ∧
    (∀ k, opOf i.word = 0xA4 → i.stage = some (2 + k) → k ≤ s.pkg.cycle → exec (.waitmTimeout n) s = .next (wakeWaitm s n i 4)) ∧
    (opOf i.word = 0xA4 → unplaced i = false →
      let f := i.tag.frame.toNat
      (spurOpen s i.part f = true → exec (.spuriousWake n) s =
        .next (wakeWaitm (modFrame s i.part f fun x => { x with spurAt := some s.pkg.cycle }) n i 5)) ∧
      (∀ g c, frame? s i.part f = some g → g.spurAt = some c → s.pkg.cycle < c + 1024 → exec (.spuriousWake n) s = .next s)) ∧
    (∀ c, opOf i.word = 0xE7 → i.stage = some c → yieldDue s i.part c (getS i.word).imm.toNat = true → anyNull i = false →
      let t := { s with cur := i, waits := dropAt n s.waits }
      exec (.yieldExpiry n) s = .next { send t (getS i.word).t0 (opA t) with cur := s.cur })) ∧
  (∀ (bay slot : Nat) (s : State) (x : Stream), stream? s bay slot = some x → streamRuns s x = true → x.waitcb = false →
    (x.count ≤ x.pos → exec (.streamElementIssue bay slot) s =
      .next (streamSend { s with streams := s.streams.filter fun y => !(y.bay == bay && y.slot == slot) } x .eos 0)) ∧
    (x.pos < x.count → ∀ v, assoc x.pos x.done = some v → exec (.streamElementIssue bay slot) s = .next (handOn s x v)) ∧
    (x.pos < x.count → assoc x.pos x.done = none → ∀ e u v, nextElement s x = some e → streamTurn s x = true →
      elemRead s x e = (u, .value v) →
      x.pos ≤ e ∧ e < x.pos + 64 ∧ e < x.count ∧
      (e = x.pos → exec (.streamElementIssue bay slot) s = .next (handOn u x v)) ∧
      (e ≠ x.pos → exec (.streamElementIssue bay slot) s =
        .next { u with streams := updWhere (fun y => y.id == x.id) (fun y => { y with done := y.done ++ [(e, v)] }) u.streams })))) ∧
  (∀ (d : BitVec 256) (s : State),
    (invBad d = true → exec (.invalidationSubmit d) s = .next (refuseWrite s)) ∧
    (invBad d = false → ∃ t, exec (.invalidationSubmit d) s = .next t ∧
      (∀ e, e ∈ t.tlb ↔ e ∈ s.tlb ∧ invMatches d (invPart d) e = false) ∧
      (∀ w ∈ t.walks, w.part = invPart d → w.root = s1root s (invPart d)) ∧
      t.invals = s.invals ++ [⟨invPart d, d, true, baysOf s (invPart d)⟩] ∧ t.mem = s.mem) ∧
    (∀ n v, s.invals[n]? = some v →
      (v.pending.all (bayQuiet s v.part) = true → exec (.invalidationDone n) s = .next (writeDone { s with invals := dropAt n s.invals } v)) ∧
      (v.pending.all (bayQuiet s v.part) = false → exec (.invalidationDone n) s = .next s)))

/-! ### The hypervisor -/

/-- R193, R196, R442, R453, R456, R457, R179, R457–R459. An answer releases or aborts a held fault or answers a held call; a
residency write replays the log, a function-level reset advances the generation, an unhalt resumes and tries again what was
aborted of the device's own; SAVE gates a live partition or waits for its resize, is refused while busy, and once all has
settled writes the header of the save area; RESTORE checks the header and brings the partition back, or errs. -/
def Obligations.AnswersAndPreEmption : Prop :=
  (∀ (p seq : Nat) (s : State),
    (∀ f x, heldFault s p seq = some f → f.item = some x → (∀ id, x.victim ≠ .completion id) →
      exec (.hfqRelease p seq) s = .next (closeStage2 s f)) ∧
    (∀ f x id, heldFault s p seq = some f → f.item = some x → x.victim = .completion id →
      exec (.hfqRelease p seq) s = .next (retryCompletion (closeStage2 s f) id)) ∧
    (∀ f, heldFault s p seq = some f → f.item = none →
      exec (.hfqRelease p seq) s = .next (finishEnding (closeStage2 s f)) ∧
      exec (.hfqAbort p seq) s = .next (haltPart { s with pageFaults := { f with aborted := true } :: s.pageFaults.erase f } p)) ∧
    (∀ n i, heldFault s p seq = none → heldCall s p seq = some (n, i) →
      exec (.hfqRelease p seq) s = .next (answerCall s n i s.pkg.hfqAnsv) ∧
      exec (.hfqAbort p seq) s = .next (answerCall s n i 0xFFFFFFFFFFFFFFFF)) ∧
    exec (.functionLevelReset p) s = .next (modPart s p fun t => { t with vdGen := t.vdGen + 1 }) ∧
    exec (.vdResWrite p false) s = .next (modPart s p fun t => { t with vdRes := false }) ∧
    exec (.vdResWrite p true) s = .next (modPart (replayLog s p) p fun t => { t with vdRes := true }) ∧
    ((part s p).preHalted = true → exec (.preCtlUnhalt p) s =
      .next (finishEnding (modPart (retryAborted s p) p fun t =>
        { t with preHalted := false, haltRec := none, trapQ := (t.haltRec.toList.map fun x => { x with vec := none }) ++ t.trapQ })))) ∧
  (∀ (p : Nat) (s : State), live s p = true →
    let t := part s p
    (t.preBusy = false → t.preSaved = false →
      (t.rszBusy = false → exec (.preCtlSave p) s = .next (modPart s p fun t => { t with preBusy := true })) ∧
      (t.rszBusy = true → exec (.preCtlSave p) s = .next (modPart s p fun t => { t with prePending := true }))) ∧
    (t.preBusy = true → exec (.preCtlSave p) s = .next (preErr s p 1)) ∧
    (t.preBusy = false → t.preSaved = true → exec (.preCtlSave p) s = .next (preErr s p 3)) ∧
    (∀ u pa, t.preBusy = true → t.preSaved = false → settledPart s p = true → saveTouch s p (baysOf s p).length true = .ok (u, pa) →
      let v := pokeBytes ((baysOf u p).foldl (saveBay p) u) pa (saveHeader u p (baysOf u p).length)
      exec (.preemptSettled p) s = .next (modPart v p fun t => { t with preBusy := false, preSaved := true })) ∧
    (t.preSaved = false → exec (.preCtlRestore p) s = .next (preErr s p (if t.preBusy then 1 else 3))) ∧
    (∀ u pa, t.preSaved = true → saveTouch s p t.saved.length false = .ok (u, pa) →
      let h := rd64 u.mem pa
      (∀ w, fld h 48 16 = 0x5356 → fld h 40 8 = t.saved.length → restoreBays u p = .ok w →
        exec (.preCtlRestore p) s = .next (resumePart w p)) ∧
      (fld h 48 16 ≠ 0x5356 ∨ fld h 40 8 ≠ t.saved.length →
        exec (.preCtlRestore p) s = .next (preErr (modPart u p fun t => { t with preBusy := false }) p 2))))

/-- R234–R236, R247, R82, R462. VALID = 1 on a dead entry creates the partition or is refused; a dead entry takes any other
word; a live one takes the budget, the stage-1 root and VALID = 0 alone; a destroyed partition is gated and wiped once it has
settled, and not during a resize; a window write goes by its offset: plain registers take any value, zero-only ones zero,
read-only, misaligned and unassigned offsets and other sizes refuse. -/
def Obligations.PartitionsAndWindow : Prop :=
  (∀ (p : Nat) (s : State), p < 64 →
    let e := (part s p).ent.set 0 (BitVec.ofNat 64 (putFld (entWord s p 0).toNat 63 1 1))
    (live s p = false →
      (createBad s p e = true → exec (.partitionCreate p) s = .next (refuseWrite s)) ∧
      (∀ t, createBad s p e = false → zeroPages p 514 s (e.getD 14 0).toNat (8 * (rangeOf (e.getD 9 0)).2) = (t, true) →
        exec (.partitionCreate p) s = .next (modPart t p fun x => bornPart x e)) ∧
      (∀ k v, 0 < k → k < 32 → exec (.partitionEntryWrite p (8 * k) v) s = .next (modPart s p fun t => { t with ent := t.ent.set k v })) ∧
      (∀ v, bitAt v 63 = true → exec (.partitionEntryWrite p 0 v) s = .next (createPart s p v))) ∧
    (live s p = true →
      (∀ v, exec (.partitionEntryWrite p 88 v) s = .next (modPart s p fun t => { t with ent := t.ent.set 11 v, enBudget := v })) ∧
      (∀ v, exec (.partitionEntryWrite p 96 v) s = .next (modPart s p fun t => { t with ent := t.ent.set 12 v })) ∧
      (∀ k v, 0 < k → k < 32 → k ≠ 11 → k ≠ 12 → (part s p).rszBusy = false →
        exec (.partitionEntryWrite p (8 * k) v) s = .next (refuseWrite s)) ∧
      ((part s p).rszBusy = true → exec (.partitionDestroy p) s = .next (resizeErr s p 3)) ∧
      ((part s p).rszBusy = false →
        let t := modPart s p fun t => { t with dying := true }
        (settledPart t p = true → exec (.partitionDestroy p) s = .next (wipePart t p)) ∧
        (settledPart t p = false → exec (.partitionDestroy p) s = .next t)))) ∧
  (∀ (s : State) (v : Word), hostLink s = true →
    (∀ off n, off % 8 ≠ 0 ∨ n ≠ 8 → exec (.windowRegisterWrite ⟨off, n⟩ v) s = .next (refuseWrite s)) ∧
    (∀ off, off % 8 = 0 → 0x500000 ≤ off → exec (.windowRegisterWrite ⟨off, 8⟩ v) s = .next (refuseWrite s)) ∧
    exec (.windowRegisterWrite ⟨0x2028, 8⟩ v) s = .next (modPkg s fun k => { k with hfqAnsv := v }) ∧
    exec (.windowRegisterWrite ⟨0x1008, 8⟩ v) s = .next (modPkg s fun k => { k with wmTimeout := low32 v }) ∧
    exec (.windowRegisterWrite ⟨0x2010, 8⟩ v) s = .next (refuseWrite s) ∧
    (v = 0 → exec (.windowRegisterWrite ⟨0x3010, 8⟩ v) s = .next (modPkg s fun k => { k with ordStat := 0 })) ∧
    (v ≠ 0 → exec (.windowRegisterWrite ⟨0x3010, 8⟩ v) s = .next (refuseWrite s)) ∧
    (∀ p, p < 64 →
      exec (.windowRegisterWrite ⟨(0x100000 + 0x10000 * p + 0x100), 8⟩ v) s = .next (modPart s p fun t => { t with trapVec := v }) ∧
      exec (.windowRegisterWrite ⟨(0x100000 + 0x10000 * p + 0x208), 8⟩ v) s = .next (modPart s p fun t => { t with enBudget := v }) ∧
      exec (.windowRegisterWrite ⟨(0x100000 + 0x10000 * p + 0x1008), 8⟩ v) s = .next (modPart s p fun t => { t with vdGen := low32 v }) ∧
      exec (.windowRegisterWrite ⟨(0x100000 + 0x10000 * p + 0x1028), 8⟩ v) s = .next (refuseWrite s)))

/-- R240–R246. A descriptor that fails a check has its RESULT written; one that passes starts the resize with its new sets,
memory unchanged; the departing bays are emptied once they have settled, lines and versions take their new home slices, pages
move to the new channels and touched channels are kept, what departs is scrubbed, and the entry takes the new sets with RESULT
0, or 6 where channels were kept; a second start is an error. -/
def Obligations.Resizing : Prop :=
  ∀ (p : Nat) (s : State),
    let t := part s p
    (∀ v, bitAt v 0 = true → t.rszBusy = false → live s p = true →
      let pa := fld v 6 46 * 64
      let u := modPart s p fun t => { t with rszDesc := BitVec.ofNat 64 pa }
      (readResize u.mem pa = none → exec (.resizeGo p v) s = .next (putResult u pa 1)) ∧
      (∀ r, readResize u.mem pa = some r → resizeResult u p r ≠ 0 → exec (.resizeGo p v) s = .next (putResult u pa (resizeResult u p r))) ∧
      (∀ r, readResize u.mem pa = some r → resizeResult u p r = 0 → ∃ w, exec (.resizeGo p v) s = .next w ∧ w.mem = s.mem ∧
        (p < s.parts.length → (part w p).rszBusy = true ∧ (part w p).rszStep = 1 ∧ newBays (part w p) = r.bays % 2 ^ 128))) ∧
    (∀ v, bitAt v 0 = true → t.rszBusy = true → exec (.resizeGo p v) s = .next (resizeErr s p 1)) ∧
    (t.rszBusy = true →
      (∀ order, t.rszStep = 2 → t.preBusy = false → exec (.resizeMigrate p order) s = .next (endMigration (departAll s p order) p)) ∧
      (∀ order, t.rszStep = 1 → t.preBusy = false → (departingBays t).all (baySettled s p) = true →
        (∀ u, t.preSaved = false → departKeys p ((departingBays t).map fun b => (b, b)) (arrivingBays t) s = .ok u →
          exec (.resizeMigrate p order) s = .next (endMigration (departAll (toStep u p 2) p order) p)) ∧
        (t.preSaved = true → exec (.resizeMigrate p order) s = .next (endMigration (departAll (toStep s p 2) p order) p))) ∧
      (t.rszStep = 3 → ∃ w, exec (.resizeSliceRehash p) s = .next w ∧ w.mem = s.mem ∧
        (∀ x ∈ w.l2, x.part = p → x.slice = homeSlice (slicesOf s p) (64 * x.line)) ∧
        (∀ x ∈ w.vers, x.part = p → x.slice = homeSlice (slicesOf s p) x.pa)) ∧
      (t.rszStep = 4 →
        let new := joinWords t.rszNew 4 4
        let gone := setBits (lacking (chansOf t) new) 256
        let u := moveChans s p (gone.zip (setBits (lacking new (chansOf t)) 256))
        let kept := gone.filter fun c => (leaves2 u.mem 4 1 (entWord u p 13).toNat).any fun l => touchesChan l c
        let all := kept.foldl (fun x c => x ||| 2 ^ c) new
        exec (.resizeChannelRehash p) s = .next (modPart u p fun t => { t with
          rszStep := 5, rszKept := !kept.isEmpty, rszNew := t.rszNew.take 4 ++ splitWords all 4 ++ t.rszNew.drop 8 })) ∧
      (t.rszStep = 5 → exec (.resizeScrub p) s = .next (releaseAll (toStep (freeSlots
        ((setBits (lacking (chansOf t) (joinWords t.rszNew 4 4)) 256).foldl (scrubChan p) ((departingBays t).foldl clearKey s))
        (setBits (lacking t.cal.toNat (t.rszNew.getD 8 0).toNat) 64)) p 6))) ∧
      (t.rszStep = 6 → bitAt (t.rszNew.getD 10 0) 6 = false → exec (.resizeComplete p) s =
        .next (wakeAll (putResult (modPart s p takeNewSets) (t.rszNew.getD 11 0).toNat (if t.rszKept then 6 else 0)) p)))

/-! ### Single rules -/

/-- R75. div and rem over the integer types, unsaturated: the quotient truncates towards zero and the remainder takes the sign
of the dividend; for a divisor of zero the quotient is all ones and the remainder is the dividend; the most negative value
divided by -1 gives itself with remainder 0; nothing happens but the sending of the value: no fault, no flag. -/
def Obligations.IntegerDivision : Prop :=
  ∀ (f : AFmt) (s : State), Acts f.pr s → f.md = 0 → f.ty.toNat < 4 →
    let ty := f.ty.toNat
    let w := tyW ty
    let x := xOf f s
    let y := yOf f s
    ∃ q r : Int,
      exec (.div f) s = .next (send2 f s (putT ty q)) ∧ exec (.rem f) s = .next (send2 f s (putT ty r)) ∧
      (y ≠ 0 → ¬ (tySgn ty = true ∧ x = -2 ^ (w - 1) ∧ y = -1) →
        x = q * y + r ∧ r.natAbs < y.natAbs ∧ (0 < r → 0 < x) ∧ (r < 0 → x < 0) ∧ (q = 0 ∨ (0 < q ↔ (0 < x ↔ 0 < y)))) ∧
      (y = 0 → fld (putT ty q) 0 w = 2 ^ w - 1 ∧ r = x) ∧
      (tySgn ty = true → x = -2 ^ (w - 1) → y = -1 → putT ty q = putT ty x ∧ r = 0)

/-- R312. mov sends the data bits of slot a, unchanged and in all 64 bits, to T0 and T1, and mov4 to T0 to T3; a null on a, or
on p, reaches every target as a null; with all targets null they consume their operands and send nothing. -/
def Obligations.MovesCopy : Prop :=
  ∀ (f : AFmt) (g : FFmt) (s : State),
    (Acts f.pr s → exec (.mov f) s = .next (sendAll s [f.t0, f.t1] .data (opA s))) ∧
    (Acts g.pr s → exec (.mov4 g) s = .next (sendAll s [g.t0, g.t1, g.t2, g.t3] .data (opA s))) ∧
    (anyEos s.cur = false → anyNull s.cur = true →
      exec (.mov f) s = .next (sendAll s [f.t0, f.t1] .null 0) ∧ exec (.mov4 g) s = .next (sendAll s [g.t0, g.t1, g.t2, g.t3] .null 0)) ∧
    (f.t0 = nullT → f.t1 = nullT → exec (.mov f) s = .next s) ∧
    (g.t0 = nullT → g.t1 = nullT → g.t2 = nullT → g.t3 = nullT → exec (.mov4 g) s = .next s)

/-- R326. alignd clamps its count to 64, never faults, clears the low bits (.dn; all for a count of 64) or keeps them (.off),
and .dn of a canonical address with a count of at most 56 stays in its half; canon.chk sends whether a is canonical, .fix sends
sext(a, 57), which is canonical, .flt sends a canonical a and else raises F_NONCANON. -/
def Obligations.AlignmentAndCanon : Prop :=
  ∀ (f : AFmt) (s : State), Acts f.pr s →
    let a := (opA s).toNat
    let n := min (if f.i then BitVec.ofInt 64 (signed f.imm.toNat 28) else opB s).toNat 64
    let m := 2 ^ n - 1
    (f.md = 0 → ∃ v : Word, exec (.alignd f) s = .next (send2 f s v) ∧ v.toNat = a &&& (2 ^ 64 - 1 - m) ∧ (n = 64 → v = 0) ∧
      (canon a = true → n ≤ 56 → sameHalf a v.toNat = true)) ∧
    canon 0 = true ∧
    (f.md = 1 → ∃ v : Word, exec (.alignd f) s = .next (send2 f s v) ∧ v.toNat = a &&& m) ∧
    (f.md = 0 → exec (.canon f) s = .next (send2 f s (if canon a then 1 else 0))) ∧
    (f.md = 1 → ∃ v : Word, exec (.canon f) s = .next (send2 f s v) ∧ v = BitVec.signExtend 64 (BitVec.setWidth 57 (opA s)) ∧
      canon v.toNat = true) ∧
    (f.md = 2 → (canon a = true → exec (.canon f) s = .next (send2 f s (opA s))) ∧
      (canon a = false → exec (.canon f) s = .next (fault s F_NONCANON (opA s) 0)))

/-! ### Whole-machine rules -/

/-- R27, R293, R294. For every instruction whose effect stands behind the plain shell: a marker on an operand goes on to every
target as a marker, a null as a null, and a predicate that does not hold lets nothing happen. -/
def Obligations.ShellFirst : Prop :=
  ∀ (i : Instr) (s : State) (pr : BitVec 2) (ts : List Tgt), shelled i = some (pr, ts) →
    (anyEos s.cur = true → exec i s = .next (sendAll s ts .eos 0)) ∧
    (anyEos s.cur = false → anyNull s.cur = true → exec i s = .next (sendAll s ts .null 0)) ∧
    (anyEos s.cur = false → anyNull s.cur = false → ((pr = 1 ∧ opP s = 0) ∨ (pr = 2 ∧ opP s ≠ 0)) → exec i s = .next s)

/-- R34, R38, R307, R450. Every instruction of the plain families, in any form and whether or not it faults, leaves every
register of every frame, every register and table of every partition, the shelf, the accumulators, commands, FIFOs, handlers,
codebooks, translations, lines and versions as they were, and every byte of memory outside the ring of the hypervisor fault
queue. -/
def Obligations.ComputingLeaves : Prop :=
  ∀ (i : Instr) (s t : State), (shelled i).isSome = true → MemInv s → exec i s = .next t → Leaves s t

/-- R34, R117, R373, R377, R383. ld, lds, ldv, stv, fence, waitm and qfence, and st, sts and reclaim of a block, leave the
registers of every frame, the shelf, the accumulators and every byte of memory outside the ring of the hypervisor fault queue;
st of a grid, the amo group, cas and cas2 change besides no byte but those from the physical address that their checks give,
over their width. -/
def Obligations.AccessesLeave : Prop :=
  ∀ (f : MFmt) (s t : State), MemInv s →
    let n := sfBytes f.sf.toNat
    let a := opA (placedState s)
    let none := fun (_ : Nat) => False
    let stored := storedAt s (eaOf f n a) n
    let swapped := storedAt s ((a.toNat : Int) + offM f) n
    (∀ i ∈ [Instr.ld f, .lds f, .ldv f, .stv f, .fence f, .waitm f, .qfence f], exec i s = .next t → LeavesBytes s t none) ∧
    (s.cur.grid = Option.none → ∀ i ∈ [Instr.st f, .sts f, .reclaim f], exec i s = .next t → LeavesBytes s t none) ∧
    (exec (.st f) s = .next t → LeavesBytes s t stored) ∧
    (∀ i ∈ [Instr.amoAdd f, .amoAnd f, .amoOr f, .amoXor f, .amoMin f, .amoMax f, .amoXchg f, .amoFadd f, .amoFmin f, .amoFmax f, .cas f],
      exec i s = .next t → LeavesBytes s t swapped) ∧
    (exec (.cas2 f) s = .next t → LeavesBytes s t (storedAt s ((a.toNat : Int) + offM f) 16))

/-- In every state, every instruction and every event answers a next state: none faults or refuses (the shape of the model: what
the spec calls a fault is a next state in which the exception is taken). -/
def Obligations.EveryInstructionAnswers : Prop := ∀ (i : Instr) (s : State), ∃ t, exec i s = .next t

/-- From every state whose memory, shelf and accumulator store are in canonical form, every step that answers a next state gives
one where they are. -/
def Obligations.MemoryFormKept : Prop := Kept MemInv

/-- With an instance at the head of the pipeline whose word decodes, the step takes it from the pipeline, makes it the current
instance and runs exec of the decoded instruction (a stream by the kind of its operand); with an empty pipeline and an event at
the head of the script it runs that event. -/
def Obligations.StepRunsDecoded : Prop :=
  (∀ (s : State) (x : Inst) (rest : List Inst) (i : Instr), s.pipe = x :: rest → decodeWord x.word = .ok i →
    let t := { s with cur := x, pipe := rest }
    ((∀ f, i ≠ .stream f) → step s = exec i t) ∧
    (∀ f, i = .stream f → (fld (opC t) 62 2 ≠ 2 → step s = exec (.stream f) t) ∧ (fld (opC t) 62 2 = 2 → step s = exec (.streamKvBind f) t))) ∧
  (∀ (s : State) (e : Instr) (l : List Sched), s.pipe = [] → s.script = .ev e :: l → step s = exec e { s with script := l })

/-- R303, R305. The worked encodings of the spec for sub, ld, cmp, sklat and fpcset decode to the instructions that they stand
for; no word whose opcode is reserved or the header marker, or whose predicate control is 0b11, decodes. -/
def Obligations.WordsAreRead : Prop :=
  decodeWord 0x116001A050000000 = .ok (.sub ⟨1, true, 0, 0, 0x006, 0x205, 0⟩) ∧
  decodeWord 0x980800BE00100000 = .ok (.ld ⟨0, false, 4, false, 0x002, 0x3E, 0, 1, 0⟩) ∧
  decodeWord 0x382200BFF0000000 = .ok (.cmp false ⟨0, true, 0, 2, 0x002, 0x3FF, 0⟩) ∧
  decodeWord 0x9021904020000004 = .ok (.sklat ⟨0, true, 0, 1, 0x241, 0x002, 4⟩) ∧
  decodeWord 0xF501FFC000000001 = .ok (.fpcset ⟨0, 1, 0x3FF, 0, 1⟩) ∧
  (∀ (w : Word) (i : Instr), decodeWord w = .ok i →
    fld w 54 2 ≠ 3 ∧ fld w 56 8 ≠ 0xFB ∧
    ∀ r ∈ [(0x07, 0x0F), (0x2E, 0x2F), (0x34, 0x37), (0x3B, 0x3F), (0x55, 0x5F), (0x66, 0x6F), (0x87, 0x8F), (0xA5, 0xAF), (0xBC, 0xBF),
      (0xD3, 0xDF), (0xE8, 0xEF), (0xF8, 0xFA), (0xFC, 0xFF)], fld w 56 8 < r.1 ∨ r.2 < fld w 56 8)

/-- R89, R114, R200, R265, R456, R467. At reset the memories are canonical, there are no frames, blocks, regions, commands or
translations, every byte of HBM, shelf and accumulators reads 0, no partition is live, and the registers of the partitions and
the package that the spec gives a reset value have it; every port is in state 0. -/
def Obligations.ResetValues : Prop :=
  let s := State.reset
  MemInv s ∧ s.frames = [] ∧ s.blocks = [] ∧ s.regions = [] ∧ s.cmds = [] ∧ s.tlb = [] ∧
  (∀ a, a < 0x6000000000 → rdByte s.mem a = 0) ∧ (∀ a, rdByte s.shelf a = 0) ∧ (∀ a, rdByte s.acc a = 0) ∧
  (∀ p, p < 64 → live s p = false ∧
    let t := part s p
    t.detTimeOk = false ∧ t.trapVec = 0 ∧ inboxFree t = 256 ∧ t.enUsed = 0 ∧ t.widthAch = 0 ∧ t.occLimit = 0xFFFFFFFF ∧ t.rszBusy = false ∧
    t.wdHits = 0 ∧ t.trapLost = 0 ∧ t.preBusy = false ∧ t.preSaved = false ∧ t.preHalted = false) ∧
  s.pkg.wmTimeout = 125000 ∧ s.pkg.pcap = 3200 ∧ s.pkg.power = 0 ∧ s.pkg.ordExcl = 0 ∧ s.pkg.ordStat = 0 ∧ s.pkg.troot = false ∧
  s.pkg.ports.length = 24 ∧ (∀ x ∈ s.pkg.ports, x.state = 0 ∧ x.spared = none ∧ x.tpar = false)

/-! ### Time, power, links, management and the host -/

/-- R198, R203, R204, R239, R267, R268, R273, R274. A tick advances the cycle, and the pod time by one tick, or two or none
where it slews; a port silent for 640 ticks sends a beacon, charged to no partition; a beacon near the time raises WMI and is
heeded, another is F_LINK; a calendar period charges held bays; PKG_PCAP stays within 800 and 3,200; a reconciliation, once for
each millisecond that has ended, settles the energy of every partition against the rails' energy less that of unowned resources,
and sets the power and the hold; capping withholds the highest owned slots and never all, and a slot that another partition gave
up in this period serves no one; a watchdog reports a frame that makes no progress. -/
def Obligations.TimeAndPower : Prop :=
  ∀ (s : State),
    (∃ t, exec .podTimeTick s = .next t ∧ t.pkg.cycle = s.pkg.cycle + 1 ∧ t.issued = [] ∧
      let idle := s.pkg.drift = 0 ∨ s.pkg.cycle < s.pkg.slewAt
      (idle → t.pkg.podTime = s.pkg.podTime + 1 ∧ t.pkg.slewAt = s.pkg.slewAt) ∧
      (¬ idle → t.pkg.slewAt = s.pkg.cycle + 256 ∧
        (0 < s.pkg.drift → t.pkg.podTime = s.pkg.podTime + 2) ∧ (s.pkg.drift < 0 → t.pkg.podTime = s.pkg.podTime)) ∧
      (t.pkg.cycle % 1024 = 0 → t.script = s.script ++ [.ev .bayHeldCalendarPeriod])) ∧
    (∀ k x, s.pkg.ports[k]? = some x → x.state = 5 → x.lastSent + 640 ≤ s.pkg.podTime.toNat → x.replay.length < 512 →
      ∃ (h : BitVec 256) (y : Port × Nat), hdStamp h = podStamp s ∧ hdWm h = wmoOf s x k ∧ hdCls h = 2 ∧ hdSrc h = s.pkg.number.toNat ∧ hdLen h = 0 ∧
        sendBytes x 1 (toBytes 32 h.toNat) = some y ∧
        let sent : Port := { y.1 with wmo := wmoOf s x k, lastSent := s.pkg.podTime.toNat }
        exec (.beaconSend k) s = .next (chargeInfra (modPort { s with fresh := s.fresh + 1 } k fun _ => sent) y.2)) ∧
    (∀ k h, portUp s k = true → hdCls h = 2 →
      (stampNear s (hdStamp h) = true → stampNear s (hdWm h) = true →
        exec (.beaconReceive k h) s = .next (deliverOrd (heedParent (raiseWmi s k (hdWm h)) k (hdStamp h)))) ∧
      (stampNear s (hdStamp h) = false ∨ stampNear s (hdWm h) = false → exec (.beaconReceive k h) s = .next (linkFault s k))) ∧
    exec .bayHeldCalendarPeriod s = .next (((List.range 64).filter (live s)).foldl heldBays s) ∧
    (∀ v, s.pkg.phase = 15 → exec (.pkgPcapWrite v) s = .next s) ∧
    (∀ v, s.pkg.phase ≠ 15 → ∃ t, exec (.pkgPcapWrite v) s = .next t ∧ t.pkg.pcap.toNat = max 800 (min 3200 v) ∧ t.pkg.pcHold = s.pkg.pcHold ∧ t.parts = s.parts) ∧
    (∀ rail, s.pkg.cycle / 2500000 ≤ s.pkg.recMs → exec (.energyReconciliation rail) s = .next s) ∧
    (∀ rail, s.pkg.recMs < s.pkg.cycle / 2500000 →
      let p := rail / 1000000
      let c := s.pkg.pcap.toNat
      let h := s.pkg.pcHold
      ∃ t, exec (.energyReconciliation rail) s = .next t ∧ t.pkg.power = BitVec.ofNat 32 p ∧
        t.parts = s.parts.map (settleEnergy ((s.parts.map (·.msCharge)).sum * 1000000) ((rail * 1000000 : Nat) - (unownedFj s : Int))) ∧
        t.pkg.recMs = s.pkg.cycle / 2500000 ∧ t.pkg.infra = 0 ∧
        (c < p → t.pkg.pcHold = min 63 (h + (64 * (p - c) + p - 1) / p)) ∧
        (p ≤ c → 16 * p ≤ 16 * c - c → 0 < h → t.pkg.pcHold = h - 1) ∧
        (p ≤ c → 16 * c - c < 16 * p ∨ h = 0 → t.pkg.pcHold = h)) ∧
    (∀ p, s.pkg.pcHold ≤ 63 →
      let owned := setBits (calSlots (part s p)) 64
      issueSlots s p = (owned.take (owned.length - owned.length * s.pkg.pcHold / 64)).filter (fun n => !s.pkg.calFreed.contains (n, s.pkg.cycle / 1024)) ∧
      (owned ≠ [] → s.pkg.calFreed = [] → issueSlots s p ≠ [])) ∧
    (∀ p n f, frame? s p n = some f → f.resident = true → operandsWait s p n = true → waitsByRight s p n = false → wdOver s p f.progress = true →
      exec (.watchdogHit p false n 0) s =
        .next (wdReport (modFrame s p n fun f => { f with progress := reported }) p (BitVec.ofNat 32 n)))

/-- R199–R208, R464, R466, R469, R505. An ORD packet at an up port is held back by a full buffer, refused with F_LINK when its
times are far, forwarded by a port that is up and forwards, buffered or counted late; what the hold kept enters ORQ and a packet
held for quota moves; ORD_EXCL takes effect; F_WMSTALL is raised once; a sound flit in order is accepted unless it waits for
room, any other is dropped, and one that cannot be read is asked for again; at a replay request the port goes back to the flit
after the one it names, and 64 in a row bring it down; a lane is spared once; a partner that leaves closes the port; training
takes its states, and retries. -/
def Obligations.OrderedClassAndLinks : Prop :=
  ∀ (s : State) (k : Nat),
    (∀ h payload bar, portUp s k = true → hdCls h = 1 →
      let p : Packet := ⟨h, if bar.isSome then payload else payload.take (hdLen h), bar.map fun (b : Nat × Nat) => ⟨b.1, b.2, hdSeq h, none⟩⟩
      let near := stampNear s (hdStamp h) && stampNear s (hdWm h)
      let r := raiseWmi s k (hdWm h)
      (portHeld s k p = true → exec (.ordPacketArrival k h ⟨payload, bar⟩) s = .next s) ∧
      (portHeld s k p = false → near = false → exec (.ordPacketArrival k h ⟨payload, bar⟩) s = .next (linkFault s k)) ∧
      (portHeld s k p = false → near = true → hdDst h ≠ s.pkg.number.toNat →
        exec (.ordPacketArrival k h ⟨payload, bar⟩) s = .next (deliverOrd (if portUp r (Config.route (hdDst h)) ∧ Config.forwards (Config.route (hdDst h)) then
          modPort r (Config.route (hdDst h)) fun x => { x with egress := x.egress ++ [p] } else r))) ∧
      (portHeld s k p = false → near = true → hdDst h = s.pkg.number.toNat → 0 < cmp48 (hdStamp h) r.pkg.front →
        exec (.ordPacketArrival k h ⟨payload, bar⟩) s = .next (deliverOrd (modPkg r fun g => { g with rxbuf := g.rxbuf ++ [(k, p)] }))) ∧
      (portHeld s k p = false → near = true → hdDst h = s.pkg.number.toNat → cmp48 (hdStamp h) r.pkg.front ≤ 0 →
        let late := modPkg r fun g => { g with ordLate := satNext g.ordLate }
        exec (.ordPacketArrival k h ⟨payload, bar⟩) s = .next (deliverOrd (if r.pkg.ordExcl.getLsbD k then late else linkFault late k)))) ∧
    (∀ p, let t := refillOrq s p
      ((∃ x ∈ t.pkg.rxbuf, groupPart t (hdGroup x.2.hdr) = some p) → exec (.orderedHoldMove p) s = .next (deliverOrd t)) ∧
      ((∀ x ∈ t.pkg.rxbuf, groupPart t (hdGroup x.2.hdr) ≠ some p) → exec (.orderedHoldMove p) s = .next t)) ∧
    (∀ v : Word, ∃ t, exec (.ordExclWrite v) s = .next (deliverOrd t) ∧ t.pkg.ordExcl = BitVec.setWidth 24 v ∧ t.parts = s.parts ∧
      t.pkg.readmit &&& t.pkg.ordExcl = 0) ∧
    (s.pkg.stalled = false → s.pkg.rxbuf ≠ [] → s.pkg.mSince + s.pkg.wmTimeout.toNat ≤ s.pkg.podTime.toNat →
      ∃ u r, exec .fWmstall s = .next (hfqFault u r false) ∧ u.pkg.stalled = true ∧
        u.pkg.ordStat = BitVec.ofNat 32 (2 ^ 31 + stallPort s) ∧ r.code = F_WMSTALL ∧ r.g5 = BitVec.setWidth 64 (liveMin s)) ∧
    (s.pkg.stalled = true → exec .fWmstall s = .next s) ∧
    (∀ x, s.pkg.ports[k]? = some x →
      (x.state = 5 →
        (∀ flit, exec (.flitReceive k flit) s = .next (match Sys2Proof.Config.fecDecode flit with
          | none => askAgain s k (countFlit x [])
          | some f =>
            let y := countFlit x (correctedLanes flit f)
            if ofBytes ((f.drop 240).take 4) ≠ (crc32c (f.take 240)).toNat then checkLanes (askAgain s k y) k
            else if flitType f = 4 then goBack s k y (flitAck f)
            else if flitSeq f ≠ x.fseqIn then checkLanes (modPort s k fun _ => y) k
            else if flitHeld s k x f then s else checkLanes (acceptFlit s k y f) k)) ∧
        (∀ n, let y := { dropAcked x n with retry := satNext x.retry, retries := (dropAcked x n).retries + 1 }
          (y.retries < 64 → exec (.flitReplay k n) s =
            .next (chargeInfra (modPort s k fun _ => { y with sent := y.sent ++ [.again ((n + 1) % 4096)] }) y.replay.length)) ∧
          (64 ≤ y.retries → exec (.flitReplay k n) s = .next (portDown (modPort s k fun _ => y) k))) ∧
        (∀ l, l < 8 → (x.spared = none → exec (.laneSpare k l) s = .next (sendCtl (modPort s k fun x =>
            { x with spared := some l, symbols := x.symbols.filter (fun y => y.1 != l) }) k (.spare l))) ∧
          (x.spared ≠ none → exec (.laneSpare k l) s = .next (portDown s k))) ∧
        exec (.leaveFlit k) s = .next (closePort s k 6)) ∧
      (x.state < 5 → ¬ (x.state = 0 ∧ 0 < x.fails) → 3 ≤ s.pkg.phase → s.pkg.phase ≠ 15 → ∀ i : TrainInfo,
        (i.ok = false → exec (.portTraining k i) s = .next (failTraining s k)) ∧
        (i.ok = true → x.state < 3 → exec (.portTraining k i) s = .next (modPort s k fun x => { x with state := x.state + 1 })) ∧
        (i.ok = true → x.state = 3 → exec (.portTraining k i) s = .next (modPort s k fun x => { x with state := 4, spared := i.badLane })) ∧
        (i.ok = true → x.state = 4 → exec (.portTraining k i) s = .next (lockTime s k i))) ∧
      (6 ≤ x.state → 3 ≤ s.pkg.phase → s.pkg.phase ≠ 15 → s.pkg.quiesce = .run → ∀ i : TrainInfo, i.ok = true →
        exec (.portTraining k i) s = .next (modPort s k fun x => { x with state := 1, fails := 0 })) ∧
      (x.state = 0 → 0 < x.fails → x.retryAt ≤ s.pkg.podTime.toNat → 3 ≤ s.pkg.phase → s.pkg.phase ≠ 15 →
        exec (.trainingRetry k) s = .next (modPort s k fun x => { x with state := 1 })))

/-- R234, R249, R461, R467, R469–R471. Bring-up goes through its phases by what verification and training answer; firmware that
is accepted is kept, other firmware is not; a quiesce goes through its states, refused with BUSY while a partition is live
without FORCE, and a package that stays in reset takes neither it nor TROOT; an abort returns to RUN; TROOT takes its value; an
attestation report goes behind its nonce; the fourth key word loads the key; a link goes down alone; a package reset scrubs HBM
and all state but host memory and the number. -/
def Obligations.Management : Prop :=
  ∀ (s : State),
    (∀ ok failed, ∃ t, exec (.bringUpPhase ok failed) s = .next t ∧ t.mem = s.mem ∧ t.parts = s.parts ∧
      (s.pkg.phase = 0 → t.pkg.phase = (if ok then 1 else 15) ∧ t.pkg.fwOk = ok) ∧
      (s.pkg.phase = 1 → t.pkg.phase = 2 ∧ t.pkg.chFail = failed) ∧
      (s.pkg.phase = 2 → let l := trainLinks failed s.pkg
        t.pkg.phase = (if ok ∧ l.any id then 3 else 2) ∧ (ok = true → l.any id = true → t.pkg.pcieUp = l)) ∧
      (s.pkg.phase = 3 ∨ s.pkg.phase = 4 → t.pkg.phase = (if portsSettled s.pkg then s.pkg.phase + 1 else s.pkg.phase)) ∧
      (s.pkg.phase = 5 → t.pkg.phase = 5 ∧ t.pkg.pcieUp = (if ok then trainLinks failed s.pkg else s.pkg.pcieUp)) ∧
      (5 < s.pkg.phase → t = s)) ∧
    (∀ image, ∃ t, exec (.firmwareUpdate image) s = .next t ∧ (if Sys2Proof.Config.firmwareAccepted image then
      t.pkg.fwDigest.isSome = true ∧ t.pkg.phase = (if s.pkg.phase = 15 then 0 else s.pkg.phase) else t = s)) ∧
    (∀ force, s.pkg.phase = 15 → exec (.quiesceRequest force) s = .next s) ∧
    (∀ force, s.pkg.phase ≠ 15 →
      (s.pkg.quiesce = .run → anyLive s = true → force = false →
        exec (.quiesceRequest force) s = .next (modPkg s fun k => { k with refusedBusy := true })) ∧
      (s.pkg.quiesce = .run → anyLive s = false ∨ force = true →
        exec (.quiesceRequest force) s = .next (destroyAll (modPkg s fun k => { k with quiesce := .quiescing, refusedBusy := false }))) ∧
      (s.pkg.quiesce = .quiescing → anyLive s = false → upPorts s = true → exec (.quiesceRequest force) s = .next (leavePorts s)) ∧
      (s.pkg.quiesce = .quiescing → anyLive s = false → upPorts s = false →
        exec (.quiesceRequest force) s = .next (modPkg s fun k => { k with quiesce := .quiesced }))) ∧
    (∃ t, exec .quiesceAbort s = .next t ∧ (s.pkg.quiesce = .quiescing → t.pkg.quiesce = .run ∧ ∀ x ∈ t.pkg.ports, x.state ≠ 6) ∧
      (s.pkg.quiesce ≠ .quiescing → t = s)) ∧
    (∀ v, s.pkg.phase ≠ 15 → exec (.trootWrite v) s = .next (modPkg s fun k => { k with troot := v, gaveUp := false })) ∧
    (∀ v, s.pkg.phase = 15 → exec (.trootWrite v) s = .next s) ∧
    (∀ nonce, paOk nonce.toNat = true →
      exec (.attReq nonce) s = .next (pokeBytes s (nonce.toNat + 64) (attReport s (rdBytes s.mem nonce.toNat 64)))) ∧
    (∀ p v, exec (.keySlotWrite p 3 v) s = .next (modPart s p fun t =>
      let w := t.keyWords.set 3 v
      { t with keyWords := w, key := some (BitVec.ofNat 256 (joinWords w 0 4)), epoch := t.epoch + 1, sealCnt := 0 })) ∧
    (∀ p k v, k < 3 → exec (.keySlotWrite p k v) s = .next (modPart s p fun t => { t with keyWords := t.keyWords.set k v })) ∧
    (∀ l, ∃ t, exec (.pcieLinkDown l) s = .next t ∧ t.pkg.pcieUp = s.pkg.pcieUp.set l false ∧ t.parts = s.parts ∧ t.mem = s.mem) ∧
    (∃ t, exec .packageReset s = .next t ∧ (∀ a, a < 0x6000000000 → rdByte t.mem a = 0) ∧ t.frames = [] ∧ t.regions = [] ∧
      (∀ p, live t p = false) ∧ t.pkg.phase = 0 ∧ t.pkg.number = s.pkg.number ∧
      (MemInv s → ∀ a, 0x8000000000000 ≤ a → rdByte t.mem a = rdByte s.mem a))

/-- R187, R190–R192, R412, R461, R501, R2. A write of 16 aligned bytes into an inbox with room joins its message, any other
counts as dropped; an engine message enters its queue, waits for room, or is refused and reported; a BAR2 write within a page
reaches what stage 2 translates and nothing else, and a read leaves only what its translation did, each charged; a remote access
acts, word by word, on the partition of its pod group, at its sender's level. -/
def Obligations.HostMessages : Prop :=
  ∀ (s : State) (p : Nat),
    (∀ l off bs, linkUp s l = false → exec (.inboxAppend p l off bs) s = .next s) ∧
    (∀ l off bs, linkUp s l = true → live s p = true → off < 0x1000 →
      (bs.length = 16 → off % 16 = 0 → inboxFree (part s p) ≠ 0 →
        exec (.inboxAppend p l off bs) s = .next (modPart s p fun t => appendBeat t l s.pkg.cycle (BitVec.ofNat 128 (ofBytes bs)))) ∧
      (bs.length ≠ 16 ∨ off % 16 ≠ 0 ∨ inboxFree (part s p) = 0 →
        exec (.inboxAppend p l off bs) s = .next (modPart s p fun t => { t with drops := satInc t.drops }))) ∧
    (∀ m l, (part s p).inbox = m :: l → mEop (m.headD 0) ≠ 1 →
      let bay := hostBay s p
      (bayGated s p bay = true → exec (.hostEngineMessageIntake p) s = .next s) ∧
      (bayGated s p bay = false →
      let h := m.headD 0
      (msgRefused s p bay h (m.drop 1) = none →
        (queueHasRoom s (queueOf p bay h) = true →
          exec (.hostEngineMessageIntake p) s = .next (pushCmd (popInbox s p) p bay h (m.drop 1) none)) ∧
        (queueHasRoom s (queueOf p bay h) = false → exec (.hostEngineMessageIntake p) s = .next s)) ∧
      (∀ x, msgRefused s p bay h (m.drop 1) = some x → ∃ r : FaultRec,
        exec (.hostEngineMessageIntake p) s = .next (deliverN (popInbox s p) r .nothing) ∧ r.code = x.1 ∧ r.g4 = x.2.1 ∧ r.g5 = x.2.2))) ∧
    (∀ gpa bs u pa, hostLink s = true → live s p = true → gpa + bs.length ≤ 2 ^ 36 → 0 < bs.length → gpa % 2 ^ 14 + bs.length ≤ 2 ^ 14 →
      (devWalk s p gpa true = .ok (u, pa) → exec (.hostBar2Access p gpa bs.length (some bs)) s =
        .next (charge (pokeBytes u pa bs) p none 5 ((bs.length + 63) / 64))) ∧
      (devWalk s p gpa false = .ok (u, pa) → exec (.hostBar2Access p gpa bs.length none) s =
        .next (charge u p none 5 ((bs.length + 63) / 64))) ∧
      (∀ e, devWalk s p gpa true = .error e → exec (.hostBar2Access p gpa bs.length (some bs)) s = .next s) ∧
      (∀ e, devWalk s p gpa false = .error e → exec (.hostBar2Access p gpa bs.length none) s = .next s)) ∧
    (∀ va bs n sup, live s p = true → groupOf s p ≠ 0 → n < 2 ^ 18 →
      let level := if sup then 2 ^ 18 else 0
      exec (.remoteAccess p va (n + level) (some bs)) s = .next (remoteWrite p sup (bs.length + 1) va.toNat bs s) ∧
      (0 < bs.length → va.toNat % 8 + bs.length ≤ 8 → exec (.remoteAccess p va (n + level) (some bs)) s =
        .next (remoteOp s (hostBay s p) p sup none va.toNat bs.length (some bs)).1) ∧
      exec (.remoteAccess p va (n + level) none) s =
        .next (charge (remoteOp s (hostBay s p) p sup none va.toNat n none).1 p none 6 (flitsOf n)))
end

