-- ==== Sys2Proof/Laws/Shells.lean ====
section
/-! SUPPORT. What the shells and the gates that every instruction passes can do, said once for each (R27, R130, R131,
R294, R394, R418), and what the checked accesses answer (R105, R115, R372, R375). -/
namespace Sys2Proof.Machine

/-- An instance that acts passes the shell. -/
theorem shell_acts {pr ts s eff} (h : Acts pr s) : shell pr ts s eff = eff s := by
  obtain ⟨h1, h2, h3, h4⟩ := h
  simp [shell, h1, h2, h3, h4]

/-- The shell consumes a marker and sends it on (R27). -/
theorem shell_eos {pr ts s eff} (h : anyEos s.cur = true) : shell pr ts s eff = sendAll s ts .eos 0 := by
  simp [shell, h]

/-- The shell consumes a null and sends it on (R294). -/
theorem shell_null {pr ts s eff} (h : anyEos s.cur = false) (h2 : anyNull s.cur = true) :
    shell pr ts s eff = sendAll s ts .null 0 := by
  simp [shell, h, h2]

/-- A predicate that does not hold consumes the instance without an effect (R293, R294). -/
theorem shell_off {pr ts s eff} (h : anyEos s.cur = false) (h2 : anyNull s.cur = false) (h3 : predOk pr s = false) :
    shell pr ts s eff = s := by
  simp [shell, h, h2, h3]

/-- What the shell can do: send a marker, nulls or slot a on, nothing, or the effect. -/
theorem shell_cases (pr ts s eff) :
    shell pr ts s eff = sendAll s ts .eos 0 ∨ shell pr ts s eff = sendAll s ts .null 0 ∨ shell pr ts s eff = s ∨
      shell pr ts s eff = sendAll s ts .data (opA s) ∨ shell pr ts s eff = eff s := by
  unfold shell
  repeat' split
  all_goals simp

/-- An instance that acts is not marked as consumed. -/
theorem markConsumed_acts {pr s} (h : Acts pr s) : markConsumed pr s = s := by
  obtain ⟨h1, h2, h3, -⟩ := h
  simp [markConsumed, consumed, h1, h2, h3]

/-- An effect that reads what the frame's committed blocks left runs in a settled state (R418). -/
theorem whenSettled_settled {s eff} (h : Settled s) : whenSettled s eff = eff s := by
  simp [whenSettled, show curSettled s = true from h]

/-- It waits elsewhere. -/
theorem whenSettled_waits {s eff} (h : ¬ Settled s) : whenSettled s eff = waitCur s := by
  simp [whenSettled, show ¬ curSettled s = true from h]

/-- The gate of engine messages lets an instance pass in its turn (R394). -/
theorem engGate_turn {s eff} (h : inTurn s = true) : engGate s eff = eff (turned s) := by
  unfold inTurn at h
  unfold engGate turned
  split at h <;> simp_all

/-- An engine instruction that may send runs its effect. -/
theorem engShell_sends {f : EFmt} {s eff} (h : Sends f.pr s) : engShell f s eff = .next (eff (turned s)) := by
  obtain ⟨h1, h2, h3⟩ := h
  simp only [engShell, markConsumed_acts h1, shell_acts h1, whenSettled_settled h2, engGate_turn h3]

/-- A memory instruction that has its place and its turn runs its effect (R130, R131, R150). -/
theorem memShell_accesses {f : MFmt} {st o t s eff} (h : Accesses f.pr o t s) :
    memShell f st o t s eff = .next (eff (placedState s)) := by
  obtain ⟨⟨h1, h2, h3, h4⟩, h5, h6, h8, h7⟩ := h
  have e : memGate o t s eff = eff (placedState s) := by
    unfold memGate
    unfold placedState hasPlace at *
    cases hs : s.cur.stage with
    | none => simp_all; cases o <;> cases t <;> simp_all
    | some k => by_cases hk : 0 < k <;> simp_all <;> cases o <;> cases t <;> simp_all
  simp [memShell, h1, h2, h3, h4, e]

/-- A run that passes its checks goes on with what it translates to. -/
theorem withRuns_translates {s ea n algn st s1 rs go} (h : Translates s ea n algn st s1 rs) :
    withRuns s ea n algn st go = go s1 rs := by
  simp [withRuns, h.1, h.2]

/-- A store ignores the poison of what it overwrites. -/
theorem withRuns_store {s ea n algn s1 rs go} (h : checked s ea n algn true = (s1, .ok rs)) :
    withRuns s ea n algn true go = go s1 rs := by
  simp only [withRuns, h]
  split <;> rfl

/-- A load of a poisoned word faults (R115). -/
theorem withRuns_poisoned {s ea n algn s1 rs a go} (h : checked s ea n algn false = (s1, .ok rs)) (h2 : poisonedAt s1 rs = some a) :
    withRuns s ea n algn false go = fault s1 F_MEMECC (BitVec.ofNat 64 a) 0 := by
  simp [withRuns, h, h2]

/-- A failed check faults with its code. -/
theorem withRuns_bad {s ea n algn st s1 c a go} (h : checked s ea n algn st = (s1, .bad c a)) :
    withRuns s ea n algn st go = accFault s1 c a.toNat n st := by
  simp [withRuns, h]

/-- A translation that is not held waits for its walk. -/
theorem withRuns_miss {s ea n algn st s1 go} (h : checked s ea n algn st = (s1, .miss)) :
    withRuns s ea n algn st go = waitCur s1 := by
  simp [withRuns, h]

/-- So does a page whose fault is open. -/
theorem withRuns_page {s ea n algn st s1 w go} (h : checked s ea n algn st = (s1, .page w)) :
    withRuns s ea n algn st go = waitCur s1 := by
  simp [withRuns, h]

/-- The slot of a versioned word that a load finds (R381). -/
theorem withSlot_load {f : MFmt} {s s1 r rs go} (h : Translates s (eaOf f 16 (opA s)) 16 16 false s1 (r :: rs)) (h2 : r.vr = true)
    (h3 : r.uncached = false) : withSlot f s false go = go s1 r.pa := by
  simp only [withSlot]
  rw [withRuns_translates h]
  simp [h2, h3]

/-- The slot that a store finds. -/
theorem withSlot_store {f : MFmt} {s s1 r rs go} (h : checked s (eaOf f 16 (opA s)) 16 16 true = (s1, .ok (r :: rs)))
    (h2 : r.vr = true) (h3 : r.uncached = false) : withSlot f s true go = go s1 r.pa := by
  simp only [withSlot]
  rw [withRuns_store h]
  simp [h2, h3]

/-- A page that is not versioned, or is uncached, has none. -/
theorem withSlot_none {f : MFmt} {s s1 r rs go} (h : Translates s (eaOf f 16 (opA s)) 16 16 false s1 (r :: rs))
    (h2 : r.vr = false ∨ r.uncached = true) : withSlot f s false go = accFault s1 F_PROT (eaOf f 16 (opA s)) 16 false := by
  simp only [withSlot]
  rw [withRuns_translates h]
  rcases h2 with h2 | h2 <;> simp [h2]

/-- What lies under the key of a bay is on chip: nothing is translated. -/
theorem parkedTouch_here {s : State} {p key off n : Nat} {st : Bool} (h : parkedAt s p key = none) : parkedTouch s p key off n st = .ok s := by
  simp [parkedTouch, h]

/-- A shelf access that holds goes on with its place in the shelf. -/
theorem withShelf_holds {s ea n st go u} (h : ShelfHolds s ea n st u) :
    withShelf s ea n st go =
      go (if st then u else charge u u.cur.part (curTree u) 3 1) (shelfKey (curKey s) ea.toNat) := by
  obtain ⟨h1, h2, h3, h6, h4⟩ := h
  have h5 : ¬ (ea < 0 ∨ (pow2 22 : Int) < ea + n) := by omega
  simp only [withShelf, h1, h5, if_false, h6]
  cases st <;> simp_all

/-- The shelf bytes of a soft-token instruction. -/
theorem withShelfBytes_holds {s a n go u} (h : SoftHolds s a n u) : withShelfBytes s a n go = go (softRead u n) (softBytes u a n) := by
  obtain ⟨h1, h2, h5, h3⟩ := h
  have h4 : ¬ (pow2 22 < a + n) := by omega
  simp [withShelfBytes, softShelf, h1, h3, h4, h5, softRead, softBytes]

/-- Raising no flag changes nothing. -/
theorem raiseFl_zero (s : State) : raiseFl s 0 = s := by
  unfold raiseFl
  cases s.cur.grid <;> simp [modBlock, modRegion, updWhere]

/-- The bytes of a store under known controls. -/
theorem withBytes_ok {f : MFmt} {s go c bs fl} {ea : Int} (h : curCtl s = some c) (h2 : narrowSf f.sf.toNat c (opB s) = some (bs, fl)) :
    withBytes f ea s go = go (raiseFl s fl) bs := by
  simp [withBytes, h, h2]

/-- A store that overflows under the trapping policy. -/
theorem withBytes_ovf {f : MFmt} {s go c} {ea : Int} (h : curCtl s = some c) (h2 : narrowSf f.sf.toNat c (opB s) = none) :
    withBytes f ea s go = fault s F_CVTOVF (BitVec.ofInt 64 ea) (BitVec.ofNat 64 f.sf.toNat) := by
  simp [withBytes, h, h2]

/-- An atomic whose run passes its checks reads, computes and writes in one step (R377). -/
theorem atomic_translates {f : MFmt} {s n upd res s1 rs} (h : Translates s ((opA s).toNat + offM f) n n true s1 rs) :
    atomic f s n upd res =
      send (noteAct (atomicPut s1 rs n (upd (ofBytes ((runBytes rs).map (rdByte s1.mem)))))) f.t0
        (res (ofBytes ((runBytes rs).map (rdByte s1.mem)))) := by
  simp only [atomic]
  rw [withRuns_store h.1]
  simp only [h.2]

/-- An operand of a message that is not fetched: no beats follow. -/
theorem withBeats_none {s a go} : withBeats s a 0 go = go s [] := by simp [withBeats]

/-- The beats of a message whose run passes its checks (R394). -/
theorem withBeats_translates {s a n go s1 rs} (h : n ≠ 0) (h3 : accessTurn s = true) (h2 : Translates s (a.toNat : Int) (16 * n) 16 false s1 rs) :
    withBeats s a n go = go (readDesc s1 rs).2 (beatsOf (readDesc s1 rs).1 n) := by
  simp only [withBeats, beq_iff_eq, h, if_false, h3, Bool.not_true, Bool.false_eq_true]
  rw [withRuns_translates h2]

/-- Beats that are there are read. -/
theorem withBeats_beats {t a n u l go} (h : Beats t a n u l) : withBeats t a n go = go u l := by
  rcases h with ⟨rfl, rfl, rfl⟩ | ⟨h1, h3, s1, rs, h2, rfl, rfl⟩
  · exact withBeats_none
  · exact withBeats_translates h1 h3 h2

/-- What offering a message does. -/
theorem offer_offers (u h l) : Offers (.next (offer u h l)) u h l := by
  refine ⟨fun h1 => ?_, fun h0 h1 => ⟨fun h2 => ?_, fun h2 => ?_⟩, fun r h0 h1 => ?_⟩ <;> simp_all [offer]

/-- What a dedicated engine instruction does. -/
theorem engSend_sends {f : EFmt} {s u l eop} (hs : Sends f.pr s)
    (hb : Beats (turned s) (opA (turned s)) (if eop ≠ 0x08 ∧ f.hnd ≠ 0 ∧ opA (turned s) = 0 then 0 else needBeats eop - 1) u l) :
    Offers (engSend eop f s) u
      (mkHeader eop f.hnd.toNat f.q.toNat f.push.toNat f.pop.toNat
        (if eop ≠ 0x08 ∧ f.hnd ≠ 0 ∧ opA (turned s) = 0 then 0 else needBeats eop - 1) (argOf f u) (contOf f u)) l := by
  have e : (if (eop != 0x08 && f.hnd != 0 && opA (turned s) == 0) = true then 0 else needBeats eop - 1) =
      (if eop ≠ 0x08 ∧ f.hnd ≠ 0 ∧ opA (turned s) = 0 then 0 else needBeats eop - 1) := by
    by_cases h0 : eop = 0x08 <;> by_cases h1 : f.hnd = 0 <;> by_cases h2 : opA (turned s) = 0 <;> simp [h0, h1, h2]
  simp only [engSend, engShell_sends hs]
  rw [e, withBeats_beats hb]
  exact offer_offers _ _ _

/-- A command that may go on goes on. -/
theorem withCmd_inEngine {s r e c ready bind go} (h : InEngine s r e c) : withCmd s r [e] ready bind go = .next (go s c) := by
  obtain ⟨h1, h2, h3, h4, h5, h8, h6, h7, -⟩ := h
  simp [withCmd, h1, h2, h3, h4, h5, h6, h7, h8]

/-- A command that issues goes on at once, where nothing is bound at issue. -/
theorem withCmd_issues {s r e c t d go} (h : Issues s r e c t d) : withCmd s r [e] always noBind go = .next (go t d) := by
  obtain ⟨h1, h2, h3, h4, h5, h0, h6, h7, h8, h9, h10, h12⟩ := h
  have h11 : d.id = c.id := by simpa using List.find?_some h10
  simp [withCmd, h0, h1, h2, h3, h4, h5, h6, h7, h8, h9, h10, h11, h12, always, noBind]

/-- An answer that comes is used. -/
theorem gotten_val {α : Type} {c : Cmd} {s : State} {v : α} {go} : gotten c (s, .val v) go = go s v := rfl

/-- A page fault holds the command. -/
theorem gotten_hold {α : Type} {c : Cmd} {s : State} {go : State → α → State} :
    gotten c (s, .hold) go = modCmd s c.id fun c => { c with held := true } := rfl

/-- A failed check ends it. -/
theorem gotten_bad {α : Type} {c : Cmd} {s : State} {x g4 g5} {go : State → α → State} :
    gotten c (s, .bad x g4 g5) go = failCmd s c x g4 g5 := rfl

end Sys2Proof.Machine
end

