-- ==== Sys2Proof/Laws/Engines.lean ====
section
/-! SUPPORT. What the engines' loops do, said once for each: a command whose elements, or whose bytes, all answer (R118, R396, R412). -/
namespace Sys2Proof.Machine

/-- What lies on chip is accessed at once (R242). -/
theorem withParked_here {α : Type} {s c key off n st} {go : State → State × Got α} (h : parkedAt s c.part key = none) :
    withParked s c key off n st go = go s := by
  simp only [withParked, parkedTouch_here h]

/-- So is an accumulator word of a bay. -/
theorem withAcc_here {α : Type} {s c w st} {go : State → State × Got α} (h : parkedAt s c.part c.bay = none) :
    withAcc s c w st go = go s := withParked_here h

/-- A command's number stays with it. -/
theorem cmd?_id {s : State} {id : Nat} {c : Cmd} (h : cmd? s id = some c) : c.id = id := by
  simpa using List.find?_some h

/-- What a change of a command leaves of it, where its number stays. -/
theorem cmd?_modCmd {s : State} {id : Nat} {f : Cmd → Cmd} (h : ∀ c, (f c).id = c.id) :
    cmd? (modCmd s id f) id = (cmd? s id).map f := by
  simp only [cmd?, modCmd, updWhere]
  induction s.cmds with
  | nil => rfl
  | cons x l ih => by_cases e : x.id = id <;> simp_all

/-- One shelf word's elements that answer are a first part of what `Performed` performs (R118). -/
theorem runWord_performed {total id : Nat} {word f} {from_ : State × Nat} (n : Nat) {m s t} (h : Performed total f id (m + 1) s t) :
    ∃ k u, k ≤ m ∧ Performed total f id k u t ∧ runWord total word f id from_ (n + 1) s = u := by
  induction n generalizing m s with
  | zero =>
    cases h with
    | elem m s t c d h1 h2 h3 h4 h5 h6 h7 h8 =>
      exact ⟨m, _, by omega, h8, by simp [runWord, h1, h5, h6, h7]⟩
  | succ n ih =>
    cases h with
    | elem m s t c d h1 h2 h3 h4 h5 h6 h7 h8 =>
      simp only [runWord, h1, h5, h6, h7] at ih ⊢
      by_cases e : (decide (d.pos + 1 < total) && (word c).isSome && word { c with pos := d.pos + 1 } == word c) = true
      · have hp : cmd? (modCmd (f s c) id fun c => { c with pos := c.pos + 1 }) id = some { d with pos := d.pos + 1 } := by
          have := cmd?_modCmd (s := f s c) (id := id) (f := fun c => { c with pos := c.pos + 1 }) fun _ => rfl
          rw [this, h5]; rfl
        have hl : d.pos + 1 < total := by simp at e; exact e.1.1
        cases m with
        | zero =>
          cases h8 with
          | last s c a1 a2 a3 a4 =>
            rw [hp] at a1
            cases a1
            simp at a4
            omega
        | succ m =>
          obtain ⟨k, u, h9, h10, h11⟩ := ih h8
          refine ⟨k, u, by omega, h10, ?_⟩
          simp [e] at h11 ⊢
          exact h11
      · exact ⟨m, _, by omega, h8, by simp [e]⟩

/-- A command whose elements all answer performs them and ends (R396). -/
theorem runElems_performed {total id : Nat} {word f} (n : Nat) {m s t d} (hm : m ≤ n) (h : Performed total f id m s t)
    (hd : cmd? t id = some d) : runElems total word f id n s = endCmd t d := by
  induction n generalizing m s with
  | zero =>
    obtain rfl : m = 0 := by omega
    cases h with
    | last s c h1 h2 h3 h4 =>
      rw [h1] at hd
      cases hd
      simp [runElems, h1, h2, h3, h4]
  | succ n ih =>
    cases m with
    | zero =>
      cases h with
      | last s c h1 h2 h3 h4 =>
        rw [h1] at hd
        cases hd
        unfold runElems
        simp [h1, h2, h3, h4]
    | succ m =>
      have h' := h
      cases h' with
      | elem m s t c d h1 h2 h3 h4 h5 h6 h7 h8 =>
        obtain ⟨q, hq⟩ : ∃ q, total - c.pos = q + 1 := ⟨total - c.pos - 1, by omega⟩
        obtain ⟨k, u, h9, h10, h11⟩ := runWord_performed (word := word) (from_ := (s, c.pos)) q h
        unfold runElems
        simp only [h1]
        rw [if_neg (by simp [h2, h3]), if_neg (by omega), hq, h11]
        exact ih (by omega) h10

/-- Bytes that are all taken and put are carried to the end (R396, R412). -/
theorem carryBytes_carried {take_ put dst total fin id s t d} (n : Nat) (h : Carried take_ put dst total id s t)
    (hd : cmd? t id = some d) (hn : ∀ c, cmd? s id = some c → total - c.pos < n) :
    carryBytes take_ put dst total fin id n s = fin t d := by
  induction n generalizing s with
  | zero =>
    cases h with
    | last s c h1 => exact absurd (hn c h1) (by omega)
    | word s u v t c bs h1 => exact absurd (hn c h1) (by omega)
  | succ n ih =>
    cases h with
    | last s c h1 h2 h3 h4 =>
      rw [h1] at hd
      cases hd
      simp [carryBytes, h1, h2, h3, h4]
    | word s u v t c bs h1 h2 h3 h4 h5 h6 h7 =>
      have := hn c h1
      simp only [carryBytes, h1]
      rw [if_neg (by simp [h2, h3]), if_neg (by omega)]
      have e : Nat.min (total - c.pos) (8 - (dst + c.pos) % 8) = min (total - c.pos) (8 - (dst + c.pos) % 8) := rfl
      simp only [e, h5, h6, gotten]
      have hp := cmd?_modCmd (s := v) (id := id) (f := fun x => { x with pos := c.pos + min (total - c.pos) (8 - (dst + c.pos) % 8) }) fun _ => rfl
      have hs : ((cmd? (modCmd v id fun x => { x with pos := c.pos + min (total - c.pos) (8 - (dst + c.pos) % 8) }) id).bind (·.status)).isSome = false := by
        cases h7 with
        | last s c a b => simp [a, b]
        | word s u v t c bs a b => simp [a, b]
      rw [hs, Bool.and_false, if_neg (by simp)]
      refine ih h7 fun x hx => ?_
      rw [hp] at hx
      obtain ⟨y, -, rfl⟩ := Option.map_eq_some_iff.mp hx
      simp only
      omega

end Sys2Proof.Machine
end

