-- ==== Sys2Proof/Laws/Memory.lean ====
section
/-! SUPPORT. Sparse memory: every operation keeps the canonical form, a read after a write to the same place gives the
value written, and a write leaves every other place alone. -/
namespace Sys2Proof.Machine

/-- A canonical memory whose addresses all lie above a. -/
def Memory.above (m : Memory) (a : Nat) : Prop := ∀ c ∈ m, a < c.1

theorem Memory.wf_nil : Memory.wf [] = true := rfl

/-- The canonical form, one cell at a time. -/
theorem Memory.wf_cons {a : Nat} {v : Byte} {m : Memory} :
    Memory.wf ((a, v) :: m) = true ↔ v ≠ memDefault ∧ Memory.above m a ∧ Memory.wf m = true := by
  induction m generalizing a v with
  | nil => simp [Memory.wf, Memory.above]
  | cons c m ih =>
    obtain ⟨b, w⟩ := c
    have hb := @ih b w
    simp only [Memory.wf, Memory.above, Bool.and_eq_true, bne_iff_ne, decide_eq_true_eq, List.mem_cons, forall_eq_or_imp]
    constructor
    · rintro ⟨⟨h1, h2⟩, h3⟩
      refine ⟨h1, ⟨h2, fun c hc => ?_⟩, h3⟩
      exact Nat.lt_trans h2 ((hb.1 h3).2.1 c hc)
    · rintro ⟨h1, ⟨h2, -⟩, h3⟩
      exact ⟨⟨h1, h2⟩, h3⟩

theorem Memory.wf_tail {c : Host.Cell} {m : Memory} (h : Memory.wf (c :: m) = true) : Memory.wf m = true :=
  (Memory.wf_cons.1 h).2.2

/-- A filtered canonical memory is canonical. -/
theorem Memory.wf_filter {m : Memory} (q : Host.Cell → Bool) (h : Memory.wf m = true) : Memory.wf (m.filter q) = true := by
  induction m with
  | nil => rfl
  | cons c m ih =>
    obtain ⟨a, v⟩ := c
    obtain ⟨h1, h2, h3⟩ := Memory.wf_cons.1 h
    rw [List.filter_cons]
    split
    · exact Memory.wf_cons.2 ⟨h1, fun c hc => h2 c (List.mem_filter.1 hc).1, ih h3⟩
    · exact ih h3

theorem Memory.mem_wrByte {m : Memory} {a : Nat} {v : Byte} {c : Host.Cell} (h : c ∈ wrByte m a v) : c ∈ m ∨ c.1 = a := by
  induction m with
  | nil => unfold wrByte at h; split at h <;> simp_all
  | cons d m ih =>
    obtain ⟨b, w⟩ := d
    unfold wrByte at h
    repeat' split at h
    all_goals simp only [List.mem_cons] at h ⊢
    all_goals grind

theorem Memory.wf_wrByte {m : Memory} (a : Nat) (v : Byte) (h : Memory.wf m = true) : Memory.wf (wrByte m a v) = true := by
  induction m with
  | nil => unfold wrByte; split <;> simp_all [Memory.wf]
  | cons d m ih =>
    obtain ⟨b, w⟩ := d
    obtain ⟨h1, h2, h3⟩ := Memory.wf_cons.1 h
    unfold wrByte
    split
    · next hab =>
      split
      · exact h
      · next hv => exact Memory.wf_cons.2 ⟨by simpa using hv, fun c hc => by
          rcases List.mem_cons.1 hc with rfl | hc
          · exact hab
          · exact Nat.lt_trans hab (h2 c hc), h⟩
    · split
      · next hab =>
        obtain rfl : a = b := by simpa using hab
        split
        · exact h3
        · next hv => exact Memory.wf_cons.2 ⟨by simpa using hv, h2, h3⟩
      · next hn hab =>
        have hab : a ≠ b := by simpa using hab
        refine Memory.wf_cons.2 ⟨h1, fun c hc => ?_, ih h3⟩
        rcases Memory.mem_wrByte hc with hc | hc
        · exact h2 c hc
        · omega

theorem Memory.wf_wrBytes {m : Memory} (a : Nat) (bs : List Byte) (h : Memory.wf m = true) : Memory.wf (wrBytes m a bs) = true := by
  induction bs generalizing m a with
  | nil => exact h
  | cons b bs ih => exact ih _ (Memory.wf_wrByte a b h)

theorem Memory.wf_clearRange {m : Memory} (lo len : Nat) (h : Memory.wf m = true) : Memory.wf (clearRange m lo len) = true :=
  Memory.wf_filter _ h

theorem rdByte_above {m : Memory} {a : Nat} (h : Memory.above m a) : rdByte m a = memDefault := by
  cases m with
  | nil => rfl
  | cons c m =>
    obtain ⟨b, v⟩ := c
    have := h (b, v) (by simp)
    unfold rdByte
    rw [if_neg (by simp; simp at this; omega), if_pos (by simpa using this)]

/-- A read after a write to the same place gives the value written. -/
theorem rdByte_wrByte_same {m : Memory} (a : Nat) (v : Byte) (h : Memory.wf m = true) : rdByte (wrByte m a v) a = v := by
  induction m with
  | nil => unfold wrByte; split <;> simp_all [rdByte]
  | cons d m ih =>
    obtain ⟨b, w⟩ := d
    obtain ⟨-, h2, h3⟩ := Memory.wf_cons.1 h
    unfold wrByte
    split
    · next hab =>
      split
      · next hv => unfold rdByte; rw [if_neg (by simp; omega), if_pos hab]; simpa using Eq.symm (by simpa using hv)
      · simp [rdByte]
    · split
      · next hab =>
        obtain rfl : a = b := by simpa using hab
        split
        · next hv => rw [rdByte_above h2]; simpa using Eq.symm (by simpa using hv)
        · simp [rdByte]
      · next hn hab =>
        have hab : a ≠ b := by simpa using hab
        unfold rdByte
        rw [if_neg (by simp; omega), if_neg hn, ih h3]

/-- A write leaves every other place alone. -/
theorem rdByte_wrByte_other {m : Memory} {a c : Nat} (v : Byte) (h : Memory.wf m = true) (hc : c ≠ a) :
    rdByte (wrByte m a v) c = rdByte m c := by
  induction m with
  | nil =>
    unfold wrByte
    split
    · rfl
    · simp only [rdByte]; rw [if_neg (by simp; omega)]; split <;> rfl
  | cons d m ih =>
    obtain ⟨b, w⟩ := d
    obtain ⟨-, h2, h3⟩ := Memory.wf_cons.1 h
    unfold wrByte
    split
    · next hab =>
      split
      · rfl
      · rw [rdByte, if_neg (by simp; omega)]
        split
        · next hca => rw [rdByte, if_neg (by simp; omega), if_pos (by omega)]
        · rfl
    · split
      · next hab =>
        obtain rfl : a = b := by simpa using hab
        have e : rdByte ((a, w) :: m) c = rdByte m c := by
          rw [rdByte, if_neg (by simp; omega)]
          split
          · next hca => rw [rdByte_above fun d hd => Nat.lt_trans hca (h2 d hd)]
          · rfl
        split
        · exact e.symm
        · rw [e, rdByte, if_neg (by simp; omega)]
          split
          · next hca => rw [rdByte_above fun d hd => Nat.lt_trans hca (h2 d hd)]
          · rfl
      · simp only [rdByte, ih h3]

theorem rdByte_wrBytes_other {m : Memory} {a c : Nat} (bs : List Byte) (h : Memory.wf m = true) (hc : c < a ∨ a + bs.length ≤ c) :
    rdByte (wrBytes m a bs) c = rdByte m c := by
  induction bs generalizing m a with
  | nil => rfl
  | cons b bs ih =>
    simp only [List.length_cons] at hc
    rw [wrBytes, ih (Memory.wf_wrByte a b h) (by omega), rdByte_wrByte_other b h (by omega)]

/-- Bytes read where bytes were written are those. -/
theorem rdByte_wrBytes_same {m : Memory} {a : Nat} (bs : List Byte) (k : Nat) (h : Memory.wf m = true) (hk : k < bs.length) :
    rdByte (wrBytes m a bs) (a + k) = bs[k] := by
  induction bs generalizing m a k with
  | nil => simp at hk
  | cons b bs ih =>
    rw [wrBytes]
    cases k with
    | zero => rw [rdByte_wrBytes_other bs (Memory.wf_wrByte a b h) (by omega)]; exact rdByte_wrByte_same a b h
    | succ k =>
      have := ih k (Memory.wf_wrByte a b h) (a := a + 1) (by simpa using hk)
      rw [← Nat.add_assoc, Nat.add_right_comm, this]; rfl

/-- A cleared range reads as the default, and every other place as before. -/
theorem rdByte_clearRange {m : Memory} {lo len c : Nat} (h : Memory.wf m = true) :
    rdByte (clearRange m lo len) c = if lo ≤ c ∧ c < lo + len then memDefault else rdByte m c := by
  induction m with
  | nil => simp [clearRange, rdByte]
  | cons d m ih =>
    obtain ⟨b, w⟩ := d
    obtain ⟨-, h2, h3⟩ := Memory.wf_cons.1 h
    have ih := ih h3
    unfold clearRange at ih ⊢
    have ab : c < b → rdByte m c = memDefault := fun hc => rdByte_above fun d hd => Nat.lt_trans hc (h2 d hd)
    have eb : c = b → rdByte m c = memDefault := fun hc => rdByte_above (hc ▸ h2)
    rw [List.filter_cons]
    split
    · next hb =>
      simp only [Bool.or_eq_true, decide_eq_true_eq] at hb
      simp only [rdByte, ih]
      by_cases e : b = c
      · subst e; simp; intro h1 h2; omega
      · simp only [beq_iff_eq, e, if_false]
        split
        · simp
        · rfl
    · next hb =>
      simp only [Bool.or_eq_true, decide_eq_true_eq] at hb
      rw [ih]
      by_cases e : b = c
      · subst e; rw [if_pos (by omega), if_pos (by omega)]
      · simp only [rdByte, beq_iff_eq, e, if_false]
        split
        · rfl
        · split
          · exact ab ‹_›
          · rfl

end Sys2Proof.Machine
end

