-- ==== Sys2Proof/Laws/Leaves.lean ====
section
/-! SUPPORT. What the shared operations leave: sending, receipts and faults change no register of a frame, no system
register, no table and no memory, but for a record that a trap frame's fault puts into the hypervisor's ring. -/
namespace Sys2Proof.Machine

open Sys2Proof

/-- All that a computing instruction must leave, memory apart. -/
def core (s : State) :=
  (frameRegs s, partRegs s, barePkg s.pkg, s.shelf, s.acc, s.cmds, s.sync, s.handlers, s.codebooks, s.tlb, s.l2, s.vers)

/-- A state that leaves what `Leaves` says, and the canonical form of the memories. -/
structure Stays (s t : State) : Prop where
  leaves : Leaves s t
  inv : MemInv t

theorem leaves_of_core {s t : State} (h : core t = core s) (hm : t.mem = s.mem) : Leaves s t := by
  simp only [core, Prod.mk.injEq] at h
  obtain ⟨h1, h2, h3, h4, h5, h6, h7, h8, h9, h10, h11, h12⟩ := h
  exact ⟨⟨h1, h4, h5, fun a _ _ => by rw [hm]⟩, h2, h3, h6, h7, h8, h9, h10, h11, h12⟩

theorem stays_of_core {s t : State} (hs : MemInv s) (h : core t = core s) (hm : t.mem = s.mem) : Stays s t := by
  refine ⟨leaves_of_core h hm, ?_⟩
  simp only [core, Prod.mk.injEq] at h
  obtain ⟨-, -, -, h4, h5, -⟩ := h
  exact ⟨hm ▸ hs.1, h4 ▸ hs.2.1, h5 ▸ hs.2.2⟩

theorem Stays.refl {s : State} (h : MemInv s) : Stays s s := stays_of_core h rfl rfl

/-- The hypervisor's ring stays where it is. -/
theorem inHfq_leaves {s t : State} (h : Leaves s t) : inHfq t = inHfq s := by
  have h3 := h.2.2.1
  have e1 : t.pkg.hfqBase = s.pkg.hfqBase := (congrArg (fun k : Pkg => k.hfqBase) h3 : (barePkg t.pkg).hfqBase = (barePkg s.pkg).hfqBase)
  have e2 : t.pkg.hfqSize = s.pkg.hfqSize := (congrArg (fun k : Pkg => k.hfqSize) h3 : (barePkg t.pkg).hfqSize = (barePkg s.pkg).hfqSize)
  funext a
  simp only [inHfq, e1, e2]

theorem Stays.trans {s t u : State} (h : Stays s t) (k : Stays t u) : Stays s u := by
  obtain ⟨⟨⟨a1, a2, a3, a4⟩, a5, a6, a7, a8, a9, a10, a11, a12, a13⟩, -⟩ := id h
  obtain ⟨⟨⟨b1, b2, b3, b4⟩, b5, b6, b7, b8, b9, b10, b11, b12, b13⟩, i⟩ := id k
  refine ⟨⟨⟨b1.trans a1, b2.trans a2, b3.trans a3, fun a _ hr => ?_⟩, b5.trans a5, b6.trans a6, b7.trans a7, b8.trans a8, b9.trans a9,
    b10.trans a10, b11.trans a11, b12.trans a12, b13.trans a13⟩, i⟩
  rw [b4 a id (by rw [inHfq_leaves h.leaves]; exact hr), a4 a id hr]

/-! ### Updates -/

theorem frameRegs_modFrame {s : State} {p f : Nat} {g : Frame → Frame}
    (h : ∀ x, (g x).part = x.part ∧ (g x).num = x.num ∧ (g x).g = x.g ∧ (g x).sk = x.sk ∧ (g x).fstat = x.fstat ∧ (g x).fpc = x.fpc) :
    frameRegs (modFrame s p f g) = frameRegs s := by
  simp only [frameRegs, modFrame, updWhere, List.map_map]
  apply List.map_congr_left
  intro x _
  simp only [Function.comp]
  split
  · obtain ⟨h1, h2, h3, h4, h5, h6⟩ := h x; simp [h1, h2, h3, h4, h5, h6]
  · rfl

theorem partRegs_modPart {s : State} {p : Nat} {g : Part → Part}
    (h : ∀ x, bare (g x) = bare x) :
    partRegs (modPart s p g) = partRegs s := by
  simp only [partRegs, modPart]
  apply List.ext_getElem?
  intro k
  simp only [List.getElem?_map, List.getElem?_modify]
  cases s.parts[k]? with
  | none => rfl
  | some x => by_cases e : p = k <;> simp [e, h]

theorem core_modFrame {s : State} {p f : Nat} {g : Frame → Frame}
    (h : ∀ x, (g x).part = x.part ∧ (g x).num = x.num ∧ (g x).g = x.g ∧ (g x).sk = x.sk ∧ (g x).fstat = x.fstat ∧ (g x).fpc = x.fpc) :
    core (modFrame s p f g) = core s := by
  simp only [core, Prod.mk.injEq]
  exact ⟨frameRegs_modFrame h, rfl, rfl, rfl, rfl, rfl, rfl, rfl, rfl, rfl, rfl, rfl⟩

theorem core_modPart {s : State} {p : Nat} {g : Part → Part}
    (h : ∀ x, bare (g x) = bare x) :
    core (modPart s p g) = core s := by
  simp only [core, Prod.mk.injEq]
  exact ⟨rfl, partRegs_modPart h, rfl, rfl, rfl, rfl, rfl, rfl, rfl, rfl, rfl, rfl⟩

theorem stays_modBlock {s : State} {p f q : Nat} {g : Block → Block} (h : MemInv s) : Stays s (modBlock s p f q g) := stays_of_core h rfl rfl
theorem stays_modRegion {s : State} {b r : Nat} {g : Region → Region} (h : MemInv s) : Stays s (modRegion s b r g) := stays_of_core h rfl rfl
theorem stays_modCtx {s : State} {b c x : Nat} {g : Ctx → Ctx} (h : MemInv s) : Stays s (modCtx s b c x g) := stays_of_core h rfl rfl
theorem stays_modCur {s : State} {g : Inst → Inst} (h : MemInv s) : Stays s (modCur s g) := stays_of_core h rfl rfl
theorem stays_waitCur {s : State} (h : MemInv s) : Stays s (waitCur s) := stays_of_core h rfl rfl
theorem stays_waitStage {s : State} {k : Nat} (h : MemInv s) : Stays s (waitStage s k) := stays_of_core h rfl rfl
theorem stays_launchTok {s : State} {x : Flight} (h : MemInv s) : Stays s (launchTok s x) := stays_of_core h rfl rfl
theorem stays_clearBlock {s : State} {p f q : Nat} {b : Bool} (h : MemInv s) : Stays s (clearBlock s p f q b) := stays_of_core h rfl rfl

theorem stays_raiseFl {s : State} {n : Nat} (h : MemInv s) : Stays s (raiseFl s n) := by
  unfold raiseFl
  split
  · exact stays_modRegion h
  · exact stays_modBlock h

theorem stays_noteAct {s : State} (h : MemInv s) : Stays s (noteAct s) := by
  unfold noteAct
  split
  · exact .refl h
  · exact stays_modBlock h

theorem stays_discardAll {s : State} {l : List Block} (h : MemInv s) : Stays s (discardAll s l) := by
  unfold discardAll
  induction l generalizing s with
  | nil => exact .refl h
  | cons b l ih =>
    rw [List.foldl_cons]
    have k : Stays s (clearBlock s b.part b.frame b.seq true) := stays_clearBlock h
    exact k.trans (ih k.inv)

/-! ### Taking an exception -/

theorem frameRegs_wakeLine {s : State} {l c : Nat} : frameRegs (wakeLine s l c) = frameRegs s := by
  simp only [frameRegs, wakeLine, List.map_map]
  apply List.map_congr_left
  intro x _
  simp only [Function.comp]
  split
  · split <;> rfl
  · rfl

theorem core_wakeLine {s : State} {l c : Nat} : core (wakeLine s l c) = core s := by
  simp only [core, Prod.mk.injEq]
  exact ⟨frameRegs_wakeLine, rfl, rfl, rfl, rfl, rfl, rfl, rfl, rfl, rfl, rfl, rfl⟩

theorem core_wakeLines {s : State} {f : Nat → Nat} {c : Nat} (l : List Nat) :
    core (l.foldl (fun s k => wakeLine s (f k) c) s) = core s ∧ (l.foldl (fun s k => wakeLine s (f k) c) s).mem = s.mem := by
  induction l generalizing s with
  | nil => exact ⟨rfl, rfl⟩
  | cons k l ih =>
    rw [List.foldl_cons]
    have := @ih (wakeLine s (f k) c)
    exact ⟨this.1.trans core_wakeLine, this.2.trans rfl⟩

theorem core_pokeBytes {s : State} {a : Nat} {bs : List Byte} :
    core (pokeBytes s a bs) = core s ∧ (pokeBytes s a bs).mem = wrBytes s.mem a bs := by
  unfold pokeBytes
  exact ⟨(core_wakeLines _).1.trans rfl, (core_wakeLines _).2.trans rfl⟩

theorem pokeBytes_inv {s : State} {a : Nat} {bs : List Byte} (h : MemInv s) : MemInv (pokeBytes s a bs) := by
  have k := @core_pokeBytes s a bs
  have c := k.1
  simp only [core, Prod.mk.injEq] at c
  obtain ⟨-, -, -, h4, h5, -⟩ := c
  exact ⟨by rw [k.2]; exact Memory.wf_wrBytes a bs h.1, h4 ▸ h.2.1, h5 ▸ h.2.2⟩

theorem recWords_length (r : FaultRec) : (recWords r).length = 8 := rfl

theorem toBytes_length (n v : Nat) : (toBytes n v).length = n := by
  induction n generalizing v with
  | zero => rfl
  | succ n ih => simp [toBytes, ih]

/-- A record that enters the ring changes that ring only. -/
theorem stays_hfqPut {s : State} {r : FaultRec} (h : MemInv s) (hr : hfqRoom s.pkg = true) : Stays s (hfqPut s r) := by
  have hz : 0 < s.pkg.hfqSize.toNat := by simp only [hfqRoom, decide_eq_true_eq] at hr; omega
  have hm := Nat.mod_lt s.pkg.hfqHead.toNat hz
  generalize ha : s.pkg.hfqBase.toNat + s.pkg.hfqHead.toNat % s.pkg.hfqSize.toNat * 64 = a
  generalize hb : ((recWords r).flatMap fun w => toBytes 8 w.toNat) = bs
  have hl : bs.length = 64 := by
    subst hb
    simp [toBytes_length, recWords]
  have e : hfqPut s r = postVec (modPkg (pokeBytes s a bs) fun k => { k with hfqHead := k.hfqHead + 1, errLog := k.errLog ++ [r] }) 64 0 := by
    simp only [hfqPut, ha, hb]
  have k := @core_pokeBytes s a bs
  have i := @pokeBytes_inv s a bs h
  rw [e]
  have c := k.1
  simp only [core, Prod.mk.injEq] at c
  obtain ⟨h1, h2, h3, h4, h5, h6, h7, h8, h9, h10, h11, h12⟩ := c
  refine ⟨⟨⟨h1, h4, h5, fun c _ hc => ?_⟩, h2, ?_, h6, h7, h8, h9, h10, h11, h12⟩, i⟩
  · show rdByte (pokeBytes s a bs).mem c = _
    rw [k.2]
    refine rdByte_wrBytes_other bs h.1 ?_
    rw [hl]
    simp only [inHfq] at hc
    have : s.pkg.hfqHead.toNat % s.pkg.hfqSize.toNat * 64 + 64 ≤ 64 * s.pkg.hfqSize.toNat := by omega
    omega
  · exact h3

theorem stays_hfqWrite {s : State} {r : FaultRec} (h : MemInv s) : Stays s (hfqWrite s r false) := by
  unfold hfqWrite
  split
  · exact stays_of_core h (core_modPart fun _ => rfl) rfl
  · split
    · next hr => exact stays_hfqPut h (by simp_all)
    · exact stays_of_core h rfl rfl

theorem numbered_pkg {s : State} {r : FaultRec} : (numbered s r).1.pkg = r.pkg ∧ (numbered s r).1.part = r.part := by
  unfold numbered
  split <;> exact ⟨rfl, rfl⟩

theorem stays_numbered {s : State} {r : FaultRec} (h : MemInv s) (hr : r.pkg = false) : Stays s (numbered s r).2 := by
  unfold numbered
  rw [if_neg (by simp [hr])]
  exact stays_of_core h (core_modPart fun _ => rfl) rfl

theorem stays_hfqFault {s : State} {r : FaultRec} (h : MemInv s) (hr : r.pkg = false) : Stays s (hfqFault s r false) :=
  (stays_numbered h hr).trans (stays_hfqWrite (stays_numbered h hr).inv)

theorem stays_deliver {s : State} {r : FaultRec} {v : Victim} {n : Bool} (h : MemInv s) (hr : r.pkg = false) : Stays s (deliver s r v n) := by
  unfold deliver
  dsimp only
  split
  · exact stays_of_core h (core_modPart fun _ => rfl) rfl
  · exact (stays_numbered h hr).trans (stays_of_core (stays_numbered h hr).inv (core_modPart fun _ => rfl) rfl)

theorem withActs_pkg {r : FaultRec} {l : List Nat} : (withActs r l).pkg = r.pkg := rfl

theorem stays_haltFrame {s : State} {p f q : Nat} {r : FaultRec} (h : MemInv s) (hr : r.pkg = false) : Stays s (haltFrame s p f q r) := by
  unfold haltFrame
  split
  · exact .refl h
  · split
    · exact .refl h
    · have a : Stays s (discardYounger s p f q) := stays_discardAll h
      have b := a.trans (stays_clearBlock (p := p) (f := f) (q := q) (b := true) a.inv)
      have c := b.trans (stays_of_core (t := modFrame (clearBlock (discardYounger s p f q) p f q true) p f
        fun x => { x with fault := some (withActs r (((block? s p f q).map (·.acts)).getD [])), nextAddr := none }) b.inv
        (core_modFrame fun _ => ⟨rfl, rfl, rfl, rfl, rfl, rfl⟩) rfl)
      dsimp only
      split
      · exact c.trans (stays_hfqFault c.inv hr)
      · exact c.trans (stays_deliver c.inv hr)

theorem stays_raiseBlock {s : State} {p f q : Nat} {r : FaultRec} (h : MemInv s) (hr : r.pkg = false) : Stays s (raiseBlock s p f q r) := by
  unfold raiseBlock
  split
  · exact stays_haltFrame h hr
  · exact stays_modBlock h

theorem stays_replaceRec {s : State} {x : Region} {r : FaultRec} (h : MemInv s) : Stays s (replaceRec s x r) := by
  unfold replaceRec
  dsimp only
  split
  · exact (stays_modRegion h).trans (stays_of_core (stays_modRegion h).inv (core_modPart fun _ => rfl) rfl)
  · exact .refl h

theorem stays_freezeRegion {s : State} {b g : Nat} {r : FaultRec} {i : Option Inst} (h : MemInv s) (hr : r.pkg = false) :
    Stays s (freezeRegion s b g r i) := by
  unfold freezeRegion
  split
  · exact .refl h
  · split
    · dsimp only
      split
      · exact (stays_modRegion h).trans (stays_replaceRec (stays_modRegion h).inv)
      · exact stays_modRegion h
    · exact (stays_modRegion h).trans (stays_deliver (stays_modRegion h).inv hr)

theorem recCur_pkg {s : State} {c : BitVec 8} {x y : Word} : (recCur s c x y).pkg = false := by
  unfold recCur
  dsimp only
  split <;> rfl

theorem stays_faultRec {s : State} {r : FaultRec} (h : MemInv s) (hr : r.pkg = false) : Stays s (faultRec s r) := by
  unfold faultRec
  split
  · exact stays_freezeRegion h hr
  · exact stays_raiseBlock h hr

theorem stays_fault {s : State} {c : BitVec 8} {x y : Word} (h : MemInv s) : Stays s (fault s c x y) := stays_faultRec h recCur_pkg
theorem stays_illop {s : State} (h : MemInv s) : Stays s (illop s) := stays_fault h
theorem stays_faultAux {s : State} {c : BitVec 8} {x y z : Word} (h : MemInv s) : Stays s (faultAux s c x y z) :=
  stays_faultRec h recCur_pkg

theorem stays_illopRoute {s : State} {n : Nat} (h : MemInv s) : Stays s (illopRoute s n) := stays_fault h

/-! ### Receipts and sending -/

theorem stays_dupFault {s : State} {x y : Word} {k pl sd p f q : Nat} {t : Tag} (h : MemInv s) : Stays s (dupFault s x y k pl sd t p f q) :=
  stays_raiseBlock h rfl

theorem stays_recvReg {s : State} {p f q g : Nat} {v : Option Word} {n : Nat} {t : Tag} (h : MemInv s) : Stays s (recvReg s p f q g v n t) := by
  unfold recvReg
  split
  · exact .refl h
  · split
    · exact stays_dupFault h
    · exact stays_modBlock h

theorem stays_recvSoft {s : State} {p f q k : Nat} {v : Option (BitVec 512)} {n : Nat} {t : Tag} (h : MemInv s) :
    Stays s (recvSoft s p f q k v n t) := by
  unfold recvSoft
  split
  · exact .refl h
  · split
    · exact stays_dupFault h
    · exact stays_modBlock h

theorem stays_recvStore {s : State} {p f q l n : Nat} {v : Word} {t : Tag} (h : MemInv s) : Stays s (recvStore s p f q l n v t) := by
  unfold recvStore
  split
  · exact .refl h
  · split
    · exact stays_dupFault h
    · exact stays_modBlock h

theorem stays_sendBlock {s : State} {t : Tgt} {k : Kind} {v : Word} (h : MemInv s) : Stays s (sendBlock s t k v) := by
  unfold sendBlock
  dsimp only
  split
  · exact stays_launchTok h
  · split
    · exact stays_recvReg h
    · split
      · exact stays_recvSoft h
      · exact stays_launchTok h

theorem stays_exitPort {s : State} {r : Region} {n : Nat} {t : Token} (h : MemInv s) : Stays s (exitPort s r n t) := by
  unfold exitPort
  dsimp only
  split
  · exact stays_illopRoute h
  · split
    · exact stays_modRegion h
    · exact stays_launchTok h

theorem stays_sendRoute {s : State} {n : Nat} {t : Token} {c : Option (BitVec 2)} (h : MemInv s) : Stays s (sendRoute s n t c) := by
  unfold sendRoute
  dsimp only
  split
  · exact .refl h
  · split
    · split
      · exact stays_exitPort h
      · split
        · exact .refl h
        · split
          · exact stays_illopRoute h
          · split
            · exact .refl h
            · exact stays_modRegion h
    · exact stays_launchTok h

theorem stays_sendGrid {s : State} {t : Tgt} {k : Kind} {v : Word} (h : MemInv s) : Stays s (sendGrid s t k v) := by
  unfold sendGrid
  dsimp only
  split
  · split
    · exact stays_sendRoute h
    · exact .refl h
  · exact .refl h

/-- Sending changes nothing but tokens, receipts and, where a second write meets the first, what a fault changes. -/
theorem stays_sendKind {s : State} {t : Tgt} {k : Kind} {v : Word} (h : MemInv s) : Stays s (sendKind s t k v) := by
  unfold sendKind
  split
  · exact .refl h
  · split
    · split
      · exact stays_launchTok h
      · exact stays_sendGrid h
    · exact stays_sendBlock h

theorem stays_send {s : State} {t : Tgt} {v : Word} (h : MemInv s) : Stays s (send s t v) := stays_sendKind h
theorem stays_send2 {f : AFmt} {s : State} {v : Word} (h : MemInv s) : Stays s (send2 f s v) := (stays_send h).trans (stays_send (stays_send h).inv)

theorem stays_sendAll {s : State} {l : List Tgt} {k : Kind} {v : Word} (h : MemInv s) : Stays s (sendAll s l k v) := by
  unfold sendAll
  induction l generalizing s with
  | nil => exact .refl h
  | cons t l ih =>
    rw [List.foldl_cons]
    have a : Stays s (sendKind s t k v) := stays_sendKind h
    exact a.trans (ih a.inv)

theorem stays_shell {pr : BitVec 2} {l : List Tgt} {s : State} {eff : State → State} (h : MemInv s) (k : Stays s (eff s)) :
    Stays s (shell pr l s eff) := by
  unfold shell
  split
  · exact stays_sendAll h
  · split
    · exact stays_sendAll h
    · split
      · exact .refl h
      · split
        · exact stays_sendAll h
        · exact k

end Sys2Proof.Machine
end

