-- ==== Sys2Proof/Laws/Links.lean ====
section
/-! SUPPORT. What a flit and a failing lane do to a port, said once for each (R463, R464). -/
namespace Sys2Proof.Machine

/-- A port after a change of it; the other ports keep theirs. -/
theorem modPort_port {s : State} {k : Nat} {f : Port → Port} {x : Port} (h : s.pkg.ports[k]? = some x) :
    (modPort s k f).pkg.ports[k]? = some (f x) := by
  simp [modPort, modPkg, h]

theorem modPort_other {s : State} {j k : Nat} {f : Port → Port} (h : j ≠ k) : (modPort s k f).pkg.ports[j]? = s.pkg.ports[j]? := by
  simp [modPort, modPkg, Ne.symm h]

/-- With the spare free it replaces the lane, whose count starts again (R464). -/
theorem loseLane_spares {s : State} {k l : Nat} {x : Port} (h : s.pkg.ports[k]? = some x) (h2 : x.spared = none) :
    loseLane s k l = sendCtl (modPort s k fun x =>
      { x with spared := some l, symbols := x.symbols.filter (fun y => y.1 != l) }) k (.spare l) := by
  simp [loseLane, h, h2]

/-- With the spare in use the port goes down (R464). -/
theorem loseLane_down {s : State} {k l m : Nat} {x : Port} (h : s.pkg.ports[k]? = some x) (h2 : x.spared = some m) :
    loseLane s k l = portDown s k := by simp [loseLane, h, h2]

/-- Lanes that have not passed their limit stay as they are. -/
theorem checkLanes_sound {s : State} {k : Nat} {x : Port} (h : s.pkg.ports[k]? = some x) (h2 : failingLane x = none) :
    checkLanes s k = s := by simp [checkLanes, h, h2]

/-- The spare's lane is within its limit again. -/
theorem failingLane_spared {x : Port} {l m : Nat} (h : failingLane { x with symbols := x.symbols.filter fun y => y.1 != l } = some m) : m ≠ l := by
  intro e
  have h2 := List.find?_some h
  have h3 : (x.symbols.filter fun y => y.1 == l && y.1 != l) = [] := by simp [List.filter_eq_nil_iff]
  simp [e, List.filter_filter, h3] at h2

/-- What does not decode is asked for again from the last flit in order (R464). -/
theorem receiveFlit_unreadable {s : State} {k : Nat} {x : Port} {b : List Byte} (h : Sys2Proof.Config.fecDecode b = none) :
    receiveFlit s k x b = askAgain s k (countFlit x []) := by simp [receiveFlit, h]

end Sys2Proof.Machine
end

