-- ==== Sys2Proof/Laws/State.lean ====
section
/-! SUPPORT. What each named update does to each field of State: one lemma per field per update, all true by
`rfl`, so that no later proof unfolds a record update. -/
namespace Sys2Proof.Machine

/-! ### The named updates -/

/-! ### modPart changes parts alone -/
@[simp] theorem modPart_pkg (s : State) (p : Nat) (f : Part → Part) : (modPart s p f).pkg = s.pkg := rfl
@[simp] theorem modPart_parts (s : State) (p : Nat) (f : Part → Part) : (modPart s p f).parts = s.parts.modify p f := rfl
@[simp] theorem modPart_mem (s : State) (p : Nat) (f : Part → Part) : (modPart s p f).mem = s.mem := rfl
@[simp] theorem modPart_shelf (s : State) (p : Nat) (f : Part → Part) : (modPart s p f).shelf = s.shelf := rfl
@[simp] theorem modPart_acc (s : State) (p : Nat) (f : Part → Part) : (modPart s p f).acc = s.acc := rfl
@[simp] theorem modPart_poison (s : State) (p : Nat) (f : Part → Part) : (modPart s p f).poison = s.poison := rfl
@[simp] theorem modPart_frames (s : State) (p : Nat) (f : Part → Part) : (modPart s p f).frames = s.frames := rfl
@[simp] theorem modPart_blocks (s : State) (p : Nat) (f : Part → Part) : (modPart s p f).blocks = s.blocks := rfl
@[simp] theorem modPart_slots (s : State) (p : Nat) (f : Part → Part) : (modPart s p f).slots = s.slots := rfl
@[simp] theorem modPart_queues (s : State) (p : Nat) (f : Part → Part) : (modPart s p f).queues = s.queues := rfl
@[simp] theorem modPart_net (s : State) (p : Nat) (f : Part → Part) : (modPart s p f).net = s.net := rfl
@[simp] theorem modPart_ready (s : State) (p : Nat) (f : Part → Part) : (modPart s p f).ready = s.ready := rfl
@[simp] theorem modPart_pipe (s : State) (p : Nat) (f : Part → Part) : (modPart s p f).pipe = s.pipe := rfl
@[simp] theorem modPart_waits (s : State) (p : Nat) (f : Part → Part) : (modPart s p f).waits = s.waits := rfl
@[simp] theorem modPart_issued (s : State) (p : Nat) (f : Part → Part) : (modPart s p f).issued = s.issued := rfl
@[simp] theorem modPart_stores (s : State) (p : Nat) (f : Part → Part) : (modPart s p f).stores = s.stores := rfl
@[simp] theorem modPart_placed (s : State) (p : Nat) (f : Part → Part) : (modPart s p f).placed = s.placed := rfl
@[simp] theorem modPart_exitgs (s : State) (p : Nat) (f : Part → Part) : (modPart s p f).exitgs = s.exitgs := rfl
@[simp] theorem modPart_regions (s : State) (p : Nat) (f : Part → Part) : (modPart s p f).regions = s.regions := rfl
@[simp] theorem modPart_ctxs (s : State) (p : Nat) (f : Part → Part) : (modPart s p f).ctxs = s.ctxs := rfl
@[simp] theorem modPart_entries (s : State) (p : Nat) (f : Part → Part) : (modPart s p f).entries = s.entries := rfl
@[simp] theorem modPart_streams (s : State) (p : Nat) (f : Part → Part) : (modPart s p f).streams = s.streams := rfl
@[simp] theorem modPart_codebooks (s : State) (p : Nat) (f : Part → Part) : (modPart s p f).codebooks = s.codebooks := rfl
@[simp] theorem modPart_tlb (s : State) (p : Nat) (f : Part → Part) : (modPart s p f).tlb = s.tlb := rfl
@[simp] theorem modPart_walks (s : State) (p : Nat) (f : Part → Part) : (modPart s p f).walks = s.walks := rfl
@[simp] theorem modPart_pageFaults (s : State) (p : Nat) (f : Part → Part) : (modPart s p f).pageFaults = s.pageFaults := rfl
@[simp] theorem modPart_l2 (s : State) (p : Nat) (f : Part → Part) : (modPart s p f).l2 = s.l2 := rfl
@[simp] theorem modPart_vers (s : State) (p : Nat) (f : Part → Part) : (modPart s p f).vers = s.vers := rfl
@[simp] theorem modPart_cmds (s : State) (p : Nat) (f : Part → Part) : (modPart s p f).cmds = s.cmds := rfl
@[simp] theorem modPart_qfences (s : State) (p : Nat) (f : Part → Part) : (modPart s p f).qfences = s.qfences := rfl
@[simp] theorem modPart_cmdNo (s : State) (p : Nat) (f : Part → Part) : (modPart s p f).cmdNo = s.cmdNo := rfl
@[simp] theorem modPart_sync (s : State) (p : Nat) (f : Part → Part) : (modPart s p f).sync = s.sync := rfl
@[simp] theorem modPart_handlers (s : State) (p : Nat) (f : Part → Part) : (modPart s p f).handlers = s.handlers := rfl
@[simp] theorem modPart_kvc (s : State) (p : Nat) (f : Part → Part) : (modPart s p f).kvc = s.kvc := rfl
@[simp] theorem modPart_dup (s : State) (p : Nat) (f : Part → Part) : (modPart s p f).dup = s.dup := rfl
@[simp] theorem modPart_deferred (s : State) (p : Nat) (f : Part → Part) : (modPart s p f).deferred = s.deferred := rfl
@[simp] theorem modPart_images (s : State) (p : Nat) (f : Part → Part) : (modPart s p f).images = s.images := rfl
@[simp] theorem modPart_completions (s : State) (p : Nat) (f : Part → Part) : (modPart s p f).completions = s.completions := rfl
@[simp] theorem modPart_invals (s : State) (p : Nat) (f : Part → Part) : (modPart s p f).invals = s.invals := rfl
@[simp] theorem modPart_msix (s : State) (p : Nat) (f : Part → Part) : (modPart s p f).msix = s.msix := rfl
@[simp] theorem modPart_cur (s : State) (p : Nat) (f : Part → Part) : (modPart s p f).cur = s.cur := rfl
@[simp] theorem modPart_script (s : State) (p : Nat) (f : Part → Part) : (modPart s p f).script = s.script := rfl
@[simp] theorem modPart_fresh (s : State) (p : Nat) (f : Part → Part) : (modPart s p f).fresh = s.fresh := rfl

/-! ### modPkg changes pkg alone -/
@[simp] theorem modPkg_pkg (s : State) (f : Pkg → Pkg) : (modPkg s f).pkg = f s.pkg := rfl
@[simp] theorem modPkg_parts (s : State) (f : Pkg → Pkg) : (modPkg s f).parts = s.parts := rfl
@[simp] theorem modPkg_mem (s : State) (f : Pkg → Pkg) : (modPkg s f).mem = s.mem := rfl
@[simp] theorem modPkg_shelf (s : State) (f : Pkg → Pkg) : (modPkg s f).shelf = s.shelf := rfl
@[simp] theorem modPkg_acc (s : State) (f : Pkg → Pkg) : (modPkg s f).acc = s.acc := rfl
@[simp] theorem modPkg_poison (s : State) (f : Pkg → Pkg) : (modPkg s f).poison = s.poison := rfl
@[simp] theorem modPkg_frames (s : State) (f : Pkg → Pkg) : (modPkg s f).frames = s.frames := rfl
@[simp] theorem modPkg_blocks (s : State) (f : Pkg → Pkg) : (modPkg s f).blocks = s.blocks := rfl
@[simp] theorem modPkg_slots (s : State) (f : Pkg → Pkg) : (modPkg s f).slots = s.slots := rfl
@[simp] theorem modPkg_queues (s : State) (f : Pkg → Pkg) : (modPkg s f).queues = s.queues := rfl
@[simp] theorem modPkg_net (s : State) (f : Pkg → Pkg) : (modPkg s f).net = s.net := rfl
@[simp] theorem modPkg_ready (s : State) (f : Pkg → Pkg) : (modPkg s f).ready = s.ready := rfl
@[simp] theorem modPkg_pipe (s : State) (f : Pkg → Pkg) : (modPkg s f).pipe = s.pipe := rfl
@[simp] theorem modPkg_waits (s : State) (f : Pkg → Pkg) : (modPkg s f).waits = s.waits := rfl
@[simp] theorem modPkg_issued (s : State) (f : Pkg → Pkg) : (modPkg s f).issued = s.issued := rfl
@[simp] theorem modPkg_stores (s : State) (f : Pkg → Pkg) : (modPkg s f).stores = s.stores := rfl
@[simp] theorem modPkg_placed (s : State) (f : Pkg → Pkg) : (modPkg s f).placed = s.placed := rfl
@[simp] theorem modPkg_exitgs (s : State) (f : Pkg → Pkg) : (modPkg s f).exitgs = s.exitgs := rfl
@[simp] theorem modPkg_regions (s : State) (f : Pkg → Pkg) : (modPkg s f).regions = s.regions := rfl
@[simp] theorem modPkg_ctxs (s : State) (f : Pkg → Pkg) : (modPkg s f).ctxs = s.ctxs := rfl
@[simp] theorem modPkg_entries (s : State) (f : Pkg → Pkg) : (modPkg s f).entries = s.entries := rfl
@[simp] theorem modPkg_streams (s : State) (f : Pkg → Pkg) : (modPkg s f).streams = s.streams := rfl
@[simp] theorem modPkg_codebooks (s : State) (f : Pkg → Pkg) : (modPkg s f).codebooks = s.codebooks := rfl
@[simp] theorem modPkg_tlb (s : State) (f : Pkg → Pkg) : (modPkg s f).tlb = s.tlb := rfl
@[simp] theorem modPkg_walks (s : State) (f : Pkg → Pkg) : (modPkg s f).walks = s.walks := rfl
@[simp] theorem modPkg_pageFaults (s : State) (f : Pkg → Pkg) : (modPkg s f).pageFaults = s.pageFaults := rfl
@[simp] theorem modPkg_l2 (s : State) (f : Pkg → Pkg) : (modPkg s f).l2 = s.l2 := rfl
@[simp] theorem modPkg_vers (s : State) (f : Pkg → Pkg) : (modPkg s f).vers = s.vers := rfl
@[simp] theorem modPkg_cmds (s : State) (f : Pkg → Pkg) : (modPkg s f).cmds = s.cmds := rfl
@[simp] theorem modPkg_qfences (s : State) (f : Pkg → Pkg) : (modPkg s f).qfences = s.qfences := rfl
@[simp] theorem modPkg_cmdNo (s : State) (f : Pkg → Pkg) : (modPkg s f).cmdNo = s.cmdNo := rfl
@[simp] theorem modPkg_sync (s : State) (f : Pkg → Pkg) : (modPkg s f).sync = s.sync := rfl
@[simp] theorem modPkg_handlers (s : State) (f : Pkg → Pkg) : (modPkg s f).handlers = s.handlers := rfl
@[simp] theorem modPkg_kvc (s : State) (f : Pkg → Pkg) : (modPkg s f).kvc = s.kvc := rfl
@[simp] theorem modPkg_dup (s : State) (f : Pkg → Pkg) : (modPkg s f).dup = s.dup := rfl
@[simp] theorem modPkg_deferred (s : State) (f : Pkg → Pkg) : (modPkg s f).deferred = s.deferred := rfl
@[simp] theorem modPkg_images (s : State) (f : Pkg → Pkg) : (modPkg s f).images = s.images := rfl
@[simp] theorem modPkg_completions (s : State) (f : Pkg → Pkg) : (modPkg s f).completions = s.completions := rfl
@[simp] theorem modPkg_invals (s : State) (f : Pkg → Pkg) : (modPkg s f).invals = s.invals := rfl
@[simp] theorem modPkg_msix (s : State) (f : Pkg → Pkg) : (modPkg s f).msix = s.msix := rfl
@[simp] theorem modPkg_cur (s : State) (f : Pkg → Pkg) : (modPkg s f).cur = s.cur := rfl
@[simp] theorem modPkg_script (s : State) (f : Pkg → Pkg) : (modPkg s f).script = s.script := rfl
@[simp] theorem modPkg_fresh (s : State) (f : Pkg → Pkg) : (modPkg s f).fresh = s.fresh := rfl

/-! ### modFrame changes frames alone -/
@[simp] theorem modFrame_pkg (s : State) (p n : Nat) (f : Frame → Frame) : (modFrame s p n f).pkg = s.pkg := rfl
@[simp] theorem modFrame_parts (s : State) (p n : Nat) (f : Frame → Frame) : (modFrame s p n f).parts = s.parts := rfl
@[simp] theorem modFrame_mem (s : State) (p n : Nat) (f : Frame → Frame) : (modFrame s p n f).mem = s.mem := rfl
@[simp] theorem modFrame_shelf (s : State) (p n : Nat) (f : Frame → Frame) : (modFrame s p n f).shelf = s.shelf := rfl
@[simp] theorem modFrame_acc (s : State) (p n : Nat) (f : Frame → Frame) : (modFrame s p n f).acc = s.acc := rfl
@[simp] theorem modFrame_poison (s : State) (p n : Nat) (f : Frame → Frame) : (modFrame s p n f).poison = s.poison := rfl
@[simp] theorem modFrame_frames (s : State) (p n : Nat) (f : Frame → Frame) : (modFrame s p n f).frames = updWhere (fun x => x.part == p && x.num == n) f s.frames := rfl
@[simp] theorem modFrame_blocks (s : State) (p n : Nat) (f : Frame → Frame) : (modFrame s p n f).blocks = s.blocks := rfl
@[simp] theorem modFrame_slots (s : State) (p n : Nat) (f : Frame → Frame) : (modFrame s p n f).slots = s.slots := rfl
@[simp] theorem modFrame_queues (s : State) (p n : Nat) (f : Frame → Frame) : (modFrame s p n f).queues = s.queues := rfl
@[simp] theorem modFrame_net (s : State) (p n : Nat) (f : Frame → Frame) : (modFrame s p n f).net = s.net := rfl
@[simp] theorem modFrame_ready (s : State) (p n : Nat) (f : Frame → Frame) : (modFrame s p n f).ready = s.ready := rfl
@[simp] theorem modFrame_pipe (s : State) (p n : Nat) (f : Frame → Frame) : (modFrame s p n f).pipe = s.pipe := rfl
@[simp] theorem modFrame_waits (s : State) (p n : Nat) (f : Frame → Frame) : (modFrame s p n f).waits = s.waits := rfl
@[simp] theorem modFrame_issued (s : State) (p n : Nat) (f : Frame → Frame) : (modFrame s p n f).issued = s.issued := rfl
@[simp] theorem modFrame_stores (s : State) (p n : Nat) (f : Frame → Frame) : (modFrame s p n f).stores = s.stores := rfl
@[simp] theorem modFrame_placed (s : State) (p n : Nat) (f : Frame → Frame) : (modFrame s p n f).placed = s.placed := rfl
@[simp] theorem modFrame_exitgs (s : State) (p n : Nat) (f : Frame → Frame) : (modFrame s p n f).exitgs = s.exitgs := rfl
@[simp] theorem modFrame_regions (s : State) (p n : Nat) (f : Frame → Frame) : (modFrame s p n f).regions = s.regions := rfl
@[simp] theorem modFrame_ctxs (s : State) (p n : Nat) (f : Frame → Frame) : (modFrame s p n f).ctxs = s.ctxs := rfl
@[simp] theorem modFrame_entries (s : State) (p n : Nat) (f : Frame → Frame) : (modFrame s p n f).entries = s.entries := rfl
@[simp] theorem modFrame_streams (s : State) (p n : Nat) (f : Frame → Frame) : (modFrame s p n f).streams = s.streams := rfl
@[simp] theorem modFrame_codebooks (s : State) (p n : Nat) (f : Frame → Frame) : (modFrame s p n f).codebooks = s.codebooks := rfl
@[simp] theorem modFrame_tlb (s : State) (p n : Nat) (f : Frame → Frame) : (modFrame s p n f).tlb = s.tlb := rfl
@[simp] theorem modFrame_walks (s : State) (p n : Nat) (f : Frame → Frame) : (modFrame s p n f).walks = s.walks := rfl
@[simp] theorem modFrame_pageFaults (s : State) (p n : Nat) (f : Frame → Frame) : (modFrame s p n f).pageFaults = s.pageFaults := rfl
@[simp] theorem modFrame_l2 (s : State) (p n : Nat) (f : Frame → Frame) : (modFrame s p n f).l2 = s.l2 := rfl
@[simp] theorem modFrame_vers (s : State) (p n : Nat) (f : Frame → Frame) : (modFrame s p n f).vers = s.vers := rfl
@[simp] theorem modFrame_cmds (s : State) (p n : Nat) (f : Frame → Frame) : (modFrame s p n f).cmds = s.cmds := rfl
@[simp] theorem modFrame_qfences (s : State) (p n : Nat) (f : Frame → Frame) : (modFrame s p n f).qfences = s.qfences := rfl
@[simp] theorem modFrame_cmdNo (s : State) (p n : Nat) (f : Frame → Frame) : (modFrame s p n f).cmdNo = s.cmdNo := rfl
@[simp] theorem modFrame_sync (s : State) (p n : Nat) (f : Frame → Frame) : (modFrame s p n f).sync = s.sync := rfl
@[simp] theorem modFrame_handlers (s : State) (p n : Nat) (f : Frame → Frame) : (modFrame s p n f).handlers = s.handlers := rfl
@[simp] theorem modFrame_kvc (s : State) (p n : Nat) (f : Frame → Frame) : (modFrame s p n f).kvc = s.kvc := rfl
@[simp] theorem modFrame_dup (s : State) (p n : Nat) (f : Frame → Frame) : (modFrame s p n f).dup = s.dup := rfl
@[simp] theorem modFrame_deferred (s : State) (p n : Nat) (f : Frame → Frame) : (modFrame s p n f).deferred = s.deferred := rfl
@[simp] theorem modFrame_images (s : State) (p n : Nat) (f : Frame → Frame) : (modFrame s p n f).images = s.images := rfl
@[simp] theorem modFrame_completions (s : State) (p n : Nat) (f : Frame → Frame) : (modFrame s p n f).completions = s.completions := rfl
@[simp] theorem modFrame_invals (s : State) (p n : Nat) (f : Frame → Frame) : (modFrame s p n f).invals = s.invals := rfl
@[simp] theorem modFrame_msix (s : State) (p n : Nat) (f : Frame → Frame) : (modFrame s p n f).msix = s.msix := rfl
@[simp] theorem modFrame_cur (s : State) (p n : Nat) (f : Frame → Frame) : (modFrame s p n f).cur = s.cur := rfl
@[simp] theorem modFrame_script (s : State) (p n : Nat) (f : Frame → Frame) : (modFrame s p n f).script = s.script := rfl
@[simp] theorem modFrame_fresh (s : State) (p n : Nat) (f : Frame → Frame) : (modFrame s p n f).fresh = s.fresh := rfl

/-! ### modBlock changes blocks alone -/
@[simp] theorem modBlock_pkg (s : State) (p n q : Nat) (f : Block → Block) : (modBlock s p n q f).pkg = s.pkg := rfl
@[simp] theorem modBlock_parts (s : State) (p n q : Nat) (f : Block → Block) : (modBlock s p n q f).parts = s.parts := rfl
@[simp] theorem modBlock_mem (s : State) (p n q : Nat) (f : Block → Block) : (modBlock s p n q f).mem = s.mem := rfl
@[simp] theorem modBlock_shelf (s : State) (p n q : Nat) (f : Block → Block) : (modBlock s p n q f).shelf = s.shelf := rfl
@[simp] theorem modBlock_acc (s : State) (p n q : Nat) (f : Block → Block) : (modBlock s p n q f).acc = s.acc := rfl
@[simp] theorem modBlock_poison (s : State) (p n q : Nat) (f : Block → Block) : (modBlock s p n q f).poison = s.poison := rfl
@[simp] theorem modBlock_frames (s : State) (p n q : Nat) (f : Block → Block) : (modBlock s p n q f).frames = s.frames := rfl
@[simp] theorem modBlock_blocks (s : State) (p n q : Nat) (f : Block → Block) : (modBlock s p n q f).blocks = updWhere (fun b => b.part == p && b.frame == n && b.seq == q) f s.blocks := rfl
@[simp] theorem modBlock_slots (s : State) (p n q : Nat) (f : Block → Block) : (modBlock s p n q f).slots = s.slots := rfl
@[simp] theorem modBlock_queues (s : State) (p n q : Nat) (f : Block → Block) : (modBlock s p n q f).queues = s.queues := rfl
@[simp] theorem modBlock_net (s : State) (p n q : Nat) (f : Block → Block) : (modBlock s p n q f).net = s.net := rfl
@[simp] theorem modBlock_ready (s : State) (p n q : Nat) (f : Block → Block) : (modBlock s p n q f).ready = s.ready := rfl
@[simp] theorem modBlock_pipe (s : State) (p n q : Nat) (f : Block → Block) : (modBlock s p n q f).pipe = s.pipe := rfl
@[simp] theorem modBlock_waits (s : State) (p n q : Nat) (f : Block → Block) : (modBlock s p n q f).waits = s.waits := rfl
@[simp] theorem modBlock_issued (s : State) (p n q : Nat) (f : Block → Block) : (modBlock s p n q f).issued = s.issued := rfl
@[simp] theorem modBlock_stores (s : State) (p n q : Nat) (f : Block → Block) : (modBlock s p n q f).stores = s.stores := rfl
@[simp] theorem modBlock_placed (s : State) (p n q : Nat) (f : Block → Block) : (modBlock s p n q f).placed = s.placed := rfl
@[simp] theorem modBlock_exitgs (s : State) (p n q : Nat) (f : Block → Block) : (modBlock s p n q f).exitgs = s.exitgs := rfl
@[simp] theorem modBlock_regions (s : State) (p n q : Nat) (f : Block → Block) : (modBlock s p n q f).regions = s.regions := rfl
@[simp] theorem modBlock_ctxs (s : State) (p n q : Nat) (f : Block → Block) : (modBlock s p n q f).ctxs = s.ctxs := rfl
@[simp] theorem modBlock_entries (s : State) (p n q : Nat) (f : Block → Block) : (modBlock s p n q f).entries = s.entries := rfl
@[simp] theorem modBlock_streams (s : State) (p n q : Nat) (f : Block → Block) : (modBlock s p n q f).streams = s.streams := rfl
@[simp] theorem modBlock_codebooks (s : State) (p n q : Nat) (f : Block → Block) : (modBlock s p n q f).codebooks = s.codebooks := rfl
@[simp] theorem modBlock_tlb (s : State) (p n q : Nat) (f : Block → Block) : (modBlock s p n q f).tlb = s.tlb := rfl
@[simp] theorem modBlock_walks (s : State) (p n q : Nat) (f : Block → Block) : (modBlock s p n q f).walks = s.walks := rfl
@[simp] theorem modBlock_pageFaults (s : State) (p n q : Nat) (f : Block → Block) : (modBlock s p n q f).pageFaults = s.pageFaults := rfl
@[simp] theorem modBlock_l2 (s : State) (p n q : Nat) (f : Block → Block) : (modBlock s p n q f).l2 = s.l2 := rfl
@[simp] theorem modBlock_vers (s : State) (p n q : Nat) (f : Block → Block) : (modBlock s p n q f).vers = s.vers := rfl
@[simp] theorem modBlock_cmds (s : State) (p n q : Nat) (f : Block → Block) : (modBlock s p n q f).cmds = s.cmds := rfl
@[simp] theorem modBlock_qfences (s : State) (p n q : Nat) (f : Block → Block) : (modBlock s p n q f).qfences = s.qfences := rfl
@[simp] theorem modBlock_cmdNo (s : State) (p n q : Nat) (f : Block → Block) : (modBlock s p n q f).cmdNo = s.cmdNo := rfl
@[simp] theorem modBlock_sync (s : State) (p n q : Nat) (f : Block → Block) : (modBlock s p n q f).sync = s.sync := rfl
@[simp] theorem modBlock_handlers (s : State) (p n q : Nat) (f : Block → Block) : (modBlock s p n q f).handlers = s.handlers := rfl
@[simp] theorem modBlock_kvc (s : State) (p n q : Nat) (f : Block → Block) : (modBlock s p n q f).kvc = s.kvc := rfl
@[simp] theorem modBlock_dup (s : State) (p n q : Nat) (f : Block → Block) : (modBlock s p n q f).dup = s.dup := rfl
@[simp] theorem modBlock_deferred (s : State) (p n q : Nat) (f : Block → Block) : (modBlock s p n q f).deferred = s.deferred := rfl
@[simp] theorem modBlock_images (s : State) (p n q : Nat) (f : Block → Block) : (modBlock s p n q f).images = s.images := rfl
@[simp] theorem modBlock_completions (s : State) (p n q : Nat) (f : Block → Block) : (modBlock s p n q f).completions = s.completions := rfl
@[simp] theorem modBlock_invals (s : State) (p n q : Nat) (f : Block → Block) : (modBlock s p n q f).invals = s.invals := rfl
@[simp] theorem modBlock_msix (s : State) (p n q : Nat) (f : Block → Block) : (modBlock s p n q f).msix = s.msix := rfl
@[simp] theorem modBlock_cur (s : State) (p n q : Nat) (f : Block → Block) : (modBlock s p n q f).cur = s.cur := rfl
@[simp] theorem modBlock_script (s : State) (p n q : Nat) (f : Block → Block) : (modBlock s p n q f).script = s.script := rfl
@[simp] theorem modBlock_fresh (s : State) (p n q : Nat) (f : Block → Block) : (modBlock s p n q f).fresh = s.fresh := rfl

/-! ### modCtx changes ctxs alone -/
@[simp] theorem modCtx_pkg (s : State) (b c k : Nat) (f : Ctx → Ctx) : (modCtx s b c k f).pkg = s.pkg := rfl
@[simp] theorem modCtx_parts (s : State) (b c k : Nat) (f : Ctx → Ctx) : (modCtx s b c k f).parts = s.parts := rfl
@[simp] theorem modCtx_mem (s : State) (b c k : Nat) (f : Ctx → Ctx) : (modCtx s b c k f).mem = s.mem := rfl
@[simp] theorem modCtx_shelf (s : State) (b c k : Nat) (f : Ctx → Ctx) : (modCtx s b c k f).shelf = s.shelf := rfl
@[simp] theorem modCtx_acc (s : State) (b c k : Nat) (f : Ctx → Ctx) : (modCtx s b c k f).acc = s.acc := rfl
@[simp] theorem modCtx_poison (s : State) (b c k : Nat) (f : Ctx → Ctx) : (modCtx s b c k f).poison = s.poison := rfl
@[simp] theorem modCtx_frames (s : State) (b c k : Nat) (f : Ctx → Ctx) : (modCtx s b c k f).frames = s.frames := rfl
@[simp] theorem modCtx_blocks (s : State) (b c k : Nat) (f : Ctx → Ctx) : (modCtx s b c k f).blocks = s.blocks := rfl
@[simp] theorem modCtx_slots (s : State) (b c k : Nat) (f : Ctx → Ctx) : (modCtx s b c k f).slots = s.slots := rfl
@[simp] theorem modCtx_queues (s : State) (b c k : Nat) (f : Ctx → Ctx) : (modCtx s b c k f).queues = s.queues := rfl
@[simp] theorem modCtx_net (s : State) (b c k : Nat) (f : Ctx → Ctx) : (modCtx s b c k f).net = s.net := rfl
@[simp] theorem modCtx_ready (s : State) (b c k : Nat) (f : Ctx → Ctx) : (modCtx s b c k f).ready = s.ready := rfl
@[simp] theorem modCtx_pipe (s : State) (b c k : Nat) (f : Ctx → Ctx) : (modCtx s b c k f).pipe = s.pipe := rfl
@[simp] theorem modCtx_waits (s : State) (b c k : Nat) (f : Ctx → Ctx) : (modCtx s b c k f).waits = s.waits := rfl
@[simp] theorem modCtx_issued (s : State) (b c k : Nat) (f : Ctx → Ctx) : (modCtx s b c k f).issued = s.issued := rfl
@[simp] theorem modCtx_stores (s : State) (b c k : Nat) (f : Ctx → Ctx) : (modCtx s b c k f).stores = s.stores := rfl
@[simp] theorem modCtx_placed (s : State) (b c k : Nat) (f : Ctx → Ctx) : (modCtx s b c k f).placed = s.placed := rfl
@[simp] theorem modCtx_exitgs (s : State) (b c k : Nat) (f : Ctx → Ctx) : (modCtx s b c k f).exitgs = s.exitgs := rfl
@[simp] theorem modCtx_regions (s : State) (b c k : Nat) (f : Ctx → Ctx) : (modCtx s b c k f).regions = s.regions := rfl
@[simp] theorem modCtx_ctxs (s : State) (b c k : Nat) (f : Ctx → Ctx) : (modCtx s b c k f).ctxs = updWhere (fun x => x.bay == b && x.cell == c && x.ctx == k) f s.ctxs := rfl
@[simp] theorem modCtx_entries (s : State) (b c k : Nat) (f : Ctx → Ctx) : (modCtx s b c k f).entries = s.entries := rfl
@[simp] theorem modCtx_streams (s : State) (b c k : Nat) (f : Ctx → Ctx) : (modCtx s b c k f).streams = s.streams := rfl
@[simp] theorem modCtx_codebooks (s : State) (b c k : Nat) (f : Ctx → Ctx) : (modCtx s b c k f).codebooks = s.codebooks := rfl
@[simp] theorem modCtx_tlb (s : State) (b c k : Nat) (f : Ctx → Ctx) : (modCtx s b c k f).tlb = s.tlb := rfl
@[simp] theorem modCtx_walks (s : State) (b c k : Nat) (f : Ctx → Ctx) : (modCtx s b c k f).walks = s.walks := rfl
@[simp] theorem modCtx_pageFaults (s : State) (b c k : Nat) (f : Ctx → Ctx) : (modCtx s b c k f).pageFaults = s.pageFaults := rfl
@[simp] theorem modCtx_l2 (s : State) (b c k : Nat) (f : Ctx → Ctx) : (modCtx s b c k f).l2 = s.l2 := rfl
@[simp] theorem modCtx_vers (s : State) (b c k : Nat) (f : Ctx → Ctx) : (modCtx s b c k f).vers = s.vers := rfl
@[simp] theorem modCtx_cmds (s : State) (b c k : Nat) (f : Ctx → Ctx) : (modCtx s b c k f).cmds = s.cmds := rfl
@[simp] theorem modCtx_qfences (s : State) (b c k : Nat) (f : Ctx → Ctx) : (modCtx s b c k f).qfences = s.qfences := rfl
@[simp] theorem modCtx_cmdNo (s : State) (b c k : Nat) (f : Ctx → Ctx) : (modCtx s b c k f).cmdNo = s.cmdNo := rfl
@[simp] theorem modCtx_sync (s : State) (b c k : Nat) (f : Ctx → Ctx) : (modCtx s b c k f).sync = s.sync := rfl
@[simp] theorem modCtx_handlers (s : State) (b c k : Nat) (f : Ctx → Ctx) : (modCtx s b c k f).handlers = s.handlers := rfl
@[simp] theorem modCtx_kvc (s : State) (b c k : Nat) (f : Ctx → Ctx) : (modCtx s b c k f).kvc = s.kvc := rfl
@[simp] theorem modCtx_dup (s : State) (b c k : Nat) (f : Ctx → Ctx) : (modCtx s b c k f).dup = s.dup := rfl
@[simp] theorem modCtx_deferred (s : State) (b c k : Nat) (f : Ctx → Ctx) : (modCtx s b c k f).deferred = s.deferred := rfl
@[simp] theorem modCtx_images (s : State) (b c k : Nat) (f : Ctx → Ctx) : (modCtx s b c k f).images = s.images := rfl
@[simp] theorem modCtx_completions (s : State) (b c k : Nat) (f : Ctx → Ctx) : (modCtx s b c k f).completions = s.completions := rfl
@[simp] theorem modCtx_invals (s : State) (b c k : Nat) (f : Ctx → Ctx) : (modCtx s b c k f).invals = s.invals := rfl
@[simp] theorem modCtx_msix (s : State) (b c k : Nat) (f : Ctx → Ctx) : (modCtx s b c k f).msix = s.msix := rfl
@[simp] theorem modCtx_cur (s : State) (b c k : Nat) (f : Ctx → Ctx) : (modCtx s b c k f).cur = s.cur := rfl
@[simp] theorem modCtx_script (s : State) (b c k : Nat) (f : Ctx → Ctx) : (modCtx s b c k f).script = s.script := rfl
@[simp] theorem modCtx_fresh (s : State) (b c k : Nat) (f : Ctx → Ctx) : (modCtx s b c k f).fresh = s.fresh := rfl

/-! ### modRegion changes regions alone -/
@[simp] theorem modRegion_pkg (s : State) (b r : Nat) (f : Region → Region) : (modRegion s b r f).pkg = s.pkg := rfl
@[simp] theorem modRegion_parts (s : State) (b r : Nat) (f : Region → Region) : (modRegion s b r f).parts = s.parts := rfl
@[simp] theorem modRegion_mem (s : State) (b r : Nat) (f : Region → Region) : (modRegion s b r f).mem = s.mem := rfl
@[simp] theorem modRegion_shelf (s : State) (b r : Nat) (f : Region → Region) : (modRegion s b r f).shelf = s.shelf := rfl
@[simp] theorem modRegion_acc (s : State) (b r : Nat) (f : Region → Region) : (modRegion s b r f).acc = s.acc := rfl
@[simp] theorem modRegion_poison (s : State) (b r : Nat) (f : Region → Region) : (modRegion s b r f).poison = s.poison := rfl
@[simp] theorem modRegion_frames (s : State) (b r : Nat) (f : Region → Region) : (modRegion s b r f).frames = s.frames := rfl
@[simp] theorem modRegion_blocks (s : State) (b r : Nat) (f : Region → Region) : (modRegion s b r f).blocks = s.blocks := rfl
@[simp] theorem modRegion_slots (s : State) (b r : Nat) (f : Region → Region) : (modRegion s b r f).slots = s.slots := rfl
@[simp] theorem modRegion_queues (s : State) (b r : Nat) (f : Region → Region) : (modRegion s b r f).queues = s.queues := rfl
@[simp] theorem modRegion_net (s : State) (b r : Nat) (f : Region → Region) : (modRegion s b r f).net = s.net := rfl
@[simp] theorem modRegion_ready (s : State) (b r : Nat) (f : Region → Region) : (modRegion s b r f).ready = s.ready := rfl
@[simp] theorem modRegion_pipe (s : State) (b r : Nat) (f : Region → Region) : (modRegion s b r f).pipe = s.pipe := rfl
@[simp] theorem modRegion_waits (s : State) (b r : Nat) (f : Region → Region) : (modRegion s b r f).waits = s.waits := rfl
@[simp] theorem modRegion_issued (s : State) (b r : Nat) (f : Region → Region) : (modRegion s b r f).issued = s.issued := rfl
@[simp] theorem modRegion_stores (s : State) (b r : Nat) (f : Region → Region) : (modRegion s b r f).stores = s.stores := rfl
@[simp] theorem modRegion_placed (s : State) (b r : Nat) (f : Region → Region) : (modRegion s b r f).placed = s.placed := rfl
@[simp] theorem modRegion_exitgs (s : State) (b r : Nat) (f : Region → Region) : (modRegion s b r f).exitgs = s.exitgs := rfl
@[simp] theorem modRegion_regions (s : State) (b r : Nat) (f : Region → Region) : (modRegion s b r f).regions = updWhere (fun x => x.bay == b && x.idx == r) f s.regions := rfl
@[simp] theorem modRegion_ctxs (s : State) (b r : Nat) (f : Region → Region) : (modRegion s b r f).ctxs = s.ctxs := rfl
@[simp] theorem modRegion_entries (s : State) (b r : Nat) (f : Region → Region) : (modRegion s b r f).entries = s.entries := rfl
@[simp] theorem modRegion_streams (s : State) (b r : Nat) (f : Region → Region) : (modRegion s b r f).streams = s.streams := rfl
@[simp] theorem modRegion_codebooks (s : State) (b r : Nat) (f : Region → Region) : (modRegion s b r f).codebooks = s.codebooks := rfl
@[simp] theorem modRegion_tlb (s : State) (b r : Nat) (f : Region → Region) : (modRegion s b r f).tlb = s.tlb := rfl
@[simp] theorem modRegion_walks (s : State) (b r : Nat) (f : Region → Region) : (modRegion s b r f).walks = s.walks := rfl
@[simp] theorem modRegion_pageFaults (s : State) (b r : Nat) (f : Region → Region) : (modRegion s b r f).pageFaults = s.pageFaults := rfl
@[simp] theorem modRegion_l2 (s : State) (b r : Nat) (f : Region → Region) : (modRegion s b r f).l2 = s.l2 := rfl
@[simp] theorem modRegion_vers (s : State) (b r : Nat) (f : Region → Region) : (modRegion s b r f).vers = s.vers := rfl
@[simp] theorem modRegion_cmds (s : State) (b r : Nat) (f : Region → Region) : (modRegion s b r f).cmds = s.cmds := rfl
@[simp] theorem modRegion_qfences (s : State) (b r : Nat) (f : Region → Region) : (modRegion s b r f).qfences = s.qfences := rfl
@[simp] theorem modRegion_cmdNo (s : State) (b r : Nat) (f : Region → Region) : (modRegion s b r f).cmdNo = s.cmdNo := rfl
@[simp] theorem modRegion_sync (s : State) (b r : Nat) (f : Region → Region) : (modRegion s b r f).sync = s.sync := rfl
@[simp] theorem modRegion_handlers (s : State) (b r : Nat) (f : Region → Region) : (modRegion s b r f).handlers = s.handlers := rfl
@[simp] theorem modRegion_kvc (s : State) (b r : Nat) (f : Region → Region) : (modRegion s b r f).kvc = s.kvc := rfl
@[simp] theorem modRegion_dup (s : State) (b r : Nat) (f : Region → Region) : (modRegion s b r f).dup = s.dup := rfl
@[simp] theorem modRegion_deferred (s : State) (b r : Nat) (f : Region → Region) : (modRegion s b r f).deferred = s.deferred := rfl
@[simp] theorem modRegion_images (s : State) (b r : Nat) (f : Region → Region) : (modRegion s b r f).images = s.images := rfl
@[simp] theorem modRegion_completions (s : State) (b r : Nat) (f : Region → Region) : (modRegion s b r f).completions = s.completions := rfl
@[simp] theorem modRegion_invals (s : State) (b r : Nat) (f : Region → Region) : (modRegion s b r f).invals = s.invals := rfl
@[simp] theorem modRegion_msix (s : State) (b r : Nat) (f : Region → Region) : (modRegion s b r f).msix = s.msix := rfl
@[simp] theorem modRegion_cur (s : State) (b r : Nat) (f : Region → Region) : (modRegion s b r f).cur = s.cur := rfl
@[simp] theorem modRegion_script (s : State) (b r : Nat) (f : Region → Region) : (modRegion s b r f).script = s.script := rfl
@[simp] theorem modRegion_fresh (s : State) (b r : Nat) (f : Region → Region) : (modRegion s b r f).fresh = s.fresh := rfl

/-! ### modCur changes cur alone -/
@[simp] theorem modCur_pkg (s : State) (f : Inst → Inst) : (modCur s f).pkg = s.pkg := rfl
@[simp] theorem modCur_parts (s : State) (f : Inst → Inst) : (modCur s f).parts = s.parts := rfl
@[simp] theorem modCur_mem (s : State) (f : Inst → Inst) : (modCur s f).mem = s.mem := rfl
@[simp] theorem modCur_shelf (s : State) (f : Inst → Inst) : (modCur s f).shelf = s.shelf := rfl
@[simp] theorem modCur_acc (s : State) (f : Inst → Inst) : (modCur s f).acc = s.acc := rfl
@[simp] theorem modCur_poison (s : State) (f : Inst → Inst) : (modCur s f).poison = s.poison := rfl
@[simp] theorem modCur_frames (s : State) (f : Inst → Inst) : (modCur s f).frames = s.frames := rfl
@[simp] theorem modCur_blocks (s : State) (f : Inst → Inst) : (modCur s f).blocks = s.blocks := rfl
@[simp] theorem modCur_slots (s : State) (f : Inst → Inst) : (modCur s f).slots = s.slots := rfl
@[simp] theorem modCur_queues (s : State) (f : Inst → Inst) : (modCur s f).queues = s.queues := rfl
@[simp] theorem modCur_net (s : State) (f : Inst → Inst) : (modCur s f).net = s.net := rfl
@[simp] theorem modCur_ready (s : State) (f : Inst → Inst) : (modCur s f).ready = s.ready := rfl
@[simp] theorem modCur_pipe (s : State) (f : Inst → Inst) : (modCur s f).pipe = s.pipe := rfl
@[simp] theorem modCur_waits (s : State) (f : Inst → Inst) : (modCur s f).waits = s.waits := rfl
@[simp] theorem modCur_issued (s : State) (f : Inst → Inst) : (modCur s f).issued = s.issued := rfl
@[simp] theorem modCur_stores (s : State) (f : Inst → Inst) : (modCur s f).stores = s.stores := rfl
@[simp] theorem modCur_placed (s : State) (f : Inst → Inst) : (modCur s f).placed = s.placed := rfl
@[simp] theorem modCur_exitgs (s : State) (f : Inst → Inst) : (modCur s f).exitgs = s.exitgs := rfl
@[simp] theorem modCur_regions (s : State) (f : Inst → Inst) : (modCur s f).regions = s.regions := rfl
@[simp] theorem modCur_ctxs (s : State) (f : Inst → Inst) : (modCur s f).ctxs = s.ctxs := rfl
@[simp] theorem modCur_entries (s : State) (f : Inst → Inst) : (modCur s f).entries = s.entries := rfl
@[simp] theorem modCur_streams (s : State) (f : Inst → Inst) : (modCur s f).streams = s.streams := rfl
@[simp] theorem modCur_codebooks (s : State) (f : Inst → Inst) : (modCur s f).codebooks = s.codebooks := rfl
@[simp] theorem modCur_tlb (s : State) (f : Inst → Inst) : (modCur s f).tlb = s.tlb := rfl
@[simp] theorem modCur_walks (s : State) (f : Inst → Inst) : (modCur s f).walks = s.walks := rfl
@[simp] theorem modCur_pageFaults (s : State) (f : Inst → Inst) : (modCur s f).pageFaults = s.pageFaults := rfl
@[simp] theorem modCur_l2 (s : State) (f : Inst → Inst) : (modCur s f).l2 = s.l2 := rfl
@[simp] theorem modCur_vers (s : State) (f : Inst → Inst) : (modCur s f).vers = s.vers := rfl
@[simp] theorem modCur_cmds (s : State) (f : Inst → Inst) : (modCur s f).cmds = s.cmds := rfl
@[simp] theorem modCur_qfences (s : State) (f : Inst → Inst) : (modCur s f).qfences = s.qfences := rfl
@[simp] theorem modCur_cmdNo (s : State) (f : Inst → Inst) : (modCur s f).cmdNo = s.cmdNo := rfl
@[simp] theorem modCur_sync (s : State) (f : Inst → Inst) : (modCur s f).sync = s.sync := rfl
@[simp] theorem modCur_handlers (s : State) (f : Inst → Inst) : (modCur s f).handlers = s.handlers := rfl
@[simp] theorem modCur_kvc (s : State) (f : Inst → Inst) : (modCur s f).kvc = s.kvc := rfl
@[simp] theorem modCur_dup (s : State) (f : Inst → Inst) : (modCur s f).dup = s.dup := rfl
@[simp] theorem modCur_deferred (s : State) (f : Inst → Inst) : (modCur s f).deferred = s.deferred := rfl
@[simp] theorem modCur_images (s : State) (f : Inst → Inst) : (modCur s f).images = s.images := rfl
@[simp] theorem modCur_completions (s : State) (f : Inst → Inst) : (modCur s f).completions = s.completions := rfl
@[simp] theorem modCur_invals (s : State) (f : Inst → Inst) : (modCur s f).invals = s.invals := rfl
@[simp] theorem modCur_msix (s : State) (f : Inst → Inst) : (modCur s f).msix = s.msix := rfl
@[simp] theorem modCur_cur (s : State) (f : Inst → Inst) : (modCur s f).cur = f s.cur := rfl
@[simp] theorem modCur_script (s : State) (f : Inst → Inst) : (modCur s f).script = s.script := rfl
@[simp] theorem modCur_fresh (s : State) (f : Inst → Inst) : (modCur s f).fresh = s.fresh := rfl

/-! ### launchTok changes net alone -/
@[simp] theorem launchTok_pkg (s : State) (x : Flight) : (launchTok s x).pkg = s.pkg := rfl
@[simp] theorem launchTok_parts (s : State) (x : Flight) : (launchTok s x).parts = s.parts := rfl
@[simp] theorem launchTok_mem (s : State) (x : Flight) : (launchTok s x).mem = s.mem := rfl
@[simp] theorem launchTok_shelf (s : State) (x : Flight) : (launchTok s x).shelf = s.shelf := rfl
@[simp] theorem launchTok_acc (s : State) (x : Flight) : (launchTok s x).acc = s.acc := rfl
@[simp] theorem launchTok_poison (s : State) (x : Flight) : (launchTok s x).poison = s.poison := rfl
@[simp] theorem launchTok_frames (s : State) (x : Flight) : (launchTok s x).frames = s.frames := rfl
@[simp] theorem launchTok_blocks (s : State) (x : Flight) : (launchTok s x).blocks = s.blocks := rfl
@[simp] theorem launchTok_slots (s : State) (x : Flight) : (launchTok s x).slots = s.slots := rfl
@[simp] theorem launchTok_queues (s : State) (x : Flight) : (launchTok s x).queues = s.queues := rfl
@[simp] theorem launchTok_net (s : State) (x : Flight) : (launchTok s x).net = s.net ++ [x] := rfl
@[simp] theorem launchTok_ready (s : State) (x : Flight) : (launchTok s x).ready = s.ready := rfl
@[simp] theorem launchTok_pipe (s : State) (x : Flight) : (launchTok s x).pipe = s.pipe := rfl
@[simp] theorem launchTok_waits (s : State) (x : Flight) : (launchTok s x).waits = s.waits := rfl
@[simp] theorem launchTok_issued (s : State) (x : Flight) : (launchTok s x).issued = s.issued := rfl
@[simp] theorem launchTok_stores (s : State) (x : Flight) : (launchTok s x).stores = s.stores := rfl
@[simp] theorem launchTok_placed (s : State) (x : Flight) : (launchTok s x).placed = s.placed := rfl
@[simp] theorem launchTok_exitgs (s : State) (x : Flight) : (launchTok s x).exitgs = s.exitgs := rfl
@[simp] theorem launchTok_regions (s : State) (x : Flight) : (launchTok s x).regions = s.regions := rfl
@[simp] theorem launchTok_ctxs (s : State) (x : Flight) : (launchTok s x).ctxs = s.ctxs := rfl
@[simp] theorem launchTok_entries (s : State) (x : Flight) : (launchTok s x).entries = s.entries := rfl
@[simp] theorem launchTok_streams (s : State) (x : Flight) : (launchTok s x).streams = s.streams := rfl
@[simp] theorem launchTok_codebooks (s : State) (x : Flight) : (launchTok s x).codebooks = s.codebooks := rfl
@[simp] theorem launchTok_tlb (s : State) (x : Flight) : (launchTok s x).tlb = s.tlb := rfl
@[simp] theorem launchTok_walks (s : State) (x : Flight) : (launchTok s x).walks = s.walks := rfl
@[simp] theorem launchTok_pageFaults (s : State) (x : Flight) : (launchTok s x).pageFaults = s.pageFaults := rfl
@[simp] theorem launchTok_l2 (s : State) (x : Flight) : (launchTok s x).l2 = s.l2 := rfl
@[simp] theorem launchTok_vers (s : State) (x : Flight) : (launchTok s x).vers = s.vers := rfl
@[simp] theorem launchTok_cmds (s : State) (x : Flight) : (launchTok s x).cmds = s.cmds := rfl
@[simp] theorem launchTok_qfences (s : State) (x : Flight) : (launchTok s x).qfences = s.qfences := rfl
@[simp] theorem launchTok_cmdNo (s : State) (x : Flight) : (launchTok s x).cmdNo = s.cmdNo := rfl
@[simp] theorem launchTok_sync (s : State) (x : Flight) : (launchTok s x).sync = s.sync := rfl
@[simp] theorem launchTok_handlers (s : State) (x : Flight) : (launchTok s x).handlers = s.handlers := rfl
@[simp] theorem launchTok_kvc (s : State) (x : Flight) : (launchTok s x).kvc = s.kvc := rfl
@[simp] theorem launchTok_dup (s : State) (x : Flight) : (launchTok s x).dup = s.dup := rfl
@[simp] theorem launchTok_deferred (s : State) (x : Flight) : (launchTok s x).deferred = s.deferred := rfl
@[simp] theorem launchTok_images (s : State) (x : Flight) : (launchTok s x).images = s.images := rfl
@[simp] theorem launchTok_completions (s : State) (x : Flight) : (launchTok s x).completions = s.completions := rfl
@[simp] theorem launchTok_invals (s : State) (x : Flight) : (launchTok s x).invals = s.invals := rfl
@[simp] theorem launchTok_msix (s : State) (x : Flight) : (launchTok s x).msix = s.msix := rfl
@[simp] theorem launchTok_cur (s : State) (x : Flight) : (launchTok s x).cur = s.cur := rfl
@[simp] theorem launchTok_script (s : State) (x : Flight) : (launchTok s x).script = s.script := rfl
@[simp] theorem launchTok_fresh (s : State) (x : Flight) : (launchTok s x).fresh = s.fresh := rfl

/-! ### modCmd changes cmds alone -/
@[simp] theorem modCmd_pkg (s : State) (k : Nat) (f : Cmd → Cmd) : (modCmd s k f).pkg = s.pkg := rfl
@[simp] theorem modCmd_parts (s : State) (k : Nat) (f : Cmd → Cmd) : (modCmd s k f).parts = s.parts := rfl
@[simp] theorem modCmd_mem (s : State) (k : Nat) (f : Cmd → Cmd) : (modCmd s k f).mem = s.mem := rfl
@[simp] theorem modCmd_shelf (s : State) (k : Nat) (f : Cmd → Cmd) : (modCmd s k f).shelf = s.shelf := rfl
@[simp] theorem modCmd_acc (s : State) (k : Nat) (f : Cmd → Cmd) : (modCmd s k f).acc = s.acc := rfl
@[simp] theorem modCmd_poison (s : State) (k : Nat) (f : Cmd → Cmd) : (modCmd s k f).poison = s.poison := rfl
@[simp] theorem modCmd_frames (s : State) (k : Nat) (f : Cmd → Cmd) : (modCmd s k f).frames = s.frames := rfl
@[simp] theorem modCmd_blocks (s : State) (k : Nat) (f : Cmd → Cmd) : (modCmd s k f).blocks = s.blocks := rfl
@[simp] theorem modCmd_slots (s : State) (k : Nat) (f : Cmd → Cmd) : (modCmd s k f).slots = s.slots := rfl
@[simp] theorem modCmd_queues (s : State) (k : Nat) (f : Cmd → Cmd) : (modCmd s k f).queues = s.queues := rfl
@[simp] theorem modCmd_net (s : State) (k : Nat) (f : Cmd → Cmd) : (modCmd s k f).net = s.net := rfl
@[simp] theorem modCmd_ready (s : State) (k : Nat) (f : Cmd → Cmd) : (modCmd s k f).ready = s.ready := rfl
@[simp] theorem modCmd_pipe (s : State) (k : Nat) (f : Cmd → Cmd) : (modCmd s k f).pipe = s.pipe := rfl
@[simp] theorem modCmd_waits (s : State) (k : Nat) (f : Cmd → Cmd) : (modCmd s k f).waits = s.waits := rfl
@[simp] theorem modCmd_issued (s : State) (k : Nat) (f : Cmd → Cmd) : (modCmd s k f).issued = s.issued := rfl
@[simp] theorem modCmd_stores (s : State) (k : Nat) (f : Cmd → Cmd) : (modCmd s k f).stores = s.stores := rfl
@[simp] theorem modCmd_placed (s : State) (k : Nat) (f : Cmd → Cmd) : (modCmd s k f).placed = s.placed := rfl
@[simp] theorem modCmd_exitgs (s : State) (k : Nat) (f : Cmd → Cmd) : (modCmd s k f).exitgs = s.exitgs := rfl
@[simp] theorem modCmd_regions (s : State) (k : Nat) (f : Cmd → Cmd) : (modCmd s k f).regions = s.regions := rfl
@[simp] theorem modCmd_ctxs (s : State) (k : Nat) (f : Cmd → Cmd) : (modCmd s k f).ctxs = s.ctxs := rfl
@[simp] theorem modCmd_entries (s : State) (k : Nat) (f : Cmd → Cmd) : (modCmd s k f).entries = s.entries := rfl
@[simp] theorem modCmd_streams (s : State) (k : Nat) (f : Cmd → Cmd) : (modCmd s k f).streams = s.streams := rfl
@[simp] theorem modCmd_codebooks (s : State) (k : Nat) (f : Cmd → Cmd) : (modCmd s k f).codebooks = s.codebooks := rfl
@[simp] theorem modCmd_tlb (s : State) (k : Nat) (f : Cmd → Cmd) : (modCmd s k f).tlb = s.tlb := rfl
@[simp] theorem modCmd_walks (s : State) (k : Nat) (f : Cmd → Cmd) : (modCmd s k f).walks = s.walks := rfl
@[simp] theorem modCmd_pageFaults (s : State) (k : Nat) (f : Cmd → Cmd) : (modCmd s k f).pageFaults = s.pageFaults := rfl
@[simp] theorem modCmd_l2 (s : State) (k : Nat) (f : Cmd → Cmd) : (modCmd s k f).l2 = s.l2 := rfl
@[simp] theorem modCmd_vers (s : State) (k : Nat) (f : Cmd → Cmd) : (modCmd s k f).vers = s.vers := rfl
@[simp] theorem modCmd_cmds (s : State) (k : Nat) (f : Cmd → Cmd) : (modCmd s k f).cmds = updWhere (fun c => c.id == k) f s.cmds := rfl
@[simp] theorem modCmd_qfences (s : State) (k : Nat) (f : Cmd → Cmd) : (modCmd s k f).qfences = s.qfences := rfl
@[simp] theorem modCmd_cmdNo (s : State) (k : Nat) (f : Cmd → Cmd) : (modCmd s k f).cmdNo = s.cmdNo := rfl
@[simp] theorem modCmd_sync (s : State) (k : Nat) (f : Cmd → Cmd) : (modCmd s k f).sync = s.sync := rfl
@[simp] theorem modCmd_handlers (s : State) (k : Nat) (f : Cmd → Cmd) : (modCmd s k f).handlers = s.handlers := rfl
@[simp] theorem modCmd_kvc (s : State) (k : Nat) (f : Cmd → Cmd) : (modCmd s k f).kvc = s.kvc := rfl
@[simp] theorem modCmd_dup (s : State) (k : Nat) (f : Cmd → Cmd) : (modCmd s k f).dup = s.dup := rfl
@[simp] theorem modCmd_deferred (s : State) (k : Nat) (f : Cmd → Cmd) : (modCmd s k f).deferred = s.deferred := rfl
@[simp] theorem modCmd_images (s : State) (k : Nat) (f : Cmd → Cmd) : (modCmd s k f).images = s.images := rfl
@[simp] theorem modCmd_completions (s : State) (k : Nat) (f : Cmd → Cmd) : (modCmd s k f).completions = s.completions := rfl
@[simp] theorem modCmd_invals (s : State) (k : Nat) (f : Cmd → Cmd) : (modCmd s k f).invals = s.invals := rfl
@[simp] theorem modCmd_msix (s : State) (k : Nat) (f : Cmd → Cmd) : (modCmd s k f).msix = s.msix := rfl
@[simp] theorem modCmd_cur (s : State) (k : Nat) (f : Cmd → Cmd) : (modCmd s k f).cur = s.cur := rfl
@[simp] theorem modCmd_script (s : State) (k : Nat) (f : Cmd → Cmd) : (modCmd s k f).script = s.script := rfl
@[simp] theorem modCmd_fresh (s : State) (k : Nat) (f : Cmd → Cmd) : (modCmd s k f).fresh = s.fresh := rfl

/-! ### setSync changes sync alone -/
@[simp] theorem setSync_pkg (s : State) (b k n : Nat) : (setSync s b k n).pkg = s.pkg := rfl
@[simp] theorem setSync_parts (s : State) (b k n : Nat) : (setSync s b k n).parts = s.parts := rfl
@[simp] theorem setSync_mem (s : State) (b k n : Nat) : (setSync s b k n).mem = s.mem := rfl
@[simp] theorem setSync_shelf (s : State) (b k n : Nat) : (setSync s b k n).shelf = s.shelf := rfl
@[simp] theorem setSync_acc (s : State) (b k n : Nat) : (setSync s b k n).acc = s.acc := rfl
@[simp] theorem setSync_poison (s : State) (b k n : Nat) : (setSync s b k n).poison = s.poison := rfl
@[simp] theorem setSync_frames (s : State) (b k n : Nat) : (setSync s b k n).frames = s.frames := rfl
@[simp] theorem setSync_blocks (s : State) (b k n : Nat) : (setSync s b k n).blocks = s.blocks := rfl
@[simp] theorem setSync_slots (s : State) (b k n : Nat) : (setSync s b k n).slots = s.slots := rfl
@[simp] theorem setSync_queues (s : State) (b k n : Nat) : (setSync s b k n).queues = s.queues := rfl
@[simp] theorem setSync_net (s : State) (b k n : Nat) : (setSync s b k n).net = s.net := rfl
@[simp] theorem setSync_ready (s : State) (b k n : Nat) : (setSync s b k n).ready = s.ready := rfl
@[simp] theorem setSync_pipe (s : State) (b k n : Nat) : (setSync s b k n).pipe = s.pipe := rfl
@[simp] theorem setSync_waits (s : State) (b k n : Nat) : (setSync s b k n).waits = s.waits := rfl
@[simp] theorem setSync_issued (s : State) (b k n : Nat) : (setSync s b k n).issued = s.issued := rfl
@[simp] theorem setSync_stores (s : State) (b k n : Nat) : (setSync s b k n).stores = s.stores := rfl
@[simp] theorem setSync_placed (s : State) (b k n : Nat) : (setSync s b k n).placed = s.placed := rfl
@[simp] theorem setSync_exitgs (s : State) (b k n : Nat) : (setSync s b k n).exitgs = s.exitgs := rfl
@[simp] theorem setSync_regions (s : State) (b k n : Nat) : (setSync s b k n).regions = s.regions := rfl
@[simp] theorem setSync_ctxs (s : State) (b k n : Nat) : (setSync s b k n).ctxs = s.ctxs := rfl
@[simp] theorem setSync_entries (s : State) (b k n : Nat) : (setSync s b k n).entries = s.entries := rfl
@[simp] theorem setSync_streams (s : State) (b k n : Nat) : (setSync s b k n).streams = s.streams := rfl
@[simp] theorem setSync_codebooks (s : State) (b k n : Nat) : (setSync s b k n).codebooks = s.codebooks := rfl
@[simp] theorem setSync_tlb (s : State) (b k n : Nat) : (setSync s b k n).tlb = s.tlb := rfl
@[simp] theorem setSync_walks (s : State) (b k n : Nat) : (setSync s b k n).walks = s.walks := rfl
@[simp] theorem setSync_pageFaults (s : State) (b k n : Nat) : (setSync s b k n).pageFaults = s.pageFaults := rfl
@[simp] theorem setSync_l2 (s : State) (b k n : Nat) : (setSync s b k n).l2 = s.l2 := rfl
@[simp] theorem setSync_vers (s : State) (b k n : Nat) : (setSync s b k n).vers = s.vers := rfl
@[simp] theorem setSync_cmds (s : State) (b k n : Nat) : (setSync s b k n).cmds = s.cmds := rfl
@[simp] theorem setSync_qfences (s : State) (b k n : Nat) : (setSync s b k n).qfences = s.qfences := rfl
@[simp] theorem setSync_cmdNo (s : State) (b k n : Nat) : (setSync s b k n).cmdNo = s.cmdNo := rfl
@[simp] theorem setSync_sync (s : State) (b k n : Nat) : (setSync s b k n).sync = assocSet (b, k) n s.sync := rfl
@[simp] theorem setSync_handlers (s : State) (b k n : Nat) : (setSync s b k n).handlers = s.handlers := rfl
@[simp] theorem setSync_kvc (s : State) (b k n : Nat) : (setSync s b k n).kvc = s.kvc := rfl
@[simp] theorem setSync_dup (s : State) (b k n : Nat) : (setSync s b k n).dup = s.dup := rfl
@[simp] theorem setSync_deferred (s : State) (b k n : Nat) : (setSync s b k n).deferred = s.deferred := rfl
@[simp] theorem setSync_images (s : State) (b k n : Nat) : (setSync s b k n).images = s.images := rfl
@[simp] theorem setSync_completions (s : State) (b k n : Nat) : (setSync s b k n).completions = s.completions := rfl
@[simp] theorem setSync_invals (s : State) (b k n : Nat) : (setSync s b k n).invals = s.invals := rfl
@[simp] theorem setSync_msix (s : State) (b k n : Nat) : (setSync s b k n).msix = s.msix := rfl
@[simp] theorem setSync_cur (s : State) (b k n : Nat) : (setSync s b k n).cur = s.cur := rfl
@[simp] theorem setSync_script (s : State) (b k n : Nat) : (setSync s b k n).script = s.script := rfl
@[simp] theorem setSync_fresh (s : State) (b k n : Nat) : (setSync s b k n).fresh = s.fresh := rfl

/-! ### modPort changes pkg alone -/
@[simp] theorem modPort_pkg (s : State) (k : Nat) (f : Port → Port) : (modPort s k f).pkg = (fun g : Pkg => { g with ports := g.ports.modify k f }) s.pkg := rfl
@[simp] theorem modPort_parts (s : State) (k : Nat) (f : Port → Port) : (modPort s k f).parts = s.parts := rfl
@[simp] theorem modPort_mem (s : State) (k : Nat) (f : Port → Port) : (modPort s k f).mem = s.mem := rfl
@[simp] theorem modPort_shelf (s : State) (k : Nat) (f : Port → Port) : (modPort s k f).shelf = s.shelf := rfl
@[simp] theorem modPort_acc (s : State) (k : Nat) (f : Port → Port) : (modPort s k f).acc = s.acc := rfl
@[simp] theorem modPort_poison (s : State) (k : Nat) (f : Port → Port) : (modPort s k f).poison = s.poison := rfl
@[simp] theorem modPort_frames (s : State) (k : Nat) (f : Port → Port) : (modPort s k f).frames = s.frames := rfl
@[simp] theorem modPort_blocks (s : State) (k : Nat) (f : Port → Port) : (modPort s k f).blocks = s.blocks := rfl
@[simp] theorem modPort_slots (s : State) (k : Nat) (f : Port → Port) : (modPort s k f).slots = s.slots := rfl
@[simp] theorem modPort_queues (s : State) (k : Nat) (f : Port → Port) : (modPort s k f).queues = s.queues := rfl
@[simp] theorem modPort_net (s : State) (k : Nat) (f : Port → Port) : (modPort s k f).net = s.net := rfl
@[simp] theorem modPort_ready (s : State) (k : Nat) (f : Port → Port) : (modPort s k f).ready = s.ready := rfl
@[simp] theorem modPort_pipe (s : State) (k : Nat) (f : Port → Port) : (modPort s k f).pipe = s.pipe := rfl
@[simp] theorem modPort_waits (s : State) (k : Nat) (f : Port → Port) : (modPort s k f).waits = s.waits := rfl
@[simp] theorem modPort_issued (s : State) (k : Nat) (f : Port → Port) : (modPort s k f).issued = s.issued := rfl
@[simp] theorem modPort_stores (s : State) (k : Nat) (f : Port → Port) : (modPort s k f).stores = s.stores := rfl
@[simp] theorem modPort_placed (s : State) (k : Nat) (f : Port → Port) : (modPort s k f).placed = s.placed := rfl
@[simp] theorem modPort_exitgs (s : State) (k : Nat) (f : Port → Port) : (modPort s k f).exitgs = s.exitgs := rfl
@[simp] theorem modPort_regions (s : State) (k : Nat) (f : Port → Port) : (modPort s k f).regions = s.regions := rfl
@[simp] theorem modPort_ctxs (s : State) (k : Nat) (f : Port → Port) : (modPort s k f).ctxs = s.ctxs := rfl
@[simp] theorem modPort_entries (s : State) (k : Nat) (f : Port → Port) : (modPort s k f).entries = s.entries := rfl
@[simp] theorem modPort_streams (s : State) (k : Nat) (f : Port → Port) : (modPort s k f).streams = s.streams := rfl
@[simp] theorem modPort_codebooks (s : State) (k : Nat) (f : Port → Port) : (modPort s k f).codebooks = s.codebooks := rfl
@[simp] theorem modPort_tlb (s : State) (k : Nat) (f : Port → Port) : (modPort s k f).tlb = s.tlb := rfl
@[simp] theorem modPort_walks (s : State) (k : Nat) (f : Port → Port) : (modPort s k f).walks = s.walks := rfl
@[simp] theorem modPort_pageFaults (s : State) (k : Nat) (f : Port → Port) : (modPort s k f).pageFaults = s.pageFaults := rfl
@[simp] theorem modPort_l2 (s : State) (k : Nat) (f : Port → Port) : (modPort s k f).l2 = s.l2 := rfl
@[simp] theorem modPort_vers (s : State) (k : Nat) (f : Port → Port) : (modPort s k f).vers = s.vers := rfl
@[simp] theorem modPort_cmds (s : State) (k : Nat) (f : Port → Port) : (modPort s k f).cmds = s.cmds := rfl
@[simp] theorem modPort_qfences (s : State) (k : Nat) (f : Port → Port) : (modPort s k f).qfences = s.qfences := rfl
@[simp] theorem modPort_cmdNo (s : State) (k : Nat) (f : Port → Port) : (modPort s k f).cmdNo = s.cmdNo := rfl
@[simp] theorem modPort_sync (s : State) (k : Nat) (f : Port → Port) : (modPort s k f).sync = s.sync := rfl
@[simp] theorem modPort_handlers (s : State) (k : Nat) (f : Port → Port) : (modPort s k f).handlers = s.handlers := rfl
@[simp] theorem modPort_kvc (s : State) (k : Nat) (f : Port → Port) : (modPort s k f).kvc = s.kvc := rfl
@[simp] theorem modPort_dup (s : State) (k : Nat) (f : Port → Port) : (modPort s k f).dup = s.dup := rfl
@[simp] theorem modPort_deferred (s : State) (k : Nat) (f : Port → Port) : (modPort s k f).deferred = s.deferred := rfl
@[simp] theorem modPort_images (s : State) (k : Nat) (f : Port → Port) : (modPort s k f).images = s.images := rfl
@[simp] theorem modPort_completions (s : State) (k : Nat) (f : Port → Port) : (modPort s k f).completions = s.completions := rfl
@[simp] theorem modPort_invals (s : State) (k : Nat) (f : Port → Port) : (modPort s k f).invals = s.invals := rfl
@[simp] theorem modPort_msix (s : State) (k : Nat) (f : Port → Port) : (modPort s k f).msix = s.msix := rfl
@[simp] theorem modPort_cur (s : State) (k : Nat) (f : Port → Port) : (modPort s k f).cur = s.cur := rfl
@[simp] theorem modPort_script (s : State) (k : Nat) (f : Port → Port) : (modPort s k f).script = s.script := rfl
@[simp] theorem modPort_fresh (s : State) (k : Nat) (f : Port → Port) : (modPort s k f).fresh = s.fresh := rfl

end Sys2Proof.Machine
end

