-- ==== Sys2Proof/Machine/HostRead.lean ====
section
/-! DEFINITION. What a host's read of the inbox aperture returns (R190, R191, R270): the value at the end of the read's cycle. -/
namespace Sys2Proof.Machine

/-- The machine as it stands when its cycle ends: the last state before the tick, within n steps. -/
def cycleEnd : Nat → State → State
  | 0, s => s
  | n + 1, s =>
    match step s with
    | .next t => if t.pkg.cycle == s.pkg.cycle then cycleEnd n t else s
    | _ => s

/-- A host's read of partition p's aperture at `off` (R190, R191): what the aperture holds after every append and intake of the
cycle in which it falls (R270), where the cycle ends within n steps. -/
def hostRead (n p off : Nat) (s : State) : Word := readAperture (cycleEnd n s) p off

end Sys2Proof.Machine
end

