-- ==== Sys2Proof/Tests/Slice0.lean ====
section
/-! SUPPORT. Tests of the model on small states, their expected values from the manual, and the witnesses of the
statements: for each hypothesis of a statement a concrete state that meets it. -/
namespace Sys2Proof.Tests

set_option Elab.async false
open Sys2Proof Sys2Proof.Machine

/-! ### Small states -/

/-- A live partition that owns bays 0 and 1 and the FRAME values 0 to 15: both roots at 0x10000, the directory at 0x20000,
the cellar at 0x30000 and the save area at 0x40000. -/
def part0 : Part :=
  { Part.reset with
    ent := [0x8000000000000000, 3, 0, 3, 0, 1, 0, 0, 0, 0x1000000000, 0xFFFFFFFFFFFFFFFF, 0, 0x10000, 0x10000, 0x20000, 0x30000, 0x10000, 0, 0, 0x40000] ++
      List.replicate 12 0
    bays := 3
    frames := 0x1000000000
    cal := 0xFFFFFFFFFFFFFFFF }

/-- Tables of two levels: the first 64 GiB at their own addresses, all rights, accessed and dirty; the next 64 GiB at the same
bytes, versioned. -/
def tables : Memory := wr64 (wr64 (wr64 [] 0x10000 0x14001) 0x14000 0x7F) 0x14008 0x27F

/-- The translations of both pages. -/
def tlb0 : List TlbEntry :=
  [{ bay := 0, part := 0, va := 0, size := 36, pa := 0, w := true, x := true, u := true, vr := false, uncached := false, dirty := true },
   { bay := 0, part := 0, va := 0x1000000000, size := 36, pa := 0, w := true, x := true, u := true, vr := true, uncached := false, dirty := true }]

/-- A frame of it, in row 0 of bay 0. -/
def frame0 : Frame :=
  { part := 0, num := 0, fname := 1, resident := true, bay := 0, row := 0, home := 0, key := 0, g := List.replicate 64 0,
    sk := List.replicate 8 0, fpc := 0, fstat := 0, cc := 0, jn := 0, co := 1, link := none, retHold := none, parked := false,
    mon := none, parent := none, isRoot := false, tree := 0, pri := 0, cont := 0, entry := 0, nextSeq := 1, nextAddr := none,
    trap := none, resumed := none, ending := false, fenced := none, spurAt := none, fault := none, late := none, host := false,
    progress := 0 }

/-- A block of it at 0x4000, of two nops, with no receipts but the exit. -/
def block0 : Block :=
  { part := 0, frame := 0, seq := 0, addr := 0x4000, h0 := 0xFB02000000000000, h1 := 0, words := [0, 0], places := [(0, 0), (0, 1)], spec := false,
    wr := [], sk := [], st := [], exit := none, flags := 0, fpc := none, wrsrs := [], events := [], ret := none, acts := [],
    held := none, sent := [] }

/-- That block runs, and nothing is in flight. -/
def base : State :=
  { State.reset with parts := part0 :: List.replicate 63 Part.reset, frames := [frame0], blocks := [block0], mem := tables, tlb := tlb0 }

/-- Partition 0 becomes t. -/
def withPart (t : Part) (s : State) : State := { s with parts := t :: List.replicate 63 Part.reset }

/-- A data operand. -/
def dat (v : Word) : Option Operand := some ⟨.data, v⟩

/-- An instance of the block with data on a, b and c, of the word w. -/
def instOf (w a b c : Word) : Inst := { Inst.empty with word := w, a := dat a, b := dat b, c := dat c }

/-- The block runs with that instance. -/
def withOps (a b c : Word) : State := { base with cur := instOf 0 a b c }

/-- The tokens that an outcome sent. -/
def sentBy : Res → List (Kind × Word)
  | .next t => t.net.map fun x => (x.tok.kind, x.tok.data)
  | _ => []

/-- What the frame halted with: the code and both details. -/
def haltedBy : Res → Option (BitVec 8 × Word × Word)
  | .next t => ((frame? t 0 0).bind (·.fault)).map fun r => (r.code, r.g4, r.g5)
  | _ => none

/-- The flags that the block collected. -/
def flagsBy : Res → Nat
  | .next t => ((block? t 0 0 0).map (·.flags.toNat)).getD 0
  | _ => 0

/-- The state that an outcome goes on with. -/
def nextOf (r : Res) (s : State) : State :=
  match r with
  | .next t => t
  | _ => s

/-- An A word of type ty and variant md without an immediate, with T0 slot a of instruction 1. -/
def fa (ty : BitVec 3) (md : BitVec 2) : AFmt := ⟨0, false, ty, md, 0x001, 0x3FF, 0⟩

/-- The same with an immediate. -/
def fi (ty : BitVec 3) (md : BitVec 2) (imm : BitVec 28) : AFmt := ⟨0, true, ty, md, 0x001, 0x3FF, imm⟩

/-- The value that an A instruction sends on a, b and c. -/
def val (i : Instr) (a b c : Word) : List Word := (sentBy (exec i (withOps a b c))).map (·.2)

/-- The value and the flags. -/
def valFl (i : Instr) (a b c : Word) : List Word × Nat := (val i a b c, flagsBy (exec i (withOps a b c)))

/-- The same under a frame whose FPC is v. -/
def valUnder (v : BitVec 5) (i : Instr) (a b c : Word) : List Word × Nat :=
  let s := { withOps a b c with frames := [{ frame0 with fpc := v }] }
  ((sentBy (exec i s)).map (·.2), flagsBy (exec i s))

/-! ### Encoding -/

/-- What R305 refuses: PR 0b11, a reserved target, type code 7, a type or MOD that the entry does not allow, I = 1 on an
instruction without slot b, an unused IMM bit, and IMM[27:16] of a pair. -/
theorem test_illformed_a :
    (Instr.add ⟨3, false, 0, 0, 1, 0x3FF, 0⟩).wellFormed = false ∧ (Instr.add ⟨0, false, 0, 0, 0x3FE, 0x3FF, 0⟩).wellFormed = false ∧
    (Instr.add ⟨0, false, 0, 0, 1, 0x251, 0⟩).wellFormed = false ∧ (Instr.add ⟨0, false, 7, 0, 1, 0x3FF, 0⟩).wellFormed = false ∧
    (Instr.add ⟨0, false, 4, 0, 1, 0x3FF, 0⟩).wellFormed = false ∧ (Instr.mulh ⟨0, false, 0, 1, 1, 0x3FF, 0⟩).wellFormed = false ∧
    (Instr.neg ⟨0, true, 0, 0, 1, 0x3FF, 0⟩).wellFormed = false ∧ (Instr.add ⟨0, false, 0, 0, 1, 0x3FF, 1⟩).wellFormed = false ∧
    (Instr.fadd ⟨0, true, 5, 0, 1, 0x3FF, 0x10000⟩).wellFormed = false ∧ (Instr.const ⟨0, false, 6, 0, 1, 0x3FF, 0x10000⟩).wellFormed = false ∧
    (Instr.mov4 ⟨3, 1, 1, 1, 1⟩).wellFormed = false ∧ (Instr.mov4 ⟨0, 1, 1, 1, 0x300⟩).wellFormed = false := by decide +kernel

/-- And the limits that single entries of format A set. -/
theorem test_illformed_a_entries :
    (Instr.read ⟨1, false, 0, 0, 1, 0x3FF, 0⟩).wellFormed = false ∧ (Instr.read ⟨0, false, 0, 0, 1, 0x3FF, 64⟩).wellFormed = false ∧
    (Instr.read ⟨0, false, 0, 1, 1, 0x3FF, 0⟩).wellFormed = false ∧ (Instr.read ⟨0, false, 0, 1, 0x240, 0x3FF, 8⟩).wellFormed = false ∧
    (Instr.steer ⟨0, false, 0, 0, 1, 0x3FF, 0⟩).wellFormed = false ∧ (Instr.mergeU ⟨1, false, 0, 0, 1, 0x3FF, 0⟩).wellFormed = false ∧
    (Instr.wreset ⟨0, false, 0, 0, 1, 0x3FF, 8⟩).wellFormed = false ∧ (Instr.kbound ⟨0, false, 0, 0, 1, 0x3FF, 0⟩).wellFormed = false ∧
    (Instr.kbound ⟨0, false, 0, 0, 1, 0x3FF, 65⟩).wellFormed = false ∧ (Instr.cfgtok ⟨0, false, 0, 0, 1, 1, 0⟩).wellFormed = false ∧
    (Instr.cvtif ⟨0, false, 4, 1, 1, 0x3FF, 0⟩).wellFormed = false ∧ (Instr.skmix ⟨0, false, 0, 0, 1, 0x3FF, 0⟩).wellFormed = false ∧
    (Instr.skmix ⟨0, false, 1, 3, 1, 0x3FF, 0⟩).wellFormed = false ∧ (Instr.skemb ⟨0, false, 0, 0, 1, 1, 0⟩).wellFormed = false ∧
    (Instr.skrd ⟨0, false, 0, 1, 0x240, 0x3FF, 0⟩).wellFormed = false := by decide +kernel

/-- SF 9 on a load, OWN from 62 on, KIND 0b00, SCOPE 6, a scope that the shelf does not have, I = 1 without elements; and what
single entries of format M set. -/
theorem test_illformed_m :
    (Instr.ld ⟨3, false, 5, false, 1, 0x3E, 0, 0x3E, 0⟩).wellFormed = false ∧ (Instr.ld ⟨0, false, 9, false, 1, 0x3E, 0, 0x3E, 0⟩).wellFormed = false ∧
    (Instr.ld ⟨0, false, 5, false, 1, 0x3E, 0x3E, 0x3E, 0⟩).wellFormed = false ∧ (Instr.ld ⟨0, false, 5, true, 1, 0x3E, 0, 0x3E, 0⟩).wellFormed = false ∧
    (Instr.ld ⟨0, false, 5, true, 1, 0x3E, 0, 0x3E, 0xC8000⟩).wellFormed = false ∧ (Instr.lds ⟨0, false, 5, true, 1, 0x3E, 0, 0x3E, 0x48000⟩).wellFormed = false ∧
    (Instr.ldv ⟨0, true, 5, false, 1, 0x3E, 0, 0x3E, 0⟩).wellFormed = false ∧ (Instr.pref ⟨0, false, 0, false, 1, 0x3E, 0, 0x3E, 0⟩).wellFormed = false ∧
    (Instr.fence ⟨0, false, 0, false, 1, 0x3E, 0, 0x3E, 0⟩).wellFormed = false ∧ (Instr.qfence ⟨0, false, 0, false, 1, 0x3E, 0, 0x3E, 0⟩).wellFormed = false ∧
    (Instr.waitm ⟨0, false, 0, false, 1, 0x3E, 0, 0x3E, 8⟩).wellFormed = false ∧ (Instr.cas ⟨0, false, 6, false, 1, 0x3E, 0, 0x3E, 0⟩).wellFormed = false := by
  decide +kernel

/-- EX 7, an offset beside .ind; MOD of an engine word, a T0 without a token continuation, ARG18 beside I = 0, eng with I = 1, a
qwait for no queue; SR and unused IMM26 bits of a word that has none, a register that no number names, and a wrsr of FPC. -/
theorem test_illformed_xes :
    (Instr.exit ⟨0, 7, 0, 0x3FF, 0⟩).wellFormed = false ∧ (Instr.exit ⟨0, 0, 1, 0x3FF, 8⟩).wellFormed = false ∧
    (Instr.call ⟨0, 0, 3, 0x3FF, 0⟩).wellFormed = false ∧ (Instr.gcall ⟨0, 1, 0, 0x3FF, 0⟩).wellFormed = false ∧
    (Instr.mm ⟨0, false, 1, 0, 0, 0, 0x3FF, 0, 0, 0⟩).wellFormed = false ∧ (Instr.mm ⟨0, false, 0, 0, 0, 0, 1, 0, 0, 0⟩).wellFormed = false ∧
    (Instr.gath ⟨0, false, 0, 0, 0, 0, 0x3FF, 0, 0, 1⟩).wellFormed = false ∧ (Instr.eng ⟨0, true, 0, 0, 0, 0, 0x3FF, 0, 0, 0⟩).wellFormed = false ∧
    (Instr.qwait ⟨0, true, 0, 0, 0, 0, 0x3FF, 0, 0, 0⟩).wellFormed = false ∧ (Instr.tnow ⟨0, 0, 1, 1, 0⟩).wellFormed = false ∧
    (Instr.tnow ⟨0, 0, 1, 0, 1⟩).wellFormed = false ∧ (Instr.trap ⟨0, 0, 1, 0, 0⟩).wellFormed = false ∧
    (Instr.rdsr ⟨0, 0, 1, 0x017, 0⟩).wellFormed = false ∧ (Instr.wrsr ⟨0, 0, 1, 0x001, 0⟩).wellFormed = false ∧
    (Instr.fpcset ⟨0, 1, 1, 0, 0x20⟩).wellFormed = false ∧ (Instr.accst ⟨0, true, 0, 1, 12, 8, 0x085, 4, 3, 0x20004⟩).wellFormed = false ∧
     (Instr.event ⟨0, 0, 1, 0, 62⟩).wellFormed = false := by decide +kernel

/-- Words that no row of the map takes: a reserved opcode, the header marker, a nop with a bit set, PR 0b11, skhash's MOD 0b11. -/
theorem test_refused_words :
    decodeTableWord 64 0x0700000000000000 = none ∧ decodeTableWord 64 0xFB0A400000000000 = none ∧ decodeTableWord 64 0x0000000000000001 = none ∧
    decodeTableWord 64 0x10C000BFF0000000 = none ∧ decodeTableWord 64 0x960300BFF0000000 = none ∧ decodeTableWord 64 0x390200BFF0000000 = none := by
  decide +kernel

/-- The worked word of R337: fcmp.f32.lt #1.5 to slot p of instruction 4. -/
theorem test_worked_fcmp : decodeTableWord 64 0x5231613FF3FC0000 = some (.fcmp false ⟨0, true, 4, 1, 0x184, 0x3FF, 0x3FC0000⟩) := by
  decide +kernel

/-- The words of the moves family as R295–R304 lay them out. -/
theorem test_decodes_moves :
    decodeTableWord 64 0x0000000000000000 = some (.nop) ∧
    decodeTableWord 64 0x01002150A000002A = some (.read ⟨0, false, 0, 0, 0x085, 0x10A, 0x2A⟩) ∧
    decodeTableWord 64 0x02402150A0000000 = some (.mov ⟨1, false, 0, 0, 0x085, 0x10A, 0x0⟩) ∧
    decodeTableWord 64 0x03802150A817FF00 = some (.mov4 ⟨2, 0x085, 0x10A, 0x205, 0x3FF⟩) ∧
    decodeTableWord 64 0x040C2150A9ABCDEF = some (.const ⟨0, false, 3, 0, 0x085, 0x10A, 0x9ABCDEF⟩) ∧
    decodeTableWord 64 0x05082150A1234567 = some (.consth ⟨0, false, 2, 0, 0x085, 0x10A, 0x1234567⟩) ∧
    decodeTableWord 64 0x06402150A0000000 = some (.null ⟨1, false, 0, 0, 0x085, 0x10A, 0x0⟩) := by
  decide +kernel

/-- The words of the integer family as R295–R304 lay them out. -/
theorem test_decodes_integer :
    decodeTableWord 64 0x10042150A0000000 = some (.add ⟨0, false, 1, 0, 0x085, 0x10A, 0x0⟩) ∧
    decodeTableWord 64 0x11682150A8000001 = some (.sub ⟨1, true, 2, 0, 0x085, 0x10A, 0x8000001⟩) ∧
    decodeTableWord 64 0x128C2150A0000000 = some (.mul ⟨2, false, 3, 0, 0x085, 0x10A, 0x0⟩) ∧
    decodeTableWord 64 0x13242150A8000001 = some (.mulh ⟨0, true, 1, 0, 0x085, 0x10A, 0x8000001⟩) ∧
    decodeTableWord 64 0x14482150A0000000 = some (.mad ⟨1, false, 2, 0, 0x085, 0x10A, 0x0⟩) ∧
    decodeTableWord 64 0x15AC2150A8000001 = some (.div ⟨2, true, 3, 0, 0x085, 0x10A, 0x8000001⟩) ∧
    decodeTableWord 64 0x16042150A0000000 = some (.rem ⟨0, false, 1, 0, 0x085, 0x10A, 0x0⟩) ∧
    decodeTableWord 64 0x17482150A0000000 = some (.neg ⟨1, false, 2, 0, 0x085, 0x10A, 0x0⟩) ∧
    decodeTableWord 64 0x18092150A0000000 = some (.abs ⟨0, false, 2, 1, 0x085, 0x10A, 0x0⟩) ∧
    decodeTableWord 64 0x19242150A8000001 = some (.min ⟨0, true, 1, 0, 0x085, 0x10A, 0x8000001⟩) ∧
    decodeTableWord 64 0x1A482150A0000000 = some (.max ⟨1, false, 2, 0, 0x085, 0x10A, 0x0⟩) := by
  decide +kernel

/-- The words of the logic family as R295–R304 lay them out. -/
theorem test_decodes_logic :
    decodeTableWord 64 0x1B202150A000003F = some (.and ⟨0, true, 0, 0, 0x085, 0x10A, 0x3F⟩) ∧
    decodeTableWord 64 0x1C242150A000003F = some (.or ⟨0, true, 1, 0, 0x085, 0x10A, 0x3F⟩) ∧
    decodeTableWord 64 0x1D282150A000003F = some (.xor ⟨0, true, 2, 0, 0x085, 0x10A, 0x3F⟩) ∧
    decodeTableWord 64 0x1E2C2150A000003F = some (.andn ⟨0, true, 3, 0, 0x085, 0x10A, 0x3F⟩) ∧
    decodeTableWord 64 0x1F202150A000003F = some (.orn ⟨0, true, 0, 0, 0x085, 0x10A, 0x3F⟩) ∧
    decodeTableWord 64 0x20042150A0000000 = some (.not ⟨0, false, 1, 0, 0x085, 0x10A, 0x0⟩) ∧
    decodeTableWord 64 0x21282150A000003F = some (.shl ⟨0, true, 2, 0, 0x085, 0x10A, 0x3F⟩) ∧
    decodeTableWord 64 0x222C2150A000003F = some (.shr ⟨0, true, 3, 0, 0x085, 0x10A, 0x3F⟩) ∧
    decodeTableWord 64 0x23202150A000003F = some (.sha ⟨0, true, 0, 0, 0x085, 0x10A, 0x3F⟩) ∧
    decodeTableWord 64 0x24252150A000003F = some (.rot ⟨0, true, 1, 1, 0x085, 0x10A, 0x3F⟩) ∧
    decodeTableWord 64 0x25082150A0000000 = some (.clz ⟨0, false, 2, 0, 0x085, 0x10A, 0x0⟩) ∧
    decodeTableWord 64 0x260C2150A0000000 = some (.ctz ⟨0, false, 3, 0, 0x085, 0x10A, 0x0⟩) ∧
    decodeTableWord 64 0x27002150A0000000 = some (.popc ⟨0, false, 0, 0, 0x085, 0x10A, 0x0⟩) ∧
    decodeTableWord 64 0x28042150A0000000 = some (.brev ⟨0, false, 1, 0, 0x085, 0x10A, 0x0⟩) ∧
    decodeTableWord 64 0x29282150A000003F = some (.bfx ⟨0, true, 2, 0, 0x085, 0x10A, 0x3F⟩) ∧
    decodeTableWord 64 0x2A2C2150A000003F = some (.bfi ⟨0, true, 3, 0, 0x085, 0x10A, 0x3F⟩) ∧
    decodeTableWord 64 0x2B202150A000003F = some (.sel ⟨0, true, 0, 0, 0x085, 0x10A, 0x3F⟩) ∧
    decodeTableWord 64 0x2C242150A000003F = some (.sext ⟨0, true, 1, 0, 0x085, 0x10A, 0x3F⟩) ∧
    decodeTableWord 64 0x2D282150A000003F = some (.zext ⟨0, true, 2, 0, 0x085, 0x10A, 0x3F⟩) ∧
    decodeTableWord 64 0x3A2C2150A000003F = some (.tst ⟨0, true, 3, 0, 0x085, 0x10A, 0x3F⟩) := by
  decide +kernel

/-- The words of the compare and address family as R295–R304 lay them out. -/
theorem test_decodes_compare_and_address :
    decodeTableWord 64 0x380B2150A0000000 = some (.cmp false ⟨0, false, 2, 3, 0x085, 0x10A, 0x0⟩) ∧
    decodeTableWord 64 0x39052150A0000000 = some (.cmp true ⟨0, false, 1, 1, 0x085, 0x10A, 0x0⟩) ∧
    decodeTableWord 64 0x30212150AFFFFFF8 = some (.adda ⟨0, true, 0, 1, 0x085, 0x10A, 0xFFFFFF8⟩) ∧
    decodeTableWord 64 0x31032150A0000000 = some (.lea ⟨0, false, 0, 3, 0x085, 0x10A, 0x0⟩) ∧
    decodeTableWord 64 0x32212150A0000004 = some (.alignd ⟨0, true, 0, 1, 0x085, 0x10A, 0x4⟩) ∧
    decodeTableWord 64 0x33022150A0000000 = some (.canon ⟨0, false, 0, 2, 0x085, 0x10A, 0x0⟩) := by
  decide +kernel

/-- The words of the floating family as R295–R304 lay them out. -/
theorem test_decodes_floating :
    decodeTableWord 64 0x40302150A3F80000 = some (.fadd ⟨0, true, 4, 0, 0x085, 0x10A, 0x3F80000⟩) ∧
    decodeTableWord 64 0x41142150A0000000 = some (.fsub ⟨0, false, 5, 0, 0x085, 0x10A, 0x0⟩) ∧
    decodeTableWord 64 0x42182150A0000000 = some (.fmul ⟨0, false, 6, 0, 0x085, 0x10A, 0x0⟩) ∧
    decodeTableWord 64 0x43302150A3F80000 = some (.fma ⟨0, true, 4, 0, 0x085, 0x10A, 0x3F80000⟩) ∧
    decodeTableWord 64 0x44152150A0000000 = some (.fmin ⟨0, false, 5, 1, 0x085, 0x10A, 0x0⟩) ∧
    decodeTableWord 64 0x45192150A0000000 = some (.fmax ⟨0, false, 6, 1, 0x085, 0x10A, 0x0⟩) ∧
    decodeTableWord 64 0x46102150A0000000 = some (.fabs ⟨0, false, 4, 0, 0x085, 0x10A, 0x0⟩) ∧
    decodeTableWord 64 0x47142150A0000000 = some (.fneg ⟨0, false, 5, 0, 0x085, 0x10A, 0x0⟩) ∧
    decodeTableWord 64 0x48182150A0000000 = some (.fcpsgn ⟨0, false, 6, 0, 0x085, 0x10A, 0x0⟩) ∧
    decodeTableWord 64 0x49302150A3F80000 = some (.fdiv ⟨0, true, 4, 0, 0x085, 0x10A, 0x3F80000⟩) ∧
    decodeTableWord 64 0x4A102150A0000000 = some (.fsqrt ⟨0, false, 4, 0, 0x085, 0x10A, 0x0⟩) ∧
    decodeTableWord 64 0x4B102150A0000000 = some (.frcp ⟨0, false, 4, 0, 0x085, 0x10A, 0x0⟩) ∧
    decodeTableWord 64 0x4C102150A0000000 = some (.frsq ⟨0, false, 4, 0, 0x085, 0x10A, 0x0⟩) ∧
    decodeTableWord 64 0x4D102150A0000000 = some (.fexp2 ⟨0, false, 4, 0, 0x085, 0x10A, 0x0⟩) ∧
    decodeTableWord 64 0x4E102150A0000000 = some (.flog2 ⟨0, false, 4, 0, 0x085, 0x10A, 0x0⟩) ∧
    decodeTableWord 64 0x4F102150A0000000 = some (.ftanh ⟨0, false, 4, 0, 0x085, 0x10A, 0x0⟩) ∧
    decodeTableWord 64 0x50172150A0000000 = some (.fround ⟨0, false, 5, 3, 0x085, 0x10A, 0x0⟩) ∧
    decodeTableWord 64 0x51182150A0000000 = some (.fclass ⟨0, false, 6, 0, 0x085, 0x10A, 0x0⟩) ∧
    decodeTableWord 64 0x52122150A0000000 = some (.fcmp false ⟨0, false, 4, 2, 0x085, 0x10A, 0x0⟩) ∧
    decodeTableWord 64 0x53112150A0000000 = some (.fcmp true ⟨0, false, 4, 1, 0x085, 0x10A, 0x0⟩) ∧
    decodeTableWord 64 0x54182150A0000000 = some (.fdot2 ⟨0, false, 6, 0, 0x085, 0x10A, 0x0⟩) := by
  decide +kernel

/-- The words of the conversion family as R295–R304 lay them out. -/
theorem test_decodes_conversion :
    decodeTableWord 64 0x60062150A0000000 = some (.cvtfi ⟨0, false, 1, 2, 0x085, 0x10A, 0x0⟩) ∧
    decodeTableWord 64 0x61152150A0000002 = some (.cvtif ⟨0, false, 5, 1, 0x085, 0x10A, 0x2⟩) ∧
    decodeTableWord 64 0x621B2150A0000000 = some (.fcvt ⟨0, false, 6, 3, 0x085, 0x10A, 0x0⟩) ∧
    decodeTableWord 64 0x63152150A0000000 = some (.fwid ⟨0, false, 5, 1, 0x085, 0x10A, 0x0⟩) ∧
    decodeTableWord 64 0x64192150A0000000 = some (.pack2 ⟨0, false, 6, 1, 0x085, 0x10A, 0x0⟩) ∧
    decodeTableWord 64 0x65142150A0000000 = some (.unpack ⟨0, false, 5, 0, 0x085, 0x10A, 0x0⟩) := by
  decide +kernel

/-- The words of the dataflow family as R295–R304 lay them out. -/
theorem test_decodes_dataflow :
    decodeTableWord 64 0x70802150A0000000 = some (.steer ⟨2, false, 0, 0, 0x085, 0x10A, 0x0⟩) ∧
    decodeTableWord 64 0x7100007FF0000081 = some (.mergeU ⟨0, false, 0, 0, 0x001, 0x3FF, 0x81⟩) ∧
    decodeTableWord 64 0x7200007FF000007F = some (.mergeO ⟨0, false, 0, 0, 0x001, 0x3FF, 0x7F⟩) ∧
    decodeTableWord 64 0x73002150A0000000 = some (.gate ⟨0, false, 0, 0, 0x085, 0x10A, 0x0⟩) ∧
    decodeTableWord 64 0x74012150A0000000 = some (.join ⟨0, false, 0, 1, 0x085, 0x10A, 0x0⟩) ∧
    decodeTableWord 64 0x750E007FF0000000 = some (.red ⟨0, false, 3, 2, 0x001, 0x3FF, 0x0⟩) ∧
    decodeTableWord 64 0x7600007FF0000000 = some (.wadv ⟨0, false, 0, 0, 0x001, 0x3FF, 0x0⟩) ∧
    decodeTableWord 64 0x7700007FF0007FE7 = some (.wreset ⟨0, false, 0, 0, 0x001, 0x3FF, 0x7FE7⟩) ∧
    decodeTableWord 64 0x7800007FF0000040 = some (.kbound ⟨0, false, 0, 0, 0x001, 0x3FF, 0x40⟩) ∧
    decodeTableWord 64 0x79002150A0000000 = some (.eos ⟨0, false, 0, 0, 0x085, 0x10A, 0x0⟩) ∧
    decodeTableWord 64 0x7A002150A0000000 = some (.eosq ⟨0, false, 0, 0, 0x085, 0x10A, 0x0⟩) := by
  decide +kernel

/-- The words of the control family as R295–R304 lay them out. -/
theorem test_decodes_control :
    decodeTableWord 64 0x7B30217FFFFFFFFE = some (.exit ⟨0, 6, 0, 0x085, 0x3FFFFFFFFE⟩) ∧
    decodeTableWord 64 0x7C1C214000000000 = some (.exitg ⟨0, 3, 4, 0x085, 0x0⟩) ∧
    decodeTableWord 64 0x7D0A214000000005 = some (.call ⟨0, 1, 2, 0x085, 0x5⟩) ∧
    decodeTableWord 64 0x7E00FFFFF0000000 = some (.ret ⟨0, false, 0, 0, 0x3FF, 0x3FF, 0x0⟩) ∧
    decodeTableWord 64 0x7F11214000000006 = some (.spawn ⟨0, 2, 1, 0x085, 0x6⟩) ∧
    decodeTableWord 64 0x80022150A0000000 = some (.joinc ⟨0, false, 0, 2, 0x085, 0x10A, 0x0⟩) ∧
    decodeTableWord 64 0x8100008000000007 = some (.gcall ⟨0, 0, 0, 0x002, 0x7⟩) ∧
    decodeTableWord 64 0x82002150A0000000 = some (.gret ⟨0, false, 0, 0, 0x085, 0x10A, 0x0⟩) ∧
    decodeTableWord 64 0x8301214000000000 = some (.cfgreq ⟨0, 0, 1, 0x085, 0x0⟩) ∧
    decodeTableWord 64 0x84002150A0000000 = some (.cfgrel ⟨0, false, 0, 0, 0x085, 0x10A, 0x0⟩) ∧
    decodeTableWord 64 0x8503217FF0000000 = some (.cfgtok ⟨0, false, 0, 3, 0x085, 0x3FF, 0x0⟩) ∧
    decodeTableWord 64 0x86002150A0000000 = some (.drain ⟨0, false, 0, 0, 0x085, 0x10A, 0x0⟩) := by
  decide +kernel

/-- The words of the soft family as R295–R304 lay them out. -/
theorem test_decodes_soft :
    decodeTableWord 64 0x9021904020000004 = some (.sklat ⟨0, true, 0, 1, 0x241, 0x002, 0x4⟩) ∧
    decodeTableWord 64 0x91069090A0000000 = some (.skmix ⟨0, false, 1, 2, 0x242, 0x10A, 0x0⟩) ∧
    decodeTableWord 64 0x920090D0A0000007 = some (.skadd ⟨0, false, 0, 0, 0x243, 0x10A, 0x7⟩) ∧
    decodeTableWord 64 0x93009110A0000003 = some (.sknorm ⟨0, false, 0, 0, 0x244, 0x10A, 0x3⟩) ∧
    decodeTableWord 64 0x9400217FF00007FB = some (.skemb ⟨0, false, 0, 0, 0x085, 0x3FF, 0x7FB⟩) ∧
    decodeTableWord 64 0x95002150A0000005 = some (.skpos ⟨0, false, 0, 0, 0x085, 0x10A, 0x5⟩) ∧
    decodeTableWord 64 0x96002150A000001D = some (.skhash ⟨0, false, 0, 0, 0x085, 0x10A, 0x1D⟩) ∧
    decodeTableWord 64 0x96012150A000003E = some (.skrd ⟨0, false, 0, 1, 0x085, 0x10A, 0x3E⟩) ∧
    decodeTableWord 64 0x96029010A0000000 = some (.skclr ⟨0, false, 0, 2, 0x240, 0x10A, 0x0⟩) ∧
    decodeTableWord 64 0x97209010A0000009 = some (.collapseMax ⟨0, true, 0, 0, 0x240, 0x10A, 0x9⟩) ∧
    decodeTableWord 64 0x97019010A0000006 = some (.collapseMix ⟨0, false, 0, 1, 0x240, 0x10A, 0x6⟩) ∧
    decodeTableWord 64 0x97029010A0000002 = some (.collapseCdf ⟨0, false, 0, 2, 0x240, 0x10A, 0x2⟩) := by
  decide +kernel

/-- The words of the memory family as R295–R304 lay them out. -/
theorem test_decodes_memory :
    decodeTableWord 64 0x98302151493FFFFF = some (.ld ⟨0, true, 8, false, 0x085, 0x11, 0x12, 0x13, 0xFFFFF⟩) ∧
    decodeTableWord 64 0x9915215149391234 = some (.st ⟨0, false, 10, true, 0x085, 0x11, 0x12, 0x13, 0x91234⟩) ∧
    decodeTableWord 64 0x9A0E215149300008 = some (.lds ⟨0, false, 7, false, 0x085, 0x11, 0x12, 0x13, 0x8⟩) ∧
    decodeTableWord 64 0x9B01215149330001 = some (.sts ⟨0, false, 0, true, 0x085, 0x11, 0x12, 0x13, 0x30001⟩) ∧
    decodeTableWord 64 0x9C0A215149300000 = some (.ldv ⟨0, false, 5, false, 0x085, 0x11, 0x12, 0x13, 0x0⟩) ∧
    decodeTableWord 64 0x9D0A215149300010 = some (.stv ⟨0, false, 5, false, 0x085, 0x11, 0x12, 0x13, 0x10⟩) ∧
    decodeTableWord 64 0x9E0A215149300000 = some (.reclaim ⟨0, false, 5, false, 0x085, 0x11, 0x12, 0x13, 0x0⟩) ∧
    decodeTableWord 64 0x9F32005149300000 = some (.stream ⟨0, true, 9, false, 0x001, 0x11, 0x12, 0x13, 0x0⟩) ∧
    decodeTableWord 64 0xA000FFD149300040 = some (.pref ⟨0, false, 0, false, 0x3FF, 0x11, 0x12, 0x13, 0x40⟩) ∧
    decodeTableWord 64 0xA1012151493B8000 = some (.fence ⟨0, false, 0, true, 0x085, 0x11, 0x12, 0x13, 0xB8000⟩) ∧
    decodeTableWord 64 0xA20021514931FFFF = some (.qfence ⟨0, false, 0, false, 0x085, 0x11, 0x12, 0x13, 0x1FFFF⟩) ∧
    decodeTableWord 64 0xA300215149300040 = some (.monitor ⟨0, false, 0, false, 0x085, 0x11, 0x12, 0x13, 0x40⟩) ∧
    decodeTableWord 64 0xA400215149300000 = some (.waitm ⟨0, false, 0, false, 0x085, 0x11, 0x12, 0x13, 0x0⟩) := by
  decide +kernel

/-- The words of the atomics family as R295–R304 lay them out. -/
theorem test_decodes_atomics :
    decodeTableWord 64 0xB009215149308008 = some (.amoAdd ⟨0, false, 4, true, 0x085, 0x11, 0x12, 0x13, 0x8008⟩) ∧
    decodeTableWord 64 0xB10B215149330008 = some (.amoAnd ⟨0, false, 5, true, 0x085, 0x11, 0x12, 0x13, 0x30008⟩) ∧
    decodeTableWord 64 0xB209215149358008 = some (.amoOr ⟨0, false, 4, true, 0x085, 0x11, 0x12, 0x13, 0x58008⟩) ∧
    decodeTableWord 64 0xB30B215149368008 = some (.amoXor ⟨0, false, 5, true, 0x085, 0x11, 0x12, 0x13, 0x68008⟩) ∧
    decodeTableWord 64 0xB429215149390008 = some (.amoMin ⟨0, true, 4, true, 0x085, 0x11, 0x12, 0x13, 0x90008⟩) ∧
    decodeTableWord 64 0xB52B2151493B8008 = some (.amoMax ⟨0, true, 5, true, 0x085, 0x11, 0x12, 0x13, 0xB8008⟩) ∧
    decodeTableWord 64 0xB609215149308008 = some (.amoXchg ⟨0, false, 4, true, 0x085, 0x11, 0x12, 0x13, 0x8008⟩) ∧
    decodeTableWord 64 0xB70D215149330008 = some (.amoFadd ⟨0, false, 6, true, 0x085, 0x11, 0x12, 0x13, 0x30008⟩) ∧
    decodeTableWord 64 0xB80D215149358008 = some (.amoFmin ⟨0, false, 6, true, 0x085, 0x11, 0x12, 0x13, 0x58008⟩) ∧
    decodeTableWord 64 0xB90D215149368008 = some (.amoFmax ⟨0, false, 6, true, 0x085, 0x11, 0x12, 0x13, 0x68008⟩) ∧
    decodeTableWord 64 0xBA09215149390000 = some (.cas ⟨0, false, 4, true, 0x085, 0x11, 0x12, 0x13, 0x90000⟩) ∧
    decodeTableWord 64 0xBB0A215149300010 = some (.cas2 ⟨0, false, 5, false, 0x085, 0x11, 0x12, 0x13, 0x10⟩) := by
  decide +kernel

/-- The words of the engines family as R295–R304 lay them out. -/
theorem test_decodes_engines :
    decodeTableWord 64 0xC000F07FF8000000 = some (.mm ⟨0, false, 0, 0, 15, 0x1, 0x3FF, 0x20, 0, 0x0⟩) ∧
    decodeTableWord 64 0xC101E08854040000 = some (.acczero ⟨0, false, 0, 1, 14, 0x2, 0x085, 0x10, 1, 0x0⟩) ∧
    decodeTableWord 64 0xC200D13FF2080000 = some (.accld ⟨0, false, 0, 0, 13, 0x4, 0x3FF, 0x8, 2, 0x0⟩) ∧
    decodeTableWord 64 0xC321C208510C0004 = some (.accst ⟨0, true, 0, 1, 12, 0x8, 0x085, 0x4, 3, 0x4⟩) ∧
    decodeTableWord 64 0xC400B43FF0900000 = some (.copy ⟨0, false, 0, 0, 11, 0x10, 0x3FF, 0x2, 4, 0x0⟩) ∧
    decodeTableWord 64 0xC501A80850540000 = some (.gath ⟨0, false, 0, 1, 10, 0x20, 0x085, 0x1, 5, 0x0⟩) ∧
    decodeTableWord 64 0xC620907FF81A0007 = some (.gathw ⟨0, true, 0, 0, 9, 0x1, 0x3FF, 0x20, 6, 0x20007⟩) ∧
    decodeTableWord 64 0xC7018088541C0000 = some (.scat ⟨0, false, 0, 1, 8, 0x2, 0x085, 0x10, 7, 0x0⟩) ∧
    decodeTableWord 64 0xC800713FF2200000 = some (.scatadd ⟨0, false, 0, 0, 7, 0x4, 0x3FF, 0x8, 8, 0x0⟩) ∧
    decodeTableWord 64 0xC92162085124000A = some (.tblswap ⟨0, true, 0, 1, 6, 0x8, 0x085, 0x4, 9, 0xA⟩) ∧
    decodeTableWord 64 0xCA00543FF0A80000 = some (.cbload ⟨0, false, 0, 0, 5, 0x10, 0x3FF, 0x2, 10, 0x0⟩) ∧
    decodeTableWord 64 0xCB014808506C0000 = some (.coll ⟨0, false, 0, 1, 4, 0x20, 0x085, 0x1, 11, 0x0⟩) ∧
    decodeTableWord 64 0xCC20307FF832000D = some (.osend ⟨0, true, 0, 0, 3, 0x1, 0x3FF, 0x20, 12, 0x2000D⟩) ∧
    decodeTableWord 64 0xCD01208854340000 = some (.orecv ⟨0, false, 0, 1, 2, 0x2, 0x085, 0x10, 13, 0x0⟩) ∧
    decodeTableWord 64 0xCE00113FF2380000 = some (.xsend ⟨0, false, 0, 0, 1, 0x4, 0x3FF, 0x8, 14, 0x0⟩) ∧
    decodeTableWord 64 0xCF210208513E0010 = some (.xget ⟨0, true, 0, 1, 0, 0x8, 0x085, 0x4, 15, 0x20010⟩) ∧
    decodeTableWord 64 0xD000F43FF0800000 = some (.enghnd ⟨0, false, 0, 0, 15, 0x10, 0x3FF, 0x2, 0, 0x0⟩) ∧
    decodeTableWord 64 0xD102003FF01C0000 = some (.eng ⟨0, false, 0, 2, 0, 0x0, 0x3FF, 0x0, 7, 0x0⟩) ∧
    decodeTableWord 64 0xD221000850018001 = some (.qwait ⟨0, true, 0, 1, 0, 0x0, 0x085, 0x0, 0, 0x18001⟩) := by
  decide +kernel

/-- The words of the system family as R295–R304 lay them out. -/
theorem test_decodes_system :
    decodeTableWord 64 0xE0032140000ABCD3 = some (.bar ⟨0, 3, 0x085, 0x000, 0xABCD3⟩) ∧
    decodeTableWord 64 0xE10521400000000F = some (.bara ⟨0, 5, 0x085, 0x000, 0xF⟩) ∧
    decodeTableWord 64 0xE202214000000007 = some (.barw ⟨0, 2, 0x085, 0x000, 0x7⟩) ∧
    decodeTableWord 64 0xE300214000000000 = some (.tnow ⟨0, 0, 0x085, 0x000, 0x0⟩) ∧
    decodeTableWord 64 0xE400214000000000 = some (.attime ⟨0, 0, 0x085, 0x000, 0x0⟩) ∧
    decodeTableWord 64 0xE501214000000000 = some (.elease ⟨0, 1, 0x085, 0x000, 0x0⟩) ∧
    decodeTableWord 64 0xE603214000000000 = some (.equery ⟨0, 3, 0x085, 0x000, 0x0⟩) ∧
    decodeTableWord 64 0xE700214003FFFFFF = some (.yield ⟨0, 0, 0x085, 0x000, 0x3FFFFFF⟩) ∧
    decodeTableWord 64 0xF000214140000001 = some (.rdsr ⟨0, 0, 0x085, 0x050, 0x1⟩) ∧
    decodeTableWord 64 0xF100214080000000 = some (.wrsr ⟨0, 0, 0x085, 0x020, 0x0⟩) ∧
    decodeTableWord 64 0xF200FFC002000001 = some (.trap ⟨0, 0, 0x3FF, 0x000, 0x2000001⟩) ∧
    decodeTableWord 64 0xF301FFC000000003 = some (.brk ⟨0, 1, 0x3FF, 0x000, 0x3⟩) ∧
    decodeTableWord 64 0xF4002140000000FE = some (.hcall ⟨0, 0, 0x085, 0x000, 0xFE⟩) ∧
    decodeTableWord 64 0xF50121400000001F = some (.fpcset ⟨0, 1, 0x085, 0x000, 0x1F⟩) ∧
    decodeTableWord 64 0xF600004000000000 = some (.ckpt ⟨0, 0, 0x001, 0x000, 0x0⟩) ∧
    decodeTableWord 64 0xF70021400000003D = some (.event ⟨0, 0, 0x085, 0x000, 0x3D⟩) := by
  decide +kernel

/-! ### Results -/

/-- R312–R314: mov keeps 64 bits, const takes f32 bits [31:4] and both elements of a pair, three steps build
0x0123456789ABCDEF, and null sends a null. -/
theorem test_moves :
    val (.mov (fa 0 0)) 0xFEDCBA9876543210 0 0 = [0xFEDCBA9876543210] ∧ val (.const ⟨0, false, 4, 0, 1, 0x3FF, 0x3FC0000⟩) 0 0 0 = [0x3FC00000] ∧
    val (.const ⟨0, false, 0, 0, 1, 0x3FF, 0xFFFFFFF⟩) 0 0 0 = [0xFFFFFFFFFFFFFFFF] ∧ val (.const ⟨0, false, 5, 0, 1, 0x3FF, 0x3F80⟩) 0 0 0 = [0x3F803F80] ∧
    val (.consth ⟨0, false, 3, 0, 1, 0x3FF, 0x2345678⟩) 1 0 0 = [0x12345678] ∧
    val (.consth ⟨0, false, 3, 0, 1, 0x3FF, 0x9ABCDEF⟩) 0x12345678 0 0 = [0x0123456789ABCDEF] ∧
    sentBy (exec (.null (fa 0 0)) (withOps 5 0 0)) = [(.null, 0)] ∧ val (.mov4 ⟨0, 1, 0x081, 0x3FF, 0x101⟩) 7 0 0 = [7, 7, 7] ∧
    val (.read ⟨0, false, 0, 0, 1, 0x3FF, 3⟩) 0 0 0 = [0] := by decide +kernel

/-- R316: the examples at the borders, a wrap, and the exact sum of mad.sat. -/
theorem test_integer :
    val (.add (fa 0 0)) 0x7FFFFFFF 1 0 = [0xFFFFFFFF80000000] ∧ val (.add (fa 1 0)) 0xFFFFFFFF 1 0 = [0] ∧ val (.add (fa 0 1)) 0x7FFFFFFF 1 0 = [0x7FFFFFFF] ∧
    val (.sub (fa 1 1)) 1 2 0 = [0] ∧ val (.sub (fi 0 0 0xFFFFFFF)) 1 0 0 = [2] ∧
    val (.mul (fa 0 0)) 0x80000000 0x80000000 0 = [0] ∧ val (.mulh (fa 0 0)) 0x80000000 0x80000000 0 = [0x40000000] ∧
    val (.mulh (fa 2 0)) 0xFFFFFFFFFFFFFFFF 1 0 = [0xFFFFFFFFFFFFFFFF] ∧ val (.mad (fa 1 1)) 0xFFFFFFFF 2 3 = [0xFFFFFFFF] ∧ val (.mad (fa 1 0)) 3 4 5 = [17] ∧
    val (.neg (fa 0 0)) 0x80000000 0 0 = [0xFFFFFFFF80000000] ∧ val (.neg (fa 0 1)) 0x80000000 0 0 = [0x7FFFFFFF] ∧
    val (.neg (fa 1 0)) 1 0 0 = [0xFFFFFFFF] ∧ val (.neg (fa 1 1)) 1 0 0 = [0] ∧
    val (.abs (fa 0 0)) 0x80000000 0 0 = [0xFFFFFFFF80000000] ∧ val (.abs (fa 0 1)) 0x80000000 0 0 = [0x7FFFFFFF] ∧
    val (.min (fa 0 0)) 0xFFFFFFFF 1 0 = [0xFFFFFFFFFFFFFFFF] ∧ val (.max (fa 1 0)) 0xFFFFFFFF 1 0 = [0xFFFFFFFF] := by decide +kernel

/-- R317: its table. -/
theorem test_division :
    val (.div (fa 0 0)) 0xFFFFFFF9 2 0 = [0xFFFFFFFFFFFFFFFD] ∧ val (.rem (fa 0 0)) 0xFFFFFFF9 2 0 = [0xFFFFFFFFFFFFFFFF] ∧
    val (.rem (fa 0 0)) 7 0xFFFFFFFE 0 = [1] ∧ val (.div (fa 1 0)) 0xFFFFFFF9 2 0 = [0x7FFFFFFC] ∧ val (.div (fa 0 0)) 5 0 0 = [0xFFFFFFFFFFFFFFFF] ∧
    val (.rem (fa 0 0)) 5 0 0 = [5] ∧ val (.div (fa 2 0)) 0x8000000000000000 0xFFFFFFFFFFFFFFFF 0 = [0x8000000000000000] ∧
    val (.rem (fa 2 0)) 0x8000000000000000 0xFFFFFFFFFFFFFFFF 0 = [0] ∧ val (.div (fa 1 0)) 5 0 0 = [0xFFFFFFFF] := by decide +kernel

/-- R318, R319: the bitwise results, and the shifts at the borders. -/
theorem test_logic :
    val (.and (fa 1 0)) 0xC 0xA 0 = [8] ∧ val (.or (fa 1 0)) 0xC 0xA 0 = [0xE] ∧ val (.xor (fa 1 0)) 0xC 0xA 0 = [6] ∧ val (.andn (fa 1 0)) 0xC 0xA 0 = [4] ∧
    val (.orn (fa 1 0)) 0xC 0xA 0 = [0xFFFFFFFD] ∧ val (.not (fa 0 0)) 0 0 0 = [0xFFFFFFFFFFFFFFFF] ∧
    val (.shl (fa 0 0)) 1 31 0 = [0xFFFFFFFF80000000] ∧ val (.shl (fa 1 0)) 1 32 0 = [1] ∧ val (.shr (fa 0 0)) 0x80000000 1 0 = [0x40000000] ∧
    val (.sha (fa 1 0)) 0x80000000 4 0 = [0xF8000000] ∧ val (.sha (fa 0 0)) 0xFFFFFFFF 31 0 = [0xFFFFFFFFFFFFFFFF] ∧
    val (.rot (fa 1 0)) 0x80000001 1 0 = [3] ∧ val (.rot (fa 1 1)) 0x80000001 1 0 = [0xC0000000] ∧ val (.rot (fa 3 1)) 5 0 0 = [5] := by decide +kernel

/-- R320–R323: the counts at 0, the worked fields of R321, extension at 0 and at the width, selection in 64 bits, and
comparison by type. -/
theorem test_bits_and_compare :
    val (.clz (fa 1 0)) 0 0 0 = [32] ∧ val (.clz (fa 3 0)) 1 0 0 = [63] ∧ val (.ctz (fa 1 0)) 8 0 0 = [3] ∧ val (.ctz (fa 2 0)) 0 0 0 = [64] ∧
    val (.popc (fa 0 0)) 0xFF000000F0 0 0 = [4] ∧ val (.brev (fa 1 0)) 1 0 0 = [0x80000000] ∧
    val (.bfx (fi 1 0 0x0804)) 0xABCD 0 0 = [0xBC] ∧ val (.bfx (fi 0 0 0x1418)) 0x80000000 0 0 = [0xFFFFFFFFFFFFFF80] ∧
    val (.bfi (fi 1 0 0x0804)) 0xABCD 0 0x12 = [0xA12D] ∧ val (.bfi (fi 1 0 0x0004)) 0xABCD 0 0x12 = [0xABCD] ∧
    val (.sext (fi 0 0 8)) 0x80 0 0 = [0xFFFFFFFFFFFFFF80] ∧ val (.sext (fi 0 0 0)) 5 0 0 = [0] ∧ val (.zext (fi 1 0 4)) 0xFF 0 0 = [0xF] ∧ val (.zext (fi 1 0 32)) 0xFF 0 0 = [0xFF] ∧
    val (.sel (fa 1 0)) 1 2 0x100000000 = [1] ∧ val (.sel (fa 1 0)) 1 2 0 = [2] ∧
    val (.cmp false (fa 1 2)) 0xFFFFFFFF 0 0 = [0] ∧ val (.cmp false (fa 0 2)) 0xFFFFFFFF 0 0 = [1] ∧ val (.cmp true (fa 0 0)) 1 0 0 = [1] ∧ val (.cmp true (fa 0 1)) 0 1 0 = [0] ∧
    val (.tst (fa 1 0)) 6 2 0 = [1] ∧ val (.tst (fa 1 1)) 6 1 0 = [1] := by decide +kernel

/-- R325, R326: the worked sums, in and out of the half of a, and canon's three forms. -/
theorem test_addresses :
    val (.adda (fa 0 1)) 0x00FFFFFFFFFFFFF0 0x20 0 = [0x0100000000000010] ∧
    haltedBy (exec (.adda (fa 0 0)) (withOps 0x00FFFFFFFFFFFFF0 0x20 0)) = some (F_NONCANON, 0x00FFFFFFFFFFFFF0, 0x20) ∧
    haltedBy (exec (.adda (fa 0 0)) (withOps 0xFF00000000000010 0xFFFFFFFFFFFFFFE0 0)) = some (F_NONCANON, 0xFF00000000000010, 0xFFFFFFFFFFFFFFE0) ∧
    val (.adda (fa 0 0)) 0xFF00000000000010 0xFFFFFFFFFFFFFFF0 0 = [0xFF00000000000000] ∧
    val (.lea (fa 0 3)) 0x1000 0xFFFFFFFFFFFFFFFF 0 = [0x0FF8] ∧
    haltedBy (exec (.lea (fa 0 3)) (withOps 4 0xFFFFFFFFFFFFFFFF 0)) = some (F_NONCANON, 4, 0xFFFFFFFFFFFFFFF8) ∧
    val (.alignd (fa 0 0)) 0x12345 64 0 = [0] ∧ val (.alignd (fi 0 1 4)) 0x12345 0 0 = [5] ∧
    val (.canon (fa 0 0)) 0x0100000000000000 0 0 = [0] ∧ val (.canon (fa 0 1)) 0x0100000000000000 0 0 = [0xFF00000000000000] ∧
    haltedBy (exec (.canon (fa 0 2)) (withOps 0x0100000000000000 0 0)) = some (F_NONCANON, 0x0100000000000000, 0) := by decide +kernel

/-- R331–R338: invalid operations, divisions by zero, the sign of a zero, the forms of fmin, fround's examples, a class, a
relation with a NaN, and the worked sum of fdot2. -/
theorem test_floating :
    valFl (.fadd (fa 4 0)) 0x3F800000 0x40000000 0 = ([0x40400000], 0) ∧ valFl (.fadd (fa 4 0)) 0x7F800000 0xFF800000 0 = ([0x7FC00000], 1) ∧
    valFl (.fsub (fa 5 0)) 0x3F803F80 0x3F804000 0 = ([0x0000BF80], 0) ∧ valFl (.fmul (fa 4 0)) 0 0xFF800000 0 = ([0x7FC00000], 1) ∧
    valFl (.fma (fa 4 0)) 0 0x7F800000 0x7FC00000 = ([0x7FC00000], 1) ∧ valFl (.fdiv (fa 4 0)) 0x3F800000 0x80000000 0 = ([0xFF800000], 2) ∧
    valFl (.fsqrt (fa 4 0)) 0x80000000 0 0 = ([0x80000000], 0) ∧ valFl (.fsqrt (fa 4 0)) 0xBF800000 0 0 = ([0x7FC00000], 1) ∧
    valFl (.fmin (fa 4 0)) 0 0x80000000 0 = ([0x80000000], 0) ∧ valFl (.fmin (fa 4 1)) 0x7FC00000 0x40400000 0 = ([0x7FC00000], 0) ∧
    valFl (.fmax (fa 4 0)) 0x7FC00000 0x40400000 0 = ([0x40400000], 0) ∧ valFl (.fabs (fa 4 0)) 0xFF800001 0 0 = ([0x7FC00000], 0) ∧
    valFl (.fneg (fa 6 0)) 0x3C000000 0 0 = ([0xBC008000], 0) ∧ valFl (.fcpsgn (fa 4 0)) 0x3F800000 0xFFC00000 0 = ([0xBF800000], 0) ∧
    valFl (.fround (fa 4 0)) 0x40200000 0 0 = ([0x40000000], 0) ∧ valFl (.fround (fa 4 1)) 0xBF000000 0 0 = ([0x80000000], 0) ∧
    valFl (.fclass (fa 4 0)) 1 0 0 = ([0x20], 0) ∧ valFl (.fcmp false (fa 4 1)) 0x7FC00000 0 0 = ([0], 1) ∧ valFl (.fcmp true (fa 4 0)) 0x7FC00000 0 0 = ([1], 0) ∧
    valFl (.fdot2 (fa 5 0)) 0x33803380 0x3F803F80 0x3F800000 = ([0x3F800001], 0) := by decide +kernel

/-- R334: the boundary results of fexp2 and frcp, and exact values of the others. -/
theorem test_special_functions :
    valFl (.fexp2 (fa 4 0)) 0x43000000 0 0 = ([0x7F800000], 0x14) ∧ valFl (.fexp2 (fa 4 0)) 0xC3150000 0 0 = ([1], 0) ∧
    valFl (.fexp2 (fa 4 0)) 0xC3160000 0 0 = ([0], 0x18) ∧ valFl (.frcp (fa 4 0)) 0x7F7FFFFF 0 0 = ([0x00200000], 0x18) ∧
    valFl (.frsq (fa 4 0)) 0x40800000 0 0 = ([0x3F000000], 0) ∧ valFl (.flog2 (fa 4 0)) 0x41000000 0 0 = ([0x40400000], 0) ∧
    valFl (.ftanh (fa 4 0)) 0x80000000 0 0 = ([0x80000000], 0) ∧ valFl (.ftanh (fa 4 0)) 0x7F800000 0 0 = ([0x3F800000], 0) := by decide +kernel

/-- R340–R344: the tables of cvtfi and of fcvt to f16, the roundings of cvtif, and the examples of fwid and pack2. -/
theorem test_conversion :
    valFl (.cvtfi (fa 0 1)) 0xC0200000 0 0 = ([0xFFFFFFFFFFFFFFFE], 0x10) ∧ valFl (.cvtfi (fa 0 3)) 0xC0200000 0 0 = ([0xFFFFFFFFFFFFFFFD], 0x10) ∧
    valFl (.cvtfi (fa 1 2)) 0xBF000000 0 0 = ([0], 0x10) ∧ valFl (.cvtfi (fa 1 2)) 0xBF800000 0 0 = ([0], 1) ∧
    valFl (.cvtfi (fa 0 1)) 0x4F32D05E 0 0 = ([0x7FFFFFFF], 1) ∧ valFl (.cvtfi (fa 2 1)) 0xFF800000 0 0 = ([0x8000000000000000], 1) ∧
    valFl (.cvtif (fa 4 0)) 16777217 0 0 = ([0x4B800000], 0x10) ∧ valUnder 3 (.cvtif (fa 4 0)) 16777217 0 0 = ([0x4B800001], 0x10) ∧
    valFl (.fcvt (fa 6 0)) 0x477FF000 0 0 = ([0x7BFF], 0x34) ∧ valFl (.fcvt (fa 6 1)) 0x477FF000 0 0 = ([0x7C00], 0x34) ∧
    valFl (.fcvt (fa 6 2)) 0x477FF000 0 0 = ([0x7E00], 0x34) ∧ (haltedBy (exec (.fcvt (fa 6 3)) (withOps 0x477FF000 0 0))).map (·.1) = some F_CVTOVF ∧
    valUnder 1 (.fcvt (fa 6 3)) 0x477FF000 0 0 = ([0x7BFF], 0x10) ∧
    valFl (.fwid (fa 6 1)) 0x3C000001 0 0 = ([0x3F800000], 0) ∧ valFl (.fwid (fa 6 0)) 0x3C000001 0 0 = ([0x33800000], 0) ∧
    valUnder 4 (.fwid (fa 6 0)) 0x3C000001 0 0 = ([0], 0x40) ∧ valFl (.pack2 (fa 5 0)) 0x3F80 0xC000 0 = ([0xC0003F80], 0) ∧
    val (.unpack ⟨0, false, 6, 0, 1, 0x081, 0⟩) 0x3C000001 0 0 = [0x33800000, 0x3F800000] := by decide +kernel

/-! ### Witnesses: encoding and the plain families -/

/-- The decoder reads the word as the instruction, by evaluation. -/
def reads (w : Word) (i : Instr) : Bool :=
  match decodeWord w with
  | .ok j => decide (j = i)
  | .error _ => false

/-- What evaluation finds holds. -/
theorem decoded {w : Word} {i : Instr} (h : reads w i = true) : decodeWord w = .ok i := by
  unfold reads at h
  cases hd : decodeWord w with
  | error e => rw [hd] at h; simp at h
  | ok j => rw [hd] at h; simp at h; rw [h]

theorem witness_EncodeThenDecode : (Instr.sub ⟨1, true, 0, 0, 0x006, 0x205, 0⟩).wellFormed = true ∧
    encode (.sub ⟨1, true, 0, 0, 0x006, 0x205, 0⟩) = some 0x116001A050000000 := by decide +kernel

theorem witness_DecodeThenEncode : decodeWord 0x116001A050000000 = .ok (.sub ⟨1, true, 0, 0, 0x006, 0x205, 0⟩) :=
  decoded (by decide +kernel)

theorem witness_MovesDeliver : Acts 0 (withOps 1 2 3) ∧ readReg (withOps 1 2 3) 63 = some 0 ∧ readSoft (withOps 1 2 3) 7 = some 0 := by
  decide +kernel

/-- A divisor of 0 and one that is not. -/
theorem witness_IntegerArithmetic : Acts 0 (withOps 7 2 0) ∧ yOf (fa 0 0) (withOps 7 2 0) ≠ 0 ∧
    Acts 0 (withOps 7 0 0) ∧ yOf (fa 0 0) (withOps 7 0 0) = 0 := by decide +kernel

theorem witness_LogicAndShifts : Acts (fa 1 0).pr (withOps 1 2 3) ∧ (fa 1 0).md = 0 ∧ (fa 1 1).md = 1 := by decide +kernel

/-- Fields at 32, where they are empty, and at 31; counts of 0, 1, 31 and 32. -/
theorem witness_FieldsAndComparisons :
    let len := fun (b : Word) => (let pos := fld (bOf64 (fa 1 0) (withOps 1 b 0)) 0 6
      if wOf (fa 1 0) ≤ pos then 0 else min (fld (bOf64 (fa 1 0) (withOps 1 b 0)) 8 7) (wOf (fa 1 0) - pos))
    len 0x0120 = 0 ∧ len 0x001F = 0 ∧ len 0x011F = 1 ∧ len 0x7F00 = 32 ∧ wOf (fa 1 0) = 32 ∧
    fld (opB (withOps 1 0 0)) 0 7 = 0 ∧ fld (opB (withOps 1 1 0)) 0 7 = 1 ∧ fld (opB (withOps 1 31 0)) 0 7 = 31 ∧ fld (opB (withOps 1 32 0)) 0 7 = 32 ∧
    Acts 0 (withOps 1 32 0) := by decide +kernel

/-- The last sum in the half of a, and the first out of it. -/
theorem witness_AddressForms :
    Acts 0 (withOps 0x00FFFFFFFFFFFFFF 0 0) ∧ sb (fa 0 0) (withOps 0x00FFFFFFFFFFFFFF 1 0) = 1 ∧ inHalf 0x00FFFFFFFFFFFFFF 0x00FFFFFFFFFFFFFF = true ∧
    inHalf 0x00FFFFFFFFFFFFFF 0x0100000000000000 = false ∧ inHalf 0xFF00000000000000 0xFEFFFFFFFFFFFFFF = false ∧
    canon 0x00FFFFFFFFFFFFFF = true ∧ canon 0x0100000000000000 = false ∧ canon 0xFF00000000000000 = true := by decide +kernel

theorem witness_FloatResults : Acts 0 (withOps 1 2 3) ∧ curCtl (withOps 1 2 3) = some ⟨0, false, 0⟩ := by decide +kernel

/-- 65,519 narrows to f16 under the trapping policy, 65,520 does not. -/
theorem witness_Conversions : Acts 0 (withOps 0x477FEF00 0 0) ∧ curCtl (withOps 0x477FEF00 0 0) = some ⟨0, false, 0⟩ ∧
    narrowF f16 0 false 3 0x477FEF00 = some (0x7BFF, 16) ∧ narrowF f16 0 false 3 0x477FF000 = none ∧
    cvtifF f16 0 3 65519 = some (0x7BFF, 16) ∧ cvtifF f16 0 3 65520 = none := by decide +kernel

/-- Every type, the most negative value by -1, and zero. -/
theorem witness_IntegerDivision :
    Acts (fa 0 0).pr (withOps 0x80000000 0xFFFFFFFF 0) ∧ (fa 0 0).md = 0 ∧ (fa 3 0).ty.toNat < 4 ∧ xOf (fa 0 0) (withOps 0x80000000 0xFFFFFFFF 0) = -2 ^ 31 ∧
    yOf (fa 0 0) (withOps 0x80000000 0xFFFFFFFF 0) = -1 ∧ yOf (fa 0 0) (withOps 0x80000000 0 0) = 0 ∧ yOf (fa 0 0) (withOps 0x80000000 1 0) = 1 ∧
    tySgn 0 = true ∧ yOf (fa 3 0) (withOps 0x80000000 0xFFFFFFFFFFFFFFFF 0) = 2 ^ 64 - 1 := by decide +kernel

/-- Operands, a null on a, and an instruction without a target. -/
theorem witness_MovesCopy : Acts 0 (withOps 1 0 0) ∧
    (let s := { base with cur := { instOf 0 0 0 0 with a := some ⟨.null, 0⟩ } }; anyEos s.cur = false ∧ anyNull s.cur = true) ∧
    (⟨0, false, 0, 0, 0x3FF, 0x3FF, 0⟩ : AFmt).t0 = nullT ∧ (⟨0, 0x3FF, 0x3FF, 0x3FF, 0x3FF⟩ : FFmt).t3 = nullT := by decide +kernel

/-- Counts of 0, 56 and 64, and a canonical address in either half and one that is not. -/
theorem witness_AlignmentAndCanon :
    let n := fun (b : Word) => min (opB (withOps 0 b 0)).toNat 64
    n 0 = 0 ∧ n 56 = 56 ∧ n 0xFFFFFFFFFFFFFFFF = 64 ∧ Acts 0 (withOps 0 64 0) ∧ canon (opA (withOps 0xFFFFFFFFFFFFFFFF 64 0)).toNat = true ∧
    canon (opA (withOps 0x0100000000000000 0 0)).toNat = false := by decide +kernel

/-- Data, a marker, a null and a predicate that does not hold. -/
theorem witness_ShellFirst :
    let s := fun (a p : Option Operand) => { base with cur := { instOf 0 0 0 0 with a := a, p := p } }
    shelled (.add ⟨1, false, 0, 0, 1, 0x3FF, 0⟩) = some (1, [1, 0x3FF]) ∧ anyEos (s (some ⟨.eos, 0⟩) none).cur = true ∧
    (anyEos (s (some ⟨.null, 0⟩) none).cur = false ∧ anyNull (s (some ⟨.null, 0⟩) none).cur = true) ∧
    (anyEos (s (dat 1) (dat 0)).cur = false ∧ anyNull (s (dat 1) (dat 0)).cur = false ∧ opP (s (dat 1) (dat 0)) = 0) ∧ opP (s (dat 1) (dat 1)) ≠ 0 := by
  decide +kernel

theorem witness_ComputingLeaves : (shelled (.add (fa 0 0))).isSome = true ∧ MemInv (withOps 1 2 3) ∧ ∃ t, exec (.add (fa 0 0)) (withOps 1 2 3) = .next t :=
  ⟨by decide +kernel, ⟨rfl, rfl, rfl⟩, _, rfl⟩

/-! ### Steering, waves and reductions -/

/-- The context at cell 0 of bay 0 whose routes lead to slot a of cell 1, with the word w. -/
def ctx0 (w : Word) : Ctx :=
  { bay := 0, cell := 0, ctx := 0, region := 0, iw := w, rw := 0x0400040004000400, pw := 0, q := [0, 0, 0, 0], copy := [], bad := false, copyBad := false,
    ph := 0, cn := 0, pend := none, disc := 0, loops := [], merges := [], red := ⟨none, none, 0, none, []⟩ }

/-- A region of bay 0 that runs, of 16 cells in a row, with two entries and one exit port that leads to entry 5. -/
def region0 : Region :=
  { part := 0, bay := 0, idx := 0, x0 := 0, y0 := 0, w := 16, h := 1, c0 := 0, c := 1, entryBase := 0, ne := 2, nx := 1, ck := false, image := 0x8000, sig := 0,
    exits := [0x8000000000000285], flags := 0, closed := false, residue := 0, ords := [], phase := .run, fault := none, faulting := [], faultAt := 0, rank := [], admNo := 0, planes := [],
    ckpt := none, exitHold := [], entryLog := [], streams := [], kvc := [], key := 0, name := (0, 0), progress := 0 }

/-- An instance of that context. -/
def gridInst (a b c : Option Operand) : Inst := { Inst.empty with grid := some 0, a := a, b := b, c := c }

/-- That region holds the context, and the instance runs. -/
def inGrid (k : Ctx) (i : Inst) : State := { base with regions := [region0], ctxs := [k], cur := i }

/-- A grid A word of type ty, variant md and IMM m, that names route 0. -/
def ga (ty : BitVec 3) (md : BitVec 2) (m : BitVec 28) : AFmt := ⟨0, false, ty, md, 0, 0x3FF, m⟩

/-- The wave, kind and data of each token sent. -/
def wavesBy : Res → List (BitVec 8 × Kind × Word)
  | .next t => t.net.map fun x => (x.tok.tag.wave, x.tok.kind, x.tok.data)
  | _ => []

/-- A token of wave w on slot a. -/
def wave (w : BitVec 8) (o : Operand) : Inst := { gridInst (some o) none none with tag := ⟨0, w, 0⟩ }

/-- R350, R351, R356: both arms of steer under both predicates; gate; a marker. -/
theorem test_steering :
    let s := fun (p : Word) => { withOps 7 1 0 with cur := { instOf 0 7 1 0 with p := dat p } }
    let goes := fun (r : Res) => (match r with | .next t => t.net.map (fun x => x.toward) | _ => [])
    goes (exec (.steer ⟨1, false, 0, 0, 0x001, 0x002, 0⟩) (s 1)) = [.dest 1] ∧ goes (exec (.steer ⟨1, false, 0, 0, 0x001, 0x002, 0⟩) (s 0)) = [.dest 2] ∧
    goes (exec (.steer ⟨2, false, 0, 0, 0x001, 0x002, 0⟩) (s 1)) = [.dest 2] ∧ goes (exec (.steer ⟨2, false, 0, 0, 0x001, 0x002, 0⟩) (s 0)) = [.dest 1] ∧
    sentBy (exec (.gate (fa 0 0)) (withOps 7 0x8000000000000000 0)) = [(.data, 7)] ∧ sentBy (exec (.gate (fa 0 0)) (withOps 7 0 0)) = [(.null, 0)] ∧
    sentBy (exec (.join (fa 0 1)) (withOps 7 0 0)) = [(.data, 7)] ∧ sentBy (exec (.eos (fa 0 0)) (withOps 7 0 0)) = [(.eos, 0)] ∧
    sentBy (exec (.eosq ⟨0, false, 0, 0, 0x3FF, 0x001, 0⟩) { base with cur := { instOf 0 0 0 0 with a := some ⟨.eos, 0⟩ } }) = [(.data, 1)] := by decide +kernel

/-- R352–R354: merge.o delivers wave START first and then the next, and holds back another; wadv wraps; kbound admits k waves
and no more; wreset gives the wave back under which the loop was entered. -/
theorem test_waves :
    wavesBy (exec (.mergeU (ga 0 0 0)) (inGrid (ctx0 0) (wave 9 ⟨.null, 0⟩))) = [(9, .null, 0)] ∧
    wavesBy (exec (.mergeO (ga 0 0 0)) (inGrid (ctx0 0x7200000000000000) (wave 0 ⟨.data, 5⟩))) = [(0, .data, 5)] ∧
    wavesBy (exec (.mergeO (ga 0 0 0)) (inGrid (ctx0 0x7200000000000000) (wave 1 ⟨.data, 5⟩))) = [] ∧
    wavesBy (exec (.mergeO (ga 0 0 0)) (inGrid { ctx0 0x7200000000000000 with merges := [(0, 0)] } (wave 1 ⟨.data, 5⟩))) = [(1, .data, 5)] ∧
    wavesBy (exec (.wadv (ga 0 0 0)) (inGrid (ctx0 0) (wave 255 ⟨.data, 5⟩))) = [(0, .data, 5)] ∧
    wavesBy (exec (.kbound (ga 0 0 1)) (inGrid (ctx0 0x7800000000000001) (wave 3 ⟨.data, 5⟩))) = [(3, .data, 5)] ∧
    wavesBy (exec (.kbound (ga 0 0 1)) (inGrid { ctx0 0x7800000000000001 with loops := [⟨0, 3, 1, 0⟩] } (wave 4 ⟨.data, 5⟩))) = [] ∧
    wavesBy (exec (.wreset (ga 0 0 0)) (inGrid { ctx0 0x7800000000000001 with loops := [⟨0, 3, 1, 0⟩] } (wave 7 ⟨.data, 5⟩))) = [(3, .data, 5)] := by
  decide +kernel

/-- R355: a marker on an empty reduction gives the identity and then a marker; a value is taken, saturating nothing. -/
theorem test_reductions :
    wavesBy (exec (.red (ga 0 2 0)) (inGrid (ctx0 0) (wave 0 ⟨.eos, 0⟩))) = [(0, .data, 0x7FFFFFFF), (0, .eos, 0)] ∧
    wavesBy (exec (.red (ga 1 3 0)) (inGrid (ctx0 0) (wave 0 ⟨.eos, 0⟩))) = [(0, .data, 0), (0, .eos, 0)] ∧
    wavesBy (exec (.red (ga 0 0 0)) (inGrid { ctx0 0 with red := ⟨some 0, none, 1, some 5, []⟩ } (wave 1 ⟨.eos, 0⟩))) = [(1, .data, 5), (1, .eos, 0)] ∧
    (match exec (.red (ga 0 0 0)) (inGrid { ctx0 0 with red := ⟨some 0, none, 1, some 5, []⟩ } (wave 1 ⟨.data, 4⟩)) with
      | .next t => (curCtx t).map (·.red) | _ => none) = some ⟨some 0, none, 2, some 9, []⟩ := by decide +kernel

theorem witness_SteeringAndJoining :
    Acts 0 (withOps 1 0 0) ∧ opB (withOps 1 0 0) = 0 ∧ opB (withOps 1 1 0) ≠ 0 ∧ opP { base with cur := { instOf 0 1 0 0 with p := dat 0 } } = 0 ∧
    isKind .eos (wave 0 ⟨.eos, 0⟩).a = true ∧ isKind .eos (withOps 1 0 0).cur.a = false := by decide +kernel

/-- Outside and in a deterministic partition, admitted and not, a marker, and a wreset whose kbound has a loop record. -/
theorem witness_WaveHeads :
    let s := inGrid { ctx0 0x7800000000000001 with loops := [⟨0, 3, 1, 0⟩] } (wave 3 ⟨.data, 5⟩)
    let c := { ctx0 0x7800000000000001 with loops := [⟨0, 3, 1, 0⟩] }
    let d := { s with parts := { part0 with det := true } :: List.replicate 63 Part.reset }
    curCtx s = some c ∧ isDet s 0 = false ∧ isDet d 0 = true ∧ mergeAdmits (ctx0 0x7200000000000000) (oneToken (wave 0 ⟨.data, 5⟩)) none = true ∧
    mergeAdmits (ctx0 0x7200000000000000) (oneToken (wave 1 ⟨.data, 5⟩)) none = false ∧ passes s.cur = false ∧ anyEos s.cur = false ∧
    anyEos (wave 3 ⟨.eos, 0⟩) = true ∧ kboundAdmits (ctx0 0) 1 s.cur.tag = true ∧ kboundAdmits c 1 ⟨0, 4, 0⟩ = false ∧
    ctx? s s.cur.bay (routeCell s.cur.cell 0) (fld (0 : BitVec 28) 0 3) = some c ∧ loopRec c s.cur.tag.frame = some ⟨0, 3, 1, 0⟩ := by decide +kernel

/-- A head that is put back, a marker and a value. -/
theorem witness_Reductions :
    let s := fun (w : BitVec 8) (k : Kind) => inGrid (ctx0 0) (wave w ⟨k, 0⟩)
    curCtx (s 0 .data) = some (ctx0 0) ∧ passes (s 0 .data).cur = false ∧ redAdmits (ctx0 0) false (oneToken (s 8 .data).cur) = false ∧
    redAdmits (ctx0 0) false (oneToken (s 7 .data).cur) = true ∧ redAdmits (ctx0 0) false (oneToken (s 0 .eos).cur) = true ∧
    (oneToken (s 0 .eos).cur).kind = .eos ∧ (oneToken (s 0 .data).cur).kind ≠ .eos := by decide +kernel

/-! ### Exits, calls and returns -/

/-- An X word of exit number or index 0 and variant md whose destination lies off words from the block. -/
def fx (md : BitVec 3) (off : BitVec 38) : XFmt := ⟨0, 0, md, 0x001, off⟩

/-- A younger block of the frame, fetched from a. -/
def block1 (a : Word) : Block := { block0 with seq := 1, addr := a, spec := true }

/-- A row in bay 0 was made: whether a start was accepted, and the frame that it gives. -/
def started (r : Except State State) : Bool :=
  match r with
  | .ok _ => true
  | .error _ => false

/-- The state behind the start. -/
def startOf (r : Except State State) : State :=
  match r with
  | .ok t => t
  | .error t => t

/-- What evaluation finds accepted is accepted. -/
theorem startOf_ok {r : Except State State} (h : started r = true) : r = .ok (startOf r) := by
  cases r with
  | ok t => rfl
  | error t => simp [started] at h

/-- R357, R361, R363: exit sends the address behind its block and records where it leads, 8 times the offset from the block, and
discards a younger block that stands elsewhere; a second exit and a second return fault. -/
theorem test_exits :
    let s := withOps 1 0 0
    let r := exec (.exit (fx 0 2)) s
    sentBy r = [(.data, 0x4020)] ∧ (match r with | .next t => (curBlock t).map (·.exit) | _ => none) = some (some ⟨0, some 0x4010⟩) ∧
    (match exec (.exit (fx 2 0)) s with | .next t => (curBlock t).map (·.exit) | _ => none) = some (some ⟨0, none⟩) ∧
    (match exec (.exit (fx 0 2)) { s with blocks := [block0, block1 0x5000] } with | .next t => t.blocks.length | _ => 0) = 1 ∧
    (match exec (.exit (fx 0 2)) { s with blocks := [block0, block1 0x4010] } with | .next t => t.blocks.length | _ => 0) = 2 ∧
    (haltedBy (exec (.exit (fx 0 2)) { s with blocks := [{ block0 with exit := some ⟨3, none⟩ }] })) = some (F_MULTIEXIT, 3, 0) ∧
    (haltedBy (exec (.ret (fa 0 0)) { s with blocks := [{ block0 with ret := some (0, some 9) }] })) = some (F_DUPTOK, 9, 1) ∧
    sentBy (exec (.joinc (fa 0 0)) { s with frames := [{ frame0 with jn := 4 }] }) = [(.data, 4)] ∧
    sentBy (exec (.joinc (fa 0 0)) { s with frames := [{ frame0 with cc := 1 }] }) = [] := by decide +kernel

/-- R360, R362: call starts frame 1 that links back and sends nothing yet; spawn counts its child and sends 1. -/
theorem test_calls :
    let t := nextOf (exec (.call (fx 0 0)) (withOps 7 0 0)) base
    let u := nextOf (exec (.spawn (fx 0 0)) (withOps 7 0 0)) base
    t.frames.length = 2 ∧ ((frame? t 0 1).bind (·.link)).map (·.tgt) = some 1 ∧ t.net.map (fun x => x.tok.data) = [7] ∧
    (frame? u 0 0).map (·.cc) = some 1 ∧ (frame? u 0 1).bind (·.parent) = some 0 ∧ u.net.map (fun x => x.tok.data) = [7, 1] := by decide +kernel

theorem witness_ExitsReturnsAndJoins :
    let s := withOps 1 0 0
    let young := fun (a : Word) => { s with blocks := [block0, block1 a] }
    anyEos s.cur = false ∧ anyNull s.cur = false ∧ predOk 0 s = true ∧ curBlock s = some block0 ∧ block0.exit = none ∧ block0.ret = none ∧
    youngerBlocks s 0 0 0 = [] ∧ youngerBlocks (young 0x5000) 0 0 0 = [block1 0x5000] ∧ xAddr (fx 0 0x200) false s = 0x5000 ∧
    curBlock { s with blocks := [{ block0 with exit := some ⟨3, none⟩, ret := some (0, none) }] } = some { block0 with exit := some ⟨3, none⟩, ret := some (0, none) } ∧
    Acts 0 s ∧ frame? s 0 (curFrame s) = some frame0 ∧ frame0.cc = 0 ∧
    (let g := inGrid (ctx0 0) (gridInst (dat 1) none none); Acts 0 g ∧ streamSettled g = true ∧
      streamSettled { g with waits := [{ gridInst (dat 0x5000) none none with word := 0x9800003E03E00000, stage := some 1 }] } = false) ∧
    frame? { s with frames := [{ frame0 with cc := 1 }] } 0 0 = some { frame0 with cc := 1 } ∧
    (let null : Option Operand := some ⟨.null, 0⟩; let i := s.cur;
      isKind .null { i with a := null }.a = true ∧ isKind .null { i with p := null }.p = true ∧ predOk 1 { s with cur := { i with p := dat 0 } } = false ∧
      (let j := { i with b := null }; isKind .null j.a = false ∧ isKind .null j.p = false ∧ predOk 0 { s with cur := j } = true ∧ isKind .null j.b = true ∧ anyEos j = false)) := by
  decide +kernel

/-- A frame is free and a row too, or none is free with 15 and with 16 waiting spawns, or the block is younger; in a deterministic
partition the name of the second word of kind call, and one past the last ordinal. -/
theorem witness_CallsAndSpawns :
    let s := withOps 1 0 0
    let full := { s with frames := (List.range 16).map fun n => { frame0 with num := n } }
    let d : SpawnRec := ⟨0, 0, some 0, 0, 0, 0, .a, 0, 0, 0, 0⟩
    (Acts 0 s ∧ curBlock s = some block0 ∧ frame? s s.cur.part (curFrame s) = some frame0 ∧ isDet s frame0.part = false ∧ curSettled s = true) ∧
    childName 0x0001000000000000 2 = some 0x0001020000000000 ∧ childName 0x0001000000000000 256 = none ∧
    (freeFrame s 0 = some 1 ∧ pickBay s 0 (some frame0.bay) = some 0 ∧ (∃ r, spawnRoom s 0 0 = .row r 1) ∧ frame0.cc < 0xFFFF ∧
      started (startFrame s { madeFrame s frame0 1 0 with link := some ⟨0, 0, 0, 0, 0, 1⟩ } 0 0x4000) = true) ∧
    (curSettled { s with blocks := [{ block0 with seq := 9 }, block0] } = false) ∧
    (freeFrame full 0 = none ∧ curBlock full = some block0 ∧ (deferredOf { full with deferred := List.replicate 15 d } 0).length = 15 ∧
      (deferredOf { full with deferred := List.replicate 16 d } 0).length = 16) :=
  ⟨by decide +kernel, by decide +kernel, by decide +kernel, ⟨by decide +kernel, by decide +kernel, ⟨withOps 1 0 0, rfl⟩, by decide +kernel, by decide +kernel⟩, by decide +kernel,
    by decide +kernel⟩

/-! ### Regions -/

/-- An answer that is no error. -/
def isOk {ε α : Type} (e : Except ε α) : Bool :=
  match e with
  | .ok _ => true
  | .error _ => false

/-- What evaluation finds answered is answered. -/
theorem answered {ε α : Type} {r : State × Except ε α} (h : isOk r.2 = true) : ∃ t m, r = (t, .ok m) := by
  obtain ⟨t, e⟩ := r
  cases e with
  | ok m => exact ⟨t, m, rfl⟩
  | error e => simp [isOk] at h

/-- The error of an answer. -/
def errOf {ε α : Type} (e : Except ε α) : Option ε :=
  match e with
  | .ok _ => none
  | .error e => some e

/-- What evaluation finds refused is refused. -/
theorem refusedBy {ε α : Type} {r : State × Except ε α} {e : ε} (h : errOf r.2 = some e) : ∃ t, r = (t, .error e) := by
  obtain ⟨t, d⟩ := r
  cases d with
  | ok m => simp [errOf] at h
  | error d => simp [errOf] at h; exact ⟨t, by rw [h]⟩

/-- An image at 0x9000 of one context, a mov that sends nothing in queue mode, with one entry and one exit, its SIG the CRC-32C of
its 24 bytes; the exit destination at 0xA000. -/
def imageMem : Memory :=
  wr64 (wr64 (wr64 (wr64 (wr64 tables 0x9000 0x4744000108000000) 0x9008 0xF37E2481) 0x90A0 0x0200FFFFF0000000) 0x90B0 0x8000000000000000)
    0xA000 0x8000000000000285

/-- The block asks for that image by .ind. -/
def asksImage (m : Memory) : State :=
  { withOps 0xA000 0x9000 0 with mem := m, cur := { instOf 0x8301004000000000 0xA000 0x9000 0 with stage := some 9 } }

/-- A word of .ind with target slot a of instruction 1. -/
def fxInd : XFmt := ⟨0, 0, 1, 0x001, 0⟩

/-- The region with a plane under it: a callee. -/
def plane0 : Plane :=
  { ctxs := [ctx0 0], entries := [], queues := [], formed := [], held := [], flags := 0, exits := [0x8000000000000285], image := 0x8000, entryBase := 0, ne := 2, nx := 1,
    caller := (0, 0), attic := false, placed := [], exitHold := [] }

/-- The callee runs. -/
def callee : State := { inGrid (ctx0 0) (gridInst (dat 5) none none) with regions := [{ region0 with planes := [plane0] }] }

/-- A waiting cfgrel (0x84) or drain (0x86) of region 0 of bay 0. -/
def waitsDrain (w : Word) : State :=
  { base with regions := [{ region0 with closed := true, residue := 3, flags := 0x10 }], ctxs := [{ ctx0 0 with disc := 2 }]
              waits := [{ instOf w 0 0 0 with stage := some 9 }] }

/-- R217, R218, R364: the image passes and is placed at the first fit, with handle 0; a wrong SIG is F_ILLOP. -/
theorem test_placement :
    crc32c [0x31, 0x32, 0x33, 0x34, 0x35, 0x36, 0x37, 0x38, 0x39] = 0xE3069283 ∧
    (nextOf (exec (.cfgreq fxInd) (asksImage imageMem)) base).waits.length = 1 ∧
    (haltedBy (exec (.cfgreq fxInd) (asksImage (wr64 imageMem 0x9008 1)))).map (fun x => (x.1, x.2.1)) = some (F_ILLOP, 1) ∧
    (let t := nextOf (exec (.regionPlacement 0) { asksImage imageMem with waits := [(asksImage imageMem).cur] }) base;
      t.regions.map (fun r => (r.bay, r.idx, r.exits.getD 0 0)) = [(0, 0, 0x8000000000000285)] ∧ t.ctxs.map (fun c => (c.cell, c.ctx, c.iw)) = [(0, 2, 0x0200FFFFF0000000)] ∧
      t.net.map (fun x => x.tok.data) = [0]) := by decide +kernel

/-- R365: the result of a drain holds the residue, the discards and the flags, and clears them; that of a release frees the
region. -/
theorem test_drain :
    let t := nextOf (exec (.regionDrainComplete 0 0) (waitsDrain 0x8600007FF0000000)) base
    let u := nextOf (exec (.regionDrainComplete 0 0) (waitsDrain 0x8400007FF0000000)) base
    t.net.map (fun x => x.tok.data) = [0x0003000200000010] ∧ t.regions.map (fun r => (r.closed, r.residue, r.flags)) = [(false, 0, 0)] ∧
    u.net.map (fun x => x.tok.data) = [0x0003000200000010] ∧ u.regions = [] ∧
    (haltedBy (exec (.drain (fa 0 0)) (withOps 0x100 0 0))) = some (F_PROT, 0x100, 0) := by decide +kernel

/-- R368: gret outside a callee is F_ILLOP and freezes; in a callee it sends nothing past the gate before the thaw, which pops the
plane. -/
theorem test_grid_calls :
    (nextOf (exec (.gret (ga 0 0 0)) (inGrid (ctx0 0) (gridInst (dat 5) none none))) base).regions.map (fun r => (r.fault.map (·.code))) = [some F_ILLOP] ∧
    (nextOf (exec (.gret (ga 0 0 0)) callee) base).regions.map (fun r => decide (r.phase = .run)) = [false] ∧
    (nextOf (exec (.gretThaw 0 0) { callee with regions := [{ region0 with planes := [plane0], phase := .retGate Inst.empty }] }) base).regions.map (fun r => r.planes.length) = [0] := by
  decide +kernel

theorem witness_Regions :
    (Acts 0 (asksImage imageMem) ∧ curOldest (asksImage imageMem) = true ∧ accessTurn (asksImage imageMem) = true ∧
      storePending (asksImage imageMem) 0 0 = false ∧ (∃ t m, cfgreqRead fxInd (asksImage imageMem) = (t, .ok m)) ∧
      (∃ t, cfgreqRead fxInd (asksImage (wr64 imageMem 0x9008 1)) = (t, .error (.bad F_ILLOP 1 0))) ∧
      (∃ t, cfgreqRead fxInd { asksImage imageMem with tlb := [] } = (t, .error .wait))) ∧
    (let s := { withOps 0 0 0 with regions := [region0] };
      regionNamed s 0 (handleOf (opA s)) = some region0 ∧ region0.planes = [] ∧ gated region0 = false ∧ s.cur.grid = none ∧ s.cur.stage = none ∧
      regionNamed s 0 (handleOf (opA (withOps 0x100 0 0))) = none) ∧
    (let s := inGrid (ctx0 0) (gridInst (dat 5) (dat 0x9000) none);
      Acts 0 s ∧ curCtx s = some (ctx0 0) ∧ (ga 0 3 0).t0 ≠ nullT ∧ phaseAllows s 0 = true ∧ curRegion s = some region0 ∧ region0.phase = .run) ∧
    ((∃ t m, readImage { inGrid (ctx0 0) (gridInst (dat 5) none none) with mem := imageMem } 0 0 false (tagWord Tag.zero) none 0x9000 = (t, .ok m)) ∧
      gated region0 = false ∧ curRegion callee = some { region0 with planes := [plane0] }) ∧
    (let s := { inGrid (ctx0 0) { gridInst (dat 5) none none with stage := some 9 } with regions := [{ region0 with phase := .ckptGate, ck := true }] };
      curRegion s = some { region0 with phase := .ckptGate, ck := true } ∧ region0.fault = none ∧
      settledRegion s { region0 with phase := .ckptGate, ck := true } = true ∧ isOk (atticTouch s 0 (planeBytes region0) true false) = true ∧
      s.stores.any (heldBy region0) = false ∧ isOk (takeCkpt s { region0 with phase := .ckptGate, ck := true } []) = true ∧
      isOk (takeCkpt (withPart { part0 with ent := part0.ent.set 13 0 } s) { region0 with phase := .ckptGate, ck := true } []) = false) :=
  ⟨⟨by decide +kernel, by decide +kernel, by decide +kernel, by decide +kernel, answered (by decide +kernel), refusedBy (by decide +kernel), refusedBy (by decide +kernel)⟩,
    by decide +kernel, by decide +kernel, ⟨answered (by decide +kernel), by decide +kernel, by decide +kernel⟩, by decide +kernel⟩

/-- A callee that fits and one that is refused, of the same image: 64 planes are the limit. -/
theorem witness_Regions_callee :
    let m : Img := { addr := 0x9000, h0 := 0x4744000108000000, w := 1, h := 1, c := 1, ne := 1, nx := 1, ck := false, sigs := 0xF37E2481,
                     words := [(0x0200FFFFF0000000, 0, 0x8000000000000000)], consts := [[0, 0, 0, 0]], ents := [0] }
    callBad base region0 m 0 = none ∧ callBad base { region0 with planes := List.replicate 63 { plane0 with attic := true } } m 0 = none ∧
    (callBad base { region0 with planes := List.replicate 64 { plane0 with attic := true } } m 0).map (·.1) = some F_PLANEOVF := by decide +kernel

/-- A region that keeps checkpoints and has one. -/
def keeps : Region := { region0 with ck := true, sig := 0xF37E2481, ckpt := some ⟨plane0, [], []⟩ }

/-- The context of that image, found uncorrectable, with its protected copy. -/
def badCtx : Ctx :=
  { ctx0 0 with iw := 0, bad := true, rw := 0, copy := [0x0200FFFFF0000000, 0, 0x8000000000000000, 7, 0, 0, 0] }

/-- R126, R231: the region is gated, and then the words come back from the copy; without a good copy F_CFGECC freezes the
region. -/
theorem test_config_recovery :
    let s := { base with regions := [{ keeps with ck := false, phase := .eccGate }], ctxs := [badCtx] }
    let g := nextOf (exec (.configEccRecovery 0 0) { s with regions := [{ keeps with ck := false }] }) base
    let t := nextOf (exec (.configEccRecovery 0 0) s) base
    (g.regions, g.ctxs) = (s.regions, s.ctxs) ∧ t.regions = [{ keeps with ck := false }] ∧
    t.ctxs.map (fun c => (c.iw, c.pw, c.q, c.bad)) = [(0x0200FFFFF0000000, 0x8000000000000000, [7, 0, 0, 0], false)] ∧
    (nextOf (exec (.configEccRecovery 0 0) { s with ctxs := [{ badCtx with copyBad := true }] }) base).regions.map (fun r => r.fault.map (·.code)) = [some F_CFGECC] := by
  decide +kernel

theorem witness_RegionEvents :
    (let s := { asksImage imageMem with waits := [(asksImage imageMem).cur] };
      s.waits[0]? = some (asksImage imageMem).cur ∧ savedAway s 0 = false ∧ opOf (asksImage imageMem).cur.word = 0x83 ∧ (asksImage imageMem).cur.stage = some 9 ∧
      accessTurn { s with cur := (asksImage imageMem).cur } = true ∧ findFit s 0 0 1 1 1 1 = some ⟨0, 0, 0, 0, 0, 2⟩ ∧ isOk (atticTouch s 0 1152 true true) = true) ∧
    (let s := waitsDrain 0x8400007FF0000000;
      let r := { region0 with closed := true, residue := 3, flags := 0x10 };
      region? s 0 0 = some r ∧ drainer s r = some (0, { instOf 0x8400007FF0000000 0 0 0 with stage := some 9 }) ∧ drained s r = true ∧ holdsOut s r = false ∧ isOk (takeCkpt s r []) = true ∧
      holdsOut s { r with exitHold := [⟨0, ⟨Tag.zero, .data, 0, 0, [], none⟩, .dest 0, none, 255, none⟩] } = true ∧ opOf (0x8600007FF0000000 : Word) ≠ 0x84) ∧
    (let i := gridInst (dat 5) none none;
      let r := { region0 with phase := .callGate i 0x9000 };
      let s := { inGrid (ctx0 0) Inst.empty with mem := imageMem, regions := [r] };
      let read := fun (a : Word) => readImage s 0 0 true (tagWord i.tag) (treeOf s 0 i.tag.frame.toNat) a;
      (match read 0x9000 with
        | (t, .ok m) => (callBad t r m i.word).isNone && (entryRun t 0 r.name.1 m.ne).isSome && isOk (atticTouch t 0 (planeBytes r) true true)
        | _ => false) = true ∧ isOk (read 0xB000).2 = false ∧
      region? s 0 0 = some r ∧ r.phase = .callGate i 0x9000 ∧ settledRegion s r = true ∧ chipPlanes r < 4 ∧
      4 ≤ chipPlanes { r with planes := List.replicate 4 plane0 }) ∧
    (let i := gridInst (dat 5) none none;
      let r := { region0 with phase := .retGate i, planes := [plane0] };
      let s := { inGrid (ctx0 0) Inst.empty with regions := [r] };
      region? s 0 0 = some r ∧ r.phase = .retGate i ∧ r.planes = plane0 :: [] ∧ settledRegion s r = true ∧ r.fault = none ∧
      planeFits s r plane0 = true ∧ plane0.attic = false ∧ isOk (atticTouch s 0 (planeBytes r) false false) = true) ∧
    (let s := fun (k : Bool) => { base with regions := [{ keeps with ck := k }], ctxs := [badCtx] };
      (let e := { keeps with ck := false, phase := .eccGate };
        region? { s true with regions := [e] } 0 0 = some e ∧ settledRegion { s true with regions := [e] } e = true ∧
          region? (s false) 0 0 = some { keeps with ck := false } ∧ copyGood (modRegion { s true with regions := [e] } 0 0 fun r => { r with phase := .run }) e = true ∧
          isOk (atticTouch (s true) 0 (planeBytes keeps) false false) = true) ∧
      region? (s true) 0 0 = some keeps ∧ keeps.fault = none ∧ (regionCtxs (s true) keeps).any (·.bad) = true ∧ copyGood (s true) keeps = true ∧ planeFits (s true) keeps plane0 = true ∧
      copyGood { s true with ctxs := [{ badCtx with copyBad := true }] } keeps = false ∧ keeps.ckpt = some ⟨plane0, [], []⟩) ∧
    (∃ t m, readImage { inGrid (ctx0 0) Inst.empty with mem := imageMem } 0 0 true (tagWord Tag.zero) none 0x9000 = (t, .ok m)) ∧
    (∃ t m, cfgreqRead (xWord (asksImage imageMem).cur) (asksImage imageMem) = (t, .ok m)) :=
  ⟨by decide +kernel, by decide +kernel, by decide +kernel, by decide +kernel, by decide +kernel, answered (by decide +kernel), answered (by decide +kernel)⟩

/-! ### Memory -/

/-- What evaluation finds translated translates. -/
def transB (s : State) (ea : Int) (n algn : Nat) (st : Bool) : Bool :=
  match checked s ea n algn st with
  | (s1, .ok rs) => (poisonedAt s1 rs).isNone
  | _ => false

theorem translates {s : State} {ea : Int} {n algn : Nat} {st : Bool} (h : transB s ea n algn st = true) :
    ∃ s1 rs, Translates s ea n algn st s1 rs := by
  unfold transB at h
  cases hc : checked s ea n algn st with
  | mk s1 a =>
    rw [hc] at h
    cases a with
    | ok rs => exact ⟨s1, rs, hc, by simpa using h⟩
    | miss => simp at h
    | page w => simp at h
    | bad c v => simp at h

/-- A shelf access on chip holds. -/
theorem shelfHere {s : State} {ea : Int} {n : Nat} {st : Bool}
    (h : ea % (n : Int) = 0 ∧ 0 ≤ ea ∧ ea + n ≤ (pow2 22 : Int) ∧ parkedAt s s.cur.part (curKey s) = none ∧
      (st || !s.poison.contains (.shelf, shelfKey (curKey s) ea.toNat / 8)) = true) : ShelfHolds s ea n st s :=
  ⟨h.1, h.2.1, h.2.2.1, parkedTouch_here h.2.2.2.1, h.2.2.2.2⟩

/-- So do the shelf bytes of a soft-token instruction. -/
theorem softHere {s : State} {a n : Nat}
    (h : a % 4 = 0 ∧ a + n ≤ pow2 22 ∧ parkedAt s s.cur.part (curKey s) = none ∧ shelfPoison s (shelfKey (curKey s) a) n = none) :
    SoftHolds s a n s := ⟨h.1, h.2.1, parkedTouch_here h.2.2.1, h.2.2.2⟩

/-- A pair whose second half is known. -/
theorem answers {α β : Type} {r : α × β} {x : β} (h : r.2 = x) : ∃ t, r = (t, x) := ⟨r.1, by rw [← h]⟩

/-- An M word alone in its chain: PRED and SUCC none, OWN 0. -/
def mw (op : BitVec 8) : Word := op ++ (0x3E03E00000 : BitVec 56)

/-- An M format of storage format sf, at offset m of elements or bytes, to slot a of instruction 1. -/
def fm (sf : BitVec 4) (i : Bool) (m : BitVec 20) : MFmt := ⟨0, i, sf, false, 0x001, 0x3E, 0, 0x3E, m⟩

/-- A grid word of it, to route 0. -/
def gm (sf : BitVec 4) : MFmt := ⟨0, false, sf, false, 0, 0x3E, 0, 0x3E, 0⟩

/-- The bytes 0x80 0x01 0xFF 0x80 0xFE 0xFF 0x00 0x3C from 0x5000. -/
def dataMem : Memory := wr64 tables 0x5000 0x3C00FFFE80FF0180

/-- The block accesses it with the word of opcode op. -/
def acc (op : BitVec 8) (a b c : Word) : State := { withOps a b c with mem := dataMem, cur := instOf (mw op) a b c }

/-- A region accesses it. -/
def gacc (op : BitVec 8) (a b c : Word) : State :=
  { inGrid (ctx0 (mw op)) { instOf (mw op) a b c with grid := some 0 } with mem := dataMem }

/-- What an access sends. -/
def sentM (i : Instr) (s : State) : List Word := (sentBy (exec i s)).map (·.2)

/-- R59, R372, R374: widening by format, an offset in elements, and the checks in their order. -/
theorem test_loads :
    sentM (.ld (fm 0 false 0)) (acc 0x98 0x5000 0 0) = [0xFFFFFFFFFFFFFF80] ∧ sentM (.ld (fm 1 false 0)) (acc 0x98 0x5000 0 0) = [0x80] ∧
    sentM (.ld (fm 2 true 1)) (acc 0x98 0x5000 0 0) = [0xFFFFFFFFFFFF80FF] ∧ sentM (.ld (fm 3 true 0xFFFFF)) (acc 0x98 0x5002 0 0) = [0x0180] ∧
    sentM (.ld (fm 4 false 0)) (acc 0x98 0x5000 0 0) = [0x80FF0180] ∧ sentM (.ld (fm 5 false 0)) (acc 0x98 0x5000 0 0) = [0x3C00FFFE80FF0180] ∧
    sentM (.ld (fm 8 false 6)) (acc 0x98 0x5000 0 0) = [0x3F800000] ∧ sentM (.ld (fm 7 false 6)) (acc 0x98 0x5000 0 0) = [0x3C000000] ∧
    haltedBy (exec (.ld (fm 3 false 1)) (acc 0x98 0x5000 0 0)) = some (F_ALIGN, 0x5001, 2) ∧
    haltedBy (exec (.ld (fm 5 false 0)) (acc 0x98 0x0100000000000000 0 0)) = some (F_NONCANON, 0x0100000000000000, 0) ∧
    haltedBy (exec (.lds (fm 4 false 0)) (acc 0x9A 0x400000 0 0)) = some (F_PROT, 0x400000, 0) := by decide +kernel

/-- R373, R375: a store of a block is held and changes no memory; of a grid it writes at once; it narrows. -/
theorem test_stores :
    let t := nextOf (exec (.st (fm 8 false 2)) (acc 0x99 0x5000 0x3F800000 0)) base
    let u := nextOf (exec (.st (gm 2)) (gacc 0x99 0x5002 0x12345678 0)) base
    t.stores.map (·.op) = [.mem 0x5002 [0x00, 0x3C] true] ∧ rdBytes t.mem 0x5002 2 = [0xFF, 0x80] ∧ (curBlock t).map (·.st) = some [(0, 0x3F800000)] ∧
    rdBytes u.mem 0x5002 2 = [0x78, 0x56] ∧ rdBytes u.mem 0x5004 2 = [0xFE, 0xFF] ∧
    rdBytes (nextOf (exec (.sts (gm 4)) (gacc 0x9B 0x3FFFFC 0xAABBCCDD 0)) base).shelf 0x3FFFFC 4 = [0xDD, 0xCC, 0xBB, 0xAA] ∧
    haltedBy (exec (.st (fm 8 false 0)) { acc 0x99 0x5000 0x477FF000 0 with frames := [{ frame0 with fpc := 0x18 }] }) = some (F_CVTOVF, 0x5000, 8) := by decide +kernel

/-- R380–R384: version 0 is there, version 1 is waited for, version 2^31 is gone; stv of a grid makes version 1 and sends its
number, and both can then be read. -/
theorem test_versions :
    let v := nextOf (exec (.stv (gm 5)) (gacc 0x9D 0x1000005000 9 0)) base
    sentM (.ldv (fm 5 false 0)) (acc 0x9C 0x1000005000 0 0) = [0x3C00FFFE80FF0180] ∧ sentM (.ldv (fm 5 false 0)) (acc 0x9C 0x1000005000 1 0) = [] ∧
    (haltedBy (exec (.ldv (fm 5 false 0)) (acc 0x9C 0x1000005000 0x80000000 0))) = some (F_VGONE, 0x1000005000, 0x80000000) ∧
    (haltedBy (exec (.ldv (fm 5 false 0)) (acc 0x9C 0x5000 0 0))).map (·.1) = some F_PROT ∧
    v.net.map (fun x => x.tok.data) = [1] ∧ sentM (.ldv (fm 5 false 0)) { acc 0x9C 0x1000005000 1 0 with vers := v.vers } = [9] ∧
    sentM (.ldv (fm 5 false 0)) { acc 0x9C 0x1000005000 0 0 with vers := v.vers } = [0x3C00FFFE80FF0180] ∧
    (nextOf (exec (.reclaim (fm 5 false 0)) (acc 0x9E 0x1000005000 1 0)) base).stores.map (·.op) = [.reclaim 0x5000 1] := by decide +kernel

/-- R377–R379: the old value goes out and the new one is in memory. -/
theorem test_atomics :
    let lo := fun (i : Instr) (b c : Word) => (let t := nextOf (exec i (acc 0xB0 0x5000 b c)) base; (t.net.map (fun x => x.tok.data), ofBytes (rdBytes t.mem 0x5000 4)))
    lo (.amoAdd (fm 4 false 0)) 0x80000000 0 = ([0x80FF0180], 0x00FF0180) ∧ lo (.amoAnd (fm 4 false 0)) 0xFF 0 = ([0x80FF0180], 0x80) ∧
    lo (.amoOr (fm 4 false 0)) 0xF 0 = ([0x80FF0180], 0x80FF018F) ∧ lo (.amoXor (fm 4 false 0)) 0x80 0 = ([0x80FF0180], 0x80FF0100) ∧
    lo (.amoMin (fm 4 false 0)) 5 0 = ([0x80FF0180], 5) ∧ lo (.amoMin (fm 4 true 0)) 5 0 = ([0x80FF0180], 0x80FF0180) ∧
    lo (.amoMax (fm 4 false 0)) 5 0 = ([0x80FF0180], 0x80FF0180) ∧ lo (.amoMax (fm 4 true 0)) 5 0 = ([0x80FF0180], 5) ∧
    lo (.amoXchg (fm 4 false 0)) 7 0 = ([0x80FF0180], 7) ∧ lo (.amoFmin (fm 6 false 0)) 0xBF800000 0 = ([0x80FF0180], 0xBF800000) ∧
    lo (.amoFmax (fm 6 false 0)) 0x3F800000 0 = ([0x80FF0180], 0x3F800000) ∧ lo (.amoFadd (fm 6 false 0)) 0x3F800000 0 = ([0x80FF0180], 0x3F800000) ∧
    lo (.cas (fm 4 false 0)) 0x80FF0180 1 = ([0x80FF0180], 1) ∧ lo (.cas (fm 4 false 0)) 2 1 = ([0x80FF0180], 0x80FF0180) ∧
    (let t := nextOf (exec (.cas2 (fm 5 false 0)) (acc 0xBB 0x5000 0 7)) base; (t.net.map (fun x => x.tok.data), rd64 t.mem 0x5000, rd64 t.mem 0x5008)) = ([0], 7, 1) := by
  decide +kernel

/-- R387–R391: fence and monitor forward a; monitor arms the line of its address; waitm without an armed line sends 6, and with a
cause that cause. -/
theorem test_waits :
    let armed := nextOf (exec (.monitor (fm 0 false 0)) (acc 0xA3 0x5040 0 0)) base
    sentM (.fence (fm 0 false 0)) (acc 0xA1 5 0 0) = [5] ∧ (frame? armed 0 0).map (·.mon) = some (some ⟨0x141, 0, 0⟩) ∧
    sentM (.waitm (fm 0 false 0)) (acc 0xA4 0 0 0) = [6] ∧
    sentM (.waitm (fm 0 false 0)) { acc 0xA4 0 0 0 with frames := [{ frame0 with mon := some ⟨1, 2, 0⟩ }] } = [2] ∧
    sentM (.waitm (fm 0 false 0)) { acc 0xA4 0 0 0 with frames := [{ frame0 with mon := some ⟨1, 0, 0⟩ }] } = [] ∧
    (nextOf (exec (.qfence (fm 0 false 1)) (acc 0xA2 5 0 0)) base).qfences = [⟨false, 0, 1, 0⟩] ∧
    (nextOf (exec (.stream (gm 2)) (gacc 0x9F 0x5000 4 0)) base).streams.map (fun x => (x.slot, x.count, x.pos, x.base)) = [(0, 4, 0, 0x5000)] := by
  decide +kernel

/-- The access acts, has its place and its turn; its run passes. -/
theorem witness_Loads :
    Accesses 0 false true (acc 0x98 0x5000 0 0) ∧ (ShelfHolds (placedState (acc 0x9A 0x3FFFF8 0 0)) (eaOf (fm 5 false 0) 8 (opA (placedState (acc 0x9A 0x3FFFF8 0 0)))) 8 false
      (placedState (acc 0x9A 0x3FFFF8 0 0))) ∧
    (∃ s1 rs, Translates (placedState (acc 0x98 0x5000 0 0)) (eaOf (fm 5 false 0) 8 (opA (placedState (acc 0x98 0x5000 0 0)))) 8 8 false s1 rs) ∧
    (∃ s1, checked (placedState (acc 0x98 0x5001 0 0)) 0x5001 8 8 false = (s1, .bad F_ALIGN 0x5001)) ∧
    (∃ s1, checked (placedState { acc 0x98 0x5000 0 0 with tlb := [] }) 0x5000 8 8 false = (s1, .miss)) ∧
    (Accesses 0 false false (acc 0x99 0x5000 0 0) ∧ (∃ s1, checked (placedState (acc 0x99 0x5001 0 0)) 0x5001 8 8 true = (s1, .bad F_ALIGN 0x5001)) ∧
      (∃ s1, checked (placedState { acc 0x99 0x5000 0 0 with tlb := [] }) 0x5000 8 8 true = (s1, .miss))) :=
  ⟨by decide +kernel, shelfHere (by decide +kernel), translates (by decide +kernel), answers (by decide +kernel), answers (by decide +kernel), by decide +kernel,
    answers (by decide +kernel), answers (by decide +kernel)⟩

/-- A store whose value narrows, one that overflows under the trapping policy, and the last word of the shelf. -/
theorem witness_Stores :
    let s := acc 0x99 0x5000 0x477FF000 0
    let t := { s with frames := [{ frame0 with fpc := 0x18 }] }
    (Accesses 0 false s.cur.grid.isSome s ∧ Accesses 0 false t.cur.grid.isSome t ∧ Accesses 0 false false s) ∧
    (∃ s1 rs, Translates (placedState s) (eaOf (fm 8 false 0) 2 (opA (placedState s))) 2 2 true s1 rs) ∧
    (curCtl s = some ⟨0, false, 0⟩ ∧ narrowSf 8 ⟨0, false, 0⟩ (opB s) = some ([0xFF, 0x7B], 0x34) ∧ curCtl t = some ⟨0, false, 3⟩ ∧ narrowSf 8 ⟨0, false, 3⟩ (opB s) = none) ∧
    ShelfHolds (placedState s) 0x3FFFFE 2 true (placedState s) ∧
    (s.cur.grid = none ∧ curBlock s = some block0 ∧ assoc 0 block0.st = none) :=
  ⟨by decide +kernel, translates (by decide +kernel), by decide +kernel, shelfHere (by decide +kernel), by decide +kernel⟩

/-- The last version that is there, the first and the last that are waited for, and the first that is gone; and a page that is not
versioned. -/
theorem witness_VersionedWords :
    let s := acc 0x9C 0x1000005000 0 0
    Accesses 0 false true s ∧ (∃ s1 rs, Translates (placedState s) (eaOf (fm 5 false 0) 16 (opA (placedState s))) 16 16 false s1 rs) ∧
    (checked (placedState s) 0x1000005000 16 16 false).2 = .ok [⟨0x5000, 16, false, true⟩] ∧ (checked (placedState s) 0x5000 16 16 false).2 = .ok [⟨0x5000, 16, false, false⟩] ∧
    (let b := versBounds s 0 0x5000;
      let n := fun (k : BitVec 32) => ((k - b.1).toNat ≤ (b.2 - b.1).toNat, (k - b.2).toNat);
      b = (0x0, 0x0) ∧ (n 0).1 ∧ ¬ (n 1).1 ∧ (n 1).2 = 1 ∧ ¬ (n 0x7FFFFFFF).1 ∧ (n 0x7FFFFFFF).2 < 2 ^ 31 ∧ ¬ (n 0x80000000).1 ∧ (n 0x80000000).2 = 2 ^ 31) ∧
    (s.cur.grid = none ∧ (checked (placedState s) 0x1000005000 16 16 true).2 = .ok [⟨0x5000, 16, false, true⟩]) ∧
    (let g := gacc 0x9D 0x1000005000 9 0;
      Accesses 0 false g.cur.grid.isSome g ∧ g.cur.grid = some 0 ∧ region? g 0 0 = some region0 ∧ region0.ck = false ∧ (doStv g 0 0x5000 9).isSome = true ∧
      doStv { g with vers := [⟨0, 0, 0x5000, 1, [1, 2, 3, 4], true⟩] } 0 0x5000 9 = none) ∧
    (s.cur.ver.bind (·.2) = none ∧ { s.cur with ver := some (0x5000, some 9) }.ver.bind (·.2) = some 9) :=
  ⟨by decide +kernel, translates (by decide +kernel), by decide +kernel, by decide +kernel, by decide +kernel, by decide +kernel, by decide +kernel, by decide +kernel⟩

/-- A stream of four u16 from 0x5000 at element pos. -/
def stream0 (pos : Nat) : Stream :=
  { id := 1, bay := 0, slot := 2, part := 0, region := 0, inst := gridInst (dat 0x5000) none none, count := 4, pos := pos, done := [], runs := [], base := 0x5000, stride := 1, sf := 3,
    ahead := 4, waitcb := false, depth := 0 }

/-- A stream, a KV chain by DIR, a reserved bit; fence, pref of a page that translates and of one that does not; monitor;
qfence in its turn; waitm with no line, with a cause and without one. -/
theorem witness_StreamsHintsAndWaits :
    (let g := fun (n c : Word) => gacc 0x9F 0x5000 n c; let c : Nat → Word := fun k => BitVec.ofNat 64 k;
      Accesses 0 false false (g 4 (c (2 ^ 39))) ∧ fld (opC (placedState (g 4 (c (2 ^ 63))))) 62 2 = 2 ∧ fld (opC (placedState (g 4 (c (2 ^ 62))))) 62 2 = 1 ∧
      fld (opC (placedState (g 4 (c 0x20)))) 5 34 ≠ 0 ∧
      (let t := placedState (g 4 (c (2 ^ 39)));
        fld (opC t) 62 2 = 0 ∧ fld (opC t) 5 34 = 0 ∧ stream? t (curKey t) (fld (opC t) 0 5) = none ∧ fld (opB t) 0 32 = 4 ∧ signed (fld (opC t) 39 16) 16 = 1 ∧
        sameHalf 0x5000 (0x5000 + 3 * 8 + 7) = true ∧ (gm 5).sf.toNat ≠ 9 ∧ ((0x5000 : Int) + offM (gm 5)) % 8 = 0 ∧ ((0x5001 : Int) + offM (gm 5)) % 8 ≠ 0) ∧
      (stream? { placedState (g 4 0) with streams := [{ stream0 0 with slot := 0 }] } 0 0).isSome = true ∧
      sameHalf 0xFFFFFFFFFFFFF8 (0xFFFFFFFFFFFFF8 + 3 * 8 + 7) = false ∧ (gm 9).sf.toNat = 9 ∧ bitAt (c (2 ^ 61)) 61 = true) ∧
    (∃ u, checkRun (acc 0xA0 0x5000 0 0) 0 0 ⟨false, false, curSup (acc 0xA0 0x5000 0 0), true, none⟩ 0 (eaOf (fm 0 false 0) 1 0x5000) 1 1 = (u, .ok [⟨0x5000, 1, false, false⟩])) ∧
    (Accesses 0 true false (acc 0xA3 0x5000 0 0) ∧ ∃ s1 rs, Translates (placedState (acc 0xA3 0x5000 0 0)) (eaOf (fm 0 false 0) 1 (opA (placedState (acc 0xA3 0x5000 0 0)))) 1 1 false s1 rs) ∧
    inTurn (placedState (acc 0xA2 0 0 0)) = true ∧
    (frame? (placedState (acc 0xA4 0 0 0)) 0 0 = some frame0 ∧ frame0.mon = none ∧
      frame? { acc 0xA4 0 0 0 with frames := [{ frame0 with mon := some ⟨1, 2, 0⟩ }] } 0 0 = some { frame0 with mon := some ⟨1, 2, 0⟩ }) :=
  ⟨by decide +kernel, answers (by decide +kernel), ⟨by decide +kernel, translates (by decide +kernel)⟩, by decide +kernel, by decide +kernel⟩

/-- A chain record at 0x6000 of bays 0 and 1 with that capacity. -/
def chainMem (cap : Word) : Memory := wr64 (wr64 tables 0x6000 0x0000000000010001) 0x6010 (cap <<< 32)

/-- A grid instance binds chain 2 by it. -/
def chaining (cap c : Word) : State := { gacc 0x9F 0x6000 2 c with mem := chainMem cap }

/-- R386: the chain goes into KVC2 of both bays, and 0 and a marker go out; a capacity of 0 is F_ILLOP. -/
theorem test_chain :
    let t := nextOf (exec (.streamKvBind (gm 5)) (chaining 16 0x8000000000000000)) base
    t.net.map (fun x => (x.tok.kind, x.tok.data)) = [(.data, 0), (.eos, 0)] ∧ t.kvc.map (·.1) = [(0, 2), (1, 2)] ∧
    (nextOf (exec (.streamKvBind (gm 5)) (chaining 0 0x8000000000000000)) base).regions.map (fun r => r.fault.map (·.code)) = [some F_ILLOP] := by decide +kernel

/-- A chain by DIR, a record that passes and one that does not, and a reserved bit. -/
theorem witness_StreamsHintsAndWaits_chain :
    let s := fun (cap c : Word) => placedState (chaining cap c)
    let rd := fun (cap : Word) => match checked (s cap 0) 0x6000 32 32 false with
      | (s1, .ok rs) => loadRuns s1 0 rs
      | (s1, _) => ([], s1)
    (Accesses 0 false true (chaining 16 0x8000000000000000) ∧ fld (opC (s 16 0x8000000000000000)) 62 2 = 2 ∧ fld (opC (s 16 0x8000000000000000)) 5 34 = 0 ∧
      fld (opC (s 16 0x8000000000000020)) 5 34 ≠ 0 ∧ fld (opB (rd 16).2) 0 3 = 2 ∧ kvRecordBad (rd 16).2 2 (rd 16).1 = false ∧ kvRecordBad (rd 0).2 2 (rd 0).1 = true) ∧
    (∃ s1 rs, Translates (s 16 0) (opA (s 16 0)).toNat 32 32 false s1 rs) :=
  ⟨by decide +kernel, translates (by decide +kernel)⟩

/-- A line whose page no table maps. -/
theorem witness_StreamsHintsAndWaits_miss :
    let s := placedState (acc 0xA0 0x2000000000 0 0)
    (checkRun s 0 0 ⟨false, false, curSup s, true, none⟩ 0 0x2000000000 1 1).2 = .page ⟨false, false, 0x2000000000⟩ := by decide +kernel

/-- Its run passes for a read-modify-write; the value equals b, and does not; the tag equals b, and does not. -/
theorem witness_Atomics :
    let s := acc 0xBA 0x5000 0x80FF0180 0
    Accesses 0 true true s ∧ (∃ s1 rs, Translates (placedState s) ((opA (placedState s)).toNat + offM (fm 4 false 0)) 4 4 true s1 rs) ∧
    (∃ s1 rs, Translates (placedState s) ((opA (placedState s)).toNat + offM (fm 4 false 0)) 16 16 true s1 rs) ∧
    ofBytes (rdBytes s.mem 0x5000 4) = fld (opB (placedState s)) 0 32 ∧ ofBytes (rdBytes s.mem 0x5000 4) ≠ fld (opB (placedState (acc 0xBA 0x5000 0 0))) 0 32 ∧
    nbits (ofBytes (rdBytes s.mem 0x5000 16)) 64 64 = (opB (acc 0xBB 0x5000 0 0)).toNat ∧ nbits (ofBytes (rdBytes s.mem 0x5000 16)) 64 64 ≠ (opB s).toNat :=
  ⟨by decide +kernel, translates (by decide +kernel), translates (by decide +kernel), by decide +kernel, by decide +kernel, by decide +kernel, by decide +kernel⟩

theorem witness_AccessesLeave : MemInv (acc 0x98 0x5000 0 0) ∧ (acc 0x98 0x5000 0 0).cur.grid = none ∧
    (∃ t, exec (.ld (fm 5 false 0)) (acc 0x98 0x5000 0 0) = .next t) ∧ (∃ t, exec (.st (gm 5)) (gacc 0x99 0x5000 0 0) = .next t) :=
  ⟨⟨by decide +kernel, rfl, rfl⟩, rfl, ⟨_, rfl⟩, ⟨_, rfl⟩⟩

/-! ### Soft tokens -/

/-- Logits 1.0, 3.0, a NaN and 3.0 at the start of the shelf. -/
def logits : Memory := wr64 (wr64 [] 0 0x404000003F800000) 8 0x404000007FC00000

/-- The block runs on that shelf with sk1 holding v. -/
def soft (v : Soft) (a b : Word) : State :=
  { withOps a b 0 with shelf := logits, frames := [{ frame0 with sk := (List.replicate 8 0).set 1 v }] }

/-- Tokens 7, 2 and 5 with the weights 0.5, 0.25 and 0.25. -/
def mix0 : Soft := mkMix [(7, 0x3F00), (2, 0x3E80), (5, 0x3E80)]

/-- An A word to sk3 that reads sk1. -/
def fsoft (md : BitVec 2) : AFmt := ⟨0, false, 0, md, 0x243, 0x3FF, 1⟩

/-- What sk3 of the block was given. -/
def gotSoft (i : Instr) (s : State) : Option Soft := (((curBlock (nextOf (exec i s) base)).bind fun b => assoc 3 b.sk).bind id)

/-- The value that an instruction on that mixture sends. -/
def softVal (i : Instr) (a b : Word) : List Word := (sentBy (exec i (soft mix0 a b))).map (·.2)

/-- R427–R429: the examples of collapse. -/
theorem test_collapse :
    softVal (.collapseMax (fa 0 0)) 0 4 = [1] ∧ softVal (.collapseMix ⟨0, false, 0, 1, 1, 0x3FF, 1⟩) 0 0 = [7] ∧
    softVal (.collapseCdf ⟨0, false, 0, 2, 1, 0x3FF, 1⟩) 0x3F000000 0 = [2] ∧ softVal (.collapseCdf ⟨0, false, 0, 2, 1, 0x3FF, 1⟩) 0x3F400000 0 = [5] ∧
    softVal (.collapseCdf ⟨0, false, 0, 2, 1, 0x3FF, 1⟩) 0x3FC00000 0 = [5] ∧
    (sentBy (exec (.collapseMix ⟨0, false, 0, 1, 1, 0x3FF, 1⟩) (soft (mkMix [(2, 0x3E80), (5, 0x3E80)]) 0 0))).map (·.2) = [2] := by decide +kernel

/-- R87, R419–R422, R426: a mixture of two by rank and index, an appended candidate, weights that sum to one, a word of a
register, the empty value, and what a kind does not allow. -/
theorem test_soft_values :
    (gotSoft (.skmix (fsoft 2)) (soft 0 0 4)) = some (mkMix [(1, 0x4040), (3, 0x4040)]) ∧
    (gotSoft (.skadd (fsoft 0)) (soft 0 9 0x3F800000)) = some (mkMix [(9, 0x3F80)]) ∧
    (gotSoft (.skadd (fsoft 0)) (soft mix0 9 0x3F800000)) = some (mkMix [(7, 0x3F00), (2, 0x3E80), (5, 0x3E80), (9, 0x3F80)]) ∧
    (gotSoft (.sknorm (fsoft 0)) (soft (mkMix [(7, 0x3F80), (2, 0x3F80)]) 0 0)) = some (mkMix [(7, 0x3F00), (2, 0x3F00)]) ∧
    (gotSoft (.sknorm (fsoft 0)) (soft (mkMix [(7, 0x7F80), (2, 0x3F80)]) 0 0)) = some (mkMix [(7, 0x7FC0), (2, 0x7FC0)]) ∧
    (gotSoft (.skclr ⟨0, false, 0, 2, 0x243, 0x3FF, 0⟩) (soft mix0 0 0)) = some 0 ∧
    (sentBy (exec (.skrd ⟨0, false, 0, 1, 1, 0x3FF, 0x39⟩) (soft mix0 0 0))).map (·.2) = [0x8000000000000000] ∧
    (haltedBy (exec (.sknorm (fsoft 0)) (soft 0 0 0))).map (·.1) = some F_ILLOP ∧
    (haltedBy (exec (.skadd (fsoft 0)) (soft (textOf 5) 0 0))).map (·.1) = some F_ILLOP ∧
    (haltedBy (exec (.sklat (fsoft 1)) (soft 0 0 0))).map (·.1) = some F_PROT ∧ (haltedBy (exec (.sklat (fsoft 1)) (soft 0 2 1))).map (·.1) = some F_ALIGN ∧
    (haltedBy (exec (.skemb ⟨0, false, 0, 0, 1, 0x3FF, 1⟩) (soft 0 0 0))).map (·.1) = some F_ILLOP := by decide +kernel

/-- The digest of "abc" as the standard of SHA-512 gives it. -/
theorem test_sha512 : (sha512 [0x61, 0x62, 0x63]).take 8 = [0xDD, 0xAF, 0x35, 0xA1, 0x93, 0x61, 0x7A, 0xBA] := by decide +kernel

/-- Counts of 1, of 65,535 and 2^24, and the numbers outside; aligned and not; inside the shelf and beyond it; each kind. -/
theorem witness_SoftValues :
    (Acts 0 (soft 0 0 4) ∧ Committed (soft 0 0 4)) ∧ SoftHolds (soft 0 0 4) 0 16 (soft 0 0 4) ∧ SoftHolds (soft 0 0 4) 0x3FFFFC 4 (soft 0 0 4) ∧
    ((bOf (fa 0 0) (soft 0 0 1)).toNat = 1 ∧ (bOf (fa 0 0) (soft 0 0 65535)).toNat = 65535 ∧ (bOf (fa 0 0) (soft 0 0 65536)).toNat = 65536 ∧
      (bOf (fa 0 0) (soft 0 0 0x1000000)).toNat = 2 ^ 24 ∧ (bOf (fa 0 0) (soft 0 0 0x1000001)).toNat = 2 ^ 24 + 1 ∧ (bOf (fa 0 0) (soft 0 0 0)).toNat = 0) ∧
    (opA (soft 0 2 1)).toNat % 4 ≠ 0 ∧ ((opA (soft 0 0x3FFFFC 2)).toNat % 4 = 0 ∧ 2 ^ 22 < (opA (soft 0 0x3FFFFC 2)).toNat + 4 * 2) ∧
    (readSoft (soft mix0 0 0) (fld (fsoft 0).imm 0 3) = some mix0 ∧ skKind (0 : Soft) = 0 ∧ skKind (textOf 5) = 1 ∧ skKind mix0 = 2 ∧ skKind (mkLatent 0 1 0 0) = 3 ∧ skN mix0 = 3 ∧
      skN (mkMix (List.replicate 6 (1, 0x3F80))) = 6 ∧ (∀ y ∈ skCands mix0, finPos y.2 = true) ∧ (sumBf ((skCands mix0).map (·.2))).m ≠ 0 ∧
      (∃ y ∈ skCands (mkMix [(7, 0x7F80)]), finPos y.2 = false) ∧ (sumBf ((skCands (mkMix [(7, 0)])).map (·.2))).m = 0) :=
  ⟨by decide +kernel, softHere (by decide +kernel), softHere (by decide +kernel), by decide +kernel, by decide +kernel, by decide +kernel, by decide +kernel⟩

/-- A descriptor at 0x6000: records at 0x7000, COUNT 0 of 2, no log. -/
def descMem : Memory := wr64 (wr64 tables 0x6000 0x7000) 0x6008 0x0000000200000000

/-- The block runs on it. -/
def posState (v : Soft) : State := { soft v 0x6000 0 with mem := descMem }

/-- R424: the record's number goes out and COUNT advances. -/
theorem test_position :
    let t := nextOf (exec (.skpos ⟨0, false, 0, 0, 1, 0x3FF, 1⟩) (posState (textOf 5))) base
    t.net.map (fun x => x.tok.data) = [0] ∧ rd64 t.mem 0x6008 = 0x0000000200000001 ∧ rdBytes t.mem 0x7000 2 = [5, 0] ∧ rdBytes t.mem 0x701F 1 = [0x40] := by
  decide +kernel

/-- The state once the descriptor of 128 bytes at slot a was read. -/
def descRead (s : State) : State :=
  match checked s (opA s).toNat 128 64 true with
  | (s1, .ok rs) => (readRuns s1 s1.cur.part (curTree s1) rs).2
  | (s1, _) => s1

/-- A record without a log that has room, one that is full, and each kind for skemb. -/
theorem witness_RecordsAndEmbeddings :
    let s := posState (textOf 5)
    (Acts 0 s ∧ Settled s ∧ Committed s ∧ readSoft s 1 = some (textOf 5) ∧ skKind (textOf 5) ≠ 0 ∧ accessTurn s = true) ∧
    (∃ s1 rs, Translates s ((opA s).toNat + 0x40) 32 32 false s1 rs) ∧ (∃ s1 rs, Translates s (opA s).toNat 128 64 true s1 rs) ∧
    (let d := rdBytes descMem 0x6000 128; nbits (descField d 0x18 8) 62 2 = 0 ∧ descField d 0x08 4 ≠ descField d 0x0C 4) ∧
    (let d := rdBytes (wr64 descMem 0x6008 0x0000000200000002) 0x6000 128; nbits (descField d 0x18 8) 62 2 ≠ 3 ∧ descField d 0x08 4 = descField d 0x0C 4) ∧
    (∃ s2 ps, Translates (descRead s) (descField (rdBytes descMem 0x6000 128) 0x00 8 + 64 * descField (rdBytes descMem 0x6000 128) 0x08 4 : Nat) 64 64 true s2 ps) ∧
    (inTurn s = true ∧ readSoft (turned (soft 0 0 0)) 1 = some 0 ∧ readSoft (turned (soft mix0 0 0)) 1 = some mix0 ∧ readSoft (turned s) 1 = some (textOf 5) ∧
      readSoft (turned (soft (mkLatent 0 1 0 0) 0 0)) 1 = some (mkLatent 0 1 0 0)) :=
  ⟨by decide +kernel, translates (by decide +kernel), translates (by decide +kernel), by decide +kernel, by decide +kernel, translates (by decide +kernel), by decide +kernel⟩

/-! ### Engine messages, barriers, time, energy and the system instructions -/

/-- What is read at an address as n beats: the state and the beats. -/
def readAt (s : State) (a : Word) (n : Nat) : State × List Beat :=
  match checked s (a.toNat : Int) (16 * n) 16 false with
  | (s1, .ok rs) => ((readDesc s1 rs).2, beatsOf (readDesc s1 rs).1 n)
  | _ => (s, [])

/-- What evaluation finds readable is read. -/
theorem beatsAt {s : State} {a : Word} {n : Nat} (hn : n ≠ 0) (ht : accessTurn s = true) (h : transB s a.toNat (16 * n) 16 false = true) :
    Beats s a n (readAt s a n).1 (readAt s a n).2 := by
  refine .inr ⟨hn, ht, ?_⟩
  unfold transB at h
  unfold readAt
  cases hc : checked s (a.toNat : Int) (16 * n) 16 false with
  | mk s1 x =>
    rw [hc] at h
    cases x with
    | ok rs => exact ⟨s1, rs, ⟨hc, by simpa using h⟩, rfl, rfl⟩
    | miss => simp at h
    | page w => simp at h
    | bad c v => simp at h

/-- An E word of queue 0 without continuation, its ARG from slot b. -/
def fe : EFmt := ⟨0, false, 0, 0, 0, 0, 0x3FF, 0, 0, 0⟩

/-- A beat of each half at a. -/
def wrBeat (m : Memory) (a : Nat) (hi lo : Word) : Memory := wr64 (wr64 m a lo) (a + 8) hi

/-- At 0x6000 the beats of an mm of 4 by 4 by 4 numbers of one byte from the shelf, at 0x6100 a header of EOP 0x11 that a
message of eng may bear, at 0x6110 one with a field that must be zero. -/
def beatMem : Memory :=
  wrBeat (wrBeat (wrBeat (wrBeat (wrBeat tables 0x6000 0x4000000000000000 0x0000000001000000) 0x6010 0x4000000000000000 0x0000000001001000) 0x6020 0 0x000800000000C183)
    0x6100 0x1100000000001C00 0) 0x6110 0x1110000000001C00 0

/-- The block sends from there. -/
def sending (a b : Word) : State := { withOps a b 0 with mem := beatMem }

/-- A command of EOP e in queue q. -/
def cmdOf (e q id : Nat) : Cmd :=
  { r := ⟨false, 0, q⟩, id := id, part := 0, bay := 0, hdr := mkHeader e 0 q 0 0 0 0x1C00 0, beats := [], sender := none, issued := false, pos := 0,
    base := 0, ver := 0, old := false, key := none, nonce := 0, status := none, held := false, out := 0, lost := false }

/-- The queue is full. -/
def fullOf (s : State) : State := { s with cmds := (List.range 32).map fun n => cmdOf 0x11 0 n }

/-- R394, R395, R414, R415: acczero bears its ARG and enters its queue; a bad range is F_ENGINE with both halves of the
message; a full queue makes it wait; eng sends the header that it reads; qwait passes once the queue is empty. -/
theorem test_messages :
    (nextOf (exec (.acczero fe) (sending 0 0x1C00)) base).cmds.map (fun c => (mEop c.hdr, mArg c.hdr, c.beats.length)) = [(0x11, 0x1C00, 0)] ∧
    haltedBy (exec (.acczero fe) (sending 0 0x1FFF8)) = some (F_ENGINE, 0x110000000001FFF8, 0) ∧
    (nextOf (exec (.acczero fe) (fullOf (sending 0 0x1C00))) base).waits.length = 1 ∧
    (nextOf (exec (.mm fe) (sending 0x6000 0)) base).cmds.map (fun c => (mEop c.hdr, mBeats c.hdr, c.beats.length)) = [(0x10, 3, 3)] ∧
    (nextOf (exec (.eng fe) (sending 0x6100 0)) base).cmds.map (fun c => (mEop c.hdr, mArg c.hdr)) = [(0x11, 0x1C00)] ∧
    (haltedBy (exec (.eng fe) (sending 0x6110 0))).map (·.1) = some F_ENGINE ∧
    sentBy (exec (.qwait { fe with t0 := 1, arg := 1, i := true }) (sending 7 0)) = [(.data, 7)] ∧
    sentBy (exec (.qwait { fe with t0 := 1, arg := 1, i := true }) (fullOf { sending 7 0 with cmdNo := 32 })) = [] := by decide +kernel

/-- A message with beats, accepted with room, without room and refused; one without beats; eng's two headers; qwait before and
while it waits. -/
theorem witness_EngineMessages :
    (let s := sending 0x6000 0; let r := readAt (turned s) (opA (turned s)) 3;
      Sends fe.pr s ∧ Beats (turned s) (opA (turned s)) 3 r.1 r.2 ∧ msgRefused r.1 r.1.cur.part (curKey r.1) (mkHeader 0x10 0 0 0 0 3 0 0) r.2 = none ∧
      queueHasRoom r.1 (queueOf 0 (curKey r.1) (mkHeader 0x10 0 0 0 0 3 0 0)) = true ∧
      bayGated r.1 0 (curKey r.1) = false ∧ bayGated (modPart r.1 0 fun t => { t with preBusy := true }) 0 0 = true ∧
        (msgRefused r.1 r.1.cur.part (curKey r.1) (mkHeader 0x10 0 0 0 0 3 1 0) r.2).isSome = true) ∧
    (let s := fullOf (sending 0 0x1C00);
      Sends fe.pr s ∧ Beats (turned s) (opA (turned s)) 0 (turned s) [] ∧ msgRefused (turned s) 0 (curKey (turned s)) (mkHeader 0x11 0 0 0 0 0 0x1C00 0) [] = none ∧
      queueHasRoom (turned s) (queueOf 0 (curKey (turned s)) (mkHeader 0x11 0 0 0 0 0 0x1C00 0)) = false) ∧
    (let s := sending 0x6100 0; let u := readAt (turned s) (opA (turned s)) 1; let m := u.2.getD 0 0; let v := readAt u.1 (opA u.1) 1;
      Beats (turned s) (opA (turned s)) 1 u.1 u.2 ∧ Beats u.1 (opA u.1) (mBeats m + 1) v.1 v.2 ∧ fld m 98 22 = 0 ∧ mCont m = 0) ∧
    (let s := sending 0x6110 0; let u := readAt (turned s) (opA (turned s)) 1; Beats (turned s) (opA (turned s)) 1 u.1 u.2 ∧ fld (u.2.getD 0 0) 98 22 ≠ 0) ∧
    (let f := { fe with t0 := 1, arg := 1, i := true }; let s := sending 7 0; let t := fullOf { sending 7 0 with cmdNo := 32 }; let w := { t with cur := { t.cur with stage := some 37 } };
      Sends f.pr s ∧ Sends f.pr t ∧ s.cur.stage = none ∧ (let u := markSent (turned s); u.cmds.any (qwaitsFor f u u.cur 0) = false) ∧
      (let u := markSent (turned t); u.cmds.any (qwaitsFor f u u.cur 32) = true) ∧ w.cur.stage = some (5 + 32) ∧ w.cmds.any (qwaitsFor f w w.cur 32) = true ∧
      { w with cmds := [] }.cmds.any (qwaitsFor f w w.cur 32) = false) := by
  refine ⟨⟨by decide +kernel, beatsAt (by decide) (by decide +kernel) (by decide +kernel), by decide +kernel⟩, ⟨by decide +kernel, .inl ⟨rfl, rfl, rfl⟩, by decide +kernel⟩,
    ⟨beatsAt (by decide) (by decide +kernel) (by decide +kernel), beatsAt (by decide +kernel) (by decide +kernel) (by decide +kernel), by decide +kernel⟩,
    ⟨beatsAt (by decide) (by decide +kernel) (by decide +kernel), by decide +kernel⟩, by decide +kernel⟩

/-- An S word to slot a of instruction 1. -/
def fs (md : BitVec 6) (sr : BitVec 12) (imm : BitVec 26) : SFmt := ⟨0, md, 0x001, sr, imm⟩

/-- The block is a handler's at supervisor level. -/
def sup (s : State) : State :=
  { s with frames := [{ frame0 with trap := some ⟨recBase F_TRAP 0, .nothing, none⟩ }], blocks := [{ block0 with h0 := 0xFB02200000000000 }] }

/-- R433, R434: of two arrivals the first waits, the second opens generation 1 and clears the count; bara gives the generation
joined; another count is F_ILLOP. -/
theorem test_barriers :
    let half := withPart { part0 with bars := [⟨1, 0, 0, 5, 1, 2⟩] } (withOps 5 0 0)
    sentBy (exec (.bar (fs 0 0 0x10)) (withOps 0 0 0)) = [(.data, 0)] ∧ sentBy (exec (.bar (fs 1 0 0x10)) (withOps 0 0 0)) = [] ∧
    sentBy (exec (.bar (fs 1 0 0x10)) half) = [(.data, 6)] ∧ sentBy (exec (.bara (fs 1 0 0x10)) half) = [(.data, 5)] ∧
    (part (nextOf (exec (.bara (fs 1 0 0x10)) half) base) 0).bars = [⟨1, 0, 0, 6, 0, 2⟩] ∧ sentBy (exec (.barw (fs 1 0 0)) half) = [] ∧
    sentBy (exec (.barw (fs 1 0 0)) { half with cur := instOf 0 4 0 0 }) = [(.data, 5)] ∧
    (haltedBy (exec (.bar (fs 1 0 0x20)) half)).map (·.1) = some F_ILLOP := by decide +kernel

/-- Younger, of scope 0, the last and not the last arrival, another count, an instance that waits for its generation or for its
flits; and a pod group, with room for the package's own flit and without. -/
theorem witness_Barriers :
    let s := withOps 5 0 0
    let half := withPart { part0 with bars := [⟨1, 0, 0, 5, 1, 2⟩] } s
    let pod := withPart { part0 with ent := part0.ent.set 0 0x8000000000000001 } s
    let f := fs 1 0 0x10
    let b := curBar f half
    Acts f.pr s ∧ curSettled { s with blocks := [{ block0 with seq := 9 }, block0] } = false ∧ curSettled s = true ∧ s.cur.stage = none ∧ b.scope ≠ 5 ∧
    (curSettled pod = true ∧ (curBar (fs 5 0 0x10) pod).scope = 5 ∧ (curBar (fs 5 0 0x10) s).scope = 4 ∧ rxRoom pod localPart = true ∧
      rxRoom { pod with pkg := { pod.pkg with rxbuf := List.replicate 128 (24, ⟨0, [], none⟩) } } localPart = false) ∧
    (∀ k, k = 1 ∨ k = 2 ∨ k = 257 ∨ k = barSent → { s with cur := { s.cur with stage := some k } }.cur.stage = some k) ∧ 257 < barSent ∧
    fld (fs 0 0 0).md 0 3 = 0 ∧ fld f.md 0 3 ≠ 0 ∧
    b = ⟨1, 0, 0, 5, 1, 2⟩ ∧ b.cnt + 1 = fld f.imm 4 16 + 1 ∧ b.cnt + 1 ≠ fld (fs 1 0 0x20).imm 4 16 + 1 ∧ b.cnt ≠ 0 ∧ fld (fs 1 0 0x20).imm 4 16 + 1 ≠ b.n ∧
    (barOf s 0 1 0 0).cnt = 0 ∧ arriveBar b 2 = some (⟨1, 0, 0, 6, 0, 2⟩, 5) ∧ b.gen = BitVec.setWidth 8 (opA half) ∧ b.gen ≠ BitVec.setWidth 8 (opA (withOps 4 0 0)) := by
  refine ⟨by decide +kernel, by decide +kernel, by decide +kernel, rfl, by decide +kernel, by decide +kernel, fun _ _ => rfl, ?_⟩
  decide +kernel

/-- A partition with a budget of 100, of which 30 are used and a tree holds 20. -/
def partE : Part := { part0 with enBudget := 100, enUsed := 30, trees := [⟨0, 1, 20, true, false, 0⟩] }

/-- A launch record at 0x6000 for an entry at 0x4000. -/
def launchMem : Memory :=
  wr64 (wr64 (wr64 tables 0x6008 0x0100000300000000) 0x6010 0xFFFFF00000000000) 0x6018 0x4000

/-- R435–R439: time, a grant within the headroom and one that all-or-nothing denies, the four quantities of equery. -/
theorem test_time :
    let s := withPart partE { withOps 60 0 0 with pkg := { State.reset.pkg with podTime := 0x123456789 } }
    let e := fun (i : Instr) => (sentBy (exec i s)).map (·.2)
    e (.tnow (fs 0 0 0)) = [0x123456789] ∧ e (.elease (fs 0 0 0)) = [50] ∧ e (.elease (fs 1 0 0)) = [0] ∧
    ((part (nextOf (exec (.elease (fs 0 0 0)) s) base) 0).trees.map (·.lease)) = [70] ∧
    e (.equery (fs 0 0 0)) = [20] ∧ e (.equery (fs 1 0 0)) = [30] ∧ e (.equery (fs 2 0 0)) = [100] ∧ e (.equery (fs 3 0 0)) = [50] ∧
    (haltedBy (exec (.tnow (fs 0 0 0)) (withPart { partE with det := true } s))).map (·.1) = some F_DETVIOL ∧
    (nextOf (exec (.yield (fs 0 0 4)) s) base).waits.length = 1 := by decide +kernel

theorem test_attime :
    let s := { withOps 0x6000 77 0 with mem := launchMem }
    let t := nextOf (exec (.attime (fs 0 0 0)) s) base
    t.net.map (fun x => x.tok.data) = [0] ∧ (part t 0).timed.map (fun x => (x.slot, x.start)) = [(0, 77)] ∧
    (haltedBy (exec (.attime (fs 0 0 0)) { withOps 0x6000 77 0 with mem := tables })).map (·.1) = some F_ILLOP := by decide +kernel

/-- Time that may and may not be read; a record that passes with room and without, and one that fails; with a tree and without
one; headrooms below and above what is asked. -/
theorem witness_TimeAndEnergy :
    let s := { withOps 0x6000 77 0 with mem := launchMem }
    let rec1 := fun (s : State) => match checked s 0x6000 64 16 false with
      | (s1, .ok rs) => ((loadRuns s1 0x3F rs).2, BitVec.ofNat 512 (ofBytes (loadRuns s1 0x3F rs).1))
      | _ => (s, 0)
    let u := rec1 s
    let v := rec1 { s with mem := tables }
    (Acts 0 s ∧ timeBarred s 0 = false ∧ timeBarred (withPart { partE with det := true } s) 0 = true ∧ curOldest s = true ∧
      recordBad u.1 0 u.2 = none ∧ freeTimed (part u.1 0) = some 0 ∧ freeTimed { part0 with timed := (List.range 32).map fun k => ⟨k, 0, 0, 0⟩ } = none ∧ s.cur.rcd = none ∧ accessTurn s = true ∧
      attimeBefore s = false ∧ attimeBefore { s with cur := { s.cur with stage := some 12 }, waits := [{ s.cur with word := 0xE400000000000000, stage := some 11, rcd := some 0 }] } = true ∧
      (recordBad v.1 0 v.2).isSome = true ∧ s.cur.stage = none ∧ treeRec s = none ∧ treeRec (withPart partE s) = some ⟨0, 1, 20, true, false, 0⟩ ∧
      fld (fs 0 0 0).md 0 2 = 0 ∧ fld (fs 1 0 0).md 0 2 = 1 ∧ fld (fs 2 0 0).md 0 2 = 2 ∧ fld (fs 3 0 0).md 0 2 = 3) ∧
    (∃ s1 rs, Translates s (opA s).toNat 64 16 false s1 rs) ∧
    (grant false 60 50 = 50 ∧ grant true 60 50 = 0 ∧ grant true 50 50 = 50 ∧ grant false 60 (-1) = 0 ∧ grant true 0 (-1) = 0) :=
  ⟨by decide +kernel, translates (by decide +kernel), by decide +kernel⟩

/-- R89, R91, R440: each group of registers; a supervisor register at user level; wrsr's three registers and their checks. -/
theorem test_registers :
    let s := withPart { part0 with gen := 7, det := true, trapVec := 0x88, widthAch := 3 } { withOps 0 0 0 with frames := [{ frame0 with fname := 0x11, fstat := 5, fpc := 9 }] }
    let rd := fun (n : BitVec 12) (m : BitVec 26) => (sentBy (exec (.rdsr (fs 0 n m)) s)).map (·.2)
    rd 1 0 = [9] ∧ rd 2 0 = [5] ∧ rd 3 0 = [0x11] ∧ rd 0x10 0 = [0] ∧ rd 0x11 0 = [7] ∧ rd 0x12 0 = [3] ∧ rd 0x12 1 = [0] ∧ rd 0x13 0 = [1] ∧
    rd 0x14 0 = [0x1000000000] ∧ rd 0x15 0 = [] ∧ rd 0x30 0 = [256] ∧ rd 0x60 0 = [3] ∧ rd 0x71 0 = [0xFFFFFFFF] ∧ rd 0x80 0 = [0xFFFFFFFFFFFFFFFF] ∧ rd 0xF0 0 = [3200] ∧
    (haltedBy (exec (.rdsr (fs 0 0x20 0)) s)) = some (F_PROT, 0x20, 0) ∧ (haltedBy (exec (.rdsr (fs 0 0x50 0)) s)).map (·.1) = some F_DETVIOL ∧
    (sentBy (exec (.rdsr (fs 0 0x20 0)) (sup (withPart { part0 with trapVec := 0x88 } (withOps 0 0 0))))).map (·.2) = [0x88] ∧
    (curBlock (nextOf (exec (.wrsr (fs 0 2 0)) (withOps 0x7F 0 0)) base)).map (·.wrsrs) = some [(2, 0x7F)] ∧
    (curBlock (nextOf (exec (.wrsr (fs 0 0x20 0)) (sup (withOps 0x88 0 0))) base)).map (·.wrsrs) = some [(0x20, 0x88)] ∧
    (haltedBy (exec (.wrsr (fs 0 0x20 0)) (sup (withOps 0x8C 0 0)))).map (·.1) = some F_ALIGN ∧
    (haltedBy (exec (.wrsr (fs 0 0x60 0)) (sup (withOps 1 0 0)))).map (·.1) = some F_PROT := by decide +kernel

theorem witness_SystemRegisters :
    let s := withOps 0x88 0 0
    Acts 0 s ∧ srReadS 0x20 = true ∧ curSup s = false ∧ curSup (sup s) = true ∧ timeBarred (withPart { partE with det := true } s) 0 = true ∧ timeBarred s 0 = false ∧
    blockFpc s s.cur.part (curFrame s) s.cur.seq = some 0 ∧ curOldest s = true ∧ frame? s s.cur.part (curFrame s) = some frame0 ∧ srReadS 3 = false ∧
    canon (opA (sup s)).toNat = true ∧ (opA (sup s)).toNat % 8 = 0 ∧ (opA (sup (withOps 0x8C 0 0))).toNat % 8 ≠ 0 ∧ canon (opA (withOps 0x0100000000000000 0 0)).toNat = false ∧
    opA (withOps 0 0 0) = 0 := by decide +kernel

/-- R441–R445: trap halts with slot a; hcall at user level, of 2, of 3 and of 16; event in a block and in a grid; fpcset of an
immediate, of slot a and of a null. -/
theorem test_services :
    let s := withOps 0x15 0 0
    haltedBy (exec (.trap (fs 0 0 0x77)) s) = some (F_TRAP, 0x15, 0) ∧ haltedBy (exec (.brk (fs 0 0 0)) s) = some (F_BRK, 0x15, 0) ∧
    (haltedBy (exec (.brk (fs 1 0 0)) s)).map (·.1) = some F_BRK ∧ haltedBy (exec (.hcall (fs 0 0 2)) s) = some (F_PROT, 2, 0) ∧
    entWord (nextOf (exec (.hcall (fs 0 0 2)) (sup s)) base) 0 12 = 0x15 ∧ sentBy (exec (.hcall (fs 0 0 3)) (sup s)) = [(.data, 0xFFFFFFFFFFFFFFFF)] ∧
    (nextOf (exec (.hcall (fs 0 0 16)) (sup s)) base).waits.length = 1 ∧
    (curBlock (nextOf (exec (.event (fs 0 0 5)) s) base)).map (·.events) = some [(5, 0x15)] ∧
    sentBy (exec (.fpcset (fs 1 0 0x1F)) s) = [(.data, 0x1F)] ∧ (curBlock (nextOf (exec (.fpcset (fs 0 0 0)) s) base)).map (·.fpc) = some (some (some 0x15)) ∧
    (curBlock (nextOf (exec (.fpcset (fs 0 0 0)) { s with cur := { s.cur with a := some ⟨.null, 0⟩ } }) base)).map (·.fpc) = some (some none) := by
  decide +kernel

/-- An invalidation descriptor at 0x6000: stage 1, one page of 16 KiB at 0x8000; and one of no stage. -/
def invMem : Memory := wr64 (wr64 tables 0x6000 0x8000) 0x6008 0x400000001

theorem witness_TrapsAndServices :
    let s := withOps 0x6000 0 0
    let dsc := fun (s : State) => match checked s 0x6000 32 8 false with
      | (s1, .ok rs) => (BitVec.ofNat 256 (ofBytes (loadRuns s1 0x3F rs).1) : BitVec 256)
      | _ => 0
    let i := sup { s with mem := invMem }
    (Acts 0 s ∧ bitAt (fs 0 0 0).md 0 = false ∧ bitAt (fs 1 0 0).md 0 = true ∧ curOldest s = true ∧ curSup s = false ∧ curSup (sup s) = true ∧ curOldest (sup s) = true ∧
      (sup s).cur.stage = none ∧ Acts 0 (sup s)) ∧
    (∃ s1 rs, Translates i (opA i).toNat 32 8 false s1 rs) ∧
    (invBad (dsc i) = false ∧ bitAt (dsc i) 99 = false ∧ invBad (dsc (sup s)) = true) ∧
    (s.cur.grid = none ∧ (inGrid (ctx0 0) (gridInst (dat 1) none none)).cur.grid = some 0 ∧ anyEos s.cur = false ∧ anyNull s.cur = false ∧ predOk 0 s = true ∧
      anyNull { s.cur with a := some ⟨.null, 0⟩ } = true ∧ anyEos { s.cur with a := some ⟨.null, 0⟩ } = false) :=
  ⟨by decide +kernel, translates (by decide +kernel), by decide +kernel, by decide +kernel⟩

/-! ### Tokens, blocks, launches and frames -/

/-- A word without targets. -/
def wd (i : Instr) : Word := (encode i).getD 0

/-- The block is of one add, and a token on its way to slot a of it. -/
def oneAdd (sl : Nat) (v : Word) : State :=
  { base with
    blocks := [{ block0 with words := [wd (.add ⟨0, false, 0, 0, 0x3FF, 0x3FF, 0⟩)], places := [(0, 0)] }]
    net := [⟨0, ⟨Tag.zero, .data, v, 0, [], none⟩, .dest (BitVec.ofNat 17 (sl * 128)), some 0, 255, none⟩] }

/-- The same with a token of data v at rest in a slot. -/
def resting (sl : Slot) (v : Word) (s : State) : State := { s with slots := [⟨0, 0, 0, sl, some 0, none, ⟨Tag.zero, .data, v, 0, [], none⟩⟩] }

/-- An instance at cell 0 that is ready. -/
def readyInst : Inst := { Inst.empty with word := wd (.add ⟨0, false, 0, 0, 0x3FF, 0x3FF, 0⟩), a := dat 1, b := dat 2 }

/-- R155, R156, R159, R165: the first token rests, its partner fires both, a second token for the same slot is F_DUPTOK. -/
theorem test_matching :
    (nextOf (exec (.tokenArrival 0) (oneAdd 0 5)) base).slots = [⟨0, 0, 0, .a, some 0, none, ⟨Tag.zero, .data, 5, 0, [], none⟩⟩] ∧
    (nextOf (exec (.tokenArrival 0) (resting .a 5 (oneAdd 1 6))) base).ready.map (fun i => (i.a, i.b)) = [(dat 5, dat 6)] ∧
    (nextOf (exec (.tokenArrival 0) (resting .a 5 (oneAdd 1 6))) base).slots = [] ∧
    haltedBy (exec (.tokenArrival 0) (resting .a 5 (oneAdd 0 6))) = some (F_DUPTOK, 5, 6) := by decide +kernel

/-- R28, R160, R177: a foreign FRAME is F_TAGRANGE; a gang is charged its lanes; aging. -/
theorem test_tokens :
    (let s := oneAdd 0 5;
      let t := nextOf (exec (.tokenArrival 0) { s with net := s.net.map fun x => { x with tok := { x.tok with tag := ⟨16, 0, 0⟩ } } }) base;
      (part t 0).trapQ.map (fun x => (x.rcd.code, x.rcd.g4, x.rcd.flags))) = [(F_TAGRANGE, 5, 8)] ∧
    (let t := nextOf (exec (.gangIssue 0 0) { base with ready := [readyInst, { readyInst with tag := ⟨0, 1, 0⟩ }] }) base; (t.pipe.length, t.ready.length, (part t 0).widthAch)) = (2, 0, 2) ∧
    (nextOf (exec (.priorityAging 0) { base with ready := [{ readyInst with wait := 4096, level := 3 }] }) base).ready.map (fun i => (i.level, i.wait)) = [(2, 0)] := by
  decide +kernel

theorem witness_TokensMove :
    let s := oneAdd 0 5
    let x : Flight := ⟨0, ⟨Tag.zero, .data, 5, 0, [], none⟩, .dest 0, some 0, 255, none⟩
    let out := fun (n : BitVec 20) => { x with tok := { x.tok with tag := ⟨n, 0, 0⟩ } }
    let e : QEntry := ⟨0, 0, 0, .a, x.tok, some (0, 0), 255⟩
    let r := { base with ready := [readyInst] }
    s.net[0]? = some x ∧ savedAway s 0 = false ∧ blockedBehind s.net 0 x = false ∧ (arrive { s with net := [] } x).isSome = true ∧
    inRange s 0 (out 16).tok.tag.frame.toNat = false ∧ inRange s 0 (out 15).tok.tag.frame.toNat = true ∧ frame? s 0 (out 15).tok.tag.frame.toNat = none ∧
    blockedBehind [out 15] 0 (out 15) = false ∧
    isOk (imageTouch s (nextOf (exec (.tokenArrival 0) s) s) x) = true ∧ inSlot s 0 = true ∧ [e][0]? = some e ∧ (tryCell { s with queues := [e] } e).isSome = true ∧
    (let q := { s with slots := [⟨0, 0, 0, .a, some 0, none, { x.tok with tag := ⟨0, 1, 0⟩ }⟩], queues := [e] }; (tryCell q e).isNone = true) ∧
    bayOwner r 0 = some 0 ∧ bayGated r 0 0 = false ∧ r.issued.contains (0, 0) = false ∧ inSlot r 0 = true ∧
    issueOrder r (isDet r 0) (r.ready.filter fun i => i.bay == 0 && i.cell == 0 && mayIssue r i) = [readyInst] ∧
    [{ readyInst with wait := 4096 }][0]? = some { readyInst with wait := 4096 } ∧ readyInst.level ≠ 0 := by decide +kernel

/-- Its partner rests, its word sound or poisoned; it rests not; a token rests where this one goes, of its identity or of
another. -/
theorem witness_TokensMatch :
    let s := oneAdd 0 5
    let b := { block0 with words := [wd (.add ⟨0, false, 0, 0, 0x3FF, 0x3FF, 0⟩)], places := [(0, 0)] }
    let t : Token := ⟨Tag.zero, .data, 5, 0, [], none⟩
    displaced b = false ∧ displaced { b with places := [(256, 0)] } = true ∧ Slot.a ∈ wordSlots (b.words.getD 0 0) ∧ Slot.c ∉ wordSlots (b.words.getD 0 0) ∧
    (wordSlots (b.words.getD 0 0)).filter (· != .a) = [.b] ∧ readyRoom s 0 0 = true ∧ readyRoom { s with ready := List.replicate 32 readyInst } 0 0 = false ∧
    rowPoison s 0 0 0 [.a, .b] .a = none ∧ (rowPoison { s with poison := [(.row, rowWord s 0 0 0 .b)] } 0 0 0 [.a, .b] .a).isSome = true ∧ b.held = none ∧
    (resting? { s with slots := [⟨0, 0, 0, .a, some 0, none, { t with tag := ⟨0, 1, 0⟩ }⟩] } 0 0 0 .a).map (fun x => sameId x t (some 0)) = some false ∧
    (let e : QEntry := ⟨0, 0, 0, .a, t, some (0, 0), 255⟩; let q := { s with queues := [e] };
      q.queues[0]? = some e ∧ together s e e = true ∧ (tryHead q 0 e).isSome = true ∧ (tryCell q e).isSome = true) ∧
    (resting? (resting .b 6 s) 0 0 0 .b).map (fun x => sameId x t (some 0)) = some true ∧ resting? s 0 0 0 .b = none ∧ resting? s 0 0 0 .a = none ∧
    (resting? (resting .a 6 s) 0 0 0 .a).map (fun x => sameId x t (some 0)) = some true ∧ resting? (resting .a 6 s) 0 0 0 .b = none := by decide +kernel

/-- Memory that holds at 0x4000 a block of one exit to itself, of R292. -/
def codeMem : Memory := wr64 (wr64 tables 0x4000 0xFB00400000000000) 0x4010 (wd (.exit ⟨0, 0, 0, 0x3FF, 0⟩))

/-- A frame that fetches there. -/
def fetching (m : Memory) : State := { base with mem := m, frames := [{ frame0 with nextAddr := some 0x4000 }], blocks := [] }

/-- R33, R34, R38, R292, R305, R306: a block enters; a header without the marker is F_ILLOP at index 128; a block without its
write raises F_NOEXIT and names it; placement gives a cell-context; commit ends the frame of a final block. -/
theorem test_blocks :
    (nextOf (exec (.blockFetch 0 0 none) (fetching codeMem)) base).blocks.map (fun b => (b.addr, b.words.length, b.seq)) = [(0x4000, 1, 1)] ∧
    haltedBy (exec (.blockFetch 0 0 none) (fetching tables)) = some (F_ILLOP, 0, 0) ∧
    (nextOf (exec (.blockPlacement 0 0) { base with blocks := [{ block0 with words := [wd (.mov (fa 0 0))], places := [] }] }) base).blocks.map (·.places.length) = [1] ∧
    haltedBy (exec (.blockCommit 0 0) { base with blocks := [{ block0 with h1 := 0x20 }] }) = some (F_NOEXIT, 0x20, 0) ∧
    (nextOf (exec (.blockCommit 0 0) base) base).frames = [] ∧ (nextOf (exec (.blockCommit 0 0) base) base).blocks = [] := by decide +kernel

/-- One block that fetches, one that is placed, one that commits and one that does not; an exitg token for a parked frame. -/
theorem witness_BlockEvents :
    let x : ExitgTok := ⟨0, 0, 0, ⟨Tag.zero, .data, 9, 0, [], none⟩, 0x4000, 0, .a⟩
    (let s := fetching codeMem; let fr := { frame0 with nextAddr := some 0x4000 };
      frame? s 0 0 = some fr ∧ fr.resident = true ∧ fr.fault = none ∧ fr.ending = false ∧ bayGated s 0 0 = false ∧ (blocksOf s 0 0).length < 4 ∧
      fetchTarget s fr none = some (0x4000, false) ∧ ∀ b ∈ blocksOf s 0 0, b.addr ≠ 0x4000) ∧
    (let b := { block0 with words := [wd (.mov (fa 0 0))], places := [] }; let s := { base with blocks := [b] };
      (blocksOf s 0 0).find? (fun b => displaced b || (b.places.isEmpty && b.held.isNone)) = some b ∧ displaced b = false ∧ assignPlaces b.words (freePlaces s 0) = some [(0, 7)] ∧
      bayGated s 0 0 = false ∧ readyFits s (readInsts s frame0 b [(0, 7)]) = true ∧ displaced { b with places := [(256, 0)] } = true) ∧
    ((blocksOf base 0 0).head? = some block0 ∧ block0.places ≠ [] ∧ savedAway base 0 = false ∧ inFlight base 0 0 0 = false ∧ receiptsMet block0 = true ∧ block0.ret = none ∧
      (base.stores.any fun h => h.part == 0 && h.frame == 0 && h.seq == 0 && h.region.isNone) = false ∧ receiptsMet { block0 with h1 := 0x20 } = false ∧
      frame0.retHold = none ∧ blockTurn base 0 0 = true ∧ editCheck base frame0 block0 = none ∧
      { block0 with ret := some (0, some 9) }.ret = some (0, some 9) ∧ { frame0 with retHold := some (7, none) }.retHold = some (7, none)) ∧
    (let fr := { frame0 with parked := true }; let s := { base with frames := [fr], blocks := [], exitgs := [x] };
      s.exitgs[0]? = some x ∧ fr.parked = true ∧ blocksOf s 0 0 = [] ∧ stopped s 0 = false ∧ exitgBehind s 0 x = false) := by decide +kernel

/-- A block that wrote r3 with 9, r4 with a null and sk1, with and without a write of FSTAT. -/
theorem witness_CommitApplies :
    let b := { block0 with wr := [(3, some 9), (4, none)], sk := [(1, some 7)], flags := 0x10, wrsrs := [(2, 1)] }
    frame0.g.length = 64 ∧ frame0.sk.length = 8 ∧ (b.wr.map (·.1)).Nodup ∧ (b.sk.map (·.1)).Nodup ∧ (3, some 9) ∈ b.wr ∧ (∀ v, (4, some v) ∉ b.wr) ∧
    (1, some 7) ∈ b.sk ∧ (∀ v, (0, some v) ∉ b.sk) ∧ assoc 0x002 b.wrsrs = some 1 ∧ assoc 0x002 block0.wrsrs = none := by
  refine ⟨by decide +kernel, by decide +kernel, by decide +kernel, by decide +kernel, by decide +kernel, ?_, by decide +kernel, ?_, by decide +kernel, by decide +kernel⟩ <;> intro v h <;> simp at h

/-- A launch record of priority L0 for 0x4000, with a lease. -/
def launchOf (lease : Nat) : List Beat := [0x01000003000000000000000000000000, 0x4000FFFFF00000000000, 0, BitVec.ofNat 128 lease]

/-- R170–R173: it joins the queue, it starts frame 0 with the first serial, its lease is bounded by the headroom. -/
theorem test_launches :
    let s := withPart { partE with inbox := [launchOf 50] } { base with frames := [], blocks := [] }
    let t := nextOf (exec (.hostLaunchIntake 0) s) base
    let u := nextOf (exec (.launchAdmission 0) t) base
    (part t 0).launch.map List.length = [1, 0, 0, 0] ∧ (part t 0).inbox = [] ∧
    u.frames.map (fun f => (f.num, f.fname, f.nextAddr, f.isRoot)) = [(0, 1, some 0x4000, true)] ∧ (part u 0).trees.map (·.lease) = [20, 50] ∧
    (nextOf (exec (.launchAdmission 0) (withPart { partE with launch := [[⟨recOf (launchOf 51), true⟩], [], [], []] } s)) base).frames = [] := by decide +kernel

theorem witness_Launches :
    let s := withPart { partE with inbox := [launchOf 50] } { base with frames := [], blocks := [] }
    let bad := withPart { partE with inbox := [launchOf 101] } s
    let q := withPart { partE with launch := [[⟨recOf (launchOf 50), true⟩], [], [], []] } s
    let t := withPart { partE with timed := [⟨3, 10, 10, recOf (launchOf 0)⟩] } { s with pkg := { s.pkg with podTime := 10 } }
    stopped s 0 = false ∧ (part s 0).inbox = launchOf 50 :: [] ∧ fld ((launchOf 50).headD 0) 120 8 = 1 ∧ recordBad s 0 (recOf (launchOf 50)) = none ∧
    (appendLaunch s 0 ⟨recOf (launchOf 50), true⟩).2 = true ∧ timedFirst s 0 = false ∧ recordBad bad 0 (recOf (launchOf 101)) = some (F_ENERGY, 0, 30) ∧
    stopped t 0 = false ∧ dueTimed (part t 0) t.pkg.podTime = some ⟨3, 10, 10, recOf (launchOf 0)⟩ ∧ (appendLaunch t 0 ⟨recOf (launchOf 0), false⟩).2 = true ∧
    live q 0 = true ∧ stopped q 0 = false ∧ (admitHead (refillAll q 0) 0 0).isSome = true ∧ 100 ≤ { partE with enUsed := 100 }.enUsed.toNat ∧
      (part q 0).launch.getD 0 [] = ⟨recOf (launchOf 50), true⟩ :: [] ∧
    headroom (part q 0) = 50 ∧ headroom (part q 0) < recLease (recOf (launchOf 51)) := by decide +kernel

/-- A spilled frame, of n tokens appended. -/
def spilled (n : Nat) : State :=
  { base with
    frames := [{ frame0 with resident := false }], blocks := []
    images := [{ part := 0, bay := 0, frame := 0, bytes := 0, gpa := 0, slots := [], entries := [], insts := [], bad := [],
                 appended := List.replicate n ⟨0, ⟨Tag.zero, .data, 0, 0, [], none⟩, .dest 0, none, 255, none⟩ }] }

/-- A record that waits for a trap frame. -/
def trapItem : TrapItem := ⟨{ recBase F_TRAP 0 with g4 := 5, aux := 6 }, .frame 0, none⟩

/-- R448, R450, R451: the trap frame starts at TRAP_VEC with the record in its first registers; without a vector the partition
halts. -/
theorem test_traps :
    let s := withPart { part0 with trapQ := [trapItem], trapVec := 0x4000 } base
    let t := nextOf (exec (.trapFrameAllocation 0) s) base
    (frame? t 0 1).map (fun f => (f.nextAddr, f.g.take 8)) = some (some 0x4000, recWords trapItem.rcd) ∧ (part t 0).trapQ = [] ∧
    (part (nextOf (exec (.trapFrameAllocation 0) (withPart { part0 with trapQ := [trapItem] } base)) base) 0).preHalted = true ∧
    (recWords trapItem.rcd).getD 4 0 = 5 := by decide +kernel

theorem witness_FramesStart :
    let d : SpawnRec := ⟨0, 0, none, 0x4000, 9, 0, .a, 0, 0, 0, 0⟩
    let s := { spilled 3 with deferred := [d] }
    let v := withPart { part0 with trapQ := [trapItem], trapVec := 0x4000 } base
    let fr := { newFrame 0 1 0 0 0 with trap := some trapItem, g := recWords trapItem.rcd ++ List.replicate 56 0 }
    (0 < freeRows (spilled 1024) 0 ∧ trapWants (spilled 1024) 0 = false ∧ departing (part (spilled 1024) 0) 0 = false ∧
      (part (spilled 1024) 0).preHalted = false ∧ (lowestName ((spilledOf (spilled 1024) 0 0).filter (appendFull (spilled 1024)))).isSome = true) ∧
    (lowestName ((spilledOf (spilled 1023) 0 0).filter (appendFull (spilled 1023))) = none ∧ (lowestName (spilledOf (spilled 1023) 0 0)).isSome = true ∧
      ((spilled 1023).deferred.any fun d => d.part == 0) = false) ∧
    (0 < freeRows s 0 ∧ trapWants s 0 = false ∧ s.deferred.find? (fun d => d.part == 0) = some d ∧ freeFrame s 0 = some 1 ∧ roomiest s 0 = some 0 ∧
      stopped s 0 = false ∧ departing (part s 0) 0 = false ∧
      (spilledOf s 0 0).any (appendFull s) = false ∧
      started (startFrame s { newFrame 0 1 0 0 d.fname with pri := d.pri, tree := d.tree, fpc := d.fpc, parent := d.parent } 0 d.addr) = true) ∧
    ((part v 0).trapQ = trapItem :: [] ∧ stopped v 0 = false ∧ faultsNow v trapItem = false ∧ trapItem.vec.getD (part v 0).trapVec ≠ 0 ∧
      { trapItem with vec := some 8 }.vec.getD 0 ≠ 0 ∧ liveTraps v 0 < 16 ∧ freeFrame v 0 = some 1 ∧ (∃ u b, launchRoom v 0 = .row u b) ∧
      isDet v 0 = false ∧ started (startFrame v fr 1 0x4000) = true) ∧ trapItem.vec.getD (part (withPart { part0 with trapQ := [trapItem] } base) 0).trapVec = 0 := by
  refine ⟨by decide +kernel, by decide +kernel, by decide +kernel, ⟨by decide +kernel, by decide +kernel, by decide +kernel, by decide +kernel,
    by decide +kernel, by decide +kernel, by decide +kernel, ⟨_, 1, rfl⟩,
    by decide +kernel, by decide +kernel⟩, by decide +kernel⟩

/-- A frame of a block that runs. -/
theorem witness_ExceptionIsTaken : frame? base 0 0 = some frame0 ∧ frame0.fault = none ∧ frame0.trap = none ∧ 0 < base.parts.length ∧ (recBase F_DUPTOK 0).part = 0 ∧
    (recBase F_DUPTOK 0).pkg = false := by decide +kernel

/-! ### Engine commands -/

/-- An issued command of frame 0 with EOP e, ARG n and those beats. -/
def cmdWith (e n : Nat) (beats : List Beat) : Cmd :=
  { cmdOf e 0 5 with
    r := ⟨decide (0x40 ≤ e), 0, 0⟩, hdr := mkHeader e 0 0 0 0 beats.length n 0, beats := beats, issued := true,
    sender := some ⟨[1], 0, 0, 0, 0, 1, false, 0, none⟩ }

/-- It stands at the head of its queue. -/
def engaged (m : Memory) (c : Cmd) : State := { base with mem := m, cmds := [c], cmdNo := 6 }

/-- An operand beat of the shelf, and of memory, of format sf at a with row pitch p. -/
def inShelf (sf a p : Nat) : Beat := BitVec.ofNat 128 (2 ^ 126 + sf * 2 ^ 122 + p * 2 ^ 22 + a)
def inMemory (sf a p : Nat) : Beat := BitVec.ofNat 128 (2 ^ 127 + sf * 2 ^ 122 + p * 2 ^ 64 + a)

/-- mm of [1 2; 3 -1] by [5 6; 7 8] as s8 into tile 0. -/
def mmCmd : Cmd := cmdWith 0x10 0 [inShelf 0 0x1000 16, inShelf 0 0x2000 16, BitVec.ofNat 128 (1 + 2 ^ 7 + 2 ^ 14 + 2 ^ 51)]

/-- The operands. -/
def mmState : State :=
  { engaged tables mmCmd with shelf := wr64 (wr64 (wr64 (wr64 [] 0x1000 0x0201) 0x1010 0xFF03) 0x2000 0x0605) 0x2010 0x0807 }

/-- The queue of the command, and the bytes of words of 4 bytes. -/
def eq0 : QRef := ⟨false, 0, 0⟩
def lq0 : QRef := ⟨true, 0, 0⟩
def words4 (m : Memory) (a n : Nat) : List Nat := (List.range n).map fun k => ofBytes (rdBytes m (a + 4 * k) 4)

/-- R77, R400: the four sums; R76: two chunks would differ, one product is exact; R401: a row moves to the accumulator and
back. -/
theorem test_matrix :
    (let t := nextOf (exec (.mmCommand eq0 9) mmState) base;
      words4 t.acc 0 2 = [19, 22] ∧ words4 t.acc 512 2 = [8, 10] ∧ t.cmds.map (·.status) = [some 0]) ∧
    mmSum 1 0x3F800000 [(0x40000000, 0x40400000)] = 0x40E00000 ∧ mmSum 1 0 [(0x7F800000, 0)] = 0x7FC00000 ∧
    (let t := nextOf (exec (.accldCommand eq0 3) { engaged dataMem (cmdWith 0x12 0 [inMemory 4 0x5000 0]) with acc := [] }) base;
      words4 t.acc 0 3 = [0x80FF0180, 0x3C00FFFE, 0] ∧ t.cmds.map (fun c => (c.pos, c.status)) = [(3, none)]) ∧
    (let t := nextOf (exec (.accstCommand eq0 2) { engaged dataMem (cmdWith 0x13 0 [inMemory 7 0x5000 0]) with acc := wr64 [] 0 0xC04000003FC00000 }) base;
      rdBytes t.mem 0x5000 4 = [0xC0, 0x3F, 0x40, 0xC0]) := by decide +kernel

/-- The value of an answer. -/
def valOf {α : Type} (d : α) (x : State × Got α) : α :=
  match x.2 with
  | .val v => v
  | _ => d

/-- An answer is a value. -/
def gotB {α : Type} (x : State × Got α) : Bool :=
  match x.2 with
  | .val _ => true
  | _ => false

/-- What evaluation finds answered with a value is so. -/
theorem gotAt {α : Type} (d : α) {x : State × Got α} (h : gotB x = true) : x = (x.1, .val (valOf d x)) := by
  obtain ⟨t, g⟩ := x
  cases g <;> simp [gotB, valOf] at *

/-- The same with the value known. -/
theorem gotVal {α : Type} {x : State × Got α} {v : α} (h : x.2 = .val v) : x = (x.1, .val v) := by rw [← h]

/-- Run m elements of a command, each of which must answer. -/
def performedRun (total : Nat) (f : State → Cmd → State) (id : Nat) : Nat → State → Option State
  | 0, s => (cmd? s id).bind fun c => if c.status = none ∧ c.held = false ∧ total ≤ c.pos then some s else none
  | m + 1, s => (cmd? s id).bind fun c => (cmd? (f s c) id).bind fun d =>
    if c.status = none ∧ c.held = false ∧ c.pos < total ∧ d.status = none ∧ d.held = false then
      performedRun total f id m (modCmd (f s c) id fun c => { c with pos := c.pos + 1 })
    else none

theorem performedRun_ok {total : Nat} {f : State → Cmd → State} {id : Nat} : ∀ {m : Nat} {s t : State},
    performedRun total f id m s = some t → Performed total f id m s t
  | 0, s, t, h => by
    simp only [performedRun, Option.bind_eq_some_iff] at h
    obtain ⟨c, hc, h⟩ := h
    split at h
    · next g => cases h; exact .last s c hc g.1 g.2.1 g.2.2
    · cases h
  | m + 1, s, t, h => by
    simp only [performedRun, Option.bind_eq_some_iff] at h
    obtain ⟨c, hc, d, hd, h⟩ := h
    split at h
    · next g => exact .elem m s t c d hc g.1 g.2.1 g.2.2.1 hd g.2.2.2.1 g.2.2.2.2 (performedRun_ok h)
    · cases h

/-- What evaluation finds performed is performed. -/
theorem performs {total : Nat} {f : State → Cmd → State} {id m : Nat} {s : State} (h : (performedRun total f id m s).isSome = true) :
    ∃ t, Performed total f id m s t := ⟨_, performedRun_ok (Option.eq_some_of_isSome h)⟩

/-- The four elements of an mm; the last of a row of an accld and of an accst; and the operands of an mm element. -/
theorem witness_MatrixCommands :
    (∃ t, Performed (mmM (mmCmd.beats.getD 2 0) * mmN (mmCmd.beats.getD 2 0)) mmElem mmCmd.id 4 mmState t) ∧
    (let s := engaged dataMem { cmdWith 0x12 0 [inMemory 4 0x5000 0] with pos := 127 };
      ∃ t, Performed 128 (fun s c => gotten c (readElem s c (c.beats.getD 0 0) 0 (c.pos / 128) (c.pos % 128) 0) fun s v => accFill s c (rangeWord c) (fld v 0 32)) 5 1 s t) ∧
    (let s := engaged dataMem { cmdWith 0x13 0 [inMemory 7 0x5000 0] with pos := 127 };
      ∃ t, Performed 128 (fun s c => gotten c (readAcc s c (rangeWord c) false) fun s v => accstBits c (c.beats.getD 0 0) s v fun s x =>
        gotten c (writeElem s c (c.beats.getD 0 0) 0 (c.pos / 128) (c.pos % 128) 0 x) fun s _ => s) 5 1 s t) ∧
    InEngine mmState eq0 0x10 mmCmd ∧ InEngine (engaged dataMem (cmdWith 0x12 0 [inMemory 4 0x5000 0])) eq0 0x12 (cmdWith 0x12 0 [inMemory 4 0x5000 0]) ∧
    InEngine (engaged dataMem (cmdWith 0x13 0 [inMemory 7 0x5000 0])) eq0 0x13 (cmdWith 0x13 0 [inMemory 7 0x5000 0]) ∧
    (∃ u w, ReadsAll mmState mmCmd (mmCmd.beats.getD 0 0) 0 (mmRow' (mmCmd.beats.getD 0 0) 0 2) u [1, 2] ∧
      ReadsAll u mmCmd (mmCmd.beats.getD 1 0) 0 (mmColOf (mmCmd.beats.getD 1 0) 0 2) w [5, 7] ∧
      withAcc w mmCmd (accIndex 0 0 0) true (fun s => (s, .val ())) = (w, .val ()) ∧ w.poison.contains (.acc, accKey mmCmd.bay (accIndex 0 0 0) / 8) = false) := by
  refine ⟨performs (by decide +kernel), performs (by decide +kernel), performs (by decide +kernel), by decide +kernel, by decide +kernel, by decide +kernel,
    ⟨(readElems mmState mmCmd (mmCmd.beats.getD 0 0) 0 (mmRow' (mmCmd.beats.getD 0 0) 0 2) []).1, _, gotVal (by decide +kernel), gotVal (by decide +kernel), ?_, ?_⟩⟩
  · exact withAcc_here (by decide +kernel)
  · decide +kernel

theorem witness_AcczeroClears :
    let c := cmdWith 0x11 0x1C00 []
    MemInv (engaged tables c) ∧ InEngine (engaged tables c) eq0 0x11 c ∧ c.pos = 0 ∧ parkedAt (engaged tables c) c.part c.bay = none :=
  ⟨⟨by decide +kernel, rfl, rfl⟩, by decide +kernel, rfl, by decide +kernel⟩

/-- A copy of three bytes at 0x5000 to f16 at 0x9000. -/
def copyCmd : Cmd := cmdWith 0x20 0 [inMemory 0 0x5000 0, inMemory 8 0x9000 0, 2]

/-- A sealing (1) or opening (2) copy of the page at 0, in HBM, and that at 0x2000000000, of the host, with its trailer at
0x20000. -/
def sealCmd (mode : Nat) : Cmd :=
  { cmdWith 0x20 0 [inMemory 5 (if mode = 1 then 0 else 0x2000000000) 0, inMemory 5 (if mode = 1 then 0x2000000000 else 0) 0,
      BitVec.ofNat 128 (2047 + mode * 2 ^ 56 + 0x20000 * 2 ^ 64)] with key := some 0 }

/-- The host page translates too. -/
def sealing (m : Memory) (mode : Nat) : State :=
  { engaged m (sealCmd mode) with
    tlb := tlb0 ++ [{ bay := 0, part := 0, va := 0x2000000000, size := 36, pa := 0x8000000000000, w := true, x := false, u := true, vr := false, uncached := false, dirty := true }] }

/-- R399, R402: -128, 1 and -1 as f16; the saturation of R402. -/
theorem test_copy :
    (let t := nextOf (exec (.copyCommand eq0 5) (engaged dataMem copyCmd)) base; rdBytes t.mem 0x9000 6 = [0x00, 0xD8, 0x00, 0x3C, 0x00, 0xBC] ∧ t.cmds.map (·.status) = [some 0]) ∧
    convSf 6 0 0 0x43960000 = some 127 ∧ convSf 6 1 0 0xBF800000 = some 0 ∧ convSf 6 2 0 0x40200000 = some 2 ∧ convSf 4 0 0 0x1FF = some 0xFF ∧ convSf 6 4 0 0x3F800000 = some 0x3F800000 := by
  decide +kernel

/-- A published vector of AES-256: the block of zeros under the key of zeros. -/
theorem test_aes : aesBlock (aesKeys (List.replicate 32 0)) (List.replicate 16 0) = (toBytes 16 0xdc95c078a2408989ad48a21492842087).reverse := by decide +kernel

/-- The check of a command's run. -/
def cmdCheck (s : State) (c : Cmd) (store : Bool) (va n algn : Nat) : State × Acc :=
  checkRun s c.bay c.part ⟨store, false, ((c.sender.map (·.sup)).getD true), true, cmdTree c⟩ ((c.sender.map (·.tag)).getD 0) (va : Int) n algn

/-- The runs of a command, as they are found. -/
def runsAt (s : State) (c : Cmd) (store : Bool) (va n algn : Nat) : State × List Run :=
  match cmdCheck s c store va n algn with
  | (t, .ok rs) => (t, rs)
  | (t, _) => (t, [])

/-- A run that passes, where no page fault is open and no word poisoned. -/
def passesAt (s : State) (c : Cmd) (store : Bool) (va n algn : Nat) : Bool :=
  s.pageFaults.isEmpty && (match cmdCheck s c store va n algn with
    | (t, .ok _) => t.poison.isEmpty
    | _ => false)

theorem runsAt_eq {s : State} {c : Cmd} {store : Bool} {va n algn : Nat} (h : passesAt s c store va n algn = true) :
    RunsAt s c store va n algn (runsAt s c store va n algn).1 (runsAt s c store va n algn).2 := by
  simp only [passesAt, Bool.and_eq_true, List.isEmpty_iff] at h
  obtain ⟨hf, h⟩ := h
  simp only [RunsAt, cmdRuns, runsAt, hf, List.any_nil, Bool.false_eq_true, if_false]
  rw [← cmdCheck]
  rcases hk : cmdCheck s c store va n algn with ⟨t, a⟩
  rw [hk] at h
  cases a with
  | ok rs =>
    have hp : poisonedAt t rs = none := by
      unfold poisonedAt
      rw [List.find?_eq_none]
      intro a _
      simp [List.isEmpty_iff.mp h]
    cases store <;> simp [hp]
  | miss => simp at h
  | page w => simp at h
  | bad x y => simp at h

/-- A plain, a sealing and an opening copy. -/
theorem witness_CopyCommands :
    (InEngine (engaged dataMem copyCmd) eq0 0x20 copyCmd ∧ cpMode (copyCmd.beats.getD 2 0) = 0) ∧ (∃ t, Performed 3 copyElem 5 3 (engaged dataMem copyCmd) t) ∧
    (let c := sealCmd 1; let s := sealing tables 1; let u := runsAt s c false (oVa (c.beats.getD 0 0)) 16384 8;
      let v := runsAt u.1 c true (oVa (c.beats.getD 1 0)) 16384 8; let w := runsAt v.1 c true (cpTrailer (c.beats.getD 2 0)) 32 32;
      (InEngine s eq0 0x20 c ∧ cpMode (c.beats.getD 2 0) = 1 ∧ inHbm u.2 = true ∧ inHost v.2 = true) ∧ RunsAt s c false (oVa (c.beats.getD 0 0)) 16384 8 u.1 u.2 ∧
        RunsAt u.1 c true (oVa (c.beats.getD 1 0)) 16384 8 v.1 v.2 ∧ RunsAt v.1 c true (cpTrailer (c.beats.getD 2 0)) 32 32 w.1 w.2) ∧
    (let c := sealCmd 2; let s := sealing tables 2; let u := runsAt s c false (oVa (c.beats.getD 0 0)) 16384 8;
      let v := runsAt u.1 c true (oVa (c.beats.getD 1 0)) 16384 8; let w := runsAt v.1 c false (cpTrailer (c.beats.getD 2 0)) 32 32;
      (InEngine s eq0 0x20 c ∧ cpMode (c.beats.getD 2 0) = 2 ∧ inHost u.2 = true ∧ inHbm v.2 = true) ∧ RunsAt s c false (oVa (c.beats.getD 0 0)) 16384 8 u.1 u.2 ∧
        RunsAt u.1 c true (oVa (c.beats.getD 1 0)) 16384 8 v.1 v.2 ∧ RunsAt v.1 c false (cpTrailer (c.beats.getD 2 0)) 32 32 w.1 w.2) := by
  refine ⟨by decide +kernel, performs (by decide +kernel), ?_, ?_⟩ <;> intro c s u v w <;>
    exact ⟨by decide +kernel, runsAt_eq (by decide +kernel), runsAt_eq (by decide +kernel), runsAt_eq (by decide +kernel)⟩

/-! ### Gather and link commands, issue and retirement -/

/-- Table slot 0: two rows of two numbers of 4 bytes at 0x8000, `out` commands bound to it, with geometry and base of R251. -/
def tab (base old outo outn : Nat) : BitVec 256 :=
  BitVec.ofNat 256 (base * 2 ^ 192 + old * 2 ^ 128 + 2 * 2 ^ 64 + 8 * 2 ^ 48 + 4 * 2 ^ 44 + outo * 2 ^ 9 + outn)

/-- The numbers 1 to 4 in that table, the list [1, 0] at 0x5000 and a source of two rows at 0x6000. -/
def tabMem : Memory :=
  wr64 (wr64 (wr64 (wr64 (wr64 tables 0x8000 0x0000000200000001) 0x8008 0x0000000400000003) 0x5000 1) 0x6000 0x0000001400000013) 0x6008 0x0000000600000005

/-- A command bound to that slot. -/
def bound (e n : Nat) (beats : List Beat) : Cmd := { cmdWith e n beats with base := 0x8000 }

/-- gath of both rows to 0x9000; scat and scatadd of 0x6000's rows; a swap of the slot that is under way. -/
def gathCmd : Cmd := bound 0x28 (2 * 2 ^ 5) [inMemory 4 0x5000 0, inMemory 4 0x9000 2, 0]
def scatCmd : Cmd := bound 0x2A (2 * 2 ^ 5) [inMemory 4 0x5000 0, inMemory 4 0x6000 2, 0]
def addCmd : Cmd := bound 0x2B (2 * 2 ^ 5) [inMemory 4 0x5000 0, inMemory 4 0x6000 2]
def swapCmd : Cmd := { cmdWith 0x2C 0 [0x8000, BitVec.ofNat 128 (2 + 8 * 2 ^ 32 + 4 * 2 ^ 48)] with pos := 1 }

/-- A group of two candidates of weights 1.0 and 2.0, of rows of floats. -/
def gathwCmd : Cmd := bound 0x29 (2 ^ 5 + 2 ^ 9) [inMemory 4 0x5000 0, inMemory 6 0x7000 0, inMemory 6 0x9000 2]

/-- A command on that slot. -/
def onTable (t : BitVec 256) (c : Cmd) : State := withPart { part0 with tables := [(0, t)] } (engaged tabMem c)

/-- A table of floats 1.0, 2.0; 3.0, 4.0. -/
def floatTab : State :=
  withPart { part0 with tables := [(0, BitVec.ofNat 256 ((tab 0x8000 0 0 1).toNat + 2 * 2 ^ 44))] }
    (engaged (wr64 (wr64 (wr64 tabMem 0x8000 0x400000003F800000) 0x8008 0x4080000040400000) 0x7000 0x400000003F800000) gathwCmd)

/-- R252, R404–R407: rows 1 and 0 are gathered; the source's rows are written and added; the weighted sum of rows 1 and 0; the
old base goes when nothing is bound to it. -/
theorem test_gather :
    (let t := nextOf (exec (.gathCommand eq0 3 []) (onTable (tab 0x8000 0 0 1) gathCmd)) base; words4 t.mem 0x9000 4 = [3, 4, 1, 2] ∧ t.cmds.map (·.status) = [some 0]) ∧
    words4 (nextOf (exec (.scatCommand eq0 3 []) (onTable (tab 0x8000 0 0 1) scatCmd)) base).mem 0x8000 4 = [5, 6, 19, 20] ∧
    words4 (nextOf (exec (.scataddCommand eq0 3 [] []) (onTable (tab 0x8000 0 0 1) addCmd)) base).mem 0x8000 4 = [6, 8, 22, 24] ∧
    words4 (nextOf (exec (.gathwCommand eq0 2 []) floatTab) base).mem 0x9000 2 = [0x40A00000, 0x41000000] ∧
    (let t := nextOf (exec (.tblswapCommand eq0) (onTable (tab 0x8000 0xA000 0 0) swapCmd)) base;
      tOldb (tableOf t 0 0) = 0xA000 ∧ t.cmds.map (·.status) = [some 0] ∧ tOldb (tableOf (nextOf (exec (.commandRetirement eq0) t) base) 0 0) = 0) := by decide +kernel

theorem witness_GatherCommands :
    InEngine (onTable (tab 0x8000 0 0 1) gathCmd) eq0 0x28 gathCmd ∧ gKv gathCmd.hdr = false ∧ gKv (cmdWith 0x28 16 []).hdr = true ∧
    InEngine floatTab eq0 0x29 gathwCmd ∧ InEngine (onTable (tab 0x8000 0 0 1) scatCmd) eq0 0x2A scatCmd ∧ gKv scatCmd.hdr = false ∧
    (let c := cmdWith 0x2A (2 ^ 4) []; InEngine (engaged tables c) eq0 0x2A c ∧ gKv c.hdr = true) ∧
    (let s := { onTable (tab 0x8000 0 0 1) addCmd with parts := { part0 with det := true } :: List.replicate 63 Part.reset }; InEngine s eq0 0x2B addCmd ∧ isDet s addCmd.part = true) ∧
    (∀ o, o = 0 ∨ o = 3 → InEngine (onTable (tab 0x8000 0xA000 o 0) swapCmd) eq0 0x2C swapCmd ∧ tOuto (tableOf (onTable (tab 0x8000 0xA000 o 0) swapCmd) 0 0) = o) ∧
    swapCmd.pos ≠ 0 ∧ swapCmd.part < base.parts.length ∧ tBase (tableOf (onTable (tab 0x8000 0xA000 0 0) swapCmd) 0 0) ≠ 0 := by
  refine ⟨by decide +kernel, by decide +kernel, by decide +kernel, by decide +kernel, by decide +kernel, by decide +kernel, by decide +kernel,
    by decide +kernel, ?_, by decide +kernel, by decide +kernel, by decide +kernel⟩
  rintro o (rfl | rfl) <;> decide +kernel

/-- The block runs skemb on sk1, which holds v, with its destination at a in the shelf and a live table slot 0 of four numbers
a row. -/
def embeds (v : Soft) (a : Word) : State := withPart { part0 with tables := [(0, BitVec.ofNat 256 ((tab 0x8000 0 0 0).toNat + 8 * 2 ^ 48))] } (soft v a 0)

/-- A latent of the four logits, with their digest, and with another. -/
def latent (good : Bool) : Soft := mkLatent 0 4 0 (if good then sha32 (softBytes (soft 0 0 0) 0 16) else 0)

/-- R423: a text token, a mixture of three and a latent each send their command; a changed vector is F_INTEG. -/
theorem test_embedding :
    let f : AFmt := ⟨0, false, 0, 0, 1, 0x3FF, 1⟩
    let sent := fun (v : Soft) => (nextOf (exec (.skemb f) (embeds v 0x1000)) base).cmds.map fun c => (mEop c.hdr, mBeats c.hdr, c.beats.length, mArg c.hdr)
    sent (textOf 5) = [(0x29, 3, 3, 512)] ∧ sent mix0 = [(0x29, 3, 3, 576)] ∧ sent (latent true) = [(0x20, 3, 3, 0)] ∧ sent (latent false) = [] ∧
    (haltedBy (exec (.skemb f) (embeds (latent false) 0x1000))).map (·.1) = some F_INTEG := by decide +kernel

/-- Each kind of value, its destination aligned in the shelf; the vector of a latent that still has its digest, and that has
not; and the queue with room, without, and the engine gated. -/
theorem witness_RecordsAndEmbeddings_embed :
    (∀ v, v = textOf 5 ∨ v = mix0 ∨ v = latent true ∨ v = latent false ∨ v = 0 →
      Acts 0 (embeds v 0x1000) ∧ Settled (embeds v 0x1000) ∧ inTurn (embeds v 0x1000) = true ∧ readSoft (turned (embeds v 0x1000)) 1 = some v) ∧
    (let t := turned (embeds (latent true) 0x1000); SoftHolds t (skAddr (latent true)) 16 t) ∧
    (accessTurn (turned (posState (textOf 5))) = true ∧ skKind (textOf 5) = 1) ∧ skKind mix0 = 2 ∧ skKind (latent true) = 3 ∧ skKind (latent false) = 3 ∧
    (let t := turned (embeds (latent true) 0x1000);
      tElems (tableOf t t.cur.part 0) = 4 ∧ (opA t).toNat % 4 = 0 ∧ (opA t).toNat + 4 * 4 ≤ 2 ^ 22 ∧ skLen (latent true) * efBytes (skEf (latent true)) = 16 ∧
      sha32 (softBytes t 0 16) = skDigest (latent true) ∧ sha32 (softBytes t 0 16) ≠ skDigest (latent false) ∧
      (let u := softRead t 16; msgRefused u 0 (curKey u) (skembHeader ⟨0, false, 0, 0, 1, 0x3FF, 1⟩ u 0x20 3 0) [shelfBeat 0 6 0, shelfBeat 0x1000 6 0, 3] = none)) ∧
    (let s := embeds mix0 0x1000; bayGated s 0 0 = false ∧ queueHasRoom s (queueOf 0 0 (skembHeader ⟨0, false, 0, 0, 1, 0x3FF, 1⟩ s 0x29 3 512)) = true ∧
      queueHasRoom (fullOf s) (queueOf 0 0 (mkHeader 0x11 0 0 0 0 0 0 0)) = false) := by
  refine ⟨?_, softHere (by decide +kernel), by decide +kernel, by decide +kernel, by decide +kernel, by decide +kernel, by decide +kernel, by decide +kernel⟩
  rintro v (rfl | rfl | rfl | rfl | rfl) <;> decide +kernel

/-- A template of mm at 0x6000 for handler 1 of the matrix engine (0x08), and a codebook there (0x2D). -/
def templateMem : Memory := wrBeat tables 0x6000 0x1000000300000000 0
def installCmd (h k : Nat) : Cmd := cmdWith 0x08 (h * 4 + k) [0x6000]
def cbCmd : Cmd := cmdWith 0x2D 3 [0x6000]

/-- A collective that has formed 7; one that has begun, of the members in l, with its control beat x and 7 as its own; ordered
sends, received packets and remote copies to package pk. -/
def collCmd : Cmd := { cmdWith 0x40 1 [] with old := true, out := 2, beats := [inMemory 4 0x5000 0, inMemory 4 0x9000 0, 0, 7] }
def begunColl (x : Beat) (l : List Beat) (out : Nat) : Cmd := { cmdWith 0x40 1 [] with out := out, beats := [inMemory 4 0x5000 0, inMemory 4 0x9000 0, x] ++ l ++ [7] }
def sendCmd (pk : Nat) : Cmd :=
  { cmdWith 0x41 1 [] with out := 1, base := 77, ver := 4, beats := [inMemory 1 0x5000 0, 0, BitVec.ofNat 128 pk, 9] }
def recvCmd (n : Nat) : Cmd := { cmdWith 0x42 n [inMemory 1 0x9000 0] with beats := [inMemory 1 0x9000 0, 0x11, 0x22] }
def xsendCmd (pk : Nat) : Cmd := cmdWith 0x43 2 [inMemory 1 0x5000 0, BitVec.ofNat 128 (0x9000 + pk * 2 ^ 64)]
def xgetCmd (pk : Nat) : Cmd := cmdWith 0x44 2 [BitVec.ofNat 128 (0x5000 + pk * 2 ^ 64), inMemory 1 0x9000 0]

/-- The same in a partition of pod group 1. -/
def inGroup (c : Cmd) : State := withPart { part0 with ent := part0.ent.set 0 0x8000000000000001 } (engaged dataMem c)

/-- R189, R408, R413; R409–R412: a template and a codebook; the result is written; a copy for this package goes to its own
receive part; bytes received and copied; a foreign package without a pod group is F_LINK. -/
theorem test_links :
    (nextOf (exec (.handlerInstallCommand eq0) (engaged templateMem (installCmd 1 0))) base).handlers.map (·.1) = [(0, 0, 1)] ∧
    (nextOf (exec (.handlerInstallCommand eq0) (engaged templateMem (installCmd 1 1))) base).cmds.map (·.status) = [some 0x8000000000000018] ∧
    (let t := nextOf (exec (.cbloadCommand eq0) (engaged templateMem cbCmd)) base;
      codebook t 0 3 = 0 ∧ codebook (nextOf (exec (.commandRetirement eq0) t) base) 0 3 = 0x10000003000000000000000000000000) ∧
    words4 (nextOf (exec (.collCommand lq0 ⟨[], []⟩) (engaged dataMem collCmd)) base).mem 0x9000 1 = [7] ∧
    (let t := nextOf (exec (.osendCommand lq0 []) (engaged dataMem (sendCmd 0))) base;
      t.pkg.rxbuf.map (fun x => (x.1, hdStamp x.2.hdr, hdSeq x.2.hdr, x.2.payload)) = [(24, 77, 4, [9])] ∧ t.cmds.map (·.status) = [some 0]) ∧
    (nextOf (exec (.osendCommand lq0 []) (engaged dataMem (sendCmd 5))) base).cmds.map (·.status) = [some (faultStatus F_LINK)] ∧
    rdBytes (nextOf (exec (.orecvCommand lq0) (engaged tables (recvCmd 2))) base).mem 0x9000 2 = [0x11, 0x22] ∧
    rdBytes (nextOf (exec (.xsendCommand lq0 ⟨0, []⟩) (engaged dataMem (xsendCmd 0))) base).mem 0x9000 2 = [0x80, 0x01] ∧
    rdBytes (nextOf (exec (.xgetCommand lq0 ⟨0, [5, 6]⟩) (inGroup (xgetCmd 3))) base).mem 0x9000 2 = [5, 6] ∧
    (nextOf (exec (.xgetCommand lq0 ⟨0, [5, 6]⟩) (engaged dataMem (xgetCmd 3))) base).cmds.map (·.status) = [some (faultStatus F_LINK)] := by decide +kernel

theorem witness_InstallAndLinkCommands_here :
    (let c := installCmd 1 0; let s := engaged templateMem c; let u := runsAt s c false (oVa (c.beats.getD 0 0)) 64 64; let x := readRuns u.1 c.part (cmdTree c) u.2;
      let e := mEop (BitVec.extractLsb' 0 128 (BitVec.ofNat 512 (ofBytes x.1)));
      (InEngine s eq0 0x08 c ∧ nbits (mArg c.hdr) 2 4 ≠ 0 ∧ needBeats e ≠ 0 ∧ engOf e = mArg c.hdr % 4 ∧ engOf e ≠ mArg (installCmd 1 1).hdr % 4) ∧
        RunsAt s c false (oVa (c.beats.getD 0 0)) 64 64 u.1 u.2) ∧
    (let s := engaged templateMem cbCmd; let u := runsAt s cbCmd false (oVa (cbCmd.beats.getD 0 0)) 32 32;
      InEngine s eq0 0x2D cbCmd ∧ RunsAt s cbCmd false (oVa (cbCmd.beats.getD 0 0)) 32 32 u.1 u.2) ∧
    (let c := { cbCmd with status := some 0 }; c.status = some 0 ∧ mEop c.hdr = 0x2D) := by
  refine ⟨?_, ?_, by decide +kernel⟩ <;> intros <;> exact ⟨by decide +kernel, runsAt_eq (by decide +kernel)⟩

/-- Up ports in a pod group. -/
def podOf (c : Cmd) : State := { inGroup c with pkg := { State.reset.pkg with ports := List.replicate 24 { Port.reset with state := 5 } } }

/-- What another member of a collective of n brings. -/
def brings (n : Nat) : Contribution := ⟨1, n, 0, 0, false, 1, 4, (0, 0, 0), [9]⟩

/-- A collective that has formed its result; that begins; that has a packet left, has lost one, meets members that differ, and
forms its result. -/
theorem witness_InstallAndLinkCommands_coll :
    (InEngine (engaged dataMem collCmd) lq0 0x40 collCmd ∧ collCmd.out ≠ 0 ∧ collCmd.old = true ∧ ∃ t, Performed 1 collElem 5 1 (engaged dataMem collCmd) t) ∧
    (let c := { cmdWith 0x40 1 [inMemory 4 0x5000 0, inMemory 4 0x9000 0, 0x7000] with out := 0 }; let s := engaged dataMem c;
      InEngine s lq0 0x40 c ∧ c.out = 0 ∧ (cmd? (beginColl s c) c.id).map (fun b => (b.status, b.held, b.out, b.old)) = some (none, false, 2, false)) ∧
    (let c := begunColl (2 ^ 64 + 2 ^ 84) [0, 3] 1; let s := podOf c; let u := handOut s c (clTable c) (collPackets s c) [];
      InEngine s lq0 0x40 c ∧ c.old = false ∧ (cmd? u c.id).map (fun d => (d.status, d.held, d.out)) = some (none, false, 2) ∧ clNm (clBeat c) = 2) ∧
    (let c := { begunColl (2 ^ 64) [0, 3] 3 with lost := true }; InEngine (podOf c) lq0 0x40 c ∧ handOut (podOf c) c (clTable c) (collPackets (podOf c) c) [] = podOf c ∧ clNm (clBeat c) < c.out) ∧
    (let c := begunColl (2 ^ 64) [0, 3] 3; let s := podOf c;
      InEngine s lq0 0x40 c ∧ handOut s c (clTable c) (collPackets s c) [] = s ∧ clNm (clBeat c) < c.out ∧ c.lost = false ∧ c.old = false ∧ allCame s c [brings 2] = true ∧
      mismatched s c [brings 2] = false ∧ mismatched s c [brings 3] = true ∧ (cmd? (formColl s c [brings 2]) c.id).map (fun e => e.beats.drop 3) = some [16] ∧
      ∃ t, Performed 1 collElem 5 1 (formColl s c [brings 2]) t) :=
  ⟨⟨by decide +kernel, by decide +kernel, by decide +kernel, performs (by decide +kernel)⟩, by decide +kernel, by decide +kernel, by decide +kernel,
    ⟨by decide +kernel, by decide +kernel, by decide +kernel, by decide +kernel, by decide +kernel, by decide +kernel, by decide +kernel, by decide +kernel, by decide +kernel,
      performs (by decide +kernel)⟩⟩

/-- An osend once its copies were handed out: what it shows. -/
def handed (s : State) (c : Cmd) (routes : List Nat) : Option (Option Word × Bool × Nat × Bool × Bool) :=
  let u := handOut s c (osList c) (fun dst => [ordPacket s c dst (osPayload c)]) routes
  (cmd? u c.id).map fun d => (d.status, d.held, d.out, d.lost, copiesLeft u d)

/-- An osend that begins; whose copy stays here, waits for its route, is still in the package, and is lost. -/
theorem witness_InstallAndLinkCommands_send :
    (let c := cmdWith 0x41 1 [inMemory 1 0x5000 0, 0x7000]; let s := engaged dataMem c;
      InEngine s lq0 0x41 c ∧ c.out = 0 ∧ (cmd? (beginSend s c) c.id).map (fun b => (b.status, b.held, b.out)) = some (none, false, 1)) ∧
    osCount (sendCmd 0) = 1 ∧ InEngine (engaged dataMem (sendCmd 0)) lq0 0x41 (sendCmd 0) ∧
    handed (engaged dataMem (sendCmd 0)) (sendCmd 0) [] = some (none, false, 2, false, false) ∧
    handed (podOf (sendCmd 5)) (sendCmd 5) [] = some (none, false, 1, false, false) ∧
    handed (podOf (sendCmd 5)) (sendCmd 5) [3] = some (none, false, 2, false, true) ∧
    handed (engaged dataMem (sendCmd 5)) (sendCmd 5) [] = some (none, false, 2, true, false) :=
  ⟨by decide +kernel, by decide +kernel, by decide +kernel, by decide +kernel, by decide +kernel, by decide +kernel, by decide +kernel⟩

/-- Carry the bytes of a command word by word, each of which must answer. -/
def carriedRun (take_ : State → Nat → Nat → State × Got (List Byte)) (put : State → Nat → List Byte → State × Got Unit) (dst total id : Nat) : Nat → State → Option State
  | 0, s => (cmd? s id).bind fun c => if c.status = none ∧ c.held = false ∧ total ≤ c.pos then some s else none
  | m + 1, s => (cmd? s id).bind fun c =>
    let n := min (total - c.pos) (8 - (dst + c.pos) % 8)
    match take_ s c.pos n with
    | (u, .val bs) => (match put u c.pos bs with
      | (v, .val ()) => if c.status = none ∧ c.held = false ∧ c.pos < total then carriedRun take_ put dst total id m (modCmd v id fun x => { x with pos := c.pos + n }) else none
      | _ => none)
    | _ => none

theorem carriedRun_ok {take_ : State → Nat → Nat → State × Got (List Byte)} {put : State → Nat → List Byte → State × Got Unit} {dst total id : Nat} :
    ∀ {m : Nat} {s t : State}, carriedRun take_ put dst total id m s = some t → Carried take_ put dst total id s t
  | 0, s, t, h => by
    simp only [carriedRun, Option.bind_eq_some_iff] at h
    obtain ⟨c, hc, h⟩ := h
    split at h
    · next g => cases h; exact .last s c hc g.1 g.2.1 g.2.2
    · cases h
  | m + 1, s, t, h => by
    simp only [carriedRun, Option.bind_eq_some_iff] at h
    obtain ⟨c, hc, h⟩ := h
    split at h
    · next u bs hu =>
      split at h
      · next v hv =>
        split at h
        · next g => exact .word s u v t c bs hc g.1 g.2.1 g.2.2 hu hv (carriedRun_ok h)
        · cases h
      · cases h
    · cases h

/-- What evaluation finds carried is carried. -/
theorem carries {take_ : State → Nat → Nat → State × Got (List Byte)} {put : State → Nat → List Byte → State × Got Unit} {dst total id m : Nat} {s : State}
    (h : (carriedRun take_ put dst total id m s).isSome = true) : ∃ t, Carried take_ put dst total id s t := ⟨_, carriedRun_ok (Option.eq_some_of_isSome h)⟩

/-- A packet that fits and one that does not; bytes sent and got here, and in another package, with and without a pod group. -/
theorem witness_InstallAndLinkCommands :
    (let c := recvCmd 2; let s := engaged tables c; InEngine s lq0 0x42 c ∧ (orBytes c).length ≤ mArg c.hdr ∧ mArg (recvCmd 1).hdr < (orBytes (recvCmd 1)).length ∧
      ∃ t, Carried (orTake c) (localWrite · c (c.beats.getD 0 0)) (localAt (c.beats.getD 0 0) 0) (orLen c) c.id s t) ∧
    (let c := xsendCmd 0; let s := engaged dataMem c; InEngine s lq0 0x43 c ∧ rmHere s (c.beats.getD 1 0) = true ∧
      ∃ t, Carried (localRead · c (c.beats.getD 0 0)) (xsendPut ⟨0, []⟩ c) (oVa (c.beats.getD 1 0)) (mArg c.hdr) c.id s t) ∧
    (let c := xsendCmd 3; let s := inGroup c; InEngine s lq0 0x43 c ∧ rmHere s (c.beats.getD 1 0) = false ∧ groupOf s c.part ≠ 0 ∧ groupOf (engaged dataMem c) c.part = 0 ∧
      ∃ t, Carried (localRead · c (c.beats.getD 0 0)) (xsendPut ⟨0, []⟩ c) (oVa (c.beats.getD 1 0)) (mArg c.hdr) c.id s t) ∧
    (let c := xgetCmd 0; let s := engaged dataMem c; InEngine s lq0 0x44 c ∧ mArg c.hdr ≠ 0 ∧ mArg (cmdWith 0x44 0 []).hdr = 0 ∧ rmHere s (c.beats.getD 0 0) = true ∧
      ∃ t, Carried (xgetTake ⟨0, []⟩ c) (localWrite · c (c.beats.getD 1 0)) (localAt (c.beats.getD 1 0) 0) (mArg c.hdr) c.id s t) ∧
    (let c := xgetCmd 3; let s := inGroup c; InEngine s lq0 0x44 c ∧ rmHere s (c.beats.getD 0 0) = false ∧ groupOf s c.part ≠ 0 ∧
      ∃ t, Carried (xgetTake ⟨0, [5, 6]⟩ c) (localWrite · c (c.beats.getD 1 0)) (localAt (c.beats.getD 1 0) 0) (mArg c.hdr) c.id s t) ∧
    (let c := { xsendCmd 3 with hdr := mkHeader 0x43 0 0 0 0 2 0 0 }; let s := inGroup c; InEngine s lq0 0x43 c ∧ rmHere s (c.beats.getD 1 0) = false ∧ groupOf s c.part ≠ 0 ∧ mArg c.hdr = 0 ∧
      ∃ t, Carried (localRead · c (c.beats.getD 0 0)) (xsendPut ⟨F_PROT, []⟩ c) (oVa (c.beats.getD 1 0)) (mArg c.hdr) c.id s t) ∧
    (let c := { xgetCmd 3 with hdr := mkHeader 0x44 0 0 0 0 2 0 0 }; let s := inGroup c; InEngine s lq0 0x44 c ∧ rmHere s (c.beats.getD 0 0) = false ∧ groupOf s c.part ≠ 0 ∧ mArg c.hdr = 0 ∧
      ∃ t, Carried (xgetTake ⟨F_PROT, []⟩ c) (localWrite · c (c.beats.getD 1 0)) (localAt (c.beats.getD 1 0) 0) (mArg c.hdr) c.id s t) :=
  ⟨⟨by decide +kernel, by decide +kernel, by decide +kernel, carries (m := 1) (by decide +kernel)⟩,
    ⟨by decide +kernel, by decide +kernel, carries (m := 1) (by decide +kernel)⟩,
    ⟨by decide +kernel, by decide +kernel, by decide +kernel, by decide +kernel, carries (m := 1) (by decide +kernel)⟩,
    ⟨by decide +kernel, by decide +kernel, by decide +kernel, by decide +kernel, carries (m := 1) (by decide +kernel)⟩,
    ⟨by decide +kernel, by decide +kernel, by decide +kernel, carries (m := 1) (by decide +kernel)⟩,
    ⟨by decide +kernel, by decide +kernel, by decide +kernel, by decide +kernel, carries (m := 0) (by decide +kernel)⟩,
    ⟨by decide +kernel, by decide +kernel, by decide +kernel, by decide +kernel, carries (m := 0) (by decide +kernel)⟩⟩

/-- A command of one element that pops FIFO 0 and pushes FIFO 1, not issued or ended, with continuation ck. -/
def fifoCmd (issued : Bool) (status : Option Word) (ck : Word) : Cmd :=
  { cmdWith 0x11 0 [] with hdr := mkHeader 0x11 0 0 2 1 0 0 (ck <<< 62), issued := issued, status := status }

/-- FIFO 0 holds n tokens. -/
def fifos (n : Nat) (c : Cmd) : State := { engaged tables c with sync := [((0, 0), n), ((0, 1), n)] }

/-- R188, R184: it waits for the token, takes it, and pushes at its retirement unless the FIFO is full. -/
theorem test_fifos :
    (nextOf (exec (.acczeroCommand eq0) (fifos 0 (fifoCmd false none 0))) base).cmds.map (·.issued) = [false] ∧
    (let t := nextOf (exec (.acczeroCommand eq0) (fifos 1 (fifoCmd false none 0))) base; t.cmds.map (·.issued) = [true] ∧ syncCount t 0 0 = 0) ∧
    (let t := nextOf (exec (.commandRetirement eq0) (fifos 15 (fifoCmd true (some 0) 0))) base; t.cmds = [] ∧ syncCount t 0 1 = 16) ∧
    (nextOf (exec (.commandRetirement eq0) (fifos 16 (fifoCmd true (some 0) 0))) base).cmds.length = 1 ∧
    (nextOf (exec (.commandRetirement eq0) (fifos 0 (fifoCmd true (some 5) 1))) base).net.map (fun x => x.tok.data) = [5] := by decide +kernel

theorem witness_CommandsIssueAndRetire :
    (let c := { mmCmd with issued := false }; let s := { mmState with cmds := [c] }; fenced s c = false ∧ popWaits s c = false ∧ mHnd c.hdr = 0 ∧ cmd? s c.id = some c ∧
      (∃ t, Issues s eq0 0x10 c t mmCmd) ∧ cmdHead s eq0 = some c ∧ c.issued = false ∧
      bayGated (withPart { part0 with preHalted := true } s) c.part c.bay = true) ∧
    (let c := { sealCmd 1 with issued := false, id := 9 }; let s := { base with cmds := [c, { sealCmd 1 with r := ⟨false, 1, 0⟩ }] };
      cmdHead s eq0 = some c ∧ c.issued = false ∧ sealReady s c = false) ∧
    popWaits (fifos 0 (fifoCmd false none 0)) (fifoCmd false none 0) = true ∧
    (let c := { cmdOf 0x11 0 7 with issued := false }; let d := cmdOf 0x11 0 3; fenced { base with cmds := [d, c], qfences := [⟨false, 0, 1, 5⟩] } c = true) ∧
    (∀ k, k < 4 → (let c := fifoCmd true (some 9) (BitVec.ofNat 64 k); let s := fifos 15 c; cmdHead s eq0 = some c ∧ c.status = some 9 ∧ mCk c.hdr = k ∧
      (∀ k ∈ setBits (mPush c.hdr) 6, syncCount s c.bay k < 16))) ∧
    (let c := fifoCmd true (some 9) 0; ∃ k ∈ setBits (mPush c.hdr) 6, 16 ≤ syncCount (fifos 16 c) c.bay k) := by
  refine ⟨⟨by decide +kernel, by decide +kernel, by decide +kernel,
    by decide +kernel, ⟨(issueCmd { mmState with cmds := [{ mmCmd with issued := false }] } { mmCmd with issued := false }).getD base, ?_⟩,
    by decide +kernel, by decide +kernel, by decide +kernel⟩, by decide +kernel, by decide +kernel, by decide +kernel, by decide +kernel, ⟨1, by decide +kernel⟩⟩
  decide +kernel

/-! ### Events of the memory edge and of the hypervisor -/

/-- A walk of the page at 0. -/
def walk0 : Walk := { bay := 0, part := 0, va := 0x5000, root := 0x10000, store := false, fetch := false, dirty := false, tag := 0 }

/-- An instance that waits, with a word of opcode op and that stage. -/
def waiting (op : BitVec 8) (stage : Nat) : State := { base with waits := [{ instOf (mw op) 7 0 0 with stage := some stage }] }

/-- It is bound in the region. -/
def streaming (pos : Nat) : State := { inGrid (ctx0 0) Inst.empty with mem := dataMem, streams := [stream0 pos] }

/-- R102, R104, R131, R385, R390, R112: the walk finds the page as large as both tables make it; a stream's second element,
then the marker; a wait that is over; the invalidation drops what it names. -/
theorem test_edge :
    (nextOf (exec (.pageWalk 0) { base with tlb := [], walks := [walk0] }) base).tlb.map (fun e => (e.va, e.size, e.pa, e.w, e.x, e.u)) = [(0, 36, 0, true, true, true)] ∧
    (nextOf (exec (.streamElementIssue 0 2) (streaming 1)) base).net.map (fun x => x.tok.data) = [0x80FF] ∧
    (nextOf (exec (.streamElementIssue 0 2) (streaming 4)) base).net.map (fun x => x.tok.kind) = [.eos] ∧
    (nextOf (exec (.streamElementIssue 0 2) (streaming 4)) base).streams = [] ∧
    (nextOf (exec (.invalidationSubmit (2 ^ 98 + 2 ^ 64)) base) base).tlb.length = 1 ∧ (nextOf (exec (.invalidationSubmit (2 ^ 98)) base) base).tlb = [] ∧
    (nextOf (exec (.invalidationSubmit 0) base) base).pkg.winRefused = true := by decide +kernel

/-- An element was read. -/
def elemValueB (e : Elem) : Bool :=
  match e with
  | .value _ => true
  | _ => false

/-- Each event at what it acts on; a stream whose oldest element is complete, and that reads on past it. -/
theorem witness_EdgeEvents :
    (inSlot base walk0.part = true ∧ isOk (walkEnd { base with walks := [] } walk0).2 = true) ∧
    (let s := waiting 0x98 0; let i := { instOf (mw 0x98) 7 0 0 with stage := some 0 }; s.waits[0]? = some i ∧ savedAway s i.part = false ∧ unplaced i = true ∧ canPlace { s with cur := i } = true ∧
      edgeOpen { s with cur := i } = true ∧ chainStuck s i = true ∧ lowestOwn s i = true) ∧
    (let s := withPart { part0 with det := true } (waiting 0x98 1); let i := { instOf (mw 0x98) 7 0 0 with stage := some 1 };
      s.waits[0]? = some i ∧ savedAway s i.part = false ∧ isMem (opOf i.word) = true ∧ unplaced i = false ∧ i.cleared = false ∧ isDet s i.part = true ∧ accessTurn { s with cur := i } = true) ∧
    (let s := waiting 0xA4 2; let i := { instOf (mw 0xA4) 7 0 0 with stage := some 2 };
      s.waits[0]? = some i ∧ opOf i.word = 0xA4 ∧ i.stage = some (2 + 0) ∧ 0 ≤ s.pkg.cycle ∧ unplaced i = false ∧ spurOpen s 0 0 = true ∧
      frame? { s with frames := [{ frame0 with spurAt := some 0 }] } 0 0 = some { frame0 with spurAt := some 0 } ∧ s.pkg.cycle < 0 + 1024) ∧
    (let i := { instOf 0xE700004000000000 7 0 0 with stage := some 0 }; let s := { base with waits := [i], pkg := { State.reset.pkg with cycle := 1024 } };
      s.waits[0]? = some i ∧ opOf i.word = 0xE7 ∧ yieldDue s 0 0 (getS i.word).imm.toNat = true ∧ anyNull i = false) ∧
    (stream? (streaming 1) 0 2 = some (stream0 1) ∧ streamRuns (streaming 1) (stream0 1) = true ∧ (stream0 1).waitcb = false ∧ nextElement (streaming 1) (stream0 1) = some 1 ∧
      streamTurn (streaming 1) (stream0 1) = true ∧ elemValueB (elemRead (streaming 1) (stream0 1) 1).2 = true ∧
      (let x := { stream0 1 with done := [(1, 9)] }; assoc x.pos x.done = some 9 ∧ nextElement { streaming 1 with streams := [x] } x = some 2)) ∧
    invBad 0 = true ∧ invBad (2 ^ 98) = false ∧
    (let v : Inval := ⟨0, 2 ^ 98, true, [0]⟩; let s := { base with invals := [v] }; s.invals[0]? = some v ∧ v.pending.all (bayQuiet s v.part) = true ∧
      v.pending.all (bayQuiet { s with walks := [walk0] } v.part) = false) := by
  refine ⟨by decide +kernel, by decide +kernel, by decide +kernel, by decide +kernel, by decide +kernel, by decide +kernel, by decide +kernel, by decide +kernel, by decide +kernel⟩

/-- A stage-2 fault that waits with its record, one of the device, and a call that waits. -/
def heldOf (f : PageFault) : State := { base with pageFaults := [f] }
def calling : State := { base with waits := [{ instOf 0xF400004000000010 7 0 0 with stage := some 5 }] }

/-- R442, R453, R456, R193: the answer of a call; UNHALT puts the record back; SAVE gates. -/
theorem test_hyper :
    (let t := nextOf (exec (.hfqRelease 0 3) { calling with pkg := { State.reset.pkg with hfqAnsv := 0x99 } }) base; t.net.map (fun x => x.tok.data) = [0x99] ∧ t.waits = []) ∧
    (nextOf (exec (.hfqAbort 0 3) calling) base).net.map (fun x => x.tok.data) = [0xFFFFFFFFFFFFFFFF] ∧
    (part (nextOf (exec (.preCtlUnhalt 0) (withPart { part0 with preHalted := true, haltRec := some trapItem } base)) base) 0).trapQ = [trapItem] ∧
    (part (nextOf (exec (.preCtlSave 0) base) base) 0).preBusy = true ∧ (part (nextOf (exec (.functionLevelReset 0) base) base) 0).vdGen = 1 ∧
    rd64 (nextOf (exec (.preemptSettled 0) (withPart { part0 with preBusy := true, bays := 0 } base)) base).mem 0x40000 / 2 ^ 48 = 0x5356 := by decide +kernel

theorem witness_AnswersAndPreEmption :
    (let f : PageFault := ⟨0, true, 0x5000, 3, some trapItem, [], [], false⟩; heldFault (heldOf f) 0 3 = some f ∧ f.item = some trapItem ∧ ∀ id, trapItem.victim ≠ .completion id) ∧
    (let f : PageFault := ⟨0, true, 0x5000, 3, none, [], [], false⟩; heldFault (heldOf f) 0 3 = some f ∧ f.item = none) ∧
    (let x : TrapItem := { trapItem with victim := .completion 4 }; let f : PageFault := ⟨0, true, 0x5000, 3, some x, [], [], false⟩; heldFault (heldOf f) 0 3 = some f ∧ f.item = some x) ∧
    (heldFault calling 0 3 = none ∧ (heldCall calling 0 3).isSome = true) ∧
    ((part base 0).vdRes = false ∧ (part (withPart { part0 with vdRes := true, preHalted := true } base) 0).vdRes = true ∧
      (part (withPart { part0 with vdRes := true, preHalted := true } base) 0).preHalted = true ∧ live base 0 = true ∧ (part base 0).preBusy = false ∧ (part base 0).preSaved = false ∧
      (part base 0).rszBusy = false ∧ (part (withPart { part0 with rszBusy := true } base) 0).rszBusy = true) ∧
    (let s := withPart { part0 with preBusy := true, bays := 0 } base; live s 0 = true ∧ (part s 0).preBusy = true ∧ (part s 0).preSaved = false ∧ settledPart s 0 = true ∧
      isOk (saveTouch s 0 (baysOf s 0).length true) = true) ∧
    (let saved := fun (h : Word) => withPart { part0 with preSaved := true } { base with mem := wr64 tables 0x40000 h };
      live (saved 0) 0 = true ∧ isOk (saveTouch (saved 0) 0 0 false) = true ∧ isOk (restoreBays (saved 0x5356000000000000) 0) = true ∧
      fld (rd64 (saved 0x5356000000000000).mem 0x40000) 48 16 = 0x5356 ∧ fld (rd64 (saved 0x5356000000000000).mem 0x40000) 40 8 = 0 ∧
      fld (rd64 (saved 0).mem 0x40000) 48 16 ≠ 0x5356) :=
  ⟨⟨by decide +kernel, by decide +kernel, by intro id h; cases h⟩, by decide +kernel, by decide +kernel, by decide +kernel, by decide +kernel, by decide +kernel, by decide +kernel⟩

/-- The package is up, no partition is live, and the entry of partition 0 is written but for VALID. -/
def unborn : State :=
  withPart { Part.reset with ent := part0.ent.set 0 0 } { base with frames := [], blocks := [], pkg := { State.reset.pkg with phase := 5, pcieUp := [true, false] } }

/-- R233–R236: creation, the budget of a live partition, a destruction that has settled; the window's kinds of registers. -/
theorem test_partitions :
    (let t := nextOf (exec (.partitionCreate 0) unborn) base; live t 0 = true ∧ (part t 0).bays = 3 ∧ (part t 0).gen = 0 ∧ (part t 0).enBudget = 0) ∧
    (part (nextOf (exec (.partitionEntryWrite 0 88 500) base) base) 0).enBudget = 500 ∧ (nextOf (exec (.partitionEntryWrite 0 8 500) base) base).pkg.winRefused = true ∧
    live (nextOf (exec (.partitionDestroy 0) base) base) 0 = false ∧ (nextOf (exec (.partitionDestroy 0) base) base).frames = [] ∧
    (nextOf (exec (.windowRegisterWrite ⟨0x1008, 8⟩ 9) unborn) base).pkg.wmTimeout = 9 ∧ (nextOf (exec (.windowRegisterWrite ⟨0x1009, 8⟩ 9) unborn) base).pkg.winRefused = true := by
  decide +kernel

theorem witness_PartitionsAndWindow :
    (let e := (part unborn 0).ent.set 0 (BitVec.ofNat 64 (putFld (entWord unborn 0 0).toNat 63 1 1));
      live unborn 0 = false ∧ createBad unborn 0 e = false ∧ (zeroPages 0 514 unborn (e.getD 14 0).toNat (8 * (rangeOf (e.getD 9 0)).2)).2 = true ∧
      createBad { unborn with pkg := State.reset.pkg } 0 e = true) ∧
    (live base 0 = true ∧ (part base 0).rszBusy = false ∧ (part (withPart { part0 with rszBusy := true } base) 0).rszBusy = true ∧
      live (withPart { part0 with rszBusy := true } base) 0 = true ∧
      settledPart (modPart base 0 fun t => { t with dying := true }) 0 = true ∧ settledPart (modPart { base with walks := [walk0] } 0 fun t => { t with dying := true }) 0 = false) ∧
    hostLink unborn = true := by decide +kernel

/-- A resize descriptor at 0x50000: bays, slices, channels at 0x50100, calendar. -/
def rszMem (bays : Word) : Memory :=
  wr64 (wr64 (wr64 (wr64 (wr64 tables 0x50000 bays) 0x50010 3) 0x50020 0x50100) 0x50028 0xFFFFFFFFFFFFFFFF) 0x50100 1

/-- Partition 0 with the new sets of bay 0 and channel 0 alone, in step k. -/
def resizing (k : Nat) : State :=
  withPart { part0 with rszBusy := true, rszStep := k, rszNew := [1, 0, 3, 0, 1, 0, 0, 0, 0xFFFFFFFFFFFFFFFF, 0x1000000000, 0, 0x50000] } { base with mem := rszMem 1 }

/-- A partition whose cellar has room for a bay. -/
def roomy (m : Memory) : State := withPart { part0 with ent := part0.ent.set 16 0x1000000 } { base with mem := m }

/-- R240–R246: a descriptor without bays is 2, without room in the cellar 5, an acceptable one starts; a step is made; the end
writes RESULT 0. -/
theorem test_resize :
    rd64 (nextOf (exec (.resizeGo 0 0x50001) { base with mem := rszMem 0 }) base).mem 0x50038 = 0x0200000000000000 ∧
    rd64 (nextOf (exec (.resizeGo 0 0x50001) { base with mem := rszMem 1 }) base).mem 0x50038 = 0x0500000000000000 ∧
    (part (nextOf (exec (.resizeGo 0 0x50001) (roomy (rszMem 1))) base) 0).rszStep = 1 ∧
    (part (nextOf (exec (.resizeMigrate 0 []) (resizing 2)) base) 0).rszStep = 3 ∧
    (part (nextOf (exec (.resizeSliceRehash 0) (resizing 3)) base) 0).rszStep = 4 ∧
    (let t := nextOf (exec (.resizeComplete 0) (resizing 6)) base; (part t 0).bays = 1 ∧ (part t 0).rszBusy = false ∧ (part t 0).gen = 1 ∧ rd64 t.mem 0x50038 / 2 ^ 56 = 0) := by decide +kernel

/-- Descriptors that cannot be read, fail and pass; each step. -/
theorem witness_Resizing :
    (let s := roomy (rszMem 1); let u := modPart s 0 fun t => { t with rszDesc := BitVec.ofNat 64 (fld (0x50001 : Word) 6 46 * 64) };
      bitAt (0x50001 : Word) 0 = true ∧ (part s 0).rszBusy = false ∧ live s 0 = true ∧ (readResize u.mem (fld (0x50001 : Word) 6 46 * 64)).map (resizeResult u 0) = some 0 ∧
      (readResize (rszMem 0) 0x50000).map (resizeResult u 0) = some 2 ∧ readResize (wr64 (rszMem 1) 0x50020 1) 0x50000 = none) ∧
    (∀ k, 1 ≤ k → k ≤ 6 → (part (resizing k) 0).rszBusy = true ∧ (part (resizing k) 0).rszStep = k ∧ (part (resizing k) 0).preBusy = false ∧ (part (resizing k) 0).preSaved = false) ∧
    (departingBays (part (resizing 1) 0)).all (baySettled (resizing 1) 0) = true ∧
    isOk (departKeys 0 ((departingBays (part (resizing 1) 0)).map fun b => (b, b)) (arrivingBays (part (resizing 1) 0)) (resizing 1)) = true ∧
      bitAt ((part (resizing 6) 0).rszNew.getD 10 0) 6 = false :=
  ⟨by decide +kernel, fun _ _ _ => ⟨rfl, rfl, rfl, rfl⟩, by decide +kernel, by decide +kernel, by decide +kernel⟩

/-! ### Time, links, management and the host -/

/-- The package at pod time t in cycle c, its port 3 in state st. -/
def linked (st t c : Nat) : State :=
  { base with pkg := { State.reset.pkg with podTime := BitVec.ofNat 64 t, cycle := c, phase := 5, ports := Pkg.reset.ports.modify 3 fun x => { x with state := st } } }

/-- A header of R202 of class cls for package dst, with stamp and watermark t. -/
def hdr0 (cls dst t : Nat) : BitVec 256 := BitVec.ofNat 256 (t * 2 ^ 208 + t * 2 ^ 160 + dst * 2 ^ 90 + cls * 2 ^ 80 + 4 * 2 ^ 64)

/-- The same port with an egress or watchdog state f. -/
def portIs (s : State) (f : Port → Port) : State := { s with pkg := { s.pkg with ports := s.pkg.ports.modify 3 f } }

/-- R198, R203, R268: a tick, a slew of two ticks, a beacon after 640 ticks of silence; the cap's bounds; the shed that 2,400
under a power of 3,000 asks. -/
theorem test_time_and_power :
    (let t := nextOf (exec .podTimeTick (linked 0 7 3)) base; (t.pkg.podTime, t.pkg.cycle)) = (8, 4) ∧
    (let s := linked 0 7 3; let t := nextOf (exec .podTimeTick { s with pkg := { s.pkg with drift := 5 } }) base; (t.pkg.podTime, t.pkg.slewAt)) = (9, 259) ∧
    (((nextOf (exec (.beaconSend 3) (linked 5 640 3)) base).pkg.ports[3]?).map fun x => (x.lastSent, x.replay.length)) = some (640, 1) ∧
    (((nextOf (exec (.beaconSend 3) (linked 5 639 3)) base).pkg.ports[3]?).map fun x => x.replay.length) = some 0 ∧
    (nextOf (exec (.pkgPcapWrite 100) base) base).pkg.pcap = 800 ∧ (nextOf (exec (.pkgPcapWrite 5000) base) base).pkg.pcap = 3200 ∧
    (let s := linked 0 0 2500000; (nextOf (exec (.energyReconciliation 3000000000) { s with parts := [], pkg := { s.pkg with pcap := 2400 } }) base).pkg.pcHold) = 13 ∧
    (let t := nextOf (exec (.watchdogHit 0 false 0 0) (withPart { part0 with wdLimit := 1, wdCycles := 2048 } (resting .a 5 (linked 0 0 2048)))) base; (part t 0).wdHits) = 1 := by
  decide +kernel

theorem witness_TimeAndPower :
    (let s := linked 5 640 3; let x := { Port.reset with state := 5 };
      s.pkg.ports[3]? = some x ∧ x.lastSent + 640 ≤ s.pkg.podTime.toNat ∧ x.replay.length < 512 ∧ portUp s 3 = true ∧ hdCls (hdr0 2 0 600) = 2 ∧ stampNear s (hdStamp (hdr0 2 0 600)) = true ∧
      stampNear s (hdWm (hdr0 2 0 600)) = true ∧ stampNear s (hdStamp (hdr0 2 0 (2 ^ 47))) = false) ∧
    ((linked 0 0 2500000).pkg.recMs < (linked 0 0 2500000).pkg.cycle / 2500000 ∧ (linked 0 0 2499999).pkg.cycle / 2500000 ≤ (linked 0 0 2499999).pkg.recMs ∧
      setBits (calSlots (part base 0)) 64 ≠ [] ∧ base.pkg.calFreed = [] ∧ 3200 < 3201 ∧ 3000 ≤ 3200 - 3200 / 16 ∧ (linked 0 0 0).pkg.pcHold ≤ 63 ∧
      (linked 0 0 0).pkg.phase ≠ 15 ∧ { State.reset.pkg with phase := 15 }.phase = 15) ∧
    (let s := withPart { part0 with wdLimit := 1, wdCycles := 2048 } (resting .a 5 (linked 0 0 2048));
      frame? s 0 0 = some frame0 ∧ frame0.resident = true ∧ operandsWait s 0 0 = true ∧ waitsByRight s 0 0 = false ∧ wdOver s 0 frame0.progress = true) := by decide +kernel

/-- R199, R204, R208, R464, R466, R469: a packet waits for M, a late one counts and is F_LINK, one of another package is not
buffered; a lane is spared once; training takes its states and retries. -/
theorem test_links_up :
    (nextOf (exec (.ordPacketArrival 3 (hdr0 1 0 700) ⟨[1, 2, 3, 4], none⟩) (linked 5 640 3)) base).pkg.rxbuf.map (fun x => (x.1, x.2.payload)) = [(3, [1, 2, 3, 4])] ∧
    (let s := linked 5 640 3; let t := nextOf (exec (.ordPacketArrival 3 (hdr0 1 0 700) ⟨[], none⟩) { s with pkg := { s.pkg with front := 700 } }) base; (t.pkg.ordLate, t.pkg.rxbuf.length)) = (1, 0) ∧
    ((nextOf (exec (.laneSpare 3 6) (linked 5 0 0)) base).pkg.ports[3]?).map (fun x => (x.spared, x.state)) = some (some 6, 5) ∧
    ((nextOf (exec (.laneSpare 3 6) (portIs (linked 5 0 0) fun x => { x with spared := some 1 })) base).pkg.ports[3]?).map (·.state) = some 0 ∧
    ((nextOf (exec (.leaveFlit 3) (linked 5 0 0)) base).pkg.ports[3]?).map (·.state) = some 6 ∧
    ((nextOf (exec (.portTraining 3 ⟨true, none, 0, 0, none, 0⟩) (linked 1 0 0)) base).pkg.ports[3]?).map (·.state) = some 2 ∧
    ((nextOf (exec (.portTraining 3 ⟨false, none, 0, 0, none, 0⟩) (linked 1 9 0)) base).pkg.ports[3]?).map (fun x => (x.state, x.fails, x.retryAt)) = some (0, 1, 25000009) := by
  decide +kernel

theorem witness_OrderedClassAndLinks :
    (let s := linked 5 640 3; let h := hdr0 1 0 700; portUp s 3 = true ∧ hdCls h = 1 ∧ portHeld s 3 ⟨h, [], none⟩ = false ∧ (stampNear s (hdStamp h) && stampNear s (hdWm h)) = true ∧
      hdDst h = s.pkg.number.toNat ∧ hdDst (hdr0 1 5 700) ≠ s.pkg.number.toNat ∧ portHeld s 3 ⟨hdr0 1 5 700, [], none⟩ = false ∧ 0 < cmp48 (hdStamp h) (raiseWmi s 3 (hdWm h)).pkg.front ∧
      cmp48 (hdStamp h) (raiseWmi { s with pkg := { s.pkg with front := 700 } } 3 (hdWm h)).pkg.front ≤ 0 ∧
      (stampNear s (hdStamp (hdr0 1 0 (2 ^ 47))) && stampNear s (hdWm (hdr0 1 0 (2 ^ 47)))) = false ∧
      portHeld { s with pkg := { s.pkg with rxbuf := List.replicate 128 (3, ⟨h, [], none⟩) } } 3 ⟨h, [], none⟩ = true) ∧
    (let s := withPart { part0 with ent := part0.ent.set 0 0x8000000000000001 } { base with pkg := { State.reset.pkg with rxbuf := [(3, ⟨hdr0 1 0 700 ||| BitVec.ofNat 256 (2 ^ 82), [], none⟩)] } };
      (∃ x ∈ (refillOrq s 0).pkg.rxbuf, groupPart (refillOrq s 0) (hdGroup x.2.hdr) = some 0) ∧ ∀ x ∈ (refillOrq base 0).pkg.rxbuf, groupPart (refillOrq base 0) (hdGroup x.2.hdr) ≠ some 0) ∧
    (let s := linked 5 200000 0; let t := { s with pkg := { s.pkg with rxbuf := [(3, ⟨hdr0 1 0 700, [], none⟩)] } };
      t.pkg.stalled = false ∧ t.pkg.rxbuf ≠ [] ∧ t.pkg.mSince + t.pkg.wmTimeout.toNat ≤ t.pkg.podTime.toNat) ∧
    (let y := fun (r : Nat) => { Port.reset with state := 5, retries := r }; (portIs (linked 5 0 0) fun x => { x with retries := 63 }).pkg.ports[3]? = some (y 63) ∧
      (dropAcked (y 0) 9).retries + 1 < 64 ∧ 64 ≤ (dropAcked (y 63) 9).retries + 1) ∧
    (let x := { Port.reset with state := 1 }; (linked 1 0 0).pkg.ports[3]? = some x ∧ x.state < 5 ∧ ¬ (x.state = 0 ∧ 0 < x.fails) ∧
      6 ≤ { x with state := 6 }.state ∧ (linked 6 0 0).pkg.quiesce = .run ∧ 3 ≤ (linked 1 0 0).pkg.phase ∧ (linked 1 0 0).pkg.phase ≠ 15) ∧
    (let s := portIs (linked 0 9 0) fun x => { x with fails := 2, retryAt := 9 }; let x := { Port.reset with fails := 2, retryAt := 9 };
      s.pkg.ports[3]? = some x ∧ x.state = 0 ∧ 0 < x.fails ∧ x.retryAt ≤ s.pkg.podTime.toNat ∧ 3 ≤ s.pkg.phase ∧ s.pkg.phase ≠ 15) := by
  refine ⟨by decide +kernel, ⟨⟨_, List.mem_singleton.mpr rfl, by decide +kernel⟩, by intro x h; cases h⟩, by decide +kernel, by decide +kernel, by decide +kernel, by decide +kernel⟩

/-- R467, R469–R471: the phases; a quiesce with and without FORCE; a package reset keeps host memory and the number. -/
theorem test_management :
    (nextOf (exec (.bringUpPhase true 0) State.reset) base).pkg.phase = 1 ∧ (nextOf (exec (.bringUpPhase false 0) State.reset) base).pkg.phase = 15 ∧
    (nextOf (exec (.quiesceRequest false) base) base).pkg.quiesce = .run ∧ (nextOf (exec (.quiesceRequest true) base) base).pkg.quiesce = .quiescing ∧
    (part (nextOf (exec (.keySlotWrite 0 3 5) base) base) 0).epoch = 1 ∧ (part (nextOf (exec (.keySlotWrite 0 3 5) base) base) 0).key = some (BitVec.ofNat 256 (5 * 2 ^ 192)) ∧
    (let t := nextOf (exec .packageReset { base with mem := wr64 (wr64 tables 0x5000 9) 0x8000000000000 7, pkg := { State.reset.pkg with number := 5 } }) base;
      rd64 t.mem 0x5000 = 0 ∧ rd64 t.mem 0x8000000000000 = 7 ∧ t.frames = [] ∧ t.pkg.number = 5) := by decide +kernel

theorem witness_Management :
    (let s := { base with pkg := { State.reset.pkg with quiesce := .quiescing } }; base.pkg.quiesce = .run ∧ anyLive base = true ∧ anyLive State.reset = false ∧ s.pkg.quiesce = .quiescing ∧
      anyLive { s with parts := State.reset.parts } = false ∧ upPorts { s with parts := State.reset.parts } = false ∧ upPorts (linked 5 0 0) = true) ∧
    paOk (0x5000 : Word).toNat = true ∧ MemInv base ∧ State.reset.pkg.phase = 0 ∧ (∀ k, k ≤ 5 → { Pkg.reset with phase := k }.phase = k) :=
  ⟨by decide +kernel, by decide +kernel, ⟨by decide +kernel, rfl, rfl⟩, rfl, fun _ _ => rfl⟩

/-- R187, R190, R461: a beat joins the inbox; a host's message enters its queue; a BAR2 write of a page reaches memory. -/
theorem test_host :
    (let s := { base with pkg := { State.reset.pkg with pcieUp := [true, false] } };
      (part (nextOf (exec (.inboxAppend 0 0 0 (List.replicate 16 0)) s) base) 0).inbox.length = 1 ∧
      (part (nextOf (exec (.inboxAppend 0 0 8 (List.replicate 16 0)) s) base) 0).drops = 1) ∧
    (nextOf (exec (.hostEngineMessageIntake 0) (withPart { part0 with inbox := [[mkHeader 0x11 0 0 0 0 0 0x1C00 0]] } base)) base).cmds.map (fun c => (mEop c.hdr, c.sender)) = [(0x11, none)] ∧
    rdBytes (nextOf (exec (.hostBar2Access 0 0x5000 2 (some [7, 8])) { base with pkg := { State.reset.pkg with pcieUp := [true, false] } }) base).mem 0x5000 2 = [7, 8] := by decide +kernel

theorem witness_HostMessages :
    (linkUp base 0 = false ∧ linkUp { base with pkg := { State.reset.pkg with pcieUp := [true, false] } } 0 = true ∧ live base 0 = true ∧
      (List.replicate 16 (0 : Byte)).length = 16 ∧ inboxFree (part base 0) ≠ 0) ∧
    (let m := [mkHeader 0x11 0 0 0 0 0 0x1C00 0]; let s := withPart { part0 with inbox := [m] } base;
      (part s 0).inbox = m :: [] ∧ bayGated s 0 (hostBay s 0) = false ∧
        bayGated (modPart s 0 fun t => { t with preBusy := true }) 0 (hostBay s 0) = true ∧ mEop (m.headD 0) ≠ 1 ∧
        msgRefused s 0 (hostBay s 0) (m.headD 0) (m.drop 1) = none ∧
      queueHasRoom s (queueOf 0 (hostBay s 0) (m.headD 0)) = true ∧ queueHasRoom (fullOf s) (queueOf 0 (hostBay s 0) (m.headD 0)) = false ∧
      (msgRefused s 0 (hostBay s 0) (mkHeader 0x11 0 0 0 0 0 0x1FFF8 0) []).isSome = true) ∧
    (let s := { base with pkg := { State.reset.pkg with pcieUp := [true, false] } };
      hostLink s = true ∧ live s 0 = true ∧ isOk (devWalk s 0 0x5000 true) = true ∧ isOk (devWalk s 0 0x5000 false) = true ∧ isOk (devWalk s 0 0x2000000000 true) = false ∧
        isOk (devWalk s 0 0x2000000000 false) = false) ∧
    (let s := withPart { part0 with ent := part0.ent.set 0 0x8000000000000001 } base; live s 0 = true ∧ groupOf s 0 ≠ 0) := by decide +kernel

/-! ### The step -/

/-- A step from reset runs the word that is placed there, and an event of the script comes where the pipeline is empty. -/
theorem witness_StepRunsDecoded :
    (let s := State.reset.withFetchWord 64 0x116001A050000000; ∃ x rest, s.pipe = x :: rest ∧ reads x.word (.sub ⟨1, true, 0, 0, 0x006, 0x205, 0⟩) = true) ∧
    (let s := { State.reset with script := [.ev .podTimeTick] }; s.pipe = [] ∧ s.script = .ev .podTimeTick :: [] ∧ (nextOf (step s) base).pkg.podTime = 1) :=
  ⟨⟨_, _, rfl, by decide +kernel⟩, by decide +kernel⟩

/-- A step that answers from a state whose memories are canonical. -/
theorem witness_MemoryFormKept : MemInv base ∧ ∃ t, step { base with script := [.ev .podTimeTick] } = .next t :=
  ⟨⟨by decide +kernel, rfl, rfl⟩, _, rfl⟩

/-- A host's read of the aperture (R190, R191): INBOX_FREE at 0x1000, 0 elsewhere, and 0 of a partition that is not live. -/
theorem test_host_read : readAperture base 0 0x1000 = 256 ∧ readAperture base 0 0x20 = 0 ∧ readAperture base 1 0x1000 = 0 := by
  decide +kernel

theorem test_reset_form : MemInv State.reset := ⟨rfl, rfl, rfl⟩

end Sys2Proof.Tests
end

section
/-! The integer division of R75 (O46): what put (R308) keeps of a value, what the quotient and the remainder of `divRem` are,
and what an unsaturated arithmetic instruction sends. -/
namespace Sys2Proof.Machine

/-! ### Wrapping and reading as signed (R307) -/

theorem pow2_eq_two_pow (k : Nat) : pow2 k = 2 ^ k := Nat.one_shiftLeft k

/-- Values a multiple of the modulus apart wrap alike; here one modulus apart. -/
theorem wrapNat_add_two_pow (v : Int) (n : Nat) : wrapNat (v + 2 ^ n) n = wrapNat v n := by
  simp [wrapNat, pow2_eq_two_pow]

theorem wrapNat_lt_two_pow (v : Int) (n : Nat) : wrapNat v n < 2 ^ n := by
  have hpos : (0 : Int) < (2 ^ n : Nat) := Int.natCast_pos.mpr (Nat.two_pow_pos n)
  rw [wrapNat, pow2_eq_two_pow, Int.toNat_lt (Int.emod_nonneg v (Int.ne_of_gt hpos))]
  exact Int.emod_lt_of_pos v hpos

/-- All ones is -1 modulo 2^n. -/
theorem wrapNat_neg_one (n : Nat) : wrapNat (-1) n = 2 ^ n - 1 := by
  have hpos := Nat.two_pow_pos n
  have hones : (-1 + 2 ^ n : Int) = ((2 ^ n - 1 : Nat) : Int) := by rw [Int.natCast_sub hpos]; push_cast; omega
  rw [← wrapNat_add_two_pow, hones, wrapNat, pow2_eq_two_pow]
  norm_cast
  exact Nat.mod_eq_of_lt (by omega)

/-- Reading as signed keeps the low `n` bits. -/
theorem signed_emod_two_pow (x n : Nat) : signed x n % 2 ^ n = ((x % 2 ^ n : Nat) : Int) := by
  rcases Nat.eq_zero_or_pos n with rfl | hn
  · simp [signed, Nat.mod_one]
  · simp only [signed, pow2_eq_two_pow, Nat.ne_of_gt hn, if_false]
    split <;> simp

/-! ### put (R308) -/

theorem tyW_le_64 (ty : Nat) : tyW ty ≤ 64 := by unfold tyW; split <;> omega

theorem tyW_pos (ty : Nat) : 0 < tyW ty := by unfold tyW; split <;> omega

/-- put depends on its value only modulo 2^w. -/
theorem putT_eq_of_wrapNat_eq {ty : Nat} {v v' : Int} (h : wrapNat v (tyW ty) = wrapNat v' (tyW ty)) : putT ty v = putT ty v' := by
  simp only [putT, h]

/-- The low bits of a signed value that is placed in 64 bits are the value's own. -/
theorem ofInt_signed_toNat_mod {n : Nat} (x : Nat) (hn : n ≤ 64) : (BitVec.ofInt 64 (signed x n)).toNat % 2 ^ n = x % 2 ^ n := by
  have hdvd : ((2 ^ n : Nat) : Int) ∣ (2 ^ 64 : Nat) := Int.ofNat_dvd.mpr (Nat.pow_dvd_pow 2 hn)
  have hplaced : ((BitVec.ofInt 64 (signed x n)).toNat : Int) = signed x n % (2 ^ 64 : Nat) := by
    rw [BitVec.toNat_ofInt]
    exact Int.toNat_of_nonneg (Int.emod_nonneg _ (by decide))
  apply Int.ofNat.inj
  simp only [Int.ofNat_eq_natCast]
  rw [Int.natCast_emod, hplaced, Int.emod_emod_of_dvd _ hdvd, Int.natCast_pow]
  exact signed_emod_two_pow x n

/-- The low w bits of put(v) are v modulo 2^w, for either signedness. -/
theorem fld_putT (ty : Nat) (v : Int) : fld (putT ty v) 0 (tyW ty) = wrapNat v (tyW ty) := by
  have hlow : fld (putT ty v) 0 (tyW ty) = (putT ty v).toNat % 2 ^ tyW ty := by
    simp only [fld, nbits, pow2_eq_two_pow]
    rfl
  have hlt := wrapNat_lt_two_pow v (tyW ty)
  rw [hlow, putT]
  split
  · rw [ofInt_signed_toNat_mod _ (tyW_le_64 ty), Nat.mod_eq_of_lt hlt]
  · rw [BitVec.toNat_ofNat, Nat.mod_mod_of_dvd _ (Nat.pow_dvd_pow 2 (tyW_le_64 ty)), Nat.mod_eq_of_lt hlt]

/-! ### Quotient and remainder (R75, R317) -/

theorem divRem_of_ne_zero (ty : Nat) (x : Int) {y : Int} (hy : y ≠ 0) : divRem ty x y = (x.tdiv y, x.tmod y) := by
  simp [divRem, hy, Int.tmod_def, Int.mul_comm]

/-- The quotient by zero is all ones once it is wrapped, though a signed type has it as -1 and an unsigned one as 2^w - 1. -/
theorem wrapNat_divRem_zero (ty : Nat) (x : Int) : wrapNat (divRem ty x 0).1 (tyW ty) = 2 ^ tyW ty - 1 := by
  have hdiff : (2 ^ tyW ty - 1 : Int) = -1 + 2 ^ tyW ty := by omega
  cases hs : tySgn ty
  · simp [divRem, hs, pow2_eq_two_pow, hdiff, wrapNat_add_two_pow, wrapNat_neg_one]
  · simp [divRem, hs, wrapNat_neg_one]

/-- A remainder other than zero has the sign of the dividend. -/
theorem tmod_sign_cases (x y : Int) : x.tmod y = 0 ∨ (x.tmod y).sign = x.sign := by
  by_cases h : y ∣ x
  · exact .inl (Int.tmod_eq_zero_of_dvd h)
  · exact .inr (by rw [Int.sign_tmod, if_neg h])

/-- A product of factors other than zero is positive where they have one sign. -/
theorem mul_pos_iff_same_sign {x y : Int} (hx : x ≠ 0) (hy : y ≠ 0) : 0 < x * y ↔ (0 < x ↔ 0 < y) := by
  rcases Int.lt_or_gt_of_ne hx with hxn | hxp <;> rcases Int.lt_or_gt_of_ne hy with hyn | hyp
  · have hprod := Int.mul_pos_of_neg_of_neg hxn hyn
    omega
  · have hprod := Int.mul_neg_of_neg_of_pos hxn hyp
    omega
  · have hprod := Int.mul_neg_of_pos_of_neg hxp hyn
    omega
  · have hprod := Int.mul_pos hxp hyp
    omega

/-- A quotient other than zero is positive where dividend and divisor have one sign. -/
theorem tdiv_pos_iff_same_sign {x y : Int} (hy : y ≠ 0) (hq : x.tdiv y ≠ 0) : 0 < x.tdiv y ↔ (0 < x ↔ 0 < y) := by
  have hsign := Int.sign_tdiv x y
  have hx : x ≠ 0 := by rintro rfl; exact hq (Int.zero_tdiv y)
  split at hsign
  · exact absurd (Int.sign_eq_zero_iff_zero.mp hsign) hq
  · rw [← Int.sign_eq_one_iff_pos, hsign, ← Int.sign_mul, Int.sign_eq_one_iff_pos]
    exact mul_pos_iff_same_sign hx hy

/-- Division by a divisor other than zero truncates towards zero, and the remainder takes the sign of the dividend. -/
theorem divRem_truncates (ty : Nat) (x : Int) {y : Int} (hy : y ≠ 0) :
    x = (divRem ty x y).1 * y + (divRem ty x y).2 ∧ (divRem ty x y).2.natAbs < y.natAbs ∧
      (0 < (divRem ty x y).2 → 0 < x) ∧ ((divRem ty x y).2 < 0 → x < 0) ∧
      ((divRem ty x y).1 = 0 ∨ (0 < (divRem ty x y).1 ↔ (0 < x ↔ 0 < y))) := by
  rw [divRem_of_ne_zero ty x hy]
  refine ⟨(Int.tdiv_mul_add_tmod x y).symm, ?_, fun hr => ?_, fun hr => ?_, ?_⟩
  · rw [Int.natAbs_tmod]
    exact Nat.mod_lt _ (Int.natAbs_pos.mpr hy)
  · rcases tmod_sign_cases x y with h | h
    · exact absurd h (Int.ne_of_gt hr)
    · exact Int.sign_eq_one_iff_pos.mp (h ▸ Int.sign_eq_one_of_pos hr)
  · rcases tmod_sign_cases x y with h | h
    · exact absurd h (Int.ne_of_lt hr)
    · exact Int.sign_eq_neg_one_iff_neg.mp (h ▸ Int.sign_eq_neg_one_of_neg hr)
  · exact Decidable.or_iff_not_imp_left.mpr (tdiv_pos_iff_same_sign hy)

theorem divRem_neg_one (ty : Nat) (x : Int) : divRem ty x (-1) = (-x, 0) := by
  rw [divRem_of_ne_zero ty x (by decide)]
  simp

/-- The negation of the most negative value of a type is placed as that value. -/
theorem putT_neg_most_negative (ty : Nat) : putT ty (-(-2 ^ (tyW ty - 1))) = putT ty (-2 ^ (tyW ty - 1)) := by
  have hpow : (2 : Int) ^ tyW ty = 2 * 2 ^ (tyW ty - 1) := by
    rw [Int.mul_comm, ← Int.pow_succ, Nat.succ_eq_add_one, Nat.sub_add_cancel (tyW_pos ty)]
  have hdiff : (-(-2 ^ (tyW ty - 1)) : Int) = -2 ^ (tyW ty - 1) + 2 ^ tyW ty := by omega
  exact putT_eq_of_wrapNat_eq (by rw [hdiff, wrapNat_add_two_pow])

/-! ### What an unsaturated instruction sends (R316, R317) -/

/-- Where it acts, an unsaturated arithmetic instruction sends its placed result and does nothing else. -/
theorem arith_acts_unsaturated {f : AFmt} {s : State} (h : Acts f.pr s) (hmd : f.md = 0) (r : Int) :
    arith f s r = .next (send2 f s (putT f.ty.toNat r)) := by
  simp [arith, aluInt, shellA, shell_acts h, deliverT, hmd]

end Sys2Proof.Machine

open Sys2Proof.Machine

/-- Settles O46: q and r are the two halves of `divRem`, whose cases are R75's. -/
theorem integerDivision : Obligations.IntegerDivision := by
  unfold Obligations.IntegerDivision
  intro f s hacts hmd _ ty w x y
  refine ⟨(divRem ty x y).1, (divRem ty x y).2, arith_acts_unsaturated hacts hmd _, arith_acts_unsaturated hacts hmd _,
    fun hy _ => divRem_truncates ty x hy, fun hy => ?_, fun _ hx hy => ?_⟩
  · rw [hy, fld_putT]
    exact ⟨wrapNat_divRem_zero ty x, rfl⟩
  · rw [hy, divRem_neg_one, hx]
    exact ⟨putT_neg_most_negative ty, rfl⟩
end

section
/-! The copying moves of R312 (O47): what the plain shell (R27, R294) leaves of an instruction of one value, and of one whose targets
are all null. -/
namespace Sys2Proof.Machine

/-! ### Instructions of one value (R294, R308) -/

theorem aluInt_acts {f : AFmt} {s : State} (h : Acts f.pr s) (v : Word) : aluInt f s v = .next (send2 f s v) := by
  simp only [aluInt, shellA, shell_acts h]

theorem aluInt_null {f : AFmt} {s : State} (heos : anyEos s.cur = false) (hnull : anyNull s.cur = true) (v : Word) :
    aluInt f s v = .next (sendAll s [f.t0, f.t1] .null 0) := by
  simp only [aluInt, shellA, shell_null heos hnull]

/-! ### Null targets (R301) -/

theorem sendKind_nullT (s : State) (k : Kind) (v : Word) : sendKind s nullT k v = s := by simp [sendKind]

theorem sendAll_nullT {ts : List Tgt} (h : ∀ t ∈ ts, t = nullT) (s : State) (k : Kind) (v : Word) : sendAll s ts k v = s := by
  induction ts with
  | nil => rfl
  | cons t ts ih =>
    obtain ⟨rfl, hts⟩ := List.forall_mem_cons.mp h
    simpa only [sendAll, List.foldl_cons, sendKind_nullT] using ih hts

/-- Behind the shell, an instruction that could only send to null targets changes nothing. -/
theorem shell_nullT {pr : BitVec 2} {ts : List Tgt} {s : State} {eff : State → State} (h : ∀ t ∈ ts, t = nullT) (heff : eff s = s) :
    shell pr ts s eff = s := by
  rcases shell_cases pr ts s eff with hs | hs | hs | hs | hs <;> simp only [hs, sendAll_nullT h, heff]

end Sys2Proof.Machine

open Sys2Proof.Machine

/-- Settles O47: mov and mov4 are slot a behind the shell, and sending to null targets changes nothing. -/
theorem movesCopy : Obligations.MovesCopy := by
  unfold Obligations.MovesCopy
  intro f g s
  refine ⟨fun hacts => aluInt_acts hacts (opA s), fun hacts => congrArg Host.Outcome.next (shell_acts hacts),
    fun heos hnull => ⟨aluInt_null heos hnull (opA s), congrArg Host.Outcome.next (shell_null heos hnull)⟩,
    fun h0 h1 => ?_, fun h0 h1 h2 h3 => ?_⟩
  · have hts : ∀ t ∈ [f.t0, f.t1], t = nullT := by simp [h0, h1]
    exact congrArg Host.Outcome.next (shell_nullT hts (sendAll_nullT hts s .data (opA s)))
  · have hts : ∀ t ∈ [g.t0, g.t1, g.t2, g.t3], t = nullT := by simp [h0, h1, h2, h3]
    exact congrArg Host.Outcome.next (shell_nullT hts (sendAll_nullT hts s .data (opA s)))
end

section
/-! Alignment and canonical addresses of R326 (O48): what clearing low bits keeps of a value and of its half (R96), that reading as
signed is a sign extension (R307), and what alignd and canon answer. -/
namespace Sys2Proof.Machine

/-! ### Clearing low bits -/

theorem sub_mod_two_pow_eq (a n : Nat) : a - a % 2 ^ n = 2 ^ n * (a / 2 ^ n) := by
  have hdiv := Nat.div_add_mod a (2 ^ n)
  omega

/-- To clear the low n bits is to keep the other bits. -/
theorem sub_mod_two_pow_eq_and {a k n : Nat} (ha : a < 2 ^ k) (hn : n ≤ k) : a - a % 2 ^ n = a &&& (2 ^ k - 1 - (2 ^ n - 1)) := by
  have hlow : 2 ^ n - 1 < 2 ^ k := by
    have hle := Nat.pow_le_pow_right Nat.two_pos hn
    have hpos := Nat.two_pow_pos n
    omega
  apply Nat.eq_of_testBit_eq
  intro i
  rw [sub_mod_two_pow_eq, Nat.sub_sub, Nat.add_comm 1, Nat.testBit_and, Nat.testBit_two_pow_sub_succ hlow, Nat.testBit_two_pow_mul,
    Nat.testBit_div_two_pow, Nat.testBit_two_pow_sub_one]
  by_cases hi : n ≤ i
  · by_cases hk : i < k
    · simp [hi, hk]
    · have hbit := Nat.testBit_lt_two_pow (Nat.lt_of_lt_of_le ha (Nat.pow_le_pow_right Nat.two_pos (Nat.le_of_not_lt hk)))
      simp [hi, hbit]
  · simp [hi, Nat.lt_of_not_le hi]

/-- Clearing low bits does not pass a multiple of their weight. -/
theorem le_sub_mod_two_pow {a b n : Nat} (hb : 2 ^ n ∣ b) (hba : b ≤ a) : b ≤ a - a % 2 ^ n := by
  obtain ⟨c, rfl⟩ := hb
  rw [sub_mod_two_pow_eq]
  exact Nat.mul_le_mul_left _ ((Nat.le_div_iff_mul_le (Nat.two_pow_pos n)).mpr (Nat.mul_comm c _ ▸ hba))

/-- What is at most a word's value is a word's value. -/
theorem toNat_ofNat_of_le {x : Word} {v : Nat} (h : v ≤ x.toNat) : (BitVec.ofNat 64 v).toNat = v := by
  rw [BitVec.toNat_ofNat, Nat.mod_eq_of_lt (Nat.lt_of_le_of_lt h x.isLt)]

/-! ### The two halves (R96) -/

theorem canon_iff (a : Nat) : canon a = true ↔ a < 2 ^ 56 ∨ 2 ^ 64 - 2 ^ 56 ≤ a ∧ a < 2 ^ 64 := by
  simp only [canon, pow2_eq_two_pow, Bool.or_eq_true, Bool.and_eq_true, decide_eq_true_eq]

theorem sameHalf_iff (a b : Nat) : sameHalf a b = true ↔ canon a = true ∧ canon b = true ∧ (a < 2 ^ 56 ↔ b < 2 ^ 56) := by
  simp only [sameHalf, pow2_eq_two_pow, Bool.and_eq_true, beq_iff_eq, decide_eq_decide, and_assoc]

/-- The bounds of both halves are multiples of 2^56: clearing at most 56 bits stays in the half. -/
theorem sameHalf_sub_mod_two_pow {a n : Nat} (ha : canon a = true) (hn : n ≤ 56) : sameHalf a (a - a % 2 ^ n) = true := by
  have hdvd : 2 ^ n ∣ 2 ^ 64 - 2 ^ 56 := Nat.dvd_sub (Nat.pow_dvd_pow 2 (by omega)) (Nat.pow_dvd_pow 2 hn)
  have hupper := le_sub_mod_two_pow (a := a) hdvd
  rw [sameHalf_iff]
  simp only [canon_iff] at ha ⊢
  omega

/-! ### Sign extension (R307) -/

/-- The signed reading of a word's low n bits. -/
theorem signed_toNat (x : Word) (n : Nat) : signed x.toNat n = (BitVec.setWidth n x).toInt := by
  rcases Nat.eq_zero_or_pos n with rfl | hn
  · simp [signed, BitVec.toInt_zero_length]
  · have hpow : 2 ^ n = 2 * 2 ^ (n - 1) := by rw [← Nat.pow_succ', Nat.succ_eq_add_one, Nat.sub_add_cancel hn]
    simp only [signed, pow2_eq_two_pow, Nat.ne_of_gt hn, if_false, BitVec.toInt_eq_toNat_cond, BitVec.toNat_setWidth]
    have hhalf : x.toNat % 2 ^ n < 2 ^ (n - 1) ↔ 2 * (x.toNat % 2 ^ n) < 2 ^ n := by omega
    simp only [hhalf]

/-- What 57 bits hold as a signed value is canonical. -/
theorem canon_signExtend (x : BitVec 57) : canon (BitVec.signExtend 64 x).toNat = true := by
  have hlow := x.le_toInt
  have hhigh := x.toInt_lt
  have hval : (BitVec.signExtend 64 x).toNat = (x.toInt % 2 ^ 64).toNat := BitVec.toNat_ofInt ..
  rw [canon_iff, hval]
  omega

/-! ### What alignd and canon answer (R326) -/

/-- The count of alignd, clamped to 64. -/
def aligndCount (f : AFmt) (s : State) : Nat := min (if f.i then BitVec.ofInt 64 (signed f.imm.toNat 28) else opB s).toNat 64

theorem aligndCount_le (f : AFmt) (s : State) : aligndCount f s ≤ 64 := Nat.min_le_right ..

/-- alignd.dn sends a with its low bits cleared. -/
theorem exec_alignd_dn {f : AFmt} {s : State} (h : Acts f.pr s) (hmd : f.md = 0) :
    exec (.alignd f) s = .next (send2 f s (BitVec.ofNat 64 ((opA s).toNat - (opA s).toNat % 2 ^ aligndCount f s))) := by
  rw [← pow2_eq_two_pow, ← aluInt_acts h]
  simp only [exec, execAlignd, hmd]
  rfl

/-- alignd.off sends the low bits of a. -/
theorem exec_alignd_off {f : AFmt} {s : State} (h : Acts f.pr s) (hmd : f.md = 1) :
    exec (.alignd f) s = .next (send2 f s (BitVec.ofNat 64 ((opA s).toNat % 2 ^ aligndCount f s))) := by
  rw [← pow2_eq_two_pow, ← aluInt_acts h]
  simp only [exec, execAlignd, hmd]
  rfl

theorem exec_canon_chk {f : AFmt} {s : State} (h : Acts f.pr s) (hmd : f.md = 0) :
    exec (.canon f) s = .next (send2 f s (if canon (opA s).toNat then 1 else 0)) := by
  simp only [exec, execCanon, hmd, beq_self_eq_true, if_true, aluInt_acts h, bool64]

theorem exec_canon_fix {f : AFmt} {s : State} (h : Acts f.pr s) (hmd : f.md = 1) :
    exec (.canon f) s = .next (send2 f s (BitVec.signExtend 64 (BitVec.setWidth 57 (opA s)))) := by
  rw [BitVec.signExtend, ← signed_toNat, ← aluInt_acts h]
  simp only [exec, execCanon, hmd]
  rfl

theorem exec_canon_flt {f : AFmt} {s : State} (h : Acts f.pr s) (hmd : f.md = 2) :
    exec (.canon f) s = .next (if canon (opA s).toNat then send2 f s (opA s) else fault s F_NONCANON (opA s) 0) := by
  simp only [exec, execCanon, hmd, shellA, shell_acts h]
  rfl

end Sys2Proof.Machine

open Sys2Proof.Machine

/-- Settles O48: both masks of alignd act on a as clearing and keeping its low bits, whose weights divide the bounds of the halves. -/
theorem alignmentAndCanon : Obligations.AlignmentAndCanon := by
  unfold Obligations.AlignmentAndCanon
  intro f s hacts a n m
  have ha : a < 2 ^ 64 := (opA s).isLt
  refine ⟨fun hmd => ⟨_, exec_alignd_dn hacts hmd, ?and, fun h64 => ?all, fun hcanon h56 => ?half⟩, rfl,
    fun hmd => ⟨_, exec_alignd_off hacts hmd, ?low⟩, exec_canon_chk hacts,
    fun hmd => ⟨_, exec_canon_fix hacts hmd, rfl, canon_signExtend _⟩, fun hmd => ⟨fun hcanon => ?pass, fun hcanon => ?flt⟩⟩
  case and =>
    rw [toNat_ofNat_of_le (x := opA s) (Nat.sub_le ..)]
    exact sub_mod_two_pow_eq_and ha (aligndCount_le f s)
  case all =>
    have hcount : aligndCount f s = 64 := h64
    rw [hcount, Nat.mod_eq_of_lt ha, Nat.sub_self]
    rfl
  case half =>
    rw [toNat_ofNat_of_le (x := opA s) (Nat.sub_le ..)]
    exact sameHalf_sub_mod_two_pow hcanon h56
  case low =>
    rw [toNat_ofNat_of_le (x := opA s) (Nat.mod_le ..)]
    exact (Nat.and_two_pow_sub_one_eq_mod a n).symm
  case pass => rw [exec_canon_flt hacts hmd, if_pos hcanon]
  case flt => rw [exec_canon_flt hacts hmd, if_neg (Bool.eq_false_iff.mp hcanon)]
end

section
/-! Encoding and decoding (O1, O2): fields cut out of a word that was put together of fields, a word put together of the fields cut out
of it (R293–R300), and the one opcode of each instruction (R303, R304). -/
namespace Sys2Proof

open Sys2Proof.Machine

/-! ### Fields of joined bits -/

theorem extract_append_high {m n lo len : Nat} (x : BitVec m) (y : BitVec n) (h : n ≤ lo) :
    BitVec.extractLsb' lo len (x.append y) = BitVec.extractLsb' (lo - n) len x := BitVec.extractLsb'_append_eq_of_le h

theorem extract_append_low {m n lo len : Nat} (x : BitVec m) (y : BitVec n) (h : lo + len ≤ n) :
    BitVec.extractLsb' lo len (x.append y) = BitVec.extractLsb' lo len y := BitVec.extractLsb'_append_eq_of_add_le h

/-- Neighbouring fields of a word join to one field. -/
theorem cut_append_cut (w : Word) {hi lo m n : Nat} (h : hi = lo + n) : (cut w hi m).append (cut w lo n) = cut w lo (m + n) :=
  BitVec.extractLsb'_append_extractLsb'_eq_extractLsb' h

theorem cut_all (w : Word) : cut w 0 64 = w := BitVec.extractLsb'_eq_self

theorem bit1_beq_one (b : Bool) : (bit1 b == 1#1) = b := by cases b <;> rfl

theorem bit1_of_beq_one (x : BitVec 1) : bit1 (x == 1#1) = x := by
  revert x
  decide

/-! ### Words as joined fields (R293–R300) -/

theorem putWord_fa (op : Nat) (f : AFmt) : putWord op (.fa f) =
    (((((((BitVec.ofNat 8 op).append f.pr).append (bit1 f.i)).append f.ty).append f.md).append f.t0).append f.t1).append f.imm := rfl

theorem putWord_ff (op : Nat) (f : FFmt) : putWord op (.ff f) =
    (((((((BitVec.ofNat 8 op).append f.pr).append (0 : BitVec 6)).append f.t0).append f.t1).append f.t2).append f.t3).append
      (0 : BitVec 8) := rfl

theorem putWord_fm (op : Nat) (f : MFmt) : putWord op (.fm f) =
    (((((((((BitVec.ofNat 8 op).append f.pr).append (bit1 f.i)).append f.sf).append (bit1 f.ord)).append f.t0).append f.pred).append
      f.own).append f.succ).append f.imm := rfl

theorem putWord_fx (op : Nat) (f : XFmt) : putWord op (.fx f) =
    (((((BitVec.ofNat 8 op).append f.pr).append f.ex).append f.md).append f.t0).append f.off := rfl

theorem putWord_fe (op : Nat) (f : EFmt) : putWord op (.fe f) =
    ((((((((((BitVec.ofNat 8 op).append f.pr).append (bit1 f.i)).append f.md).append f.ck).append f.q).append f.push).append
      f.t0).append f.pop).append f.hnd).append f.arg := rfl

theorem putWord_fs (op : Nat) (f : SFmt) : putWord op (.fs f) =
    (((((BitVec.ofNat 8 op).append f.pr).append f.md).append f.t0).append f.sr).append f.imm := rfl

theorem putWord_z (op : Nat) : putWord op .z = (BitVec.ofNat 8 op).append (0 : BitVec 56) := rfl

/-! ### The fields of a word that was put together -/

theorem getA_putWord (op : Nat) (f : AFmt) : getA (putWord op (.fa f)) = f := by
  simp only [getA, cut, putWord_fa, extract_append_high, extract_append_low, Nat.reduceLeDiff, Nat.reduceSub, Nat.reduceAdd, Nat.le_refl,
    BitVec.extractLsb'_eq_self, bit1_beq_one]

theorem getF_putWord (op : Nat) (f : FFmt) : getF (putWord op (.ff f)) = f := by
  simp only [getF, cut, putWord_ff, extract_append_high, extract_append_low, Nat.reduceLeDiff, Nat.reduceSub, Nat.reduceAdd, Nat.le_refl,
    BitVec.extractLsb'_eq_self]

theorem getM_putWord (op : Nat) (f : MFmt) : getM (putWord op (.fm f)) = f := by
  simp only [getM, cut, putWord_fm, extract_append_high, extract_append_low, Nat.reduceLeDiff, Nat.reduceSub, Nat.reduceAdd, Nat.le_refl,
    BitVec.extractLsb'_eq_self, bit1_beq_one]

theorem getX_putWord (op : Nat) (f : XFmt) : getX (putWord op (.fx f)) = f := by
  simp only [getX, cut, putWord_fx, extract_append_high, extract_append_low, Nat.reduceLeDiff, Nat.reduceSub, Nat.reduceAdd, Nat.le_refl,
    BitVec.extractLsb'_eq_self]

theorem getE_putWord (op : Nat) (f : EFmt) : getE (putWord op (.fe f)) = f := by
  simp only [getE, cut, putWord_fe, extract_append_high, extract_append_low, Nat.reduceLeDiff, Nat.reduceSub, Nat.reduceAdd, Nat.le_refl,
    BitVec.extractLsb'_eq_self, bit1_beq_one]

theorem getS_putWord (op : Nat) (f : SFmt) : getS (putWord op (.fs f)) = f := by
  simp only [getS, cut, putWord_fs, extract_append_high, extract_append_low, Nat.reduceLeDiff, Nat.reduceSub, Nat.reduceAdd, Nat.le_refl,
    BitVec.extractLsb'_eq_self]

/-- The opcode stands in the highest byte, whatever the format. -/
theorem cut_putWord_op (op : Nat) (p : Payload) : (cut (putWord op p) 56 8).toNat = op % 256 := by
  have h : cut (putWord op p) 56 8 = BitVec.ofNat 8 op := by
    cases p <;>
      simp only [cut, putWord_z, putWord_fa, putWord_ff, putWord_fm, putWord_fx, putWord_fe, putWord_fs, extract_append_high,
        Nat.reduceLeDiff, Nat.reduceSub, Nat.reduceAdd, Nat.le_refl, BitVec.extractLsb'_eq_self]
  rw [h, BitVec.toNat_ofNat]

theorem cut_ff_high (op : Nat) (f : FFmt) : cut (putWord op (.ff f)) 48 6 = 0 := by
  simp only [cut, putWord_ff, extract_append_high, extract_append_low, Nat.reduceLeDiff, Nat.reduceSub, Nat.reduceAdd, Nat.le_refl,
    BitVec.extractLsb'_eq_self]

theorem cut_ff_low (op : Nat) (f : FFmt) : cut (putWord op (.ff f)) 0 8 = 0 := by
  simp only [cut, putWord_ff, extract_append_low, Nat.reduceAdd, Nat.le_refl, BitVec.extractLsb'_eq_self]

theorem cut_fa_md (op : Nat) (f : AFmt) : cut (putWord op (.fa f)) 48 2 = f.md := by
  simp only [cut, putWord_fa, extract_append_high, extract_append_low, Nat.reduceLeDiff, Nat.reduceSub, Nat.reduceAdd, Nat.le_refl,
    BitVec.extractLsb'_eq_self]

/-! ### A word is put together of its fields -/

theorem putWord_getA {w : Word} {op : Nat} (h : (cut w 56 8).toNat = op) : putWord op (.fa (getA w)) = w := by
  subst h
  simp only [putWord_fa, getA, BitVec.ofNat_toNat, BitVec.setWidth_eq, bit1_of_beq_one, cut_append_cut, cut_all, Nat.reduceAdd]

theorem putWord_getM {w : Word} {op : Nat} (h : (cut w 56 8).toNat = op) : putWord op (.fm (getM w)) = w := by
  subst h
  simp only [putWord_fm, getM, BitVec.ofNat_toNat, BitVec.setWidth_eq, bit1_of_beq_one, cut_append_cut, cut_all, Nat.reduceAdd]

theorem putWord_getX {w : Word} {op : Nat} (h : (cut w 56 8).toNat = op) : putWord op (.fx (getX w)) = w := by
  subst h
  simp only [putWord_fx, getX, BitVec.ofNat_toNat, BitVec.setWidth_eq, cut_append_cut, cut_all, Nat.reduceAdd]

theorem putWord_getE {w : Word} {op : Nat} (h : (cut w 56 8).toNat = op) : putWord op (.fe (getE w)) = w := by
  subst h
  simp only [putWord_fe, getE, BitVec.ofNat_toNat, BitVec.setWidth_eq, bit1_of_beq_one, cut_append_cut, cut_all, Nat.reduceAdd]

theorem putWord_getS {w : Word} {op : Nat} (h : (cut w 56 8).toNat = op) : putWord op (.fs (getS w)) = w := by
  subst h
  simp only [putWord_fs, getS, BitVec.ofNat_toNat, BitVec.setWidth_eq, cut_append_cut, cut_all, Nat.reduceAdd]

/-- The bits that format F leaves unused are zero. -/
theorem putWord_getF {w : Word} {op : Nat} (h : (cut w 56 8).toNat = op) (hi : cut w 48 6 = 0) (lo : cut w 0 8 = 0) :
    putWord op (.ff (getF w)) = w := by
  subst h
  simp only [putWord_ff, getF, BitVec.ofNat_toNat, BitVec.setWidth_eq]
  rw [← hi, ← lo]
  simp only [cut_append_cut, cut_all, Nat.reduceAdd]

theorem putWord_cut_z {w : Word} {op : Nat} (h : (cut w 56 8).toNat = op) (lo : cut w 0 56 = 0) : putWord op .z = w := by
  subst h
  simp only [putWord_z, BitVec.ofNat_toNat, BitVec.setWidth_eq]
  rw [← lo]
  simp only [cut_append_cut, cut_all, Nat.reduceAdd]

/-! ### The row of a decoded word, and the word of a row (R303, R304) -/

/-- What an opcode decodes to has a row of that opcode and of the fields that were read. -/
theorem row_of_rawDecode {w : Word} {i : Instr} (h : rawDecode w = some i) :
    ∃ r, row i = some r ∧ putWord r.op r.pay = w := by
  unfold rawDecode at h
  split at h
  case h_1 hop =>
    split at h
    · next hz =>
      cases h
      exact ⟨_, rfl, putWord_cut_z hop (by simpa using hz)⟩
    · cases h
  case h_2 hop =>
    split at h
    · next hz =>
      cases h
      simp only [Bool.and_eq_true, beq_iff_eq] at hz
      exact ⟨_, rfl, putWord_getF hop hz.1 hz.2⟩
    · cases h
  case h_7 hop =>
    split at h <;> cases h <;> exact ⟨_, rfl, putWord_getA hop⟩
  case h_8 hop =>
    split at h <;> cases h <;> exact ⟨_, rfl, putWord_getA hop⟩
  all_goals cases h
  all_goals
    rename_i hop
    exact ⟨_, rfl, by simp only [putWord_getA hop, putWord_getM hop, putWord_getX hop, putWord_getE hop, putWord_getS hop, if_true,
      if_false, Bool.false_eq_true]⟩

/-- An entry that allows one MOD value has it. -/
theorem md_of_aOk {f : AFmt} {tys : List Nat} {m used : Nat} {iOk : Bool} (h : aOk f tys [m] iOk used = true) : f.md.toNat = m := by
  simp only [aOk, Bool.and_eq_true, List.contains_cons, List.contains_nil, Bool.or_false, beq_iff_eq] at h
  obtain ⟨⟨-, h⟩, -⟩ := h
  exact h

/-- The opcode of a row decodes to its instruction; opcodes that several instructions share are told apart by MOD. -/
theorem rawDecode_putWord {i : Instr} {r : Row} (h : row i = some r) (hok : r.ok = true) :
    rawDecode (putWord r.op r.pay) = some i := by
  cases i
  case nop => cases h; rfl
  case mov4 f =>
    cases h
    unfold rawDecode
    rewrite [cut_putWord_op, cut_ff_high, cut_ff_low]
    exact congrArg (fun f => some (Instr.mov4 f)) (getF_putWord _ f)
  case skhash f | skclr f | collapseMax f | collapseMix f | collapseCdf f =>
    cases h
    unfold rawDecode
    rewrite [cut_putWord_op, cut_fa_md, md_of_aOk hok]
    conv => lhs; whnf
    rw [getA_putWord]
  case skrd f =>
    cases h
    obtain ⟨⟨hmd, -⟩, -⟩ : (aOk f [0] [1] false 6 = true ∧ _) ∧ _ := by simpa only [Bool.and_eq_true] using hok
    unfold rawDecode
    rewrite [cut_putWord_op, cut_fa_md, md_of_aOk hmd]
    conv => lhs; whnf
    rw [getA_putWord]
  case cmp hi f | fcmp hi f =>
    cases h
    unfold rawDecode
    rewrite [cut_putWord_op]
    cases hi <;>
    · conv => lhs; whnf
      rw [getA_putWord]
  all_goals cases h
  all_goals
    unfold rawDecode
    rewrite [cut_putWord_op]
    conv => lhs; whnf
    simp only [getA_putWord, getM_putWord, getX_putWord, getE_putWord, getS_putWord]

theorem decodeWord_eq_ok {w : Word} {i : Instr} : decodeWord w = .ok i ↔ rawDecode w = some i ∧ i.wellFormed = true := by
  unfold decodeWord
  cases rawDecode w with
  | none =>
    simp only [reduceCtorEq, false_and, iff_false]
    split
    · simp
    · split <;> simp
  | some j =>
    simp only [Option.some.injEq]
    split
    · next hj => simp only [Except.ok.injEq]; exact ⟨fun h => ⟨h, h ▸ hj⟩, And.left⟩
    · next hj => simp only [reduceCtorEq, false_iff]; rintro ⟨rfl, h⟩; exact hj h

theorem encode_eq_some {i : Instr} {w : Word} : encode i = some w ↔ ∃ r, row i = some r ∧ putWord r.op r.pay = w := by
  unfold encode
  cases row i <;> simp

theorem ok_of_wellFormed {i : Instr} {r : Row} (h : i.wellFormed = true) (hr : row i = some r) : r.ok = true := by
  unfold Instr.wellFormed at h
  simpa only [hr] using h

end Sys2Proof

open Sys2Proof Sys2Proof.Machine

/-- Settles O1: the opcode of the row selects the instruction, and its format's fields are read back. -/
theorem encodeThenDecode : Obligations.EncodeThenDecode := by
  unfold Obligations.EncodeThenDecode
  intro i w hwf henc
  obtain ⟨r, hrow, rfl⟩ := encode_eq_some.mp henc
  exact decodeWord_eq_ok.mpr ⟨rawDecode_putWord hrow (ok_of_wellFormed hwf hrow), hwf⟩

/-- Settles O2: the opcode and the fields that were cut out of a word are put together to it again. -/
theorem decodeThenEncode : Obligations.DecodeThenEncode := by
  unfold Obligations.DecodeThenEncode
  intro w i hdec
  obtain ⟨hraw, hwf⟩ := decodeWord_eq_ok.mp hdec
  exact ⟨hwf, encode_eq_some.mpr (row_of_rawDecode hraw)⟩
end

section
/-! Every arm of the dispatch answers a next state (O52): the shells of memory instructions and of commands, then arm by arm. -/
namespace Sys2Proof.Machine

theorem memShell_answers (f : MFmt) (st o t : Bool) (s : State) (eff : State → State) : ∃ u, memShell f st o t s eff = .next u := by
  unfold memShell
  dsimp only
  repeat' split
  all_goals exact ⟨_, rfl⟩

theorem withCmd_answers (s : State) (r : QRef) (l : List Nat) (ready : State → Cmd → Bool) (bind go : State → Cmd → State) :
    ∃ u, withCmd s r l ready bind go = .next u := by
  unfold withCmd
  dsimp only
  repeat' split
  all_goals exact ⟨_, rfl⟩

/-- A partition that is to be destroyed waits, is wiped or refuses: each is a next state. -/
theorem execPartitionDestroy_answers (p : Nat) (s : State) : ∃ u, execPartitionDestroy p s = .next u := by
  unfold execPartitionDestroy
  dsimp only
  repeat' split
  all_goals exact ⟨_, rfl⟩

theorem execPartitionEntryWrite_answers (p off : Nat) (v : Word) (s : State) : ∃ u, execPartitionEntryWrite p off v s = .next u := by
  unfold execPartitionEntryWrite
  dsimp only
  split
  · exact ⟨_, rfl⟩
  split
  · split
    · exact ⟨_, rfl⟩
    split
    · exact ⟨_, rfl⟩
    split
    · exact execPartitionDestroy_answers ..
    · exact ⟨_, rfl⟩
  · split <;> exact ⟨_, rfl⟩

/-- Each arm ends in `next` on every path of its own case distinctions. -/
theorem exec_answers (i : Instr) (s : State) : ∃ t, exec i s = .next t := by
  cases i
  case amoAdd f | amoAnd f | amoFadd f | amoFmax f | amoFmin f | amoMax f | amoMin f | amoOr f | amoXchg f | amoXor f | cas f | cas2 f
      | fence f | ld f | lds f | ldv f | monitor f | pref f | qfence f | reclaim f | st f | stream f | streamKvBind f | sts f | stv f |
      waitm f => exact memShell_answers ..
  case accldCommand r n | accstCommand r n | acczeroCommand r | cbloadCommand r | collCommand r others | gathCommand r n replies |
      gathwCommand r n replies | handlerInstallCommand r | mmCommand r n | orecvCommand r | osendCommand r routes | scatCommand r n
      replies | scataddCommand r n perm replies | tblswapCommand r | xgetCommand r reply | xsendCommand r reply =>
    simp only [exec, execAccldCommand, execAccstCommand, execAcczeroCommand, execCbloadCommand, execCollCommand, execGathCommand,
      execGathwCommand, execHandlerInstallCommand, execMmCommand, execOrecvCommand, execOsendCommand, execScatCommand, execScataddCommand,
      execTblswapCommand, execXgetCommand, execXsendCommand]
    exact withCmd_answers ..
  case copyCommand r n | copyOpen r | copySeal r =>
    simp only [exec, execCopyCommand, execCopyOpen, execCopySeal]
    split
    · exact ⟨_, rfl⟩
    · exact withCmd_answers ..
  case partitionEntryWrite p off v => exact execPartitionEntryWrite_answers ..
  case accessPlacement n | adda f | attReq nonce | beaconSend port | blockCommit part frame | blockFetch part frame exitNo |
      blockPlacement part frame | canon f | checkpointRecovery bay region | collisionRetry n | commandRetirement r | configEccRecovery bay
      region | deferredSpawnAllocation part bay | deterministicApply n | energyReconciliation rail | exitgResume n | flitReceive port flit
      | flitReplay port fseq | frameReload part bay | gangIssue bay cell | gcallSettled bay region | gretThaw bay region | hfqAbort part
      seq | hfqRelease part seq | hostEngineMessageIntake part | hostLaunchIntake part | invalidationDone n | keySlotWrite part k v |
      launchAdmission part | pageWalk n | partitionDestroy part | portTraining port info | preCtlRestore part | preemptSettled part |
      qwait f | regionDrainComplete bay region | regionPlacement n | remoteAccess part va size write | resizeChannelRehash part |
      resizeComplete part | resizeGo part v | resizeMigrate part order | resizeScrub part | resizeSliceRehash part | spuriousWake n |
      streamElementIssue bay slot | tokenArrival n | trainingRetry port | trapFrameAllocation part | waitmTimeout n | watchdogHit part
      region a b | yieldExpiry n | fWmstall =>
    simp only [exec, execAccessPlacement, execAdda, execAttReq, execBeaconSend, execBlockCommit, execBlockFetch, execBlockPlacement,
      execCanon, execCheckpointRecovery, execCollisionRetry, execCommandRetirement, execConfigEccRecovery, execDeferredSpawnAllocation,
      execDeterministicApply, execEnergyReconciliation, execExitgResume, execFlitReceive, execFlitReplay, execFrameReload, execGangIssue,
      execGcallSettled, execGretThaw, execHfqAbort, execHfqRelease, execHostEngineMessageIntake, execHostLaunchIntake,
      execInvalidationDone, execKeySlotWrite, execLaunchAdmission, execPageWalk, execPartitionDestroy, execPortTraining,
      execPreCtlRestore, execPreemptSettled, execQwait, execRegionDrainComplete, execRegionPlacement, execRemoteAccess,
      execResizeChannelRehash, execResizeComplete, execResizeGo, execResizeMigrate, execResizeScrub, execResizeSliceRehash,
      execSpuriousWake, execStreamElementIssue, execTokenArrival, execTrainingRetry, execTrapFrameAllocation, execWaitmTimeout,
      execWatchdogHit, execYieldExpiry, execFWmstall]
    repeat' split
    all_goals exact ⟨_, rfl⟩
  all_goals exact ⟨_, rfl⟩

end Sys2Proof.Machine

open Sys2Proof.Machine

/-- Settles O52, arm by arm of the dispatch. -/
theorem everyInstructionAnswers : Obligations.EveryInstructionAnswers := by
  unfold Obligations.EveryInstructionAnswers
  exact exec_answers
end

section
/-! The plain integer families (O3 to O7): each is one value behind the shell of R294; what is left is the value. -/
namespace Sys2Proof.Machine

/-! ### Moves (R310–R314) -/

theorem exec_read_general {f : AFmt} {s : State} {v : Word} (hmd : f.md = 0) (hv : readReg s (fld f.imm 0 6) = some v) :
    exec (.read f) s = .next (send2 f s v) := by
  simp only [exec, execRead, hmd, hv, beq_self_eq_true, if_true]

theorem exec_read_soft {f : AFmt} {s : State} {v : BitVec 512} (hmd : f.md = 1) (hv : readSoft s (fld f.imm 0 3) = some v) :
    exec (.read f) s = .next (writeSoft (writeSoft s f.t0 (some v)) f.t1 (some v)) := by
  simp only [exec, execRead, hmd, hv]
  rfl

theorem shellA_acts {f : AFmt} {s : State} {eff : State → State} (h : Acts f.pr s) : shellA f s eff = eff s := shell_acts h

/-! ### Integer arithmetic (R315–R317) -/

theorem arith_acts {f : AFmt} {s : State} (h : Acts f.pr s) (r : Int) :
    arith f s r = .next (send2 f s (deliverT f.ty.toNat (f.md == 1) r)) := aluInt_acts h _

theorem divRem_zero (ty : Nat) (x : Int) : divRem ty x 0 = (if tySgn ty then -1 else 2 ^ tyW ty - 1, x) := by
  simp [divRem, pow2_eq_two_pow]

theorem divRem_ne_zero (ty : Nat) (x : Int) {y : Int} (h : y ≠ 0) : divRem ty x y = (x.tdiv y, x - x.tdiv y * y) := by
  simp [divRem, h]

/-! ### Logic (R318–R323) -/

theorem putBits_acts {f : AFmt} {s : State} (h : Acts f.pr s) (v : Nat) : putBits f s v = .next (send2 f s (putT f.ty.toNat v)) :=
  aluInt_acts h _

/-- The count of set bits below k. -/
theorem popGo_eq_length_filter (u k : Nat) : popGo u k = ((List.range k).filter fun n => Nat.testBit u n).length := by
  induction k with
  | zero => rfl
  | succ k ih =>
    rw [popGo, ih, List.range_succ, List.filter_append, List.length_append]
    by_cases h : Nat.testBit u k <;> simp [h]

theorem exec_tst_nonzero {f : AFmt} {s : State} (h : Acts f.pr s) (hmd : f.md = 0) :
    exec (.tst f) s = .next (send2 f s (if uOf f s &&& sOf f s = 0 then 0 else 1)) := by
  refine (aluInt_acts h _).trans ?_
  rw [hmd]
  change Host.Outcome.next (send2 f s (bool64 (!(uOf f s &&& sOf f s == 0)))) = _
  by_cases hz : uOf f s &&& sOf f s = 0 <;> simp [hz, bool64]

theorem exec_tst_zero {f : AFmt} {s : State} (h : Acts f.pr s) (hmd : f.md = 1) :
    exec (.tst f) s = .next (send2 f s (if uOf f s &&& sOf f s = 0 then 1 else 0)) := by
  refine (aluInt_acts h _).trans ?_
  rw [hmd]
  change Host.Outcome.next (send2 f s (bool64 (uOf f s &&& sOf f s == 0))) = _
  by_cases hz : uOf f s &&& sOf f s = 0 <;> simp [hz, bool64]

/-! ### Bit fields and extension (R321, R322) -/

/-- The right shift, as `nbits` writes it. -/
theorem natShiftRight_eq_div_pow (m n : Nat) : m.shiftRight n = m / 2 ^ n := Nat.shiftRight_eq_div_pow m n

/-- The length of the field that slot b names, within the width. -/
def fieldLen (f : AFmt) (s : State) : Nat :=
  if wOf f ≤ fld (bOf64 f s) 0 6 then 0 else min (fld (bOf64 f s) 8 7) (wOf f - fld (bOf64 f s) 0 6)

theorem fieldCtl_eq (f : AFmt) (s : State) : fieldCtl (wOf f) (bOf64 f s) = (fld (bOf64 f s) 0 6, fieldLen f s) := rfl

theorem exec_bfx {f : AFmt} {s : State} (h : Acts f.pr s) : exec (.bfx f) s = .next (send2 f s (putT f.ty.toNat (
    if fieldLen f s = 0 then 0
    else if tySgn f.ty.toNat then signed (uOf f s / 2 ^ fld (bOf64 f s) 0 6 % 2 ^ fieldLen f s) (fieldLen f s)
    else (uOf f s / 2 ^ fld (bOf64 f s) 0 6 % 2 ^ fieldLen f s : Nat)))) := by
  simp only [exec, execBfx, fieldCtl_eq, aluInt_acts h, nbits, pow2_eq_two_pow, beq_iff_eq, natShiftRight_eq_div_pow]

theorem exec_bfi {f : AFmt} {s : State} (h : Acts f.pr s) : exec (.bfi f) s = .next (send2 f s (putT f.ty.toNat (
    if fieldLen f s = 0 then uOf f s
    else putFld (uOf f s) (fld (bOf64 f s) 0 6) (fieldLen f s) (bitsT f.ty.toNat (opC s)) : Nat))) := by
  simp only [exec, execBfi, fieldCtl_eq, putBits_acts h, beq_iff_eq]

/-- The count of sext and zext. -/
def extendCount (f : AFmt) (s : State) : Nat := if f.i then fld f.imm 0 7 else fld (opB s) 0 7

theorem wOf_pos (f : AFmt) : 0 < wOf f := tyW_pos _

/-- What an extension gives for a count of 0, of the width or more, and between. -/
theorem extendBy_cases (f : AFmt) (s : State) (sg : Bool) : extendBy f s sg = putT f.ty.toNat (
    if extendCount f s = 0 then 0 else if wOf f ≤ extendCount f s then (uOf f s : Nat)
    else if sg then signed (uOf f s) (extendCount f s) else (uOf f s % 2 ^ extendCount f s : Nat)) := by
  have hext : extendBy f s sg = if extendCount f s == 0 then putT f.ty.toNat 0
      else if wOf f ≤ extendCount f s then putT f.ty.toNat (uOf f s : Nat)
      else putT f.ty.toNat (if sg then signed (uOf f s) (extendCount f s) else (uOf f s % pow2 (extendCount f s) : Nat)) := rfl
  simp only [hext, beq_iff_eq, pow2_eq_two_pow, apply_ite (putT f.ty.toNat)]

theorem exec_sext {f : AFmt} {s : State} (h : Acts f.pr s) : exec (.sext f) s = .next (send2 f s (extendBy f s true)) := aluInt_acts h _
theorem exec_zext {f : AFmt} {s : State} (h : Acts f.pr s) : exec (.zext f) s = .next (send2 f s (extendBy f s false)) := aluInt_acts h _

theorem exec_cmp {hi : Bool} {f : AFmt} {s : State} (h : Acts f.pr s) :
    exec (.cmp hi f) s = .next (send2 f s (if cmpCond hi f.md.toNat (xOf f s) (yOf f s) then 1 else 0)) := aluInt_acts h _

/-! ### Checked sums (R325) -/

theorem checkedAdd_inHalf {f : AFmt} {s : State} {d : Int} (h : Acts f.pr s) (hin : inHalf (opA s).toNat ((opA s).toNat + d) = true) :
    checkedAdd f s d = .next (send2 f s (BitVec.ofInt 64 ((opA s).toNat + d))) := by
  simp only [checkedAdd, shellA_acts h, hin, if_true]

theorem checkedAdd_outside {f : AFmt} {s : State} {d : Int} (h : Acts f.pr s) (hin : inHalf (opA s).toNat ((opA s).toNat + d) = false) :
    checkedAdd f s d = .next (fault s F_NONCANON (opA s) (BitVec.ofInt 64 d)) := by
  simp only [checkedAdd, shellA_acts h, hin, Bool.false_eq_true, if_false]

theorem exec_adda_checked {f : AFmt} {s : State} (hmd : f.md = 0) : exec (.adda f) s = checkedAdd f s (sb f s) := by
  simp only [exec, execAdda, hmd]
  rfl

theorem exec_lea {f : AFmt} {s : State} : exec (.lea f) s = checkedAdd f s (sb f s * 2 ^ f.md.toNat) := by
  simp only [exec, execLea, pow2_eq_two_pow]
  norm_cast

theorem exec_adda_wrap {f : AFmt} {s : State} (h : Acts f.pr s) (hmd : f.md = 1) :
    exec (.adda f) s = .next (send2 f s (opA s + BitVec.ofInt 64 (sb f s))) := by
  simp only [exec, execAdda, hmd, beq_self_eq_true, if_true, aluInt_acts h, BitVec.ofInt_add, BitVec.ofInt_natCast, BitVec.ofNat_toNat,
    BitVec.setWidth_eq]

end Sys2Proof.Machine

open Sys2Proof.Machine

/-- Settles O3: behind the shell each is one value, nulls, or a register's value. -/
theorem movesDeliver : Obligations.MovesDeliver := by
  unfold Obligations.MovesDeliver
  refine ⟨fun s => rfl, fun f s hacts => ⟨aluInt_acts hacts _, aluInt_acts hacts _, ?consth, ?null⟩, fun f s hacts => ?mov4,
    fun f s v => exec_read_general, fun f s v => exec_read_soft⟩
  case consth => exact (aluInt_acts hacts _).trans (by rw [pow2_eq_two_pow])
  case null => exact congrArg Host.Outcome.next (shellA_acts hacts)
  case mov4 => exact congrArg Host.Outcome.next (shell_acts hacts)

/-- Settles O4: each delivers its exact result; the quotient and the remainder are `divRem`'s. -/
theorem integerArithmetic : Obligations.IntegerArithmetic := by
  unfold Obligations.IntegerArithmetic
  intro f s hacts x y out
  have hout := fun r => arith_acts hacts r
  refine ⟨hout _, hout _, hout _, ?mulh, hout _, fun hy => ?div, fun hy => ?divZero, fun hy => ?rem, fun hy => ?remZero, hout _,
    ?abs, ?min, ?max⟩
  case mulh => exact (hout _).trans (by rw [pow2_eq_two_pow]; norm_cast)
  case div => exact (hout _).trans (by rw [divRem_ne_zero _ _ hy])
  case rem => exact (hout _).trans (by rw [divRem_ne_zero _ _ hy])
  case divZero => exact (hout _).trans (by rw [show yOf f s = 0 from hy, divRem_zero])
  case remZero => exact (hout _).trans (by rw [show yOf f s = 0 from hy, divRem_zero])
  case abs => exact (hout _).trans (congrArg out (by split <;> omega))
  case min => exact (hout _).trans (congrArg out (Int.min_def x y).symm)
  case max => exact (hout _).trans (congrArg out (Int.max_def x y).symm)

/-- Settles O5: each places its pattern; pow2 is the power of two, and the set bits are counted one by one. -/
theorem logicAndShifts : Obligations.LogicAndShifts := by
  unfold Obligations.LogicAndShifts
  intro f s hacts w u v k out
  have hout := fun n => putBits_acts hacts n
  have hpow := pow2_eq_two_pow
  refine ⟨hout _, hout _, hout _, ?andn, ?orn, ?not, ?shl, ?shr, ?sha, fun hmd => ?rot, fun hmd => ?rotr, hout _, hout _, ?popc, hout _,
    ?sel, fun hmd => ?tst, fun hmd => ?tstz⟩
  case andn => exact (hout _).trans (congrArg out (by rw [notW, hpow]; rfl))
  case orn => exact (hout _).trans (congrArg out (by rw [notW, hpow]; rfl))
  case not => exact (hout _).trans (congrArg out (by rw [notW, hpow]))
  case shl => exact (hout _).trans (congrArg out (by rw [hpow, hpow]))
  case shr => exact (hout _).trans (congrArg out (by rw [hpow]))
  case sha => exact (hout _).trans (congrArg out (by rw [hpow]; norm_cast))
  case rot => exact (hout _).trans (congrArg out (by rw [hmd]; rfl))
  case rotr => exact (hout _).trans (congrArg out (by rw [hmd]; rfl))
  case popc => exact (hout _).trans (congrArg out (popGo_eq_length_filter u w))
  case sel => exact (hout _).trans (congrArg out (by by_cases h : opC s = 0 <;> simp [h, u, v]))
  case tst => exact exec_tst_nonzero hacts hmd
  case tstz => exact exec_tst_zero hacts hmd

/-- Settles O6: the field and the count are the model's own; the conditions are compared one by one. -/
theorem fieldsAndComparisons : Obligations.FieldsAndComparisons := by
  unfold Obligations.FieldsAndComparisons
  constructor <;> intro f s hacts
  case' left =>
    intro w u pos len n out
    refine ⟨fun hlen => ⟨?bfxEmpty, ?bfiEmpty⟩, fun hlen => ⟨?bfx, ?bfi⟩, fun hn => ?zero, fun hn => ?wide, fun hn => ?between⟩
  case bfxEmpty => rw [exec_bfx hacts, if_pos (show fieldLen f s = 0 from hlen)]
  case bfiEmpty => rw [exec_bfi hacts, if_pos (show fieldLen f s = 0 from hlen)]
  case bfx => rw [exec_bfx hacts, if_neg (show ¬ fieldLen f s = 0 from hlen)]; rfl
  case bfi => rw [exec_bfi hacts, if_neg (show ¬ fieldLen f s = 0 from hlen)]; rfl
  case zero =>
    have hcount : extendCount f s = 0 := hn
    rw [exec_sext hacts, exec_zext hacts, extendBy_cases, extendBy_cases, if_pos hcount, if_pos hcount]
    exact ⟨rfl, rfl⟩
  case wide =>
    have hcount : wOf f ≤ extendCount f s := hn
    have hne : ¬ extendCount f s = 0 := Nat.ne_of_gt (Nat.lt_of_lt_of_le (wOf_pos f) hcount)
    rw [exec_sext hacts, exec_zext hacts, extendBy_cases, extendBy_cases, if_neg hne, if_pos hcount, if_neg hne, if_pos hcount]
    exact ⟨rfl, rfl⟩
  case between =>
    have hne : ¬ extendCount f s = 0 := Nat.ne_of_gt hn.1
    have hlt : ¬ wOf f ≤ extendCount f s := Nat.not_le.mpr hn.2
    rw [exec_sext hacts, exec_zext hacts, extendBy_cases, extendBy_cases, if_neg hne, if_neg hlt, if_neg hne, if_neg hlt]
    exact ⟨rfl, rfl⟩
  case right =>
    have hcmp := fun hi => exec_cmp (hi := hi) hacts
    exact ⟨fun hmd => ⟨(hcmp false).trans (by rw [hmd]; rfl), (hcmp true).trans (by rw [hmd]; rfl)⟩,
      fun hmd => ⟨(hcmp false).trans (by rw [hmd]; rfl), (hcmp true).trans (by rw [hmd]; rfl)⟩,
      fun hmd => (hcmp false).trans (by rw [hmd]; rfl), fun hmd => (hcmp false).trans (by rw [hmd]; rfl)⟩

/-- Settles O7: the checked sums by where they lie, alignd and canon by R326. -/
theorem addressForms : Obligations.AddressForms := by
  unfold Obligations.AddressForms
  constructor <;> intro f s hacts
  case' left =>
    refine ⟨exec_adda_wrap hacts, fun hmd hin => ?adda, fun hin => ?lea, exec_alignd_dn hacts, exec_alignd_off hacts,
      exec_canon_chk hacts, fun hmd => ?fix, fun hmd hcanon => ?pass⟩
  case' right => refine ⟨fun hmd hin => ?addaFlt, fun hin => ?leaFlt, fun hmd hcanon => ?canonFlt⟩
  case adda => exact (exec_adda_checked hmd).trans (checkedAdd_inHalf hacts hin)
  case lea => exact exec_lea.trans (checkedAdd_inHalf hacts hin)
  case addaFlt => exact (exec_adda_checked hmd).trans (checkedAdd_outside hacts hin)
  case leaFlt => exact exec_lea.trans (checkedAdd_outside hacts hin)
  case fix => rw [exec_canon_fix hacts hmd, BitVec.signExtend, ← signed_toNat]
  case pass => rw [exec_canon_flt hacts hmd, if_pos hcanon]
  case canonFlt => rw [exec_canon_flt hacts hmd, if_neg (Bool.eq_false_iff.mp hcanon)]
end

section
/-! The floating family and the conversions (O8, O9): where its controls are known, an instruction raises its flags and sends its
value (R345). -/
namespace Sys2Proof.Machine

theorem aluFp_acts {f : AFmt} {s : State} {c : Ctl} (h : Acts f.pr s) (hc : curCtl s = some c) (v : Ctl → Word × Nat) :
    aluFp f s v = .next (send2 f (raiseFl s (v c).2) (v c).1) := by
  simp only [aluFp, shellA_acts h, hc]

/-- What raises no flag only sends. -/
theorem plainFp_acts {f : AFmt} {s : State} {c : Ctl} (h : Acts f.pr s) (hc : curCtl s = some c) (v : Word) :
    plainFp f s v = .next (send2 f s v) := by
  rw [plainFp, aluFp_acts h hc, raiseFl_zero]

theorem convFault_some {f : AFmt} {s : State} {c : Ctl} {r : Ctl → Option (Nat × Nat)} {v : Nat × Nat} (h : Acts f.pr s)
    (hc : curCtl s = some c) (hv : r c = some v) : convFault f s r = .next (send2 f (raiseFl s v.2) (BitVec.ofNat 64 v.1)) := by
  simp only [convFault, shellA_acts h, hc, hv]

/-- A conversion that overflows under the trapping policy faults (R342). -/
theorem convFault_none {f : AFmt} {s : State} {c : Ctl} {r : Ctl → Option (Nat × Nat)} (h : Acts f.pr s) (hc : curCtl s = some c)
    (hv : r c = none) : convFault f s r = .next (fault s F_CVTOVF (opA s) (BitVec.ofNat 64 (f.ty.toNat * 4 + f.md.toNat))) := by
  simp only [convFault, shellA_acts h, hc, hv]

theorem exec_cvtif (f : AFmt) (s : State) :
    exec (.cvtif f) s = convFault f s fun c => cvtifF (fmtOf f.ty.toNat) c.rm f.md.toNat (valT (fld f.imm 0 2) (opA s)) := rfl

theorem exec_fcvt (f : AFmt) (s : State) :
    exec (.fcvt f) s = convFault f s fun c => narrowF (fmtOf f.ty.toNat) c.rm c.ftz f.md.toNat (fld (opA s) 0 32) := rfl

theorem exec_unpack {f : AFmt} {s : State} {c : Ctl} (h : Acts f.pr s) (hc : curCtl s = some c) :
    exec (.unpack f) s =
      .next (send (send (raiseFl s (orF (widenElem f s c 0).2 (widenElem f s c 1).2)) f.t0 (BitVec.ofNat 64 (widenElem f s c 0).1))
        f.t1 (BitVec.ofNat 64 (widenElem f s c 1).1)) := by
  simp only [exec, execUnpack, shellA_acts h, hc]

theorem exec_pack2 {f : AFmt} {s : State} {c : Ctl} (h : Acts f.pr s) (hc : curCtl s = some c) :
    exec (.pack2 f) s = .next (send2 f s (BitVec.ofNat 64
      (fld (opA s) (if f.md = 0 then 0 else 16) 16 + fld (bOf f s) (if f.md = 0 then 0 else 16) 16 * 2 ^ 16))) := by
  simp only [exec, execPack2, plainFp_acts h hc, beq_iff_eq, pow2_eq_two_pow]

end Sys2Proof.Machine

open Sys2Proof.Machine

/-- Settles O8: what reads controls raises the flags of its elements; what handles sign bits or classes raises none. -/
theorem floatResults : Obligations.FloatResults := by
  unfold Obligations.FloatResults
  constructor <;> intro f s c hacts hctl
  case left =>
    have hout := fun v => aluFp_acts hacts hctl v
    exact ⟨hout _, hout _, hout _, hout _, hout _, hout _, hout _, hout _, hout _, hout _, fun hi => hout _⟩
  case right =>
    have hout := fun v => plainFp_acts hacts hctl v
    have hspecial := fun v => aluFp_acts hacts hctl v
    exact ⟨hout _, hout _, hout _, (hout _).trans (by rw [pow2_eq_two_pow]), hspecial _, hspecial _, hspecial _, hspecial _, hspecial _⟩

/-- Settles O9: a conversion delivers its value or, under the trapping policy, its fault. -/
theorem conversions : Obligations.Conversions := by
  unfold Obligations.Conversions
  constructor <;> intro f s c hacts hctl
  case left =>
    exact ⟨aluFp_acts hacts hctl _, fun v hv => (exec_cvtif f s).trans (convFault_some hacts hctl hv),
      fun v hv => (exec_fcvt f s).trans (convFault_some hacts hctl hv), aluFp_acts hacts hctl _, exec_unpack hacts hctl, exec_pack2 hacts hctl⟩
  case right =>
    exact ⟨fun hv => (exec_cvtif f s).trans (convFault_none hacts hctl hv),
      fun hv => (exec_fcvt f s).trans (convFault_none hacts hctl hv)⟩
end

section
/-! Steering, waves and reductions (O10 to O12; R350–R356). -/
namespace Sys2Proof.Machine

/-! ### Steering (R350, R351, R356) -/

/-- steer stands behind a shell without a predicate: p selects the target, and its control turns the selection round. -/
theorem exec_steer {f : AFmt} {s : State} (h : Acts 0 s) :
    exec (.steer f) s = .next (send s (if (if f.pr == 2 then opP s == 0 else opP s != 0) then f.t0 else f.t1) (opA s)) := by
  simp only [exec, execSteer, shell_acts h]

theorem exec_gate {f : AFmt} {s : State} (h : Acts f.pr s) :
    exec (.gate f) s = .next (if opB s != 0 then send2 f s (opA s) else sendAll s [f.t0, f.t1] .null 0) := by
  simp only [exec, execGate, shellA_acts h]

theorem exec_eosq_data {f : AFmt} {s : State} (h : Acts f.pr s) (ha : isKind .eos s.cur.a = false) :
    exec (.eosq f) s = .next (send s f.t0 (opA s)) := by
  simp only [exec, execEosq, ha, Bool.false_eq_true, if_false, shellA_acts h]

theorem exec_eosq_marker {f : AFmt} {s : State} (ha : isKind .eos s.cur.a = true) : exec (.eosq f) s = .next (send s f.t1 1) := by
  simp only [exec, execEosq, ha, if_true]

/-! ### Waves (R352–R354, R503) -/

theorem phased_performs {f : AFmt} {s : State} {eff : State → State} (h : passes s.cur = false) : phased f s eff = eff s := by
  simp only [phased, h, Bool.false_eq_true, if_false]

/-- The head of the other input of a merge. -/
def otherHead (s : State) (c : Ctx) : Option Token := (headOf s c (if s.cur.a.isSome then .b else .a)).map fun h => h.2.tok

theorem mergeOrdered_admits {f : AFmt} {s : State} {c : Ctx} (hc : curCtx s = some c) :
    mergeOrdered f s = if mergeAdmits c (oneToken s.cur) (otherHead s c) then
      pairCur (forward f (modCtx s c.bay c.cell c.ctx (mergeNote (oneToken s.cur)))) else requeueCur s := by
  simp only [mergeOrdered, hc]
  rfl

theorem exec_kbound {f : AFmt} {s : State} {c : Ctx} (hp : passes s.cur = false) (hc : curCtx s = some c) :
    exec (.kbound f) s = .next (if anyEos s.cur then pairCur (forward f s)
      else if kboundAdmits c (fld f.imm 0 7) s.cur.tag then
        pairCur (forward f (noteAdm (modCtx s c.bay c.cell c.ctx (openEntry s.cur.tag s.cur.ord))))
      else requeueCur s) := by
  simp only [exec, execKbound, phased_performs hp, hc]

theorem exec_wreset {f : AFmt} {s : State} {k : Ctx} {r : LoopRec} (hp : passes s.cur = false) (he : anyEos s.cur = false)
    (hk : ctx? s s.cur.bay (routeCell s.cur.cell f.imm.toNat) (fld f.imm 0 3) = some k) (hr : loopRec k s.cur.tag.frame = some r) :
    exec (.wreset f) s = .next (pairCtx s.cur.bay (routeCell s.cur.cell f.imm.toNat) (fld f.imm 0 3) 64 (forward f
      (modCtx (modCur s fun i => { i with tag := { i.tag with wave := r.e }, ord := r.ord, adm := i.adm.drop 1 })
        s.cur.bay (routeCell s.cur.cell f.imm.toNat) (fld f.imm 0 3) (closeEntry s.cur.tag.frame)))) := by
  simp only [exec, execWreset, phased_performs hp, hk, Option.bind_some, hr, he, Bool.false_eq_true, if_false]
  rfl

/-! ### Reductions (R355) -/

/-- The reduction as it stands once a token of its FRAME is admitted. -/
def redOpened (c : Ctx) (t : Token) : RedState := { redReach c.red (redNext c.red t.tag.frame) with frame := some t.tag.frame }

/-- What an admitted contribution makes of it. -/
def redContributed (f : AFmt) (s : State) (c : Ctx) : RedState × Nat :=
  if f.md.toNat == 1 then redTake f.ty.toNat f.md.toNat ((curCtl s).getD ⟨0, false, 0⟩) (oneOp s.cur) (redOpened c (oneToken s.cur), 0)
  else redDrain f.ty.toNat f.md.toNat ((curCtl s).getD ⟨0, false, 0⟩) 9
    ({ redOpened c (oneToken s.cur) with
        buf := assocSet (oneToken s.cur).tag.wave.toNat (oneOp s.cur) (redOpened c (oneToken s.cur)).buf }, 0)

theorem exec_red {f : AFmt} {s : State} {c : Ctx} (hp : passes s.cur = false) (hc : curCtx s = some c) :
    exec (.red f) s = .next (
      if !redAdmits c (f.md.toNat == 1) (oneToken s.cur) then requeueCur s
      else if (oneToken s.cur).kind == .eos then
        pairCur (sendAll (sendAll (modCtx s c.bay c.cell c.ctx fun x => { x with red :=
          { redReach (redOpened c (oneToken s.cur)) (oneToken s.cur).tag.wave with
            frame := none, last := some (oneToken s.cur).tag.frame, acc := none } }) [f.t0, f.t1] .data
          ((redOpened c (oneToken s.cur)).acc.getD (redIdentity f.ty.toNat f.md.toNat))) [f.t0, f.t1] .eos 0)
      else pairCur (raiseFl (modCtx s c.bay c.cell c.ctx fun x => { x with red := (redContributed f s c).1 }) (redContributed f s c).2)) := by
  simp only [exec, execRed, phased_performs hp, hc]
  rfl

end Sys2Proof.Machine

open Sys2Proof.Machine

/-- Settles O10, by the equation of each behind its shell. -/
theorem steeringAndJoining : Obligations.SteeringAndJoining := by
  unfold Obligations.SteeringAndJoining
  intro f s
  refine ⟨fun hacts hpr => ?steer, fun hacts hpr => ?turned, fun hacts => ⟨fun hb => ?passes, fun hb => ?nulls, ?join, ?eos,
    exec_eosq_data hacts⟩, exec_eosq_marker⟩
  case steer =>
    have hpr' : (f.pr == 2) = false := beq_false_of_ne hpr
    rw [exec_steer hacts, hpr']
    by_cases hp : opP s = 0
    · rw [if_pos hp, hp]; rfl
    · rw [if_neg hp]
      exact congrArg (fun t => Host.Outcome.next (send s t (opA s))) (if_pos (bne_iff_ne.mpr hp))
  case turned =>
    rw [exec_steer hacts, hpr]
    by_cases hp : opP s = 0
    · rw [if_pos hp, hp]; rfl
    · rw [if_neg hp, if_neg (by simpa using hp)]
  case passes => rw [exec_gate hacts, if_pos (by simpa using hb)]
  case nulls => rw [exec_gate hacts, if_neg (by simpa using hb)]
  case join => exact congrArg Host.Outcome.next (shellA_acts hacts)
  case eos => exact congrArg Host.Outcome.next (shellA_acts hacts)

/-- Settles O11: what a head of waves admits it forwards and notes, and puts back any other. -/
theorem waveHeads : Obligations.WaveHeads := by
  unfold Obligations.WaveHeads
  intro f s c hc t other out
  have hmerge := mergeOrdered_admits (f := f) hc
  have hmergeU : exec (.mergeU f) s = .next (if isDet s s.cur.part then mergeOrdered f s else forward f s) := rfl
  refine ⟨fun hdet => ?arrival, fun hadm => ⟨?ordered, fun hdet => ?det⟩, fun hadm => ?back, fun hp => ⟨?wadv, fun he => ⟨fun hadm => ?opens,
    fun hadm => ?full, fun k r hk hr => exec_wreset hp he hk hr⟩, fun he => ?marker⟩⟩
  case arrival => rw [hmergeU, if_neg (by simp [hdet])]
  case ordered => exact congrArg Host.Outcome.next (hmerge.trans (if_pos hadm))
  case det => rw [hmergeU, if_pos hdet]; exact congrArg Host.Outcome.next (hmerge.trans (if_pos hadm))
  case back => exact congrArg Host.Outcome.next (hmerge.trans (if_neg (Bool.eq_false_iff.mp hadm)))
  case wadv => exact congrArg Host.Outcome.next (phased_performs hp)
  case opens => rw [exec_kbound hp hc, if_neg (by simp [he]), if_pos hadm]
  case full => rw [exec_kbound hp hc, if_neg (by simp [he]), if_neg (by simp [hadm])]
  case marker => rw [exec_kbound hp hc, if_pos he]

/-- Settles O12, by the three ways of an admitted or refused head. -/
theorem reductions : Obligations.Reductions := by
  unfold Obligations.Reductions
  intro f s c hc hp t r0 ctl r cleared
  have hred := exec_red (f := f) hp hc
  refine ⟨fun hadm => ?back, fun hadm => ⟨fun hk => ?marker, fun hk => ?value⟩⟩
  case back => exact hred.trans (congrArg Host.Outcome.next (if_pos (by rw [hadm]; rfl)))
  case marker => exact hred.trans (congrArg Host.Outcome.next ((if_neg (by rw [hadm]; decide)).trans (if_pos (beq_iff_eq.mpr hk))))
  case value =>
    have hr : redContributed f s c = r := by
      by_cases hmd : f.md.toNat = 1 <;> simp [redContributed, hmd, r, r0, t, redOpened, ctl]
    rw [← hr]
    exact hred.trans (congrArg Host.Outcome.next ((if_neg (by rw [hadm]; decide)).trans (if_neg (by simpa using hk))))
end

section
/-! The plain families (O49, O50): each is an effect behind the shell of R294, and the effect sends, waits or faults, which leaves
registers, tables and memory as they were. -/
namespace Sys2Proof.Machine

/-- The outcome r is an effect behind the shell for pr and ts, and that effect leaves what a computing instruction leaves. -/
def BehindShell (pr : BitVec 2) (ts : List Tgt) (s : State) (r : Res) : Prop :=
  ∃ eff, r = .next (shell pr ts s eff) ∧ (MemInv s → Stays s (eff s))

/-! ### Shared effects -/

theorem stays_whenOldest {s : State} {eff : State → State} (h : MemInv s) (k : Stays s (eff s)) : Stays s (whenOldest s eff) := by
  unfold whenOldest
  split
  · exact k
  · exact stays_waitCur h

theorem stays_writeSoft {s : State} {t : Tgt} {v : Option (BitVec 512)} (h : MemInv s) : Stays s (writeSoft s t v) := by
  unfold writeSoft
  split
  · exact .refl h
  · exact stays_recvSoft h

theorem stays_sendSoft {f : AFmt} {s : State} {v : Soft} {w : Word} (h : MemInv s) : Stays s (sendSoft f s v w) := by
  have hone (s : State) (t : Tgt) (h : MemInv s) : Stays s (if tgtSoft t then writeSoft s t (some v) else send s t w) := by
    split
    · exact stays_writeSoft h
    · exact stays_send h
  exact (hone s f.t0 h).trans (hone _ f.t1 (hone s f.t0 h).inv)

theorem stays_withSrc {f : AFmt} {s : State} {go : State → Soft → State} (h : MemInv s) (k : ∀ v, Stays s (go s v)) :
    Stays s (withSrc f s go) := by
  unfold withSrc
  split
  · exact stays_waitCur h
  · exact k _

theorem stays_raiseFl_send2 {f : AFmt} {s : State} {n : Nat} {v : Word} (h : MemInv s) : Stays s (send2 f (raiseFl s n) v) :=
  (stays_raiseFl h).trans (stays_send2 (stays_raiseFl h).inv)

/-! ### The families -/

theorem aluInt_behindShell (f : AFmt) (s : State) (v : Word) : BehindShell f.pr [f.t0, f.t1] s (aluInt f s v) :=
  ⟨_, rfl, stays_send2⟩

/-- Controls that are not known yet make an instruction wait (R345). -/
theorem aluFp_behindShell (f : AFmt) (s : State) (v : Ctl → Word × Nat) : BehindShell f.pr [f.t0, f.t1] s (aluFp f s v) := by
  refine ⟨_, rfl, fun h => ?_⟩
  split
  · exact stays_waitCur h
  · exact stays_raiseFl_send2 h

theorem convFault_behindShell (f : AFmt) (s : State) (r : Ctl → Option (Nat × Nat)) :
    BehindShell f.pr [f.t0, f.t1] s (convFault f s r) := by
  refine ⟨_, rfl, fun h => ?_⟩
  split
  · exact stays_waitCur h
  · split
    · exact stays_raiseFl_send2 h
    · exact stays_fault h

theorem unpack_behindShell (f : AFmt) (s : State) : BehindShell f.pr [f.t0, f.t1] s (execUnpack f s) := by
  refine ⟨_, rfl, fun h => ?_⟩
  dsimp only
  split
  · exact stays_waitCur h
  · exact (stays_raiseFl h).trans ((stays_send (stays_raiseFl h).inv).trans (stays_send (stays_send (stays_raiseFl h).inv).inv))

theorem checkedAdd_behindShell (f : AFmt) (s : State) (d : Int) : BehindShell f.pr [f.t0, f.t1] s (checkedAdd f s d) := by
  refine ⟨_, rfl, fun h => ?_⟩
  dsimp only
  split
  · exact stays_send2 h
  · exact stays_fault h

theorem adda_behindShell (f : AFmt) (s : State) : BehindShell f.pr [f.t0, f.t1] s (execAdda f s) := by
  unfold execAdda
  split
  · exact aluInt_behindShell ..
  · exact checkedAdd_behindShell ..

theorem canon_behindShell (f : AFmt) (s : State) : BehindShell f.pr [f.t0, f.t1] s (execCanon f s) := by
  unfold execCanon
  dsimp only
  split
  · exact aluInt_behindShell ..
  · split
    · exact aluInt_behindShell ..
    · refine ⟨_, rfl, fun h => ?_⟩
      split
      · exact stays_send2 h
      · exact stays_fault h

theorem gate_behindShell (f : AFmt) (s : State) : BehindShell f.pr [f.t0, f.t1] s (execGate f s) := by
  refine ⟨_, rfl, fun h => ?_⟩
  split
  · exact stays_send2 h
  · exact stays_sendAll h

/-- An effect on a soft value that sends or is F_ILLOP, by the kind of the value. -/
theorem withSrc_behindShell (f : AFmt) (s : State) (go : State → Soft → State) (k : ∀ v, MemInv s → Stays s (go s v)) :
    BehindShell f.pr [f.t0, f.t1] s (.next (shellA f s fun s => withSrc f s go)) :=
  ⟨_, rfl, fun h => stays_withSrc h fun v => k v h⟩

theorem skadd_behindShell (f : AFmt) (s : State) : BehindShell f.pr [f.t0, f.t1] s (execSkadd f s) :=
  withSrc_behindShell f s _ fun v h => by
    dsimp only
    split
    · exact stays_sendSoft h
    · split
      · exact stays_sendSoft h
      · exact stays_illop h

theorem sknorm_behindShell (f : AFmt) (s : State) : BehindShell f.pr [f.t0, f.t1] s (execSknorm f s) :=
  withSrc_behindShell f s _ fun v h => by
    dsimp only
    split
    · exact stays_illop h
    · exact stays_sendSoft h

/-- A collapse of a mixture or of a text token chooses a token; of any other value it is F_ILLOP (R428, R429). -/
theorem collapse_behindShell (f : AFmt) (s : State) (pick : State → Soft → Nat) :
    BehindShell f.pr [f.t0, f.t1] s (.next (shellA f s fun s => withSrc f s fun s v =>
      if skKind v == 2 then choose f s (pick s v) else if skKind v == 1 then choose f s (fld v 0 24) else illop s)) :=
  withSrc_behindShell f s _ fun v h => by
    split
    · exact stays_sendSoft h
    · split
      · exact stays_sendSoft h
      · exact stays_illop h

/-! ### System instructions -/

theorem tnow_behindShell (f : SFmt) (s : State) : BehindShell f.pr [f.t0] s (execTnow f s) := by
  refine ⟨_, rfl, fun h => ?_⟩
  split
  · exact stays_fault h
  · exact stays_send h

theorem rdsr_behindShell (f : SFmt) (s : State) : BehindShell f.pr [f.t0] s (execRdsr f s) := by
  refine ⟨_, rfl, fun h => ?_⟩
  dsimp only
  split
  · exact stays_fault h
  split
  · exact stays_fault h
  split
  · split
    · exact stays_send h
    · exact stays_waitCur h
  split
  · exact stays_whenOldest h (stays_send h)
  · exact stays_send h

theorem wrsr_behindShell (f : SFmt) (s : State) : BehindShell f.pr [f.t0] s (execWrsr f s) := by
  refine ⟨_, rfl, fun h => ?_⟩
  dsimp only
  split
  · exact stays_fault h
  split
  · exact stays_fault h
  split
  · exact stays_fault h
  · exact (stays_modBlock h).trans (stays_send (stays_modBlock h).inv)

/-- Every instruction of the plain families is such an effect. -/
theorem exec_behindShell {i : Instr} {s : State} {pr : BitVec 2} {ts : List Tgt} (h : shelled i = some (pr, ts)) :
    BehindShell pr ts s (exec i s) := by
  cases i
  case mov f | const f | consth f | add f | sub f | mul f | mulh f | mad f | div f | rem f | neg f | abs f | min f | max f | and f | or f |
      xor f | andn f | orn f | not f | shl f | shr f | sha f | rot f | clz f | ctz f | popc f | brev f | bfx f | bfi f | sel f | sext f |
      zext f | alignd f | cmp hi f | tst f => cases h; exact aluInt_behindShell ..
  case fadd f | fsub f | fmul f | fma f | fmin f | fmax f | fabs f | fneg f | fcpsgn f | fdiv f | fsqrt f | frcp f | frsq f | fexp2 f |
      flog2 f | ftanh f | fround f | fclass f | fcmp hi f | fdot2 f | cvtfi f | fwid f | pack2 f => cases h; exact aluFp_behindShell ..
  case cvtif f | fcvt f => cases h; exact convFault_behindShell ..
  case unpack f => cases h; exact unpack_behindShell ..
  case lea f => cases h; exact checkedAdd_behindShell ..
  case adda f => cases h; exact adda_behindShell ..
  case canon f => cases h; exact canon_behindShell ..
  case gate f => cases h; exact gate_behindShell ..
  case join f => cases h; exact ⟨_, rfl, stays_send2⟩
  case null f | eos f | mov4 f => cases h; exact ⟨_, rfl, stays_sendAll⟩
  case skadd f => cases h; exact skadd_behindShell ..
  case sknorm f => cases h; exact sknorm_behindShell ..
  case skrd f => cases h; exact withSrc_behindShell f s _ fun _ => stays_send2
  case skclr f => cases h; exact ⟨_, rfl, stays_sendSoft⟩
  case collapseMix f => cases h; exact collapse_behindShell f s fun _ v => mixBest (skCands v)
  case collapseCdf f => cases h; exact collapse_behindShell f s fun s v => cdfPick (fld (opA s) 0 32) (skCands v)
  case tnow f => cases h; exact tnow_behindShell ..
  case equery f => cases h; exact ⟨_, rfl, stays_send⟩
  case rdsr f => cases h; exact rdsr_behindShell ..
  case wrsr f => cases h; exact wrsr_behindShell ..
  case trap f => cases h; exact ⟨_, rfl, stays_faultAux⟩
  all_goals cases h

/-- A predicate that does not hold. -/
theorem predOk_eq_false {pr : BitVec 2} {s : State} (h : (pr = 1 ∧ opP s = 0) ∨ (pr = 2 ∧ opP s ≠ 0)) : predOk pr s = false := by
  rcases h with ⟨rfl, h⟩ | ⟨rfl, h⟩
  · exact bne_eq_false_iff_eq.mpr h
  · exact beq_eq_false_iff_ne.mpr h

end Sys2Proof.Machine

open Sys2Proof.Machine

/-- Settles O49, by the shell's own cases. -/
theorem shellFirst : Obligations.ShellFirst := by
  unfold Obligations.ShellFirst
  intro i s pr ts hi
  obtain ⟨eff, hexec, -⟩ := exec_behindShell (s := s) hi
  rw [hexec]
  exact ⟨fun he => congrArg Host.Outcome.next (shell_eos he), fun he hn => congrArg Host.Outcome.next (shell_null he hn),
    fun he hn hp => congrArg Host.Outcome.next (shell_off he hn (predOk_eq_false hp))⟩

/-- Settles O50: the shell leaves what its effect leaves. -/
theorem computingLeaves : Obligations.ComputingLeaves := by
  unfold Obligations.ComputingLeaves
  intro i s t hi hinv ht
  obtain ⟨⟨pr, ts⟩, hi⟩ := Option.isSome_iff_exists.mp hi
  obtain ⟨eff, hexec, hstays⟩ := exec_behindShell (s := s) hi
  cases hexec.symm.trans ht
  exact (stays_shell hinv (hstays hinv)).leaves
end

section
/-! The step (O54), the words that decode (O55) and reset (O56). -/
namespace Sys2Proof

open Sys2Proof.Machine

/-! ### A step runs what it takes (R291, R385) -/

theorem resolve_of_ne_stream {i : Instr} (s : State) (h : ∀ f, i ≠ .stream f) : resolve i s = i := by
  cases i
  case stream f => exact absurd rfl (h f)
  all_goals rfl

theorem step_of_pipe {s : State} {x : Inst} {rest : List Inst} {i : Instr} (hp : s.pipe = x :: rest) (hd : decodeWord x.word = .ok i) :
    step s = exec (resolve i { s with cur := x, pipe := rest }) { s with cur := x, pipe := rest } := by
  simp only [step, hp, runInst, hd]

theorem step_of_event {s : State} {e : Instr} {l : List Sched} (hp : s.pipe = []) (hs : s.script = .ev e :: l) :
    step s = exec e { s with script := l } := by
  simp only [step, hp, idleStep, hs]

/-! ### The opcode and the predicate control of a row (R293, R303) -/

theorem pr_of_row {i : Instr} {r : Row} (h : row i = some r) (hok : r.ok = true) : r.pay.pr ≠ 3 := by
  cases i <;> cases h
  case nop => decide
  all_goals
    simp only [aOk, mOk, xOk, eOkArg, eOk, sOk, sOkSr, Bool.and_eq_true, bne_iff_ne, ne_eq] at hok
    simp only [Payload.pr, hok, ne_eq, not_false_eq_true]

theorem opAssigned_of_row {i : Instr} {r : Row} (h : row i = some r) : opAssigned r.op = true := by
  cases i <;> cases h
  case cmp hi f | fcmp hi f => cases hi <;> rfl
  all_goals rfl

theorem op_lt_of_opAssigned {op : Nat} (h : opAssigned op = true) : op < 256 := by
  simp only [opAssigned, Bool.or_eq_true, Bool.and_eq_true, decide_eq_true_eq] at h
  omega

theorem fld_eq_cut (w : Word) (lo len : Nat) : fld w lo len = (cut w lo len).toNat := by
  simp only [fld, nbits, cut, BitVec.extractLsb'_toNat, pow2_eq_two_pow, natShiftRight_eq_div_pow, Nat.shiftRight_eq_div_pow]

/-- The predicate control stands below the opcode in every format that has one. -/
theorem cut_putWord_pr (op : Nat) (p : Payload) : cut (putWord op p) 54 2 = p.pr := by
  cases p <;>
    simp only [cut, putWord_z, putWord_fa, putWord_ff, putWord_fm, putWord_fx, putWord_fe, putWord_fs, extract_append_high,
      extract_append_low, Nat.reduceLeDiff, Nat.reduceSub, Nat.reduceAdd, Nat.le_refl, BitVec.extractLsb'_eq_self, Payload.pr]
  rfl

/-- A word that decodes has an assigned opcode and no predicate control 0b11. -/
theorem fields_of_decodeWord {w : Word} {i : Instr} (h : decodeWord w = .ok i) : opAssigned (fld w 56 8) = true ∧ fld w 54 2 ≠ 3 := by
  obtain ⟨hraw, hwf⟩ := decodeWord_eq_ok.mp h
  obtain ⟨r, hrow, rfl⟩ := row_of_rawDecode hraw
  have hop := opAssigned_of_row hrow
  have hpr := pr_of_row hrow (ok_of_wellFormed hwf hrow)
  rw [fld_eq_cut, fld_eq_cut, cut_putWord_op, cut_putWord_pr, Nat.mod_eq_of_lt (op_lt_of_opAssigned hop)]
  exact ⟨hop, fun he => hpr (BitVec.eq_of_toNat_eq he)⟩

/-- The ranges that R303 reserves. -/
def reservedOps : List (Nat × Nat) :=
  [(0x07, 0x0F), (0x2E, 0x2F), (0x34, 0x37), (0x3B, 0x3F), (0x55, 0x5F), (0x66, 0x6F), (0x87, 0x8F), (0xA5, 0xAF), (0xBC, 0xBF),
    (0xD3, 0xDF), (0xE8, 0xEF), (0xF8, 0xFA), (0xFC, 0xFF)]

theorem not_reserved_of_opAssigned {op : Nat} (h : opAssigned op = true) : op ≠ 0xFB ∧ ∀ r ∈ reservedOps, op < r.1 ∨ r.2 < op := by
  simp only [opAssigned, Bool.or_eq_true, Bool.and_eq_true, decide_eq_true_eq] at h
  simp only [reservedOps, List.forall_mem_cons, List.not_mem_nil, false_imp_iff, forall_const, and_true]
  refine ⟨?_, ?_, ?_, ?_, ?_, ?_, ?_, ?_, ?_, ?_, ?_, ?_, ?_, ?_⟩ <;> omega

/-! ### Reset -/

theorem getD_replicate_self {α : Type} (d : α) (n p : Nat) : (List.replicate n d)[p]?.getD d = d := by
  rw [List.getElem?_replicate]
  by_cases h : p < n
  · rw [if_pos h, Option.getD_some]
  · rw [if_neg h, Option.getD_none]

theorem part_reset (p : Nat) : part State.reset p = Part.reset := getD_replicate_self _ 64 p

end Sys2Proof

open Sys2Proof Sys2Proof.Machine

/-- Settles O54, by the two heads that a step can find. -/
theorem stepRunsDecoded : Obligations.StepRunsDecoded := by
  unfold Obligations.StepRunsDecoded
  constructor
  case left =>
    intro s x rest i hp hd t
    have hstep : step s = exec (resolve i t) t := step_of_pipe hp hd
    refine ⟨fun h => ?_, fun f hf => ⟨fun h => ?_, fun h => ?_⟩⟩
    · rw [hstep, resolve_of_ne_stream t h]
    · rw [hstep, hf, resolve, if_neg (by simpa using h)]
    · rw [hstep, hf, resolve, if_pos (by simpa using h)]
  case right => exact fun s e l hp hs => step_of_event hp hs

/-- Settles O55: the worked words decode by computation, and a word that decodes is that of a row. -/
theorem wordsAreRead : Obligations.WordsAreRead := by
  unfold Obligations.WordsAreRead
  refine ⟨rfl, rfl, rfl, rfl, rfl, fun w i h => ?_⟩
  obtain ⟨hop, hpr⟩ := fields_of_decodeWord h
  exact ⟨hpr, not_reserved_of_opAssigned hop⟩

/-- Settles O56, by evaluating the reset state. -/
theorem resetValues : Obligations.ResetValues := by
  unfold Obligations.ResetValues
  refine ⟨⟨rfl, rfl, rfl⟩, rfl, rfl, rfl, rfl, rfl, fun _ _ => rfl, fun _ => rfl, fun _ => rfl, fun p hp => ?_, rfl, rfl, rfl, rfl, rfl, rfl,
    rfl, fun x hx => ?_⟩
  · have hpart := part_reset p
    refine ⟨by rw [live, hpart]; rfl, ?_⟩
    dsimp only
    rw [hpart]
    exact ⟨rfl, rfl, rfl, rfl, rfl, rfl, rfl, rfl, rfl, rfl, rfl, rfl⟩
  · obtain rfl : x = Port.reset := List.eq_of_mem_replicate hx
    exact ⟨rfl, rfl, rfl⟩
end

section
/-! Matching (O29), what a commit applies (O31) and what an exception leaves (O34). -/
namespace Sys2Proof.Machine

/-! ### Matching (R155–R160) -/

theorem judge_partner_iff {s : State} {p f idx : Nat} {o : Slot} {t : Token} {q : Option Nat} :
    ((resting? s p f idx o).map fun x => sameId x t q).getD false = true ↔ ∃ x, resting? s p f idx o = some x ∧ sameId x t q = true := by
  cases resting? s p f idx o <;> simp

theorem judge_fire {s : State} {p f idx : Nat} {used : List Slot} {sl : Slot} {t : Token} {q : Option Nat} (hu : sl ∈ used)
    (hp : ∀ o ∈ used.filter (· != sl), ∃ x, resting? s p f idx o = some x ∧ sameId x t q = true) :
    judge s p f idx used sl t q = .fire := by
  rw [judge, if_pos]
  rw [Bool.and_eq_true, List.all_eq_true]
  exact ⟨List.contains_iff_mem.mpr hu, fun o ho => judge_partner_iff.mpr (hp o ho)⟩

section
variable {s : State} {p f idx : Nat} {used : List Slot} {sl : Slot} {t : Token} {q : Option Nat}
  (h : sl ∉ used ∨ ∃ o ∈ used.filter (· != sl), ¬ ∃ x, resting? s p f idx o = some x ∧ sameId x t q = true)
include h

/-- A slot that the word does not take, or a missing partner, leaves the choice to what rests in the token's own slot. -/
theorem judge_skips : (used.contains sl &&
    (used.filter (· != sl)).all fun o => ((resting? s p f idx o).map fun x => sameId x t q).getD false) = false := by
  rw [Bool.eq_false_iff, ne_eq, Bool.and_eq_true, List.all_eq_true, List.contains_iff_mem]
  rintro ⟨hu, hall⟩
  rcases h with h | ⟨o, ho, hn⟩
  · exact h hu
  · exact hn (judge_partner_iff.mp (hall o ho))

theorem judge_rest (hr : resting? s p f idx sl = none) : judge s p f idx used sl t q = .rest := by
  simp only [judge, judge_skips h, hr, Bool.false_eq_true, if_false]

theorem judge_dup {x : SlotEntry} (hr : resting? s p f idx sl = some x) (hid : sameId x t q = true) :
    judge s p f idx used sl t q = .dup x.tok := by
  simp only [judge, judge_skips h, hr, hid, Bool.false_eq_true, if_false, if_true]

theorem judge_wait {x : SlotEntry} (hr : resting? s p f idx sl = some x) (hid : sameId x t q = false) :
    judge s p f idx used sl t q = .wait := by
  simp only [judge, judge_skips h, hr, hid, Bool.false_eq_true, if_false]

end

/-- Operands that are put into an instance change nothing but its slots. -/
theorem gather_keeps {α : Type} (π : Inst → α) (h : ∀ i o x, π (setOp i o x) = π i) (s : State) (p f idx : Nat) (used : List Slot)
    (sl : Slot) (t : Token) (i : Inst) : π (gather s p f idx used sl t i) = π i := by
  unfold gather
  induction used generalizing i with
  | nil => rfl
  | cons o l ih =>
    rw [List.foldl_cons, ih]
    split
    · exact h ..
    · split
      · exact h ..
      · rfl

theorem setOp_word (i : Inst) (o : Slot) (x : Operand) : (setOp i o x).word = i.word := by cases o <;> rfl
theorem setOp_tag (i : Inst) (o : Slot) (x : Operand) : (setOp i o x).tag = i.tag := by cases o <;> rfl
theorem setOp_bay (i : Inst) (o : Slot) (x : Operand) : (setOp i o x).bay = i.bay := by cases o <;> rfl
theorem setOp_cell (i : Inst) (o : Slot) (x : Operand) : (setOp i o x).cell = i.cell := by cases o <;> rfl

theorem matchBlock_displaced {s : State} {b : Block} {idx n : Nat} {e : QEntry} (h : displaced b = true) : matchBlock s b idx n e = none := by
  rw [matchBlock, if_pos h]

section
variable {s : State} {b : Block} {idx n : Nat} {e : QEntry} (hdis : displaced b = false)

/-- What matching goes by: the verdict on the token. -/
abbrev Verdict (s : State) (b : Block) (idx : Nat) (e : QEntry) (v : MatchRes) : Prop :=
  judge s b.part b.frame idx (wordSlots (b.words.getD idx 0)) e.slot e.tok (some b.seq) = v

/-- The bay of a block's frame, and the cell of its word. -/
def blockBay (s : State) (b : Block) : Nat := ((frame? s b.part b.frame).map (·.bay)).getD 0
def wordCell (b : Block) (idx : Nat) : Nat := (b.places.getD idx (0, 0)).1

/-- The instance that a firing forms. -/
def firedInst (s : State) (b : Block) (idx : Nat) (e : QEntry) : Inst :=
  gather s b.part b.frame idx (wordSlots (b.words.getD idx 0)) e.slot e.tok { Inst.empty with
    part := b.part, bay := blockBay s b, cell := wordCell b idx, ctx := (b.places.getD idx (0, 0)).2, tag := e.tok.tag, ord := e.tok.ord,
    adm := e.tok.adm, word := b.words.getD idx 0, seq := b.seq, idx := idx, level := levelOf s b.part b.frame }

include hdis

theorem matchBlock_full (hj : Verdict s b idx e .fire) (hr : readyRoom s (blockBay s b) (wordCell b idx) = false) :
    matchBlock s b idx n e = none := by
  have hr' : readyRoom s (((frame? s b.part b.frame).map (·.bay)).getD 0) (b.places.getD idx (0, 0)).1 = false := hr
  simp only [matchBlock, hdis, hj, hr', Bool.false_eq_true, if_false, Bool.not_false, if_true]

theorem matchBlock_fires (hj : Verdict s b idx e .fire) (hr : readyRoom s (blockBay s b) (wordCell b idx) = true)
    (hp : rowPoison s b.part b.frame idx (wordSlots (b.words.getD idx 0)) e.slot = none) :
    ∃ u : State, matchBlock s b idx n e = some { u with ready := u.ready ++ [firedInst s b idx e] } ∧ u.ready = s.ready ∧
      u.queues = dropAt n s.queues ∧ u.slots = s.slots.filter fun x => !(x.part == b.part && x.frame == b.frame && x.idx == idx &&
        ((wordSlots (b.words.getD idx 0)).filter (· != e.slot)).contains x.slot) := by
  have hr' : readyRoom s (((frame? s b.part b.frame).map (·.bay)).getD 0) (b.places.getD idx (0, 0)).1 = true := hr
  simp only [matchBlock, hdis, hj, hr', hp, Bool.false_eq_true, if_false, Bool.not_true]
  exact ⟨_, rfl, rfl, rfl, rfl⟩

theorem matchBlock_poisoned {a : Nat} (hj : Verdict s b idx e .fire) (hr : readyRoom s (blockBay s b) (wordCell b idx) = true)
    (hp : rowPoison s b.part b.frame idx (wordSlots (b.words.getD idx 0)) e.slot = some a) (hh : b.held = none) :
    ∃ r : FaultRec, matchBlock s b idx n e = some (raiseBlock s b.part b.frame b.seq r) ∧ r.code = F_MEMECC ∧ r.g4 = BitVec.ofNat 64 (8 * a) := by
  have hr' : readyRoom s (((frame? s b.part b.frame).map (·.bay)).getD 0) (b.places.getD idx (0, 0)).1 = true := hr
  simp only [matchBlock, hdis, hj, hr', hp, hh, Bool.false_eq_true, if_false, Bool.not_true, Option.isSome_none]
  exact ⟨_, rfl, rfl, rfl⟩

theorem matchBlock_rests (hj : Verdict s b idx e .rest) :
    matchBlock s b idx n e = some (restSlot (outQueue s n) ⟨b.part, b.frame, idx, e.slot, some b.seq, none, e.tok⟩) := by
  simp only [matchBlock, hdis, hj, Bool.false_eq_true, if_false]

theorem matchBlock_waits (hj : Verdict s b idx e .wait) : matchBlock s b idx n e = none := by
  simp only [matchBlock, hdis, hj, Bool.false_eq_true, if_false]

theorem matchBlock_dup {kept : Token} (hj : Verdict s b idx e (.dup kept)) : ∃ r : FaultRec,
    matchBlock s b idx n e = some (raiseBlock (outQueue s n) b.part b.frame b.seq r) ∧ r.code = F_DUPTOK ∧ r.g4 = kept.data ∧
      r.g5 = e.tok.data := by
  simp only [matchBlock, hdis, hj, Bool.false_eq_true, if_false]
  exact ⟨_, rfl, rfl, rfl, rfl⟩

end

/-- Of the tokens that compete, the first that can act acts. -/
theorem tryCell_first {s u : State} {e : QEntry} (h : tryCell s e = some u) :
    ∃ n d, s.queues[n]? = some d ∧ together s e d = true ∧ tryHead s n d = some u ∧
      ∀ m c, m < n → s.queues[m]? = some c → together s e c = true → tryHead s m c = none := by
  obtain ⟨l, n, r, hsplit, hn, hbefore⟩ := List.findSome?_eq_some_iff.mp h
  obtain ⟨d, hd, hu⟩ := Option.bind_eq_some_iff.mp hn
  have htog : together s e d = true := by
    refine Decidable.byContradiction fun hne => ?_
    rw [if_neg hne] at hu
    cases hu
  rw [if_pos htog] at hu
  refine ⟨n, d, hd, htog, hu, fun m c hm hc hmc => ?_⟩
  have hmem : m ∈ l := by
    have hlen : n = l.length := by
      have := congrArg (fun x => x[l.length]?) hsplit
      simp only [List.getElem?_append_right (Nat.le_refl _), Nat.sub_self, List.getElem?_cons_zero] at this
      obtain ⟨_, he⟩ := List.getElem?_eq_some_iff.mp this
      simpa using he.symm
    have := congrArg (fun x => x[m]?) hsplit
    have hml : m < s.queues.length := (List.getElem?_eq_some_iff.mp hc).1
    rw [List.getElem?_range hml, List.getElem?_append_left (by omega)] at this
    exact List.mem_of_getElem? this.symm
  have := hbefore m hmem
  rwa [hc, Option.bind_some, if_pos hmc] at this

/-! ### What a commit applies (R34, R65) -/

/-- A received write: data is put into its register, a null leaves it. -/
def applyWrite {α : Type} (l : List α) (x : Nat × Option α) : List α :=
  match x.2 with
  | some v => l.set x.1 v
  | none => l

def applyWrites {α : Type} (l : List α) (ws : List (Nat × Option α)) : List α := ws.foldl applyWrite l

theorem commitRegs_g (b : Block) (f : Frame) : (commitRegs b f).g = applyWrites f.g b.wr :=
  congrArg (b.wr.foldl · f.g) (funext fun _ => funext fun ⟨_, w⟩ => by cases w <;> rfl)

theorem commitRegs_sk (b : Block) (f : Frame) : (commitRegs b f).sk = applyWrites f.sk b.sk :=
  congrArg (b.sk.foldl · f.sk) (funext fun _ => funext fun ⟨_, w⟩ => by cases w <;> rfl)

theorem length_applyWrite {α : Type} (l : List α) (x : Nat × Option α) : (applyWrite l x).length = l.length := by
  unfold applyWrite
  split
  · exact List.length_set
  · rfl

theorem applyWrite_other {α : Type} {l : List α} {x : Nat × Option α} {k : Nat} (h : ∀ v, x ≠ (k, some v)) :
    (applyWrite l x)[k]? = l[k]? := by
  obtain ⟨n, w⟩ := x
  cases w with
  | none => rfl
  | some w =>
    have hn : n ≠ k := fun e => h w (by rw [e])
    exact List.getElem?_set_ne hn

/-- A register without data for it keeps its value. -/
theorem applyWrites_other {α : Type} {l : List α} {ws : List (Nat × Option α)} {k : Nat} (h : ∀ v, (k, some v) ∉ ws) :
    (applyWrites l ws)[k]? = l[k]? := by
  induction ws generalizing l with
  | nil => rfl
  | cons x ws ih =>
    have hx : ∀ v, x ≠ (k, some v) := fun v e => h v (e ▸ List.mem_cons_self)
    have hws : ∀ v, (k, some v) ∉ ws := fun v hv => h v (List.mem_cons_of_mem x hv)
    exact (ih hws).trans (applyWrite_other hx)

/-- A register with data for it takes that value, whatever the order of the writes. -/
theorem applyWrites_same {α : Type} {l : List α} {ws : List (Nat × Option α)} {k : Nat} {v : α} (hd : (ws.map (·.1)).Nodup)
    (hm : (k, some v) ∈ ws) (hk : k < l.length) : (applyWrites l ws)[k]? = some v := by
  induction ws generalizing l with
  | nil => cases hm
  | cons x ws ih =>
    obtain ⟨hx, hd⟩ := List.nodup_cons.mp hd
    rcases List.mem_cons.mp hm with rfl | hm
    · have hws : ∀ w, (k, some w) ∉ ws := fun w hw => hx (List.mem_map_of_mem (f := (·.1)) hw)
      exact (applyWrites_other hws).trans (List.getElem?_set_self hk)
    · exact ih hd hm (by rwa [length_applyWrite])

theorem commitRegs_fstat_plain {b : Block} {f : Frame} (h : assoc 0x002 b.wrsrs = none) : (commitRegs b f).fstat = f.fstat ||| b.flags := by
  simp only [commitRegs, h]

theorem commitRegs_fstat_written {b : Block} {f : Frame} {v : Word} (h : assoc 0x002 b.wrsrs = some v) :
    (commitRegs b f).fstat = BitVec.setWidth 7 v ||| b.flags := by
  simp only [commitRegs, h]

/-! ### Taking an exception (R38, R448, R450) -/

/-- Discarded blocks leave what one discarded block leaves. -/
theorem discardAll_keeps {α : Type} (π : State → α) (h : ∀ s p f q b, π (clearBlock s p f q b) = π s) (s : State) (l : List Block) :
    π (discardAll s l) = π s := by
  unfold discardAll
  induction l generalizing s with
  | nil => rfl
  | cons b l ih => rw [List.foldl_cons, ih, h]

/-- A change that keeps a frame's number finds it again where it was. -/
theorem frame?_modFrame {s : State} {p f : Nat} {g : Frame → Frame} (h : ∀ x, (g x).part = x.part ∧ (g x).num = x.num) (p' f' : Nat) :
    frame? (modFrame s p f g) p' f' = (frame? s p' f').map fun x => if x.part == p && x.num == f then g x else x := by
  simp only [frame?, modFrame_frames, updWhere, List.find?_map]
  congr 2
  funext x
  simp only [Function.comp]
  split
  · rw [(h x).1, (h x).2]
  · rfl

theorem frame?_modFrame_same {s : State} {p f : Nat} {g : Frame → Frame} {x : Frame} (h : ∀ x, (g x).part = x.part ∧ (g x).num = x.num)
    (hx : frame? s p f = some x) : frame? (modFrame s p f g) p f = some (g x) := by
  rw [frame?_modFrame h, hx, Option.map_some, if_pos (List.find?_some hx)]

theorem frame?_modFrame_other {s : State} {p f p' f' : Nat} {g : Frame → Frame} (h : ∀ x, (g x).part = x.part ∧ (g x).num = x.num)
    (hne : ¬ (p' = p ∧ f' = f)) : frame? (modFrame s p f g) p' f' = frame? s p' f' := by
  rw [frame?_modFrame h]
  cases hx : frame? s p' f' with
  | none => rfl
  | some x =>
    obtain ⟨rfl, rfl⟩ : x.part = p' ∧ x.num = f' := by simpa using List.find?_some hx
    rw [Option.map_some, if_neg]
    simpa using hne

theorem part_modPart_same {s : State} {p : Nat} {g : Part → Part} (h : p < s.parts.length) : part (modPart s p g) p = g (part s p) := by
  simp [part, List.getD_eq_getElem?_getD, h]

theorem discardYounger_keeps {α : Type} (π : State → α) (h : ∀ s p f q b, π (clearBlock s p f q b) = π s) (s : State) (p f q : Nat) :
    π (discardYounger s p f q) = π s := discardAll_keeps π h s _

/-- The state in which a frame of no trap is halted, before its record is delivered. -/
def halted (s : State) (p f q : Nat) (r : FaultRec) : State :=
  modFrame (clearBlock (discardYounger s p f q) p f q true) p f fun x => { x with fault := some r, nextAddr := none }

section
variable (s : State) (p f q : Nat) (r : FaultRec)

theorem halted_parts : (halted s p f q r).parts = s.parts := discardYounger_keeps (·.parts) (fun _ _ _ _ _ => rfl) s p f q
theorem halted_mem : (halted s p f q r).mem = s.mem := discardYounger_keeps (·.mem) (fun _ _ _ _ _ => rfl) s p f q
theorem halted_shelf : (halted s p f q r).shelf = s.shelf := discardYounger_keeps (·.shelf) (fun _ _ _ _ _ => rfl) s p f q
theorem halted_acc : (halted s p f q r).acc = s.acc := discardYounger_keeps (·.acc) (fun _ _ _ _ _ => rfl) s p f q
theorem halted_pkg : (halted s p f q r).pkg = s.pkg := discardYounger_keeps (·.pkg) (fun _ _ _ _ _ => rfl) s p f q

theorem part_halted (n : Nat) : part (halted s p f q r) n = part s n := by rw [part, halted_parts, part]

theorem frame?_discarded (p' f' : Nat) : frame? (clearBlock (discardYounger s p f q) p f q true) p' f' = frame? s p' f' :=
  discardYounger_keeps (frame? · p' f') (fun _ _ _ _ _ => rfl) s p f q
end

theorem haltFrame_of_frame {s : State} {p f q : Nat} {r : FaultRec} {fr : Frame} (h : frame? s p f = some fr) (hf : fr.fault = none)
    (ht : fr.trap = none) : haltFrame s p f q r =
      deliver (halted s p f q (withActs r (((block? s p f q).map (·.acts)).getD [])))
        (withActs r (((block? s p f q).map (·.acts)).getD [])) (.frame f) false := by
  simp only [haltFrame, h, hf, ht, Option.isSome_none, Bool.false_eq_true, if_false]
  rfl

/-- A partition whose next record has its number, and one that a record awaits a trap frame in. -/
def nextRec (t : Part) : Part := { t with recSeq := (t.recSeq + 1) % pow2 32 }
def awaitsTrap (x : TrapItem) (t : Part) : Part := { t with trapQ := t.trapQ ++ [x] }

/-- A record of class E is numbered and joins those that await a trap frame. -/
theorem deliver_queues {s : State} {r : FaultRec} {v : Victim} (h : r.pkg = false) :
    deliver s r v false = modPart (modPart s r.part nextRec) r.part (awaitsTrap ⟨{ r with seq := (part s r.part).recSeq }, v, none⟩) := by
  simp only [deliver, numbered, h, Bool.false_and, Bool.false_eq_true, if_false]
  rfl

/-- What the partition has then. -/
theorem part_queued {s : State} {p : Nat} {x : TrapItem} (h : p < s.parts.length) :
    part (modPart (modPart s p nextRec) p (awaitsTrap x)) p = awaitsTrap x (nextRec (part s p)) := by
  rw [part_modPart_same, part_modPart_same h]
  simpa using h

end Sys2Proof.Machine

open Sys2Proof.Machine

/-- Settles O29, by the verdict on the token and, where several wait, by the first that can act. -/
theorem tokensMatch : Obligations.TokensMatch := by
  unfold Obligations.TokensMatch
  refine ⟨?match_, fun s u e h => tryCell_first h⟩
  intro s b idx n e t w used others bay pl out partner
  refine ⟨matchBlock_displaced, fun hdis hused hpart => ?fires, fun hdis hmiss => ?rests⟩
  case fires =>
    have hj : Verdict s b idx e .fire := judge_fire hused hpart
    refine ⟨matchBlock_full hdis hj, fun hr hp => ?_, fun a hr hp hh => matchBlock_poisoned hdis hj hr hp hh⟩
    obtain ⟨u, hu, hready, hqueues, hslots⟩ := matchBlock_fires (n := n) hdis hj hr hp
    exact ⟨firedInst s b idx e, _, hu, congrArg (· ++ _) hready, gather_keeps (·.word) setOp_word .., gather_keeps (·.tag) setOp_tag ..,
      gather_keeps (·.bay) setOp_bay .., gather_keeps (·.cell) setOp_cell .., hqueues, hslots⟩
  case rests =>
    refine ⟨fun hrest => ?empty, fun x hrest => ⟨fun hid => matchBlock_dup hdis (judge_dup hmiss hrest hid),
      fun hid => matchBlock_waits hdis (judge_wait hmiss hrest hid)⟩⟩
    case empty => exact ⟨_, matchBlock_rests hdis (judge_rest hmiss hrest), rfl, rfl, rfl⟩

/-- Settles O31, by what the received writes do to a list of registers. -/
theorem commitApplies : Obligations.CommitApplies := by
  unfold Obligations.CommitApplies
  intro b f hg hsk hdwr hdsk
  rw [commitRegs_g, commitRegs_sk]
  exact ⟨fun k v hm hk => applyWrites_same hdwr hm (hg ▸ hk), fun k h => applyWrites_other h,
    fun k v hm hk => applyWrites_same hdsk hm (hsk ▸ hk), fun k h => applyWrites_other h,
    commitRegs_fstat_plain, fun v => commitRegs_fstat_written, rfl, rfl, rfl⟩

/-- Settles O34: discarding the blocks leaves the frames, and the record goes to its partition alone. -/
theorem exceptionIsTaken : Obligations.ExceptionIsTaken := by
  unfold Obligations.ExceptionIsTaken
  intro s p f q r fr hfr hfault htrap hp hpart hpkg t
  generalize hr : withActs r (((block? s p f q).map (·.acts)).getD []) = r'
  have ht : t = deliver (halted s p f q r') r' (.frame f) false := by rw [← hr]; exact haltFrame_of_frame hfr hfault htrap
  have hpr : r'.part = p ∧ r'.pkg = false := by rw [← hr]; exact ⟨hpart, hpkg⟩
  have hsame := part_halted s p f q r'
  rw [deliver_queues hpr.2, hpr.1, hsame] at ht
  have hlen : p < (halted s p f q r').parts.length := by rw [halted_parts]; exact hp
  have hnum : ∀ x : Frame, ({ x with fault := some r', nextAddr := none } : Frame).part = x.part ∧
    ({ x with fault := some r', nextAddr := none } : Frame).num = x.num := fun _ => ⟨rfl, rfl⟩
  rw [ht]
  refine ⟨⟨r', _, ?_, rfl, by rw [← hr]; rfl, ?_⟩, ?_, fun p' f' hne => ?_, halted_mem s p f q r', halted_shelf s p f q r',
    halted_acc s p f q r', halted_pkg s p f q r'⟩
  · exact frame?_modFrame_same hnum ((frame?_discarded ..).trans hfr)
  · rw [part_queued hlen, hsame, hpr.1]; rfl
  · rw [part_queued hlen, hsame]; rfl
  · exact (frame?_modFrame_other hnum hne).trans (frame?_discarded ..)
end

section
/-! acczero (O37; R401): each of its elements clears one accumulator word, and the words of whole rows are all of them. -/
namespace Sys2Proof.Machine

/-- Where the accumulator word of element k of a command lies. -/
def elemKey (c : Cmd) (k : Nat) : Nat := accKey c.bay (rangeWord { c with pos := k })

/-- The byte a belongs to one of the elements from lo to hi. -/
def ofElems (c : Cmd) (lo hi a : Nat) : Prop := ∃ k, lo ≤ k ∧ k < hi ∧ elemKey c k ≤ a ∧ a < elemKey c k + 4

/-- Clear the accumulator word of the element that a command has reached. -/
abbrev clearElem (s : State) (c : Cmd) : State := accFill s c (rangeWord c) 0

/-- In a bay that holds its accumulator store a fill writes its word, and may mend its pair. -/
theorem accFill_here {s : State} {c : Cmd} {w v : Nat} (h : parkedAt s c.part c.bay = none) :
    ∃ l, accFill s c w v = { accPut s c w v with poison := l } := by
  simp only [accFill, withAcc_here h, gotten]
  split
  · exact ⟨_, rfl⟩
  · exact ⟨_, rfl⟩

theorem rdByte_clearedWord {m : Memory} (k a : Nat) (h : Memory.wf m = true) :
    rdByte (wrBytes m k (toBytes 4 (0 % pow2 32))) a = if k ≤ a ∧ a < k + 4 then 0 else rdByte m a := by
  have hzero : toBytes 4 (0 % pow2 32) = List.replicate 4 0 := rfl
  rw [hzero]
  split
  · next hin =>
    obtain ⟨n, rfl⟩ := Nat.exists_eq_add_of_le hin.1
    rw [rdByte_wrBytes_same _ n h (by rw [List.length_replicate]; omega), List.getElem_replicate]
  · next hout => exact rdByte_wrBytes_other _ h (by rw [List.length_replicate]; omega)

/-- One step further, the elements that are left are those without the first. -/
theorem ofElems_step {c : Cmd} {lo hi a : Nat} (h : lo < hi) :
    ofElems c lo hi a ↔ (elemKey c lo ≤ a ∧ a < elemKey c lo + 4) ∨ ofElems c (lo + 1) hi a := by
  constructor
  · rintro ⟨k, hlo, hhi, hk⟩
    rcases Nat.eq_or_lt_of_le hlo with rfl | hlt
    · exact .inl hk
    · exact .inr ⟨k, hlt, hhi, hk⟩
  · rintro (hk | ⟨k, hlo, hhi, hk⟩)
    · exact ⟨lo, Nat.le_refl lo, h, hk⟩
    · exact ⟨k, by omega, hhi, hk⟩

/-- What the elements of an acczero leave: its command at the end, the memories but for its accumulator words. -/
structure Cleared (total n : Nat) (c : Cmd) (s t : State) : Prop where
  performed : Performed total clearElem c.id n s t
  cmd : cmd? t c.id = some { c with pos := total }
  mem : t.mem = s.mem
  shelf : t.shelf = s.shelf
  frames : t.frames = s.frames
  inside : ∀ a, ofElems c c.pos total a → rdByte t.acc a = 0
  outside : ∀ a, ¬ ofElems c c.pos total a → rdByte t.acc a = rdByte s.acc a

/-- All elements from the command's position on clear their words. -/
theorem cleared_of_elems (total n : Nat) (s : State) (c : Cmd) (hc : cmd? s c.id = some c) (hst : c.status = none) (hh : c.held = false)
    (hn : c.pos + n = total) (hp : parkedAt s c.part c.bay = none) (hw : Memory.wf s.acc = true) : ∃ t, Cleared total n c s t := by
  induction n generalizing s c with
  | zero =>
    obtain rfl : c.pos = total := hn
    have hnone : ∀ a, ¬ ofElems c c.pos c.pos a := by
      rintro a ⟨k, hlo, hhi, -⟩
      omega
    exact ⟨s, .last s c hc hst hh (Nat.le_refl _), hc, rfl, rfl, rfl, fun a h => absurd h (hnone a), fun _ _ => rfl⟩
  | succ n ih =>
    obtain ⟨l, hfill⟩ := accFill_here (w := rangeWord c) (v := 0) hp
    have hc' : cmd? (clearElem s c) c.id = some c := by rw [clearElem, hfill]; exact hc
    have hnext : cmd? (modCmd (clearElem s c) c.id fun c => { c with pos := c.pos + 1 }) c.id = some { c with pos := c.pos + 1 } := by
      have hmod := cmd?_modCmd (s := clearElem s c) (id := c.id) (f := fun c => { c with pos := c.pos + 1 }) fun _ => rfl
      rw [hmod, hc', Option.map_some]
    have hacc : (clearElem s c).acc = wrBytes s.acc (elemKey c c.pos) (toBytes 4 (0 % pow2 32)) := by rw [clearElem, hfill]; rfl
    obtain ⟨t, ht⟩ := ih (modCmd (clearElem s c) c.id fun c => { c with pos := c.pos + 1 }) { c with pos := c.pos + 1 } hnext hst hh
      (by simp only; omega) (by rw [clearElem, hfill]; exact hp) (by rw [modCmd_acc, hacc]; exact Memory.wf_wrBytes _ _ hw)
    have hlt : c.pos < total := by omega
    refine ⟨t, .elem n s t c c hc hst hh hlt hc' hst hh ht.performed, ht.cmd, ?_, ?_, ?_, fun a ha => ?_, fun a ha => ?_⟩
    · rw [ht.mem, clearElem, hfill]; rfl
    · rw [ht.shelf, clearElem, hfill]; rfl
    · rw [ht.frames, clearElem, hfill]; rfl
    · by_cases hlater : ofElems c (c.pos + 1) total a
      · exact ht.inside a hlater
      · rw [ht.outside a hlater, modCmd_acc, hacc, rdByte_clearedWord _ _ hw, if_pos]
        exact ((ofElems_step hlt).mp ha).resolve_right hlater
    · rw [ofElems_step hlt, not_or] at ha
      rw [ht.outside a ha.2, modCmd_acc, hacc, rdByte_clearedWord _ _ hw, if_neg ha.1]

/-- Element 128 i + j of a range of rows is the word in row i and column j. -/
theorem elemKey_row (c : Cmd) {i j : Nat} (hj : j < 128) :
    elemKey c (128 * i + j) = accKey c.bay (accIndex (accTile c.hdr) (accRow c.hdr + i) j) := by
  have hdiv : (128 * i + j) / 128 = i := by omega
  have hmod : (128 * i + j) % 128 = j := by omega
  simp only [elemKey, rangeWord, hdiv, hmod]

theorem accWord_eq_zero {s : State} {c : Cmd} {w : Nat} (h : ∀ a, accKey c.bay w ≤ a → a < accKey c.bay w + 4 → rdByte s.acc a = 0) :
    accWord s c w = 0 := by
  simp only [accWord, rdBytes]
  rw [h _ (by omega) (by omega), h _ (by omega) (by omega), h _ (by omega) (by omega), h _ (by omega) (by omega)]
  rfl

end Sys2Proof.Machine

open Sys2Proof.Machine

/-- Settles O37: the elements of the command are the words of its rows. -/
theorem acczeroClears : Obligations.AcczeroClears := by
  unfold Obligations.AcczeroClears
  intro r s c hinv hin hpos hparked
  obtain ⟨-, -, hstatus, hheld, -, -, -, -, hcmd⟩ := id hin
  obtain ⟨-, -, hacc⟩ := hinv
  obtain ⟨t, ht⟩ := cleared_of_elems (accRows c.hdr * 128) (accRows c.hdr * 128) s c hcmd hstatus hheld (by omega) hparked hacc
  have hexec : exec (.acczeroCommand r) s = .next (endCmd t { c with pos := accRows c.hdr * 128 }) := by
    simp only [exec, execAcczeroCommand, withCmd_inEngine hin]
    exact congrArg Host.Outcome.next (runElems_performed _ (Nat.le_refl _) ht.performed ht.cmd)
  refine ⟨_, hexec, ht.mem, ht.shelf, ht.frames, ?_, fun i j hi hj => accWord_eq_zero fun a hlo hhi => ht.inside a ?_,
    fun a hout => ht.outside a ?_⟩
  · have hend : cmd? (endCmd t { c with pos := accRows c.hdr * 128 }) c.id = _ := cmd?_modCmd fun _ => rfl
    rw [hend, ht.cmd]
    rfl
  · refine ⟨128 * i + j, by omega, by omega, ?_⟩
    rw [elemKey_row c hj]
    exact ⟨hlo, hhi⟩
  · rintro ⟨k, -, hk, hlo, hhi⟩
    have hrow : elemKey c k = elemKey c (128 * (k / 128) + k % 128) := by rw [Nat.div_add_mod]
    rw [hrow, elemKey_row c (Nat.mod_lt k (by omega))] at hlo hhi
    have := hout (k / 128) (k % 128) (by omega) (Nat.mod_lt k (by omega))
    dsimp only at this
    omega
end

section
/-! Atomics (O22; R377–R379): the value in memory, what the operation writes for it, and the old value widened. -/
namespace Sys2Proof.Machine

/-- The value that an atomic reads, and what its answer sends of it. -/
def oldValue (s1 : State) (rs : List Run) : Nat := ofBytes (readRuns s1 s1.cur.part (curTree s1) rs).1

/-- An amo whose run passes its checks. -/
theorem amo_translates {f : MFmt} {s s1 : State} {rs : List Run} (h : Accesses f.pr true true s)
    (ht : Translates (placedState s) ((opA (placedState s)).toNat + offM f) (sfBytes f.sf.toNat) (sfBytes f.sf.toNat) true s1 rs)
    (op : Nat → Nat → Nat → Nat) :
    amo f s op = .next (send (noteAct (atomicPut s1 rs (sfBytes f.sf.toNat)
        (some (op (8 * sfBytes f.sf.toNat) (oldValue s1 rs) (fld (opB (placedState s)) 0 (8 * sfBytes f.sf.toNat))))))
      f.t0 (widenSf f.sf.toNat (toBytes (sfBytes f.sf.toNat) (oldValue s1 rs)))) := by
  simp only [amo, memShell_accesses h, atomic_translates ht, oldValue, readRuns]

/-- The lower of two values where `hi` is false, else the higher. -/
theorem amoPick_eq (sg hi : Bool) (w m b : Nat) : amoPick sg hi w m b =
    if sg then (if signed m w ≤ signed b w then (if hi then b else m) else (if hi then m else b)) else if hi then max m b else min m b := by
  cases sg <;> cases hi <;> simp only [amoPick, Bool.false_eq_true, if_true, if_false, beq_iff_eq]
  case false.false => by_cases h : m ≤ b <;> simp [h]; omega
  case false.true => by_cases h : m ≤ b <;> simp [h]; omega
  case true.false => by_cases h : signed m w ≤ signed b w <;> simp [h]
  case true.true => by_cases h : signed m w ≤ signed b w <;> simp [h]

/-- cas writes w where what it compares gives w. -/
theorem exec_cas_translates {f : MFmt} {s s1 : State} {rs : List Run} {w : Option Nat} (h : Accesses f.pr true true s)
    (ht : Translates (placedState s) ((opA (placedState s)).toNat + offM f) (sfBytes f.sf.toNat) (sfBytes f.sf.toNat) true s1 rs)
    (hw : (if oldValue s1 rs == fld (opB (placedState s)) 0 (8 * sfBytes f.sf.toNat) then
      some (fld (opC (placedState s)) 0 (8 * sfBytes f.sf.toNat)) else none) = w) :
    exec (.cas f) s = .next (send (noteAct (atomicPut s1 rs (sfBytes f.sf.toNat) w)) f.t0
      (widenSf f.sf.toNat (toBytes (sfBytes f.sf.toNat) (oldValue s1 rs)))) := by
  subst hw
  simp only [exec, execCas, memShell_accesses h, atomic_translates ht, oldValue, readRuns]
  rfl

theorem exec_cas2_translates {f : MFmt} {s s1 : State} {rs : List Run} {w : Option Nat} (h : Accesses f.pr true true s)
    (ht : Translates (placedState s) ((opA (placedState s)).toNat + offM f) 16 16 true s1 rs)
    (hw : (if nbits (oldValue s1 rs) 64 64 == (opB (placedState s)).toNat then
      some ((opC (placedState s)).toNat + (nbits (oldValue s1 rs) 64 64 + 1) % pow2 64 * pow2 64) else none) = w) :
    exec (.cas2 f) s = .next (send (noteAct (atomicPut s1 rs 16 w)) f.t0 (BitVec.ofNat 64 (nbits (oldValue s1 rs) 64 64))) := by
  subst hw
  simp only [exec, execCas2, memShell_accesses h, atomic_translates ht, oldValue, readRuns]
  rfl

end Sys2Proof.Machine

open Sys2Proof.Machine

/-- Settles O22: every amo is one operation of the shared shape; cas and cas2 write or only read. -/
theorem atomics : Obligations.Atomics := by
  unfold Obligations.Atomics
  intro f s s1 rs hacc n t ea r m b wr out
  have hsome : ∀ k v, atomicPut s1 rs k (some v) = wr k v := fun k v => by simp only [atomicPut, pow2_eq_two_pow, wr]
  have hmod : ∀ v, wr n (v % pow2 (8 * n)) = wr n v := fun v => by simp only [wr, pow2_eq_two_pow, Nat.mod_mod]
  have hout : ∀ v, out (v % pow2 (8 * n)) = out v := fun v =>
    congrArg (fun t => Host.Outcome.next (send (noteAct t) f.t0 (widenSf f.sf.toNat (toBytes n m)))) (hmod v)
  constructor
  case left =>
    intro ht
    have hamo : ∀ op, amo f s op = out (op (8 * n) m b) := fun op => by rw [amo_translates hacc ht, hsome]; rfl
    refine ⟨?add, hamo fun _ m b => m &&& b, hamo fun _ m b => m ||| b, hamo fun _ m b => m ^^^ b, ?min, ?max, hamo fun _ _ b => b,
      hamo fun _ m b => (faddF f32 0 false m b).1, hamo fun _ m b => (fminmaxF f32 false false false m b).1,
      hamo fun _ m b => (fminmaxF f32 false true false m b).1, fun hm => ?swaps, fun hm => ?keeps⟩
    case add => exact (hamo fun w m b => (m + b) % pow2 w).trans (hout (m + b))
    case min => exact (hamo fun w m b => amoPick f.i false w m b).trans (congrArg out (amoPick_eq ..))
    case max => exact (hamo fun w m b => amoPick f.i true w m b).trans (congrArg out (amoPick_eq ..))
    case swaps => exact (exec_cas_translates hacc ht (if_pos (beq_iff_eq.mpr hm))).trans (by rw [hsome]; rfl)
    case keeps => exact exec_cas_translates hacc ht (if_neg fun he => hm (beq_iff_eq.mp he))
  case right =>
    intro ht told v
    refine ⟨fun hm => ?swaps, fun hm => ?keeps⟩
    case swaps => exact (exec_cas2_translates hacc ht (if_pos (beq_iff_eq.mpr hm))).trans (by rw [hsome, pow2_eq_two_pow]; rfl)
    case keeps => exact exec_cas2_translates hacc ht (if_neg fun he => hm (beq_iff_eq.mp he))
end

section
/-! Barriers, time and energy, system registers, traps and services (O24 to O27; R431–R445). -/
namespace Sys2Proof.Machine

/-- Naming an action of its block changes nothing else. -/
theorem noteAct_keeps {α : Type} (π : State → α) (h : ∀ s p f q g, π (modBlock s p f q g) = π s) (s : State) : π (noteAct s) = π s := by
  unfold noteAct
  split
  · rfl
  · exact h ..

theorem whenOldest_oldest {s : State} {eff : State → State} (h : curOldest s = true) : whenOldest s eff = eff s := if_pos h

/-! ### Barriers (R432–R434) -/

section
variable {f : SFmt} {s : State} (h : Acts f.pr s)
include h

theorem exec_bar_waits (hs : curSettled s = false) : exec (.bar f) s = .next (waitCur s) ∧ exec (.bara f) s = .next (waitCur s) ∧
    exec (.barw f) s = .next (waitCur s) := by
  have hn : ¬ Settled s := by simp [Settled, hs]
  simp only [exec, execBar, execBara, execBarw, shell_acts h, whenSettled_waits hn, and_self]

theorem exec_bar_lane (hs : Settled s) (hz : fld f.md 0 3 = 0) : exec (.bar f) s = .next (send (noteAct s) f.t0 0) ∧
    exec (.bara f) s = .next (send (noteAct s) f.t0 0) ∧ exec (.barw f) s = .next (send (noteAct s) f.t0 0) := by
  simp only [exec, execBar, execBara, execBarw, shell_acts h, whenSettled_settled hs, hz, barLane, beq_self_eq_true, if_true, and_self]

/-- A barrier of a wider scope is an arrival or a wait on its channel. -/
theorem exec_bar_arrive (hs : Settled s) (hz : fld f.md 0 3 ≠ 0) : exec (.bar f) s = .next (barArrive f s fun s g => barAwait f s g) := by
  simp only [exec, execBar, shell_acts h, whenSettled_settled hs, beq_iff_eq, hz, if_false]

theorem exec_bara_arrive (hs : Settled s) (hz : fld f.md 0 3 ≠ 0) :
    exec (.bara f) s = .next (barArrive f s fun s g => send s f.t0 (BitVec.setWidth 64 g)) := by
  simp only [exec, execBara, shell_acts h, whenSettled_settled hs, beq_iff_eq, hz, if_false]

theorem exec_barw_await (hs : Settled s) (hz : fld f.md 0 3 ≠ 0) :
    exec (.barw f) s = .next (barAwait f (if s.cur.stage.isNone then noteAct s else s) (BitVec.setWidth 8 (opA s))) := by
  simp only [exec, execBarw, shell_acts h, whenSettled_settled hs, beq_iff_eq, hz, if_false]

end

section
variable {f : SFmt} {s : State} {go : State → BitVec 8 → State}

theorem barArrive_sent {k : Nat} (h : s.cur.stage = some k) (hk : barSent ≤ k) : barArrive f s go = waitCur s := by
  simp only [barArrive, h, hk, if_true]

theorem barArrive_refused (h : s.cur.stage = some 1) : barArrive f s go = illop s := by
  simp only [barArrive, h]
  rfl

theorem barArrive_counted {k : Nat} (h : s.cur.stage = some k) (hk : k < barSent) (h1 : k ≠ 1) :
    barArrive f s go = go s (BitVec.ofNat 8 (k - 2)) := by
  simp only [barArrive, h, Nat.not_le.mpr hk, beq_iff_eq, h1, if_false]

theorem barArrive_group (h : s.cur.stage = none) (h5 : (curBar f s).scope = 5) : barArrive f s go = sendBar f s := by
  simp only [barArrive, h, h5, beq_self_eq_true, if_true]

/-- The channel once an arrival with count n is counted. -/
def countedBar (b : Bar) (n : Nat) : Bar :=
  if b.cnt + 1 = n then { b with gen := b.gen + 1, cnt := 0, n := n } else { b with cnt := b.cnt + 1, n := n }

theorem arriveBar_counts {b : Bar} {n : Nat} (h : b.cnt = 0 ∨ n = b.n) : arriveBar b n = some (countedBar b n, b.gen) := by
  have hn : (b.cnt != 0 && b.n != n) = false := by
    rcases h with h | h <;> simp [h]
  by_cases hl : b.cnt + 1 = n <;> simp [arriveBar, countedBar, hn, hl]

theorem arriveBar_other {b : Bar} {n : Nat} (h0 : b.cnt ≠ 0) (hn : n ≠ b.n) : arriveBar b n = none := by
  simp [arriveBar, h0, hn.symm]

theorem barArrive_counts (h : s.cur.stage = none) (h5 : (curBar f s).scope ≠ 5)
    (hn : (curBar f s).cnt = 0 ∨ barCount f = (curBar f s).n) :
    barArrive f s go = go (noteAct (putBar s s.cur.part (countedBar (curBar f s) (barCount f)))) (curBar f s).gen := by
  simp only [barArrive, h, beq_iff_eq, h5, if_false, arriveBar_counts hn]

theorem barArrive_other (h : s.cur.stage = none) (h5 : (curBar f s).scope ≠ 5) (h0 : (curBar f s).cnt ≠ 0)
    (hn : barCount f ≠ (curBar f s).n) : barArrive f s go = illop s := by
  simp only [barArrive, h, beq_iff_eq, h5, if_false, arriveBar_other h0 hn]

/-- A flit goes on the way that leads to a package; what this package takes in stands. -/
theorem foldl_egress_keeps {α : Type} (π : State → α) (hπ : ∀ t k g, π (modPort t k g) = π t) (pk : Nat → Packet) (l : List Nat) (t : State) :
    π (l.foldl (fun t d => if portUp t (Sys2Proof.Config.route d) then
      modPort t (Sys2Proof.Config.route d) fun x => { x with egress := x.egress ++ [pk d] } else t) t) = π t := by
  induction l generalizing t with
  | nil => rfl
  | cons d l ih =>
    rw [List.foldl_cons, ih]
    split
    · exact hπ ..
    · rfl

theorem sendBar_full (h : rxRoom s localPart = false) : sendBar f s = waitCur s := by
  simp only [sendBar, h, Bool.not_false, if_true]

theorem sendBar_sends (h : rxRoom s localPart = true) : (sendBar f s).cmdNo = s.cmdNo + 1 ∧ (sendBar f s).pkg.rxbuf = s.pkg.rxbuf ++
    [(localPart, ownCopy (barPacket s ⟨fld f.imm 0 4, barCount f, s.cmdNo, curTree s⟩ s.pkg.number.toNat))] := by
  rw [sendBar, if_neg (by simp [h])]
  exact ⟨(noteAct_keeps (·.cmdNo) (fun _ _ _ _ _ => rfl) _).trans (foldl_egress_keeps (·.cmdNo) (fun _ _ _ => rfl) _ _ _),
    (noteAct_keeps (·.pkg.rxbuf) (fun _ _ _ _ _ => rfl) _).trans (foldl_egress_keeps (·.pkg.rxbuf) (fun _ _ _ => rfl) _ _ _)⟩

end

theorem barAwait_next {f : SFmt} {s : State} {g : BitVec 8} (h : (curBar f s).gen ≠ g) :
    barAwait f s g = send s f.t0 (BitVec.setWidth 64 (curBar f s).gen) := by
  simp only [barAwait, bne_iff_ne, ne_eq, h, not_false_eq_true, if_true]

theorem barAwait_same {f : SFmt} {s : State} {g : BitVec 8} (h : (curBar f s).gen = g) : barAwait f s g = waitStage s (2 + g.toNat) := by
  simp only [barAwait, h, bne_self_eq_false, Bool.false_eq_true, if_false]

theorem curBar_noteAct (f : SFmt) (s : State) : curBar f (noteAct s) = curBar f s := noteAct_keeps (curBar f) (fun _ _ _ _ _ => rfl) s

end Sys2Proof.Machine

open Sys2Proof.Machine

/-- Settles O24, by what an arrival, a wait and a flit of a barrier do. -/
theorem barriers : Obligations.Barriers := by
  unfold Obligations.Barriers
  intro f s hacts b n arrived
  refine ⟨exec_bar_waits hacts, exec_bar_lane hacts, fun hs hz => ?_⟩
  have hbar := exec_bar_arrive hacts hs hz
  have hbara := exec_bara_arrive hacts hs hz
  rw [hbar, hbara]
  refine ⟨fun hst h5 => ⟨fun h0 hn => ?other, fun hn => ?counts⟩, fun hst h5 => ⟨fun hr => ?full, fun hr => ?sends⟩, fun hst => ?refused,
    fun k hst hk => ?sent, fun k hst hk h1 => ?counted, ?await⟩
  case other => rw [barArrive_other hst h5 h0 hn, barArrive_other hst h5 h0 hn]; exact ⟨rfl, rfl⟩
  case counts => rw [barArrive_counts hst h5 hn, barArrive_counts hst h5 hn]; exact ⟨rfl, rfl⟩
  case full => rw [barArrive_group hst h5, barArrive_group hst h5, sendBar_full hr]; exact ⟨rfl, rfl⟩
  case sends => rw [barArrive_group hst h5, barArrive_group hst h5]; exact ⟨rfl, rfl, sendBar_sends hr⟩
  case refused => rw [barArrive_refused hst, barArrive_refused hst]; exact ⟨rfl, rfl⟩
  case sent => rw [barArrive_sent hst hk, barArrive_sent hst hk]; exact ⟨rfl, rfl⟩
  case counted => rw [barArrive_counted hst hk h1, barArrive_counted hst hk h1]; exact ⟨rfl, rfl⟩
  case await =>
    intro u
    have hu : (if s.cur.stage.isNone then noteAct s else s) = u := by cases hst : s.cur.stage <;> simp [u, hst]
    have hbar : curBar f u = b := by
      rw [← hu]
      split
      · exact curBar_noteAct f s
      · rfl
    rw [exec_barw_await hacts hs hz, hu]
    refine ⟨fun hg => ?_, fun hg => ?_⟩
    · rw [barAwait_next (by rw [hbar]; exact hg), hbar]
    · rw [barAwait_same (by rw [hbar]; exact hg), hg]
end

section
/-! A load from a parked shelf (O51; R242, R506): it goes through stage 2, which sets A in the leaf that it finds there, so memory
does not stand. -/
namespace Sys2Proof.Machine

/-- lds of 8 bytes at shelf address 0, outside any chain. -/
def parkedLoad : MFmt := ⟨0, false, 5, false, nullT, 0x3E, 0, 0x3E, 0⟩

/-- Partition 0 with its stage-2 root at 0x100000 and a cellar of one image, in which what bay 0 holds is parked. -/
def parkedPart : Part :=
  { Part.reset with ent := ((List.replicate 32 0).set 13 0x100000).set 16 4718592, parkedImgs := [(0, 0)] }

/-- The stage-2 tables: an entry at the root that leads to the table at 0x200000, and there a leaf with V alone set. An instance of
the partition stands in bay 0 and has its place. -/
def parkedState : State :=
  { State.reset with
    parts := [parkedPart], mem := [(0x100000, 1), (0x100002, 0x20), (0x200000, 3)], cur := { Inst.empty with stage := some 1 } }

/-- The byte of the leaf that holds A, after an outcome. -/
def leafByte (r : Res) : Byte :=
  match r with
  | .next t => rdByte t.mem 0x200000
  | _ => 0

theorem parkedState_inv : MemInv parkedState := ⟨rfl, rfl, rfl⟩

theorem leafByte_before : rdByte parkedState.mem 0x200000 = 3 := rfl

/-- The load sets A, bit 5 of the leaf. -/
theorem leafByte_after : leafByte (exec (.lds parkedLoad) parkedState) = 35 := by decide

/-- The leaf lies outside the ring of the hypervisor's fault queue. -/
theorem leaf_outside_ring : ¬ inHfq parkedState 0x200000 := by
  simp only [inHfq, parkedState, State.reset, Pkg.reset]
  decide

end Sys2Proof.Machine

open Sys2Proof Sys2Proof.Machine

/-- Refutes O51: lds of a shelf that is parked in the cellar goes through stage 2 and sets A in the leaf that it finds, a byte of
memory outside the ring. -/
theorem not_accessesLeave : ¬ Obligations.AccessesLeave := by
  unfold Obligations.AccessesLeave
  intro h
  obtain ⟨t, ht⟩ := exec_answers (.lds parkedLoad) parkedState
  obtain ⟨hloads, -⟩ := h parkedLoad parkedState t parkedState_inv
  obtain ⟨-, -, -, hmem⟩ := hloads (.lds parkedLoad) (by simp) ht
  have hafter : rdByte t.mem 0x200000 = 35 := by
    have := leafByte_after
    rwa [ht] at this
  have hstands := hmem 0x200000 id leaf_outside_ring
  rw [hafter, leafByte_before] at hstands
  exact absurd hstands (by decide)
end

section
/-! What the checks and the reads of an access leave (R104, R105, R122, R266): they charge energy, move lines and translations, start
walks and wake monitors; everything else stands. -/
namespace Sys2Proof.Machine

/-- A state without what such an access changes: the partitions, lines, poison, translations, walks, and what monitors have noted. -/
def quiet (s : State) : State :=
  { s with parts := [], l2 := [], poison := [], tlb := [], walks := [], frames := s.frames.map fun f => { f with mon := none } }

/-- An update that keeps the quiet part, folded over a list. -/
theorem quiet_foldl {α : Type} {f : State → α → State} (h : ∀ s x, quiet (f s x) = quiet s) (s : State) (l : List α) :
    quiet (l.foldl f s) = quiet s := by
  induction l generalizing s with
  | nil => rfl
  | cons x l ih => rw [List.foldl_cons, ih, h]

@[simp] theorem quiet_modPart (s : State) (p : Nat) (f : Part → Part) : quiet (modPart s p f) = quiet s := rfl

@[simp] theorem quiet_wakeLine (s : State) (line cause : Nat) : quiet (wakeLine s line cause) = quiet s := by
  simp only [quiet, wakeLine, List.map_map]
  congr 1
  refine List.map_congr_left fun f _ => ?_
  simp only [Function.comp]
  split
  · split <;> rfl
  · rfl

@[simp] theorem quiet_deliverN (s : State) (r : FaultRec) (v : Victim) (h : r.pkg = false) : quiet (deliverN s r v) = quiet s := by
  simp only [deliverN, deliver, numbered, h, Bool.false_eq_true, if_false]
  split <;> rfl

@[simp] theorem quiet_charge (s : State) (p : Nat) (tree : Option Nat) (k n : Nat) : quiet (charge s p tree k n) = quiet s := by
  simp only [charge, chargeFj]
  split
  · rfl
  · split
    · exact quiet_deliverN _ _ _ rfl
    · rfl

theorem quiet_l2Room (s : State) (p slice set : Nat) : quiet (l2Room s p slice set) = quiet s := by
  unfold l2Room
  split
  · split
    · dsimp only
      rw [quiet_wakeLine]
      split
      · exact quiet_charge ..
      · rfl
    · rfl
  · rfl

@[simp] theorem quiet_l2Touch (s : State) (p : Nat) (tree : Option Nat) (pa : Nat) (write : Bool) :
    quiet (l2Touch s p tree pa write) = quiet s := by
  unfold l2Touch
  dsimp only
  split
  · exact quiet_charge ..
  · exact (quiet_l2Room ..).trans ((quiet_charge ..).trans (quiet_charge ..))

@[simp] theorem quiet_touchRun (s : State) (p : Nat) (tree : Option Nat) (r : Run) (write : Bool) :
    quiet (touchRun s p tree r write) = quiet s := by
  unfold touchRun
  dsimp only
  split
  · exact quiet_charge ..
  · exact quiet_foldl (fun _ _ => quiet_l2Touch ..) _ _

@[simp] theorem quiet_refetch (s : State) (rs : List Run) : quiet (refetch s rs) = quiet s := rfl

theorem quiet_readRuns (s : State) (p : Nat) (tree : Option Nat) (rs : List Run) : quiet (readRuns s p tree rs).2 = quiet s :=
  (quiet_foldl (fun _ _ => quiet_touchRun ..) _ _).trans (quiet_refetch ..)

theorem quiet_loadRuns (s : State) (own : Nat) (rs : List Run) : quiet (loadRuns s own rs).2 = quiet s :=
  (quiet_foldl (fun _ _ => quiet_touchRun ..) _ _).trans (quiet_refetch ..)

/-! ### Checks whose walks are not made at once -/

@[simp] theorem quiet_startWalk (s : State) (bay p va : Nat) (store fetch dirty : Bool) (tag : BitVec 32) :
    quiet (startWalk s bay p va store fetch dirty tag) = quiet s := by
  unfold startWalk
  split
  · rfl
  · split <;> rfl

theorem quiet_pageEntry {bay p : Nat} {k : AccKind} (hk : k.quick = false) (tag : BitVec 32) (s : State) (va : Nat) :
    quiet (pageEntry bay p k tag s va).1 = quiet s := by
  unfold pageEntry
  split
  · rfl
  · split
    · rfl
    · rw [hk]
      exact quiet_startWalk ..

theorem quiet_pageRuns {bay p : Nat} {k : AccKind} (hk : k.quick = false) (tag : BitVec 32) (fuel : Nat) (s : State) (va n : Nat)
    (acc : List (Nat × Run × TlbEntry)) : quiet (pageRuns bay p k tag fuel s va n acc).1 = quiet s := by
  induction fuel generalizing s va n acc with
  | zero => rfl
  | succ fuel ih =>
    have hentry := quiet_pageEntry (bay := bay) (p := p) hk tag s va
    unfold pageRuns
    split
    · rfl
    · split
      · next he => rw [he] at hentry; exact hentry
      · next he =>
        rw [he] at hentry
        dsimp only
        split
        · exact hentry
        · exact (ih ..).trans hentry

theorem quiet_dirtyPages {bay p : Nat} {k : AccKind} (hk : k.quick = false) (tag : BitVec 32) (l : List (Nat × Run × TlbEntry)) (s : State) :
    quiet (dirtyPages bay p k tag l s).1 = quiet s := by
  induction l generalizing s with
  | nil => rfl
  | cons x l ih =>
    unfold dirtyPages
    split
    · exact ih s
    · rw [hk]
      exact quiet_startWalk ..

theorem quiet_checkPages {k : AccKind} (hk : k.quick = false) (s : State) (bay p : Nat) (tag : BitVec 32) (va n : Nat) :
    quiet (checkPages s bay p k tag va n).1 = quiet s := by
  have hruns := quiet_pageRuns (bay := bay) (p := p) hk tag (n / pow2 14 + 2) s va (Nat.max 1 n) []
  unfold checkPages
  split
  · next hr => rw [hr] at hruns; exact hruns
  · next u l hr =>
    rw [hr] at hruns
    have hdirty := quiet_dirtyPages (bay := bay) (p := p) hk tag l u
    split
    · next hd => rw [hd] at hdirty; exact hdirty.trans hruns
    · next hd => rw [hd] at hdirty; exact hdirty.trans hruns

/-- The checks of an access change nothing but translations and walks. -/
theorem quiet_checkRun {k : AccKind} (hk : k.quick = false) (s : State) (bay p : Nat) (tag : BitVec 32) (ea : Int) (n algn : Nat) :
    quiet (checkRun s bay p k tag ea n algn).1 = quiet s := by
  have hpages := quiet_checkPages hk s bay p tag ea.toNat n
  unfold checkRun
  split
  · rfl
  · split
    · rfl
    · split
      · next hm =>
        rw [hm] at hpages
        rw [hk]
        exact hpages
      · exact hpages

theorem quiet_translates {s s1 : State} {ea : Int} {n algn : Nat} {store : Bool} {rs : List Run} (h : Translates s ea n algn store s1 rs) :
    quiet s1 = quiet s := by
  have hrun := quiet_checkRun (k := ⟨store, false, curSup s, false, curTree s⟩) rfl s s.cur.bay s.cur.part (tagWord s.cur.tag) ea n algn
  obtain ⟨hchecked, -⟩ := h
  rwa [show checkRun s s.cur.bay s.cur.part ⟨store, false, curSup s, false, curTree s⟩ (tagWord s.cur.tag) ea n algn = _ from hchecked]
    at hrun

theorem cur_of_quiet {s t : State} (h : quiet t = quiet s) : t.cur = s.cur :=
  (congrArg State.cur h : (quiet t).cur = (quiet s).cur)

end Sys2Proof.Machine
end

section
/-! Time and energy, system registers, traps and services (O25 to O27; R435–R445). -/
namespace Sys2Proof.Machine

/-! ### Time and energy -/

theorem cur_loadRuns {s s1 : State} {ea : Int} {n algn own : Nat} {store : Bool} {rs : List Run}
    (h : Translates s ea n algn store s1 rs) : (loadRuns s1 own rs).2.cur = s.cur :=
  cur_of_quiet ((quiet_loadRuns ..).trans (quiet_translates h))

section
variable {f : SFmt} {s : State} (h : Acts f.pr s)
include h

theorem exec_tnow : exec (.tnow f) s =
    .next (if timeBarred s s.cur.part then fault s F_DETVIOL s.cur.word 0 else send s f.t0 s.pkg.podTime) := by
  simp only [exec, execTnow, shell_acts h]

theorem exec_attime_kept {rcd : BitVec 512} (hr : s.cur.rcd = some rcd) : exec (.attime f) s = .next (placeTimed f s rcd) := by
  simp only [exec, execAttime, shell_acts h, hr]

section
variable {s1 u : State} {rs : List Run} {rcd : BitVec 512} (hr : s.cur.rcd = none) (ho : curOldest s = true) (ht : accessTurn s = true)
  (hx : Translates s (opA s).toNat 64 16 false s1 rs) (hu : (loadRuns s1 0x3F rs).2 = u)
  (hrcd : BitVec.ofNat 512 (ofBytes (loadRuns s1 0x3F rs).1) = rcd)
include hr ho ht hx hu hrcd

/-- attime keeps the record that it reads once it is the oldest, in its turn. -/
theorem exec_attime_fires (hb : recordBad u s.cur.part rcd = none) : exec (.attime f) s = .next (placeTimed f
    (modCur { u with cmdNo := u.cmdNo + 1 } fun i => { i with rcd := some rcd, stage := some (10 + u.cmdNo) }) rcd) := by
  rw [← cur_loadRuns (own := 0x3F) hx, hu] at hb
  simp only [exec, execAttime, shell_acts h, hr, whenOldest_oldest ho, ht, Bool.not_true, Bool.false_eq_true, if_false,
    withRuns_translates hx, hu, hrcd, hb]

theorem exec_attime_bad {c : BitVec 8} {x y : Word} (hb : recordBad u s.cur.part rcd = some (c, x, y)) :
    exec (.attime f) s = .next (fault u c x y) := by
  rw [← cur_loadRuns (own := 0x3F) hx, hu] at hb
  simp only [exec, execAttime, shell_acts h, hr, whenOldest_oldest ho, ht, Bool.not_true, Bool.false_eq_true, if_false,
    withRuns_translates hx, hu, hrcd, hb]

end

/-- The trees of a partition once a lease of n is added to one of them. -/
def leased (n : Nat) (x : Tree) : Tree :=
  { x with lease := min (x.lease + n) (2 ^ 64 - 1), late := if x.live then x.late else leaseShare x + n,
           notified := x.notified && x.lease + n == 0 }

theorem exec_elease_free (ho : curOldest s = true) (ht : treeRec s = none) :
    let g := grant (bitAt f.md 0) (opA s).toNat (headroom (part s s.cur.part))
    exec (.elease f) s = .next (send (noteAct s) f.t0 (BitVec.ofNat 64 g)) := by
  simp only [exec, execElease, shell_acts h, whenOldest_oldest ho, ht]

theorem exec_elease_tree {tr : Tree} (ho : curOldest s = true) (ht : treeRec s = some tr) :
    let g := grant (bitAt f.md 0) (opA s).toNat (headroom (part s s.cur.part))
    exec (.elease f) s = .next (send (noteAct (modPart s s.cur.part fun t =>
      { t with trees := updWhere (fun x => x.id == tr.id) (leased g) t.trees })) f.t0 (BitVec.ofNat 64 g)) := by
  simp only [exec, execElease, shell_acts h, whenOldest_oldest ho, ht, pow2_eq_two_pow]
  rfl

theorem exec_equery : exec (.equery f) s = .next (send s f.t0 (
    if fld f.md 0 2 == 0 then BitVec.ofNat 64 (((treeRec s).map (·.lease)).getD 0) else if fld f.md 0 2 == 1 then (part s s.cur.part).enUsed
    else if fld f.md 0 2 == 2 then (part s s.cur.part).enBudget else BitVec.ofNat 64 (headroom (part s s.cur.part)).toNat)) := by
  simp only [exec, execEquery, shell_acts h]

theorem exec_yield (hs : s.cur.stage = none) : exec (.yield f) s = .next (waitStage s s.pkg.cycle) := by
  obtain ⟨heos, hnull, hp, -⟩ := h
  simp only [exec, execYield, heos, hnull, hp, hs, Bool.false_eq_true, if_false, Bool.not_true, Bool.and_false]

end

theorem placeTimed_free {f : SFmt} {s : State} {rcd : BitVec 512} {k : Nat} (hb : attimeBefore s = false)
    (hk : freeTimed (part s s.cur.part) = some k) : placeTimed f s rcd = send (noteAct (modPart s s.cur.part fun t =>
      { t with timed := t.timed ++ [⟨k, opB s, max (opB s).toNat (s.pkg.podTime.toNat + 1), rcd⟩] })) f.t0 (BitVec.ofNat 64 k) := by
  simp only [placeTimed, hb, hk, Bool.false_eq_true, if_false]

theorem placeTimed_waits {f : SFmt} {s : State} {rcd : BitVec 512} (h : attimeBefore s = true ∨ freeTimed (part s s.cur.part) = none) :
    placeTimed f s rcd = waitCur s := by
  unfold placeTimed
  split
  · rfl
  · next hb => rw [h.resolve_left hb]

/-- Within the request, and within the headroom but for a grant of nothing; all of it or nothing where all is asked. -/
theorem grant_bounds (all : Bool) (a : Nat) (h : Int) :
    grant all a h ≤ a ∧ (grant all a h ≠ 0 → (grant all a h : Int) ≤ h) ∧
    (all = true → grant all a h = 0 ∨ grant all a h = a) ∧ (all = false → 0 ≤ h → (grant all a h : Int) = min (a : Int) h) := by
  have hmin : Nat.min a h.toNat = min a h.toNat := rfl
  cases all
  · simp only [grant, Bool.false_eq_true, if_false, hmin]
    exact ⟨by omega, fun _ => by omega, fun hf => absurd hf (by simp), fun _ _ => by omega⟩
  · by_cases hle : (a : Int) ≤ h <;> simp [grant, hle]

end Sys2Proof.Machine

open Sys2Proof.Machine

/-- Settles O25, instruction by instruction; the record that attime keeps and what is granted are said of placing and granting. -/
theorem timeAndEnergy : Obligations.TimeAndEnergy := by
  unfold Obligations.TimeAndEnergy
  refine ⟨fun f s hacts => ?instrs, fun f s rcd => ⟨fun k hb hk => placeTimed_free hb hk, placeTimed_waits⟩, grant_bounds⟩
  intro p t g
  have hquery := exec_equery hacts
  refine ⟨fun hb => ?time, fun hb => ?barred, fun hr ho ht s1 rs hx => ?reads, fun rcd => exec_attime_kept hacts,
    fun ho => ⟨exec_elease_free hacts ho, fun tr => exec_elease_tree hacts ho⟩, fun hk => ?lease, fun hk => ?used, fun hk => ?budget,
    fun hk => ?left, exec_yield hacts⟩
  case time => rw [exec_tnow hacts, if_neg (Bool.eq_false_iff.mp hb)]
  case barred => rw [exec_tnow hacts, if_pos hb]
  case reads => exact ⟨exec_attime_fires hacts hr ho ht hx rfl rfl, fun c x y => exec_attime_bad hacts hr ho ht hx rfl rfl⟩
  case lease => rw [hquery, hk]; rfl
  case used => rw [hquery, hk]; rfl
  case budget => rw [hquery, hk]; rfl
  case left => rw [hquery, hk]; rfl
end

section
/-! System registers, traps, services, controls and events (O26, O27; R440–R445). -/
namespace Sys2Proof.Machine

/-! ### rdsr and wrsr -/

section
variable {f : SFmt} {s : State} (h : Acts f.pr s)
include h

/-- A read of a supervisor register at user level. -/
theorem exec_rdsr_user (hr : srReadS f.sr.toNat = true) (hs : curSup s = false) :
    exec (.rdsr f) s = .next (fault s F_PROT (BitVec.ofNat 64 f.sr.toNat) 0) := by
  simp only [exec, execRdsr, shell_acts h, hr, hs, Bool.not_false, Bool.and_self, if_true]

theorem exec_rdsr_barred (hn : f.sr.toNat = 0x050) (hb : timeBarred s s.cur.part = true) :
    exec (.rdsr f) s = .next (fault s F_DETVIOL s.cur.word 0) := by
  simp only [exec, execRdsr, shell_acts h, hn, hb]
  rfl

theorem exec_rdsr_fpc {v : BitVec 5} (hn : f.sr.toNat = 0x001) (hv : blockFpc s s.cur.part (curFrame s) s.cur.seq = some v) :
    exec (.rdsr f) s = .next (send s f.t0 (BitVec.setWidth 64 v)) := by
  simp only [exec, execRdsr, shell_acts h, hn, hv]
  rfl

theorem exec_rdsr_fstat {fr : Frame} (hn : f.sr.toNat = 0x002) (ho : curOldest s = true) (hf : frame? s s.cur.part (curFrame s) = some fr) :
    exec (.rdsr f) s = .next (send s f.t0 (BitVec.setWidth 64 fr.fstat)) := by
  simp only [exec, execRdsr, shell_acts h, hn, whenOldest_oldest ho, hf]
  rfl

/-- Any other register reads as it stands. -/
theorem exec_rdsr_plain (h1 : f.sr.toNat ≠ 0x001) (h2 : f.sr.toNat ≠ 0x002) (hr : (srReadS f.sr.toNat && !curSup s) = false)
    (hb : (f.sr.toNat == 0x050 && timeBarred s s.cur.part) = false) :
    exec (.rdsr f) s = .next (send s f.t0 (srValue s f.sr.toNat (bitAt f.imm 0))) := by
  simp only [exec, execRdsr, shell_acts h, hr, hb, beq_false_of_ne h1, beq_false_of_ne h2, Bool.false_eq_true, if_false]

end

/-- The block's write of a system register, which its commit applies. -/
def keepWrite (f : SFmt) (s : State) : State :=
  send (modBlock s s.cur.part (curFrame s) s.cur.seq fun b => { b with wrsrs := b.wrsrs ++ [(f.sr.toNat, opA s)] }) f.t0 (opA s)

/-- wrsr has no such register to write at this level, or not this value. -/
def wrsrRefused (f : SFmt) (s : State) : Bool :=
  !(f.sr.toNat == 0x002 || f.sr.toNat == 0x020 || f.sr.toNat == 0x060) || (f.sr.toNat != 0x002 && !curSup s) ||
    (f.sr.toNat == 0x060 && opA s != 0)

theorem exec_wrsr {f : SFmt} {s : State} (h : Acts f.pr s) : exec (.wrsr f) s = .next (
    if wrsrRefused f s then fault s F_PROT (BitVec.ofNat 64 f.sr.toNat) 0
    else if f.sr.toNat == 0x020 && !canon (opA s).toNat then fault s F_NONCANON (opA s) 0
    else if f.sr.toNat == 0x020 && fld (opA s) 0 3 != 0 then fault s F_ALIGN (opA s) 8
    else keepWrite f s) := by
  simp only [exec, execWrsr, shell_acts h, wrsrRefused, keepWrite]
  rfl

theorem exec_wrsr_refused {f : SFmt} {s : State} (h : Acts f.pr s) (hr : wrsrRefused f s = true) :
    exec (.wrsr f) s = .next (fault s F_PROT (BitVec.ofNat 64 f.sr.toNat) 0) := by rw [exec_wrsr h, if_pos hr]

/-- A register other than TRAP_VEC keeps what it may take. -/
theorem exec_wrsr_plain {f : SFmt} {s : State} (h : Acts f.pr s) (hr : wrsrRefused f s = false) (hn : f.sr.toNat ≠ 0x020) :
    exec (.wrsr f) s = .next (keepWrite f s) := by
  have hv : (f.sr.toNat == 0x020) = false := beq_false_of_ne hn
  simp only [exec_wrsr h, hr, hv, Bool.false_and, Bool.false_eq_true, if_false]

/-- TRAP_VEC takes a canonical address of a multiple of 8 (R91). -/
theorem exec_wrsr_trapVec {f : SFmt} {s : State} (h : Acts f.pr s) (hn : f.sr.toNat = 0x020) (hs : curSup s = true) :
    (canon (opA s).toNat = false → exec (.wrsr f) s = .next (fault s F_NONCANON (opA s) 0)) ∧
    (canon (opA s).toNat = true → (opA s).toNat % 8 ≠ 0 → exec (.wrsr f) s = .next (fault s F_ALIGN (opA s) 8)) ∧
    (canon (opA s).toNat = true → (opA s).toNat % 8 = 0 → exec (.wrsr f) s = .next (keepWrite f s)) := by
  have hr : wrsrRefused f s = false := by simp [wrsrRefused, hn, hs]
  have hlow : fld (opA s) 0 3 = (opA s).toNat % 8 := rfl
  simp only [exec_wrsr h, hr, hn, hlow, beq_self_eq_true, Bool.true_and, Bool.false_eq_true, if_false]
  refine ⟨fun hc => ?_, fun hc ha => ?_, fun hc ha => ?_⟩
  · rw [if_pos (by rw [hc]; rfl)]
  · rw [if_neg (by rw [hc]; decide), if_pos (bne_iff_ne.mpr ha)]
  · rw [if_neg (by rw [hc]; decide), if_neg (by rw [ha]; decide)]

/-! ### Traps and services -/

section
variable {f : SFmt} {s : State} (h : Acts f.pr s)
include h

theorem exec_brk_plain (hm : bitAt f.md 0 = false) :
    exec (.brk f) s = .next (faultAux s F_BRK (opA s) 0 (BitVec.setWidth 64 f.imm)) := by
  simp only [exec, execBrk, shell_acts h, hm, Bool.false_eq_true, if_false]

theorem exec_brk_hyper (hm : bitAt f.md 0 = true) (ho : curOldest s = true) :
    exec (.brk f) s = .next (stopToHyper s { recCur s F_BRK (opA s) 0 with aux := BitVec.setWidth 64 f.imm }) := by
  simp only [exec, execBrk, shell_acts h, hm, ho, if_true]

theorem exec_hcall_user (hs : curSup s = false) : exec (.hcall f) s = .next (fault s F_PROT (BitVec.ofNat 64 (fld f.imm 0 8)) 0) := by
  simp only [exec, execHcall, shell_acts h, hs, Bool.not_false, if_true]

section
variable (hs : curSup s = true) (ho : curOldest s = true) (hst : s.cur.stage = none)
include hs ho hst

theorem exec_hcall_root (hv : fld f.imm 0 8 = 2) :
    exec (.hcall f) s = .next (send (noteAct (modPart s s.cur.part fun t => { t with ent := t.ent.set 12 (opA s) })) f.t0 0) := by
  simp only [exec, execHcall, shell_acts h, hs, whenOldest_oldest ho, hst, hv, Bool.not_true, Bool.false_eq_true, if_false,
    Option.isSome_none]
  rfl

/-- The invalidation that an hcall 1 reads is submitted, or refused where it is malformed. -/
theorem exec_hcall_inval {s1 : State} {rs : List Run} (hv : fld f.imm 0 8 = 1) (hx : Translates s (opA s).toNat 32 8 false s1 rs) :
    exec (.hcall f) s = .next (
      if invBad (BitVec.ofNat 256 (ofBytes (loadRuns s1 0x3F rs).1)) || bitAt (BitVec.ofNat 256 (ofBytes (loadRuns s1 0x3F rs).1)) 99 then
        fault (loadRuns s1 0x3F rs).2 F_PROT (opA (loadRuns s1 0x3F rs).2) 0
      else send (noteAct (startInval (loadRuns s1 0x3F rs).2 s.cur.part (BitVec.ofNat 256 (ofBytes (loadRuns s1 0x3F rs).1)) false))
        f.t0 0) := by
  simp only [exec, execHcall, shell_acts h, hs, whenOldest_oldest ho, hst, hv, Bool.not_true, Bool.false_eq_true, if_false,
    Option.isSome_none, beq_self_eq_true, if_true, withRuns_translates hx]

theorem exec_hcall_asks (hv : 16 ≤ fld f.imm 0 8) :
    let n := numbered s { recCur s F_HCALL (opA s) 0 with aux := BitVec.ofNat 64 (fld f.imm 0 8) }
    exec (.hcall f) s = .next (waitStage (noteAct (hfqWrite n.2 n.1 true)) (2 + n.1.seq)) := by
  have h1 : (fld f.imm 0 8 == 1) = false := beq_false_of_ne (by omega)
  have h2 : (fld f.imm 0 8 == 2) = false := beq_false_of_ne (by omega)
  simp only [exec, execHcall, shell_acts h, hs, whenOldest_oldest ho, hst, h1, h2, hv, Bool.not_true, Bool.false_eq_true, if_false,
    Option.isSome_none, if_true]

theorem exec_hcall_other (hv : fld f.imm 0 8 = 0 ∨ (3 ≤ fld f.imm 0 8 ∧ fld f.imm 0 8 < 16)) :
    exec (.hcall f) s = .next (send (noteAct s) f.t0 0xFFFFFFFFFFFFFFFF) := by
  have h1 : (fld f.imm 0 8 == 1) = false := beq_false_of_ne (by omega)
  have h2 : (fld f.imm 0 8 == 2) = false := beq_false_of_ne (by omega)
  have h16 : ¬ 16 ≤ fld f.imm 0 8 := by omega
  simp only [exec, execHcall, shell_acts h, hs, whenOldest_oldest ho, hst, h1, h2, h16, Bool.not_true, Bool.false_eq_true, if_false,
    Option.isSome_none]

end

theorem exec_event_block (hg : s.cur.grid = none) : exec (.event f) s = .next (send (modBlock s s.cur.part (curFrame s) s.cur.seq fun b =>
    { b with events := b.events ++ [(fld f.imm 0 6, opA s)] }) f.t0 (opA s)) := by
  simp only [exec, execEvent, shell_acts h, hg]
  rfl

theorem exec_event_grid {g : Nat} (hg : s.cur.grid = some g) :
    exec (.event f) s = .next (send (interrupt s s.cur.part 2 (fld f.imm 0 6) (opA s)) f.t0
      (opA (interrupt s s.cur.part 2 (fld f.imm 0 6) (opA s)))) := by
  simp only [exec, execEvent, shell_acts h, hg]

end

/-- The controls that the current block commits. -/
def putControls (s : State) (v : Option (BitVec 5)) : State :=
  modBlock s s.cur.part (curFrame s) s.cur.seq fun b => { b with fpc := some v }

theorem exec_fpcset {f : SFmt} {s : State} (heos : anyEos s.cur = false) (hnull : anyNull s.cur = false) (hp : predOk f.pr s = true) :
    let v : BitVec 5 := if bitAt f.md 0 then BitVec.setWidth 5 f.imm else BitVec.setWidth 5 (opA s)
    exec (.fpcset f) s = .next (send (putControls s (some v)) f.t0 (BitVec.setWidth 64 v)) := by
  simp only [exec, execFpcset, heos, hnull, hp, Bool.or_self, Bool.not_true, Bool.false_eq_true, if_false]
  rfl

theorem exec_fpcset_null {f : SFmt} {s : State} (heos : anyEos s.cur = false) (hnull : anyNull s.cur = true) :
    exec (.fpcset f) s = .next (sendAll (putControls s none) [f.t0] .null 0) := by
  simp only [exec, execFpcset, heos, hnull, Bool.or_false, Bool.false_eq_true, if_false, if_true]
  rfl

end Sys2Proof.Machine

open Sys2Proof.Machine

/-- Settles O26, by the cases of each instruction behind its shell. -/
theorem systemRegisters : Obligations.SystemRegisters := by
  unfold Obligations.SystemRegisters
  refine ⟨fun f s hacts => ?reads, fun f s hacts => ?writes⟩
  case reads =>
    intro n
    refine ⟨exec_rdsr_user hacts, exec_rdsr_barred hacts, fun v => exec_rdsr_fpc hacts, fun fr => exec_rdsr_fstat hacts,
      fun h1 h2 hsup htime => exec_rdsr_plain hacts h1 h2 ?level ?time⟩
    case level =>
      cases hb : srReadS f.sr.toNat
      · rfl
      · rw [hsup hb]; rfl
    case time =>
      by_cases hn : f.sr.toNat = 0x050
      · rw [htime hn, Bool.and_false]
      · rw [beq_false_of_ne hn, Bool.false_and]
  case writes =>
    intro n a kept refused
    have hrefused := exec_wrsr_refused hacts
    refine ⟨fun hn => ?fstat, fun hn hs hc ha => (exec_wrsr_trapVec hacts hn hs).2.2 hc ha,
      fun hn hs hc ha => (exec_wrsr_trapVec hacts hn hs).2.1 hc ha, fun hn hs hc => (exec_wrsr_trapVec hacts hn hs).1 hc,
      fun hn hs ha => ?width, fun hn ha => hrefused ?widthBad, fun hn hs => hrefused ?level, fun h1 h2 h3 => hrefused ?other⟩
    case fstat =>
      have hn' : f.sr.toNat = 0x002 := hn
      exact exec_wrsr_plain hacts (by rw [wrsrRefused, hn']; rfl) (by omega)
    case width =>
      have hn' : f.sr.toNat = 0x060 := hn
      have ha' : opA s = 0 := ha
      exact exec_wrsr_plain hacts (by rw [wrsrRefused, hn', hs, ha']; rfl) (by omega)
    case widthBad =>
      have hn' : f.sr.toNat = 0x060 := hn
      have ha' : (opA s != 0) = true := bne_iff_ne.mpr ha
      rw [wrsrRefused, hn', ha']
      simp
    case level =>
      have hn' : (f.sr.toNat != 0x002) = true := bne_iff_ne.mpr hn
      rw [wrsrRefused, hn', hs]
      simp
    case other =>
      rw [wrsrRefused, beq_false_of_ne h1, beq_false_of_ne h2, beq_false_of_ne h3]
      rfl

/-- Settles O27, by the equation of each instruction behind its shell. -/
theorem trapsAndServices : Obligations.TrapsAndServices := by
  unfold Obligations.TrapsAndServices
  intro f s p v put
  refine ⟨fun hacts => ⟨?trap, exec_brk_plain hacts, exec_brk_hyper hacts, exec_hcall_user hacts, fun hs ho hst => ⟨exec_hcall_root hacts hs ho hst,
    fun s1 rs hv hx => ?inval, exec_hcall_asks hacts hs ho hst, exec_hcall_other hacts hs ho hst⟩, exec_event_block hacts, fun g =>
    exec_event_grid hacts⟩, fun heos hnull hp => ?controls, exec_fpcset_null⟩
  case trap => exact congrArg Host.Outcome.next (shell_acts hacts)
  case inval =>
    have hread := exec_hcall_inval hacts hs ho hst hv hx
    intro u d
    refine ⟨fun hi hb => hread.trans (congrArg _ (if_neg ?_)), fun hb => hread.trans (congrArg _ (if_pos ?_))⟩
    · have hi' : invBad (BitVec.ofNat 256 (ofBytes (loadRuns s1 0x3F rs).1)) = false := hi
      have hb' : bitAt (BitVec.ofNat 256 (ofBytes (loadRuns s1 0x3F rs).1)) 99 = false := hb
      rw [hi', hb']
      decide
    · rw [Bool.or_eq_true]
      exact hb
  case controls =>
    have hset := exec_fpcset heos hnull hp
    refine ⟨fun hm => ?_, fun hm => ?_⟩ <;> rw [hm] at hset <;> exact hset
end

section
/-! Exits, returns, joins, calls and spawns (O13, O14; R357–R363). -/
namespace Sys2Proof.Machine

/-! ### Exits -/

section
variable {f : XFmt} {s : State} (heos : anyEos s.cur = false)
include heos

/-- An exit is not chosen with a null on a or p, or where its predicate does not hold. -/
theorem exec_exit_off (h : isKind .null s.cur.a = true ∨ isKind .null s.cur.p = true ∨ predOk f.pr s = false) :
    exec (.exit f) s = .next s := by
  have hoff : (isKind .null s.cur.a || isKind .null s.cur.p || !predOk f.pr s) = true := by
    rcases h with h | h | h <;> simp [h]
  simp only [exec, execExit, heos, hoff, Bool.false_eq_true, if_false, if_true]

theorem exec_exit_null (ha : isKind .null s.cur.a = false) (hp : isKind .null s.cur.p = false) (hpr : predOk f.pr s = true)
    (hb : isKind .null s.cur.b = true) : exec (.exit f) s = .next (sendAll s [f.t0] .null 0) := by
  simp only [exec, execExit, heos, ha, hp, hpr, hb, Bool.or_self, Bool.not_true, Bool.false_eq_true, if_false, if_true]

end

/-- No operand is a null. -/
theorem kinds_of_anyNull {i : Inst} (h : anyNull i = false) :
    isKind .null i.a = false ∧ isKind .null i.b = false ∧ isKind .null i.p = false := by
  simp only [anyNull, operands, List.any_cons, List.any_nil, Bool.or_false, Bool.or_eq_false_iff] at h
  obtain ⟨ha, hb, -, hp⟩ := h
  exact ⟨ha, hb, hp⟩

section
variable {f : XFmt} {s : State} {b : Block} (heos : anyEos s.cur = false) (hnull : anyNull s.cur = false) (hpr : predOk f.pr s = true)
  (hb : curBlock s = some b)
include heos hnull hpr hb

theorem exec_exit_twice {x : ExitRec} (hx : b.exit = some x) :
    exec (.exit f) s = .next (fault s F_MULTIEXIT (BitVec.ofNat 64 x.index) 0) := by
  obtain ⟨ka, kb, kp⟩ := kinds_of_anyNull hnull
  simp only [exec, execExit, heos, ka, kb, kp, hpr, hb, hx, Bool.or_self, Bool.not_true, Bool.false_eq_true, if_false]

/-- The destination that an exit records. -/
def chosenExit (f : XFmt) (s : State) : Option Word := if f.md == 2 then none else some (xAddr f (f.md == 1) s)

/-- The block with its exit recorded. -/
def exited (f : XFmt) (s : State) (b : Block) : State :=
  modBlock s b.part b.frame b.seq fun b => { b with exit := some ⟨s.cur.idx, chosenExit f s⟩ }

/-- The address behind a block. -/
def behindBlock (b : Block) : Word := b.addr + BitVec.ofNat 64 (16 + 8 * hCount b.h0)

theorem exec_exit_last (hx : b.exit = none) (hy : youngerBlocks (exited f s b) b.part b.frame b.seq = []) :
    exec (.exit f) s = .next (send (exited f s b) f.t0 (behindBlock b)) := by
  obtain ⟨ka, kb, kp⟩ := kinds_of_anyNull hnull
  rw [exited, chosenExit] at hy
  simp only [exec, execExit, heos, ka, kb, kp, hpr, hb, hx, hy, Bool.or_self, Bool.not_true, Bool.false_eq_true, if_false]
  rfl

/-- Younger blocks stay where they were fetched from the exit's destination. -/
theorem exec_exit_younger {y : Block} {l : List Block} (hx : b.exit = none)
    (hy : youngerBlocks (exited f s b) b.part b.frame b.seq = y :: l) : exec (.exit f) s = .next (send
      (if chosenExit f s == some y.addr then exited f s b else discardYounger (exited f s b) b.part b.frame b.seq) f.t0 (behindBlock b)) := by
  obtain ⟨ka, kb, kp⟩ := kinds_of_anyNull hnull
  rw [exited, chosenExit] at hy
  simp only [exec, execExit, heos, ka, kb, kp, hpr, hb, hx, hy, Bool.or_self, Bool.not_true, Bool.false_eq_true, if_false]
  rfl

end

theorem exec_exitg {f : XFmt} {s : State} (h : Acts f.pr s) : exec (.exitg f) s = .next (
    if !streamSettled s then waitCur s
    else { s with exitgs := s.exitgs ++ [⟨s.cur.part, s.cur.bay, s.cur.grid.getD 0, curTok s .data (opA s), xAddr f (bitAt f.md 2) s,
      f.ex.toNat, slotOf (fld f.md 0 2)⟩] }) := by
  simp only [exec, execExitg, shell_acts h]

/-! ### Returns and joins -/

/-- What a ret keeps: slot a, or a null. -/
def retValue (s : State) : Option Word := if anyNull s.cur || anyEos s.cur then none else some (opA s)

theorem retValue_kept {f : AFmt} {s : State} (hv : retValue s = none ∨ predOk f.pr s = true) :
    ((retValue s).isSome && !predOk f.pr s) = false := by
  rcases hv with hv | hv <;> simp [hv]

section
variable {f : AFmt} {s : State} {b : Block} (hb : curBlock s = some b) (hv : retValue s = none ∨ predOk f.pr s = true)
include hb hv

theorem exec_ret_first (hr : b.ret = none) : exec (.ret f) s =
    .next (modBlock (retTold f s) b.part b.frame b.seq fun b => { b with ret := some (s.cur.idx, retValue s) }) := by
  have hkept := retValue_kept hv
  rw [retValue] at hkept ⊢
  simp only [exec, execRet, hb, hr, hkept, Bool.false_eq_true, if_false]

theorem exec_ret_twice {k : Nat} {old : Option Word} (hr : b.ret = some (k, old)) :
    exec (.ret f) s = .next (faultAux s F_DUPTOK (old.getD 0) ((retValue s).getD 0) 0xC00) := by
  have hkept := retValue_kept hv
  rw [retValue] at hkept ⊢
  simp only [exec, execRet, hb, hr, hkept, Bool.false_eq_true, if_false]

end

theorem exec_joinc {f : AFmt} {s : State} {fr : Frame} (h : Acts f.pr s) (hf : frame? s s.cur.part (curFrame s) = some fr) :
    exec (.joinc f) s = .next (if fr.cc != 0 then waitCur s
      else modFrame (send2 f s (BitVec.ofNat 64 fr.jn)) fr.part fr.num fun x => { x with jn := 0 }) := by
  simp only [exec, execJoinc, shellA_acts h, hf]

/-! ### Calls and spawns -/

/-- The name of a child of the current call or spawn; none past the last ordinal or level in a deterministic partition. -/
def calledName (s : State) (b : Block) (fr : Frame) : Option Word :=
  if isDet s fr.part then childName fr.fname (childOrd s fr b) else some 0

section
variable {f : XFmt} {s : State} {b : Block} {fr : Frame} (h : Acts f.pr s) (hb : curBlock s = some b)
  (hf : frame? s s.cur.part (curFrame s) = some fr) (eff : State → Frame → Word → State)
include h hb hf

theorem asMaker_waits (hs : curSettled s = false) : asMaker f s eff = .next (waitCur s) := by
  simp only [asMaker, shell_acts h, hb, hf, hs, Bool.not_false, if_true]

theorem asMaker_unnamed (hs : curSettled s = true) (hn : calledName s b fr = none) :
    asMaker f s eff = .next (fault s F_DETVIOL s.cur.word 0) := by
  cases hd : isDet s fr.part with
  | false => simp [calledName, hd] at hn
  | true =>
    rw [calledName, if_pos hd] at hn
    simp only [asMaker, shell_acts h, hb, hf, hs, hd, hn, Bool.not_true, Bool.false_eq_true, if_false, if_true]

theorem asMaker_named {name : Word} (hs : curSettled s = true) (hn : calledName s b fr = some name) :
    asMaker f s eff = .next (eff s fr name) := by
  cases hd : isDet s fr.part with
  | false =>
    obtain rfl : 0 = name := by simpa [calledName, hd] using hn
    simp only [asMaker, shell_acts h, hb, hf, hs, hd, Bool.not_true, Bool.false_eq_true, if_false]
  | true =>
    rw [calledName, if_pos hd] at hn
    simp only [asMaker, shell_acts h, hb, hf, hs, hd, hn, Bool.not_true, Bool.false_eq_true, if_false, if_true]

end

section
variable {f : XFmt} {s : State} {b : Block} {fr : Frame} {name : Word} (h : Acts f.pr s) (hb : curBlock s = some b)
  (hf : frame? s s.cur.part (curFrame s) = some fr) (hs : curSettled s = true) (hn : calledName s b fr = some name)
include h hb hf hs hn

theorem exec_call_full (hfree : freeFrame s fr.part = none) : exec (.call f) s = .next (waitCur s) := by
  refine (asMaker_named h hb hf _ hs hn).trans ?_
  simp only [hfree]

theorem exec_call_starts {num bay : Nat} {t : State} (hfree : freeFrame s fr.part = some num)
    (hbay : pickBay s fr.part (some fr.bay) = some bay)
    (ht : startFrame s { madeFrame s fr num name with link := some ⟨s.cur.tag.frame, s.cur.tag.wave, s.cur.tag.ctx, s.cur.ord, s.cur.seq, f.t0⟩ }
      bay (xAddr f (bitAt f.md 2) s) = .ok t) :
    exec (.call f) s = .next (entryToken (noteAct t) fr.part num 0 (entrySlot f) (opA t)) := by
  refine (asMaker_named h hb hf _ hs hn).trans ?_
  simp only [hfree, hbay, ht]

/-- A child that its parent counts. -/
def countedChild (fr : Frame) (t : State) : State := modFrame t fr.part fr.num fun x => { x with cc := x.cc + 1 }

theorem exec_spawn_starts {num bay : Nat} {r t : State} (hfree : freeFrame s fr.part = some num)
    (hroom : spawnRoom s fr.part fr.bay = .row r bay) (hcc : fr.cc < 0xFFFF)
    (ht : startFrame r { madeFrame r fr num name with parent := some fr.num } bay (xAddr f (bitAt f.md 2) s) = .ok t) :
    exec (.spawn f) s = .next (send (noteAct (countedChild fr (entryToken t fr.part num 0 (entrySlot f) (opA t)))) f.t0 1) := by
  refine (asMaker_named h hb hf _ hs hn).trans ?_
  simp only [hfree, hroom, ht, Nat.not_le.mpr hcc, if_false]
  rfl

theorem exec_spawn_quota (hfree : freeFrame s fr.part = none) (hd : 16 ≤ (deferredOf s fr.bay).length) (hcc : fr.cc < 0xFFFF) :
    exec (.spawn f) s = .next (fault s F_QUOTA (xAddr f (bitAt f.md 2) s) 0) := by
  refine (asMaker_named h hb hf _ hs hn).trans ?_
  simp only [hfree, hd, Nat.not_le.mpr hcc, if_false, if_true]

/-- The record of a spawn that waits for a row. -/
def deferredSpawn (f : XFmt) (s : State) (fr : Frame) (name : Word) : SpawnRec :=
  let m := madeFrame s fr 0 name
  ⟨fr.part, fr.bay, some fr.num, xAddr f (bitAt f.md 2) s, opA s, f.ex.toNat, slotOf (fld f.md 0 2), m.fpc, name, m.pri, m.tree⟩

theorem exec_spawn_defers (hfree : freeFrame s fr.part = none) (hd : (deferredOf s fr.bay).length < 16) (hcc : fr.cc < 0xFFFF) :
    exec (.spawn f) s =
      .next (send (noteAct (countedChild fr { s with deferred := s.deferred ++ [deferredSpawn f s fr name] })) f.t0 0) := by
  refine (asMaker_named h hb hf _ hs hn).trans ?_
  simp only [hfree, Nat.not_le.mpr hd, Nat.not_le.mpr hcc, if_false]
  rfl

end

end Sys2Proof.Machine

open Sys2Proof.Machine

/-- Settles O13, by the equations of exit, exitg, ret and joinc. -/
theorem exitsReturnsAndJoins : Obligations.ExitsReturnsAndJoins := by
  unfold Obligations.ExitsReturnsAndJoins
  refine ⟨?exit, fun f s heos => ⟨exec_exit_off heos, exec_exit_null heos⟩, fun f s hacts => ⟨fun hs => ?settled, fun hs => ?waits⟩,
    ?ret, fun f s fr hacts hf => ⟨fun hc => ?joined, fun hc => ?joins⟩⟩
  case exit =>
    intro f s b heos hnull hpr hb dest t behind
    have hdest : chosenExit f s = dest := by simp only [chosenExit, beq_iff_eq, dest]
    have ht : exited f s b = t := by rw [exited, hdest]
    refine ⟨fun hx => ⟨fun hy => ?_, fun y l hy => ?_⟩, fun x => exec_exit_twice heos hnull hpr hb⟩
    · rw [← ht] at hy ⊢
      exact exec_exit_last heos hnull hpr hb hx hy
    · rw [← ht] at hy ⊢
      have hexec := exec_exit_younger heos hnull hpr hb hx hy
      rw [hdest] at hexec
      exact ⟨fun hd => hexec.trans (by rw [if_pos (beq_iff_eq.mpr hd)]; rfl), fun hd => hexec.trans (by rw [if_neg (by simpa using hd)]; rfl)⟩
  case ret =>
    intro f s b hb v hv
    exact ⟨exec_ret_first hb hv, fun k old => exec_ret_twice hb hv⟩
  case settled => rw [exec_exitg hacts, hs]; rfl
  case waits => rw [exec_exitg hacts, hs]; rfl
  case joined => rw [exec_joinc hacts hf, hc]; rfl
  case joins => rw [exec_joinc hacts hf, if_pos (bne_iff_ne.mpr hc)]

/-- Settles O14: a call or a spawn waits, has no name, or makes its frame, which waits or starts by the room that there is. -/
theorem callsAndSpawns : Obligations.CallsAndSpawns := by
  unfold Obligations.CallsAndSpawns
  intro f s b fr hacts hb hf called addr link counted
  refine ⟨fun hs => ⟨asMaker_waits hacts hb hf _ hs, asMaker_waits hacts hb hf _ hs⟩,
    fun hs hn => ⟨asMaker_unnamed hacts hb hf _ hs hn, asMaker_unnamed hacts hb hf _ hs hn⟩,
    fun name hs hn => ⟨fun num hfree => ⟨fun bay t => exec_call_starts hacts hb hf hs hn hfree, fun r bay t => exec_spawn_starts hacts hb hf hs hn hfree⟩,
      fun hfree => ⟨exec_call_full hacts hb hf hs hn hfree, exec_spawn_quota hacts hb hf hs hn hfree, exec_spawn_defers hacts hb hf hs hn hfree⟩⟩⟩
end

section
/-! Grid regions: requests, drains, constants, calls and checkpoints (O15; R217–R231, R364–R368, R444). -/
namespace Sys2Proof.Machine

section
variable {f : XFmt} {s t : State} (h : Acts f.pr s) (ho : curOldest s = true) (ht : accessTurn s = true)
  (hp : s.cur.grid = none → storePending s s.cur.part (curFrame s) = false)
include ho ht hp

/-- A request in its turn is not held back. -/
theorem cfgreq_in_turn : (!curOldest s || (s.cur.grid.isNone && storePending s s.cur.part (curFrame s)) || !accessTurn s) = false := by
  cases hg : s.cur.grid with
  | none => simp [ho, ht, hp hg]
  | some g => simp [ho, ht]

include h

theorem exec_cfgreq_passes {m : Img × List Word} (hm : cfgreqRead f s = (t, .ok m)) :
    exec (.cfgreq f) s = .next (waitStage (if t.cur.stage = some 9 then t else noteAct t) 9) := by
  simp only [exec, execCfgreq, shell_acts h, cfgreq_in_turn ho ht hp, hm, Bool.false_eq_true, if_false, beq_iff_eq]

theorem exec_cfgreq_fails {e : ReadErr} (hm : cfgreqRead f s = (t, .error e)) : exec (.cfgreq f) s = .next (readFail t e) := by
  simp only [exec, execCfgreq, shell_acts h, cfgreq_in_turn ho ht hp, hm, Bool.false_eq_true, if_false]

end

section
variable {f : AFmt} {release : Bool} {s : State} (h : Acts f.pr s) (ho : curOldest s = true)
include h ho

theorem askDrain_unnamed (hn : regionNamed s s.cur.part (handleOf (opA s)) = none) :
    askDrain f release s = .next (fault s F_PROT (opA s) 0) := by
  simp only [askDrain, shellA, shell_acts h, ho, hn, Bool.not_true, Bool.false_eq_true, if_false]

/-- A block that asks a running region without planes closes it and waits for the drain. -/
theorem askDrain_closes {r : Region} (hn : regionNamed s s.cur.part (handleOf (opA s)) = some r) (hp : r.planes = [])
    (hgated : gated r = false) (hgrid : s.cur.grid = none) (hst : s.cur.stage = none) :
    askDrain f release s = .next (waitStage (modRegion (noteAct s) r.bay r.idx fun r => { r with closed := true }) 9) := by
  have hself : (s.cur.grid == some r.idx && s.cur.bay == r.bay) = false := by simp [hgrid]
  have hstage : (s.cur.stage == some 9) = false := by simp [hst]
  simp only [askDrain, shellA, shell_acts h, ho, hn, hp, hgated, hself, hstage, List.isEmpty_nil, Bool.not_true, Bool.or_self,
    Bool.and_false, Bool.false_eq_true, if_false]

end

theorem exec_cfgtok {f : AFmt} {s : State} {c : Ctx} (h : Acts f.pr s) (hc : curCtx s = some c) (ht : f.t0 ≠ nullT)
    (hp : phaseAllows s (fld f.t0 0 2) = true) :
    exec (.cfgtok f) s = .next (sendRoute s (routeOf c.rw (fld f.t0 0 2)) (curTok s .data (opA s)) (some f.md)) := by
  simp only [exec, execCfgtok, shell_acts h, hc, hp, beq_false_of_ne ht, Bool.not_true, Bool.or_self, Bool.false_eq_true, if_false]

section
variable {f : XFmt} {s t : State} {r : Region} {m : Img} (h : Acts f.pr s) (hr : curRegion s = some r) (hg : gated r = false)
  (hm : readImage s s.cur.bay r.part false (tagWord s.cur.tag) (curTree s) (xAddr f (f.md == 1) s) = (t, .ok m))
include h hr hg hm

theorem exec_gcall_gates (hb : callBad t r m t.cur.word = none) : exec (.gcall f) s =
    .next (modRegion t r.bay r.idx fun r => { r with phase := .callGate t.cur (xAddr f (f.md == 1) s) }) := by
  simp only [exec, execGcall, shell_acts h, hr, hg, hm, hb, Bool.false_eq_true, if_false]

theorem exec_gcall_refused {b : BitVec 8 × Word × Word} (hb : callBad t r m t.cur.word = some b) :
    exec (.gcall f) s = .next (fault t b.1 b.2.1 b.2.2) := by
  simp only [exec, execGcall, shell_acts h, hr, hg, hm, hb, Bool.false_eq_true, if_false]

end

section
variable {f : AFmt} {s : State} {r : Region} (h : Acts f.pr s) (hr : curRegion s = some r) (hrun : r.phase = .run)
include h hr hrun

theorem exec_gret_callee (hp : r.planes ≠ []) :
    exec (.gret f) s = .next (modRegion (send s f.t0 (opA s)) r.bay r.idx fun r => { r with phase := .retGate s.cur }) := by
  have hne : r.planes.isEmpty = false := by simpa using hp
  simp only [exec, execGret, shellA, shell_acts h, hr, hrun, hne, Bool.false_eq_true, if_false]

theorem exec_gret_outside (hp : r.planes = []) : exec (.gret f) s = .next (illop s) := by
  simp only [exec, execGret, shellA, shell_acts h, hr, hrun, hp, List.isEmpty_nil, if_true]

end

section
variable {f : SFmt} {s : State} {r : Region} (h : Acts f.pr s) (hr : curRegion s = some r)
include h hr

theorem exec_ckpt_gates (hrun : r.phase = .run) :
    exec (.ckpt f) s = .next (waitStage (modRegion s r.bay r.idx fun r => { r with phase := .ckptGate }) 9) := by
  simp only [exec, execCkpt, shell_acts h, hr, hrun]

end

section
variable {f : SFmt} {s t : State} {r : Region} (h : Acts f.pr s) (hr : curRegion s = some r) (hgate : r.phase = .ckptGate)
  (hst : s.cur.stage = some 9) (hf : r.fault = none) (hs : settledRegion s r = true)
include hst hf hs

/-- A checkpoint whose region has settled is not held back. -/
theorem ckpt_in_turn : (s.cur.stage != some 9 || r.fault.isSome || !settledRegion s r) = false := by simp [hst, hf, hs]

include h hr hgate

theorem exec_ckpt_taken (ht : takeCkpt s r [{ s.cur with stage := none }] = .ok t) : exec (.ckpt f) s =
    .next (pairRegion (send (modRegion t r.bay r.idx fun r => { r with phase := .run }) f.t0 (opA t)) r.bay r.idx) := by
  simp only [exec, execCkpt, shell_acts h, hr, hgate, ckpt_in_turn hst hf hs, ht, Bool.false_eq_true, if_false]

theorem exec_ckpt_waits (ht : takeCkpt s r [{ s.cur with stage := none }] = .error t) : exec (.ckpt f) s = .next (waitCur t) := by
  simp only [exec, execCkpt, shell_acts h, hr, hgate, ckpt_in_turn hst hf hs, ht, Bool.false_eq_true, if_false]

end

/-- A checkpoint whose record reaches the attic and whose held stores are all performed lets the exits out and is recorded. -/
theorem takeCkpt_released {s u : State} {r : Region} {own : List Inst} (ha : atticTouch s r.part (planeBytes r) true false = .ok u)
    (ho : (outHeld (u.stores.filter (heldBy r)) u).1.stores.any (heldBy r) = false) :
    takeCkpt s r own =
      let o := outHeld (u.stores.filter (heldBy r)) u
      let v := { modRegion o.1 r.bay r.idx (fun r => { r with exitHold := r.exitHold.filter (toRegion r), entryLog := [] }) with
                 net := o.1.net ++ r.exitHold.filter fun x => !toRegion r x }
      let top := pushState v r (0, 0)
      let ck : Ckpt := ⟨{ top with attic := true, held := own ++ top.held }, r.planes, o.2⟩
      .ok (releaseAll (sendReplies (modRegion v r.bay r.idx fun r => { r with ckpt := some ck }) o.2)) := by
  simp only [takeCkpt, ha, ho, Bool.false_eq_true, if_false]

end Sys2Proof.Machine

open Sys2Proof.Machine

/-- Settles O15, by the equations of cfgreq, cfgrel, drain, cfgtok, gcall, gret and ckpt. -/
theorem regions : Obligations.Regions := by
  unfold Obligations.Regions
  refine ⟨⟨?cfgreq, ?drains⟩, ⟨fun f s c hacts hc => exec_cfgtok hacts hc, ?gcall, ?gret, ?ckpt⟩⟩
  case cfgreq =>
    intro f s t hacts ho ht hp
    exact ⟨fun m => exec_cfgreq_passes hacts ho ht hp, fun c x y => exec_cfgreq_fails hacts ho ht hp, exec_cfgreq_fails hacts ho ht hp⟩
  case drains =>
    intro f s hacts ho
    exact ⟨fun r hn hp hgated hgrid hst =>
        ⟨askDrain_closes hacts ho hn hp hgated hgrid hst, askDrain_closes hacts ho hn hp hgated hgrid hst⟩,
      fun hn => ⟨askDrain_unnamed hacts ho hn, askDrain_unnamed hacts ho hn⟩⟩
  case gcall =>
    intro f s t r m hacts hr hg addr hm
    exact ⟨exec_gcall_gates hacts hr hg hm, fun c x y => exec_gcall_refused hacts hr hg hm⟩
  case gret =>
    intro f s r hacts hr hrun
    exact ⟨exec_gret_callee hacts hr hrun, exec_gret_outside hacts hr hrun⟩
  case ckpt =>
    intro f s t r hacts hr
    refine ⟨exec_ckpt_gates hacts hr, fun hgate hst hf hs => ?_⟩
    intro own
    refine ⟨exec_ckpt_taken hacts hr hgate hst hf hs, exec_ckpt_waits hacts hr hgate hst hf hs, fun u hu => ?_⟩
    intro o v top ck ho
    exact takeCkpt_released hu ho
end

section
/-! Soft tokens: values and where they fault (O16; R418–R422, R426–R430). -/
namespace Sys2Proof.Machine

theorem whenCommitted_committed {s : State} {eff : State → State} (h : Committed s) : whenCommitted s eff = eff s := by
  obtain ⟨ho, hp⟩ := h
  simp only [whenCommitted, ho, hp, Bool.not_true, Bool.or_self, Bool.false_eq_true, if_false]

theorem withSrc_read {f : AFmt} {s : State} {v : Soft} {go : State → Soft → State} (h : readSoft s (fld f.imm 0 3) = some v) :
    withSrc f s go = go s v := by
  simp only [withSrc, h]

/-! ### Shelf runs of soft tokens -/

theorem withShelfBytes_misaligned {s : State} {a n : Nat} {go : State → List Byte → State} (h : a % 4 ≠ 0) :
    withShelfBytes s a n go = accFault s F_ALIGN a 4 false := by
  simp only [withShelfBytes, softShelf, bne_iff_ne.mpr h, if_true]

theorem softShelf_past {s : State} {a n : Nat} {store : Bool} {go : State → State} (h : a % 4 = 0) (hp : 2 ^ 22 < a + n) :
    softShelf s a n store go = accFault s F_PROT a n store := by
  have hp' : pow2 22 < a + n := by rwa [pow2_eq_two_pow]
  simp only [softShelf, h, bne_self_eq_false, Bool.false_eq_true, if_false, hp', if_true]

theorem softShelf_inside {s : State} {a n : Nat} {store : Bool} {go : State → State} (h : a % 4 = 0) (hp : a + n ≤ 2 ^ 22) :
    softShelf s a n store go = go s := by
  have hp' : ¬ pow2 22 < a + n := by rwa [pow2_eq_two_pow, Nat.not_lt]
  simp only [softShelf, h, bne_self_eq_false, Bool.false_eq_true, if_false, hp']

section
variable {f : AFmt} {s : State} {go : State → List (Nat × Nat) → State}

theorem withScores_holds {u : State} (h1 : 1 ≤ (bOf f s).toNat) (h2 : (bOf f s).toNat ≤ 2 ^ 24)
    (hu : SoftHolds s (opA s).toNat (4 * (bOf f s).toNat) u) :
    withScores f s go = go (softRead u (4 * (bOf f s).toNat))
      ((List.range (bOf f s).toNat).zip (f32s (softBytes u (opA s).toNat (4 * (bOf f s).toNat)) (bOf f s).toNat)) := by
  have hn : ¬ ((bOf f s).toNat < 1 ∨ pow2 24 < (bOf f s).toNat) := by rw [pow2_eq_two_pow]; omega
  simp only [withScores, hn, if_false, withShelfBytes_holds hu]

theorem withScores_count (h : (bOf f s).toNat < 1 ∨ 2 ^ 24 < (bOf f s).toNat) :
    withScores f s go = accFault s F_PROT (opA s).toNat 0 false := by
  rw [← pow2_eq_two_pow] at h
  simp only [withScores, h, if_true]

theorem withScores_past (h1 : 1 ≤ (bOf f s).toNat) (h2 : (bOf f s).toNat ≤ 2 ^ 24) (ha : (opA s).toNat % 4 = 0)
    (hp : 2 ^ 22 < (opA s).toNat + 4 * (bOf f s).toNat) :
    withScores f s go = accFault s F_PROT (opA s).toNat (4 * (bOf f s).toNat) false := by
  have hn : ¬ ((bOf f s).toNat < 1 ∨ pow2 24 < (bOf f s).toNat) := by rw [pow2_eq_two_pow]; omega
  simp only [withScores, hn, if_false, withShelfBytes, softShelf_past ha hp]

end

/-! ### Values from the shelf -/

section
variable {f : AFmt} {s : State} (h : Acts f.pr s) (hc : Committed s)
include h hc

theorem exec_sklat_holds {u : State} (h1 : 1 ≤ (bOf f s).toNat) (h2 : (bOf f s).toNat ≤ 65535)
    (hu : SoftHolds s (opA s).toNat ((bOf f s).toNat * efBytes f.md.toNat) u) :
    exec (.sklat f) s = .next (yieldSoft f (softRead u ((bOf f s).toNat * efBytes f.md.toNat))
      (mkLatent f.md.toNat (bOf f s).toNat (opA s).toNat (sha32 (softBytes u (opA s).toNat ((bOf f s).toNat * efBytes f.md.toNat))))) := by
  have hn : ¬ ((bOf f s).toNat < 1 ∨ 65535 < (bOf f s).toNat) := by omega
  simp only [exec, execSklat, shellA, shell_acts h, whenCommitted_committed hc, hn, if_false, withShelfBytes_holds hu]

theorem exec_sklat_count (hn : (bOf f s).toNat < 1 ∨ 65535 < (bOf f s).toNat) :
    exec (.sklat f) s = .next (accFault s F_PROT (opA s).toNat 0 false) := by
  simp only [exec, execSklat, shellA, shell_acts h, whenCommitted_committed hc, hn, if_true]

theorem exec_sklat_misaligned (h1 : 1 ≤ (bOf f s).toNat) (h2 : (bOf f s).toNat ≤ 65535) (ha : (opA s).toNat % 4 ≠ 0) :
    exec (.sklat f) s = .next (accFault s F_ALIGN (opA s).toNat 4 false) := by
  have hn : ¬ ((bOf f s).toNat < 1 ∨ 65535 < (bOf f s).toNat) := by omega
  simp only [exec, execSklat, shellA, shell_acts h, whenCommitted_committed hc, hn, if_false, withShelfBytes_misaligned ha]

/-- skmix and collapse.max work on the scores that they read. -/
theorem exec_skmix : exec (.skmix f) s = .next (withScores f s fun s l =>
    yieldSoft f s (mkMix ((bestOf (fld f.md 0 2 + 4 * fld f.ty 0 1) l).map fun x => (x.1, toBf x.2)))) := by
  simp only [exec, execSkmix, shellA, shell_acts h, whenCommitted_committed hc]

theorem exec_collapseMax : exec (.collapseMax f) s =
    .next (withScores f s fun s l => choose f s (((bestOf 1 l).head?.map (·.1)).getD 0)) := by
  simp only [exec, execCollapseMax, shellA, shell_acts h, whenCommitted_committed hc]

end

/-! ### Values from a register -/

section
variable {f : AFmt} {s : State} {v : Soft} (h : Acts f.pr s) (hv : readSoft s (fld f.imm 0 3) = some v)
include h hv

theorem exec_skrd : exec (.skrd f) s = .next (send2 f s (BitVec.ofNat 64 (fld v (64 * fld f.imm 3 3) 64))) := by
  simp only [exec, execSkrd, shellA, shell_acts h, withSrc_read hv]

omit hv in
theorem exec_skclr : exec (.skclr f) s = .next (sendSoft f s 0 0) := by
  simp only [exec, execSkclr, shellA, shell_acts h]

/-- skadd starts a mixture from the empty value, appends to one with room, and takes no other value. -/
theorem exec_skadd : exec (.skadd f) s = .next (
    if skKind v = 0 then yieldSoft f s (mkMix [(fld (opA s) 0 24, toBf (fld (opB s) 0 32))])
    else if skKind v = 2 ∧ skN v < 6 then yieldSoft f s (mkMix (skCands v ++ [(fld (opA s) 0 24, toBf (fld (opB s) 0 32))]))
    else illop s) := by
  simp only [exec, execSkadd, shellA, shell_acts h, withSrc_read hv, beq_iff_eq, Bool.and_eq_true, decide_eq_true_eq]

theorem exec_collapseMix : exec (.collapseMix f) s = .next (
    if skKind v = 2 then choose f s (mixBest (skCands v)) else if skKind v = 1 then choose f s (fld v 0 24) else illop s) := by
  simp only [exec, execCollapseMix, shellA, shell_acts h, withSrc_read hv, beq_iff_eq]

theorem exec_collapseCdf : exec (.collapseCdf f) s = .next (
    if skKind v = 2 then choose f s (cdfPick (fld (opA s) 0 32) (skCands v)) else if skKind v = 1 then choose f s (fld v 0 24)
    else illop s) := by
  simp only [exec, execCollapseCdf, shellA, shell_acts h, withSrc_read hv, beq_iff_eq]

theorem exec_sknorm_other (hk : skKind v ≠ 2) : exec (.sknorm f) s = .next (illop s) := by
  simp only [exec, execSknorm, shellA, shell_acts h, withSrc_read hv, bne_iff_ne.mpr hk, if_true]

/-- The weights of a mixture can be scaled: each is finite and not negative, and their sum is not zero. -/
def scalable (v : Soft) : Bool := ((skCands v).all fun y => finPos y.2) && (sumBf ((skCands v).map (·.2))).m != 0

omit h hv in
theorem scalable_iff : scalable v = true ↔ (∀ y ∈ skCands v, finPos y.2 = true) ∧ (sumBf ((skCands v).map (·.2))).m ≠ 0 := by
  simp only [scalable, Bool.and_eq_true, List.all_eq_true, bne_iff_ne]

theorem exec_sknorm_scales (hk : skKind v = 2) (hs : scalable v = true) :
    exec (.sknorm f) s = .next (yieldSoft f s (mkMix ((skCands v).map fun y =>
      (y.1, if bf16.isZero y.2 then y.2 else (roundTo bf16 0 (divDy (toDy bf16 y.2) (sumBf ((skCands v).map (·.2))))).bits)))) := by
  rw [scalable] at hs
  simp only [exec, execSknorm, shellA, shell_acts h, withSrc_read hv, hk, hs, bne_self_eq_false, Bool.false_eq_true, if_false, Bool.not_true]

theorem exec_sknorm_spoils (hk : skKind v = 2) (hs : scalable v = false) :
    exec (.sknorm f) s = .next (yieldSoft f s (mkMix ((skCands v).map fun y => (y.1, 0x7FC0)))) := by
  rw [scalable] at hs
  simp only [exec, execSknorm, shellA, shell_acts h, withSrc_read hv, hk, hs, bne_self_eq_false, Bool.false_eq_true, if_false, Bool.not_false,
    if_true]

end

end Sys2Proof.Machine

open Sys2Proof.Machine

/-- Settles O16, by what each soft instruction makes of its vector or of its register. -/
theorem softValues : Obligations.SoftValues := by
  unfold Obligations.SoftValues
  refine ⟨⟨?vectors, ?faults⟩, ?registers⟩
  case vectors =>
    intro f s u hacts hc a n e l
    exact ⟨exec_sklat_holds hacts hc, fun h1 h2 hu => ⟨(exec_skmix hacts hc).trans (congrArg Host.Outcome.next (withScores_holds h1 h2 hu)),
      (exec_collapseMax hacts hc).trans (congrArg Host.Outcome.next (withScores_holds h1 h2 hu))⟩⟩
  case faults =>
    intro f s hacts hc a n
    exact ⟨exec_sklat_count hacts hc,
      fun hn => ⟨(exec_skmix hacts hc).trans (congrArg Host.Outcome.next (withScores_count hn)),
        (exec_collapseMax hacts hc).trans (congrArg Host.Outcome.next (withScores_count hn))⟩,
      exec_sklat_misaligned hacts hc,
      fun h1 h2 ha hp => ⟨(exec_skmix hacts hc).trans (congrArg Host.Outcome.next (withScores_past h1 h2 ha hp)),
        (exec_collapseMax hacts hc).trans (congrArg Host.Outcome.next (withScores_past h1 h2 ha hp))⟩⟩
  case registers =>
    intro f s v hacts hv c x sum share
    have hadd := exec_skadd hacts hv
    have hmix := exec_collapseMix hacts hv
    have hcdf := exec_collapseCdf hacts hv
    refine ⟨exec_skrd hacts hv, exec_skclr hacts, fun hk => ?_, fun hk => ?_, fun hk => ⟨fun hn => ?_, fun hn => ?_, fun hf hm => ?_,
      fun hs => ?_, ?_, ?_⟩, fun hk => ?_, fun hk => ?_, exec_sknorm_other hacts hv⟩
    · rw [hadd, if_pos hk]
    · rw [hmix, hcdf, hk]
      exact ⟨rfl, rfl⟩
    · rw [hadd, if_neg (by omega), if_pos ⟨hk, hn⟩]
    · rw [hadd, if_neg (by omega), if_neg (by omega)]
    · exact exec_sknorm_scales hacts hv hk (scalable_iff.mpr ⟨hf, hm⟩)
    · refine exec_sknorm_spoils hacts hv hk (Bool.eq_false_iff.mpr fun hsc => ?_)
      obtain ⟨hall, hm⟩ := scalable_iff.mp hsc
      rcases hs with ⟨y, hy, hbad⟩ | hz
      · exact absurd (hall y hy) (by simp [hbad])
      · exact hm hz
    · rw [hmix, if_pos hk]
    · rw [hcdf, if_pos hk]
    · have h1 : skKind v ≠ 1 := by omega
      have h2 : skKind v ≠ 2 := by omega
      simp only [hmix, hcdf, h1, h2, if_false, and_self]
    · rw [hadd, if_neg (by omega), if_neg (by omega)]
end

section
/-! Position records and embeddings (O17; R258–R260, R423–R425). -/
namespace Sys2Proof.Machine

section
variable {f : AFmt} {s s1 : State} {v : Soft} {rs : List Run} (h : Acts f.pr s)
include h

section
variable (hc : Committed s) (hv : readSoft s (fld f.imm 0 3) = some v)
include hc hv

theorem exec_skhash_empty (hk : skKind v = 0) : exec (.skhash f) s = .next (illop s) := by
  simp only [exec, execSkhash, shellA, shell_acts h, whenCommitted_committed hc, withSrc_read hv, hk, beq_self_eq_true, if_true]

theorem exec_skhash_reads (hk : skKind v ≠ 0) (ht : accessTurn s = true)
    (hx : Translates s (((opA s).toNat : Int) + 0x40) 32 32 false s1 rs) :
    exec (.skhash f) s = .next (send2 f (readRuns s1 s1.cur.part (curTree s1) rs).2 (BitVec.ofNat 64
      (ofBytes (((recHash (readRuns s1 s1.cur.part (curTree s1) rs).1 v).drop (8 * fld f.imm 3 2)).take 8)))) := by
  simp only [exec, execSkhash, shellA, shell_acts h, whenCommitted_committed hc, withSrc_read hv, beq_false_of_ne hk, ht, Bool.not_true,
    Bool.false_eq_true, if_false, withRuns_translates hx]

end

section
variable (hs : Settled s) (hturn : inTurn s = true) (hv : readSoft (turned s) (fld f.imm 0 3) = some v)
include hs hturn hv

theorem exec_skpos_empty (hk : skKind v = 0) : exec (.skpos f) s = .next (illop (turned s)) := by
  simp only [exec, execSkpos, shellA, markConsumed_acts h, shell_acts h, whenSettled_settled hs, engGate_turn hturn, withSrc_read hv, hk,
    beq_self_eq_true, if_true]

section
variable (hk : skKind v ≠ 0) (ht : accessTurn (turned s) = true)
  (hx : Translates (turned s) ((opA (turned s)).toNat : Int) 128 64 true s1 rs)
include hk ht hx

/-- A descriptor that has all its records takes no other. -/
theorem exec_skpos_full (hm : nbits (descField (readRuns s1 s1.cur.part (curTree s1) rs).1 0x18 8) 62 2 ≠ 3)
    (hfull : descField (readRuns s1 s1.cur.part (curTree s1) rs).1 0x08 4 = descField (readRuns s1 s1.cur.part (curTree s1) rs).1 0x0C 4) :
    exec (.skpos f) s = .next (accFault (readRuns s1 s1.cur.part (curTree s1) rs).2 F_PROT
      (opA (readRuns s1 s1.cur.part (curTree s1) rs).2).toNat 128 true) := by
  obtain ⟨hrun, hpoison⟩ := hx
  simp only [exec, execSkpos, shellA, markConsumed_acts h, shell_acts h, whenSettled_settled hs, engGate_turn hturn, withSrc_read hv,
    beq_false_of_ne hk, ht, Bool.not_true, Bool.false_eq_true, if_false, withRuns_store hrun, unpoisoned, hpoison, beq_false_of_ne hm, hfull,
    beq_self_eq_true, if_true]

/-- Without a log the record is written behind those that the descriptor has. -/
theorem exec_skpos_writes {s2 : State} {ps : List Run} (hm : nbits (descField (readRuns s1 s1.cur.part (curTree s1) rs).1 0x18 8) 62 2 = 0)
    (hroom : descField (readRuns s1 s1.cur.part (curTree s1) rs).1 0x08 4 ≠ descField (readRuns s1 s1.cur.part (curTree s1) rs).1 0x0C 4)
    (hp : Translates (readRuns s1 s1.cur.part (curTree s1) rs).2 ((descField (readRuns s1 s1.cur.part (curTree s1) rs).1 0x00 8 +
      64 * descField (readRuns s1 s1.cur.part (curTree s1) rs).1 0x08 4 : Nat) : Int) 64 64 true s2 ps) :
    exec (.skpos f) s = .next (skposStep f s2 v (readRuns s1 s1.cur.part (curTree s1) rs).1 [] 64 [rs, ps]) := by
  obtain ⟨hrun, hpoison⟩ := hx
  simp only [exec, execSkpos, shellA, markConsumed_acts h, shell_acts h, whenSettled_settled hs, engGate_turn hturn, withSrc_read hv,
    beq_false_of_ne hk, ht, Bool.not_true, Bool.false_eq_true, if_false, withRuns_store hrun, unpoisoned, hpoison, hm,
    beq_false_of_ne hroom, Nat.reduceBEq, bne_self_eq_false, Bool.false_and, beq_self_eq_true, if_true, withStores, withRuns_store hp.1,
    Nat.add_zero, withVector, List.reverse_cons, List.reverse_nil, List.nil_append]

end

/-- An embedding runs its kind's command in its turn. -/
theorem exec_skemb : exec (.skemb f) s = .next (
    if skKind v = 0 then illop (turned s)
    else if skKind v = 1 then skembGather f (turned s) (textAsMix v) 1
    else if skKind v = 2 then skembGather f (turned s) v (skN v)
    else skembCopy f (turned s) v) := by
  simp only [exec, execSkemb, shellA, markConsumed_acts h, shell_acts h, whenSettled_settled hs, engGate_turn hturn, withSrc_read hv,
    beq_iff_eq]

end

end

/-- The command of an embedding enters its queue, or the instruction waits for room. -/
theorem skembPush_pushes (u : State) (hd : Beat) (l : List Beat) : Pushes (.next (skembPush u hd l)) u hd l := by
  refine ⟨fun hg hq => ?_, fun hn => ?_⟩
  · simp only [skembPush, hg, hq, Bool.not_false, Bool.and_true, if_true]
  · rcases hn with hn | hn <;> simp [skembPush, hn]

theorem skembGather_pushes {f : AFmt} {t : State} {v : Soft} {g : Nat} (ha : (opA t).toNat % 4 = 0)
    (hin : (opA t).toNat + 4 * tElems (tableOf t t.cur.part (fld f.imm 3 4)) ≤ 2 ^ 22) :
    Pushes (.next (skembGather f t v g)) t (skembHeader f t 0x29 3 (fld f.imm 3 4 + (g - 1) * 32 + 512))
      (inlineBeats v ++ [shelfBeat (opA t).toNat 6 0]) := by
  rw [skembGather, softShelf_inside ha hin]
  exact skembPush_pushes ..

section
variable {f : AFmt} {t r : State} {v : Soft} (ha : (opA t).toNat % 4 = 0) (hin : (opA t).toNat + 4 * skLen v ≤ 2 ^ 22)
  (hr : SoftHolds t (skAddr v) (skLen v * efBytes (skEf v)) r)
include ha hin hr

theorem skembCopy_changed (hd : sha32 (softBytes r (skAddr v) (skLen v * efBytes (skEf v))) ≠ skDigest v) :
    skembCopy f t v = fault (softRead r (skLen v * efBytes (skEf v))) F_INTEG (BitVec.ofNat 64 (skAddr v)) 0 := by
  simp only [skembCopy, softShelf_inside ha hin, withShelfBytes_holds hr, bne_iff_ne.mpr hd, if_true]

/-- The message of a latent's embedding, from the state that has read its vector. -/
def latentBeats (v : Soft) (a : Nat) : List Beat :=
  [shelfBeat (skAddr v) (if skEf v = 0 then 6 else 7) 0, shelfBeat a 6 0, BitVec.ofNat 128 (skLen v - 1)]

theorem skembCopy_pushes {u : State} {hdr : Beat} (hd : sha32 (softBytes r (skAddr v) (skLen v * efBytes (skEf v))) = skDigest v)
    (hu : softRead r (skLen v * efBytes (skEf v)) = u) (hh : skembHeader f u 0x20 3 0 = hdr)
    (hok : msgRefused u u.cur.part (curKey u) hdr (latentBeats v (opA t).toNat) = none) :
    Pushes (.next (skembCopy f t v)) u hdr (latentBeats v (opA t).toNat) := by
  have hcopy : skembCopy f t v = skembPush u hdr (latentBeats v (opA t).toNat) := by
    rw [latentBeats] at hok ⊢
    simp only [skembCopy, softShelf_inside ha hin, withShelfBytes_holds hr, hd, hu, hh, bne_self_eq_false, Bool.false_eq_true, if_false,
      beq_iff_eq, hok]
  rw [hcopy]
  exact skembPush_pushes ..

end

end Sys2Proof.Machine

open Sys2Proof.Machine

/-- Settles O17, by what skhash, skpos and skemb make of each kind of value. -/
theorem recordsAndEmbeddings : Obligations.RecordsAndEmbeddings := by
  unfold Obligations.RecordsAndEmbeddings
  refine ⟨fun f s s1 v rs hacts => ⟨fun hc hv => ⟨exec_skhash_empty hacts hc hv, exec_skhash_reads hacts hc hv⟩, ?skpos⟩, ?skemb⟩
  case skpos =>
    intro hs hturn t hv
    refine ⟨exec_skpos_empty hacts hs hturn hv, fun hk ht hx => ?_⟩
    intro r d
    exact ⟨fun hm hroom s2 ps hp => exec_skpos_writes hacts hs hturn hv hk ht hx hm hroom hp,
      exec_skpos_full hacts hs hturn hv hk ht hx⟩
  case skemb =>
    intro f s v hacts hs hturn hv t a slot n gathers
    have hexec := exec_skemb hacts hs hturn hv
    refine ⟨fun hk => ?_, fun hk => ?_, fun hk => ?_, fun hk => ?_⟩
    · rw [hexec, if_pos hk]
    · intro ha hin
      rw [hexec, if_neg (by omega), if_pos hk]
      exact skembGather_pushes ha hin
    · intro ha hin
      rw [hexec, if_neg (by omega), if_neg (by omega), if_pos hk]
      exact skembGather_pushes ha hin
    · intro ha hin k r hr u hd l
      rw [hexec, if_neg (by omega), if_neg (by omega), if_neg (by omega)]
      exact ⟨fun hne => congrArg Host.Outcome.next (skembCopy_changed ha hin hr hne),
        fun heq hok => skembCopy_pushes ha hin hr heq rfl rfl hok⟩
end

section
/-! Loads, stores and versioned words (O18, O19, O20; R370–R384). -/
namespace Sys2Proof.Machine

/-! ### Loads -/

section
variable {f : MFmt} {s s1 : State} (h : Accesses f.pr false true s)
include h

theorem exec_ld_translates {rs : List Run}
    (ht : Translates (placedState s) (eaOf f (sfBytes f.sf.toNat) (opA (placedState s))) (sfBytes f.sf.toNat) (sfBytes f.sf.toNat) false s1 rs) :
    exec (.ld f) s = .next (send (loadRuns s1 f.own.toNat rs).2 f.t0 (widenSf f.sf.toNat (loadRuns s1 f.own.toNat rs).1)) := by
  simp only [exec, execLd, memShell_accesses h, withRuns_translates ht]

theorem exec_ld_bad {c : BitVec 8} {a : Word}
    (ht : checked (placedState s) (eaOf f (sfBytes f.sf.toNat) (opA (placedState s))) (sfBytes f.sf.toNat) (sfBytes f.sf.toNat) false =
      (s1, .bad c a)) :
    exec (.ld f) s = .next (accFault s1 c a.toNat (sfBytes f.sf.toNat) false) := by
  simp only [exec, execLd, memShell_accesses h, withRuns_bad ht]

theorem exec_ld_miss
    (ht : checked (placedState s) (eaOf f (sfBytes f.sf.toNat) (opA (placedState s))) (sfBytes f.sf.toNat) (sfBytes f.sf.toNat) false =
      (s1, .miss)) :
    exec (.ld f) s = .next (waitCur s1) := by
  simp only [exec, execLd, memShell_accesses h, withRuns_miss ht]

theorem exec_lds_holds
    (ht : ShelfHolds (placedState s) (eaOf f (sfBytes f.sf.toNat) (opA (placedState s))) (sfBytes f.sf.toNat) false s1) :
    let k := shelfKey (curKey (placedState s)) (eaOf f (sfBytes f.sf.toNat) (opA (placedState s))).toNat
    let u := charge s1 s1.cur.part (curTree s1) 3 1
    exec (.lds f) s = .next (send u f.t0 (widenSf f.sf.toNat
      ((List.range (sfBytes f.sf.toNat)).map fun j => seenByte (seenHeld u f.own.toNat) true (k + j) (rdByte u.shelf (k + j))))) := by
  simp only [exec, execLds, memShell_accesses h, withShelf_holds ht, Bool.false_eq_true, if_false]

end

/-! ### The bytes of a store -/

section
variable {f : MFmt} {ea : Int} {s : State} {go : State → List Byte → State} (hc : curCtl s = none)
include hc

theorem withBytes_plain (hn : ¬ (f.sf.toNat = 7 ∨ f.sf.toNat = 8)) : withBytes f ea s go = go s (toBytes (sfBytes f.sf.toNat) ((opB s).toNat % 2 ^ (8 * sfBytes f.sf.toNat))) := by
  have hsf : (f.sf.toNat == 7 || f.sf.toNat == 8) = false := by simpa using hn
  simp only [withBytes, hc, hsf, Bool.false_eq_true, if_false, narrowSf, pow2_eq_two_pow]

theorem withBytes_unknown (hn : f.sf.toNat = 7 ∨ f.sf.toNat = 8) : withBytes f ea s go = waitCur s := by
  have hsf : (f.sf.toNat == 7 || f.sf.toNat == 8) = true := by simpa using hn
  simp only [withBytes, hc, hsf, if_true]

end

/-! ### Stores -/

section
variable {f : MFmt} {s s1 : State} (h : Accesses f.pr false s.cur.grid.isSome s)
include h

/-- A store whose run passes its checks hands its bytes on to the address of the run. -/
theorem exec_st_checked {r : Run} {rs : List Run}
    (ht : checked (placedState s) (eaOf f (sfBytes f.sf.toNat) (opA (placedState s))) (sfBytes f.sf.toNat) (sfBytes f.sf.toNat) true =
      (s1, .ok (r :: rs))) :
    exec (.st f) s = .next (withBytes f (eaOf f (sfBytes f.sf.toNat) (opA s1)) s1 fun s bs => handStore s f (.mem r.pa bs (!r.uncached))) := by
  simp only [exec, execSt, memShell_accesses h, withRuns_store ht]

theorem exec_st_bad {c : BitVec 8} {a : Word}
    (ht : checked (placedState s) (eaOf f (sfBytes f.sf.toNat) (opA (placedState s))) (sfBytes f.sf.toNat) (sfBytes f.sf.toNat) true =
      (s1, .bad c a)) :
    exec (.st f) s = .next (accFault s1 c a.toNat (sfBytes f.sf.toNat) true) := by
  simp only [exec, execSt, memShell_accesses h, withRuns_bad ht]

theorem exec_st_miss
    (ht : checked (placedState s) (eaOf f (sfBytes f.sf.toNat) (opA (placedState s))) (sfBytes f.sf.toNat) (sfBytes f.sf.toNat) true =
      (s1, .miss)) :
    exec (.st f) s = .next (waitCur s1) := by
  simp only [exec, execSt, memShell_accesses h, withRuns_miss ht]

theorem exec_sts_holds
    (ht : ShelfHolds (placedState s) (eaOf f (sfBytes f.sf.toNat) (opA (placedState s))) (sfBytes f.sf.toNat) true s1) :
    exec (.sts f) s = .next (withBytes f (eaOf f (sfBytes f.sf.toNat) (opA s1)) s1 fun u bs =>
      handStore u f (.shelf (shelfKey (curKey (placedState s)) (eaOf f (sfBytes f.sf.toNat) (opA (placedState s))).toNat) bs)) := by
  simp only [exec, execSts, memShell_accesses h, withShelf_holds ht, if_true]

end

/-! ### Stores of a block -/

theorem block?_modBlock_same {s : State} {p f q : Nat} {g : Block → Block} {b : Block}
    (h : ∀ x, (g x).part = x.part ∧ (g x).frame = x.frame ∧ (g x).seq = x.seq) (hb : block? s p f q = some b) :
    block? (modBlock s p f q g) p f q = some (g b) := by
  have hkey : ((fun x => x.part == p && x.frame == f && x.seq == q) ∘ fun x => if x.part == p && x.frame == f && x.seq == q then g x else x) =
      fun (x : Block) => x.part == p && x.frame == f && x.seq == q := by
    funext x
    simp only [Function.comp]
    split
    · rw [(h x).1, (h x).2.1, (h x).2.2]
    · rfl
  rw [block?] at hb
  rw [block?, modBlock, updWhere, List.find?_map, hkey, hb, Option.map_some, if_pos (List.find?_some (p := fun x : Block => _) hb)]

/-- The block with a store received. -/
def storeReceived (s : State) (own : Nat) : State :=
  modBlock s s.cur.part (curFrame s) s.cur.seq fun b => { b with st := b.st ++ [(own, opB s)] }

/-- A block's first store of an LSID is received, and held to its commit. -/
theorem handStore_block {s : State} {f : MFmt} {op : StoreOp} {b : Block} (hg : s.cur.grid = none) (hb : curBlock s = some b)
    (hs : assoc f.own.toNat b.st = none) : handStore s f op = { storeReceived s f.own.toNat with
      stores := s.stores ++ [⟨s.cur.part, s.cur.bay, curFrame s, s.cur.seq, f.own.toNat, none, false, op, none, false⟩] } := by
  have hblock : block? s s.cur.part (curFrame s) s.cur.seq = some b := by rwa [curBlock, hg] at hb
  simp only [handStore, hg, hb, hs, recvStore, hblock, Option.map_some, Option.isSome_none, Option.getD_some, Bool.false_eq_true, if_false]
  rfl

theorem curBlock_storeReceived {s : State} {own : Nat} {b : Block} (hg : s.cur.grid = none) (hb : curBlock s = some b) :
    curBlock (storeReceived s own) = some { b with st := b.st ++ [(own, opB s)] } := by
  have hblock : block? s s.cur.part (curFrame s) s.cur.seq = some b := by rwa [curBlock, hg] at hb
  have hg' : (storeReceived s own).cur.grid = none := hg
  rw [curBlock, hg']
  exact block?_modBlock_same (fun _ => ⟨rfl, rfl, rfl⟩) hblock

theorem assoc_append_self {β : Type} (k : Nat) (v : β) (l : List (Nat × β)) : (assoc k (l ++ [(k, v)])).isSome = true := by
  simp only [assoc, Option.isSome_map, List.find?_isSome]
  exact ⟨(k, v), by simp, beq_self_eq_true k⟩

/-! ### Versioned words -/

section
variable {f : MFmt} {s s1 : State} {r : Run} {rs : List Run} (h : Accesses f.pr false true s)
  (ht : Translates (placedState s) (eaOf f 16 (opA (placedState s))) 16 16 false s1 (r :: rs))
include h ht

theorem exec_ldv_unversioned (hp : r.vr = false ∨ r.uncached = true) :
    exec (.ldv f) s = .next (accFault s1 F_PROT (eaOf f 16 (opA (placedState s))) 16 false) := by
  simp only [exec, execLdv, memShell_accesses h, withSlot_none ht hp]

variable (hv : r.vr = true) (hu : r.uncached = false)
include hv hu

/-- A load that waited sends what the store of its version brought. -/
theorem exec_ldv_fed {v : Word} (hf : s1.cur.ver.bind (·.2) = some v) :
    exec (.ldv f) s = .next (send (l2Touch s1 s1.cur.part (curTree s1) r.pa false) f.t0 v) := by
  simp only [exec, execLdv, memShell_accesses h, withSlot_load ht hv hu, hf]

variable (hf : s1.cur.ver.bind (·.2) = none)
include hf

theorem exec_ldv_there (hn : (BitVec.setWidth 32 (opB s1) - (versBounds s1 s1.cur.part r.pa).1).toNat ≤
      ((versBounds s1 s1.cur.part r.pa).2 - (versBounds s1 s1.cur.part r.pa).1).toNat) :
    exec (.ldv f) s = .next (send (l2Touch s1 s1.cur.part (curTree s1) r.pa false) f.t0
      (versValue s1 s1.cur.part r.pa (BitVec.setWidth 32 (opB s1)))) := by
  simp only [exec, execLdv, memShell_accesses h, withSlot_load ht hv hu, hf, hn, if_true]

variable (hn : ¬ (BitVec.setWidth 32 (opB s1) - (versBounds s1 s1.cur.part r.pa).1).toNat ≤
  ((versBounds s1 s1.cur.part r.pa).2 - (versBounds s1 s1.cur.part r.pa).1).toNat)
include hn

theorem exec_ldv_ahead (ha : versionAhead (versBounds s1 s1.cur.part r.pa).2 (BitVec.setWidth 32 (opB s1)) = true) :
    exec (.ldv f) s = .next (waitCur (modCur s1 fun i => { i with ver := some (r.pa, none) })) := by
  simp only [exec, execLdv, memShell_accesses h, withSlot_load ht hv hu, hf, hn, ha, if_false, if_true]

theorem exec_ldv_gone (ha : versionAhead (versBounds s1 s1.cur.part r.pa).2 (BitVec.setWidth 32 (opB s1)) = false) :
    exec (.ldv f) s = .next (fault s1 F_VGONE (BitVec.ofInt 64 (eaOf f 16 (opA s1))) (BitVec.setWidth 64 (BitVec.setWidth 32 (opB s1)))) := by
  simp only [exec, execLdv, memShell_accesses h, withSlot_load ht hv hu, hf, hn, ha, Bool.false_eq_true, if_false]

end

section
variable {f : MFmt} {s s1 : State} {r : Run} {rs : List Run} (h : Accesses f.pr false s.cur.grid.isSome s)
  (ht : checked (placedState s) (eaOf f 16 (opA (placedState s))) 16 16 true = (s1, .ok (r :: rs))) (hv : r.vr = true)
  (hu : r.uncached = false)
include h ht hv hu

theorem exec_stv_hands : exec (.stv f) s = .next (handStore s1 f (.stv r.pa (opB s1))) := by
  simp only [exec, execStv, memShell_accesses h, withSlot_store ht hv hu]

theorem exec_reclaim_hands (hg : s1.cur.grid = none) :
    exec (.reclaim f) s = .next (handStore s1 f (.reclaim r.pa (BitVec.setWidth 32 (opB s1)))) := by
  simp only [exec, execReclaim, memShell_accesses h, withSlot_store ht hv hu, hg, Option.isSome_none, Bool.false_eq_true, if_false]

end

section
variable {f : MFmt} {s : State} {pa g : Nat} {v : Word} {x : Region} (hg : s.cur.grid = some g) (hx : region? s s.cur.bay g = some x)
  (hck : x.ck = false)
include hg hx hck

theorem handStore_stv_made {m : State × BitVec 32} (hm : doStv s s.cur.part pa v = some m) : handStore s f (.stv pa v) =
    send (l2Touch m.1 s.cur.part (treeOf s s.cur.part (curFrame s)) pa false) f.t0
      (BitVec.setWidth 64 ((versBounds s s.cur.part pa).2 + 1)) := by
  simp only [handStore, hg, hx, hck, performStore, storeValue, hm, Option.map_some, Option.getD_some, Bool.false_eq_true, if_false]

theorem handStore_stv_waits (hm : doStv s s.cur.part pa v = none) :
    handStore s f (.stv pa v) = waitCur (modCur s fun i => { i with ver := some (pa, none) }) := by
  simp only [handStore, hg, hx, hck, performStore, hm, Option.map_none, Option.map_some, Option.getD_some, Bool.false_eq_true, if_false,
    foundSlot]

end

end Sys2Proof.Machine

open Sys2Proof.Machine

/-- Settles O18, by the equations of ld, lds and st. -/
theorem loads : Obligations.Loads := by
  unfold Obligations.Loads
  refine ⟨?answered, ?failed⟩
  case answered =>
    intro f s s1 rs n t ea
    exact ⟨fun h ht => exec_ld_translates h ht, fun h ht => exec_lds_holds h ht⟩
  case failed =>
    intro f s s1 n t ea
    exact ⟨fun h => ⟨fun c a => exec_ld_bad h, exec_ld_miss h⟩, fun h => ⟨fun c a => exec_st_bad h, exec_st_miss h⟩⟩

/-- Settles O19: a store hands on what `withBytes` makes of its operand, and a block's store is held. -/
theorem stores : Obligations.Stores := by
  unfold Obligations.Stores
  intro f s
  refine ⟨?given, ?held⟩
  case given =>
    intro n t ea k narrow plain
    refine ⟨fun s1 r rs h ht => ?_, fun u h ht => ?_⟩
    · have hst := exec_st_checked h ht
      exact ⟨fun hc hn => hst.trans (congrArg Host.Outcome.next (withBytes_plain hc hn)),
        fun hc hn => hst.trans (congrArg Host.Outcome.next (withBytes_unknown hc hn)),
        fun c bs fl hc hb => hst.trans (congrArg Host.Outcome.next (withBytes_ok hc hb)),
        fun c hc hb => hst.trans (congrArg Host.Outcome.next (withBytes_ovf hc hb))⟩
    · have hsts := exec_sts_holds h ht
      exact ⟨fun hc hn => hsts.trans (congrArg Host.Outcome.next (withBytes_plain hc hn)),
        fun hc hn => hsts.trans (congrArg Host.Outcome.next (withBytes_unknown hc hn)),
        fun c bs fl hc hb => hsts.trans (congrArg Host.Outcome.next (withBytes_ok hc hb))⟩
  case held =>
    intro op b hg hb hs t
    have ht : t = _ := handStore_block hg hb hs
    rw [ht]
    exact ⟨rfl, rfl, rfl, _, curBlock_storeReceived hg hb, assoc_append_self ..⟩

/-- Settles O20: a load by where its version stands, a store by what the word has room for. -/
theorem versionedWords : Obligations.VersionedWords := by
  unfold Obligations.VersionedWords
  intro f s s1 r rs t ea
  refine ⟨fun h ht => ?loads, fun h ht hv hu => ⟨fun hg => ⟨exec_stv_hands h ht hv hu, exec_reclaim_hands h ht hv hu hg⟩, fun g x hg hx hck => ?_⟩⟩
  case loads =>
    intro n b
    refine ⟨fun hv hu => ?_, exec_ldv_unversioned h ht⟩
    intro out
    refine ⟨fun v hf => exec_ldv_fed h ht hv hu hf, fun hf => ⟨exec_ldv_there h ht hv hu hf, fun hn h1 h2 => ?_, fun hn h2 => ?_⟩⟩
    · refine exec_ldv_ahead h ht hv hu hf hn ?_
      rw [versionAhead, decide_eq_true h1, decide_eq_true (by rwa [pow2_eq_two_pow])]
      rfl
    · refine exec_ldv_gone h ht hv hu hf hn ?_
      rw [versionAhead, decide_eq_false (p := _ < pow2 31) (by rw [pow2_eq_two_pow]; exact Nat.not_lt.mpr h2), Bool.and_false]
  · have hst := exec_stv_hands h ht hv hu
    exact ⟨fun v hm => hst.trans (congrArg Host.Outcome.next (handStore_stv_made hg hx hck hm)),
      fun hm => hst.trans (congrArg Host.Outcome.next (handStore_stv_waits hg hx hck hm))⟩
end

section
/-! Engine messages (O23; R394, R395, R413–R415). -/
namespace Sys2Proof.Machine

/-- The message that a dedicated engine instruction sends is `engSend` of its opcode. -/
theorem sendsMessage_of_engSend {i : EFmt → Instr} {eop : Nat} (h : ∀ f s, exec (i f) s = engSend eop f s) : SendsMessage i eop := by
  intro f s u l hs t n hb
  rw [h]
  exact engSend_sends hs hb

section
variable {f : EFmt} {s u : State} {l : List Beat} (hs : Sends f.pr s) (hb : Beats (turned s) (opA (turned s)) 1 u l)
include hs hb

/-- A header that eng reads and whose other fields are zero is offered with its beats. -/
theorem exec_eng_offers {v : State} {r : List Beat} (hf : fld (l.getD 0 0) 98 22 = 0) (hc : mCont (l.getD 0 0) = 0)
    (hr : Beats u (opA u) (mBeats (l.getD 0 0) + 1) v r) :
    Offers (exec (.eng f) s) v (mkHeader (mEop (l.getD 0 0)) f.hnd.toNat f.q.toNat f.push.toNat f.pop.toNat (mBeats (l.getD 0 0))
      (mArg (l.getD 0 0)) (contOf f v)) (r.drop 1) := by
  have hok : (fld (l.getD 0 0) 98 22 != 0 || mCont (l.getD 0 0) != 0) = false := by simp only [hf, hc, bne_self_eq_false, Bool.or_self]
  simp only [exec, execEng, engShell_sends hs, withBeats_beats hb, hok, Bool.false_eq_true, if_false, withBeats_beats hr]
  exact offer_offers ..

theorem exec_eng_refused (h : fld (l.getD 0 0) 98 22 ≠ 0 ∨ mCont (l.getD 0 0) ≠ 0) :
    exec (.eng f) s =
      .next (fault u (engRefused (l.getD 0 0)).1 (engRefused (l.getD 0 0)).2.1 (engRefused (l.getD 0 0)).2.2) := by
  have hbad : (fld (l.getD 0 0) 98 22 != 0 || mCont (l.getD 0 0) != 0) = true := by
    rcases h with h | h <;> simp only [bne_iff_ne.mpr h, Bool.true_or, Bool.or_true]
  simp only [exec, execEng, engShell_sends hs, withBeats_beats hb, hbad, if_true]

end

section
variable {f : EFmt} {s : State} {k : Nat}

theorem qwaitOn_done (h : s.cmds.any (qwaitsFor f s s.cur k) = false) : qwaitOn f s k = send s f.t0 (opA s) := by
  simp only [qwaitOn, h, Bool.false_eq_true, if_false]

theorem qwaitOn_waits (h : s.cmds.any (qwaitsFor f s s.cur k) = true) : qwaitOn f s k = waitStage s (5 + k) := by
  simp only [qwaitOn, h, if_true]

theorem cmdNo_turned (s : State) : (turned s).cmdNo = s.cmdNo := by
  unfold turned
  split <;> rfl

/-- A qwait in its turn is sent, and waits for the commands before it. -/
theorem exec_qwait_first (hst : ∀ k, s.cur.stage = some k → k < 5) (hs : Sends f.pr s) :
    exec (.qwait f) s = .next (qwaitOn f (markSent (turned s)) s.cmdNo) := by
  have heff : exec (.qwait f) s = engShell f s fun s => qwaitOn f (markSent s) s.cmdNo := by
    cases hk : s.cur.stage with
    | none => simp only [exec, execQwait, hk]
    | some k => simp only [exec, execQwait, hk, Nat.not_le.mpr (hst k hk), if_false]
  rw [heff, engShell_sends hs, cmdNo_turned]

theorem exec_qwait_again (hst : s.cur.stage = some (5 + k)) : exec (.qwait f) s = .next (qwaitOn f s k) := by
  simp only [exec, execQwait, hst, Nat.le_add_right, if_true, Nat.add_sub_cancel_left]

end

end Sys2Proof.Machine

open Sys2Proof.Machine

/-- Settles O23: each dedicated instruction is `engSend` of its opcode, and eng and qwait have their equations. -/
theorem engineMessages : Obligations.EngineMessages := by
  unfold Obligations.EngineMessages
  refine ⟨⟨?_, ?_, ?_, ?_, ?_, ?_, ?_, ?_, ?_, ?_, ?_, ?_, ?_, ?_, ?_, ?_, ?_⟩, ?eng, fun f s => ⟨fun hst hs => ?first, fun k hst => ?again⟩⟩
  case eng =>
    intro f s u v l r hs t hb m
    exact ⟨exec_eng_offers hs hb, exec_eng_refused hs hb⟩
  case first =>
    have hexec := exec_qwait_first hst hs
    exact ⟨fun h => hexec.trans (congrArg Host.Outcome.next (qwaitOn_done h)), fun h => hexec.trans (congrArg Host.Outcome.next (qwaitOn_waits h))⟩
  case again =>
    have hexec := exec_qwait_again (f := f) hst
    exact ⟨fun h => hexec.trans (congrArg Host.Outcome.next (qwaitOn_done h)), fun h => hexec.trans (congrArg Host.Outcome.next (qwaitOn_waits h))⟩
  all_goals exact sendsMessage_of_engSend fun f s => rfl
end

section
/-! Streams, hints, fences and monitored waits (O21; R108, R385–R391). -/
namespace Sys2Proof.Machine

/-! ### What taking its place leaves of an access -/

theorem cur_fenceHeld (s : State) : (fenceHeld s).cur = s.cur := by
  unfold fenceHeld
  split
  · rfl
  · split <;> rfl

theorem cur_placeCur (s : State) : (placeCur s).cur = { s.cur with stage := some 1 } := by
  unfold placeCur
  dsimp only
  split <;> exact cur_fenceHeld _

theorem opC_placedState (s : State) : opC (placedState s) = opC s := by
  unfold placedState
  split
  · rfl
  · rw [opC, cur_placeCur, opC]

/-! ### Chains -/

theorem exec_stream_chain {f : MFmt} {s : State} (h : Accesses f.pr false true s) (hd : fld (opC (placedState s)) 62 2 = 2) :
    exec (.stream f) s = exec (.streamKvBind f) s := by
  have hdir : (fld (opC s) 62 2 == 2) = true := by rw [← opC_placedState, hd, beq_self_eq_true]
  have hdir' : (fld (opC (placedState s)) 62 2 == 2) = true := by rw [hd, beq_self_eq_true]
  simp only [exec, execStream, execStreamKvBind, hdir, memShell_accesses h, hdir', if_true]

section
variable {f : MFmt} {s s1 : State} {rs : List Run} (h : Accesses f.pr false true s)
include h

theorem exec_streamKvBind_control (hc : fld (opC (placedState s)) 5 34 ≠ 0) : exec (.streamKvBind f) s = .next (illop (placedState s)) := by
  simp only [exec, execStreamKvBind, memShell_accesses h, kvBind, bne_iff_ne.mpr hc, if_true]

variable (hc : fld (opC (placedState s)) 5 34 = 0) (ht : Translates (placedState s) ((opA (placedState s)).toNat : Int) 32 32 false s1 rs)
include hc ht

theorem exec_streamKvBind_installs
    (hb : kvRecordBad (loadRuns s1 f.own.toNat rs).2 (fld (opB (loadRuns s1 f.own.toNat rs).2) 0 3) (loadRuns s1 f.own.toNat rs).1 = false) :
    exec (.streamKvBind f) s = .next (sendKind (send (kvInstall (loadRuns s1 f.own.toNat rs).2
      (fld (opB (loadRuns s1 f.own.toNat rs).2) 0 3) (loadRuns s1 f.own.toNat rs).1) f.t0 0) f.t0 .eos 0) := by
  simp only [exec, execStreamKvBind, memShell_accesses h, kvBind, hc, bne_self_eq_false, Bool.false_eq_true, if_false,
    withRuns_translates ht, hb]

theorem exec_streamKvBind_refuses
    (hb : kvRecordBad (loadRuns s1 f.own.toNat rs).2 (fld (opB (loadRuns s1 f.own.toNat rs).2) 0 3) (loadRuns s1 f.own.toNat rs).1 = true) :
    exec (.streamKvBind f) s = .next (illop (loadRuns s1 f.own.toNat rs).2) := by
  simp only [exec, execStreamKvBind, memShell_accesses h, kvBind, hc, bne_self_eq_false, Bool.false_eq_true, if_false,
    withRuns_translates ht, hb, if_true]

end

/-! ### Read streams -/

theorem exec_stream_binds {f : MFmt} {s : State} (h : Accesses f.pr false false s) (hd : fld (opC (placedState s)) 62 2 ≠ 2) :
    exec (.stream f) s = .next (streamBind f (placedState s)) := by
  have hdir : (fld (opC s) 62 2 == 2) = false := by rw [← opC_placedState, beq_false_of_ne hd]
  simp only [exec, execStream, hdir, memShell_accesses h, beq_false_of_ne hd, Bool.false_eq_true, if_false]

/-- The upper half of the two direction bits, as the field reads it. -/
theorem bitAt_iff_direction (c : Word) : bitAt c 62 = true ↔ fld c 62 2 = 1 ∨ fld c 62 2 = 3 := by
  have hfld : fld c 62 2 = c.toNat / 2 ^ 62 % 4 := by rw [fld, nbits, pow2_eq_two_pow]; exact congrArg (· % 4) (Nat.shiftRight_eq_div_pow ..)
  have hbit : bitAt c 62 = decide (c.toNat / 2 ^ 62 % 2 = 1) := Nat.testBit_eq_decide_div_mod_eq
  rw [hfld, hbit, decide_eq_true_eq]
  omega

/-- The control word of a read stream is refused. -/
def streamRefused (f : MFmt) (c : Word) : Bool := bitAt c 62 || fld c 5 34 != 0 || (f.sf.toNat == 9 && !bitAt c 61)

theorem streamRefused_iff {f : MFmt} {c : Word} (hd : fld c 62 2 ≠ 2) : streamRefused f c = true ↔
    fld c 62 2 = 1 ∨ fld c 62 2 = 3 ∨ (fld c 62 2 = 0 ∧ (fld c 5 34 ≠ 0 ∨ (f.sf.toNat = 9 ∧ bitAt c 61 = false))) := by
  have hlt : fld c 62 2 < 4 := Nat.mod_lt _ (by decide)
  simp only [streamRefused, Bool.or_eq_true, Bool.and_eq_true, bitAt_iff_direction, bne_iff_ne, beq_iff_eq, Bool.not_eq_true']
  have hcases : fld c 62 2 = 0 ∨ fld c 62 2 = 1 ∨ fld c 62 2 = 3 := by omega
  rcases hcases with h | h | h <;> simp [h]

/-- Where a read stream begins, and the bytes that its elements reach. -/
def streamBase (f : MFmt) (s : State) : Int := if f.sf.toNat == 9 then offM f else eaOf f (sfBytes f.sf.toNat) (opA s)
def streamStride (s : State) : Int := signed (fld (opC s) 39 16) 16
def streamCount (s : State) : Nat := fld (opB s) 0 32
def streamExtent (f : MFmt) (s : State) : Int × Int := extent f.sf.toNat (streamBase f s) (opA s) (streamStride s) (streamCount s)
def streamFits (f : MFmt) (s : State) : Bool :=
  streamCount s == 0 || (decide (0 ≤ (streamExtent f s).1) && sameHalf (streamExtent f s).1.toNat (streamExtent f s).2.toNat)

/-- The stream that binds a slot. -/
def boundStream (f : MFmt) (s : State) : Stream :=
  { id := s.cmdNo, bay := curKey s, slot := strSlot (opC s), part := s.cur.part, region := s.cur.grid.getD 0, inst := s.cur,
    count := streamCount s, pos := 0, done := [], runs := [], base := streamBase f s, stride := streamStride s, sf := f.sf.toNat,
    ahead := fld (opC s) 55 6, waitcb := bitAt (opC s) 61, depth := ((curRegion s).map fun r => r.planes.length).getD 0 }

/-- The state in which a stream has bound its slot. -/
def boundState (f : MFmt) (s : State) : State :=
  { s with streams := s.streams ++ [boundStream f s], codebooks := assocSet (curKey s, strSlot (opC s)) 0 s.codebooks, cmdNo := s.cmdNo + 1 }

section
variable {f : MFmt} {s : State}

theorem streamBind_refused (h : streamRefused f (opC s) = true) : streamBind f s = illop s := by
  rw [streamRefused] at h
  simp only [streamBind, h, if_true]

variable (h : streamRefused f (opC s) = false)
include h

theorem streamBind_busy (hb : stream? s (curKey s) (strSlot (opC s)) ≠ none) : streamBind f s = waitCur s := by
  rw [streamRefused] at h
  simp only [streamBind, h, Bool.false_eq_true, if_false, Option.isSome_iff_ne_none.mpr hb, if_true]

/-- A stream on a free slot whose extent is refused faults; else its base is checked, and it binds. -/
theorem streamBind_free (hb : stream? s (curKey s) (strSlot (opC s)) = none) : streamBind f s =
    if !streamFits f s then fault s F_NONCANON (BitVec.ofInt 64 (elemAt f.sf.toNat (streamBase f s) (opA s) (streamStride s) 0).1) 0
    else if f.sf.toNat != 9 && streamBase f s % (sfBytes f.sf.toNat : Int) != 0 then
      fault s F_ALIGN (BitVec.ofInt 64 (streamBase f s)) (BitVec.ofNat 64 (sfBytes f.sf.toNat))
    else boundState f s := by
  rw [streamRefused] at h
  have hfits : (!streamFits f s) = (streamCount s != 0 &&
      !(decide (0 ≤ (streamExtent f s).1) && sameHalf (streamExtent f s).1.toNat (streamExtent f s).2.toNat)) := by
    rw [streamFits, Bool.not_or]
    rfl
  rw [hfits]
  simp only [streamBind, h, hb, Option.isSome_none, Bool.false_eq_true, if_false]
  rfl

end

/-- A stream that is put on a free slot is the one found there. -/
theorem stream?_boundState {f : MFmt} {s : State} (hb : stream? s (curKey s) (strSlot (opC s)) = none) :
    stream? (boundState f s) (curKey s) (strSlot (opC s)) = some (boundStream f s) := by
  rw [stream?] at hb
  simp only [stream?, boundState, List.find?_append, hb, Option.none_or, boundStream, List.find?_singleton, beq_self_eq_true, Bool.and_self,
    if_true]

theorem assoc_assocSet_same {α β : Type} [BEq α] [LawfulBEq α] (k : α) (v : β) (l : List (α × β)) : assoc k (assocSet k v l) = some v := by
  have hnone : (l.filter fun x => x.1 != k).find? (fun x => x.1 == k) = none := by
    simp [List.find?_eq_none]
  simp only [assoc, assocSet, List.find?_append, hnone, Option.none_or, List.find?_singleton, beq_self_eq_true, if_true, Option.map_some]

theorem codebook_boundState {f : MFmt} {s : State} : codebook (boundState f s) (curKey s) (strSlot (opC s)) = 0 := by
  rw [codebook, boundState, assoc_assocSet_same]
  rfl

/-- The bytes that a stream reaches lie between its first and its last element. -/
theorem extent_eq (sf : Nat) (base : Int) (a : Word) (stride : Int) (count : Nat) : extent sf base a stride count =
    (min (elemAt sf base a stride 0).1 (elemAt sf base a stride (count - 1)).1,
     max (elemAt sf base a stride 0).1 (elemAt sf base a stride (count - 1)).1 + ((elemAt sf base a stride 0).2 : Int) - 1) := by
  simp only [extent, Int.min_def, Int.max_def]

theorem elemAt_fst (sf : Nat) (base : Int) (a : Word) (stride : Int) (e : Nat) : (elemAt sf base a stride e).1 =
    if sf = 9 then (a.toNat : Int) + (base + e * stride) / 2 else base + e * stride * sfBytes sf := by
  simp only [elemAt, beq_iff_eq]
  split <;> rfl

theorem elemAt_snd (sf : Nat) (base : Int) (a : Word) (stride : Int) (e : Nat) :
    (elemAt sf base a stride e).2 = if sf = 9 then 1 else sfBytes sf := by
  simp only [elemAt, beq_iff_eq]
  split <;> rfl

/-! ### Hints, fences and waits -/

section
variable {f : MFmt} {s : State} (h : Accesses f.pr false false s)
include h

theorem exec_fence : exec (.fence f) s = .next (send (placedState s) f.t0 (opA (placedState s))) := by
  simp only [exec, execFence, memShell_accesses h]

theorem exec_pref_touches {u : State} {r : Run} {rs : List Run}
    (ht : checkRun (placedState s) (placedState s).cur.bay (placedState s).cur.part ⟨false, false, curSup (placedState s), true, none⟩ 0
      (eaOf f 1 (opA (placedState s))) 1 1 = (u, .ok (r :: rs))) :
    exec (.pref f) s = .next (if r.uncached then placedState s
      else l2Touch (placedState s) (placedState s).cur.part (curTree (placedState s)) r.pa false) := by
  simp only [exec, execPref, memShell_accesses h, ht]

theorem exec_pref_nothing
    (ht : ∀ r rs, (checkRun (placedState s) (placedState s).cur.bay (placedState s).cur.part ⟨false, false, curSup (placedState s), true, none⟩ 0
      (eaOf f 1 (opA (placedState s))) 1 1).2 ≠ .ok (r :: rs)) : exec (.pref f) s = .next (placedState s) := by
  simp only [exec, execPref, memShell_accesses h]

end

section
variable {f : MFmt} {s : State} (h : Accesses f.pr true false s)
include h

theorem exec_monitor {s1 : State} {r : Run} {rs : List Run}
    (ht : Translates (placedState s) (eaOf f 1 (opA (placedState s))) 1 1 false s1 (r :: rs)) : exec (.monitor f) s =
    .next (send (modFrame s1 s1.cur.part (curFrame s1) fun x => { x with mon := some ⟨r.pa / 64, 0, 0⟩ }) f.t0 (opA s1)) := by
  simp only [exec, execMonitor, memShell_accesses h, withRuns_translates ht]

theorem exec_qfence (hturn : inTurn (placedState s) = true) :
    exec (.qfence f) s = .next (send (putQfence f (turned (placedState s))) f.t0 (opA (turned (placedState s)))) := by
  simp only [exec, execQfence, markConsumed_acts h.1, memShell_accesses h, engGate_turn hturn]

variable {fr : Frame} (hf : frame? (placedState s) (placedState s).cur.part (curFrame (placedState s)) = some fr)
include hf

theorem exec_waitm_unarmed (hm : fr.mon = none) : exec (.waitm f) s = .next (send (placedState s) f.t0 6) := by
  simp only [exec, execWaitm, memShell_accesses h, hf, Option.bind_some, hm]

theorem exec_waitm_woken {m : Monitor} (hm : fr.mon = some m) (hc : m.cause ≠ 0) : exec (.waitm f) s =
    .next (send (modFrame (placedState s) (placedState s).cur.part (curFrame (placedState s)) fun x => { x with mon := none }) f.t0
      (if isDet (modFrame (placedState s) (placedState s).cur.part (curFrame (placedState s)) fun x => { x with mon := none })
        (placedState s).cur.part then 0 else BitVec.ofNat 64 m.cause)) := by
  simp only [exec, execWaitm, memShell_accesses h, hf, Option.bind_some, hm, bne_iff_ne.mpr hc, if_true]
  rfl

end

end Sys2Proof.Machine

open Sys2Proof.Machine

/-- Settles O21: a chain by its record, a read stream by the checks of `streamBind`, and the hints and waits by their equations. -/
theorem streamsHintsAndWaits : Obligations.StreamsHintsAndWaits := by
  unfold Obligations.StreamsHintsAndWaits
  refine ⟨?chains, ?binds, ?waits⟩
  case chains =>
    intro f s h t
    refine ⟨exec_stream_chain h, exec_streamKvBind_control h, fun s1 rs hc ht => ?_⟩
    intro r k
    exact ⟨exec_streamKvBind_installs h hc ht, exec_streamKvBind_refuses h hc ht⟩
  case waits =>
    intro f s t
    exact ⟨fun h => ⟨exec_fence h, fun u r rs => exec_pref_touches h, exec_pref_nothing h⟩,
      fun h => ⟨fun s1 r rs => exec_monitor h, exec_qfence h, fun fr hf => ⟨exec_waitm_unarmed h hf, fun m => exec_waitm_woken h hf⟩⟩⟩
  case binds =>
    intro f s h t c slot sf n count stride first base byte size lo hi fits free good
    have hbase : streamBase f t = base := by simp only [streamBase, beq_iff_eq]; rfl
    have hbyte : ∀ e, (elemAt f.sf.toNat (streamBase f t) (opA t) (streamStride t) e).1 = byte e := by
      intro e
      rw [elemAt_fst, hbase]
      rfl
    have hfits : streamFits f t = true ↔ fits := by
      rw [streamFits, streamExtent, extent_eq, hbyte, hbyte, elemAt_snd]
      simp only [Bool.or_eq_true, Bool.and_eq_true, beq_iff_eq, decide_eq_true_eq]
      rfl
    have hgood : good → fld c 62 2 ≠ 2 ∧ streamRefused f c = false := by
      rintro ⟨hd, hr, hcb⟩
      have hd2 : fld c 62 2 ≠ 2 := by rw [hd]; decide
      refine ⟨hd2, Bool.eq_false_iff.mpr fun hbad => ?_⟩
      rcases (streamRefused_iff hd2).mp hbad with h1 | h3 | ⟨-, h5 | ⟨h9, h61⟩⟩
      · exact absurd (hd.symm.trans h1) (by decide)
      · exact absurd (hd.symm.trans h3) (by decide)
      · exact h5 hr
      · exact absurd (hcb h9) (by rw [h61]; decide)
    refine ⟨fun hbad => ?_, fun hg hb => ?_, fun hg hb hn => ?_, fun hg hb hin h9 hal => ?_, fun hg hb hin hal => ?_⟩
    · have hd2 : fld c 62 2 ≠ 2 := by
        rcases hbad with h1 | h3 | ⟨h0, -⟩
        · rw [h1]; decide
        · rw [h3]; decide
        · rw [h0]; decide
      exact (exec_stream_binds h hd2).trans (congrArg Host.Outcome.next (streamBind_refused ((streamRefused_iff hd2).mpr hbad)))
    · obtain ⟨hd2, hok⟩ := hgood hg
      exact (exec_stream_binds h hd2).trans (congrArg Host.Outcome.next (streamBind_busy hok hb))
    all_goals
      obtain ⟨hd2, hok⟩ := hgood hg
      rw [exec_stream_binds h hd2, streamBind_free hok hb]
    · rw [Bool.eq_false_iff.mpr (mt hfits.mp hn), hbyte]
      rfl
    · have hmis : (f.sf.toNat != 9 && streamBase f t % (sfBytes f.sf.toNat : Int) != 0) = true := by
        rw [hbase, Bool.and_eq_true, bne_iff_ne, bne_iff_ne, show base = first from if_neg h9]
        exact ⟨h9, hal⟩
      rw [hfits.mpr hin, hmis, hbase, show base = first from if_neg h9]
      rfl
    · have hmis : (f.sf.toNat != 9 && streamBase f t % (sfBytes f.sf.toNat : Int) != 0) = false := by
        rw [Bool.and_eq_false_iff, bne_eq_false_iff_eq, bne_eq_false_iff_eq]
        by_cases h9 : sf = 9
        · exact .inl h9
        · rw [hbase, show base = first from if_neg h9]
          exact .inr (hal h9)
      rw [hfits.mpr hin, hmis]
      exact ⟨boundState f t, boundStream f t, rfl, rfl, stream?_boundState hb, rfl, rfl, rfl, rfl, hbase, rfl, rfl, rfl, rfl, rfl,
        codebook_boundState, rfl, rfl, rfl⟩
end

section
/-! Tokens between sending and firing (O28; R28, R155, R156, R160, R165, R177). -/
namespace Sys2Proof.Machine

/-! ### Arrival -/

section
variable {n : Nat} {s t : State} {x : Flight} (hx : s.net[n]? = some x) (hs : savedAway s x.part = false) (hi : inSlot s x.part = true)
  (hb : blockedBehind s.net n x = false)
include hx hs hi hb

/-- A token at the head of its way that its place takes arrives. -/
theorem exec_tokenArrival_arrives (ha : arrive { s with net := dropAt n s.net } x = some t) (hm : imageTouch s t x = .ok s) :
    exec (.tokenArrival n) s = .next t := by
  simp only [exec, execTokenArrival, hx, hs, hi, hb, ha, hm, Bool.not_true, Bool.or_self, Bool.false_eq_true, if_false, Option.getD_some]

end

theorem images_tagRange (s : State) (x : Flight) (u : Bool) : (tagRange s x u).images = s.images := by
  simp only [tagRange, deliverN, deliver, numbered]
  split
  · rfl
  · split <;> rfl

/-- A token that is reported touches no image. -/
theorem imageTouch_same {s t : State} {x : Flight} (h : t.images = s.images) : imageTouch s t x = .ok s := by
  have hfor : imageFor t x = imageFor s x := by rw [imageFor, imageFor, h]
  unfold imageTouch
  rw [hfor]
  cases imageFor s x with
  | none => rfl
  | some m => exact if_pos (beq_self_eq_true _)

theorem arrive_outOfRange {s : State} {x : Flight} (hc : x.cfg = none) (hr : inRange s x.part x.tok.tag.frame.toNat = false) :
    arrive s x = some (tagRange s x false) := by
  simp only [arrive, hc, hr, Option.isNone_none, Bool.not_false, Bool.and_self, if_true]

theorem arrive_noFrame {s : State} {x : Flight} (hc : x.cfg = none) (hr : inRange s x.part x.tok.tag.frame.toNat = true)
    (hf : frame? s x.part x.tok.tag.frame.toNat = none) : arrive s x = some (tagRange s x true) := by
  simp only [arrive, hc, hr, hf, Option.isNone_none, Bool.not_true, Bool.and_false, Bool.and_self, Bool.false_eq_true, if_false, if_true]

/-! ### Retries, gangs and ages -/

section
variable {n : Nat} {s : State} {e : QEntry} (he : s.queues[n]? = some e) (hs : savedAway s e.part = false)
include he hs

theorem exec_collisionRetry : exec (.collisionRetry n) s = .next (settle e (63 + s.queues.length + 1) s) := by
  simp only [exec, execCollisionRetry, he, hs, Bool.false_eq_true, if_false]
  congr 2
  omega

end

theorem settle_none {e : QEntry} {k : Nat} {s : State} (h : tryCell s e = none) : settle e (k + 1) s = s := by
  simp only [settle, h]

theorem settle_some {e : QEntry} {k : Nat} {s u : State} (h : tryCell s e = some u) : settle e (k + 1) s = settle e k u := by
  simp only [settle, h]

/-- The first gang that a cell issues, and the state in which it has issued and is not yet charged. -/
def gangOf (x : Inst) (xs : List Inst) : List Inst := x :: fillGang x [x.tag] xs (8 - lanes x)
def gangIssued (s : State) (bay cell p : Nat) (gang : List Inst) : State :=
  modPart { s with ready := gang.foldl (fun l i => l.erase i) s.ready, pipe := s.pipe ++ gang, issued := s.issued ++ [(bay, cell)] } p
    fun r => { r with widthAch := r.widthAch + BitVec.ofNat 64 gang.length }

theorem exec_gangIssue {bay cell p : Nat} {s : State} {x : Inst} {xs : List Inst} (hc : cell < 256) (ho : bayOwner s bay = some p)
    (hg : bayGated s p bay = false) (hi : s.issued.contains (bay, cell) = false) (hs : inSlot s p = true)
    (hl : issueOrder s (isDet s p) (s.ready.filter fun i => i.bay == bay && i.cell == cell && mayIssue s i) = x :: xs) :
    exec (.gangIssue bay cell) s = .next ((gangOf x xs).foldl (fun t i => charge t p (treeOf t p i.tag.frame.toNat) 2 (lanes i))
      (gangIssued s bay cell p (gangOf x xs))) := by
  have hcell : decide (256 ≤ cell) = false := decide_eq_false (Nat.not_le.mpr hc)
  simp only [exec, execGangIssue, ho, hcell, hg, hi, hs, hl, Bool.not_true, Bool.or_self, Bool.false_eq_true, if_false]
  rfl

theorem modify_of_getElem? {α : Type} {l : List α} {n : Nat} {x : α} (h : l[n]? = some x) (f : α → α) : l.modify n f = l.set n (f x) := by
  rw [@List.modify_eq_set _ ⟨x⟩, h, Option.getD_some]

theorem exec_priorityAging {n : Nat} {s : State} {i : Inst} (hi : s.ready[n]? = some i) (hw : 4096 ≤ i.wait) (hl : i.level ≠ 0) :
    exec (.priorityAging n) s = .next { s with ready := s.ready.set n { i with level := i.level - 1, wait := 0 } } := by
  have hage : (decide (4096 ≤ i.wait) && i.level != 0) = true := by rw [decide_eq_true hw, bne_iff_ne.mpr hl, Bool.and_self]
  simp only [exec, execPriorityAging, modify_of_getElem? hi, hage, if_true]

end Sys2Proof.Machine

open Sys2Proof.Machine

/-- Settles O28, by the equations of the four events. -/
theorem tokensMove : Obligations.TokensMove := by
  unfold Obligations.TokensMove
  refine ⟨?arrival, fun n s e he hs => ⟨fun hn => ?_, fun u hu => ?_⟩, ?gang, fun n s i => exec_priorityAging⟩
  case arrival =>
    intro n s t x hx hs hi hb out
    exact ⟨exec_tokenArrival_arrives hx hs hi hb,
      fun hc hr => exec_tokenArrival_arrives hx hs hi hb (arrive_outOfRange hc hr) (imageTouch_same (images_tagRange ..)),
      fun hc hr hf => exec_tokenArrival_arrives hx hs hi hb (arrive_noFrame hc hr hf) (imageTouch_same (images_tagRange ..))⟩
  case gang =>
    intro bay cell p s x xs hc ho hg hi hs hl gang t t'
    exact exec_gangIssue hc ho hg hi hs hl
  · exact (exec_collisionRetry he hs).trans (congrArg Host.Outcome.next (settle_none hn))
  · exact (exec_collisionRetry he hs).trans (congrArg Host.Outcome.next (settle_some hu))
end

section
/-! Launches, and the frames that start into free rows (O32, O33; R46, R166, R170–R175, R448–R451). -/
namespace Sys2Proof.Machine

/-- The first number below n for which f gives a value. -/
theorem findSome?_range_first {α : Type} {f : Nat → Option α} {v : α} {k n : Nat} (hk : k < n) (hbefore : ∀ j, j < k → f j = none)
    (hv : f k = some v) : (List.range n).findSome? f = some v := by
  induction n with
  | zero => exact absurd hk (Nat.not_lt_zero k)
  | succ n ih =>
    rw [List.range_succ, List.findSome?_append]
    rcases Nat.lt_succ_iff_lt_or_eq.mp hk with hlt | rfl
    · rw [ih hlt, Option.some_or]
    · rw [List.findSome?_eq_none_iff.mpr fun j hj => hbefore j (List.mem_range.mp hj), Option.none_or, List.findSome?_singleton, hv]

/-! ### Launches -/

section
variable {p : Nat} {s t : State} (hs : stopped s p = false)
include hs

section
variable {m : List Beat} {l : List (List Beat)} (hi : (part s p).inbox = m :: l) (hk : fld (m.headD 0) 120 8 = 1)
  (ht : timedFirst s p = false)
include hi hk ht

theorem exec_hostLaunchIntake_joins (hr : recordBad s p (recOf m) = none) (ha : appendLaunch s p ⟨recOf m, true⟩ = (t, true)) :
    exec (.hostLaunchIntake p) s = .next (popInbox t p) := by
  simp only [exec, execHostLaunchIntake, hi, hs, hk, ht, hr, ha, bne_self_eq_false, Bool.or_self, Bool.false_eq_true, if_false]

theorem exec_hostLaunchIntake_refused {b : BitVec 8 × Word × Word} (hr : recordBad s p (recOf m) = some b) :
    exec (.hostLaunchIntake p) s =
      .next (deliverN (popInbox s p) { recBase b.1 p with flags := flHost, g4 := b.2.1, g5 := b.2.2 } .nothing) := by
  simp only [exec, execHostLaunchIntake, hi, hs, hk, ht, hr, bne_self_eq_false, Bool.or_self, Bool.false_eq_true, if_false]

end

theorem exec_timedLaunchRelease_due {x : Timed} (hd : dueTimed (part s p) s.pkg.podTime = some x)
    (ha : appendLaunch s p ⟨x.rcd, false⟩ = (t, true)) :
    exec (.timedLaunchRelease p) s = .next (modPart t p fun r => { r with timed := r.timed.erase x }) := by
  simp only [exec, execTimedLaunchRelease, hs, hd, releaseTimed, ha, Bool.false_eq_true, if_false]

theorem exec_launchAdmission_first {k : Nat} (hl : live s p = true) (hk : k < 4)
    (hbefore : ∀ j, j < k → admitHead (refillAll s p) p j = none) (ha : admitHead (refillAll s p) p k = some t) :
    exec (.launchAdmission p) s = .next (refillAll t p) := by
  simp only [exec, execLaunchAdmission, hs, hl, Bool.not_true, Bool.or_self, Bool.false_eq_true, if_false,
    findSome?_range_first hk hbefore ha]

end

/-- A head that exceeds the headroom, or whose partition has spent its budget, is not admitted. -/
theorem admitHead_poor {s : State} {p k : Nat} {r : Queued} {l : List Queued} (hl : (part s p).launch.getD k [] = r :: l)
    (hp : headroom (part s p) < recLease r.rcd ∨ (part s p).enBudget.toNat ≤ (part s p).enUsed.toNat) : admitHead s p k = none := by
  simp only [admitHead, hl]
  cases freeFrame s p with
  | none => rfl
  | some num =>
    have hpoor : (((part s p).det && (part s p).roots.contains (recOrd r.rcd)) || decide (headroom (part s p) < recLease r.rcd) ||
        decide ((part s p).enBudget.toNat ≤ (part s p).enUsed.toNat) || rowClaimed s p) = true := by
      rcases hp with hp | hp <;> simp only [hp, decide_true, Bool.or_true, Bool.true_or]
    exact if_pos hpoor

/-! ### Frames that reload -/

section
variable {p bay : Nat} {s : State} (hr : 0 < freeRows s bay) (hw : trapWants s p = false) (hd : departing (part s p) bay = false)
  (hh : (part s p).preHalted = false)
include hr hw hd hh

theorem exec_frameReload_full {f : Frame} (hf : lowestName ((spilledOf s p bay).filter (appendFull s)) = some f) :
    exec (.frameReload p bay) s = .next (meetLate (reload s f) p f.num) := by
  simp only [exec, execFrameReload, beq_false_of_ne (Nat.ne_of_gt hr), hw, hd, hh, hf, Bool.or_self, Bool.false_eq_true, if_false]

theorem exec_frameReload_other {f : Frame} (hn : lowestName ((spilledOf s p bay).filter (appendFull s)) = none)
    (hf : lowestName (spilledOf s p bay) = some f) (hq : (s.deferred.any fun d => d.part == p) = false ∨ freeFrame s p = none) :
    exec (.frameReload p bay) s = .next (meetLate (reload s f) p f.num) := by
  have hnone : ((s.deferred.any fun d => d.part == p) && (freeFrame s p).isSome) = false := by rcases hq with hq | hq <;> simp [hq]
  simp only [exec, execFrameReload, beq_false_of_ne (Nat.ne_of_gt hr), hw, hd, hh, hn, hf, hnone, Bool.or_self, Bool.false_eq_true, if_false]

end

/-! ### Deferred spawns and trap frames -/

theorem exec_deferredSpawnAllocation {p bay num : Nat} {s t : State} {d : SpawnRec} (hw : trapWants s p = false)
    (hd : s.deferred.find? (fun d => d.part == p) = some d) (hn : freeFrame s p = some num) (hb : roomiest s p = some bay)
    (hs : stopped s p = false) (hf : (spilledOf s p bay).any (appendFull s) = false)
    (ht : startFrame s { newFrame p num 0 0 d.fname with pri := d.pri, tree := d.tree, fpc := d.fpc, parent := d.parent } bay d.addr = .ok t) :
    exec (.deferredSpawnAllocation p bay) s =
      .next (entryToken { t with deferred := t.deferred.erase d } p num 0 (slotNo d.slot * 128 + d.idx) d.arg) := by
  simp only [exec, execDeferredSpawnAllocation, hd, hn, hb, hw, hs, hf, bne_self_eq_false, Bool.or_self, Bool.false_eq_true, if_false, ht]

/-- The trap frame of a record. -/
def trapFrame (p num : Nat) (x : TrapItem) : Frame :=
  { newFrame p num 0 0 0 with trap := some x, g := recWords x.rcd ++ List.replicate 56 0 }

/-- Where the trap frame of a record starts. -/
def trapEntry (s : State) (p : Nat) (x : TrapItem) : Word := x.vec.getD (part s p).trapVec

section
variable {p : Nat} {s : State} {x : TrapItem} {l : List TrapItem} (hq : (part s p).trapQ = x :: l) (hs : stopped s p = false)
  (hf : faultsNow s x = false)
include hq hs hf

theorem exec_trapFrameAllocation_halts (hv : trapEntry s p x = 0) : exec (.trapFrameAllocation p) s = .next (haltWhole s p x) := by
  have hv' : (x.vec.getD (part s p).trapVec == 0) = true := beq_iff_eq.mpr hv
  simp only [exec, execTrapFrameAllocation, hq, hs, hf, hv', Bool.or_self, Bool.false_eq_true, if_false, if_true]

theorem exec_trapFrameAllocation_starts {num bay : Nat} {u t : State} (hv : trapEntry s p x ≠ 0) (hl : liveTraps s p < 16)
    (hn : freeFrame s p = some num) (hr : launchRoom s p = .row u bay) (hd : isDet u p = false)
    (ht : startFrame u (trapFrame p num x) bay (trapEntry u p x) = .ok t) :
    exec (.trapFrameAllocation p) s = .next (notifyFault (modPart t p fun r => { r with trapQ := r.trapQ.drop 1 }) p) := by
  have hv' : (x.vec.getD (part s p).trapVec == 0) = false := beq_false_of_ne hv
  rw [trapFrame, trapEntry] at ht
  simp only [exec, execTrapFrameAllocation, hq, hs, hf, hv', Bool.or_self, Bool.false_eq_true, if_false, Nat.not_le.mpr hl, hn, hr, hd, ht]

end

end Sys2Proof.Machine

open Sys2Proof.Machine

/-- Settles O32, by the equations of the launch events. -/
theorem launches : Obligations.Launches := by
  unfold Obligations.Launches
  exact fun p s t hs => ⟨fun m l hi hk ht => ⟨exec_hostLaunchIntake_joins hs hi hk ht, fun c x y => exec_hostLaunchIntake_refused hs hi hk ht⟩,
    fun x => exec_timedLaunchRelease_due hs, fun k => exec_launchAdmission_first hs, fun k r l => admitHead_poor⟩

/-- Settles O33, by the equations of reloads, deferred spawns and trap frames. -/
theorem framesStart : Obligations.FramesStart := by
  unfold Obligations.FramesStart
  refine ⟨fun p bay s hr hw hd hh => ⟨fun f => exec_frameReload_full hr hw hd hh, fun f => exec_frameReload_other hr hw hd hh,
    fun d num t => exec_deferredSpawnAllocation hw⟩, fun p s x l hq hs hf => ?_⟩
  intro vec
  exact ⟨exec_trapFrameAllocation_halts hq hs hf, fun hv hl num bay u t hn hr hd ht => exec_trapFrameAllocation_starts hq hs hf hv hl hn hr hd ht⟩
end

section
/-! The events of blocks (O30; R33, R34, R38, R292, R358). -/
namespace Sys2Proof.Machine

section
variable {p f : Nat} {s : State} {fr : Frame} (hf : frame? s p f = some fr) (hr : fr.resident = true)
include hf hr

theorem exec_blockFetch_fetches {k : Option Nat} {a : Word} {spec : Bool} (hx : fr.fault = none) (he : fr.ending = false)
    (hg : bayGated s p fr.bay = false) (hl : (blocksOf s p f).length < 4) (ht : fetchTarget s fr k = some (a, spec))
    (hn : ∀ b ∈ blocksOf s p f, b.addr ≠ a) : exec (.blockFetch p f k) s = .next (fetchAt s fr a spec) := by
  have hnew : ((blocksOf s p f).any fun b => b.addr == a) = false := by simpa using hn
  have hroom : decide (4 ≤ (blocksOf s p f).length) = false := decide_eq_false (Nat.not_le.mpr hl)
  simp only [exec, execBlockFetch, hf, hr, hx, he, hg, hroom, ht, hnew, Bool.not_true, Option.isSome_none, Bool.or_self, Bool.false_eq_true,
    if_false]

section
variable {b : Block} (hg : bayGated s p fr.bay = false)
  (hb : (blocksOf s p f).find? (fun b => displaced b || (b.places.isEmpty && b.held.isNone)) = some b)
include hg hb

theorem exec_blockPlacement_displaced (hd : displaced b = true) : exec (.blockPlacement p f) s = .next (replaceBlock s fr b) := by
  simp only [exec, execBlockPlacement, hf, hr, hg, hb, hd, Bool.not_true, Bool.or_self, Bool.false_eq_true, if_false, if_true]

/-- The state in which a block has its cell-contexts and its reads fire. -/
def placedBlock (s : State) (p f : Nat) (fr : Frame) (b : Block) (pl : List (Nat × Nat)) : State :=
  let t := modBlock s p f b.seq fun b => { b with places := pl }
  { t with ready := t.ready ++ readInsts t fr b pl }

theorem exec_blockPlacement_first {pl : List (Nat × Nat)} (hd : displaced b = false)
    (hp : assignPlaces b.words (freePlaces s fr.bay) = some pl) (hfit : readyFits s (readInsts s fr b pl) = true) :
    exec (.blockPlacement p f) s = .next (placedBlock s p f fr b pl) := by
  simp only [exec, execBlockPlacement, hf, hr, hg, hb, hd, hp, hfit, Bool.not_true, Bool.or_self, Bool.false_eq_true, if_false]
  rfl

end

section
variable {b : Block} (hx : fr.fault = none) (hs : savedAway s p = false) (hb : (blocksOf s p f).head? = some b) (hp : b.places ≠ [])
  (hi : inFlight s p f b.seq = false)
include hx hs hb hp hi

/-- The record of a commit that fails, before its code and its details. -/
def commitRec (p f : Nat) (fr : Frame) (b : Block) : FaultRec :=
  { recBase F_NOEXIT p with
    bseq := b.seq, tag := tagWord ⟨BitVec.ofNat 20 f, 0, 0⟩, bay := fr.bay, fname := fr.fname, addr := b.addr,
    g4 := BitVec.ofNat 64 (missingWrites b),
    g5 := BitVec.ofNat 64 (missingStores b * pow2 32 + missingSofts b * 256 + (if b.exit.isSome then 1 else 0)) }

theorem exec_blockCommit_noExit (hm : receiptsMet b = false) :
    exec (.blockCommit p f) s = .next (haltFrame s p f b.seq (commitRec p f fr b)) := by
  have hpl : b.places.isEmpty = false := by simpa using hp
  simp only [exec, execBlockCommit, hf, hb, hs, hpl, hr, hx, hi, hm, Option.isSome_none, Bool.not_true, Bool.not_false, Bool.or_self,
    Bool.false_eq_true, if_false, if_true]
  rfl

theorem exec_blockCommit_dup {x : Nat × Option Word} {v : Nat × Option Word} (hm : receiptsMet b = true) (hret : b.ret = some x)
    (hh : fr.retHold = some v) : exec (.blockCommit p f) s = .next (haltFrame s p f b.seq
      { commitRec p f fr b with code := F_DUPTOK, index := x.1, g4 := v.2.getD 0, g5 := x.2.getD 0, aux := 0xC00 }) := by
  have hpl : b.places.isEmpty = false := by simpa using hp
  simp only [exec, execBlockCommit, hf, hb, hs, hpl, hr, hx, hi, hm, hret, hh, Option.isSome_none, Option.isSome_some, Bool.not_true,
    Bool.or_self, Bool.and_self, Bool.false_eq_true, if_false, if_true]
  rfl

theorem exec_blockCommit_commits (hm : receiptsMet b = true) (hret : b.ret = none ∨ fr.retHold = none)
    (ht : (s.stores.any fun h => h.part == p && h.frame == f && h.seq == b.seq && h.region.isNone) = false ∨ blockTurn s p f = true)
    (he : editCheck s fr b = none) : exec (.blockCommit p f) s = .next (commitBlock s fr b none) := by
  have hpl : b.places.isEmpty = false := by simpa using hp
  have honce : (b.ret.isSome && fr.retHold.isSome) = false := by rcases hret with h | h <;> simp [h]
  have hturn : ((s.stores.any fun h => h.part == p && h.frame == f && h.seq == b.seq && h.region.isNone) && !blockTurn s p f) = false := by
    rcases ht with h | h <;> simp only [h, Bool.false_and, Bool.not_true, Bool.and_false]
  simp only [exec, execBlockCommit, hf, hb, hs, hpl, hr, hx, hi, hm, honce, hturn, he, Option.isSome_none, Bool.not_true, Bool.or_self,
    Bool.false_eq_true, if_false]

end

/-- The state in which a parked frame goes on at the address of its exitg token. -/
def resumedState (s : State) (n : Nat) (x : ExitgTok) : State :=
  modFrame { s with exitgs := dropAt n s.exitgs } x.part x.tok.tag.frame.toNat
    fun fr => { fr with parked := false, nextAddr := some x.addr, resumed := some x.tok.ord }

theorem exec_exitgResume_resumes {n : Nat} {x : ExitgTok} (hx : fr.fault = none) (hn : s.exitgs[n]? = some x) (hpart : x.part = p)
    (hframe : x.tok.tag.frame.toNat = f) (hpk : fr.parked = true) (hb : blocksOf s p f = []) (hs : stopped s p = false)
    (he : exitgBehind s n x = false) :
    exec (.exitgResume n) s = .next (entryToken (resumedState s n x) p f 0 (slotNo x.slot * 128 + x.idx) x.tok.data) := by
  subst hpart hframe
  simp only [exec, execExitgResume, hn, hf, hr, hx, hpk, hb, hs, he, List.isEmpty_nil, Option.isSome_none, Bool.not_true, Bool.or_self,
    Bool.false_eq_true, if_false]
  rfl

end

end Sys2Proof.Machine

open Sys2Proof.Machine

/-- Settles O30, by the equations of the events of blocks. -/
theorem blockEvents : Obligations.BlockEvents := by
  unfold Obligations.BlockEvents
  intro p f s fr hf hr hx
  refine ⟨fun k a spec => exec_blockFetch_fetches hf hr hx, fun b pl hg hb => ⟨exec_blockPlacement_displaced hf hr hg hb, ?first⟩,
    fun b hs hb hp hi => ⟨exec_blockCommit_commits hf hr hx hs hb hp hi, fun hm x v hret hh => ?dup, fun hm => ?noExit⟩, ?resumes⟩
  case first =>
    intro hd hpl hfit t
    exact exec_blockPlacement_first hf hr hg hb hd hpl hfit
  case dup => exact ⟨_, exec_blockCommit_dup hf hr hx hs hb hp hi hm hret hh, rfl, rfl, rfl, rfl, rfl⟩
  case noExit => exact ⟨_, exec_blockCommit_noExit hf hr hx hs hb hp hi hm, rfl, rfl, rfl, rfl, rfl⟩
  case resumes =>
    intro n x hn hpart hframe hpk hb hs he t
    have hexec := exec_exitgResume_resumes hf hr hx hn hpart hframe hpk hb hs he
    subst hpart hframe
    exact hexec
end

section
/-! The events of grid regions (O35; R126, R218–R231, R365). -/
namespace Sys2Proof.Machine

/-! ### Placement -/

/-- The state in which a request is placed and has its handle. -/
def placedRegion (v : State) (n : Nat) (i : Inst) (m : Img × List Word) (ft : Fit) : State :=
  sendBack (installRegion { v with waits := dropAt n v.waits } i.part m.1 ft m.2 (engineKey v i)) [(xWord i).t0]
    (BitVec.ofNat 64 (ft.bay * 2 ^ 32 + ft.idx * 256 + ft.ebase))

theorem exec_regionPlacement_places {n : Nat} {s t v : State} {i : Inst} {m : Img × List Word} {ft : Fit} (hi : s.waits[n]? = some i)
    (hs : savedAway s i.part = false) (ho : opOf i.word = 0x83) (hst : i.stage = some 9) (ht : accessTurn { s with cur := i } = true)
    (hr : cfgreqRead (xWord i) { s with cur := i } = (t, .ok m)) (hf : findFit t i.part i.bay m.1.w m.1.h m.1.c m.1.ne = some ft)
    (hv : (if m.1.ck then atticTouch t i.part (1152 * m.1.w * m.1.h * m.1.c) true true else .ok t) = .ok v) :
    exec (.regionPlacement n) s = .next { placedRegion v n i m ft with cur := s.cur } := by
  simp only [exec, execRegionPlacement, hi, hs, ho, hst, ht, hr, hf, hv, beq_self_eq_true, Bool.and_self, Bool.not_true, Bool.or_self,
    Bool.false_eq_true, if_false, placedRegion, pow2_eq_two_pow]

/-! ### Drains -/

/-- What a drain answers: residue, discards and flags. -/
def drainValue (s : State) (r : Region) : Word :=
  BitVec.ofNat 64 (min 0xFFFF (r.residue + restingOf s r) * 2 ^ 48 + discSum s r * 2 ^ 32) + BitVec.setWidth 64 r.flags

/-- The state in which the tokens of a drained region are dropped and the instruction that asked goes on. -/
def drainedState (s : State) (r : Region) (n : Nat) (i : Inst) : State := { dropResting s r with waits := dropAt n s.waits, cur := i }

/-- A drained region open again. -/
def reopened (s : State) (bay g : Nat) : State :=
  let d := modRegion s bay g fun r => { r with closed := false, flags := 0, residue := 0 }
  { d with ctxs := updWhere (fun c => c.bay == bay && c.region == g) (fun c => { c with disc := 0 }) d.ctxs }

section
variable {bay g n : Nat} {s t : State} {r : Region} {i : Inst} (hr : region? s bay g = some r) (hw : drainer s r = some (n, i))
  (hs : savedAway s r.part = false) (hd : drained s r = true)
include hr hw hs hd

theorem exec_regionDrainComplete_releases (hh : holdsOut s r = true) (ht : takeCkpt s r [] = .ok t) :
    exec (.regionDrainComplete bay g) s = .next t := by
  simp only [exec, execRegionDrainComplete, hr, Option.bind_some, hw, hs, hd, hh, ht, Bool.not_true, Bool.or_self, Bool.false_eq_true, if_false,
    if_true]

theorem exec_regionDrainComplete_frees (hh : holdsOut s r = false) (ho : opOf i.word = 0x84) : exec (.regionDrainComplete bay g) s =
    .next { sendBack (freeRegion (drainedState s r n i) bay g) [(getA i.word).t0, (getA i.word).t1] (drainValue s r) with cur := s.cur } := by
  simp only [exec, execRegionDrainComplete, hr, Option.bind_some, hw, hs, hd, hh, ho, beq_self_eq_true, Bool.not_true, Bool.or_self,
    Bool.false_eq_true, if_false, if_true, pow2_eq_two_pow]
  rfl

theorem exec_regionDrainComplete_reopens (hh : holdsOut s r = false) (ho : opOf i.word ≠ 0x84) : exec (.regionDrainComplete bay g) s =
    .next { sendBack (reopened (drainedState s r n i) bay g) [(getA i.word).t0, (getA i.word).t1] (drainValue s r) with cur := s.cur } := by
  simp only [exec, execRegionDrainComplete, hr, Option.bind_some, hw, hs, hd, hh, beq_false_of_ne ho, Bool.not_true, Bool.or_self,
    Bool.false_eq_true, if_false, pow2_eq_two_pow]
  rfl

end

/-! ### Calls and returns -/

section
variable {bay g : Nat} {s t : State} {r : Region} {i : Inst} {addr : Word} (hr : region? s bay g = some r) (hp : r.phase = .callGate i addr)
  (hs : savedAway s r.part = false) (hd : settledRegion s r = true)
include hr hp hs hd

theorem exec_gcallSettled_unread {c : BitVec 8} {g4 g5 : Word}
    (hm : readImage s bay r.part true (tagWord i.tag) (treeOf s r.part i.tag.frame.toNat) addr = (t, .error (.bad c g4 g5))) :
    exec (.gcallSettled bay g) s = .next (gcallFault t bay g i c g4 g5) := by
  simp only [exec, execGcallSettled, hr, hp, hs, hd, hm, Bool.not_true, Bool.or_self, Bool.false_eq_true, if_false]

variable {m : Img} (hm : readImage s bay r.part true (tagWord i.tag) (treeOf s r.part i.tag.frame.toNat) addr = (t, .ok m))
include hm

theorem exec_gcallSettled_refused {b : BitVec 8 × Word × Word} (hb : callBad t r m i.word = some b) :
    exec (.gcallSettled bay g) s = .next (gcallFault t bay g i b.1 b.2.1 b.2.2) := by
  simp only [exec, execGcallSettled, hr, hp, hs, hd, hm, hb, Bool.not_true, Bool.or_self, Bool.false_eq_true, if_false]

theorem exec_gcallSettled_pushes {eb : Nat} {v : State} (hb : callBad t r m i.word = none) (he : entryRun t r.part r.name.1 m.ne = some eb)
    (hv : (if 4 ≤ chipPlanes r then atticTouch t r.part (planeBytes r) true true else .ok t) = .ok v) :
    exec (.gcallSettled bay g) s = .next (pushPlane v r i m eb) := by
  simp only [exec, execGcallSettled, hr, hp, hs, hd, hm, hb, he, hv, Bool.not_true, Bool.or_self, Bool.false_eq_true, if_false]

end

theorem exec_gretThaw_pops {bay g : Nat} {s t : State} {r : Region} {i : Inst} {pl : Plane} {rest : List Plane}
    (hr : region? s bay g = some r) (hp : r.phase = .retGate i) (hl : r.planes = pl :: rest) (hs : savedAway s r.part = false)
    (hd : settledRegion s r = true) (hf : r.fault = none) (hfit : planeFits s r pl = true)
    (ht : (if pl.attic then atticTouch s r.part (planeBytes r) false false else .ok s) = .ok t) :
    exec (.gretThaw bay g) s = .next (pairRegion (popPlane t r pl rest) bay g) := by
  simp only [exec, execGretThaw, hr, hp, hl, hs, hd, hf, hfit, ht, Option.isSome_none, Bool.not_true, Bool.or_self, Bool.false_eq_true, if_false]

/-! ### Configuration errors -/

section
variable {bay g : Nat} {s : State} {r : Region} (hr : region? s bay g = some r) (hf : r.fault = none)
  (hb : (regionCtxs s r).any (·.bad) = true)
include hr hf hb

section
variable (hc : r.ck = false)
include hc

theorem exec_configEccRecovery_gates (hp : r.phase = .run) :
    exec (.configEccRecovery bay g) s = .next (modRegion s bay g fun r => { r with phase := .eccGate }) := by
  simp only [exec, execConfigEccRecovery, hr, hf, hb, hc, hp, Option.isSome_none, Bool.not_true, Bool.or_self, Bool.false_eq_true, if_false,
    beq_self_eq_true, if_true]

variable (hp : r.phase = .eccGate) (hd : settledRegion s r = true)
include hp hd

theorem exec_configEccRecovery_reloads (hg : copyGood (modRegion s bay g fun r => { r with phase := .run }) r = true) :
    exec (.configEccRecovery bay g) s = .next (pairRegion { modRegion s bay g (fun r => { r with phase := .run }) with
      ctxs := updWhere (fun c => c.bay == bay && c.region == g && c.bad) reloadCtx s.ctxs } bay g) := by
  have hne : (RegPhase.eccGate == RegPhase.run) = false := by decide
  simp only [exec, execConfigEccRecovery, hr, hf, hb, hc, hp, hd, hne, hg, Option.isSome_none, Bool.not_true, Bool.or_self, Bool.false_eq_true,
    if_false, beq_self_eq_true, if_true]
  rfl

theorem exec_configEccRecovery_fails (hg : copyGood (modRegion s bay g fun r => { r with phase := .run }) r = false) :
    exec (.configEccRecovery bay g) s = .next (cfgEcc (modRegion s bay g fun r => { r with phase := .run }) r) := by
  have hne : (RegPhase.eccGate == RegPhase.run) = false := by decide
  simp only [exec, execConfigEccRecovery, hr, hf, hb, hc, hp, hd, hne, hg, Option.isSome_none, Bool.not_true, Bool.or_self, Bool.false_eq_true,
    if_false, beq_self_eq_true, if_true]

end

section
variable {ck : Ckpt} (hc : r.ck = true) (hk : r.ckpt = some ck)
include hc hk

theorem exec_checkpointRecovery_fails (hg : copyGood s r = false) : exec (.checkpointRecovery bay g) s = .next (cfgEcc s r) := by
  simp only [exec, execCheckpointRecovery, hr, hf, hb, hc, hk, hg, Option.isSome_none, Bool.not_true, Bool.not_false, Bool.or_self,
    Bool.false_eq_true, if_false, if_true]

/-- The state in which a region's checkpoint is about to be restored: its held stores and exits are dropped, and its logged entry
tokens stand in front. -/
def beforeRestore (u : State) (r : Region) (ck : Ckpt) (bay g : Nat) : State :=
  modRegion { u with stores := u.stores.filter (fun h => !(h.bay == bay && h.region == some g)),
                     net := r.entryLog.map (fun x => { x with sender := replaySender r }) ++
                       u.net.filter fun x => !toRegion r x && !callArg r x && !replays r x }
    bay g fun r => { r with exitHold := [], entryLog := [], planes := ck.under }

theorem exec_checkpointRecovery_restores {u : State} (hg : copyGood s r = true) (hfit : planeFits s r ck.top = true)
    (hu : atticTouch s r.part (planeBytes r) false false = .ok u) : exec (.checkpointRecovery bay g) s =
      .next (pairRegion (sendReplies (loadPlane (beforeRestore u r ck bay g) r ck.top) ck.sent) bay g) := by
  simp only [exec, execCheckpointRecovery, hr, hf, hb, hc, hk, hg, hfit, hu, Option.isSome_none, Bool.not_true, Bool.or_self,
    Bool.false_eq_true, if_false]
  rfl

end

end

/-- A choice that answers in either case. -/
theorem ite_ok {c : Bool} {x : Except State State} {t v : State} (h : (c = false ∧ v = t) ∨ (c = true ∧ x = .ok v)) :
    (if c then x else .ok t) = .ok v := by
  rcases h with ⟨rfl, rfl⟩ | ⟨rfl, hx⟩
  · rfl
  · exact hx

end Sys2Proof.Machine

open Sys2Proof.Machine

/-- Settles O35, by the equations of the regions' events. -/
theorem regionEvents : Obligations.RegionEvents := by
  unfold Obligations.RegionEvents
  refine ⟨⟨?place, ?drain, ?call, ?pop⟩, fun bay g s r hr hf hb => ⟨exec_configEccRecovery_gates hr hf hb, fun hc hp hd => ?ecc,
    fun ck hc hk => ⟨exec_checkpointRecovery_fails hr hf hb hc hk, fun u hg hfit hu => ?restore⟩⟩⟩
  case place =>
    intro n s t i m ft hi hs ho hst ht hr hf v hv u
    exact exec_regionPlacement_places hi hs ho hst ht hr hf (ite_ok hv)
  case drain =>
    intro bay g n s t r i hr hw hs hd res v u answer
    exact ⟨exec_regionDrainComplete_releases hr hw hs hd, exec_regionDrainComplete_frees hr hw hs hd,
      exec_regionDrainComplete_reopens hr hw hs hd⟩
  case call =>
    intro bay g eb s t r i addr m hr hp hs hd read refused
    refine ⟨fun c g4 g5 => exec_gcallSettled_unread hr hp hs hd, fun c g4 g5 hm => exec_gcallSettled_refused hr hp hs hd hm,
      fun hm hb he v hv => exec_gcallSettled_pushes hr hp hs hd hm hb he ?_⟩
    rcases hv with ⟨hlt, rfl⟩ | ⟨hle, hv⟩
    · exact if_neg (Nat.not_le.mpr hlt)
    · exact (if_pos hle).trans hv
  case pop =>
    intro bay g s t r i pl rest hr hp hl hs hd hf hfit ht
    exact exec_gretThaw_pops hr hp hl hs hd hf hfit (ite_ok ht)
  case ecc =>
    intro t
    exact ⟨exec_configEccRecovery_reloads hr hf hb hc hp hd, exec_configEccRecovery_fails hr hf hb hc hp hd⟩
  case restore =>
    intro again v w
    exact ⟨exec_checkpointRecovery_restores hr hf hb hc hk hg hfit hu, rfl, rfl, rfl⟩
end

section
/-! Matrix commands (O36; R76, R77, R400, R401). -/
namespace Sys2Proof.Machine

/-- An accumulator word that is reached is accessed in the state that reaching it leaves. -/
theorem withAcc_reached {α : Type} {s u : State} {c : Cmd} {w : Nat} {store : Bool} {go : State → State × Got α}
    (h : withAcc s c w store (fun s => (s, .val ())) = (u, .val ())) : withAcc s c w store go = go u := by
  unfold withAcc withParked at h ⊢
  cases hp : parkedTouch s c.part c.bay (pow2 22 + 4 * w) 4 store with
  | error v => rw [hp] at h; cases h
  | ok v =>
    rw [hp] at h
    obtain ⟨rfl, -⟩ := Prod.mk.inj h
    rfl

/-- One element of accld, and of accst. -/
def accldElem (s : State) (c : Cmd) : State :=
  gotten c (readElem s c (c.beats.getD 0 0) 0 (c.pos / 128) (c.pos % 128) 0) fun s v => accFill s c (rangeWord c) (fld v 0 32)
def accstElem (s : State) (c : Cmd) : State :=
  gotten c (readAcc s c (rangeWord c) false) fun s v => accstBits c (c.beats.getD 0 0) s v fun s x =>
    gotten c (writeElem s c (c.beats.getD 0 0) 0 (c.pos / 128) (c.pos % 128) 0 x) fun s _ => s
def accstWord (c : Cmd) : Option Nat := wordOf (c.beats.getD 0 0) 0 (c.pos / 128) (c.pos % 128)

section
variable {r : QRef} {n : Nat} {s : State} {c : Cmd}

theorem exec_mmCommand (h : InEngine s r 0x10 c) : exec (.mmCommand r n) s =
    .next (runElems (mmM (c.beats.getD 2 0) * mmN (c.beats.getD 2 0)) noWord mmElem c.id n s) := by
  simp only [exec, execMmCommand, withCmd_inEngine h]

theorem exec_accldCommand (h : InEngine s r 0x12 c) : exec (.accldCommand r n) s =
    .next (runElems (accRows c.hdr * 128) noWord accldElem c.id n s) := by
  simp only [exec, execAccldCommand, withCmd_inEngine h]
  rfl

theorem exec_accstCommand (h : InEngine s r 0x13 c) : exec (.accstCommand r n) s =
    .next (runElems (accRows c.hdr * 128) accstWord accstElem c.id n s) := by
  simp only [exec, execAccstCommand, withCmd_inEngine h]
  rfl

end

/-- An element of mm whose operands and whose accumulator word answer adds its products. -/
theorem mmElem_adds {s u v w : State} {c : Cmd} {a b x : Beat} {xs ys : List Word} {i j k acc : Nat} (ha : c.beats.getD 0 0 = a)
    (hb : c.beats.getD 1 0 = b) (hx : c.beats.getD 2 0 = x) (hi : c.pos / mmN x = i) (hj : c.pos % mmN x = j) (hk : mmK x = k)
    (hacc : accIndex (mmTile x) (mmRow x + i) (mmCol x + j) = acc) (hrow : ReadsAll s c a 0 (mmRow' a i k) u xs)
    (hcol : ReadsAll u c b 0 (if mmTb x then mmRow' b j k else mmColOf b j k) v ys)
    (hw : withAcc v c acc true (fun s => (s, .val ())) = (w, .val ())) (hp : w.poison.contains (.acc, accKey c.bay acc / 8) = false) :
    mmElem s c = accPut (charge w c.part (cmdTree c) (if mmInt x then 1 else 0) k) c acc
      (if mmInt x then mmSumInt (accWord w c acc) (xs.zip ys)
        else mmSum ((k + 31) / 32) (accWord w c acc) ((xs.zip ys).map fun p => (fld p.1 0 32, fld p.2 0 32))) := by
  have hread : readAcc v c acc true = (w, .val (accWord w c acc)) := by
    rw [readAcc, withAcc_reached hw, hp]
    rfl
  rw [ReadsAll] at hrow hcol
  simp only [mmElem, ha, hb, hx, hi, hj, hk, hacc, hrow, hcol, hread, gotten_val]

end Sys2Proof.Machine

open Sys2Proof.Machine

/-- Settles O36: the commands run their elements, and `runElems_performed` says how a run whose elements answer ends. -/
theorem matrixCommands : Obligations.MatrixCommands := by
  unfold Obligations.MatrixCommands
  refine ⟨?commands, ?element⟩
  case commands =>
    intro r n m s t c d hm hd x load store
    exact ⟨exec_mmCommand, fun h hp => (exec_mmCommand h).trans (congrArg Host.Outcome.next (runElems_performed n hm hp hd)),
      exec_accldCommand, fun h hp => (exec_accldCommand h).trans (congrArg Host.Outcome.next (runElems_performed n hm hp hd)),
      exec_accstCommand, fun h hp => (exec_accstCommand h).trans (congrArg Host.Outcome.next (runElems_performed n hm hp hd))⟩
  case element =>
    intro s u v w c xs ys a b x i j k at_ hx hy hw hp old
    exact mmElem_adds rfl rfl rfl rfl rfl rfl rfl hx hy hw hp
end

section
/-! Copy commands (O38; R249, R263, R264, R402, R403). -/
namespace Sys2Proof.Machine

section
variable {r : QRef} {n : Nat} {s : State} {c : Cmd} (h : InEngine s r 0x20 c)
include h

/-- The copy at the head of its queue has the mode of its control beat. -/
theorem headMode_inEngine : headMode s r = some (cpMode (c.beats.getD 2 0)) := by
  obtain ⟨hhead, -, -, -, -, -, hissued, -⟩ := h
  simp only [headMode, hhead, Option.bind_some, hissued, Bool.or_true, if_true]

theorem exec_copyCommand_plain (hm : cpMode (c.beats.getD 2 0) = 0) : exec (.copyCommand r n) s =
    .next (runElems (cpN0 (c.beats.getD 2 0) * cpN1 (c.beats.getD 2 0) * cpN2 (c.beats.getD 2 0)) copyWord copyElem c.id n s) := by
  have hplain : (some 0 == some 1 || some 0 == some 2) = false := rfl
  simp only [exec, execCopyCommand, headMode_inEngine h, hm, hplain, Bool.false_eq_true, if_false, withCmd_inEngine h, bne_self_eq_false]

theorem exec_copySeal (hm : cpMode (c.beats.getD 2 0) = 1) : exec (.copySeal r) s = .next (sealPage s c) := by
  simp only [exec, execCopySeal, headMode_inEngine h, hm, bne_self_eq_false, Bool.false_eq_true, if_false, withCmd_inEngine h]

theorem exec_copyOpen (hm : cpMode (c.beats.getD 2 0) = 2) : exec (.copyOpen r) s = .next (openPageCopy s c) := by
  simp only [exec, execCopyOpen, headMode_inEngine h, hm, bne_self_eq_false, Bool.false_eq_true, if_false, withCmd_inEngine h]

end

/-- What an opening copy finds in a page: nothing where its trailer is of another epoch. -/
def opened (c : Cmd) (trailer bs : List Byte) : Option (List Byte) :=
  if trailer.take 4 = toBytes 4 (fld c.nonce 0 32) then
    gcmOpen (toBytes 32 ((c.key.getD 0).toNat)) (trailer.take 12) (sealAad c.part (oVa (c.beats.getD 1 0))) bs (trailer.drop 16)
  else none

theorem opened_eq (c : Cmd) (trailer bs : List Byte) : (if trailer.take 4 != toBytes 4 (fld c.nonce 0 32) then none
    else gcmOpen (toBytes 32 ((c.key.getD 0).toNat)) (trailer.take 12) (sealAad c.part (oVa (c.beats.getD 1 0))) bs (trailer.drop 16)) =
      opened c trailer bs := by
  by_cases h : trailer.take 4 = toBytes 4 (fld c.nonce 0 32)
  · rw [opened, if_pos h, if_neg (by simp [h])]
  · rw [opened, if_neg h, if_pos (by simp [h])]

section
variable {s u v w : State} {c : Cmd} {ss ds ts : List Run} (hs : RunsAt s c false (oVa (c.beats.getD 0 0)) 16384 8 u ss)
  (hd : RunsAt u c true (oVa (c.beats.getD 1 0)) 16384 8 v ds)
include hs hd

theorem withSealRuns_runs {store : Bool} {go : State → List Run → List Run → List Run → State}
    (ht : RunsAt v c store (cpTrailer (c.beats.getD 2 0)) 32 32 w ts) : withSealRuns s c store go = go w ss ds ts := by
  rw [RunsAt] at hs hd ht
  simp only [withSealRuns, hs, hd, ht, gotten_val]

/-- What a sealing copy writes: the page and its check value, from the bytes that it read. -/
def sealed (c : Cmd) (bs : List Byte) : List Byte × List Byte :=
  gcmSeal (toBytes 32 ((c.key.getD 0).toNat)) (toBytes 12 c.nonce.toNat) (sealAad c.part (oVa (c.beats.getD 0 0))) bs

theorem sealPage_seals (ht : RunsAt v c true (cpTrailer (c.beats.getD 2 0)) 32 32 w ts) (hsrc : inHbm ss = true) (hdst : inHost ds = true) :
    sealPage s c =
      let q := readRuns w c.part (cmdTree c) ss
      let t := writeRuns (writeRuns q.2 c.part (cmdTree c) ds (sealed c q.1).1) c.part (cmdTree c) ts
        (toBytes 12 c.nonce.toNat ++ [0, 0, 0, 0] ++ (sealed c q.1).2)
      endCmd (modPart t c.part fun x => { x with sealCnt := x.sealCnt + 1 }) c := by
  simp only [sealPage, withSealRuns_runs hs hd ht, hsrc, hdst, Bool.not_true, Bool.or_self, Bool.false_eq_true, if_false, sealed]

section
variable (ht : RunsAt v c false (cpTrailer (c.beats.getD 2 0)) 32 32 w ts) (hsrc : inHost ss = true) (hdst : inHbm ds = true)
include ht hsrc hdst

theorem openPageCopy_opens {q h : List Byte × State} {bs : List Byte} (hq : readRuns w c.part (cmdTree c) ss = q)
    (hh : readRuns q.2 c.part (cmdTree c) ts = h) (ho : opened c h.1 q.1 = some bs) :
    openPageCopy s c = endCmd (writeRuns h.2 c.part (cmdTree c) ds bs) c := by
  simp only [openPageCopy, withSealRuns_runs hs hd ht, hsrc, hdst, hq, hh, Bool.not_true, Bool.or_self, Bool.false_eq_true, if_false,
    opened_eq, ho]

theorem openPageCopy_fails {q h : List Byte × State} (hq : readRuns w c.part (cmdTree c) ss = q)
    (hh : readRuns q.2 c.part (cmdTree c) ts = h) (ho : opened c h.1 q.1 = none) :
    openPageCopy s c = failCmd h.2 c F_INTEG (BitVec.ofNat 64 (oVa (c.beats.getD 1 0))) 0 := by
  simp only [openPageCopy, withSealRuns_runs hs hd ht, hsrc, hdst, hq, hh, Bool.not_true, Bool.or_self, Bool.false_eq_true, if_false,
    opened_eq, ho]

end

end

end Sys2Proof.Machine

open Sys2Proof.Machine

/-- Settles O38: a plain copy by `runElems_performed`, a sealing or opening one by the page that it reads. -/
theorem copyCommands : Obligations.CopyCommands := by
  unfold Obligations.CopyCommands
  intro r n s c h x total src dst key
  refine ⟨exec_copyCommand_plain h, fun m t d hm hn hp hd => ?_, fun u v w ss ds ts hs hd => ⟨fun hm ht hsrc hdst => ?seals, fun hm ht hsrc hdst => ?opens⟩⟩
  · exact (exec_copyCommand_plain h hm).trans (congrArg Host.Outcome.next (runElems_performed n hn hp hd))
  case seals =>
    intro q nonce e t
    exact (exec_copySeal h hm).trans (congrArg Host.Outcome.next (sealPage_seals hs hd ht hsrc hdst))
  case opens =>
    intro q t ok
    rw [exec_copyOpen h hm]
    cases ho : ok with
    | none => exact congrArg Host.Outcome.next (openPageCopy_fails hs hd ht hsrc hdst rfl rfl ho)
    | some bs => exact congrArg Host.Outcome.next (openPageCopy_opens hs hd ht hsrc hdst rfl rfl ho)
end

section
/-! What accesses of every kind keep: a property that rests on the three memories, the clock and the commands, and that a write of
bytes keeps, is kept by the device's reads, writes, walks, records and faults (R101–R110, R265, R396, R456, R506). -/
namespace Sys2Proof.Machine

/-- The cycle, the pod time with its next slew, and what is issued in this cycle or still to come from the script. -/
def clock (s : State) := (s.pkg.cycle, s.pkg.podTime, s.pkg.slewAt, s.issued, s.script)

/-- The three memories, and the clock. -/
def stored (s : State) := (s.mem, s.shelf, s.acc, clock s)

/-- A property that rests on the three memories, the clock and the commands, and that writing bytes to memory or to the shelf keeps. -/
structure Stable (P : State → Prop) : Prop where
  same : ∀ {s t : State}, P s → stored t = stored s → t.cmds = s.cmds → P t
  wrMem : ∀ {s : State} (a : Nat) (bs : List Byte), P s → P { s with mem := wrBytes s.mem a bs }
  wrShelf : ∀ {s : State} (a : Nat) (bs : List Byte), P s → P { s with shelf := wrBytes s.shelf a bs }

/-- A state with what it answers: the property of the state, from an equation. -/
theorem of_fst {P : State → Prop} {α : Type} {x : State × α} {t : State} {a : α} (h : P x.1) (heq : x = (t, a)) : P t := by
  rw [heq] at h
  exact h

theorem of_snd {P : State → Prop} {α : Type} {x : α × State} {t : State} {a : α} (h : P x.2) (heq : x = (a, t)) : P t := by
  rw [heq] at h
  exact h

/-- The property holds of the state of an answer, or of the state in which the operation waits. -/
def Either (P : State → Prop) : Except State State → Prop
  | .ok t => P t
  | .error t => P t

theorem Either.of_ok {P : State → Prop} {x : Except State State} {t : State} (h : Either P x) (heq : x = .ok t) : P t := by
  rw [heq] at h
  exact h

theorem Either.of_error {P : State → Prop} {x : Except State State} {t : State} (h : Either P x) (heq : x = .error t) : P t := by
  rw [heq] at h
  exact h

/-- A fold whose steps keep a property keeps it. -/
theorem foldl_keeps {P : State → Prop} {α : Type} {f : State → α → State} (hf : ∀ s x, P s → P (f s x)) {s : State} (h : P s) (l : List α) :
    P (l.foldl f s) := by
  induction l generalizing s with
  | nil => exact h
  | cons x l ih => exact ih (hf s x h)

namespace Stable

section
variable {P : State → Prop} (hP : Stable P) {s : State} (h : P s)
include hP h

theorem quiet {t : State} (hq : quiet t = quiet s) : P t :=
  hP.same h (congrArg stored hq : stored (Machine.quiet t) = stored (Machine.quiet s))
    (congrArg State.cmds hq : (Machine.quiet t).cmds = (Machine.quiet s).cmds)

theorem modPart (p : Nat) (f : Part → Part) : P (modPart s p f) := hP.same h rfl rfl
theorem modPkg {f : Pkg → Pkg} (hf : clock (modPkg s f) = clock s) : P (modPkg s f) :=
  hP.same h (congrArg (fun c => (s.mem, s.shelf, s.acc, c)) hf) rfl
theorem wakeLine (line cause : Nat) : P (wakeLine s line cause) := hP.same h rfl rfl
theorem charge (p : Nat) (tree : Option Nat) (k n : Nat) : P (charge s p tree k n) := hP.quiet h (quiet_charge ..)
theorem l2Touch (p : Nat) (tree : Option Nat) (pa : Nat) (w : Bool) : P (l2Touch s p tree pa w) := hP.quiet h (quiet_l2Touch ..)
theorem touchRun (p : Nat) (tree : Option Nat) (r : Run) (w : Bool) : P (touchRun s p tree r w) := hP.quiet h (quiet_touchRun ..)
theorem refetch (rs : List Run) : P (refetch s rs) := hP.quiet h (quiet_refetch ..)
theorem readRuns (p : Nat) (tree : Option Nat) (rs : List Run) : P (readRuns s p tree rs).2 := hP.quiet h (quiet_readRuns ..)
theorem loadRuns (own : Nat) (rs : List Run) : P (loadRuns s own rs).2 := hP.quiet h (quiet_loadRuns ..)
theorem startWalk (bay p va : Nat) (store fetch dirty : Bool) (tag : BitVec 32) : P (startWalk s bay p va store fetch dirty tag) :=
  hP.quiet h (quiet_startWalk ..)
theorem tlbFill (e : TlbEntry) : P (tlbFill s e) := hP.same h rfl rfl
theorem tlbDrop (e : TlbEntry) : P (tlbDrop s e) := hP.same h rfl rfl

/-! ### Writes -/

theorem pokeBytes (pa : Nat) (bs : List Byte) : P (pokeBytes s pa bs) := by
  unfold Machine.pokeBytes
  dsimp only
  refine foldl_keeps (P := P) (fun s k hs => hP.wakeLine hs ..) ?_ _
  exact hP.same (hP.wrMem pa bs h) rfl rfl

theorem shelfPoke (a : Nat) (bs : List Byte) : P (shelfPoke s a bs) := hP.same (hP.wrShelf a bs h) rfl rfl

theorem writeRuns (p : Nat) (tree : Option Nat) (rs : List Run) (bs : List Byte) : P (writeRuns s p tree rs bs) := by
  induction rs generalizing s bs with
  | nil => exact h
  | cons r rs ih => exact ih (hP.touchRun (hP.pokeBytes h ..) ..) _

/-! ### Records -/

theorem numbered (r : FaultRec) : P (numbered s r).2 := by
  unfold Machine.numbered
  split
  · exact hP.same h rfl rfl
  · exact hP.same h rfl rfl

theorem hfqPut (r : FaultRec) : P (hfqPut s r) := hP.same (hP.pokeBytes h ..) rfl rfl

theorem hfqWrite (r : FaultRec) (must : Bool) : P (hfqWrite s r must) := by
  unfold Machine.hfqWrite
  split
  · exact hP.modPart h ..
  · split
    · exact hP.hfqPut h r
    · split <;> exact hP.modPkg h rfl

theorem hfqFault (r : FaultRec) (must : Bool) : P (hfqFault s r must) := hP.hfqWrite (hP.numbered h r) ..

theorem deliver (r : FaultRec) (v : Victim) (classN : Bool) : P (deliver s r v classN) := by
  unfold Machine.deliver
  dsimp only
  split
  · exact hP.modPart h ..
  · exact hP.modPart (hP.numbered h r) ..

theorem deliverN (r : FaultRec) (v : Victim) : P (deliverN s r v) := hP.deliver h ..

theorem interrupt (p src vec : Nat) (data : Word) : P (interrupt s p src vec data) := by
  unfold Machine.interrupt
  dsimp only
  split
  · exact hP.same h rfl rfl
  · split
    · exact hP.modPart h ..
    · exact hP.modPart (hP.pokeBytes h ..) ..

/-! ### Walks -/

theorem touchWalk (p : Nat) (tree : Option Nat) (l : List (Nat × Bool)) : P (touchWalk s p tree l) := by
  refine foldl_keeps (fun s a hs => ?_) h l
  split
  · exact hP.charge hs ..
  · exact hP.l2Touch hs ..

theorem orEntry (p : Nat) (tree : Option Nat) (a k : Nat) : P (orEntry s p tree a k) := by
  unfold Machine.orEntry
  dsimp only
  split
  · exact h
  · exact hP.l2Touch (hP.pokeBytes h ..) ..

theorem walkFill (bay p root va : Nat) (dirty : Bool) (tree : Option Nat) : P (walkFill s bay p root va dirty tree).1 := by
  have h1 := hP.touchWalk h p tree (reads1 s p va 4 1 root)
  unfold Machine.walkFill
  dsimp only
  split
  · exact h1
  · next l1 seen _ =>
    have h2 := hP.touchWalk h1 p tree ((reads2 (Machine.touchWalk s p tree (reads1 s p va 4 1 root)).mem (l1.base + va % pow2 l1.size) 4 1
      (s2root (Machine.touchWalk s p tree (reads1 s p va 4 1 root)) p)).map fun a => (a, false))
    split
    · exact h2
    · next pa l2 _ =>
      have h3 := foldl_keeps (P := P) (fun s (l : Leaf) hs => hP.orEntry hs p tree l.addr 5) h2 (l1 :: l2 :: seen)
      dsimp only
      split
      · exact hP.orEntry (hP.orEntry h3 ..) ..
      · exact h3

theorem pageEntry (bay p : Nat) (k : AccKind) (tag : BitVec 32) (va : Nat) : P (pageEntry bay p k tag s va).1 := by
  unfold Machine.pageEntry
  split
  · exact h
  · split
    · exact h
    · split
      · split
        · exact h
        · split
          · next hw => exact hP.tlbFill (of_fst (hP.walkFill h ..) hw) _
          · next hw => exact of_fst (hP.walkFill h ..) hw
      · exact hP.startWalk h ..

theorem pageRuns (bay p : Nat) (k : AccKind) (tag : BitVec 32) (fuel va n : Nat) (acc : List (Nat × Run × TlbEntry)) :
    P (pageRuns bay p k tag fuel s va n acc).1 := by
  induction fuel generalizing s va n acc with
  | zero => exact h
  | succ fuel ih =>
    unfold Machine.pageRuns
    split
    · exact h
    · split
      · next he => exact of_fst (hP.pageEntry h ..) he
      · next he =>
        have h1 := of_fst (hP.pageEntry h ..) he
        dsimp only
        split
        · exact hP.tlbDrop h1 _
        · exact ih h1 ..

theorem dirtyPages (bay p : Nat) (k : AccKind) (tag : BitVec 32) (l : List (Nat × Run × TlbEntry)) :
    P (dirtyPages bay p k tag l s).1 := by
  induction l generalizing s with
  | nil => exact h
  | cons x xs ih =>
    unfold Machine.dirtyPages
    split
    · exact ih h
    · split
      · split
        · next hw =>
          have h1 := of_fst (hP.walkFill h ..) hw
          split
          · split
            · next hw => exact ih (hP.tlbFill (of_fst (hP.walkFill h1 ..) hw) _)
            · next hw => exact hP.tlbDrop (of_fst (hP.walkFill h1 ..) hw) _
          · exact hP.tlbDrop h1 _
        · next hw => exact hP.tlbDrop (of_fst (hP.walkFill h ..) hw) _
      · exact hP.startWalk h ..

theorem checkPages (bay p : Nat) (k : AccKind) (tag : BitVec 32) (va n : Nat) : P (checkPages s bay p k tag va n).1 := by
  unfold Machine.checkPages
  split
  · next hr => exact of_fst (hP.pageRuns h ..) hr
  · next hr =>
    have h1 := of_fst (hP.pageRuns h ..) hr
    split
    · next hd => exact of_fst (hP.dirtyPages h1 ..) hd
    · next hd => exact of_fst (hP.dirtyPages h1 ..) hd

theorem checkRun (bay p : Nat) (k : AccKind) (tag : BitVec 32) (ea : Int) (n algn : Nat) : P (checkRun s bay p k tag ea n algn).1 := by
  unfold Machine.checkRun
  split
  · exact h
  · split
    · exact h
    · split
      · next hc =>
        have h1 := of_fst (hP.checkPages h ..) hc
        split
        · exact hP.checkPages h1 ..
        · exact h1
      · exact hP.checkPages h ..

/-! ### Pages of the guest's own, and their faults -/

theorem devWalk {p gpa : Nat} {store : Bool} {t : State} {a : Nat} (hw : devWalk s p gpa store = .ok (t, a)) : P t := by
  unfold Machine.devWalk at hw
  split at hw
  · split at hw
    · injection hw with hw
      refine of_fst (P := P) ?_ hw
      dsimp only
      have h1 := fun a => hP.orEntry (hP.touchWalk h p none a) p none
      split
      · exact hP.orEntry (h1 ..) ..
      · exact h1 ..
    · cases hw
  · cases hw

theorem openStage2 (p gpa : Nat) (mal : Bool) (item : Option TrapItem) : P (openStage2 s p gpa mal item) := by
  unfold Machine.openStage2
  split
  · exact h
  · refine hP.hfqWrite ?_ ..
    exact hP.same (hP.numbered h _) rfl rfl

theorem joinFault (p va : Nat) (v : Victim) (tag : BitVec 32) (cmd : Option Nat) : P (joinFault s p va v tag cmd) := hP.same h rfl rfl

theorem openPage (p : Nat) (w : WalkBad) (r : FaultRec) (v : Victim) (cmd : Option Nat) (classN : Bool) :
    P (openPage s p w r v cmd classN) := by
  unfold Machine.openPage
  split
  · exact hP.openStage2 h ..
  · split
    · exact hP.joinFault h ..
    · dsimp only
      have h1 := fun f r => hP.joinFault (hP.same (t := { s with pageFaults := f }) h rfl rfl) p w.addr v r cmd
      split
      · exact hP.deliverN (h1 ..) ..
      · exact hP.deliver (h1 ..) ..

theorem devAddr_error {p gpa : Nat} {store : Bool} {t : State} (hd : devAddr s p gpa store = .error t) : P t := by
  unfold Machine.devAddr at hd
  split at hd
  · injection hd with hd
    exact hd ▸ h
  · split at hd
    · cases hd
    · injection hd with hd
      exact hd ▸ hP.openStage2 h ..

theorem devAddr_ok {p gpa : Nat} {store : Bool} {t : State} {a : Nat} (hd : devAddr s p gpa store = .ok (t, a)) : P t := by
  unfold Machine.devAddr at hd
  split at hd
  · cases hd
  · split at hd
    · next hw =>
      injection hd with hd
      exact hP.devWalk h (hw.trans (congrArg _ hd))
    · cases hd

theorem devSpan (p : Nat) (store : Bool) (fuel gpa n : Nat) : Either P (devSpan p store fuel s gpa n) := by
  induction fuel generalizing s gpa n with
  | zero => exact h
  | succ fuel ih =>
    unfold Machine.devSpan
    split
    · exact h
    · split
      · next hd => exact hP.devAddr_error h hd
      · next hd => exact ih (hP.charge (hP.devAddr_ok h hd) ..) ..

theorem devTouch (p gpa n : Nat) (store : Bool) : Either P (devTouch s p gpa n store) := hP.devSpan h ..

theorem parkedTouch (p key off n : Nat) (store : Bool) : Either P (parkedTouch s p key off n store) := by
  unfold Machine.parkedTouch
  split
  · exact h
  · exact hP.devTouch h ..

/-! ### Operands of commands -/

theorem cmdRuns (c : Cmd) (store : Bool) (ea n algn : Nat) : P (cmdRuns s c store ea n algn).1 := by
  unfold Machine.cmdRuns
  split
  · exact h
  · dsimp only
    split
    · next hc =>
      have h1 := of_fst (hP.checkRun h ..) hc
      cases (if store then none else poisonedAt _ _) with
      | none => exact h1
      | some a => exact h1
    · next hc => exact of_fst (hP.checkRun h ..) hc
    · next hc => exact hP.openPage (of_fst (hP.checkRun h ..) hc) ..
    · next hc => exact of_fst (hP.checkRun h ..) hc

theorem withParked {α : Type} (c : Cmd) (key off n : Nat) (store : Bool) {go : State → State × Got α} (hgo : ∀ t, P t → P (go t).1) :
    P (withParked s c key off n store go).1 := by
  unfold Machine.withParked
  split
  · next hp => exact (hP.parkedTouch h ..).of_error hp
  · next hp => exact hgo _ ((hP.parkedTouch h ..).of_ok hp)

theorem readElem (c : Cmd) (b : Beat) (t r k pp : Nat) : P (readElem s c b t r k pp).1 := by
  unfold Machine.readElem
  dsimp only
  split
  · split
    · exact h
    · refine hP.withParked h _ _ _ _ _ fun u hu => ?_
      split
      · exact hu
      · exact hP.charge hu ..
  · split
    · next hc => exact hP.readRuns (of_fst (hP.cmdRuns h ..) hc) ..
    · next hc => exact of_fst (hP.cmdRuns h ..) hc
    · next hc => exact of_fst (hP.cmdRuns h ..) hc

theorem shelfElem (c : Cmd) (e k : Nat) (bs : List Byte) : P (shelfElem s c e k bs) := by
  have h1 := hP.charge (hP.shelfPoke h (shelfKey c.bay e) bs) c.part (cmdTree c) 3 1
  unfold Machine.shelfElem
  dsimp only
  split
  · exact hP.same h1 rfl rfl
  · exact h1

theorem chargeLink (c : Cmd) (n times : Nat) : P (chargeLink s c n times) := hP.charge h ..

theorem fetchRow (c : Cmd) (i : Nat) (r : Option XReply) : P (fetchRow s c i r).1 := by
  unfold Machine.fetchRow
  dsimp only
  split
  · exact h
  · dsimp only
    split
    · exact hP.chargeLink h ..
    · exact h
  · split
    · next hc => exact hP.readRuns (of_fst (hP.cmdRuns h ..) hc) ..
    · next hc => exact of_fst (hP.cmdRuns h ..) hc
    · next hc => exact of_fst (hP.cmdRuns h ..) hc

theorem tableRow (c : Cmd) (i : Nat) (r : Option XReply) : P (tableRow s c i r).1 := by
  unfold Machine.tableRow
  dsimp only
  split
  · exact h
  · split
    · next hf =>
      have h1 := of_fst (hP.fetchRow h ..) hf
      dsimp only
      split
      · exact hP.same h1 rfl rfl
      · exact h1
    · exact hP.fetchRow h ..

theorem writeRow (c : Cmd) (b : Beat) (r : Nat) (vs : List Nat) : P (writeRow s c b r vs).1 := by
  unfold Machine.writeRow
  dsimp only
  split
  · split
    · exact h
    · refine hP.withParked h _ _ _ _ _ fun u hu => ?_
      exact foldl_keeps (P := P) (fun s x hs => hP.shelfElem hs ..) hu _
  · split
    · next hc => exact hP.writeRuns (of_fst (hP.cmdRuns h ..) hc) ..
    · next hc => exact of_fst (hP.cmdRuns h ..) hc
    · next hc => exact of_fst (hP.cmdRuns h ..) hc

theorem candidate (c : Cmd) (k : Nat) : P (candidate s c k).1 := by
  unfold Machine.candidate
  dsimp only
  split
  · exact h
  · split
    · next hr => exact of_fst (hP.readElem h ..) hr
    · next hr => exact of_fst (hP.readElem h ..) hr
    · next hr =>
      have h1 := of_fst (hP.readElem h ..) hr
      split
      · next hr => exact of_fst (hP.readElem h1 ..) hr
      · next hr => exact of_fst (hP.readElem h1 ..) hr
      · next hr => exact of_fst (hP.readElem h1 ..) hr

end

end Stable

end Sys2Proof.Machine
end

section
/-! Gather commands (O39; R118, R253, R254, R404–R407). -/
namespace Sys2Proof.Machine

/-! ### What an element keeps of its command -/

/-- A stable property that rests on no more of the commands than their numbers and operands. -/
structure CmdStable (P : State → Prop) : Prop extends Stable P where
  modCmd : ∀ {s : State} (id : Nat) {f : Cmd → Cmd}, (∀ c, (f c).id = c.id ∧ (f c).beats = c.beats) → P s → P (modCmd s id f)

namespace CmdStable

section
variable {P : State → Prop} (hP : CmdStable P) {s : State}
include hP

theorem failCmd (h : P s) (c : Cmd) (code : BitVec 8) (g4 g5 : Word) : P (failCmd s c code g4 g5) := by
  have h1 : P (Machine.modCmd s c.id fun x => { x with status := some (faultStatus code), held := false }) :=
    hP.modCmd _ (fun _ => ⟨rfl, rfl⟩) h
  unfold Machine.failCmd
  dsimp only
  split
  · exact hP.deliverN h1 ..
  · exact h1

theorem endCmd (h : P s) (c : Cmd) : P (endCmd s c) := hP.modCmd _ (fun _ => ⟨rfl, rfl⟩) h

theorem nextElem (h : P s) (c : Cmd) : P (nextElem s c) := hP.modCmd _ (fun _ => ⟨rfl, rfl⟩) h

theorem gotten {α : Type} (c : Cmd) {x : State × Got α} {go : State → α → State} (h : P x.1) (hgo : ∀ t v, P t → P (go t v)) :
    P (gotten c x go) := by
  unfold Machine.gotten
  split
  · exact hgo _ _ h
  · exact hP.modCmd _ (fun _ => ⟨rfl, rfl⟩) h
  · exact hP.failCmd h ..

theorem answered {α : Type} (c : Cmd) {x : State × Got α} (away : Bool) {go : State → α → State} (h : P x.1)
    (hgo : ∀ t v, P t → P (go t v)) : P (answered c x away go) := by
  unfold Machine.answered
  split
  · split
    · exact h
    · exact hP.gotten c h hgo
  · exact hP.gotten c h hgo

theorem convertedAll (h : P s) (c : Cmd) (a b ovp : Nat) (vs : List Word) {go : State → List Nat → State} (hgo : ∀ t l, P t → P (go t l)) :
    P (convertedAll c a b ovp s vs go) := by
  unfold Machine.convertedAll
  split
  · exact hgo _ _ h
  · exact hP.failCmd h ..

theorem gathwSum (h : P s) (c : Cmd) (k n : Nat) (rs : List XReply) (acc : List Nat) {go : State → List Nat → State}
    (hgo : ∀ t l, P t → P (go t l)) : P (gathwSum c k n rs acc s go) := by
  induction n generalizing s k rs acc with
  | zero => exact hgo _ _ h
  | succ n ih =>
    refine hP.gotten c (hP.candidate h ..) fun t x ht => ?_
    exact hP.answered c _ (hP.tableRow ht ..) fun u bs hu => ih hu ..

theorem gathwElem (h : P s) (c : Cmd) (rs : List XReply) : P (gathwElem s c rs) :=
  hP.gathwSum h c _ _ _ _ fun _ _ ht => hP.convertedAll ht c _ _ _ _ fun _ _ hu =>
    hP.gotten c (hP.writeRow hu ..) fun _ _ hv => hP.nextElem hv c

end

end CmdStable

/-- The numbers and operands of the commands. -/
def beatsById (s : State) : List (Nat × List Beat) := s.cmds.map fun d => (d.id, d.beats)

theorem beatsById_cmdStable (l : List (Nat × List Beat)) : CmdStable fun s => beatsById s = l where
  same h _ hc := by rw [beatsById, hc]; exact h
  wrMem _ _ h := h
  wrShelf _ _ h := h
  modCmd id f hf h := by
    rw [← h, beatsById, beatsById, modCmd, updWhere, List.map_map]
    refine List.map_congr_left fun c _ => ?_
    by_cases hc : c.id = id
    · simp [hc, (hf c).1, (hf c).2]
    · simp [hc]

/-- Commands of one number have the same operands in states of the same operands. -/
theorem beats_eq_of_beatsById {s t : State} {id : Nat} {c d : Cmd} (h : beatsById t = beatsById s) (hs : cmd? s id = some c)
    (ht : cmd? t id = some d) : d.beats = c.beats := by
  have hbeats (u : State) : (cmd? u id).map (fun c => (c.id, c.beats)) = (beatsById u).find? fun x => x.1 == id := by
    simp only [cmd?, beatsById, List.find?_map]
    rfl
  have := (hbeats t).trans ((congrArg _ h).trans (hbeats s).symm)
  simp only [hs, ht, Option.map_some, Option.some.injEq, Prod.mk.injEq] at this
  exact this.2

/-! ### Rows that agree on what is joint -/

section
variable {P : State → Prop} (hP : CmdStable P) {joint joint' : State → Cmd → Bool} {f : State → Cmd → List XReply → State}
  (hf : ∀ s c rs, P s → P (f s c rs)) {total g id : Nat}
include hP hf

theorem runJoint_keeps {from_ : State × Nat} (n : Nat) (rs : List XReply) {s : State} (h : P s) (hshelf : ∀ t, P t → P { t with
    shelf := from_.1.shelf, poison := from_.1.poison, kvc := from_.1.kvc }) : P (runJoint total joint f g id from_ n rs s).1 := by
  induction n generalizing rs s with
  | zero => exact h
  | succ n ih =>
    unfold runJoint
    split
    · exact h
    · next c _ =>
      have ht := hf s c (rs.take g) h
      dsimp only
      split
      · exact ht
      · split
        · exact ht
        · split
          · exact hP.modCmd _ (fun _ => ⟨rfl, rfl⟩) (hshelf _ ht)
          · split
            · exact ih _ ht
            · exact ht

variable (hj : ∀ s t c, P s → cmd? s id = some c → joint t c = joint' t c)
include hj

omit hP in
theorem runJoint_congr {from_ : State × Nat} (n : Nat) (rs : List XReply) {s : State} (h : P s) :
    runJoint total joint f g id from_ n rs s = runJoint total joint' f g id from_ n rs s := by
  induction n generalizing rs s with
  | zero => rfl
  | succ n ih =>
    unfold runJoint
    cases hc : cmd? s id with
    | none => rfl
    | some c => simp only [hj s _ c h hc, ih _ (hf s c (rs.take g) h)]

theorem runRows_congr (hshelf : ∀ s t : State, P s → P t → P { t with shelf := s.shelf, poison := s.poison, kvc := s.kvc }) (n : Nat) (rs : List XReply)
    {s : State} (h : P s) : runRows total joint f g id n rs s = runRows total joint' f g id n rs s := by
  induction n generalizing rs s with
  | zero =>
    unfold runRows
    rfl
  | succ n ih =>
    unfold runRows
    cases hc : cmd? s id with
    | none => rfl
    | some c =>
      have hrows := runJoint_congr (total := total) (g := g) hf hj (from_ := (s, c.pos)) (total - c.pos) rs h
      simp only [hrows, ih _ (runJoint_keeps (joint := joint') hP hf (from_ := (s, c.pos)) _ rs h (hshelf s · h))]

end

/-! ### The commands -/

section
variable {r : QRef} {n : Nat} {rs : List XReply} {s : State} {c : Cmd}

theorem exec_gathCommand_chain (h : InEngine s r 0x28 c) (hk : gKv c.hdr = true) : exec (.gathCommand r n rs) s = .next (runRows (gCount c.hdr)
    (fun _ d => rowsShare (c.beats.getD 1 0) d.pos (kvRowBytes (c.beats.getD 2 0) / sfBytes (oSf (c.beats.getD 1 0))))
    (fun s c _ => kvGathElem s c) 0 c.id n [] s) := by
  simp only [exec, execGathCommand, withCmd_inEngine h, hk, if_true]

theorem exec_gathCommand_table (h : InEngine s r 0x28 c) (hk : gKv c.hdr = false) : exec (.gathCommand r n rs) s = .next (runRows (gCount c.hdr)
    (fun _ d => rowsShare (c.beats.getD 1 0) d.pos (tElems (tableOf s c.part (slotNoOf c)))) gathElem 1 c.id n rs s) := by
  simp only [exec, execGathCommand, withCmd_inEngine h, hk, Bool.false_eq_true, if_false]

/-- The operand that gathw writes is that of the command it began with: its elements keep the operands. -/
theorem exec_gathwCommand (h : InEngine s r 0x29 c) : exec (.gathwCommand r n rs) s = .next (runRows (gCount c.hdr)
    (fun _ d => rowsShare (c.beats.getD 2 0) d.pos (tElems (tableOf s c.part (slotNoOf c)))) gathwElem (gGroup c.hdr) c.id n rs s) := by
  simp only [exec, execGathwCommand, withCmd_inEngine h]
  obtain ⟨-, -, -, -, -, -, -, -, hc⟩ := h
  have hP := beatsById_cmdStable (beatsById s)
  refine congrArg Host.Outcome.next (runRows_congr hP (fun _ _ _ h => hP.gathwElem h ..) ?_ (fun _ _ _ h => h) n rs rfl)
  intro t u d ht hd
  rw [beats_eq_of_beatsById ht hc hd]

theorem exec_scatCommand_chain (h : InEngine s r 0x2A c) (hk : gKv c.hdr = true) : exec (.scatCommand r n rs) s =
    .next (runRows (gCount c.hdr) appendJoint (fun s c _ => kvScatElem s c) 0 c.id n [] s) := by
  simp only [exec, execScatCommand, withCmd_inEngine h, hk, if_true]

theorem exec_scatCommand_table (h : InEngine s r 0x2A c) (hk : gKv c.hdr = false) : exec (.scatCommand r n rs) s = .next (runRows (gCount c.hdr) noJoint
    (fun s c rs => withEntry false s c c.pos rs.head? fun s w => nextElem (putRow s c w) c) 1 c.id n rs s) := by
  simp only [exec, execScatCommand, withCmd_inEngine h, hk, Bool.false_eq_true, if_false]

theorem exec_scataddCommand (h : InEngine s r 0x2B c) (hd : isDet s c.part = true) (perm : List Nat) :
    exec (.scataddCommand r n perm rs) s = .next (runRows (gCount c.hdr) noJoint
      (fun s c rs => withEntry true s c c.pos rs.head? fun s w => nextElem (addRow s c w) c) 1 c.id n rs s) := by
  simp only [exec, execScataddCommand, withCmd_inEngine h, hd, Bool.not_true, Bool.and_false, Bool.false_and, Bool.false_eq_true, if_false]

theorem exec_tblswapCommand_waits (h : InEngine s r 0x2C c) (hp : c.pos ≠ 0) (ho : tOuto (tableOf s c.part (slotNoOf c)) ≠ 0) :
    exec (.tblswapCommand r) s = .next s := by
  simp only [exec, execTblswapCommand, withCmd_inEngine h, bne_iff_ne.mpr hp, bne_iff_ne.mpr ho, Bool.and_self, if_true]

theorem exec_tblswapCommand_ends (h : InEngine s r 0x2C c) (ho : c.pos = 0 ∨ tOuto (tableOf s c.part (slotNoOf c)) = 0) :
    exec (.tblswapCommand r) s = .next (endCmd s c) := by
  have hw : (c.pos != 0 && tOuto (tableOf s c.part (slotNoOf c)) != 0) = false := by
    rcases ho with ho | ho <;> simp [ho]
  simp only [exec, execTblswapCommand, withCmd_inEngine h, hw, Bool.false_eq_true, if_false]

end

/-! ### The bank that a swap replaced -/

/-- The entry of a slot without the base of its old bank. -/
def withoutOld (t : BitVec 256) : BitVec 256 := BitVec.ofNat 256 (putFld t.toNat 128 64 0)

theorem putFld_zero_of_split (a b c : Nat) (hb : b < 2 ^ 64) (hc : c < 2 ^ 128) :
    putFld (a * 2 ^ 192 + b * 2 ^ 128 + c) 128 64 0 = a * 2 ^ 192 + c := by
  have hfld : nbits (a * 2 ^ 192 + b * 2 ^ 128 + c) 128 64 = b := by
    simp only [nbits, pow2_eq_two_pow, natShiftRight_eq_div_pow]
    omega
  simp only [putFld, hfld, Nat.shiftLeft_eq', Nat.shiftLeft_eq, pow2_eq_two_pow, Nat.zero_mod, Nat.zero_mul]
  omega

theorem withoutOld_toNat (t : BitVec 256) : (withoutOld t).toNat = t.toNat / 2 ^ 192 * 2 ^ 192 + t.toNat % 2 ^ 128 := by
  have hlt := t.isLt
  have hsplit : t.toNat = t.toNat / 2 ^ 192 * 2 ^ 192 + t.toNat / 2 ^ 128 % 2 ^ 64 * 2 ^ 128 + t.toNat % 2 ^ 128 := by omega
  have hput := putFld_zero_of_split (t.toNat / 2 ^ 192) (t.toNat / 2 ^ 128 % 2 ^ 64) (t.toNat % 2 ^ 128) (by omega) (by omega)
  rw [← hsplit] at hput
  rw [withoutOld, hput, BitVec.toNat_ofNat, Nat.mod_eq_of_lt (by omega)]

theorem tOldb_withoutOld (t : BitVec 256) : tOldb (withoutOld t) = 0 := by
  have hlt := t.isLt
  simp only [tOldb, fld, withoutOld_toNat, nbits, pow2_eq_two_pow, natShiftRight_eq_div_pow]
  omega

theorem tBase_withoutOld (t : BitVec 256) : tBase (withoutOld t) = tBase t := by
  have hlt := t.isLt
  simp only [tBase, fld, withoutOld_toNat, nbits, pow2_eq_two_pow, natShiftRight_eq_div_pow]
  omega

theorem tableOf_setTable_same {s : State} {p k t : Nat} (hp : p < s.parts.length) : tableOf (setTable s p k t) p k = BitVec.ofNat 256 t := by
  rw [tableOf, setTable, part_modPart_same hp, assoc_assocSet_same]
  rfl

theorem tableOf_dropBank {s : State} {p k : Nat} (ver : BitVec 32) (hp : p < s.parts.length) (hb : tBase (tableOf s p k) ≠ 0) :
    tableOf (dropBank s p k ver) p k = withoutOld (tableOf s p k) := by
  simp only [dropBank, beq_false_of_ne hb, Bool.false_eq_true, if_false]
  exact tableOf_setTable_same hp

theorem mem_dup_dropBank {s : State} {p k : Nat} {ver : BitVec 32} {x : (Nat × Nat × BitVec 32 × Nat) × List Byte}
    (h : x ∈ (dropBank s p k ver).dup) : x ∈ s.dup ∧ ¬ (x.1.1 ∈ stateKeys s p ∧ x.1.2.1 = k ∧ x.1.2.2.1 = ver) := by
  obtain ⟨hmem, hkey⟩ := List.mem_filter.mp h
  refine ⟨hmem, fun ⟨hs, hk, hv⟩ => ?_⟩
  simp [hs, hk, hv] at hkey

end Sys2Proof.Machine

open Sys2Proof.Machine

/-- Settles O39: each command by the loop that performs it, the retirement of a swap by the entry without its old bank. -/
theorem gatherCommands : Obligations.GatherCommands := by
  unfold Obligations.GatherCommands
  refine ⟨?commands, ?retirement⟩
  case commands =>
    intro r n rs s c wide
    exact ⟨exec_gathCommand_chain, exec_gathCommand_table, exec_gathwCommand, exec_scatCommand_chain, exec_scatCommand_table,
      exec_scataddCommand, fun h => ⟨exec_tblswapCommand_waits h, exec_tblswapCommand_ends h⟩⟩
  case retirement =>
    intro s p k ver hp hb u
    have htable : tableOf u p k = _ := tableOf_dropBank ver hp hb
    exact ⟨(congrArg tOldb htable).trans (tOldb_withoutOld _), (congrArg tBase htable).trans (tBase_withoutOld _), rfl,
      fun x hx => mem_dup_dropBank hx⟩
end

section
/-! Commands issue and retire (O41; R143–R146, R184, R187–R189). -/
namespace Sys2Proof.Machine

/-! ### The sync FIFOs (R188) -/

theorem assoc_assocSet_other {α β : Type} [BEq α] [LawfulBEq α] {k j : α} (h : k ≠ j) (v : β) (l : List (α × β)) :
    assoc k (assocSet j v l) = assoc k l := by
  have hlast : [(j, v)].find? (fun x => x.1 == k) = none := by simp [h.symm]
  have hkept : (l.filter fun x => x.1 != j).find? (fun x => x.1 == k) = l.find? fun x => x.1 == k := by
    rw [List.find?_filter]
    refine congrArg (l.find? ·) (funext fun x => ?_)
    by_cases hx : x.1 = k <;> simp [hx, h]
  simp only [assoc, assocSet, List.find?_append, hlast, hkept, Option.or_none]

/-- Change the counts of some FIFOs of a bay. -/
def changeSyncs (g : Nat → Nat) (bay : Nat) (l : List Nat) (s : State) : State :=
  l.foldl (fun s k => setSync s bay k (g (syncCount s bay k))) s

theorem syncCount_setSync_same (s : State) (bay k n : Nat) : syncCount (setSync s bay k n) bay k = n := by
  rw [syncCount, setSync, assoc_assocSet_same]
  rfl

theorem syncCount_setSync_other {s : State} {b bay k j n : Nat} (h : (b, k) ≠ (bay, j)) :
    syncCount (setSync s bay j n) b k = syncCount s b k := by
  rw [syncCount, setSync, assoc_assocSet_other h]
  rfl

theorem syncCount_changeSyncs_other {g : Nat → Nat} {b bay k : Nat} {l : List Nat} (h : b ≠ bay ∨ k ∉ l) (s : State) :
    syncCount (changeSyncs g bay l s) b k = syncCount s b k := by
  induction l generalizing s with
  | nil => rfl
  | cons j l ih =>
    have hne : (b, k) ≠ (bay, j) := fun he => by
      obtain ⟨rfl, rfl⟩ := Prod.mk.inj he
      simp at h
    have hl : b ≠ bay ∨ k ∉ l := h.imp_right fun hk hm => hk (List.mem_cons_of_mem _ hm)
    exact (ih hl _).trans (syncCount_setSync_other hne)

theorem syncCount_changeSyncs_mem {g : Nat → Nat} {bay k : Nat} {l : List Nat} (hl : l.Nodup) (h : k ∈ l) (s : State) :
    syncCount (changeSyncs g bay l s) bay k = g (syncCount s bay k) := by
  induction l generalizing s with
  | nil => cases h
  | cons j l ih =>
    obtain ⟨hj, hl⟩ := List.nodup_cons.mp hl
    by_cases he : k = j
    · subst he
      exact (syncCount_changeSyncs_other (.inr hj) _).trans (syncCount_setSync_same ..)
    · have hk : k ∈ l := (List.mem_cons.mp h).resolve_left he
      exact (ih hl hk _).trans (congrArg g (syncCount_setSync_other fun hp => he (Prod.mk.inj hp).2))

theorem nodup_setBits (x n : Nat) : (setBits x n).Nodup := List.nodup_range.filter _

theorem changeSyncs_keeps (g : Nat → Nat) (bay : Nat) (l : List Nat) (s : State) :
    (changeSyncs g bay l s).mem = s.mem ∧ (changeSyncs g bay l s).frames = s.frames ∧ (changeSyncs g bay l s).cmds = s.cmds := by
  induction l generalizing s with
  | nil => exact ⟨rfl, rfl, rfl⟩
  | cons j l ih => exact ih _

/-! ### Issue (R143, R144, R146, R188, R189) -/

/-- The state in which a command has issued: its tokens are taken, its beats are its own. -/
def issuedState (s : State) (c : Cmd) : State :=
  modCmd (modCmd (changeSyncs (· - 1) c.bay (setBits (mPop c.hdr) 6) s) c.id fun x => { x with issued := true }) c.id fun x =>
    { x with beats := c.beats }

section
variable {s : State} {c : Cmd}

theorem issueCmd_waits (h : fenced s c = true ∨ popWaits s c = true) : issueCmd s c = none := by
  have hw : (fenced s c || popWaits s c) = true := (Bool.or_eq_true _ _).mpr h
  simp only [issueCmd, hw, if_true]

theorem issueCmd_issues (hf : fenced s c = false) (hp : popWaits s c = false) (hh : mHnd c.hdr = 0) : issueCmd s c = some (issuedState s c) := by
  simp only [issueCmd, hf, hp, hh, formBeats, beq_self_eq_true, Bool.or_self, Bool.false_eq_true, if_false, if_true]
  rfl

theorem cmd?_issuedState (h : cmd? s c.id = some c) : cmd? (issuedState s c) c.id = some { c with issued := true } := by
  have hsame : cmd? (changeSyncs (· - 1) c.bay (setBits (mPop c.hdr) 6) s) c.id = some c :=
    (congrArg (List.find? _) (changeSyncs_keeps ..).2.2).trans h
  have h1 : cmd? (issuedState s c) c.id = _ := cmd?_modCmd fun _ => rfl
  have h2 : cmd? (modCmd (changeSyncs (· - 1) c.bay (setBits (mPop c.hdr) 6) s) c.id fun x => { x with issued := true }) c.id = _ :=
    cmd?_modCmd fun _ => rfl
  rw [h1, h2, hsame]
  rfl

theorem exec_mmCommand_issues {r : QRef} {n : Nat} {t : State} {d : Cmd} (h : Issues s r 0x10 c t d) : exec (.mmCommand r n) s =
    .next (runElems (mmM (d.beats.getD 2 0) * mmN (d.beats.getD 2 0)) noWord mmElem d.id n t) := by
  simp only [exec, execMmCommand, withCmd_issues h]

/-- A command that has not issued leaves the state as it is while its bay is gated, or while it is not ready. -/
theorem withCmd_held {r : QRef} {l : List Nat} {ready : State → Cmd → Bool} {bind go : State → Cmd → State} (hh : cmdHead s r = some c)
    (hi : c.issued = false) (hw : bayGated s c.part c.bay = true ∨ ready s c = false) : withCmd s r l ready bind go = .next s := by
  simp only [withCmd, hh, hi, Bool.not_false, Bool.true_and]
  split
  · rfl
  · next hb =>
    rcases hw with hg | hr
    · simp [hg] at hb
    · simp [hr]

theorem exec_copySeal_held {r : QRef} (hh : cmdHead s r = some c) (hi : c.issued = false) (hr : sealReady s c = false) :
    exec (.copySeal r) s = .next s := by
  simp only [exec, execCopySeal, withCmd_held hh hi (.inr hr), ite_self]

/-! ### Retirement (R184, R187, R188, R396) -/

/-- The state in which a command has retired, before its status is delivered. -/
def retired (s : State) (c : Cmd) : State :=
  let pushed := changeSyncs (· + 1) c.bay (setBits (mPush c.hdr) 6) s
  pruneFences (retireEffect (unbind { pushed with cmds := pushed.cmds.filter fun d => d.id != c.id } c) c)

variable {r : QRef} {v : Word} (hh : cmdHead s r = some c) (hs : c.status = some v) (ha : savedAway s c.part = false)
include hh hs

theorem exec_commandRetirement_waits (hp : ∃ k ∈ setBits (mPush c.hdr) 6, 16 ≤ syncCount s c.bay k) :
    exec (.commandRetirement r) s = .next s := by
  have hfull : pushFull s c = true := by
    obtain ⟨k, hk, hn⟩ := hp
    exact List.any_eq_true.mpr ⟨k, hk, decide_eq_true hn⟩
  simp only [exec, execCommandRetirement, hh, hs, hfull, Bool.or_true, if_true]

include ha in
theorem exec_commandRetirement_retires (hp : ∀ k ∈ setBits (mPush c.hdr) 6, syncCount s c.bay k < 16) :
    exec (.commandRetirement r) s = .next (deliverStatus (retired s c) c v) := by
  have hroom : pushFull s c = false :=
    List.any_eq_false.mpr fun k hk => by simpa using hp k hk
  simp only [exec, execCommandRetirement, hh, hs, ha, hroom, Bool.or_self, Bool.false_eq_true, if_false]
  rfl

end

section
variable {t : State} {c : Cmd} {v : Word}

theorem deliverStatus_none (h : mCk c.hdr = 0) : deliverStatus t c v = t := by
  simp [deliverStatus, h]

theorem deliverStatus_token (h : mCk c.hdr = 1) : deliverStatus t c v = launchTok t (completionFlight c v) := by
  simp [deliverStatus, h]

theorem deliverStatus_word (h : mCk c.hdr = 2) : deliverStatus t c v = completionWrite { t with cmdNo := t.cmdNo + 1 }
    ⟨t.cmdNo, c.part, c.bay, contAddr (mCont c.hdr), v, (c.sender.map (·.sup)).getD true, c.sender.isNone, cmdTree c⟩ := by
  simp [deliverStatus, h]

theorem deliverStatus_interrupt (h : mCk c.hdr = 3) : deliverStatus t c v = interrupt t c.part 1 (fld c.hdr 0 6) v := by
  simp [deliverStatus, h]

end

end Sys2Proof.Machine

open Sys2Proof.Machine

/-- Settles O41: the FIFO counts by `changeSyncs`, which an issue lowers and a retirement raises. -/
theorem commandsIssueAndRetire : Obligations.CommandsIssueAndRetire := by
  unfold Obligations.CommandsIssueAndRetire
  refine ⟨fun s c => ⟨issueCmd_waits, fun hf hp hh hc => ?issues, fun r n t d h => exec_mmCommand_issues h, fun r n hh hi hg => ?gated,
    fun r hh hi hr => exec_copySeal_held hh hi hr⟩, ?retirement⟩
  case issues =>
    obtain ⟨hmem, hframes, -⟩ := changeSyncs_keeps (· - 1) c.bay (setBits (mPop c.hdr) 6) s
    exact ⟨issuedState s c, issueCmd_issues hf hp hh, cmd?_issuedState hc, hmem, hframes,
      fun k _ hk => syncCount_changeSyncs_mem (nodup_setBits ..) hk s, fun b k hk => syncCount_changeSyncs_other hk s⟩
  case gated =>
    simp only [exec, execMmCommand]
    exact withCmd_held hh hi (.inl hg)
  case retirement =>
    intro r s c v hh hs ha push pushed t
    refine ⟨exec_commandRetirement_waits hh hs, fun hp => ?_⟩
    have hr := exec_commandRetirement_retires hh hs ha hp
    have ht : retired s c = t := rfl
    rw [ht] at hr
    exact ⟨fun hk => hr.trans (congrArg _ (deliverStatus_none hk)), fun hk => hr.trans (congrArg _ (deliverStatus_token hk)),
      fun hk => hr.trans (congrArg _ (deliverStatus_word hk)), fun hk => hr.trans (congrArg _ (deliverStatus_interrupt hk))⟩
end

section
/-! Handler install, cbload and the link commands (O40; R189, R201, R250, R385, R408–R413). -/
namespace Sys2Proof.Machine

/-! ### Handler install and cbload (R189, R250, R385, R408, R413) -/

section
variable {r : QRef} {s u : State} {c : Cmd} {rs : List Run}

theorem exec_handlerInstallCommand (h : InEngine s r 0x08 c) (hr : RunsAt s c false (oVa (c.beats.getD 0 0)) 64 64 u rs) :
    exec (.handlerInstallCommand r) s =
      .next (installHandler (readRuns u c.part (cmdTree c) rs).2 c (readRuns u c.part (cmdTree c) rs).1) := by
  rw [RunsAt] at hr
  simp only [exec, execHandlerInstallCommand, withCmd_inEngine h, hr, gotten_val]

theorem exec_cbloadCommand (h : InEngine s r 0x2D c) (hr : RunsAt s c false (oVa (c.beats.getD 0 0)) 32 32 u rs) :
    exec (.cbloadCommand r) s = .next (endCmd (modCmd (readRuns u c.part (cmdTree c) rs).2 c.id fun d =>
      { d with beats := d.beats ++ beatsOf (readRuns u c.part (cmdTree c) rs).1 2 }) c) := by
  rw [RunsAt] at hr
  simp only [exec, execCbloadCommand, withCmd_inEngine h, hr, gotten_val]

/-- The template that bytes of memory hold, and the opcode that it gives its command. -/
def template (bs : List Byte) : BitVec 512 := BitVec.ofNat 512 (ofBytes bs)
def templateEop (bs : List Byte) : Nat := mEop (BitVec.extractLsb' 0 128 (template bs))

theorem installHandler_keeps {bs : List Byte} (hh : nbits (mArg c.hdr) 2 4 ≠ 0) (he : needBeats (templateEop bs) ≠ 0)
    (hk : engOf (templateEop bs) = mArg c.hdr % 4) : installHandler s c bs =
      endCmd { s with handlers := assocSet (c.bay, mArg c.hdr % 4, nbits (mArg c.hdr) 2 4) (template bs) s.handlers } c := by
  have hgood : (nbits (mArg c.hdr) 2 4 == 0 || needBeats (templateEop bs) == 0 || engOf (templateEop bs) != mArg c.hdr % 4) = false := by
    simp [hh, he, hk]
  rw [templateEop, template] at hgood
  simp only [installHandler, hgood, Bool.false_eq_true, if_false, template]

theorem installHandler_fails {bs : List Byte} (h : nbits (mArg c.hdr) 2 4 = 0 ∨ needBeats (templateEop bs) = 0 ∨
    engOf (templateEop bs) ≠ mArg c.hdr % 4) : installHandler s c bs = failEngine s c := by
  have hbad : (nbits (mArg c.hdr) 2 4 == 0 || needBeats (templateEop bs) == 0 || engOf (templateEop bs) != mArg c.hdr % 4) = true := by
    rcases h with h | h | h <;> simp [h]
  rw [templateEop, template] at hbad
  simp only [installHandler, hbad, if_true]

theorem retireEffect_cbload (hs : c.status = some 0) (he : mEop c.hdr = 0x2D) :
    retireEffect s c = loadCodebook s c.bay (mArg c.hdr % 32) (c.beats.getD 1 0) (c.beats.getD 2 0) := by
  simp [retireEffect, hs, he]

theorem codebook_loadCodebook (s : State) (bay slot : Nat) (lo hi : Beat) : codebook (loadCodebook s bay slot lo hi) bay slot = hi ++ lo := by
  rw [codebook, loadCodebook, assoc_assocSet_same]
  rfl

theorem waitcb_loadCodebook {bay slot : Nat} {lo hi : Beat} {y : Stream} (h : stream? (loadCodebook s bay slot lo hi) bay slot = some y) :
    y.waitcb = false := by
  obtain ⟨x, -, rfl⟩ := List.mem_map.mp (List.mem_of_find?_eq_some h)
  have hy := List.find?_some h
  revert hy
  dsimp only
  split
  · exact fun _ => rfl
  · next hx => exact fun hy => absurd hy hx

end

/-! ### coll and osend (R201, R409, R410) -/

theorem onCmd_goes {s : State} {id : Nat} {c : Cmd} {go : State → Cmd → State} (h : cmd? s id = some c) (hs : c.status = none)
    (hh : c.held = false) : onCmd s id go = go s c := by
  simp [onCmd, h, hs, hh]

theorem onCmd_ended {s : State} {id : Nat} {c : Cmd} {go : State → Cmd → State} (h : cmd? s id = some c) (hs : c.status.isSome = true) :
    onCmd s id go = s := by
  simp [onCmd, h, hs]

/-- The command whose elements are performed is there, and neither ended nor held. -/
theorem performed_starts {total id m : Nat} {f : State → Cmd → State} {s t : State} (h : Performed total f id m s t) :
    ∃ c, cmd? s id = some c ∧ c.status = none ∧ c.held = false := by
  cases h with
  | last s c h1 h2 h3 _ => exact ⟨_, h1, h2, h3⟩
  | elem m s t c d h1 h2 h3 => exact ⟨_, h1, h2, h3⟩

theorem cmds_stable (l : List Cmd) : Stable fun s => s.cmds = l where
  same h _ hc := hc.trans h
  wrMem _ _ h := h
  wrShelf _ _ h := h

/-- A command that fails has a status. -/
theorem status_failCmd {s : State} {c : Cmd} (h : cmd? s c.id = some c) (code : BitVec 8) (g4 g5 : Word) :
    ∃ d, cmd? (failCmd s c code g4 g5) c.id = some d ∧ d.status.isSome = true := by
  have hmod : cmd? (modCmd s c.id fun x => { x with status := some (faultStatus code), held := false }) c.id = _ :=
    cmd?_modCmd fun _ => rfl
  rw [h] at hmod
  refine ⟨{ c with status := some (faultStatus code), held := false }, ?_, rfl⟩
  refine Eq.trans ?_ hmod
  unfold failCmd
  dsimp only
  split
  · exact congrArg (List.find? _) ((cmds_stable _).deliverN rfl _ _)
  · rfl

section
variable {r : QRef} {l : List Contribution} {routes : List Nat} {s : State} {c : Cmd}

theorem writeColl_writes {m : Nat} {v : State} {g : Cmd} (ho : c.old = true) (hp : Performed (c.beats.length - 3) collElem c.id m s v)
    (hm : m ≤ c.beats.length - 3) (hg : cmd? v c.id = some g) : writeColl s c = endCmd v g := by
  simp only [writeColl, ho, if_true, runElems_performed _ hm hp hg]

section
variable (h : InEngine s r 0x40 c)
include h

theorem exec_collCommand_begins {b : Cmd} (hb : cmd? (if c.out = 0 then beginColl s c else s) c.id = some b) (hs : b.status = none)
    (hh : b.held = false) (hout : b.out ≠ 0) (hold : b.old = false) : exec (.collCommand r ⟨l, routes⟩) s =
      .next (gatherColl l routes (if c.out = 0 then beginColl s c else s) b) := by
  simp only [exec, execCollCommand, withCmd_inEngine h, beq_iff_eq, onCmd_goes hb hs hh, hout, hold, Bool.false_eq_true, if_false]

theorem exec_collCommand_writes (hout : c.out ≠ 0) (ho : c.old = true) : exec (.collCommand r ⟨l, routes⟩) s = .next (writeColl s c) := by
  have hw := withCmd_inEngine (ready := always) (bind := noBind) (go := fun s c => onCmd (if c.out == 0 then beginColl s c else s) c.id fun s c =>
    if c.out == 0 then s else if c.old then writeColl s c else gatherColl l routes s c) h
  obtain ⟨-, -, hs, hh, -, -, -, -, hc⟩ := h
  refine hw.trans ?_
  simp only [beq_false_of_ne hout, Bool.false_eq_true, if_false, onCmd_goes hc hs hh, ho, if_true]

theorem exec_collCommand_gathers (hout : c.out ≠ 0) (ho : c.old = false) :
    exec (.collCommand r ⟨l, routes⟩) s = .next (gatherColl l routes s c) := by
  have hw := exec_collCommand_begins (l := l) (routes := routes) h (b := c)
  obtain ⟨-, -, hs, hh, -, -, -, -, hc⟩ := h
  rw [if_neg hout] at hw
  exact hw hc hs hh hout ho

end

section
variable {d : Cmd} (hd : cmd? (handOut s c (clTable c) (collPackets s c) routes) c.id = some d) (hs : d.status = none) (hh : d.held = false)
include hd hs hh

theorem gatherColl_waits (ho : d.out ≤ clNm (clBeat d)) : gatherColl l routes s c = handOut s c (clTable c) (collPackets s c) routes := by
  simp only [gatherColl, onCmd_goes hd hs hh, ho, if_true]

theorem gatherColl_lost (ho : clNm (clBeat d) < d.out) (hl : d.lost = true) :
    gatherColl l routes s c = failCmd (handOut s c (clTable c) (collPackets s c) routes) d F_LINK 24 0 := by
  simp only [gatherColl, onCmd_goes hd hs hh, Nat.not_le.mpr ho, hl, if_false, if_true]

theorem gatherColl_meets (ho : clNm (clBeat d) < d.out) (hl : d.lost = false) :
    gatherColl l routes s c = onCmd (meetColl l (handOut s c (clTable c) (collPackets s c) routes) d) d.id writeColl := by
  simp only [gatherColl, onCmd_goes hd hs hh, Nat.not_le.mpr ho, hl, Bool.false_eq_true, if_false]

end

/-- The members do not agree: the command fails, and nothing is written. -/
theorem meetColl_mismatched {u : State} {d : Cmd} (hd : cmd? u d.id = some d) (ha : allCame u d l = true) (hm : mismatched u d l = true) :
    onCmd (meetColl l u d) d.id writeColl = failEngine u d := by
  simp only [meetColl, ha, hm, Bool.not_true, Bool.false_eq_true, if_false, if_true]
  obtain ⟨e, he, hs⟩ := status_failCmd hd F_ENGINE (mHigh d.hdr) (mCont d.hdr)
  exact onCmd_ended he hs

/-- The members agree: the result is formed, and its elements are written. -/
theorem meetColl_forms {u v : State} {d e g : Cmd} {m : Nat} (hd : cmd? u d.id = some d) (ha : allCame u d l = true)
    (hm : mismatched u d l = false) (he : cmd? (formColl u d l) d.id = some e)
    (hp : Performed (e.beats.length - 3) collElem d.id m (formColl u d l) v) (hn : m ≤ e.beats.length - 3) (hg : cmd? v d.id = some g) :
    onCmd (meetColl l u d) d.id writeColl = endCmd v g := by
  simp only [meetColl, ha, hm, Bool.not_true, Bool.false_eq_true, if_false]
  obtain ⟨x, hx, hs, hh⟩ := performed_starts hp
  obtain rfl : e = x := Option.some.inj (he.symm.trans hx)
  have hid := cmd?_id he
  have hformed : cmd? (formColl u d l) d.id = _ := cmd?_modCmd fun _ => rfl
  rw [hd, he] at hformed
  have hold : e.old = true := congrArg Cmd.old (Option.some.inj hformed)
  rw [onCmd_goes he hs hh]
  rw [← hid] at hp hg
  exact writeColl_writes hold hp hn hg

section
variable (h : InEngine s r 0x41 c)
include h

theorem exec_osendCommand_begins {b : Cmd} (hb : cmd? (if c.out = 0 then beginSend s c else s) c.id = some b) (hs : b.status = none)
    (hh : b.held = false) (hout : b.out ≠ 0) : exec (.osendCommand r routes) s =
      .next (sendCopies routes (if c.out = 0 then beginSend s c else s) b) := by
  simp only [exec, execOsendCommand, withCmd_inEngine h, beq_iff_eq, onCmd_goes hb hs hh, hout, if_false]

theorem exec_osendCommand_sends (hout : c.out ≠ 0) : exec (.osendCommand r routes) s = .next (sendCopies routes s c) := by
  have hw := exec_osendCommand_begins (routes := routes) h (b := c)
  obtain ⟨-, -, hs, hh, -, -, -, -, hc⟩ := h
  rw [if_neg hout] at hw
  exact hw hc hs hh hout

end

section
variable {u : State} {d : Cmd} (hu : handOut s c (osList c) (fun dst => [ordPacket s c dst (osPayload c)]) routes = u)
  (hd : cmd? u c.id = some d) (hs : d.status = none) (hh : d.held = false)
include hu hd hs hh

theorem sendCopies_waits (ho : d.out ≤ osCount d ∨ copiesLeft u d = true) : sendCopies routes s c = u := by
  have hw : (decide (d.out ≤ osCount d) || copiesLeft u d) = true := by simpa using ho
  simp only [sendCopies, hu, onCmd_goes hd hs hh]
  exact if_pos hw

theorem sendCopies_ends (ho : osCount d < d.out) (hl : copiesLeft u d = false) :
    sendCopies routes s c = if d.lost then failCmd u d F_LINK 24 0 else endCmd u d := by
  have hw : (decide (d.out ≤ osCount d) || copiesLeft u d) = false := by simp [ho, hl]
  simp only [sendCopies, hu, onCmd_goes hd hs hh]
  exact if_neg (Bool.eq_false_iff.mp hw)

end

end

/-! ### orecv, xsend and xget (R411, R412) -/

section
variable {r : QRef} {reply : XReply} {s t : State} {c d : Cmd} (hd : cmd? t c.id = some d)

section
include hd

theorem exec_orecvCommand (h : InEngine s r 0x42 c)
    (hc : Carried (orTake c) (localWrite · c (c.beats.getD 0 0)) (localAt (c.beats.getD 0 0) 0) (orLen c) c.id s t) :
    exec (.orecvCommand r) s = .next (if mArg c.hdr < (orBytes c).length then failEngine t d else endCmd t d) := by
  simp only [exec, execOrecvCommand, withCmd_inEngine h]
  exact congrArg Host.Outcome.next (carryBytes_carried _ hc hd fun _ _ => by omega)

end

theorem linkEnd_ends {k : Nat} (h : mArg d.hdr ≠ 0 ∨ rmHere t (d.beats.getD k 0) = true ∨ reply.code = 0) : linkEnd k reply t d = endCmd t d := by
  have hw : (mArg d.hdr == 0 && !rmHere t (d.beats.getD k 0) && reply.code != 0) = false := by
    rcases h with h | h | h
    · simp only [beq_false_of_ne h, Bool.false_and]
    · simp only [h, Bool.not_true, Bool.and_false, Bool.false_and]
    · simp only [h, bne_self_eq_false, Bool.and_false]
  simp only [linkEnd, hw, Bool.false_eq_true, if_false]

theorem linkEnd_fails {k : Nat} (h0 : mArg d.hdr = 0) (hr : rmHere t (d.beats.getD k 0) = false) (hc : reply.code ≠ 0) :
    linkEnd k reply t d = failCmd t d reply.code (BitVec.ofNat 64 (oVa (d.beats.getD k 0))) 0 := by
  have hw : (mArg d.hdr == 0 && !rmHere t (d.beats.getD k 0) && reply.code != 0) = true := by
    simp only [h0, hr, bne_iff_ne.mpr hc, beq_self_eq_true, Bool.not_false, Bool.and_self]
  simp only [linkEnd, hw, if_true]

theorem noGroup_eq_false {b : Beat} (h : rmHere s b = true ∨ groupOf s c.part ≠ 0) : (!rmHere s b && groupOf s c.part == 0) = false := by
  rcases h with h | h <;> simp [h]

theorem exec_xsendCommand_noGroup (h : InEngine s r 0x43 c) (hr : rmHere s (c.beats.getD 1 0) = false) (hg : groupOf s c.part = 0) :
    exec (.xsendCommand r reply) s = .next (failCmd s c F_LINK 24 0) := by
  simp only [exec, execXsendCommand, withCmd_inEngine h, hr, hg, Bool.not_false, beq_self_eq_true, Bool.and_self, if_true]

theorem exec_xgetCommand_noGroup (h : InEngine s r 0x44 c) (hr : rmHere s (c.beats.getD 0 0) = false) (hg : groupOf s c.part = 0) :
    exec (.xgetCommand r reply) s = .next (failCmd s c F_LINK 24 0) := by
  simp only [exec, execXgetCommand, withCmd_inEngine h, hr, hg, Bool.not_false, beq_self_eq_true, Bool.and_self, if_true]

include hd

theorem exec_xsendCommand (h : InEngine s r 0x43 c) (hg : rmHere s (c.beats.getD 1 0) = true ∨ groupOf s c.part ≠ 0)
    (hc : Carried (localRead · c (c.beats.getD 0 0)) (xsendPut reply c) (oVa (c.beats.getD 1 0)) (mArg c.hdr) c.id s t) :
    exec (.xsendCommand r reply) s = .next (linkEnd 1 reply t d) := by
  simp only [exec, execXsendCommand, withCmd_inEngine h, noGroup_eq_false hg, Bool.false_eq_true, if_false]
  exact congrArg Host.Outcome.next (carryBytes_carried _ hc hd fun _ _ => by omega)

theorem exec_xgetCommand (h : InEngine s r 0x44 c) (hg : rmHere s (c.beats.getD 0 0) = true ∨ groupOf s c.part ≠ 0)
    (hc : Carried (xgetTake reply c) (localWrite · c (c.beats.getD 1 0)) (localAt (c.beats.getD 1 0) 0) (mArg c.hdr) c.id s t) :
    exec (.xgetCommand r reply) s = .next (linkEnd 0 reply t d) := by
  simp only [exec, execXgetCommand, withCmd_inEngine h, noGroup_eq_false hg, Bool.false_eq_true, if_false]
  exact congrArg Host.Outcome.next (carryBytes_carried _ hc hd fun _ _ => by omega)

end

end Sys2Proof.Machine

open Sys2Proof.Machine

/-- Settles O40: the loops by `runElems_performed` and `carryBytes_carried`, a stamped command by what `handOut` leaves of it. -/
theorem installAndLinkCommands : Obligations.InstallAndLinkCommands := by
  unfold Obligations.InstallAndLinkCommands
  refine ⟨?tables, ?coll, ?osend, ?copies⟩
  case tables =>
    intro r s u c rs va x
    refine ⟨fun h hr => ?install, exec_cbloadCommand, fun hs he => ?retire⟩
    case install =>
      intro t e k slot
      exact ⟨fun hh he hk => (exec_handlerInstallCommand h hr).trans (congrArg _ (installHandler_keeps hh he hk)),
        fun hb => (exec_handlerInstallCommand h hr).trans (congrArg _ (installHandler_fails hb))⟩
    case retire =>
      have ht := retireEffect_cbload (s := s) hs he
      dsimp only
      rw [ht]
      exact ⟨codebook_loadCodebook .., fun k hk => assoc_assocSet_other hk .., fun y hy => waitcb_loadCodebook hy, rfl⟩
  case coll =>
    intro r l routes s c h t
    refine ⟨fun b => exec_collCommand_begins h, fun m v g ho hold hp hm hg =>
      (exec_collCommand_writes h ho hold).trans (congrArg _ (writeColl_writes hold hp hm hg)), fun d ho hold => ?gathers⟩
    case gathers =>
      intro u hd hs hh
      have hgather := exec_collCommand_gathers (l := l) (routes := routes) h ho hold
      have hid := cmd?_id hd
      have hd' : cmd? u d.id = some d := hid.symm ▸ hd
      refine ⟨fun hw => hgather.trans (congrArg _ (gatherColl_waits hd hs hh hw)),
        fun hw hl => hgather.trans (congrArg _ (gatherColl_lost hd hs hh hw hl)), fun hw hl => ?_⟩
      have hmeets := hgather.trans (congrArg _ (gatherColl_meets hd hs hh hw hl))
      refine ⟨fun ha hm => hmeets.trans (congrArg _ (meetColl_mismatched hd' ha hm)), fun e m v g ha hm he hp hn hg => ?_⟩
      rw [← hid] at he hp hg
      exact hmeets.trans (congrArg _ (meetColl_forms hd' ha hm he hp hn hg))
  case osend =>
    intro r routes s c h t
    refine ⟨fun b => exec_osendCommand_begins h, fun d ho => ?sends⟩
    case sends =>
      intro u hd hs hh
      have hsend := exec_osendCommand_sends (routes := routes) h ho
      exact ⟨fun hw => hsend.trans (congrArg _ (sendCopies_waits rfl hd hs hh hw)),
        fun hw hl => hsend.trans (congrArg _ (sendCopies_ends rfl hd hs hh hw hl))⟩
  case copies =>
    intro r reply s t c d hd a b n
    refine ⟨fun h hc => ?orecv, fun h => ⟨exec_xsendCommand_noGroup h, fun hg hc => ?xsend⟩, fun h => ⟨exec_xgetCommand_noGroup h, fun hg hc => ?xget⟩⟩
    case orecv =>
      have he := exec_orecvCommand hd h hc
      exact ⟨fun hn => he.trans (congrArg _ (if_neg (Nat.not_lt.mpr hn))), fun hn => he.trans (congrArg _ (if_pos hn))⟩
    case xsend =>
      have he := exec_xsendCommand hd h hg hc
      exact ⟨fun hl => he.trans (congrArg _ (linkEnd_ends hl)), fun h0 hr hx => he.trans (congrArg _ (linkEnd_fails h0 hr hx))⟩
    case xget =>
      have he := exec_xgetCommand hd h hg hc
      exact ⟨fun hl => he.trans (congrArg _ (linkEnd_ends hl)), fun h0 hr hx => he.trans (congrArg _ (linkEnd_fails h0 hr hx))⟩
end

section
/-! Events of the memory edge (O42; R102, R104, R109–R113, R131, R147, R150, R385, R390, R439). -/
namespace Sys2Proof.Machine

theorem exec_pageWalk_fills {n : Nat} {s t : State} {w : Walk} {e : TlbEntry} (hw : s.walks[n]? = some w) (hs : inSlot s w.part = true)
    (he : walkEnd { s with walks := dropAt n s.walks } w = (t, .ok e)) : exec (.pageWalk n) s = .next (afterWalk (tlbFill t e) w.bay) := by
  simp only [exec, execPageWalk, hw, hs, he, Bool.not_true, Bool.false_eq_true, if_false]

/-! ### Waiting instances -/

section
variable {n : Nat} {s : State} {i : Inst} (hi : s.waits[n]? = some i) (hs : savedAway s i.part = false)
include hi hs

theorem exec_accessPlacement (hu : unplaced i = true) (hp : canPlace { s with cur := i } = true ∨
    (edgeOpen { s with cur := i } = true ∧ chainStuck s i = true ∧ lowestOwn s i = true)) : exec (.accessPlacement n) s =
      .next { wakeInst (placeCur { s with cur := i }) n (placeCur { s with cur := i }).cur with cur := s.cur } := by
  have hgo : (canPlace { s with cur := i } || (edgeOpen { s with cur := i } && chainStuck s i && lowestOwn s i)) = true := by
    rcases hp with hp | ⟨he, hc, hl⟩
    · simp only [hp, Bool.true_or]
    · simp only [he, hc, hl, Bool.and_self, Bool.or_true]
  simp only [exec, execAccessPlacement, hi, hs, hu, hgo, Bool.not_false, Bool.and_self, if_true]

theorem exec_deterministicApply (hm : isMem (opOf i.word) = true) (hu : unplaced i = false) (hc : i.cleared = false) (hd : isDet s i.part = true)
    (ht : accessTurn { s with cur := i } = true) : exec (.deterministicApply n) s = .next (wakeInst s n { i with cleared := true }) := by
  simp only [exec, execDeterministicApply, hi, hs, hm, hu, hc, hd, ht, Bool.not_false, Bool.and_self, if_true]

theorem exec_waitmTimeout {k : Nat} (ho : opOf i.word = 0xA4) (hk : i.stage = some (2 + k)) (hle : k ≤ s.pkg.cycle) :
    exec (.waitmTimeout n) s = .next (wakeWaitm s n i 4) := by
  have hdue : (decide (2 ≤ 2 + k) && decide (2 + k - 2 ≤ s.pkg.cycle)) = true := by
    simp [hle]
  simp only [exec, execWaitmTimeout, hi, hs, ho, hk, hdue, beq_self_eq_true, Bool.not_false, Bool.and_self, if_true]

theorem exec_spuriousWake_wakes (ho : opOf i.word = 0xA4) (hu : unplaced i = false) (hp : spurOpen s i.part i.tag.frame.toNat = true) :
    exec (.spuriousWake n) s =
      .next (wakeWaitm (modFrame s i.part i.tag.frame.toNat fun x => { x with spurAt := some s.pkg.cycle }) n i 5) := by
  simp only [exec, execSpuriousWake, hi, hs, ho, hu, hp, beq_self_eq_true, Bool.not_false, Bool.and_self, if_true]

omit hs in
theorem exec_spuriousWake_early {g : Frame} {c : Nat} (hf : frame? s i.part i.tag.frame.toNat = some g) (hg : g.spurAt = some c)
    (hc : s.pkg.cycle < c + 1024) : exec (.spuriousWake n) s = .next s := by
  have hp : spurOpen s i.part i.tag.frame.toNat = false := by
    simp only [spurOpen, hf, Option.bind_some, hg, decide_eq_false (Nat.not_le.mpr hc)]
  simp only [exec, execSpuriousWake, hi, hp, Bool.and_false, Bool.false_eq_true, if_false]

theorem exec_yieldExpiry {c : Nat} (ho : opOf i.word = 0xE7) (hc : i.stage = some c) (hd : yieldDue s i.part c (getS i.word).imm.toNat = true)
    (hn : anyNull i = false) : exec (.yieldExpiry n) s =
      .next { send { s with cur := i, waits := dropAt n s.waits } (getS i.word).t0 (opA { s with cur := i, waits := dropAt n s.waits }) with cur := s.cur } := by
  simp only [exec, execYieldExpiry, hi, hs, ho, hc, hd, hn, beq_self_eq_true, Bool.not_false, Bool.and_self, Bool.false_eq_true, if_false,
    if_true]

end

/-! ### Streams (R60, R111, R385) -/

section
variable {bay slot : Nat} {s : State} {x : Stream} (hx : stream? s bay slot = some x) (hr : streamRuns s x = true) (hw : x.waitcb = false)
include hx hr hw

theorem exec_streamElementIssue_ends (hc : x.count ≤ x.pos) : exec (.streamElementIssue bay slot) s =
    .next (streamSend { s with streams := s.streams.filter fun y => !(y.bay == bay && y.slot == slot) } x .eos 0) := by
  simp only [exec, execStreamElementIssue, hx, hr, hw, hc, Bool.not_true, Bool.or_self, Bool.false_eq_true, if_false, if_true]

theorem exec_streamElementIssue_handsOn {v : Word} (hc : x.pos < x.count) (hd : assoc x.pos x.done = some v) :
    exec (.streamElementIssue bay slot) s = .next (handOn s x v) := by
  simp only [exec, execStreamElementIssue, hx, hr, hw, Nat.not_le.mpr hc, hd, Bool.not_true, Bool.or_self, Bool.false_eq_true, if_false]

theorem exec_streamElementIssue_reads {e : Nat} {u : State} {v : Word} (hc : x.pos < x.count) (hd : assoc x.pos x.done = none)
    (he : nextElement s x = some e) (ht : streamTurn s x = true) (hv : elemRead s x e = (u, .value v)) :
    exec (.streamElementIssue bay slot) s = .next (if e = x.pos then handOn u x v
      else { u with streams := updWhere (fun y => y.id == x.id) (fun y => { y with done := y.done ++ [(e, v)] }) u.streams }) := by
  simp only [exec, execStreamElementIssue, hx, hr, hw, Nat.not_le.mpr hc, hd, he, ht, hv, Bool.not_true, Bool.or_self, Bool.false_eq_true,
    if_false, beq_iff_eq]

end

/-- The next element of a stream lies within 64 places of the oldest incomplete one, and within the stream. -/
theorem nextElement_range {s : State} {x : Stream} {e : Nat} (h : nextElement s x = some e) : x.pos ≤ e ∧ e < x.pos + 64 ∧ e < x.count := by
  obtain ⟨k, hk, rfl⟩ := List.mem_map.mp (List.mem_of_find?_eq_some h)
  have hlt := List.mem_range.mp hk
  have hcount := List.find?_some h
  simp only [Bool.and_eq_true, decide_eq_true_eq] at hcount
  exact ⟨Nat.le_add_right .., Nat.add_lt_add_left hlt _, hcount.1.1.1⟩

/-! ### Invalidations (R112, R113) -/

section
variable {s : State} {d : BitVec 256}

theorem mem_tlb_startInval {p : Nat} {physical : Bool} {e : TlbEntry} :
    e ∈ (startInval s p d physical).tlb ↔ e ∈ s.tlb ∧ invMatches d p e = false := by
  simp only [startInval, List.mem_filter, Bool.not_eq_true']

theorem root_startInval {p : Nat} {physical : Bool} {w : Walk} (hw : w ∈ (startInval s p d physical).walks) (hp : w.part = p) :
    w.root = s1root s p := by
  obtain ⟨x, -, rfl⟩ := List.mem_map.mp hw
  revert hp
  dsimp only
  split
  · exact fun _ => rfl
  · next hx => exact fun hp => absurd (beq_iff_eq.mpr hp) hx

end

end Sys2Proof.Machine

open Sys2Proof.Machine

/-- Settles O42: each event by the guard that it meets, an invalidation by what `startInval` keeps. -/
theorem edgeEvents : Obligations.EdgeEvents := by
  unfold Obligations.EdgeEvents
  refine ⟨⟨fun n s t w e => exec_pageWalk_fills, fun n s i hi hs => ?waiting, fun bay slot s x hx hr hw => ?stream⟩, fun d s => ?invalidation⟩
  case waiting =>
    exact ⟨exec_accessPlacement hi hs, exec_deterministicApply hi hs, fun k => exec_waitmTimeout hi hs,
      fun ho hu => ⟨exec_spuriousWake_wakes hi hs ho hu, fun g c => exec_spuriousWake_early hi⟩, fun c => exec_yieldExpiry hi hs⟩
  case stream =>
    refine ⟨exec_streamElementIssue_ends hx hr hw, fun hc v => exec_streamElementIssue_handsOn hx hr hw hc, fun hc hd e u v he ht hv => ?_⟩
    have hreads := exec_streamElementIssue_reads hx hr hw hc hd he ht hv
    obtain ⟨hlo, hhi, hcount⟩ := nextElement_range he
    exact ⟨hlo, hhi, hcount, fun h => hreads.trans (congrArg _ (if_pos h)), fun h => hreads.trans (congrArg _ (if_neg h))⟩
  case invalidation =>
    refine ⟨fun hb => ?refused, fun hb => ⟨startInval s (invPart d) d true, ?starts, fun e => mem_tlb_startInval, fun w => root_startInval, rfl, rfl⟩,
      fun n v hv => ⟨fun hq => ?done, fun hq => ?waits⟩⟩
    case refused => exact congrArg Host.Outcome.next (if_pos hb)
    case starts => exact congrArg Host.Outcome.next (if_neg (Bool.eq_false_iff.mp hb))
    case done => simp only [exec, execInvalidationDone, hv, hq, if_true]
    case waits => simp only [exec, execInvalidationDone, hv, hq, Bool.false_eq_true, if_false]
end

section
/-! Answers of the hypervisor, residency and pre-emption (O43; R179, R193, R196, R442, R453, R456–R459). -/
namespace Sys2Proof.Machine

/-! ### Answers (R193, R196, R442, R453, R456) -/

section
variable {p seq : Nat} {s : State}

/-- A released access that is no completion word walks again. -/
theorem exec_hfqRelease_access {f : PageFault} {x : TrapItem} (hf : heldFault s p seq = some f) (hx : f.item = some x)
    (hv : ∀ id, x.victim ≠ .completion id) : exec (.hfqRelease p seq) s = .next (closeStage2 s f) := by
  obtain ⟨r, v, vec⟩ := x
  cases v with
  | completion id => exact absurd rfl (hv id)
  | _ => simp only [exec, execHfqRelease, hf, hx]

theorem exec_hfqRelease_completion {f : PageFault} {x : TrapItem} {id : Nat} (hf : heldFault s p seq = some f) (hx : f.item = some x)
    (hv : x.victim = .completion id) : exec (.hfqRelease p seq) s = .next (retryCompletion (closeStage2 s f) id) := by
  obtain ⟨r, v, vec⟩ := x
  obtain rfl : v = .completion id := hv
  simp only [exec, execHfqRelease, hf, hx]

theorem exec_hfqRelease_own {f : PageFault} (hf : heldFault s p seq = some f) (hx : f.item = none) :
    exec (.hfqRelease p seq) s = .next (finishEnding (closeStage2 s f)) := by
  simp only [exec, execHfqRelease, hf, hx]

theorem exec_hfqAbort_own {f : PageFault} (hf : heldFault s p seq = some f) (hx : f.item = none) : exec (.hfqAbort p seq) s =
    .next (haltPart { s with pageFaults := { f with aborted := true } :: s.pageFaults.erase f } p) := by
  simp only [exec, execHfqAbort, hf, hx]

section
variable {n : Nat} {i : Inst} (hf : heldFault s p seq = none) (hc : heldCall s p seq = some (n, i))
include hf hc

theorem exec_hfqRelease_call : exec (.hfqRelease p seq) s = .next (answerCall s n i s.pkg.hfqAnsv) := by
  simp only [exec, execHfqRelease, hf, hc]

theorem exec_hfqAbort_call : exec (.hfqAbort p seq) s = .next (answerCall s n i 0xFFFFFFFFFFFFFFFF) := by
  simp only [exec, execHfqAbort, hf, hc]

end

theorem exec_preCtlUnhalt_resumes (h : (part s p).preHalted = true) : exec (.preCtlUnhalt p) s =
    .next (finishEnding (modPart (retryAborted s p) p fun t =>
      { t with preHalted := false, haltRec := none, trapQ := (t.haltRec.toList.map fun x => { x with vec := none }) ++ t.trapQ })) := by
  simp only [exec, execPreCtlUnhalt, h, if_true]

end

/-! ### Pre-emption (R179, R457–R459) -/

section
variable {p : Nat} {s : State}

section
variable (hl : live s p = true)
include hl

section
variable (hb : (part s p).preBusy = false) (hs : (part s p).preSaved = false)
include hb hs

theorem exec_preCtlSave_gates (hr : (part s p).rszBusy = false) :
    exec (.preCtlSave p) s = .next (modPart s p fun t => { t with preBusy := true }) := by
  simp only [exec, execPreCtlSave, hl, hb, hs, hr, Bool.not_true, Bool.false_eq_true, if_false]

theorem exec_preCtlSave_resizing (hr : (part s p).rszBusy = true) :
    exec (.preCtlSave p) s = .next (modPart s p fun t => { t with prePending := true }) := by
  simp only [exec, execPreCtlSave, hl, hb, hs, hr, Bool.not_true, Bool.false_eq_true, if_false, if_true]

end

theorem exec_preCtlSave_busy (hb : (part s p).preBusy = true) : exec (.preCtlSave p) s = .next (preErr s p 1) := by
  simp only [exec, execPreCtlSave, hl, hb, Bool.not_true, Bool.false_eq_true, if_false, if_true]

theorem exec_preCtlSave_saved (hb : (part s p).preBusy = false) (hs : (part s p).preSaved = true) :
    exec (.preCtlSave p) s = .next (preErr s p 3) := by
  simp only [exec, execPreCtlSave, hl, hb, hs, Bool.not_true, Bool.false_eq_true, if_false, if_true]

theorem exec_preCtlRestore_unsaved (hs : (part s p).preSaved = false) :
    exec (.preCtlRestore p) s = .next (preErr s p (if (part s p).preBusy then 1 else 3)) := by
  simp only [exec, execPreCtlRestore, hl, hs, Bool.not_true, Bool.not_false, Bool.false_eq_true, if_false, if_true]

section
variable {u : State} {pa : Nat} (hs : (part s p).preSaved = true) (ht : saveTouch s p (part s p).saved.length false = .ok (u, pa))
include hs ht

theorem exec_preCtlRestore_restores {w : State} (hmagic : fld (rd64 u.mem pa) 48 16 = 0x5356)
    (hcount : fld (rd64 u.mem pa) 40 8 = (part s p).saved.length) (hw : restoreBays u p = .ok w) :
    exec (.preCtlRestore p) s = .next (resumePart w p) := by
  simp only [exec, execPreCtlRestore, hl, hs, ht, hmagic, hcount, hw, bne_self_eq_false, Bool.not_true, Bool.or_self, Bool.false_eq_true,
    if_false]

theorem exec_preCtlRestore_errs (hbad : fld (rd64 u.mem pa) 48 16 ≠ 0x5356 ∨ fld (rd64 u.mem pa) 40 8 ≠ (part s p).saved.length) :
    exec (.preCtlRestore p) s = .next (preErr (modPart u p fun t => { t with preBusy := false }) p 2) := by
  have hrefused : (fld (rd64 u.mem pa) 48 16 != 0x5356 || fld (rd64 u.mem pa) 40 8 != (part s p).saved.length) = true := by
    rcases hbad with h | h
    · rw [bne_iff_ne.mpr h, Bool.true_or]
    · rw [bne_iff_ne.mpr h, Bool.or_true]
  simp only [exec, execPreCtlRestore, hl, hs, ht, hrefused, Bool.not_true, Bool.false_eq_true, if_false, if_true]

end

end

theorem exec_preemptSettled_saves {u : State} {pa : Nat} (hb : (part s p).preBusy = true) (hs : (part s p).preSaved = false)
    (hq : settledPart s p = true) (ht : saveTouch s p (baysOf s p).length true = .ok (u, pa)) : exec (.preemptSettled p) s =
      .next (modPart (pokeBytes ((baysOf u p).foldl (saveBay p) u) pa (saveHeader u p (baysOf u p).length)) p fun t =>
        { t with preBusy := false, preSaved := true }) := by
  simp only [exec, execPreemptSettled, hb, hs, hq, ht, Bool.not_true, Bool.or_self, Bool.false_eq_true, if_false]

end

end Sys2Proof.Machine

open Sys2Proof.Machine

/-- Settles O43: each answer, and each write of PRE_CTL, by the state that it meets. -/
theorem answersAndPreEmption : Obligations.AnswersAndPreEmption := by
  unfold Obligations.AnswersAndPreEmption
  refine ⟨fun p seq s => ?answers, fun p s hl => ?preemption⟩
  case answers =>
    exact ⟨fun f x => exec_hfqRelease_access, fun f x id => exec_hfqRelease_completion,
      fun f hf hx => ⟨exec_hfqRelease_own hf hx, exec_hfqAbort_own hf hx⟩,
      fun n i hf hc => ⟨exec_hfqRelease_call hf hc, exec_hfqAbort_call hf hc⟩, rfl, rfl, rfl, exec_preCtlUnhalt_resumes⟩
  case preemption =>
    intro t
    refine ⟨fun hb hs => ⟨exec_preCtlSave_gates hl hb hs, exec_preCtlSave_resizing hl hb hs⟩, exec_preCtlSave_busy hl,
      exec_preCtlSave_saved hl, fun u pa hb hs hq ht => exec_preemptSettled_saves hb hs hq ht, exec_preCtlRestore_unsaved hl,
      fun u pa hs ht => ⟨fun w => exec_preCtlRestore_restores hl hs ht, exec_preCtlRestore_errs hl hs ht⟩⟩
end

section
/-! Partition entries and the hypervisor window (O44; R82, R234–R236, R247, R462). -/
namespace Sys2Proof.Machine

/-! ### Partition entries (R234–R236, R247) -/

section
variable {p : Nat} {s : State} {v : Word} (hp : p < 64)

/-- The entry of a partition with VALID = 1 over its first word. -/
def validEntry (s : State) (p : Nat) : List Word := (part s p).ent.set 0 (BitVec.ofNat 64 (putFld (entWord s p 0).toNat 63 1 1))

section
variable (hl : live s p = false)
include hp hl

theorem exec_partitionCreate : exec (.partitionCreate p) s = .next (createPart s p (BitVec.ofNat 64 (putFld (entWord s p 0).toNat 63 1 1))) := by
  simp only [exec, execPartitionCreate, hl, decide_eq_false (Nat.not_le.mpr hp), Bool.or_self, Bool.false_eq_true, if_false]

theorem exec_partitionCreate_refused (hb : createBad s p (validEntry s p) = true) : exec (.partitionCreate p) s = .next (refuseWrite s) := by
  rw [validEntry] at hb
  rw [exec_partitionCreate hp hl]
  simp only [createPart, hb, if_true]

theorem exec_partitionCreate_born {t : State} (hb : createBad s p (validEntry s p) = false)
    (hz : zeroPages p 514 s ((validEntry s p).getD 14 0).toNat (8 * (rangeOf ((validEntry s p).getD 9 0)).2) = (t, true)) :
    exec (.partitionCreate p) s = .next (modPart t p fun x => bornPart x (validEntry s p)) := by
  rw [validEntry] at hb hz
  rw [exec_partitionCreate hp hl]
  simp only [createPart, hb, hz, Bool.false_eq_true, if_false, validEntry]

theorem exec_partitionEntryWrite_dead {k : Nat} (hk : 0 < k) (hk' : k < 32) :
    exec (.partitionEntryWrite p (8 * k) v) s = .next (modPart s p fun t => { t with ent := t.ent.set k v }) := by
  have hoff : (decide (64 ≤ p) || 8 * k % 8 != 0 || decide (256 ≤ 8 * k)) = false := by
    simp
    omega
  simp only [exec, execPartitionEntryWrite, hoff, hl, Nat.mul_div_cancel_left k (by decide : 0 < 8), beq_false_of_ne (Nat.ne_of_gt hk),
    Bool.false_and, Bool.false_eq_true, if_false]

theorem exec_partitionEntryWrite_valid (hv : bitAt v 63 = true) : exec (.partitionEntryWrite p 0 v) s = .next (createPart s p v) := by
  simp [exec, execPartitionEntryWrite, hl, hv, Nat.not_le.mpr hp]

end

section
variable (hl : live s p = true)
include hl

section
include hp

theorem exec_partitionEntryWrite_budget :
    exec (.partitionEntryWrite p 88 v) s = .next (modPart s p fun t => { t with ent := t.ent.set 11 v, enBudget := v }) := by
  simp [exec, execPartitionEntryWrite, hl, Nat.not_le.mpr hp]

theorem exec_partitionEntryWrite_root :
    exec (.partitionEntryWrite p 96 v) s = .next (modPart s p fun t => { t with ent := t.ent.set 12 v }) := by
  simp [exec, execPartitionEntryWrite, hl, Nat.not_le.mpr hp]

theorem exec_partitionEntryWrite_refused {k : Nat} (hk : 0 < k) (hk' : k < 32) (h11 : k ≠ 11) (h12 : k ≠ 12)
    (hr : (part s p).rszBusy = false) : exec (.partitionEntryWrite p (8 * k) v) s = .next (refuseWrite s) := by
  have hoff : (decide (64 ≤ p) || 8 * k % 8 != 0 || decide (256 ≤ 8 * k)) = false := by
    simp
    omega
  simp only [exec, execPartitionEntryWrite, hoff, hl, hr, Nat.mul_div_cancel_left k (by decide : 0 < 8), beq_false_of_ne (Nat.ne_of_gt hk),
    beq_false_of_ne h11, beq_false_of_ne h12, Bool.false_and, Bool.false_eq_true, if_false, if_true]

end

theorem exec_partitionDestroy_resizing (hr : (part s p).rszBusy = true) : exec (.partitionDestroy p) s = .next (resizeErr s p 3) := by
  simp only [exec, execPartitionDestroy, hl, hr, Bool.not_true, Bool.false_eq_true, if_false, if_true]

theorem exec_partitionDestroy (hr : (part s p).rszBusy = false) {t : State} (ht : (modPart s p fun t => { t with dying := true }) = t) :
    exec (.partitionDestroy p) s = .next (if settledPart t p then wipePart t p else t) := by
  simp only [exec, execPartitionDestroy, hl, hr, ht, Bool.not_true, Bool.false_eq_true, if_false]

end

end

/-! ### The hypervisor window (R82, R462) -/

section
variable {s : State} {v : Word}

theorem writeWindow_not_taken {off n : Nat} (h : off % 8 ≠ 0 ∨ n ≠ 8) : writeWindow off n v s = refuseWrite s := by
  have ht : windowTakes off n = false := by
    rcases h with h | h <;> simp [windowTakes, h]
  simp only [writeWindow, ht, Bool.not_false, if_true]

theorem writeWindow_unassigned {off : Nat} (h8 : off % 8 = 0) (hoff : 0x500000 ≤ off) : writeWindow off 8 v s = refuseWrite s := by
  have ht : windowTakes off 8 = true := by simp [windowTakes, h8]
  have hblock : (decide (0x100000 ≤ off) && decide (off < 0x500000)) = false := by
    simp
    omega
  rw [writeWindow, ht, Bool.not_true, if_neg Bool.false_ne_true, if_neg (by omega), if_neg (by omega), hblock, if_neg Bool.false_ne_true]

theorem writeWindow_pkg {off : Nat} (h8 : off % 8 = 0) (hoff : off < 0x10000) : writeWindow off 8 v s = writePkgReg off v s := by
  have ht : windowTakes off 8 = true := by simp [windowTakes, h8]
  rw [writeWindow, ht, Bool.not_true, if_neg Bool.false_ne_true, if_pos hoff]

theorem writeWindow_block {p o : Nat} (hp : p < 64) (ho : o < 0x10000) (h8 : o % 8 = 0) :
    writeWindow (0x100000 + 0x10000 * p + o) 8 v s = writeBlock p o v s := by
  have ht : windowTakes (0x100000 + 0x10000 * p + o) 8 = true := by
    simp [windowTakes]
    omega
  have hblock : (decide (0x100000 ≤ 0x100000 + 0x10000 * p + o) && decide (0x100000 + 0x10000 * p + o < 0x500000)) = true := by
    simp
    omega
  have hpart : (0x100000 + 0x10000 * p + o - 0x100000) / 0x10000 = p := by omega
  have hreg : (0x100000 + 0x10000 * p + o) % 0x10000 = o := by omega
  rw [writeWindow, ht, Bool.not_true, if_neg Bool.false_ne_true, if_neg (by omega), if_neg (by omega), hblock, if_pos rfl, hpart, hreg]

theorem exec_windowRegisterWrite {off n : Nat} {t : State} (hl : hostLink s = true) (h : writeWindow off n v s = t) :
    exec (.windowRegisterWrite ⟨off, n⟩ v) s = .next t := by
  simp only [exec, execWindowRegisterWrite, hl, if_true, h]

theorem writePkgReg_ordStat : writePkgReg 0x3010 v s = zeroOnly s v fun s => modPkg s fun k => { k with ordStat := 0 } := rfl

theorem zeroOnly_zero {clear : State → State} (h : v = 0) : zeroOnly s v clear = clear s := if_pos (beq_iff_eq.mpr h)
theorem zeroOnly_other {clear : State → State} (h : v ≠ 0) : zeroOnly s v clear = refuseWrite s := by
  rw [zeroOnly, beq_false_of_ne h]
  rfl

end

end Sys2Proof.Machine

open Sys2Proof.Machine

/-- Settles O44: an entry word by its place and the state of its partition, a window write by the block that its offset lies in. -/
theorem partitionsAndWindow : Obligations.PartitionsAndWindow := by
  unfold Obligations.PartitionsAndWindow
  refine ⟨?entries, fun s v hl => ?window⟩
  case entries =>
    intro p s hp e
    refine ⟨fun hl => ⟨exec_partitionCreate_refused hp hl, fun t => exec_partitionCreate_born hp hl,
      fun k v => exec_partitionEntryWrite_dead hp hl, fun v => exec_partitionEntryWrite_valid hp hl⟩, fun hl => ?live⟩
    case live =>
      refine ⟨fun v => exec_partitionEntryWrite_budget hp hl, fun v => exec_partitionEntryWrite_root hp hl,
        fun k v => exec_partitionEntryWrite_refused hp hl, exec_partitionDestroy_resizing hl, fun hr => ?_⟩
      have hd := exec_partitionDestroy hl hr rfl
      exact ⟨fun hq => hd.trans (congrArg _ (if_pos hq)), fun hq => hd.trans (congrArg _ (if_neg (Bool.eq_false_iff.mp hq)))⟩
  case window =>
    have hpkg {off : Nat} (h8 : off % 8 = 0) (hoff : off < 0x10000) := exec_windowRegisterWrite (v := v) hl (writeWindow_pkg h8 hoff)
    have hblock {p o : Nat} (hp : p < 64) (ho : o < 0x10000) (h8 : o % 8 = 0) := exec_windowRegisterWrite (v := v) hl (writeWindow_block hp ho h8)
    exact ⟨fun off n h => exec_windowRegisterWrite hl (writeWindow_not_taken h),
      fun off h8 h => exec_windowRegisterWrite hl (writeWindow_unassigned h8 h), hpkg rfl (by decide), hpkg rfl (by decide), hpkg rfl (by decide),
      fun h => (hpkg rfl (by decide)).trans (congrArg _ (writePkgReg_ordStat.trans (zeroOnly_zero h))),
      fun h => (hpkg rfl (by decide)).trans (congrArg _ (writePkgReg_ordStat.trans (zeroOnly_other h))),
      fun p hp => ⟨hblock hp (by decide) rfl, hblock hp (by decide) rfl, hblock hp (by decide) rfl, hblock hp (by decide) rfl⟩⟩
end

section
/-! The steps of a resize (O45; R240–R247). -/
namespace Sys2Proof.Machine

section
variable {p : Nat} {s : State} {v : Word}

/-! ### The descriptor (R240, R241) -/

/-- The state in which a started resize has noted where its descriptor lies, and the sets that the descriptor brings. -/
def notedDesc (s : State) (p : Nat) (v : Word) : State := modPart s p fun t => { t with rszDesc := BitVec.ofNat 64 (fld v 6 46 * 64) }
def newSets (r : Resize) (pa : Nat) : List Word :=
  splitWords r.bays 2 ++ splitWords r.slices 2 ++ splitWords r.chans 4 ++ [BitVec.ofNat 64 r.cal, r.frames, r.last, BitVec.ofNat 64 pa]
def startedResize (s : State) (p : Nat) (v : Word) (r : Resize) : State :=
  modPart (notedDesc s p v) p fun t => { t with rszBusy := true, rszStep := 1, rszKept := false, rszNew := newSets r (fld v 6 46 * 64) }

section
variable (hv : bitAt v 0 = true)
include hv

theorem exec_resizeGo_again (hb : (part s p).rszBusy = true) : exec (.resizeGo p v) s = .next (resizeErr s p 1) := by
  simp only [exec, execResizeGo, hv, hb, Bool.not_true, Bool.false_eq_true, if_false, if_true]

variable (hb : (part s p).rszBusy = false) (hl : live s p = true)
include hb hl

theorem exec_resizeGo_unreadable (hr : readResize (notedDesc s p v).mem (fld v 6 46 * 64) = none) :
    exec (.resizeGo p v) s = .next (putResult (notedDesc s p v) (fld v 6 46 * 64) 1) := by
  rw [notedDesc] at hr
  simp only [exec, execResizeGo, hv, hb, hl, hr, Bool.not_true, Bool.false_eq_true, if_false]
  rfl

variable {r : Resize} (hr : readResize (notedDesc s p v).mem (fld v 6 46 * 64) = some r)
include hr

theorem exec_resizeGo_fails (he : resizeResult (notedDesc s p v) p r ≠ 0) :
    exec (.resizeGo p v) s = .next (putResult (notedDesc s p v) (fld v 6 46 * 64) (resizeResult (notedDesc s p v) p r)) := by
  rw [notedDesc] at hr he
  simp only [exec, execResizeGo, hv, hb, hl, hr, bne_iff_ne.mpr he, Bool.not_true, Bool.false_eq_true, if_false, if_true]
  rfl

theorem exec_resizeGo_starts (he : resizeResult (notedDesc s p v) p r = 0) : exec (.resizeGo p v) s = .next (startedResize s p v r) := by
  rw [notedDesc] at hr he
  simp only [exec, execResizeGo, hv, hb, hl, hr, he, bne_self_eq_false, Bool.not_true, Bool.false_eq_true, if_false]
  rfl

end

theorem part_startedResize (hp : p < s.parts.length) (r : Resize) : part (startedResize s p v r) p =
    { part (notedDesc s p v) p with rszBusy := true, rszStep := 1, rszKept := false, rszNew := newSets r (fld v 6 46 * 64) } :=
  part_modPart_same (by rwa [notedDesc, modPart_parts, List.length_modify])

theorem newBays_splitWords {t : Part} {x : Nat} {l : List Word} (h : t.rszNew = splitWords x 2 ++ l) : newBays t = x % 2 ^ 128 := by
  have hlow : t.rszNew.getD 0 0 = BitVec.ofNat 64 (nbits x 0 64) := by
    rw [h]
    rfl
  have hhigh : t.rszNew.getD 1 0 = BitVec.ofNat 64 (nbits x 64 64) := by
    rw [h]
    rfl
  simp only [newBays, hlow, hhigh, BitVec.toNat_ofNat, nbits, pow2_eq_two_pow, natShiftRight_eq_div_pow]
  omega

theorem newBays_startedResize (hp : p < s.parts.length) (r : Resize) : newBays (part (startedResize s p v r) p) = r.bays % 2 ^ 128 := by
  have hnew : (part (startedResize s p v r) p).rszNew = newSets r (fld v 6 46 * 64) := congrArg Part.rszNew (part_startedResize hp r)
  rw [newSets, List.append_assoc, List.append_assoc] at hnew
  exact newBays_splitWords hnew

/-! ### The steps (R242–R246) -/

section
variable (hb : (part s p).rszBusy = true)
include hb

theorem exec_resizeMigrate_two {order : List Nat} (hk : (part s p).rszStep = 2) (hpre : (part s p).preBusy = false) :
    exec (.resizeMigrate p order) s = .next (endMigration (departAll s p order) p) := by
  simp [exec, execResizeMigrate, hb, hk, hpre]

section
variable {order : List Nat} (hk : (part s p).rszStep = 1) (hpre : (part s p).preBusy = false)
  (hq : (departingBays (part s p)).all (baySettled s p) = true)
include hk hpre hq

theorem exec_resizeMigrate_departs {u : State} (hs : (part s p).preSaved = false)
    (hu : departKeys p ((departingBays (part s p)).map fun b => (b, b)) (arrivingBays (part s p)) s = .ok u) :
    exec (.resizeMigrate p order) s = .next (endMigration (departAll (toStep u p 2) p order) p) := by
  simp only [exec, execResizeMigrate, hb, hk, hpre, hq, hs, hu, beq_self_eq_true, Bool.not_true, Bool.or_self, Bool.false_eq_true, if_false,
    if_true]

theorem exec_resizeMigrate_saved (hs : (part s p).preSaved = true) :
    exec (.resizeMigrate p order) s = .next (endMigration (departAll (toStep s p 2) p order) p) := by
  simp only [exec, execResizeMigrate, hb, hk, hpre, hq, hs, beq_self_eq_true, Bool.not_true, Bool.or_self, Bool.false_eq_true, if_false,
    if_true]

end

/-- Lines and version entries take their home among the slices that the partition has now. -/
def rehomed (s : State) (p : Nat) : State :=
  { s with
      l2 := updWhere (fun (x : L2Line) => x.part == p) (fun x => { x with slice := homeSlice (slicesOf s p) (64 * x.line) }) s.l2
      vers := updWhere (fun (v : VersEntry) => v.part == p) (fun v => { v with slice := homeSlice (slicesOf s p) v.pa }) s.vers }

theorem exec_resizeSliceRehash (hk : (part s p).rszStep = 3) : exec (.resizeSliceRehash p) s = .next (modPart (rehomed s p) p fun t =>
    { t with rszStep := 4, ent := (t.ent.set 3 (t.rszNew.getD 2 0)).set 4 (t.rszNew.getD 3 0) }) := by
  simp only [exec, execResizeSliceRehash, hb, hk, bne_self_eq_false, Bool.not_true, Bool.or_self, Bool.false_eq_true, if_false]
  rfl

/-- The channels that leave a partition, those that come, and those of the leaving ones that a page still touches. -/
def goneChans (t : Part) : List Nat := setBits (lacking (chansOf t) (joinWords t.rszNew 4 4)) 256
def comeChans (t : Part) : List Nat := setBits (lacking (joinWords t.rszNew 4 4) (chansOf t)) 256
def keptChans (u : State) (p : Nat) (gone : List Nat) : List Nat :=
  gone.filter fun c => (leaves2 u.mem 4 1 (entWord u p 13).toNat).any fun l => touchesChan l c

theorem exec_resizeChannelRehash (hk : (part s p).rszStep = 4) {u : State} {kept : List Nat}
    (hu : moveChans s p ((goneChans (part s p)).zip (comeChans (part s p))) = u) (hkept : keptChans u p (goneChans (part s p)) = kept) :
    exec (.resizeChannelRehash p) s = .next (modPart u p fun t => { t with
      rszStep := 5, rszKept := !kept.isEmpty, rszNew := t.rszNew.take 4 ++
        splitWords (kept.foldl (fun x c => x ||| 2 ^ c) (joinWords (part s p).rszNew 4 4)) 4 ++ t.rszNew.drop 8 }) := by
  have hor : (fun (x c : Nat) => Nat.lor x (pow2 c)) = fun x c => x ||| 2 ^ c :=
    funext fun x => funext fun c => congrArg (Nat.lor x) (pow2_eq_two_pow c)
  subst hu hkept
  simp only [exec, execResizeChannelRehash, hb, hk, bne_self_eq_false, Bool.not_true, Bool.or_self, Bool.false_eq_true, if_false, hor]
  rfl

theorem exec_resizeScrub (hk : (part s p).rszStep = 5) : exec (.resizeScrub p) s = .next (releaseAll (toStep (freeSlots
    ((setBits (lacking (chansOf (part s p)) (joinWords (part s p).rszNew 4 4)) 256).foldl (scrubChan p)
      ((departingBays (part s p)).foldl clearKey s))
    (setBits (lacking (part s p).cal.toNat ((part s p).rszNew.getD 8 0).toNat) 64)) p 6)) := by
  simp only [exec, execResizeScrub, hb, hk, bne_self_eq_false, Bool.not_true, Bool.or_self, Bool.false_eq_true, if_false]

theorem exec_resizeComplete (hk : (part s p).rszStep = 6) (hi : bitAt ((part s p).rszNew.getD 10 0) 6 = false) : exec (.resizeComplete p) s =
    .next (wakeAll (putResult (modPart s p takeNewSets) ((part s p).rszNew.getD 11 0).toNat (if (part s p).rszKept then 6 else 0)) p) := by
  simp only [exec, execResizeComplete, hb, hk, hi, bne_self_eq_false, Bool.not_true, Bool.or_self, Bool.false_eq_true, if_false]

end

theorem slice_l2_rehomed {x : L2Line} (hx : x ∈ (rehomed s p).l2) (hp : x.part = p) : x.slice = homeSlice (slicesOf s p) (64 * x.line) := by
  obtain ⟨y, -, rfl⟩ := List.mem_map.mp hx
  revert hp
  dsimp only
  split
  · exact fun _ => rfl
  · next hy => exact fun hp => absurd (beq_iff_eq.mpr hp) hy

theorem slice_vers_rehomed {x : VersEntry} (hx : x ∈ (rehomed s p).vers) (hp : x.part = p) : x.slice = homeSlice (slicesOf s p) x.pa := by
  obtain ⟨y, -, rfl⟩ := List.mem_map.mp hx
  revert hp
  dsimp only
  split
  · exact fun _ => rfl
  · next hy => exact fun hp => absurd (beq_iff_eq.mpr hp) hy

end

end Sys2Proof.Machine

open Sys2Proof.Machine

/-- Settles O45: each step of a resize by the step that stands in the partition's registers. -/
theorem resizing : Obligations.Resizing := by
  unfold Obligations.Resizing
  intro p s t
  refine ⟨fun v hv hb hl => ?start, fun v hv hb => exec_resizeGo_again hv hb, fun hb => ⟨fun order => exec_resizeMigrate_two hb,
    fun order hk hpre hq => ⟨fun u hs hu => exec_resizeMigrate_departs hb hk hpre hq hs hu, exec_resizeMigrate_saved hb hk hpre hq⟩,
    fun hk => ?slices, ?channels, exec_resizeScrub hb, exec_resizeComplete hb⟩⟩
  case start =>
    intro pa u
    exact ⟨exec_resizeGo_unreadable hv hb hl, fun r hr => exec_resizeGo_fails hv hb hl hr,
      fun r hr he => ⟨_, exec_resizeGo_starts hv hb hl hr he, rfl, fun hp =>
        ⟨congrArg Part.rszBusy (part_startedResize hp r), congrArg Part.rszStep (part_startedResize hp r), newBays_startedResize hp r⟩⟩⟩
  case slices =>
    exact ⟨_, exec_resizeSliceRehash hb hk, rfl, fun x => slice_l2_rehomed, fun x => slice_vers_rehomed⟩
  case channels =>
    intro hk
    exact exec_resizeChannelRehash hb hk rfl rfl
end

section
/-! The ordered class and the ports (O58; R199–R208, R464, R466, R469, R505). -/
namespace Sys2Proof.Machine

section
variable {s : State} {k : Nat}

/-! ### The ordered class (R199–R208, R505) -/

/-- The packet that an arrival brings. -/
def arriving (h : BitVec 256) (payload : List Byte) (bar : Option (Nat × Nat)) : Packet :=
  ⟨h, if bar.isSome then payload else payload.take (hdLen h), bar.map fun (b : Nat × Nat) => ⟨b.1, b.2, hdSeq h, none⟩⟩

/-- Both times of a header lie near the package's own. -/
def headerNear (s : State) (h : BitVec 256) : Bool := stampNear s (hdStamp h) && stampNear s (hdWm h)

section
variable {h : BitVec 256} {payload : List Byte} {bar : Option (Nat × Nat)}

theorem exec_ordPacketArrival_held (hh : portHeld s k (arriving h payload bar) = true) : exec (.ordPacketArrival k h ⟨payload, bar⟩) s = .next s := by
  rw [arriving] at hh
  simp only [exec, execOrdPacketArrival, hh, Bool.or_true, if_true]

variable (hup : portUp s k = true) (hc : hdCls h = 1) (hh : portHeld s k (arriving h payload bar) = false)
include hup hc hh

theorem exec_ordPacketArrival_takes : exec (.ordPacketArrival k h ⟨payload, bar⟩) s = .next (takePacket s k (arriving h payload bar)) := by
  rw [arriving] at hh
  simp only [exec, execOrdPacketArrival, hup, hc, hh, bne_self_eq_false, Bool.not_true, Bool.or_self, Bool.false_eq_true, if_false]
  rfl

theorem exec_ordPacketArrival_far (hn : headerNear s h = false) : exec (.ordPacketArrival k h ⟨payload, bar⟩) s = .next (linkFault s k) := by
  rw [exec_ordPacketArrival_takes hup hc hh, takePacket]
  exact congrArg Host.Outcome.next (if_pos (congrArg not hn))

theorem exec_ordPacketArrival_forwards (hn : headerNear s h = true) (hd : hdDst h ≠ s.pkg.number.toNat) :
    exec (.ordPacketArrival k h ⟨payload, bar⟩) s = .next (deliverOrd (forwardPacket (raiseWmi s k (hdWm h)) (arriving h payload bar))) := by
  rw [exec_ordPacketArrival_takes hup hc hh, takePacket]
  have hdst : (hdDst h == (raiseWmi s k (hdWm h)).pkg.number.toNat) = false := beq_false_of_ne hd
  exact congrArg Host.Outcome.next ((if_neg (Bool.eq_false_iff.mp (congrArg not hn))).trans
    (congrArg deliverOrd (if_neg (Bool.eq_false_iff.mp hdst))))

theorem exec_ordPacketArrival_buffers (hn : headerNear s h = true) (hd : hdDst h = s.pkg.number.toNat) :
    exec (.ordPacketArrival k h ⟨payload, bar⟩) s = .next (deliverOrd (bufferPacket (raiseWmi s k (hdWm h)) k (arriving h payload bar))) := by
  rw [exec_ordPacketArrival_takes hup hc hh, takePacket]
  have hdst : (hdDst h == (raiseWmi s k (hdWm h)).pkg.number.toNat) = true := beq_iff_eq.mpr hd
  exact congrArg Host.Outcome.next ((if_neg (Bool.eq_false_iff.mp (congrArg not hn))).trans (congrArg deliverOrd (if_pos hdst)))

end

section
variable {r : State} {p : Packet}

theorem forwardPacket_eq : forwardPacket r p =
    if portUp r (Config.route (hdDst p.hdr)) ∧ Config.forwards (Config.route (hdDst p.hdr)) then
      modPort r (Config.route (hdDst p.hdr)) fun x => { x with egress := x.egress ++ [p] } else r := by
  simp only [forwardPacket, Bool.and_eq_true]

theorem bufferPacket_early (h : 0 < cmp48 (hdStamp p.hdr) r.pkg.front) :
    bufferPacket r k p = modPkg r fun g => { g with rxbuf := g.rxbuf ++ [(k, p)] } := by
  rw [bufferPacket, decide_eq_false (Int.not_le.mpr h), if_neg Bool.false_ne_true]

theorem bufferPacket_late (h : cmp48 (hdStamp p.hdr) r.pkg.front ≤ 0) {late : State}
    (hl : (modPkg r fun g => { g with ordLate := satNext g.ordLate }) = late) :
    bufferPacket r k p = if r.pkg.ordExcl.getLsbD k then late else linkFault late k := by
  subst hl
  rw [bufferPacket, decide_eq_true h, if_pos rfl]
  rfl

end

section
variable {p : Nat} {t : State} (ht : refillOrq s p = t)
include ht

theorem exec_orderedHoldMove_delivers (hx : ∃ x ∈ t.pkg.rxbuf, groupPart t (hdGroup x.2.hdr) = some p) :
    exec (.orderedHoldMove p) s = .next (deliverOrd t) := by
  have hany : (t.pkg.rxbuf.any fun x => groupPart t (hdGroup x.2.hdr) == some p) = true := by simpa using hx
  simp only [exec, execOrderedHoldMove, ht, hany, if_true]

theorem exec_orderedHoldMove_refills (hx : ∀ x ∈ t.pkg.rxbuf, groupPart t (hdGroup x.2.hdr) ≠ some p) :
    exec (.orderedHoldMove p) s = .next t := by
  have hany : (t.pkg.rxbuf.any fun x => groupPart t (hdGroup x.2.hdr) == some p) = false :=
    List.any_eq_false.mpr fun x hm => by simpa using hx x hm
  simp only [exec, execOrderedHoldMove, ht, hany, Bool.false_eq_true, if_false]

end

/-- The package with a new exclusion: a port whose bit is cleared waits to come back. -/
def excluded (e : BitVec 24) (k : Pkg) : Pkg := { k with ordExcl := e, readmit := (k.readmit ||| (k.ordExcl &&& ~~~e)) &&& ~~~e }

theorem exec_ordExclWrite (v : Word) : exec (.ordExclWrite v) s = .next (deliverOrd (modPkg s (excluded (BitVec.setWidth 24 v)))) := rfl

theorem readmit_excluded (e : BitVec 24) (k : Pkg) : (excluded e k).readmit &&& (excluded e k).ordExcl = 0 := by
  have hnot : ~~~e &&& e = 0 := by simp
  rw [excluded, BitVec.and_assoc, hnot]
  simp

/-- The record of a stall, and the state that has noted it. -/
def stallWord (s : State) : BitVec 32 := BitVec.ofNat 32 (2 ^ 31 + stallPort s)
def stallNoted (s : State) : State := modPkg s fun k => { k with stalled := true, ordStat := stallWord s }
def stallRec (s : State) : FaultRec :=
  { recBase F_WMSTALL 0 with
      pkg := true, flags := flNoframe, g4 := BitVec.setWidth 64 (stallWord s), g5 := BitVec.setWidth 64 (liveMin s) }

theorem exec_fWmstall_raises (h : s.pkg.stalled = false) (hr : s.pkg.rxbuf ≠ [])
    (ht : s.pkg.mSince + s.pkg.wmTimeout.toNat ≤ s.pkg.podTime.toNat) : exec .fWmstall s = .next (hfqFault (stallNoted s) (stallRec s) false) := by
  have hempty : s.pkg.rxbuf.isEmpty = false := List.isEmpty_eq_false_iff.mpr hr
  simp only [exec, execFWmstall, h, hempty, decide_eq_false (Nat.not_lt.mpr ht), Bool.or_self, Bool.false_eq_true, if_false]
  rfl

theorem exec_fWmstall_once (h : s.pkg.stalled = true) : exec .fWmstall s = .next s := by
  simp only [exec, execFWmstall, h, Bool.true_or, if_true]

/-! ### Flits (R463, R464, R469) -/

section
variable {x : Port} (hx : s.pkg.ports[k]? = some x)
include hx

section
variable (h5 : x.state = 5)
include h5

theorem portUp_of_state : portUp s k = true := by
  simp only [portUp, hx, h5, Option.map_some, beq_self_eq_true]

theorem exec_flitReceive (flit : List Byte) : exec (.flitReceive k flit) s = .next (receiveFlit s k x flit) := by
  simp only [exec, execFlitReceive, hx, h5, beq_self_eq_true, if_true]

theorem exec_flitReplay (n : Nat) : exec (.flitReplay k n) s = .next (goBack s k x n) := by
  simp only [exec, execFlitReplay, hx, h5, bne_self_eq_false, Bool.false_eq_true, if_false]

theorem exec_laneSpare {l : Nat} (hl : l < 8) : exec (.laneSpare k l) s = .next (loseLane s k l) := by
  simp only [exec, execLaneSpare, portUp_of_state hx h5, decide_eq_true hl, Bool.and_self, if_true]

theorem exec_leaveFlit : exec (.leaveFlit k) s = .next (closePort s k 6) := by
  simp only [exec, execLeaveFlit, portUp_of_state hx h5, if_true]

end

/-! ### Training (R466) -/

section
variable (hp : 3 ≤ s.pkg.phase) (hp' : s.pkg.phase ≠ 15) {i : TrainInfo}
include hp hp'

section
variable (hlt : x.state < 5) (hn : ¬ (x.state = 0 ∧ 0 < x.fails))
include hlt hn

omit hx in
/-- A port that trains is held up neither by the phase nor by an earlier failure. -/
theorem portTraining_goes : (decide (s.pkg.phase < 3) || s.pkg.phase == 15 || x.state == 5 || (x.state == 0 && decide (0 < x.fails))) = false := by
  have hfails : (x.state == 0 && decide (0 < x.fails)) = false := by
    simp only [Bool.and_eq_false_iff, beq_eq_false_iff_ne, decide_eq_false_iff_not]
    omega
  rw [hfails, decide_eq_false (Nat.not_lt.mpr hp), beq_false_of_ne hp', beq_false_of_ne (Nat.ne_of_lt hlt)]
  rfl

theorem exec_portTraining : exec (.portTraining k i) s = .next (if !i.ok then failTraining s k
    else if x.state < 3 then modPort s k fun x => { x with state := x.state + 1 }
    else if x.state == 3 then modPort s k fun x => { x with state := 4, spared := i.badLane }
    else lockTime s k i) := by
  have hgo := portTraining_goes hp hp' hlt hn
  have h6 : ¬ 6 ≤ x.state := by omega
  simp only [exec, execPortTraining, hx, hgo, h6, Bool.false_eq_true, if_false]

end

theorem exec_portTraining_again (h6 : 6 ≤ x.state) (hq : s.pkg.quiesce = .run) (hi : i.ok = true) :
    exec (.portTraining k i) s = .next (modPort s k fun x => { x with state := 1, fails := 0 }) := by
  have h5 : x.state ≠ 5 := by omega
  have h0 : x.state ≠ 0 := by omega
  simp [exec, execPortTraining, hx, Nat.not_lt.mpr hp, hp', h5, h0, h6, hq, hi]

theorem exec_trainingRetry (h0 : x.state = 0) (hf : 0 < x.fails) (ht : x.retryAt ≤ s.pkg.podTime.toNat) :
    exec (.trainingRetry k) s = .next (modPort s k fun x => { x with state := 1 }) := by
  simp [exec, execTrainingRetry, hx, hp, hp', h0, hf, ht]

end

end

end

end Sys2Proof.Machine

open Sys2Proof.Machine

/-- Settles O58: an arrival by its times, its destination and the room for it, a port's event by the port's state. -/
theorem orderedClassAndLinks : Obligations.OrderedClassAndLinks := by
  unfold Obligations.OrderedClassAndLinks
  intro s k
  refine ⟨?arrival, fun p => ⟨exec_orderedHoldMove_delivers rfl, exec_orderedHoldMove_refills rfl⟩,
    fun v => ⟨_, exec_ordExclWrite v, rfl, rfl, readmit_excluded ..⟩,
    fun h hr ht => ⟨_, _, exec_fWmstall_raises h hr ht, rfl, rfl, rfl, rfl⟩, exec_fWmstall_once, fun x hx => ⟨fun h5 => ?up, ?training,
      fun h6 hp hp' hq i hi => exec_portTraining_again hx hp hp' h6 hq hi, fun h0 hf ht hp hp' => exec_trainingRetry hx hp hp' h0 hf ht⟩⟩
  case arrival =>
    intro h payload bar hup hc p near r
    exact ⟨exec_ordPacketArrival_held, exec_ordPacketArrival_far hup hc,
      fun hh hn hd => (exec_ordPacketArrival_forwards hup hc hh hn hd).trans (congrArg (fun t => Host.Outcome.next (deliverOrd t)) forwardPacket_eq),
      fun hh hn hd hs => (exec_ordPacketArrival_buffers hup hc hh hn hd).trans (congrArg (fun t => Host.Outcome.next (deliverOrd t)) (bufferPacket_early (r := r) (p := p) hs)),
      fun hh hn hd hs => (exec_ordPacketArrival_buffers hup hc hh hn hd).trans
        (congrArg (fun t => Host.Outcome.next (deliverOrd t)) (bufferPacket_late (r := r) (p := p) hs rfl))⟩
  case up =>
    refine ⟨fun flit => (exec_flitReceive hx h5 flit).trans (congrArg Host.Outcome.next ?_), fun n => ?_,
      fun l hl => ⟨fun h => (exec_laneSpare hx h5 hl).trans (congrArg _ (loseLane_spares hx h)), fun h => ?_⟩, exec_leaveFlit hx h5⟩
    · rw [receiveFlit]
      cases Sys2Proof.Config.fecDecode flit with
      | none => rfl
      | some f => simp only [bne_iff_ne, beq_iff_eq]
    · intro y
      exact ⟨fun hy => (exec_flitReplay hx h5 n).trans (congrArg Host.Outcome.next (if_neg (Nat.not_le.mpr hy))),
        fun hy => (exec_flitReplay hx h5 n).trans (congrArg Host.Outcome.next (if_pos hy))⟩
    · obtain ⟨m, hm⟩ := Option.ne_none_iff_exists'.mp h
      exact (exec_laneSpare hx h5 hl).trans (congrArg _ (loseLane_down hx hm))
  case training =>
    intro hlt hn hp hp' i
    have ht := exec_portTraining hx hp hp' hlt hn (i := i)
    refine ⟨fun hi => ?_, fun hi h3 => ?_, fun hi h3 => ?_, fun hi h4 => ?_⟩
    · simpa only [hi, Bool.not_false, if_true] using ht
    · simpa only [hi, h3, Bool.not_true, Bool.false_eq_true, if_false, if_true] using ht
    · simpa only [hi, h3, Bool.not_true, Bool.false_eq_true, if_false, Nat.lt_irrefl, beq_self_eq_true, if_true] using ht
    · have h3 : ¬ (4 < 3) := by decide
      have h43 : (4 == 3) = false := rfl
      simpa only [hi, h4, h3, h43, Bool.not_true, Bool.false_eq_true, if_false] using ht
end

section
/-! Management (O59; R234, R249, R461, R467, R469–R471). -/
namespace Sys2Proof.Machine

section
variable {s : State}

/-! ### Bring-up and firmware (R470, R471) -/

/-- The package after a phase of bring-up. -/
def broughtUp (ok : Bool) (failed : BitVec 256) (k : Pkg) : Pkg :=
  if k.phase == 0 then (if ok then verified k else { k with phase := 15, fwOk := false })
  else if k.phase == 1 then { k with phase := 2, chFail := failed }
  else if k.phase == 2 then (if ok && (trainLinks failed k).any id then { k with phase := 3, pcieUp := trainLinks failed k } else k)
  else if k.phase == 5 then (if ok then { k with pcieUp := trainLinks failed k } else k)
  else if (k.phase == 3 || k.phase == 4) && portsSettled k then { k with phase := k.phase + 1 }
  else k

theorem modPkg_congr {f g : Pkg → Pkg} (h : f s.pkg = g s.pkg) : modPkg s f = modPkg s g := by
  rw [modPkg, modPkg, h]

theorem modPkg_self {f : Pkg → Pkg} (h : f s.pkg = s.pkg) : modPkg s f = s := by
  rw [modPkg, h]

theorem exec_bringUpPhase (ok : Bool) (failed : BitVec 256) :
    exec (.bringUpPhase ok failed) s = .next (modPkg s (broughtUp ok failed)) := by
  refine congrArg Host.Outcome.next ?_
  simp only [modPkg, broughtUp]
  repeat' split
  all_goals rfl

section
variable (ok : Bool) (failed : BitVec 256) {k : Pkg}

theorem broughtUp_reset (h : k.phase = 0) : (broughtUp ok failed k).phase = (if ok then 1 else 15) ∧ (broughtUp ok failed k).fwOk = ok := by
  cases ok <;> exact ⟨by simp [broughtUp, h, verified], by simp [broughtUp, h, verified]⟩

theorem broughtUp_verified (h : k.phase = 1) : (broughtUp ok failed k).phase = 2 ∧ (broughtUp ok failed k).chFail = failed := by
  simp [broughtUp, h]

theorem broughtUp_links (h : k.phase = 2) : (broughtUp ok failed k).phase = (if ok ∧ (trainLinks failed k).any id then 3 else 2) ∧
    (ok = true → (trainLinks failed k).any id = true → (broughtUp ok failed k).pcieUp = trainLinks failed k) := by
  have h2 : broughtUp ok failed k = if ok && (trainLinks failed k).any id then { k with phase := 3, pcieUp := trainLinks failed k } else k := by
    simp only [broughtUp, h]
    rfl
  rw [h2]
  by_cases hgo : (ok && (trainLinks failed k).any id) = true
  · rw [if_pos hgo, if_pos ((Bool.and_eq_true _ _).mp hgo)]
    exact ⟨rfl, fun _ _ => rfl⟩
  · rw [if_neg hgo, if_neg fun h => hgo ((Bool.and_eq_true _ _).mpr h)]
    exact ⟨h, fun hok hany => absurd ((Bool.and_eq_true _ _).mpr ⟨hok, hany⟩) hgo⟩

theorem broughtUp_ports (h : k.phase = 3 ∨ k.phase = 4) :
    (broughtUp ok failed k).phase = if portsSettled k then k.phase + 1 else k.phase := by
  cases hp : portsSettled k <;> rcases h with h | h <;> simp [broughtUp, h, hp]

theorem broughtUp_ready (h : k.phase = 5) : (broughtUp ok failed k).phase = 5 ∧
    (broughtUp ok failed k).pcieUp = if ok then trainLinks failed k else k.pcieUp := by
  cases ok <;> simp [broughtUp, h]

theorem broughtUp_over (h : 5 < k.phase) : broughtUp ok failed k = k := by
  have hne : k.phase ≠ 0 ∧ k.phase ≠ 1 ∧ k.phase ≠ 2 ∧ k.phase ≠ 3 ∧ k.phase ≠ 4 ∧ k.phase ≠ 5 := by omega
  simp [broughtUp, hne]

end

/-! ### Quiescing and the time root (R467, R469) -/

section
variable {force : Bool}

theorem exec_quiesceRequest_reset (h : s.pkg.phase = 15) : exec (.quiesceRequest force) s = .next s := by
  simp [exec, execQuiesceRequest, mgmtTakes, h]

section
variable (hm : s.pkg.phase ≠ 15)
include hm

theorem mgmtTakes_of_phase : mgmtTakes s = true := bne_iff_ne.mpr hm

theorem exec_quiesceRequest_busy (hq : s.pkg.quiesce = .run) (hl : anyLive s = true) (hf : force = false) :
    exec (.quiesceRequest force) s = .next (modPkg s fun k => { k with refusedBusy := true }) := by
  simp only [exec, execQuiesceRequest, mgmtTakes_of_phase hm, hq, hl, hf, Bool.not_true, Bool.not_false, Bool.and_self, Bool.false_eq_true,
    if_false, if_true]

theorem exec_quiesceRequest_starts (hq : s.pkg.quiesce = .run) (hl : anyLive s = false ∨ force = true) : exec (.quiesceRequest force) s =
    .next (destroyAll (modPkg s fun k => { k with quiesce := .quiescing, refusedBusy := false })) := by
  have hgo : (anyLive s && !force) = false := by
    rcases hl with hl | hl <;> simp [hl]
  simp only [exec, execQuiesceRequest, mgmtTakes_of_phase hm, hq, hgo, Bool.not_true, Bool.false_eq_true, if_false]

theorem exec_quiesceRequest_leaves (hq : s.pkg.quiesce = .quiescing) (hl : anyLive s = false) (hu : upPorts s = true) :
    exec (.quiesceRequest force) s = .next (leavePorts s) := by
  simp only [exec, execQuiesceRequest, mgmtTakes_of_phase hm, hq, hl, hu, Bool.not_true, Bool.false_eq_true, if_false, if_true]

theorem exec_quiesceRequest_ends (hq : s.pkg.quiesce = .quiescing) (hl : anyLive s = false) (hu : upPorts s = false) :
    exec (.quiesceRequest force) s = .next (modPkg s fun k => { k with quiesce := .quiesced }) := by
  simp only [exec, execQuiesceRequest, mgmtTakes_of_phase hm, hq, hl, hu, Bool.not_true, Bool.false_eq_true, if_false]

theorem exec_trootWrite_takes (v : Bool) : exec (.trootWrite v) s = .next (modPkg s fun k => { k with troot := v, gaveUp := false }) := by
  simp only [exec, execTrootWrite, mgmtTakes_of_phase hm, if_true]

end

/-- The package after an abort: the ports that had left train again. -/
def resumed (k : Pkg) : Pkg :=
  { k with quiesce := .run, ports := k.ports.map fun x => if x.state == 6 then { x with state := 0, fails := 0 } else x }

theorem exec_quiesceAbort_resumes (h : s.pkg.quiesce = .quiescing) : exec .quiesceAbort s = .next (modPkg s resumed) := by
  simp only [exec, execQuiesceAbort, h]
  rfl

theorem exec_quiesceAbort_other (h : s.pkg.quiesce ≠ .quiescing) : exec .quiesceAbort s = .next s := by
  cases hq : s.pkg.quiesce with
  | quiescing => exact absurd hq h
  | run => simp only [exec, execQuiesceAbort, hq]
  | quiesced => simp only [exec, execQuiesceAbort, hq]

theorem state_resumed {k : Pkg} {x : Port} (hx : x ∈ (resumed k).ports) : x.state ≠ 6 := by
  obtain ⟨y, -, rfl⟩ := List.mem_map.mp hx
  split
  · exact Nat.zero_ne_add_one 5
  · next h => exact fun h6 => h (beq_iff_eq.mpr h6)

theorem exec_quiesceAbort : ∃ t, exec .quiesceAbort s = .next t ∧
    (s.pkg.quiesce = .quiescing → t.pkg.quiesce = .run ∧ ∀ x ∈ t.pkg.ports, x.state ≠ 6) ∧ (s.pkg.quiesce ≠ .quiescing → t = s) := by
  by_cases h : s.pkg.quiesce = .quiescing
  · exact ⟨_, exec_quiesceAbort_resumes h, fun _ => ⟨rfl, fun _ => state_resumed⟩, fun hn => absurd h hn⟩
  · exact ⟨_, exec_quiesceAbort_other h, fun hq => absurd hq h, fun _ => rfl⟩

end

/-! ### Firmware, attestation and keys (R249, R470) -/

theorem exec_firmwareUpdate (image : List Byte) : ∃ t, exec (.firmwareUpdate image) s = .next t ∧ (if Sys2Proof.Config.firmwareAccepted image then
    t.pkg.fwDigest.isSome = true ∧ t.pkg.phase = (if s.pkg.phase = 15 then 0 else s.pkg.phase) else t = s) := by
  refine ⟨_, rfl, ?_⟩
  split
  · exact ⟨rfl, by simp [modPkg]⟩
  · rfl

theorem exec_attReq {nonce : Word} (h : paOk nonce.toNat = true) :
    exec (.attReq nonce) s = .next (pokeBytes s (nonce.toNat + 64) (attReport s (rdBytes s.mem nonce.toNat 64))) := by
  simp only [exec, execAttReq, h, Bool.not_true, Bool.false_eq_true, if_false]

theorem exec_keySlotWrite_early {p k : Nat} {v : Word} (h : k < 3) :
    exec (.keySlotWrite p k v) s = .next (modPart s p fun t => { t with keyWords := t.keyWords.set k v }) := by
  have h4 : ¬ 4 ≤ k := by omega
  simp only [exec, execKeySlotWrite, h4, beq_false_of_ne (Nat.ne_of_lt h), Bool.false_eq_true, if_false]

/-! ### Reset (R89, R234, R467) -/

theorem live_reset (p : Nat) : live State.reset p = false := by
  rw [live, part_reset]
  rfl

/-- The memory that a package reset leaves: that of the host. -/
def hostMemory (m : Memory) : Memory := m.filter fun c => decide (0x8000000000000 ≤ c.1)

theorem hostMemory_eq (m : Memory) : hostMemory m = clearRange m 0 0x8000000000000 := by
  simp [hostMemory, clearRange]

theorem rdByte_hostMemory_below {m : Memory} {a : Nat} (h : a < 0x8000000000000) : rdByte (hostMemory m) a = 0 :=
  rdByte_above fun _ hc => Nat.lt_of_lt_of_le h (of_decide_eq_true (List.mem_filter.mp hc).2)

theorem rdByte_hostMemory {m : Memory} {a : Nat} (hm : Memory.wf m = true) (h : 0x8000000000000 ≤ a) : rdByte (hostMemory m) a = rdByte m a := by
  rw [hostMemory_eq, rdByte_clearRange hm, if_neg (by omega)]

end

end Sys2Proof.Machine

open Sys2Proof.Machine

/-- Settles O59: bring-up by the package that it leaves, a reset by the memory of the host that stands. -/
theorem management : Obligations.Management := by
  unfold Obligations.Management
  intro s
  refine ⟨fun ok failed => ⟨_, exec_bringUpPhase ok failed, rfl, rfl, broughtUp_reset ok failed, broughtUp_verified ok failed,
      broughtUp_links ok failed, broughtUp_ports ok failed, broughtUp_ready ok failed, fun h => modPkg_self (broughtUp_over ok failed h)⟩,
    exec_firmwareUpdate, fun force => exec_quiesceRequest_reset, fun force hm => ⟨exec_quiesceRequest_busy hm, exec_quiesceRequest_starts hm,
      exec_quiesceRequest_leaves hm, exec_quiesceRequest_ends hm⟩, exec_quiesceAbort, fun v hm => exec_trootWrite_takes hm v, fun v h => ?_,
    fun nonce => exec_attReq, fun p v => rfl, fun p k v => exec_keySlotWrite_early, fun l => ⟨_, rfl, rfl, rfl, rfl⟩, _, rfl,
    fun a ha => rdByte_hostMemory_below (Nat.lt_trans ha (by decide)), rfl, rfl, fun p => ?_, rfl, rfl, fun hm a => rdByte_hostMemory hm.1⟩
  · simp [exec, execTrootWrite, mgmtTakes, h]
  · exact live_reset p
end

section
/-! The host inbox, engine messages, BAR2 and remote accesses (O60; R187, R190–R192, R412, R461, R501). -/
namespace Sys2Proof.Machine

section
variable {s : State} {p : Nat}

/-! ### The inbox (R187, R190–R192) -/

theorem exec_inboxAppend_down {l off : Nat} {bs : List Byte} (h : linkUp s l = false) : exec (.inboxAppend p l off bs) s = .next s := by
  simp only [exec, execInboxAppend, h, Bool.not_false, Bool.true_or, if_true]

section
variable {l off : Nat} {bs : List Byte} (hu : linkUp s l = true) (hl : live s p = true) (ho : off < 0x1000)
include hu hl ho

theorem exec_inboxAppend_joins (hn : bs.length = 16) (ha : off % 16 = 0) (hf : inboxFree (part s p) ≠ 0) : exec (.inboxAppend p l off bs) s =
    .next (modPart s p fun t => appendBeat t l s.pkg.cycle (BitVec.ofNat 128 (ofBytes bs))) := by
  simp [exec, execInboxAppend, hu, hl, Nat.not_le.mpr ho, hn, ha, hf]

theorem exec_inboxAppend_drops (h : bs.length ≠ 16 ∨ off % 16 ≠ 0 ∨ inboxFree (part s p) = 0) :
    exec (.inboxAppend p l off bs) s = .next (modPart s p fun t => { t with drops := satInc t.drops }) := by
  have hbad : (bs.length != 16 || off % 16 != 0 || inboxFree (part s p) == 0) = true := by
    rcases h with h | h | h <;> simp [h]
  simp [exec, execInboxAppend, hu, hl, Nat.not_le.mpr ho, hbad]

end

section
variable {m : List Beat} {l : List (List Beat)} (hm : (part s p).inbox = m :: l)
include hm

theorem exec_hostEngineMessageIntake_gated (hg : bayGated s p (hostBay s p) = true) : exec (.hostEngineMessageIntake p) s = .next s := by
  simp only [exec, execHostEngineMessageIntake, hm, hg, Bool.true_or, if_true]

variable (he : mEop (m.headD 0) ≠ 1) (hg : bayGated s p (hostBay s p) = false)
include he hg

section
variable (hr : msgRefused s p (hostBay s p) (m.headD 0) (m.drop 1) = none)
include hr

theorem exec_hostEngineMessageIntake_enters (hq : queueHasRoom s (queueOf p (hostBay s p) (m.headD 0)) = true) :
    exec (.hostEngineMessageIntake p) s = .next (pushCmd (popInbox s p) p (hostBay s p) (m.headD 0) (m.drop 1) none) := by
  simp only [exec, execHostEngineMessageIntake, hm, hg, beq_false_of_ne he, hr, hq, Bool.or_self, Bool.false_eq_true, if_false, if_true]

theorem exec_hostEngineMessageIntake_waits (hq : queueHasRoom s (queueOf p (hostBay s p) (m.headD 0)) = false) :
    exec (.hostEngineMessageIntake p) s = .next s := by
  simp only [exec, execHostEngineMessageIntake, hm, hg, beq_false_of_ne he, hr, hq, Bool.or_self, Bool.false_eq_true, if_false]

end

/-- The record of a refused message of the host. -/
def refusedRec (s : State) (p : Nat) (h : Beat) (x : BitVec 8 × Word × Word) : FaultRec :=
  { recBase x.1 p with
      flags := flHost ||| flEngine, bay := hostBay s p, queue := mQn h + (if (queueOf p (hostBay s p) h).lq then 16 else 0), g4 := x.2.1, g5 := x.2.2 }

theorem exec_hostEngineMessageIntake_refused {x : BitVec 8 × Word × Word}
    (hr : msgRefused s p (hostBay s p) (m.headD 0) (m.drop 1) = some x) :
    exec (.hostEngineMessageIntake p) s = .next (deliverN (popInbox s p) (refusedRec s p (m.headD 0) x) .nothing) := by
  simp only [exec, execHostEngineMessageIntake, hm, hg, beq_false_of_ne he, hr, Bool.or_self, Bool.false_eq_true, if_false]
  rfl

end

/-! ### BAR2 (R461) -/

section
variable {gpa : Nat} {bs : List Byte} {u : State} {pa : Nat}

/-- Bytes that lie in one page are written, or read, by its first walk. -/
theorem guestWrite_page (k : Nat) (h0 : 0 < bs.length) (hp : gpa % 2 ^ 14 + bs.length ≤ 2 ^ 14) (hw : devWalk s p gpa true = .ok (u, pa)) :
    guestWrite p (k + 2) s gpa bs = charge (pokeBytes u pa bs) p none 5 ((bs.length + 63) / 64) := by
  have hhere : Nat.min bs.length (pow2 14 - gpa % pow2 14) = bs.length := by
    rw [pow2_eq_two_pow]
    exact Nat.min_eq_left (by omega)
  have hne : bs.isEmpty = false := List.isEmpty_eq_false_iff.mpr (List.length_pos_iff.mp h0)
  simp only [guestWrite, hne, hhere, hw, List.take_length, List.drop_length, List.isEmpty_nil, Bool.false_eq_true, if_false, if_true]

theorem guestWrite_untranslated {e : WalkBad} (k : Nat) (h0 : 0 < bs.length) (hw : devWalk s p gpa true = .error e) :
    guestWrite p (k + 2) s gpa bs = s := by
  have hne : bs.isEmpty = false := List.isEmpty_eq_false_iff.mpr (List.length_pos_iff.mp h0)
  simp only [guestWrite, hne, hw, Bool.false_eq_true, if_false]

variable {n : Nat}

theorem guestRead_page (k : Nat) (h0 : 0 < n) (hp : gpa % 2 ^ 14 + n ≤ 2 ^ 14) (hw : devWalk s p gpa false = .ok (u, pa)) :
    (guestRead p (k + 2) s gpa n).1 = charge u p none 5 ((n + 63) / 64) := by
  have hhere : Nat.min n (pow2 14 - gpa % pow2 14) = n := by
    rw [pow2_eq_two_pow]
    exact Nat.min_eq_left (by omega)
  simp only [guestRead, beq_false_of_ne (Nat.ne_of_gt h0), hhere, hw, Nat.sub_self, beq_self_eq_true, Bool.false_eq_true, if_false, if_true]

theorem guestRead_untranslated {e : WalkBad} (k : Nat) (h0 : 0 < n) (hw : devWalk s p gpa false = .error e) :
    (guestRead p (k + 2) s gpa n).1 = s := by
  simp only [guestRead, beq_false_of_ne (Nat.ne_of_gt h0), hw, Bool.false_eq_true, if_false]

variable (hh : hostLink s = true) (hl : live s p = true) (hn : gpa + bs.length ≤ 2 ^ 36)
include hh hl hn

theorem exec_hostBar2Access_write : exec (.hostBar2Access p gpa bs.length (some bs)) s = .next (guestWrite p (bs.length / 16384 + 2) s gpa bs) := by
  have hin : ¬ pow2 36 < gpa + bs.length := by
    rw [pow2_eq_two_pow]
    exact Nat.not_lt.mpr hn
  simp only [exec, execHostBar2Access, hh, hl, Option.map_some, Option.getD_some, decide_eq_false hin, Bool.not_true, Bool.or_self,
    Bool.false_eq_true, if_false]

theorem exec_hostBar2Access_read : exec (.hostBar2Access p gpa bs.length none) s = .next (guestRead p (bs.length / 16384 + 2) s gpa bs.length).1 := by
  have hin : ¬ pow2 36 < gpa + bs.length := by
    rw [pow2_eq_two_pow]
    exact Nat.not_lt.mpr hn
  simp only [exec, execHostBar2Access, hh, hl, Option.map_none, Option.getD_none, decide_eq_false hin, Bool.not_true, Bool.or_self,
    Bool.false_eq_true, if_false]

end

/-! ### Remote accesses (R412, R501) -/

/-- The size of a remote access, with its sender's level in bit 18. -/
def sizeWord (n : Nat) (sup : Bool) : Nat := n + if sup then 2 ^ 18 else 0

theorem sizeWord_level {n : Nat} (sup : Bool) (h : n < 2 ^ 18) : (nbits (sizeWord n sup) 18 1 == 1) = sup := by
  have hbit : nbits (sizeWord n sup) 18 1 = sizeWord n sup / 2 ^ 18 % 2 := by
    simp only [nbits, pow2_eq_two_pow, natShiftRight_eq_div_pow, Nat.pow_one]
  cases sup with
  | true =>
    have hone : sizeWord n true / 2 ^ 18 % 2 = 1 := by
      simp only [sizeWord, if_true]
      omega
    rw [hbit, hone]
    rfl
  | false =>
    have hzero : sizeWord n false / 2 ^ 18 % 2 = 0 := by
      simp only [sizeWord, Bool.false_eq_true, if_false]
      omega
    rw [hbit, hzero]
    rfl

theorem sizeWord_bytes {n : Nat} (sup : Bool) (h : n < 2 ^ 18) : sizeWord n sup % pow2 18 = n := by
  rw [pow2_eq_two_pow, sizeWord]
  split <;> omega

section
variable {va : Word} {bs : List Byte} {n : Nat} (sup : Bool) (hl : live s p = true) (hg : groupOf s p ≠ 0) (hn : n < 2 ^ 18)
include hl hg hn

theorem exec_remoteAccess_write : exec (.remoteAccess p va (sizeWord n sup) (some bs)) s =
    .next (remoteWrite p sup (bs.length + 1) va.toNat bs s) := by
  simp only [exec, execRemoteAccess, hl, beq_false_of_ne hg, sizeWord_level sup hn, Bool.not_true, Bool.or_self, Bool.false_eq_true, if_false]

theorem exec_remoteAccess_read : exec (.remoteAccess p va (sizeWord n sup) none) s =
    .next (charge (remoteOp s (hostBay s p) p sup none va.toNat n none).1 p none 6 (flitsOf n)) := by
  simp only [exec, execRemoteAccess, hl, beq_false_of_ne hg, sizeWord_level sup hn, sizeWord_bytes sup hn, Bool.not_true, Bool.or_self,
    Bool.false_eq_true, if_false]

end

/-- A remote write within one aligned word is one access. -/
theorem remoteWrite_word {va : Nat} {bs : List Byte} (sup : Bool) (h0 : 0 < bs.length) (h8 : va % 8 + bs.length ≤ 8) :
    remoteWrite p sup (bs.length + 1) va bs s = (remoteOp s (hostBay s p) p sup none va bs.length (some bs)).1 := by
  obtain ⟨m, hm⟩ : ∃ m, bs.length = m + 1 := ⟨bs.length - 1, by omega⟩
  have hk : Nat.min bs.length (8 - va % 8) = bs.length := Nat.min_eq_left (by omega)
  have hne : bs.isEmpty = false := List.isEmpty_eq_false_iff.mpr (List.length_pos_iff.mp h0)
  have hdone (t : State) (a : Nat) : remoteWrite p sup bs.length a [] t = t := by
    rw [hm]
    rfl
  simp only [remoteWrite, hne, hk, List.take_length, List.drop_length, Bool.false_eq_true, if_false]
  split
  · next h => rw [h, hdone]
  · next h => rw [h]

end

end Sys2Proof.Machine

open Sys2Proof.Machine

/-- Settles O60: a message by the inbox, the gate and the room that it finds; an access by its first walk or its first word. -/
theorem hostMessages : Obligations.HostMessages := by
  unfold Obligations.HostMessages
  intro s p
  refine ⟨fun l off bs => exec_inboxAppend_down, fun l off bs hu hl ho => ⟨exec_inboxAppend_joins hu hl ho, exec_inboxAppend_drops hu hl ho⟩,
    ?messages, fun gpa bs u pa hh hl hn h0 hp => ?bar2, ?remote⟩
  case messages =>
    intro m l hm he bay
    exact ⟨exec_hostEngineMessageIntake_gated hm, fun hg => ⟨fun hr => ⟨exec_hostEngineMessageIntake_enters hm he hg hr,
      exec_hostEngineMessageIntake_waits hm he hg hr⟩, fun x hr => ⟨_, exec_hostEngineMessageIntake_refused hm he hg hr, rfl, rfl, rfl⟩⟩⟩
  case bar2 =>
    have hwrite := exec_hostBar2Access_write hh hl hn
    have hread := exec_hostBar2Access_read hh hl hn
    exact ⟨fun hw => hwrite.trans (congrArg _ (guestWrite_page _ h0 hp hw)), fun hw => hread.trans (congrArg _ (guestRead_page _ h0 hp hw)),
      fun e hw => hwrite.trans (congrArg _ (guestWrite_untranslated _ h0 hw)), fun e hw => hread.trans (congrArg _ (guestRead_untranslated _ h0 hw))⟩
  case remote =>
    intro va bs n sup hl hg hn level
    have hwrite := exec_remoteAccess_write (va := va) (bs := bs) sup hl hg hn
    exact ⟨hwrite, fun h0 h8 => hwrite.trans (congrArg _ (remoteWrite_word sup h0 h8)), exec_remoteAccess_read sup hl hg hn⟩
end

section
/-! What a step follows from: the canonical form of the memories and the clock, through the operations that all instructions share
(R102–R117, R198, R239). -/
namespace Sys2Proof.Machine

/-- The memories of t have the canonical form where those of s have it, and the clock of t is that of s. -/
structure Follows (s t : State) : Prop where
  mem : Memory.wf s.mem = true → Memory.wf t.mem = true
  shelf : Memory.wf s.shelf = true → Memory.wf t.shelf = true
  acc : Memory.wf s.acc = true → Memory.wf t.acc = true
  clock : clock t = clock s

variable {s₀ s t : State}

theorem Follows.refl (s : State) : Follows s s := ⟨id, id, id, rfl⟩

theorem Follows.trans (h : Follows s₀ s) (k : Follows s t) : Follows s₀ t :=
  ⟨k.mem ∘ h.mem, k.shelf ∘ h.shelf, k.acc ∘ h.acc, k.clock.trans h.clock⟩

/-- An update of other fields: `stored`, written out, so that the fields are compared one by one. -/
theorem Follows.like (h : Follows s₀ s) (hs : (t.mem, t.shelf, t.acc, t.pkg.cycle, t.pkg.podTime, t.pkg.slewAt, t.issued, t.script) =
    (s.mem, s.shelf, s.acc, s.pkg.cycle, s.pkg.podTime, s.pkg.slewAt, s.issued, s.script)) : Follows s₀ t := by
  simp only [Prod.mk.injEq] at hs
  obtain ⟨hm, hsh, ha, hc⟩ := hs
  have hclock : Machine.clock t = Machine.clock s := by simp only [Machine.clock, hc]
  exact ⟨fun w => hm ▸ h.mem w, fun w => hsh ▸ h.shelf w, fun w => ha ▸ h.acc w, hclock.trans h.clock⟩

theorem Follows.inv (h : Follows s t) (hs : MemInv s) : MemInv t := ⟨h.mem hs.1, h.shelf hs.2.1, h.acc hs.2.2⟩

theorem tracks : CmdStable (Follows s₀) where
  same h hs _ := h.like hs
  wrMem a bs h := ⟨fun w => Memory.wf_wrBytes a bs (h.mem w), h.shelf, h.acc, h.clock⟩
  wrShelf a bs h := ⟨h.mem, fun w => Memory.wf_wrBytes a bs (h.shelf w), h.acc, h.clock⟩
  modCmd _ _ _ h := h.like rfl

theorem follows_modPkg {f : Pkg → Pkg} (h : Follows s₀ s) (hf : clock (modPkg s f) = clock s) : Follows s₀ (modPkg s f) :=
  tracks.modPkg h hf

/-! ### Answers that hold a state

The property of the state in an answer, where it holds one. -/

def EitherFst (P : State → Prop) {α : Type} : Except State (State × α) → Prop
  | .ok x => P x.1
  | .error t => P t

def OnError (P : State → Prop) {α : Type} : Except State α → Prop
  | .ok _ => True
  | .error t => P t

def OnSome (P : State → Prop) : Option State → Prop
  | some t => P t
  | none => True

def OnSomeFst (P : State → Prop) {α : Type} : Option (State × α) → Prop
  | some x => P x.1
  | none => True

def OnRoom (P : State → Prop) : Room → Prop
  | .row t _ => P t
  | .wait t => P t
  | .spent => True

def OnNext (P : State → Prop) : Res → Prop
  | .next t => P t
  | _ => True

section
variable {α : Type}

/-! The state that an equation takes out of an answer. -/

theorem Follows.of_fst {x : State × α} {a : α} (heq : x = (t, a)) (h : Follows s₀ x.1) : Follows s₀ t := by
  rw [heq] at h
  exact h

theorem Follows.of_snd {x : α × State} {a : α} (heq : x = (a, t)) (h : Follows s₀ x.2) : Follows s₀ t := by
  rw [heq] at h
  exact h

theorem Follows.of_ok {x : Except State State} (heq : x = .ok t) (h : Either (Follows s₀) x) : Follows s₀ t := h.of_ok heq

theorem Follows.of_error {x : Except State State} (heq : x = .error t) (h : Either (Follows s₀) x) : Follows s₀ t := h.of_error heq

theorem Follows.of_okFst {x : Except State (State × α)} {a : α} (heq : x = .ok (t, a)) (h : EitherFst (Follows s₀) x) : Follows s₀ t := by
  rw [heq] at h
  exact h

theorem Follows.of_errorFst {x : Except State (State × α)} (heq : x = .error t) (h : EitherFst (Follows s₀) x) : Follows s₀ t := by
  rw [heq] at h
  exact h

theorem Follows.of_onError {x : Except State α} (heq : x = .error t) (h : OnError (Follows s₀) x) : Follows s₀ t := by
  rw [heq] at h
  exact h

theorem Follows.of_some {x : Option State} (heq : x = some t) (h : OnSome (Follows s₀) x) : Follows s₀ t := by
  rw [heq] at h
  exact h

theorem Follows.of_someFst {x : Option (State × α)} {a : α} (heq : x = some (t, a)) (h : OnSomeFst (Follows s₀) x) : Follows s₀ t := by
  rw [heq] at h
  exact h

theorem Follows.of_row {x : Room} {b : Nat} (heq : x = .row t b) (h : OnRoom (Follows s₀) x) : Follows s₀ t := by
  rw [heq] at h
  exact h

theorem Follows.of_wait {x : Room} (heq : x = .wait t) (h : OnRoom (Follows s₀) x) : Follows s₀ t := by
  rw [heq] at h
  exact h

theorem Follows.of_next {x : Res} (heq : x = .next t) (h : OnNext (Follows s₀) x) : Follows s₀ t := by
  rw [heq] at h
  exact h

end

section
variable {P : State → Prop}

/-- The first answer of a list of attempts. -/
theorem OnSome.findSome? {β : Type} {f : β → Option State} (hf : ∀ b, OnSome P (f b)) (l : List β) : OnSome P (l.findSome? f) := by
  induction l with
  | nil => trivial
  | cons b l ih =>
    rw [List.findSome?_cons]
    split
    · next hb =>
      rw [← hb]
      exact hf b
    · exact ih

theorem OnSome.getD {x : Option State} {t : State} (h : OnSome P x) (ht : P t) : P (x.getD t) := by
  cases x with
  | none => exact ht
  | some u => exact h

theorem OnSome.bind {β : Type} {x : Option β} {f : β → Option State} (hf : ∀ b, OnSome P (f b)) : OnSome P (x.bind f) := by
  cases x with
  | none => trivial
  | some b => exact hf b

theorem OnSome.mapFst {β : Type} {x : Option (State × β)} {f : State × β → State} (h : OnSomeFst P x) (hf : ∀ b, P b.1 → P (f b)) :
    OnSome P (x.map f) := by
  cases x with
  | none => trivial
  | some b => exact hf b h

theorem OnSome.map {x : Option State} {f : State → State} (h : OnSome P x) (hf : ∀ t, P t → P (f t)) : OnSome P (x.map f) := by
  cases x with
  | none => trivial
  | some t => exact hf t h

end

/-! ### The shared operations -/

theorem follows_wakeLine {line cause} (h : Follows s₀ s) : Follows s₀ (wakeLine s line cause) := tracks.wakeLine h ..

theorem follows_charge {p tree k n} (h : Follows s₀ s) : Follows s₀ (charge s p tree k n) := tracks.charge h ..

theorem follows_l2Touch {p tree pa write} (h : Follows s₀ s) : Follows s₀ (l2Touch s p tree pa write) := tracks.l2Touch h ..

theorem follows_touchRun {p tree r write} (h : Follows s₀ s) : Follows s₀ (touchRun s p tree r write) := tracks.touchRun h ..

theorem follows_refetch {rs} (h : Follows s₀ s) : Follows s₀ (refetch s rs) := tracks.refetch h ..

theorem follows_readRuns {p tree rs} (h : Follows s₀ s) : Follows s₀ (readRuns s p tree rs).2 := tracks.readRuns h ..

theorem follows_loadRuns {own rs} (h : Follows s₀ s) : Follows s₀ (loadRuns s own rs).2 := tracks.loadRuns h ..

theorem follows_startWalk {bay p va store fetch dirty tag} (h : Follows s₀ s) : Follows s₀ (startWalk s bay p va store fetch dirty tag) :=
    tracks.startWalk h ..

theorem follows_tlbFill {e} (h : Follows s₀ s) : Follows s₀ (tlbFill s e) := tracks.tlbFill h ..

theorem follows_tlbDrop {e} (h : Follows s₀ s) : Follows s₀ (tlbDrop s e) := tracks.tlbDrop h ..

theorem follows_pokeBytes {pa bs} (h : Follows s₀ s) : Follows s₀ (pokeBytes s pa bs) := tracks.pokeBytes h ..

theorem follows_shelfPoke {x1 bs} (h : Follows s₀ s) : Follows s₀ (shelfPoke s x1 bs) := tracks.shelfPoke h ..

theorem follows_writeRuns {p tree x3 x4} (h : Follows s₀ s) : Follows s₀ (writeRuns s p tree x3 x4) := tracks.writeRuns h ..

theorem follows_numbered {r} (h : Follows s₀ s) : Follows s₀ (numbered s r).2 := tracks.numbered h ..

theorem follows_hfqPut {r} (h : Follows s₀ s) : Follows s₀ (hfqPut s r) := tracks.hfqPut h ..

theorem follows_hfqWrite {r must} (h : Follows s₀ s) : Follows s₀ (hfqWrite s r must) := tracks.hfqWrite h ..

theorem follows_hfqFault {r must} (h : Follows s₀ s) : Follows s₀ (hfqFault s r must) := tracks.hfqFault h ..

theorem follows_deliver {r v classN} (h : Follows s₀ s) : Follows s₀ (deliver s r v classN) := tracks.deliver h ..

theorem follows_deliverN {r v} (h : Follows s₀ s) : Follows s₀ (deliverN s r v) := tracks.deliverN h ..

theorem follows_interrupt {p src vec data} (h : Follows s₀ s) : Follows s₀ (interrupt s p src vec data) := tracks.interrupt h ..

theorem follows_touchWalk {p tree l} (h : Follows s₀ s) : Follows s₀ (touchWalk s p tree l) := tracks.touchWalk h ..

theorem follows_orEntry {p tree x3 k} (h : Follows s₀ s) : Follows s₀ (orEntry s p tree x3 k) := tracks.orEntry h ..

theorem follows_walkFill {bay p root va dirty tree} (h : Follows s₀ s) : Follows s₀ (walkFill s bay p root va dirty tree).1 :=
    tracks.walkFill h ..

theorem follows_pageEntry {bay p k tag va} (h : Follows s₀ s) : Follows s₀ (pageEntry bay p k tag s va).1 := tracks.pageEntry h ..

theorem follows_pageRuns {bay p k tag x4 x6 x7 x8} (h : Follows s₀ s) : Follows s₀ (pageRuns bay p k tag x4 s x6 x7 x8).1 :=
    tracks.pageRuns h ..

theorem follows_dirtyPages {bay p k tag x4} (h : Follows s₀ s) : Follows s₀ (dirtyPages bay p k tag x4 s).1 := tracks.dirtyPages h ..

theorem follows_checkPages {bay p k tag va n} (h : Follows s₀ s) : Follows s₀ (checkPages s bay p k tag va n).1 := tracks.checkPages h ..

theorem follows_checkRun {bay p k tag ea n algn} (h : Follows s₀ s) : Follows s₀ (checkRun s bay p k tag ea n algn).1 :=
    tracks.checkRun h ..

theorem follows_openStage2 {p gpa mal item} (h : Follows s₀ s) : Follows s₀ (openStage2 s p gpa mal item) := tracks.openStage2 h ..

theorem follows_joinFault {p va v tag cmd} (h : Follows s₀ s) : Follows s₀ (joinFault s p va v tag cmd) := tracks.joinFault h ..

theorem follows_openPage {p w r v cmd classN} (h : Follows s₀ s) : Follows s₀ (openPage s p w r v cmd classN) := tracks.openPage h ..

theorem follows_devSpan {p store x2 x4 x5} (h : Follows s₀ s) : Either (Follows s₀) (devSpan p store x2 s x4 x5) := tracks.devSpan h ..

theorem follows_devTouch {p gpa n store} (h : Follows s₀ s) : Either (Follows s₀) (devTouch s p gpa n store) := tracks.devTouch h ..

theorem follows_parkedTouch {p key off n store} (h : Follows s₀ s) : Either (Follows s₀) (parkedTouch s p key off n store) :=
    tracks.parkedTouch h ..

theorem follows_cmdRuns {c store ea n algn} (h : Follows s₀ s) : Follows s₀ (cmdRuns s c store ea n algn).1 := tracks.cmdRuns h ..

theorem follows_readElem {c b t r k pp} (h : Follows s₀ s) : Follows s₀ (readElem s c b t r k pp).1 := tracks.readElem h ..

theorem follows_shelfElem {c e k bs} (h : Follows s₀ s) : Follows s₀ (shelfElem s c e k bs) := tracks.shelfElem h ..

theorem follows_chargeLink {c n times} (h : Follows s₀ s) : Follows s₀ (chargeLink s c n times) := tracks.chargeLink h ..

theorem follows_fetchRow {c i r} (h : Follows s₀ s) : Follows s₀ (fetchRow s c i r).1 := tracks.fetchRow h ..

theorem follows_tableRow {c i r} (h : Follows s₀ s) : Follows s₀ (tableRow s c i r).1 := tracks.tableRow h ..

theorem follows_writeRow {c b r vs} (h : Follows s₀ s) : Follows s₀ (writeRow s c b r vs).1 := tracks.writeRow h ..

theorem follows_candidate {c k} (h : Follows s₀ s) : Follows s₀ (candidate s c k).1 := tracks.candidate h ..

theorem follows_modPart {p f} (h : Follows s₀ s) : Follows s₀ (modPart s p f) := tracks.modPart h ..

theorem follows_failCmd {c code g4 g5} (h : Follows s₀ s) : Follows s₀ (failCmd s c code g4 g5) := tracks.failCmd h ..

theorem follows_endCmd {c} (h : Follows s₀ s) : Follows s₀ (endCmd s c) := tracks.endCmd h ..

theorem follows_nextElem {c} (h : Follows s₀ s) : Follows s₀ (nextElem s c) := tracks.nextElem h ..

theorem follows_gathwElem {c rs} (h : Follows s₀ s) : Follows s₀ (gathwElem s c rs) := tracks.gathwElem h ..

section
variable {c : Cmd} {α : Type} {x : State × Got α} {go : State → α → State} {write : State → List Nat → State}

theorem follows_gotten (h : Follows s₀ x.1) (hgo : ∀ t v, Follows s₀ t → Follows s₀ (go t v)) : Follows s₀ (gotten c x go) :=
  tracks.gotten c h hgo

theorem follows_answered {away} (h : Follows s₀ x.1) (hgo : ∀ t v, Follows s₀ t → Follows s₀ (go t v)) :
    Follows s₀ (answered c x away go) :=
  tracks.answered c away h hgo

theorem follows_convertedAll {a b ovp vs} (h : Follows s₀ s) (hgo : ∀ t l, Follows s₀ t → Follows s₀ (write t l)) :
    Follows s₀ (convertedAll c a b ovp s vs write) :=
  tracks.convertedAll h c a b ovp vs hgo

theorem follows_withParked {key off n store} {go : State → State × Got α} (h : Follows s₀ s)
    (hgo : ∀ t, Follows s₀ t → Follows s₀ (go t).1) : Follows s₀ (withParked s c key off n store go).1 :=
  tracks.withParked h c key off n store hgo

end

theorem follows_devAddr {p gpa : Nat} {store : Bool} (h : Follows s₀ s) : EitherFst (Follows s₀) (devAddr s p gpa store) := by
  cases hd : devAddr s p gpa store with
  | ok x => exact tracks.devAddr_ok h hd
  | error t => exact tracks.devAddr_error h hd

end Sys2Proof.Machine
end

section
/-! What follows through faults, tokens and cells: the shared operations of the machine, what memory holds back, and the matching
of tokens. Each proof follows the branches of its function. -/
namespace Sys2Proof.Machine

variable {s₀ s : State}

/-! ### Faults and tokens (Ops) -/

theorem follows_modFrame {p f g} (h : Follows s₀ s) :
    Follows s₀ (modFrame s p f g) :=
  h.like rfl

theorem follows_modBlock {p f q g} (h : Follows s₀ s) :
    Follows s₀ (modBlock s p f q g) :=
  h.like rfl

theorem follows_modCtx {bay cell c g} (h : Follows s₀ s) :
    Follows s₀ (modCtx s bay cell c g) :=
  h.like rfl

theorem follows_modRegion {bay r g} (h : Follows s₀ s) :
    Follows s₀ (modRegion s bay r g) :=
  h.like rfl

theorem follows_modCur {g} (h : Follows s₀ s) :
    Follows s₀ (modCur s g) :=
  h.like rfl

theorem follows_waitCur (h : Follows s₀ s) :
    Follows s₀ (waitCur s) :=
  h.like rfl

theorem follows_waitStage {k} (h : Follows s₀ s) :
    Follows s₀ (waitStage s k) :=
  h.like rfl

theorem follows_freshWord (h : Follows s₀ s) :
    Follows s₀ (freshWord s).2 :=
  h.like rfl

theorem follows_wakeAll {p} (h : Follows s₀ s) :
    Follows s₀ (wakeAll s p) :=
  h.like rfl

theorem follows_postVec {fn vec} (h : Follows s₀ s) :
    Follows s₀ (postVec s fn vec) :=
  h.like rfl

theorem follows_hfqFlush (h : Follows s₀ s) :
    Follows s₀ (hfqFlush s) := by
  unfold hfqFlush
  refine foldl_keeps (P := Follows s₀) (fun _ _ h => ?_) h _
  split
  · exact follows_hfqPut (follows_modPkg h rfl)
  · exact h

theorem follows_clearBlock {p f q stores} (h : Follows s₀ s) :
    Follows s₀ (clearBlock s p f q stores) :=
  h.like rfl

theorem follows_discardAll {l} (h : Follows s₀ s) :
    Follows s₀ (discardAll s l) :=
  foldl_keeps (P := Follows s₀) (fun _ _ ht => follows_clearBlock ht) h _

theorem follows_discardYounger {p f q} (h : Follows s₀ s) :
    Follows s₀ (discardYounger s p f q) :=
  follows_discardAll h

theorem follows_haltFrame {p f q r} (h : Follows s₀ s) :
    Follows s₀ (haltFrame s p f q r) := by
  unfold haltFrame
  dsimp only
  split
  · exact h
  · split
    · exact h
    · split
      · exact follows_hfqFault (follows_modFrame (follows_clearBlock (follows_discardYounger h)))
      · exact follows_deliver (follows_modFrame (follows_clearBlock (follows_discardYounger h)))

theorem follows_raiseBlock {p f q r} (h : Follows s₀ s) :
    Follows s₀ (raiseBlock s p f q r) := by
  unfold raiseBlock
  split
  · exact follows_haltFrame h
  · exact follows_modBlock h

theorem follows_replaceRec {x r} (h : Follows s₀ s) :
    Follows s₀ (replaceRec s x r) := by
  unfold replaceRec
  dsimp only
  split
  · exact follows_modPart (follows_modRegion h)
  · exact h

theorem follows_freezeRegion {bay g r i} (h : Follows s₀ s) :
    Follows s₀ (freezeRegion s bay g r i) := by
  unfold freezeRegion
  dsimp only
  split
  · exact h
  · split
    · split
      · exact follows_replaceRec (follows_modRegion h)
      · exact follows_modRegion h
    · exact follows_deliver (follows_modRegion h)

theorem follows_faultRec {r} (h : Follows s₀ s) :
    Follows s₀ (faultRec s r) := by
  unfold faultRec
  split
  · exact follows_freezeRegion h
  · exact follows_raiseBlock h

theorem follows_fault {code g4 g5} (h : Follows s₀ s) :
    Follows s₀ (fault s code g4 g5) :=
  follows_faultRec h

theorem follows_illop (h : Follows s₀ s) :
    Follows s₀ (illop s) :=
  follows_fault h

theorem follows_faultAux {code g4 g5 aux} (h : Follows s₀ s) :
    Follows s₀ (faultAux s code g4 g5 aux) :=
  follows_faultRec h

theorem follows_noteAct (h : Follows s₀ s) :
    Follows s₀ (noteAct s) := by
  unfold noteAct
  split
  · exact h
  · exact follows_modBlock h

theorem follows_dupFault {kept refused kind place sender tag p f q} (h : Follows s₀ s) :
    Follows s₀ (dupFault s kept refused kind place sender tag p f q) :=
  follows_raiseBlock h

theorem follows_recvReg {p f q g v sender tag} (h : Follows s₀ s) :
    Follows s₀ (recvReg s p f q g v sender tag) := by
  unfold recvReg
  split
  · exact h
  · split
    · exact follows_dupFault h
    · exact follows_modBlock h

theorem follows_recvSoft {p f q k v sender tag} (h : Follows s₀ s) :
    Follows s₀ (recvSoft s p f q k v sender tag) := by
  unfold recvSoft
  split
  · exact h
  · split
    · exact follows_dupFault h
    · exact follows_modBlock h

theorem follows_recvStore {p f q l sender v tag} (h : Follows s₀ s) :
    Follows s₀ (recvStore s p f q l sender v tag) := by
  unfold recvStore
  split
  · exact h
  · split
    · exact follows_dupFault h
    · exact follows_modBlock h

theorem follows_launchTok {x} (h : Follows s₀ s) :
    Follows s₀ (launchTok s x) :=
  h.like rfl

theorem follows_sendBlock {t k v} (h : Follows s₀ s) :
    Follows s₀ (sendBlock s t k v) := by
  unfold sendBlock
  dsimp only
  split
  · exact follows_launchTok h
  · split
    · exact follows_recvReg h
    · split
      · exact follows_recvSoft h
      · exact follows_launchTok h

theorem follows_illopRoute {rt} (h : Follows s₀ s) :
    Follows s₀ (illopRoute s rt) :=
  follows_fault h

theorem follows_exitPort {r rt tok} (h : Follows s₀ s) :
    Follows s₀ (exitPort s r rt tok) := by
  unfold exitPort
  dsimp only
  split
  · exact follows_illopRoute h
  · split
    · exact follows_modRegion h
    · exact follows_launchTok h

theorem follows_sendRoute {rt tok cfg} (h : Follows s₀ s) :
    Follows s₀ (sendRoute s rt tok cfg) := by
  unfold sendRoute
  dsimp only
  split
  · exact h
  · split
    · split
      · exact follows_exitPort h
      · split
        · exact h
        · split
          · exact follows_illopRoute h
          · split
            · exact h
            · exact follows_modRegion h
    · exact follows_launchTok h

theorem follows_sendGrid {t k v} (h : Follows s₀ s) :
    Follows s₀ (sendGrid s t k v) := by
  unfold sendGrid
  dsimp only
  split
  · split
    · exact follows_sendRoute h
    · exact h
  · exact h

theorem follows_sendEntry {t k v} (h : Follows s₀ s) :
    Follows s₀ (sendEntry s t k v) :=
  h.like rfl

theorem follows_sendKind {t k v} (h : Follows s₀ s) :
    Follows s₀ (sendKind s t k v) := by
  unfold sendKind
  split
  · exact h
  · split
    · split
      · exact follows_sendEntry h
      · exact follows_sendGrid h
    · exact follows_sendBlock h

theorem follows_send {t v} (h : Follows s₀ s) :
    Follows s₀ (send s t v) :=
  follows_sendKind h

theorem follows_sendAll {ts k v} (h : Follows s₀ s) :
    Follows s₀ (sendAll s ts k v) :=
  foldl_keeps (P := Follows s₀) (fun _ _ ht => follows_sendKind ht) h _

/-! ### Memory and versions (Mem) -/

theorem follows_chargeFj {p tree fj} (h : Follows s₀ s) :
    Follows s₀ (chargeFj s p tree fj) := by
  unfold chargeFj
  dsimp only
  split
  · exact follows_modPart h
  · split
    · exact follows_deliverN (follows_modPart (follows_modPart h))
    · exact follows_modPart (follows_modPart h)

theorem follows_writeBack {line} (h : Follows s₀ s) :
    Follows s₀ (writeBack s line) :=
  h.like rfl

theorem follows_l2Room {p slice set} (h : Follows s₀ s) :
    Follows s₀ (l2Room s p slice set) := by
  unfold l2Room
  dsimp only
  split
  · split
    · refine follows_wakeLine ?_
      split
      · exact follows_charge (follows_writeBack (h.like rfl))
      · exact h.like rfl
    · exact h
  · exact h

theorem follows_feedLdv {p pa n v} (h : Follows s₀ s) :
    Follows s₀ (feedLdv s p pa n v) :=
  h.like rfl

theorem follows_doStv {p pa v} (h : Follows s₀ s) :
    OnSomeFst (Follows s₀) (doStv s p pa v) := by
  unfold doStv
  dsimp only
  split
  · split
    · exact trivial
    · exact follows_wakeLine (follows_feedLdv (h.like rfl))
  · split
    · exact trivial
    · exact follows_wakeLine (follows_feedLdv (h.like rfl))

theorem follows_doReclaim {p pa r} (h : Follows s₀ s) :
    Follows s₀ (doReclaim s p pa r) := by
  unfold doReclaim
  dsimp only
  split
  · exact h
  · exact iteInduction (fun _ => follows_pokeBytes (h.like rfl)) (fun _ => h.like rfl)

theorem follows_performStore {x} (h : Follows s₀ s) :
    OnSome (Follows s₀) (performStore s x) := by
  unfold performStore
  split
  · exact follows_writeRuns h
  · exact follows_charge (follows_shelfPoke h)
  · refine OnSome.mapFst (follows_doStv h) fun _ ht => follows_l2Touch ht
  · exact follows_l2Touch (follows_doReclaim h)

theorem follows_releaseHeld {p f x2} (h : Follows s₀ s) :
    Follows s₀ (releaseHeld p f x2 s) := by
  induction x2 generalizing s with
  | zero =>
    exact h
  | succ n ih =>
    unfold releaseHeld
    split
    · exact h
    · split
      · next e => exact ih (.of_some e (follows_performStore (h.like rfl)))
      · exact h

/-! ### Flags -/

theorem follows_raiseFl {fl} (h : Follows s₀ s) :
    Follows s₀ (raiseFl s fl) := by
  unfold raiseFl
  dsimp only
  split
  · exact follows_modRegion h
  · exact follows_modBlock h

/-! ### Operands -/

theorem follows_shell {pr ts eff} (h : Follows s₀ s) (heff : ∀ t, Follows s₀ t → Follows s₀ (eff t)) :
    Follows s₀ (shell pr ts s eff) := by
  unfold shell
  split
  · exact follows_sendAll h
  · split
    · exact follows_sendAll h
    · split
      · exact h
      · split
        · exact follows_sendAll h
        · exact heff _ h

theorem follows_shellA {f eff} (h : Follows s₀ s) (heff : ∀ t, Follows s₀ t → Follows s₀ (eff t)) :
    Follows s₀ (shellA f s eff) :=
  follows_shell h heff

theorem follows_send2 {f v} (h : Follows s₀ s) :
    Follows s₀ (send2 f s v) :=
  follows_send (follows_send h)

/-! ### Cells and queues (Fabric) -/

theorem follows_restSlot {x} (h : Follows s₀ s) :
    Follows s₀ (restSlot s x) :=
  h.like rfl

theorem follows_takeSlots {p f idx used} (h : Follows s₀ s) :
    Follows s₀ (takeSlots s p f idx used) :=
  h.like rfl

theorem follows_form {c t ops} (h : Follows s₀ s) :
    Follows s₀ (form s c t ops) :=
  h.like rfl

theorem follows_popHead {c sl} (h : Follows s₀ s) :
    Follows s₀ (popHead s c sl) := by
  unfold popHead
  split
  · exact h.like rfl
  · exact h

theorem follows_skewFault {c code t u} (h : Follows s₀ s) :
    Follows s₀ (skewFault s c code t u) :=
  follows_freezeRegion h

theorem follows_pairOnce {c} (h : Follows s₀ s) :
    OnSome (Follows s₀) (pairOnce s c) := by
  unfold pairOnce
  dsimp only
  split
  · exact trivial
  · split
    · split
      · exact follows_form (follows_popHead h)
      · exact trivial
    · split
      · exact trivial
      · split
        · split
          · exact follows_modCtx (foldl_keeps (P := Follows s₀) (fun _ _ ht => follows_popHead ht) h _)
          · split
            · split
              · exact follows_skewFault h
              · exact follows_form (foldl_keeps (P := Follows s₀) (fun _ _ ht => follows_popHead ht) h _)
            · exact follows_skewFault h
        · split
          · exact trivial
          · split
            · exact follows_skewFault h
            · split
              · exact follows_form (foldl_keeps (P := Follows s₀) (fun _ _ ht => follows_popHead ht) h _)
              · exact trivial

theorem follows_pairNow {c} (h : Follows s₀ s) :
    OnSome (Follows s₀) (pairNow s c) := by
  unfold pairNow
  split
  · exact trivial
  · exact follows_pairOnce h

theorem follows_pairCtx {bay cell c x3} (h : Follows s₀ s) :
    Follows s₀ (pairCtx bay cell c x3 s) := by
  induction x3 generalizing s with
  | zero =>
    exact h
  | succ n ih =>
    unfold pairCtx
    split
    · next e => exact ih (.of_some e (.bind fun _ => follows_pairNow h))
    · exact h

theorem follows_pairRegion {bay g} (h : Follows s₀ s) :
    Follows s₀ (pairRegion s bay g) :=
  foldl_keeps (P := Follows s₀) (fun _ _ ht => follows_pairCtx ht) h _

theorem follows_requeueCur (h : Follows s₀ s) :
    Follows s₀ (requeueCur s) :=
  h.like rfl

theorem follows_putPlaces {p f bs} (h : Follows s₀ s) :
    Follows s₀ (putPlaces s p f bs) :=
  h.like rfl

theorem follows_reseat {p f bay bs} (h : Follows s₀ s) :
    Follows s₀ (reseat s p f bay bs) :=
  h.like rfl

theorem follows_outQueue {n} (h : Follows s₀ s) :
    Follows s₀ (outQueue s n) :=
  h.like rfl

theorem follows_matchBlock {b idx n e} (h : Follows s₀ s) :
    OnSome (Follows s₀) (matchBlock s b idx n e) := by
  unfold matchBlock
  dsimp only
  split
  · exact trivial
  · split
    · split
      · exact trivial
      · split
        · split
          · exact trivial
          · exact follows_raiseBlock h
        · exact h.like rfl
    · exact follows_restSlot (follows_outQueue h)
    · exact trivial
    · exact follows_raiseBlock (follows_outQueue h)

theorem follows_matchMerge {c n e} (h : Follows s₀ s) :
    OnSome (Follows s₀) (matchMerge s c n e) := by
  unfold matchMerge
  dsimp only
  exact iteInduction (fun _ => follows_form (follows_outQueue h)) (fun _ => trivial)

theorem follows_matchGrid {c n e} (h : Follows s₀ s) :
    OnSome (Follows s₀) (matchGrid s c n e) := by
  unfold matchGrid
  dsimp only
  split
  · exact trivial
  · split
    · exact follows_matchMerge h
    · split
      · split
        · exact trivial
        · split
          · exact follows_freezeRegion h
          · exact follows_form (follows_takeSlots (follows_outQueue h))
      · exact follows_restSlot (follows_outQueue h)
      · exact trivial
      · exact follows_freezeRegion (follows_outQueue h)

theorem follows_tryHead {n e} (h : Follows s₀ s) :
    OnSome (Follows s₀) (tryHead s n e) := by
  unfold tryHead
  split
  · exact .bind fun _ => follows_matchBlock h
  · refine .bind fun _ => ?_
    split
    · exact follows_pairNow h
    · exact follows_matchGrid h

theorem follows_tryCell {e} (h : Follows s₀ s) :
    OnSome (Follows s₀) (tryCell s e) := by
  refine .findSome? (fun _ => .bind fun _ => ?_) _
  split
  · exact follows_tryHead h
  · trivial

theorem follows_settle {e x1} (h : Follows s₀ s) :
    Follows s₀ (settle e x1 s) := by
  induction x1 generalizing s with
  | zero =>
    exact h
  | succ n ih =>
    unfold settle
    split
    · next e => exact ih (.of_some e (follows_tryCell h))
    · exact h

theorem follows_enqueue {e} (h : Follows s₀ s) :
    Follows s₀ (enqueue s e) :=
  follows_settle (h.like rfl)

theorem follows_tagRange {x unalloc} (h : Follows s₀ s) :
    Follows s₀ (tagRange s x unalloc) :=
  follows_deliverN h

theorem follows_appendImage {p f x} (h : Follows s₀ s) :
    OnSome (Follows s₀) (appendImage s p f x) := by
  unfold appendImage
  split
  · exact trivial
  · split
    · exact trivial
    · exact h.like rfl

theorem follows_arriveCell {x bay cell sl} (h : Follows s₀ s) :
    OnSome (Follows s₀) (arriveCell s x bay cell sl) := by
  unfold arriveCell
  dsimp only
  split
  · exact h
  · split
    · split
      · exact trivial
      · exact follows_modCtx h
    · split
      · exact follows_appendImage h
      · split
        · exact trivial
        · exact follows_enqueue h

theorem follows_arriveEntry {x bay e} (h : Follows s₀ s) :
    OnSome (Follows s₀) (arriveEntry s x bay e) := by
  unfold arriveEntry
  dsimp only
  split
  · split
    · exact trivial
    · exact follows_tagRange h
  · split
    · exact follows_tagRange h
    · split
      · exact trivial
      · exact .map (follows_arriveCell h) fun _ ht => ht.like rfl

theorem follows_arriveBlock {x fr t} (h : Follows s₀ s) :
    OnSome (Follows s₀) (arriveBlock s x fr t) := by
  unfold arriveBlock
  dsimp only
  split
  · split
    · split
      · exact trivial
      · exact h
    · exact trivial
  · split
    · exact trivial
    · split
      · split
        · exact trivial
        · split
          · exact trivial
          · exact follows_enqueue h
      · split
        · exact follows_recvReg h
        · exact follows_recvSoft h

theorem follows_childAck {p parent} (h : Follows s₀ s) :
    Follows s₀ (childAck s p parent) :=
  h.like rfl

theorem follows_arrive {x} (h : Follows s₀ s) :
    OnSome (Follows s₀) (arrive s x) := by
  unfold arrive
  dsimp only
  split
  · exact follows_tagRange h
  · split
    · exact follows_tagRange h
    · split
      · exact follows_arriveCell h
      · split
        · exact follows_childAck h
        · exact follows_appendImage h
      · split
        · exact follows_arriveEntry h
        · split
          · exact h
          · split
            · exact h
            · split
              · exact follows_arriveBlock h
              · exact follows_appendImage h

theorem follows_execCollisionRetry {n} (h : Follows s₀ s) :
    OnNext (Follows s₀) (execCollisionRetry n s) := by
  unfold execCollisionRetry
  split
  · exact h
  · split
    · exact h
    · exact follows_settle h

theorem follows_execPriorityAging {n} (h : Follows s₀ s) :
    OnNext (Follows s₀) (execPriorityAging n s) :=
  h.like rfl

end Sys2Proof.Machine
end

section
/-! What follows through frames and blocks: images and rows, commits, the order of accesses, fetches, and accesses to memory.
Each proof follows the branches of its function. -/
namespace Sys2Proof.Machine

variable {s₀ s : State}

/-! ### Frames and their rows -/

theorem follows_imageTouch {t x} (h : Follows s₀ s) :
    Either (Follows s₀) (imageTouch s t x) := by
  unfold imageTouch
  split
  · exact h
  · split
    · exact h
    · exact follows_devTouch h

theorem follows_execTokenArrival {n} (h : Follows s₀ s) :
    OnNext (Follows s₀) (execTokenArrival n s) := by
  unfold execTokenArrival
  split
  · exact h
  · split
    · exact h
    · split
      · exact h
      · split
        · next e => exact Follows.of_error e (follows_imageTouch h)
        · next hu => exact OnSome.getD (P := Follows s₀) (follows_arrive ((Follows.of_ok hu (follows_imageTouch h)).like rfl)) h

theorem follows_dirWrite {p f w} (h : Follows s₀ s) :
    Either (Follows s₀) (dirWrite s p f w) := by
  unfold dirWrite
  split
  · next e => exact follows_charge (follows_pokeBytes (Follows.of_okFst e (follows_devAddr h)))
  · next e => exact Follows.of_errorFst e (follows_devAddr h)

theorem follows_completionWrite {c} (h : Follows s₀ s) :
    Follows s₀ (completionWrite s c) := by
  unfold completionWrite
  dsimp only
  split
  · next e => exact follows_writeRuns (Follows.of_fst e (follows_checkRun h))
  · next e => exact (Follows.of_fst e (follows_checkRun h)).like rfl
  · next e => exact follows_openPage ((Follows.of_fst e (follows_checkRun h)).like rfl)
  · next e => exact follows_deliverN (Follows.of_fst e (follows_checkRun h))

theorem follows_complete {p va v sup host tree} (h : Follows s₀ s) :
    Follows s₀ (complete s p va v sup host tree) :=
  follows_completionWrite (h.like rfl)

theorem follows_retryCompletions {cond} (h : Follows s₀ s) :
    Follows s₀ (retryCompletions s cond) := by
  unfold retryCompletions
  refine foldl_keeps (fun _ _ ht => follows_completionWrite ht) ?_ _
  exact h.like rfl

theorem follows_cellarItem {p n store} (h : Follows s₀ s) :
    Either (Follows s₀) (cellarItem s p n store) :=
  follows_devTouch h

theorem follows_spillFrame {fr} (h : Follows s₀ s) :
    Either (Follows s₀) (spillFrame s fr) := by
  rw [spillFrame]
  split
  · next e => exact Follows.of_error e (follows_devTouch h)
  · next e1 =>
    split
    · next e => exact Follows.of_error e (follows_dirWrite (Follows.of_ok e1 (follows_devTouch h)))
    · next e => exact (Follows.of_ok e (follows_dirWrite (Follows.of_ok e1 (follows_devTouch h)))).like rfl

theorem follows_cleanRow {bay row} (h : Follows s₀ s) :
    Follows s₀ (cleanRow s bay row) :=
  h.like rfl

theorem follows_installFrame {fr bay} (h : Follows s₀ s) :
    Either (Follows s₀) (installFrame s fr bay) := by
  unfold installFrame
  dsimp only
  split
  · next e => exact Follows.of_error e (follows_dirWrite h)
  · next e => exact (Follows.of_ok e (follows_dirWrite h)).like rfl

theorem follows_takeSerial {p} (h : Follows s₀ s) :
    Follows s₀ (takeSerial s p).2 :=
  h.like rfl

theorem follows_roomBySpill {bay l} (h : Follows s₀ s) :
    OnRoom (Follows s₀) (roomBySpill s bay l) := by
  unfold roomBySpill
  split
  · exact h
  · split
    · exact trivial
    · split
      · next e => exact Follows.of_ok e (follows_spillFrame h)
      · next e => exact Follows.of_error e (follows_spillFrame h)

theorem follows_makeRoom {p maker} (h : Follows s₀ s) :
    OnRoom (Follows s₀) (makeRoom s p maker) := by
  unfold makeRoom
  split
  · exact follows_roomBySpill h
  · exact h

theorem follows_drawName {p name} (h : Follows s₀ s) :
    Follows s₀ (drawName s p name).2 := by
  unfold drawName
  split
  · exact h
  · exact follows_takeSerial h

theorem follows_startFrame {fr bay addr} (h : Follows s₀ s) :
    Either (Follows s₀) (startFrame s fr bay addr) := by
  unfold startFrame
  dsimp only
  split
  · next e => exact Follows.of_error e (follows_installFrame h)
  · next e => exact follows_modFrame (follows_drawName (Follows.of_ok e (follows_installFrame h)))

theorem follows_entryToken {p f ctx t v} (h : Follows s₀ s) :
    Follows s₀ (entryToken s p f ctx t v) := by
  unfold entryToken
  split
  · exact h
  · exact follows_launchTok h

theorem follows_raiseHeld {p f} (h : Follows s₀ s) :
    Follows s₀ (raiseHeld s p f) := by
  unfold raiseHeld
  dsimp only
  split
  · exact h
  · split
    · exact h
    · split
      · exact follows_modFrame (follows_clearBlock (follows_discardYounger h))
      · exact follows_haltFrame h

theorem follows_replay {x0} (h : Follows s₀ s) :
    Follows s₀ (replay x0 s) := by
  induction x0 generalizing s with
  | nil =>
    exact h
  | cons x xs ih =>
    unfold replay
    split
    · next e => exact ih (Follows.of_some e (follows_arrive h))
    · exact h.like rfl

theorem follows_joinPlane {x} (h : Follows s₀ s) :
    Follows s₀ (joinPlane s x) := by
  unfold joinPlane
  split
  · exact follows_modRegion h
  · exact h

theorem follows_joinReady {i} (h : Follows s₀ s) :
    Follows s₀ (joinReady s i) := by
  unfold joinReady
  split
  · exact follows_modRegion h
  · exact h.like rfl

theorem follows_reload {fr} (h : Follows s₀ s) :
    Follows s₀ (reload s fr) := by
  unfold reload
  dsimp only
  split
  · split
    · next e => exact Follows.of_error e (follows_dirWrite h)
    · next e => exact follows_modFrame (follows_cleanRow (Follows.of_ok e (follows_dirWrite h)))
  · refine iteInduction (fun _ => ?_) fun _ => ?_
    · exact h
    · split
      · next e => exact Follows.of_error e (follows_devTouch h)
      · next e5 =>
        split
        · next e => exact Follows.of_error e (follows_dirWrite (Follows.of_ok e5 (follows_devTouch h)))
        · next e7 =>
          have h1 := Follows.of_ok e7 (follows_dirWrite (Follows.of_ok e5 (follows_devTouch h)))
          refine follows_raiseHeld (follows_replay ?_)
          refine foldl_keeps (fun _ _ ht => follows_joinPlane ht) (foldl_keeps (fun _ _ ht => follows_joinReady ht) ?_ _) _
          exact h1.like rfl

theorem follows_deliverRet {p l v} (h : Follows s₀ s) :
    Follows s₀ (deliverRet s p l v) := by
  unfold deliverRet
  dsimp only
  split
  · split
    · exact h
    · exact follows_launchTok h
  · exact h

theorem follows_childEnd {p parent} (h : Follows s₀ s) :
    Follows s₀ (childEnd s p parent) := by
  unfold childEnd
  split
  · exact follows_childAck h
  · exact follows_launchTok h

theorem follows_dropParked {p} (h : Follows s₀ s) :
    Follows s₀ (dropParked s p) :=
  h.like rfl

theorem follows_endFrame {fr} (h : Follows s₀ s) :
    Either (Follows s₀) (endFrame s fr) := by
  unfold endFrame
  dsimp only
  split
  · next e => exact Follows.of_error e (follows_dirWrite h)
  · next e1 =>
    refine follows_dropParked ?_
    split
    · split
      · refine follows_modPart ?_
        split
        · refine follows_childEnd ?_
          split
          · exact follows_deliverRet ((Follows.of_ok e1 (follows_dirWrite h)).like rfl)
          · exact (Follows.of_ok e1 (follows_dirWrite h)).like rfl
        · split
          · exact follows_deliverRet ((Follows.of_ok e1 (follows_dirWrite h)).like rfl)
          · exact (Follows.of_ok e1 (follows_dirWrite h)).like rfl
      · refine follows_complete ?_
        refine follows_modPart ?_
        split
        · refine follows_childEnd ?_
          split
          · exact follows_deliverRet ((Follows.of_ok e1 (follows_dirWrite h)).like rfl)
          · exact (Follows.of_ok e1 (follows_dirWrite h)).like rfl
        · split
          · exact follows_deliverRet ((Follows.of_ok e1 (follows_dirWrite h)).like rfl)
          · exact (Follows.of_ok e1 (follows_dirWrite h)).like rfl
    · split
      · refine follows_childEnd ?_
        split
        · exact follows_deliverRet ((Follows.of_ok e1 (follows_dirWrite h)).like rfl)
        · exact (Follows.of_ok e1 (follows_dirWrite h)).like rfl
      · split
        · exact follows_deliverRet ((Follows.of_ok e1 (follows_dirWrite h)).like rfl)
        · exact (Follows.of_ok e1 (follows_dirWrite h)).like rfl

theorem follows_finishFrame {p f} (h : Follows s₀ s) :
    Follows s₀ (finishFrame s p f) := by
  unfold finishFrame
  split
  · exact h
  · split
    · exact follows_modFrame h
    · split
      · next e => exact Follows.of_ok e (follows_endFrame h)
      · next e => exact follows_modFrame (Follows.of_error e (follows_endFrame h))

theorem follows_finishEnding (h : Follows s₀ s) :
    Follows s₀ (finishEnding s) :=
  foldl_keeps (P := Follows s₀) (fun _ _ ht => follows_finishFrame ht) h _

theorem follows_releaseAll (h : Follows s₀ s) :
    Follows s₀ (releaseAll s) :=
  follows_finishEnding (foldl_keeps (P := Follows s₀) (fun _ _ ht => follows_releaseHeld ht) h _)

/-! ### The order of accesses -/

theorem follows_fenceHeld (h : Follows s₀ s) :
    Follows s₀ (fenceHeld s) := by
  unfold fenceHeld
  split
  · exact h
  · split
    · exact h.like rfl
    · exact h

theorem follows_placeCur (h : Follows s₀ s) :
    Follows s₀ (placeCur s) := by
  unfold placeCur
  dsimp only
  split
  · exact (follows_fenceHeld (follows_modCur h)).like rfl
  · exact (follows_fenceHeld (follows_modCur h)).like rfl

theorem follows_whenSettled {eff} (h : Follows s₀ s) (heff : ∀ t, Follows s₀ t → Follows s₀ (eff t)) :
    Follows s₀ (whenSettled s eff) := by
  unfold whenSettled
  split
  · exact heff _ h
  · exact follows_waitCur h

/-! ### Blocks and commits (Front) -/

theorem follows_enterBlock {fr addr h0 h1 words spec held} (h : Follows s₀ s) :
    Follows s₀ (enterBlock s fr addr h0 h1 words spec held) :=
  follows_raiseHeld (h.like rfl)

theorem follows_fetchAt {fr addr spec} (h : Follows s₀ s) :
    Follows s₀ (fetchAt s fr addr spec) := by
  unfold fetchAt
  dsimp only
  split
  · next e => exact Follows.of_fst e (follows_checkRun h)
  · next e => exact follows_enterBlock (Follows.of_fst e (follows_checkRun h))
  · next e => exact follows_enterBlock (Follows.of_fst e (follows_checkRun h))
  · next e3 =>
    split
    · next e => exact Follows.of_fst e (follows_checkRun (Follows.of_fst e3 (follows_checkRun h)))
    · next e => exact follows_enterBlock (Follows.of_fst e (follows_checkRun (Follows.of_fst e3 (follows_checkRun h))))
    · next e => exact follows_enterBlock (Follows.of_fst e (follows_checkRun (Follows.of_fst e3 (follows_checkRun h))))
    · next e7 =>
      split
      · exact follows_enterBlock (Follows.of_fst e7 (follows_checkRun (Follows.of_fst e3 (follows_checkRun h))))
      · exact follows_enterBlock (follows_readRuns (Follows.of_fst e7 (follows_checkRun (Follows.of_fst e3 (follows_checkRun h)))))

theorem follows_refetchOldest {p f} (h : Follows s₀ s) :
    Follows s₀ (refetchOldest s p f) := by
  unfold refetchOldest
  split
  · split
    · exact h
    · exact follows_modFrame (follows_discardAll h)
  · exact h

theorem follows_execBlockFetch {p f exitNo} (h : Follows s₀ s) :
    OnNext (Follows s₀) (execBlockFetch p f exitNo s) := by
  unfold execBlockFetch
  dsimp only
  split
  · exact h
  · split
    · exact h
    · split
      · exact h
      · split
        · exact h
        · exact follows_fetchAt h

theorem follows_replaceBlock {fr b} (h : Follows s₀ s) :
    Follows s₀ (replaceBlock s fr b) := by
  unfold replaceBlock
  dsimp only
  split
  · exact h
  · exact iteInduction (fun _ => h) fun _ => foldl_keeps (P := Follows s₀) (fun _ _ ht => follows_settle ht) (follows_reseat h) _

theorem follows_execBlockPlacement {p f} (h : Follows s₀ s) :
    OnNext (Follows s₀) (execBlockPlacement p f s) := by
  unfold execBlockPlacement
  dsimp only
  split
  · split
    · exact h
    · split
      · exact follows_replaceBlock h
      · split
        · exact h
        · split
          · exact h
          · exact h.like rfl
  · exact h

theorem follows_commitWrsrs {p l} (h : Follows s₀ s) :
    Follows s₀ (commitWrsrs s p l) := by
  unfold commitWrsrs
  refine foldl_keeps (P := Follows s₀) (fun _ _ h => ?_) h _
  split
  · exact follows_modPart h
  · split
    · exact follows_modPart h
    · exact h

theorem follows_commitStores {p f q} (h : Follows s₀ s) :
    Follows s₀ (commitStores s p f q) :=
  follows_releaseHeld (h.like rfl)

theorem follows_thawRegion {bay g} (h : Follows s₀ s) :
    Follows s₀ (thawRegion s bay g) := by
  unfold thawRegion
  dsimp only
  split
  · exact h
  · exact follows_pairRegion (h.like rfl)

theorem follows_freeBindings {r} (h : Follows s₀ s) :
    Follows s₀ (freeBindings s r) :=
  h.like rfl

theorem follows_dropResting {r} (h : Follows s₀ s) :
    Follows s₀ (dropResting s r) :=
  h.like rfl

theorem follows_dropQueued {r} (h : Follows s₀ s) :
    Follows s₀ (dropQueued s r) :=
  h.like rfl

theorem follows_freeRegion {bay g} (h : Follows s₀ s) :
    Follows s₀ (freeRegion s bay g) := by
  unfold freeRegion
  dsimp only
  split
  · exact h
  · exact follows_dropParked (h.like rfl)

theorem follows_restartRegion {bay g} (h : Follows s₀ s) :
    Follows s₀ (restartRegion s bay g) := by
  unfold restartRegion
  dsimp only
  split
  · exact h
  · exact follows_modRegion (h.like rfl)

theorem follows_abortFrame {p f} (h : Follows s₀ s) :
    Follows s₀ (abortFrame s p f) :=
  follows_finishFrame ((follows_discardAll h).like rfl)

theorem follows_unholdCmds {p} (h : Follows s₀ s) :
    Follows s₀ (unholdCmds s p) :=
  h.like rfl

theorem follows_dropPage {p va} (h : Follows s₀ s) :
    Follows s₀ (dropPage s p va) :=
  h.like rfl

theorem follows_closePage {p va} (h : Follows s₀ s) :
    Follows s₀ (closePage s p va) :=
  follows_retryCompletions (follows_unholdCmds (follows_dropPage h))

theorem follows_leavePage {p va} (h : Follows s₀ s) :
    Follows s₀ (leavePage s p va) := by
  unfold leavePage
  split
  · exact h
  · exact follows_dropPage h

theorem follows_stopHolder {p va r} (h : Follows s₀ s) :
    Follows s₀ (stopHolder s p va r).1 := by
  unfold stopHolder
  dsimp only
  split
  · split
    · exact h
    · exact follows_modRegion (h.like rfl)
  · split
    · exact h
    · exact follows_modFrame (follows_discardAll h)

theorem follows_editRun {fr x2} (h : Follows s₀ s) :
    Follows s₀ (editRun s fr x2).1 :=
  follows_checkRun h

theorem follows_applyChoice {p c t} (h : Follows s₀ s) :
    Follows s₀ (applyChoice s p c t) := by
  unfold applyChoice
  extract_lets act cmdEnd send3 held
  have hsend {u} (hu : Follows s₀ u) : Follows s₀ (send3 u) := iteInduction (fun _ => follows_hfqWrite hu) (fun _ => hu)
  have hheld : Follows s₀ held.1 := by
    unfold held
    split
    · refine iteInduction (motive := fun x : State × Victim => Follows s₀ x.1) (fun _ => ?_) fun _ => ?_
      · exact follows_closePage h
      · exact follows_leavePage (follows_stopHolder h)
    · exact h
  split
  · exact follows_modFrame h
  · split
    · split
      · exact hsend hheld
      · split
        · exact follows_modFrame hheld
        · exact hsend (follows_abortFrame hheld)
    · split
      · exact follows_thawRegion hheld
      · split
        · exact follows_pairRegion (follows_restartRegion hheld)
        · exact hsend (follows_freeRegion hheld)
    · split
      · exact follows_closePage hheld
      · exact hsend (follows_leavePage (hheld.like rfl))
    · split
      · exact hsend hheld
      · split
        · exact follows_closePage hheld
        · exact hsend (follows_leavePage (hheld.like rfl))
    · exact hsend hheld

theorem follows_commitBlock {fr b edit} (h : Follows s₀ s) :
    Follows s₀ (commitBlock s fr b edit) := by
  unfold commitBlock
  extract_lets p f s1 s2 s3 s4 s5 hasNext s6 gone left
  have h3 : Follows s₀ s3 := follows_commitWrsrs (h.like rfl)
  have h4 : Follows s₀ s4 := foldl_keeps (fun _ _ ht => follows_interrupt ht) h3 _
  have h6 : Follows s₀ s6 := follows_modFrame (follows_clearBlock (follows_commitStores h4))
  have hgone : Follows s₀ gone := follows_discardAll h6
  have hleft : Follows s₀ left := by
    unfold left
    split
    · exact iteInduction (fun _ => h6) fun _ => follows_modFrame h6
    · exact follows_modFrame h6
    · exact h6
  split
  · split
    · exact follows_releaseAll (follows_applyChoice (follows_finishFrame hgone))
    · exact follows_releaseAll (follows_finishFrame hgone)
  · exact follows_raiseHeld (follows_refetchOldest (follows_releaseAll hleft))

theorem follows_editCheck {fr b} (h : Follows s₀ s) :
    OnSomeFst (Follows s₀) (editCheck s fr b) := by
  unfold editCheck
  dsimp only
  split
  · exact trivial
  · exact iteInduction (fun _ => follows_editRun h) fun _ => trivial

theorem follows_execBlockCommit {p f} (h : Follows s₀ s) :
    OnNext (Follows s₀) (execBlockCommit p f s) := by
  unfold execBlockCommit
  dsimp only
  split
  · split
    · exact h
    · split
      · exact follows_haltFrame h
      · split
        · exact follows_haltFrame h
        · split
          · exact h
          · split
            · exact follows_commitBlock h
            · exact h
            · next e => exact follows_haltFrame (Follows.of_someFst e (follows_editCheck h))
            · next e5 =>
              split
              · exact follows_openStage2 (Follows.of_someFst e5 (follows_editCheck h))
              · exact follows_haltFrame (Follows.of_someFst e5 (follows_editCheck h))
            · next e6 =>
              split
              · exact follows_haltFrame (Follows.of_someFst e6 (follows_editCheck h))
              · exact follows_commitBlock (follows_readRuns (Follows.of_someFst e6 (follows_editCheck h)))
  · exact h

theorem follows_meetLate {p f} (h : Follows s₀ s) :
    Follows s₀ (meetLate s p f) := by
  unfold meetLate
  split
  · exact follows_applyChoice (follows_modFrame h)
  · exact h

theorem follows_execFrameReload {p bay} (h : Follows s₀ s) :
    OnNext (Follows s₀) (execFrameReload p bay s) := by
  unfold execFrameReload
  dsimp only
  split
  · exact h
  · split
    · exact follows_meetLate (follows_reload h)
    · split
      · exact h
      · split
        · exact follows_meetLate (follows_reload h)
        · exact h

/-! ### Checked accesses -/

theorem follows_memGate {needOldest ordered eff} (h : Follows s₀ s) (heff : ∀ t, Follows s₀ t → Follows s₀ (eff t)) :
    Follows s₀ (memGate needOldest ordered s eff) := by
  unfold memGate
  dsimp only
  refine iteInduction (fun _ => ?_) fun _ => ?_
  · exact follows_waitStage h
  · refine iteInduction (fun _ => ?_) fun _ => ?_
    · refine follows_waitCur ?_
      exact iteInduction (fun _ => h) fun _ => follows_placeCur h
    · refine heff _ ?_
      exact iteInduction (fun _ => h) fun _ => follows_placeCur h

theorem follows_memShell {f store needOldest ordered eff} (h : Follows s₀ s) (heff : ∀ t, Follows s₀ t → Follows s₀ (eff t)) :
    OnNext (Follows s₀) (memShell f store needOldest ordered s eff) := by
  unfold memShell
  dsimp only
  split
  · exact follows_sendAll h
  · split
    · refine follows_memGate h (fun _ h => ?_)
      refine follows_sendAll ?_
      split
      · exact follows_recvStore h
      · exact h
    · split
      · exact h
      · split
        · exact follows_sendAll h
        · exact follows_memGate h heff

theorem follows_accFault {code ea n store} (h : Follows s₀ s) :
    Follows s₀ (accFault s code ea n store) :=
  follows_fault h

theorem follows_withRuns {ea n algn store go} (h : Follows s₀ s) (hgo : ∀ t x1, Follows s₀ t → Follows s₀ (go t x1)) :
    Follows s₀ (withRuns s ea n algn store go) := by
  unfold withRuns
  split
  · next e =>
    split
    · split
      · exact hgo _ _ (Follows.of_fst e (follows_checkRun h))
      · exact follows_fault (Follows.of_fst e (follows_checkRun h))
    · exact hgo _ _ (Follows.of_fst e (follows_checkRun h))
  · next e => exact follows_accFault (Follows.of_fst e (follows_checkRun h))
  · next e => exact follows_waitCur (Follows.of_fst e (follows_checkRun h))

theorem follows_withShelf {ea n store go} (h : Follows s₀ s) (hgo : ∀ t x1, Follows s₀ t → Follows s₀ (go t x1)) :
    Follows s₀ (withShelf s ea n store go) := by
  unfold withShelf
  dsimp only
  split
  · exact follows_accFault h
  · split
    · exact follows_accFault h
    · split
      · next e => exact follows_waitCur (Follows.of_error e (follows_parkedTouch h))
      · next e1 =>
        split
        · exact follows_fault (Follows.of_ok e1 (follows_parkedTouch h))
        · refine hgo _ _ ?_
          split
          · exact Follows.of_ok e1 (follows_parkedTouch h)
          · exact follows_charge (Follows.of_ok e1 (follows_parkedTouch h))

theorem follows_foundSlot {x1} (h : Follows s₀ s) :
    Follows s₀ (foundSlot s x1) := by
  unfold foundSlot
  split
  · exact follows_modCur h
  · exact h

theorem follows_handStore {f op} (h : Follows s₀ s) :
    Follows s₀ (handStore s f op) := by
  unfold handStore
  dsimp only
  split
  · split
    · exact follows_recvStore h
    · exact (follows_recvStore h).like rfl
  · split
    · exact h.like rfl
    · split
      · next e => exact follows_send (Follows.of_some e (follows_performStore h))
      · exact follows_waitCur (follows_foundSlot h)

theorem follows_markSent (h : Follows s₀ s) :
    Follows s₀ (markSent s) := by
  unfold markSent
  split
  · exact h
  · exact follows_modBlock h

theorem follows_markConsumed {pr} (h : Follows s₀ s) :
    Follows s₀ (markConsumed pr s) := by
  unfold markConsumed
  split
  · exact follows_markSent h
  · exact h

theorem follows_engGate {eff} (h : Follows s₀ s) (heff : ∀ t, Follows s₀ t → Follows s₀ (eff t)) :
    Follows s₀ (engGate s eff) := by
  unfold engGate
  split
  · exact heff _ h
  · split
    · exact heff _ (follows_modCur h)
    · exact follows_waitStage h

theorem follows_wakeInst {n i} (h : Follows s₀ s) :
    Follows s₀ (wakeInst s n i) :=
  h.like rfl

theorem follows_execAccessPlacement {n} (h : Follows s₀ s) :
    OnNext (Follows s₀) (execAccessPlacement n s) := by
  unfold execAccessPlacement
  dsimp only
  split
  · exact h
  · split
    · next i _ _ => exact (follows_placeCur (s := { s with cur := i }) (h.like rfl)).like rfl
    · exact h

theorem follows_execDeterministicApply {n} (h : Follows s₀ s) :
    OnNext (Follows s₀) (execDeterministicApply n s) := by
  unfold execDeterministicApply
  split
  · exact h
  · split
    · exact follows_wakeInst h
    · exact h

theorem follows_afterWalk {bay} (h : Follows s₀ s) :
    Follows s₀ (afterWalk s bay) :=
  follows_retryCompletions (h.like rfl)

theorem follows_walkEnd {w} (h : Follows s₀ s) :
    Follows s₀ (walkEnd s w).1 := by
  unfold walkEnd
  dsimp only
  split
  · exact follows_walkFill h
  · split
    · exact follows_walkFill h
    · exact follows_walkFill h

theorem follows_trapPage {w r} (h : Follows s₀ s) :
    Follows s₀ (trapPage s w r) := by
  unfold trapPage
  dsimp only
  split
  · next i _ => exact (follows_faultRec (s := { s with cur := i, waits := s.waits.erase i }) (h.like rfl)).like rfl
  · exact follows_haltFrame h

theorem follows_execPageWalk {n} (h : Follows s₀ s) :
    OnNext (Follows s₀) (execPageWalk n s) := by
  unfold execPageWalk
  dsimp only
  split
  · exact h
  · split
    · exact h
    · split
      · next e => exact follows_afterWalk (follows_tlbFill (Follows.of_fst e (follows_walkEnd (h.like rfl))))
      · next e3 =>
        split
        · exact follows_afterWalk (follows_trapPage (Follows.of_fst e3 (follows_walkEnd (h.like rfl))))
        · exact follows_afterWalk (follows_openPage (Follows.of_fst e3 (follows_walkEnd (h.like rfl))))

theorem follows_wakeWaitm {n i cause} (h : Follows s₀ s) :
    Follows s₀ (wakeWaitm s n i cause) :=
  h.like rfl

theorem follows_execWaitmTimeout {n} (h : Follows s₀ s) :
    OnNext (Follows s₀) (execWaitmTimeout n s) := by
  unfold execWaitmTimeout
  split
  · exact h
  · exact iteInduction (fun _ => follows_wakeWaitm h) fun _ => h

theorem follows_execSpuriousWake {n} (h : Follows s₀ s) :
    OnNext (Follows s₀) (execSpuriousWake n s) := by
  unfold execSpuriousWake
  dsimp only
  split
  · exact h
  · split
    · exact follows_wakeWaitm (follows_modFrame h)
    · exact h

end Sys2Proof.Machine
end

section
/-! What follows through dataflow, calls, launches, regions and streams. Each proof follows the branches of its function. -/
namespace Sys2Proof.Machine

variable {s₀ s : State}

/-! ### Dataflow -/

theorem follows_execSteer {f} (h : Follows s₀ s) :
    OnNext (Follows s₀) (execSteer f s) :=
  follows_shell h (fun _ ht => follows_send ht)

theorem follows_execEosq {f} (h : Follows s₀ s) :
    OnNext (Follows s₀) (execEosq f s) := by
  unfold execEosq
  split
  · exact follows_send h
  · exact follows_shellA h (fun _ ht => follows_send ht)

theorem follows_forward {f} (h : Follows s₀ s) :
    Follows s₀ (forward f s) :=
  follows_sendAll h

theorem follows_pairCur (h : Follows s₀ s) :
    Follows s₀ (pairCur s) :=
  follows_pairCtx h

theorem follows_phased {f eff} (h : Follows s₀ s) (heff : ∀ t, Follows s₀ t → Follows s₀ (eff t)) :
    Follows s₀ (phased f s eff) := by
  unfold phased
  split
  · exact follows_forward h
  · exact heff _ h

theorem follows_mergeOrdered {f} (h : Follows s₀ s) :
    Follows s₀ (mergeOrdered f s) := by
  unfold mergeOrdered
  dsimp only
  split
  · exact follows_forward h
  · exact iteInduction (fun _ => follows_pairCur (follows_forward (follows_modCtx h))) fun _ => follows_requeueCur h

theorem follows_execMergeU {f} (h : Follows s₀ s) :
    OnNext (Follows s₀) (execMergeU f s) := by
  unfold execMergeU
  split
  · exact follows_mergeOrdered h
  · exact follows_forward h

theorem follows_execMergeO {f} (h : Follows s₀ s) :
    OnNext (Follows s₀) (execMergeO f s) :=
  follows_mergeOrdered h

theorem follows_execWadv {f} (h : Follows s₀ s) :
    OnNext (Follows s₀) (execWadv f s) :=
  follows_phased h (fun _ ht => follows_forward (follows_modCur ht))

theorem follows_noteAdm (h : Follows s₀ s) :
    Follows s₀ (noteAdm s) := by
  unfold noteAdm
  split
  · exact h
  · exact follows_modRegion (follows_modCur h)

theorem follows_execKbound {f} (h : Follows s₀ s) :
    OnNext (Follows s₀) (execKbound f s) := by
  unfold execKbound
  refine follows_phased h (fun _ h => ?_)
  split
  · exact follows_forward h
  · split
    · exact follows_pairCur (follows_forward h)
    · split
      · exact follows_pairCur (follows_forward (follows_noteAdm (follows_modCtx h)))
      · exact follows_requeueCur h

theorem follows_execWreset {f} (h : Follows s₀ s) :
    OnNext (Follows s₀) (execWreset f s) := by
  unfold execWreset
  dsimp only
  refine follows_phased h fun _ ht => ?_
  split
  · split
    · exact follows_forward (follows_modCur h)
    · exact follows_pairCtx (follows_forward (follows_modCtx (follows_modCur (follows_modCur h))))
  · split
    · exact follows_forward ht
    · exact follows_illop ht

theorem follows_execRed {f} (h : Follows s₀ s) :
    OnNext (Follows s₀) (execRed f s) := by
  unfold execRed
  dsimp only
  refine follows_phased h (fun _ h => ?_)
  split
  · exact h
  · split
    · exact follows_requeueCur h
    · split
      · exact follows_pairCur (follows_sendAll (follows_sendAll (follows_modCtx h)))
      · exact follows_pairCur (follows_raiseFl (follows_modCtx h))

/-! ### Calls and spawns -/

theorem follows_execExit {f} (h : Follows s₀ s) :
    OnNext (Follows s₀) (execExit f s) := by
  unfold execExit
  dsimp only
  split
  · exact follows_sendAll h
  · split
    · exact h
    · split
      · exact follows_sendAll h
      · split
        · exact h
        · split
          · exact follows_fault h
          · refine follows_send ?_
            split
            · exact iteInduction (fun _ => follows_modBlock h) fun _ => follows_discardYounger (follows_modBlock h)
            · exact follows_modBlock h

theorem follows_execExitg {f} (h : Follows s₀ s) :
    OnNext (Follows s₀) (execExitg f s) := by
  unfold execExitg
  dsimp only
  refine follows_shell h (fun _ h => ?_)
  split
  · exact follows_waitCur h
  · exact h.like rfl

theorem follows_execExitgResume {n} (h : Follows s₀ s) :
    OnNext (Follows s₀) (execExitgResume n s) := by
  unfold execExitgResume
  dsimp only
  split
  · exact h
  · split
    · exact follows_tagRange (h.like rfl)
    · split
      · exact h
      · exact follows_entryToken (follows_modFrame (h.like rfl))

theorem follows_asMaker {f eff} (h : Follows s₀ s) (heff : ∀ t x1 x2, Follows s₀ t → Follows s₀ (eff t x1 x2)) :
    OnNext (Follows s₀) (asMaker f s eff) := by
  unfold asMaker
  refine follows_shell h (fun _ h => ?_)
  split
  · split
    · exact follows_waitCur h
    · split
      · split
        · exact heff _ _ _ h
        · exact follows_fault h
      · exact heff _ _ _ h
  · exact h

theorem follows_execCall {f} (h : Follows s₀ s) :
    OnNext (Follows s₀) (execCall f s) := by
  unfold execCall
  dsimp only
  refine follows_asMaker h (fun _ _ _ h => ?_)
  split
  · exact follows_waitCur h
  · split
    · next e3 =>
      refine follows_waitCur ?_
      refine Follows.of_wait e3 ?_
      split
      · exact h
      · exact follows_makeRoom h
    · exact follows_fault h
    · next e7 =>
      split
      · next e10 =>
        refine follows_waitCur ?_
        refine Follows.of_error e10 ?_
        refine follows_startFrame ?_
        refine Follows.of_row e7 ?_
        split
        · exact h
        · exact follows_makeRoom h
      · next e11 =>
        refine follows_entryToken ?_
        refine follows_noteAct ?_
        refine Follows.of_ok e11 ?_
        refine follows_startFrame ?_
        refine Follows.of_row e7 ?_
        split
        · exact h
        · exact follows_makeRoom h

theorem follows_retTold {f} (h : Follows s₀ s) :
    Follows s₀ (retTold f s) := by
  unfold retTold
  split
  · exact follows_sendAll h
  · split
    · exact follows_sendAll h
    · exact h

theorem follows_execRet {f} (h : Follows s₀ s) :
    OnNext (Follows s₀) (execRet f s) := by
  unfold execRet
  dsimp only
  split
  · exact follows_sendAll h
  · refine iteInduction (fun _ => ?_) fun _ => ?_
    · exact h
    · split
      · exact follows_faultAux h
      · exact follows_modBlock (follows_retTold h)

theorem follows_spawnRoom {p home} (h : Follows s₀ s) :
    OnRoom (Follows s₀) (spawnRoom s p home) := by
  unfold spawnRoom
  split
  · exact h
  · split
    · exact h
    · split
      · exact follows_roomBySpill h
      · split
        · exact follows_roomBySpill h
        · exact follows_roomBySpill h

theorem follows_execSpawn {f} (h : Follows s₀ s) :
    OnNext (Follows s₀) (execSpawn f s) := by
  unfold execSpawn
  dsimp only
  refine follows_asMaker h (fun _ _ _ h => ?_)
  split
  · exact follows_waitCur h
  · split
    · split
      · exact follows_fault h
      · exact follows_send (follows_noteAct (follows_modFrame (h.like rfl)))
    · split
      · next e => exact follows_waitCur (Follows.of_wait e (follows_spawnRoom h))
      · split
        · exact follows_fault h
        · exact follows_send (follows_noteAct (follows_modFrame (h.like rfl)))
      · next e5 =>
        have hroom := Follows.of_row e5 (follows_spawnRoom h)
        split
        · next e => exact follows_waitCur (Follows.of_error e (follows_startFrame hroom))
        · next e7 =>
          have hstart := Follows.of_ok e7 (follows_startFrame hroom)
          exact follows_send (follows_noteAct (follows_modFrame (follows_entryToken hstart)))

theorem follows_execDeferredSpawnAllocation {p bay} (h : Follows s₀ s) :
    OnNext (Follows s₀) (execDeferredSpawnAllocation p bay s) := by
  unfold execDeferredSpawnAllocation
  dsimp only
  split
  · split
    · exact h
    · split
      · next e => exact Follows.of_error e (follows_startFrame h)
      · next e => exact follows_entryToken ((Follows.of_ok e (follows_startFrame h)).like rfl)
  · exact h

theorem follows_execJoinc {f} (h : Follows s₀ s) :
    OnNext (Follows s₀) (execJoinc f s) := by
  unfold execJoinc
  refine follows_shellA h (fun _ h => ?_)
  split
  · exact h
  · split
    · exact follows_waitCur h
    · exact follows_modFrame (follows_send2 h)

/-! ### Launches (Sched) -/

theorem follows_execInboxAppend {vf link off bytes} (h : Follows s₀ s) :
    OnNext (Follows s₀) (execInboxAppend vf link off bytes s) := by
  unfold execInboxAppend
  split
  · exact h
  · split
    · exact follows_modPart h
    · exact follows_modPart h

theorem follows_appendLaunch {p r} (h : Follows s₀ s) :
    Follows s₀ (appendLaunch s p r).1 := by
  unfold appendLaunch
  dsimp only
  split
  · exact follows_modPart h
  · split
    · split
      · next e => exact Follows.of_error e (follows_cellarItem h)
      · next e => exact follows_modPart (Follows.of_ok e (follows_cellarItem h))
    · exact h

theorem follows_popInbox {p} (h : Follows s₀ s) :
    Follows s₀ (popInbox s p) :=
  h.like rfl

theorem follows_execHostLaunchIntake {p} (h : Follows s₀ s) :
    OnNext (Follows s₀) (execHostLaunchIntake p s) := by
  unfold execHostLaunchIntake
  dsimp only
  split
  · exact h
  · split
    · exact h
    · split
      · exact follows_deliverN (follows_popInbox h)
      · split
        · next e => exact follows_popInbox (Follows.of_fst e (follows_appendLaunch h))
        · next e => exact Follows.of_fst e (follows_appendLaunch h)

theorem follows_releaseTimed {p x} (h : Follows s₀ s) :
    Follows s₀ (releaseTimed s p x) := by
  unfold releaseTimed
  split
  · next e => exact Follows.of_fst e (follows_appendLaunch h)
  · next e => exact follows_modPart (Follows.of_fst e (follows_appendLaunch h))

theorem follows_execTimedLaunchRelease {p} (h : Follows s₀ s) :
    OnNext (Follows s₀) (execTimedLaunchRelease p s) := by
  unfold execTimedLaunchRelease
  split
  · exact h
  · split
    · exact h
    · exact follows_releaseTimed h

theorem follows_launchRoom {p} (h : Follows s₀ s) :
    OnRoom (Follows s₀) (launchRoom s p) := by
  unfold launchRoom
  split
  · exact h
  · exact follows_makeRoom h

theorem follows_refill {p k} (h : Follows s₀ s) :
    Follows s₀ (refill p s k) := by
  unfold refill
  dsimp only
  split
  · exact h
  · split
    · next e => exact Follows.of_error e (follows_cellarItem h)
    · next e => exact follows_modPart (Follows.of_ok e (follows_cellarItem h))

theorem follows_refillAll {p} (h : Follows s₀ s) :
    Follows s₀ (refillAll s p) :=
  foldl_keeps (P := Follows s₀) (fun _ _ ht => follows_refill ht) h _

theorem follows_startRoot {p k num bay q} (h : Follows s₀ s) :
    Either (Follows s₀) (startRoot s p k num bay q) := by
  unfold startRoot
  dsimp only
  split
  · next e => exact Follows.of_error e (follows_startFrame h)
  · next e1 =>
    split
    · split
      · exact follows_modPart (Follows.of_ok e1 (follows_startFrame h))
      · exact follows_entryToken (follows_modPart (Follows.of_ok e1 (follows_startFrame h)))
    · refine follows_entryToken ?_
      split
      · exact follows_modPart (Follows.of_ok e1 (follows_startFrame h))
      · exact follows_entryToken (follows_modPart (Follows.of_ok e1 (follows_startFrame h)))

theorem follows_admitHead {p k} (h : Follows s₀ s) :
    OnSome (Follows s₀) (admitHead s p k) := by
  unfold admitHead
  dsimp only
  split
  · split
    · exact trivial
    · split
      · next e2 =>
        split
        · next e => exact Follows.of_ok e (follows_startRoot (Follows.of_row e2 (follows_launchRoom h)))
        · next e => exact Follows.of_error e (follows_startRoot (Follows.of_row e2 (follows_launchRoom h)))
      · exact trivial
  · exact trivial

theorem follows_execLaunchAdmission {p} (h : Follows s₀ s) :
    OnNext (Follows s₀) (execLaunchAdmission p s) := by
  have h1 := follows_refillAll (p := p) h
  unfold execLaunchAdmission
  refine iteInduction (fun _ => h) fun _ => ?_
  dsimp only
  generalize refillAll s p = t at h1
  generalize List.range 4 = l
  split
  · next e => exact follows_refillAll (Follows.of_some e (OnSome.findSome? (f := admitHead t p) (fun _ => follows_admitHead h1) l))
  · exact h1

theorem follows_haltWhole {p x} (h : Follows s₀ s) :
    Follows s₀ (haltWhole s p x) :=
  follows_hfqWrite (follows_modPart h)

theorem follows_notifyFault {p} (h : Follows s₀ s) :
    Follows s₀ (notifyFault s p) :=
  follows_interrupt (follows_freshWord h)

theorem follows_execTrapFrameAllocation {p} (h : Follows s₀ s) :
    OnNext (Follows s₀) (execTrapFrameAllocation p s) := by
  unfold execTrapFrameAllocation
  dsimp only
  split
  · exact h
  · split
    · exact h
    · split
      · exact follows_haltWhole h
      · split
        · exact h
        · split
          · exact h
          · split
            · next e4 =>
              split
              · next e5 =>
                refine Follows.of_error e5 ?_
                refine follows_startFrame ?_
                split
                · exact follows_freshWord (Follows.of_row e4 (follows_launchRoom h))
                · exact Follows.of_row e4 (follows_launchRoom h)
              · next e6 =>
                refine follows_notifyFault ?_
                refine follows_modPart ?_
                refine Follows.of_ok e6 ?_
                refine follows_startFrame ?_
                split
                · exact follows_freshWord (Follows.of_row e4 (follows_launchRoom h))
                · exact Follows.of_row e4 (follows_launchRoom h)
            · next e => exact Follows.of_wait e (follows_launchRoom h)
            · exact h

/-! ### Regions -/

theorem follows_readVa {bay p k tag va n algn} (h : Follows s₀ s) :
    Follows s₀ (readVa s bay p k tag va n algn).1 := by
  unfold readVa
  dsimp only
  split
  · next e =>
    split
    · exact Follows.of_fst e (follows_checkRun h)
    · exact follows_readRuns (Follows.of_fst e (follows_checkRun h))
  · next e => exact Follows.of_fst e (follows_checkRun h)
  · next e => exact Follows.of_fst e (follows_checkRun h)

theorem follows_readImage {bay p quick tag tree addr} (h : Follows s₀ s) :
    Follows s₀ (readImage s bay p quick tag tree addr).1 := by
  unfold readImage
  dsimp only
  split
  · next e => exact Follows.of_fst e (follows_readVa h)
  · next e1 =>
    split
    · exact Follows.of_fst e1 (follows_readVa h)
    · split
      · next e => exact Follows.of_fst e (follows_readVa (Follows.of_fst e1 (follows_readVa h)))
      · next e3 =>
        split
        · exact Follows.of_fst e3 (follows_readVa (Follows.of_fst e1 (follows_readVa h)))
        · split
          · next e4 =>
            refine Follows.of_fst e4 ?_
            split
            · exact Follows.of_fst e3 (follows_readVa (Follows.of_fst e1 (follows_readVa h)))
            · exact follows_readVa (Follows.of_fst e3 (follows_readVa (Follows.of_fst e1 (follows_readVa h))))
          · next e5 =>
            split
            · refine Follows.of_fst e5 ?_
              split
              · exact Follows.of_fst e3 (follows_readVa (Follows.of_fst e1 (follows_readVa h)))
              · exact follows_readVa (Follows.of_fst e3 (follows_readVa (Follows.of_fst e1 (follows_readVa h))))
            · refine Follows.of_fst e5 ?_
              split
              · exact Follows.of_fst e3 (follows_readVa (Follows.of_fst e1 (follows_readVa h)))
              · exact follows_readVa (Follows.of_fst e3 (follows_readVa (Follows.of_fst e1 (follows_readVa h))))

theorem follows_installRegion {p m f exits rank} (h : Follows s₀ s) :
    Follows s₀ (installRegion s p m f exits rank) :=
  h.like rfl

theorem follows_readFail {x1} (h : Follows s₀ s) :
    Follows s₀ (readFail s x1) := by
  unfold readFail
  split
  · exact follows_waitCur h
  · exact follows_fault h

theorem follows_cfgreqRead {f} (h : Follows s₀ s) :
    Follows s₀ (cfgreqRead f s).1 := by
  unfold cfgreqRead
  dsimp only
  split
  · next e => exact Follows.of_fst e (follows_readImage h)
  · next e1 =>
    split
    · exact Follows.of_fst e1 (follows_readImage h)
    · split
      · exact Follows.of_fst e1 (follows_readImage h)
      · split
        · next e => exact Follows.of_fst e (follows_readVa (Follows.of_fst e1 (follows_readImage h)))
        · next e5 =>
          split
          · exact Follows.of_fst e5 (follows_readVa (Follows.of_fst e1 (follows_readImage h)))
          · exact Follows.of_fst e5 (follows_readVa (Follows.of_fst e1 (follows_readImage h)))

theorem follows_execCfgreq {f} (h : Follows s₀ s) :
    OnNext (Follows s₀) (execCfgreq f s) := by
  unfold execCfgreq
  refine follows_shell h (fun _ h => ?_)
  split
  · exact follows_waitCur h
  · split
    · next e => exact follows_readFail (Follows.of_fst e (follows_cfgreqRead h))
    · next e2 =>
      refine follows_waitStage ?_
      split
      · exact Follows.of_fst e2 (follows_cfgreqRead h)
      · exact follows_noteAct (Follows.of_fst e2 (follows_cfgreqRead h))

theorem follows_atticTouch {p n store fresh} (h : Follows s₀ s) :
    Either (Follows s₀) (atticTouch s p n store fresh) :=
  follows_devTouch h

theorem follows_sendBack {ts v} (h : Follows s₀ s) :
    Follows s₀ (sendBack s ts v) := by
  unfold sendBack
  split
  · exact h
  · exact follows_sendAll h

theorem follows_execRegionPlacement {n} (h : Follows s₀ s) :
    OnNext (Follows s₀) (execRegionPlacement n s) := by
  unfold execRegionPlacement
  split
  · exact h
  · next i _ =>
    have h0 : Follows s₀ { s with cur := i } := h.like rfl
    have hread := follows_cfgreqRead (f := xWord i) h0
    split
    · exact h
    · split
      · next e => exact (Follows.of_fst e hread).like rfl
      · next t c g4 g5 e =>
        have ht : Follows s₀ { t with waits := dropAt n t.waits } := (Follows.of_fst e hread).like rfl
        exact (follows_fault (code := c) (g4 := g4) (g5 := g5) ht).like rfl
      · next t m e =>
        have ht := Follows.of_fst e hread
        split
        · exact h
        · next ft _ =>
          have hattic : Either (Follows s₀) (if m.1.ck then atticTouch t i.part (1152 * m.1.w * m.1.h * m.1.c) true true else .ok t) :=
            iteInduction (fun _ => follows_atticTouch ht) fun _ => ht
          split
          · next e => exact (Follows.of_error e hattic).like rfl
          · next u e =>
            have hu : Follows s₀ { u with waits := dropAt n u.waits } := (Follows.of_ok e hattic).like rfl
            have hv := follows_installRegion (p := i.part) (m := m.1) (f := ft) (exits := m.2) (rank := engineKey u i) hu
            exact Follows.like (follows_sendBack hv) rfl

theorem follows_outHeld {x0} (h : Follows s₀ s) :
    Follows s₀ (outHeld x0 s).1 := by
  induction x0 generalizing s with
  | nil =>
    exact h
  | cons h hs ih =>
    unfold outHeld
    dsimp only
    split
    · exact h
    · next e => exact ih (Follows.of_some e (follows_performStore (h.like rfl)))

theorem follows_sendReplies {l} (h : Follows s₀ s) :
    Follows s₀ (sendReplies s l) := by
  have h1 : Follows s₀ (l.foldl (fun s x => send { s with cur := x.1 } (getM x.1.word).t0 x.2) s) := by
    refine foldl_keeps (fun t x ht => ?_) h l
    exact follows_send (s := { t with cur := x.1 }) (ht.like rfl)
  exact h1.like rfl

theorem follows_takeCkpt {r own} (h : Follows s₀ s) :
    Either (Follows s₀) (takeCkpt s r own) := by
  unfold takeCkpt
  dsimp only
  split
  · next e => exact Follows.of_error e (follows_atticTouch h)
  · next e1 =>
    split
    · exact follows_releaseAll (follows_sendReplies (follows_outHeld (Follows.of_ok e1 (follows_atticTouch h))))
    · exact follows_releaseAll (follows_sendReplies (follows_modRegion ((follows_outHeld (Follows.of_ok e1 (follows_atticTouch h))).like rfl)))

theorem follows_askDrain {f release} (h : Follows s₀ s) :
    OnNext (Follows s₀) (askDrain f release s) := by
  unfold askDrain
  dsimp only
  refine follows_shellA h (fun _ h => ?_)
  split
  · exact follows_waitCur h
  · split
    · exact follows_fault h
    · split
      · exact follows_illop h
      · split
        · exact follows_waitCur (follows_freezeRegion h)
        · split
          · exact follows_waitCur h
          · refine follows_waitStage ?_
            refine follows_modRegion ?_
            split
            · exact h
            · exact follows_noteAct h

theorem follows_execCfgrel {f} (h : Follows s₀ s) :
    OnNext (Follows s₀) (execCfgrel f s) :=
  follows_askDrain h

theorem follows_execDrain {f} (h : Follows s₀ s) :
    OnNext (Follows s₀) (execDrain f s) :=
  follows_askDrain h

theorem follows_execRegionDrainComplete {bay g} (h : Follows s₀ s) :
    OnNext (Follows s₀) (execRegionDrainComplete bay g s) := by
  unfold execRegionDrainComplete
  split
  · next i _ _ =>
    split
    · exact h
    · split
      · split
        · next e => exact Follows.of_ok e (follows_takeCkpt h)
        · next e => exact Follows.of_error e (follows_takeCkpt h)
      · extract_lets res v old s0 s1 reopened s2
        have h1 : Follows s₀ s1 := h.like rfl
        have h2 : Follows s₀ s2 := by
          unfold s2
          split
          · exact follows_freeRegion h1
          · exact Follows.like (s := s1) h1 rfl
        have h3 := follows_sendBack (ts := [(getA i.word).t0, (getA i.word).t1]) (v := v) h2
        exact h3.like rfl
  · exact h

theorem follows_execCfgtok {f} (h : Follows s₀ s) :
    OnNext (Follows s₀) (execCfgtok f s) := by
  unfold execCfgtok
  dsimp only
  refine follows_shell h (fun _ h => ?_)
  split
  · exact h
  · split
    · exact h
    · exact follows_sendRoute h

theorem follows_execGcall {f} (h : Follows s₀ s) :
    OnNext (Follows s₀) (execGcall f s) := by
  unfold execGcall
  dsimp only
  refine follows_shell h (fun _ h => ?_)
  split
  · exact h
  · split
    · exact follows_waitCur h
    · split
      · next e => exact follows_readFail (Follows.of_fst e (follows_readImage h))
      · next e4 =>
        split
        · exact follows_fault (Follows.of_fst e4 (follows_readImage h))
        · exact follows_modRegion (Follows.of_fst e4 (follows_readImage h))

theorem follows_stowSpilled {r} (h : Follows s₀ s) :
    Follows s₀ (stowSpilled s r) :=
  h.like rfl

theorem follows_loadPlane {r pl} (h : Follows s₀ s) :
    Follows s₀ (loadPlane s r pl) :=
  follows_stowSpilled (follows_modRegion (h.like rfl))

theorem follows_pushPlane {r i m ebase} (h : Follows s₀ s) :
    Follows s₀ (pushPlane s r i m ebase) :=
  follows_launchTok (follows_modRegion (follows_loadPlane h))

theorem follows_gcallFault {bay g i code g4 g5} (h : Follows s₀ s) :
    Follows s₀ (gcallFault s bay g i code g4 g5) := by
  have h1 : Follows s₀ { modRegion s bay g (fun r => { r with phase := .run }) with cur := i } := h.like rfl
  exact (follows_fault (code := code) (g4 := g4) (g5 := g5) h1).like rfl

theorem follows_execGcallSettled {bay g} (h : Follows s₀ s) :
    OnNext (Follows s₀) (execGcallSettled bay g s) := by
  unfold execGcallSettled
  split
  · exact h
  · split
    · split
      · exact h
      · split
        · next e => exact Follows.of_fst e (follows_readImage h)
        · next e => exact follows_gcallFault (Follows.of_fst e (follows_readImage h))
        · next e5 =>
          split
          · exact follows_gcallFault (Follows.of_fst e5 (follows_readImage h))
          · split
            · exact h
            · split
              · next e10 =>
                refine Follows.of_error e10 ?_
                split
                · exact follows_atticTouch (Follows.of_fst e5 (follows_readImage h))
                · exact Follows.of_fst e5 (follows_readImage h)
              · next e11 =>
                refine follows_pushPlane ?_
                refine Follows.of_ok e11 ?_
                split
                · exact follows_atticTouch (Follows.of_fst e5 (follows_readImage h))
                · exact Follows.of_fst e5 (follows_readImage h)
    · exact h

theorem follows_execGret {f} (h : Follows s₀ s) :
    OnNext (Follows s₀) (execGret f s) := by
  unfold execGret
  refine follows_shellA h (fun _ h => ?_)
  split
  · exact h
  · split
    · exact follows_modRegion h
    · split
      · exact follows_illop h
      · exact follows_modRegion (follows_send h)
    · exact follows_waitCur h

theorem follows_popPlane {r pl rest} (h : Follows s₀ s) :
    Follows s₀ (popPlane s r pl rest) :=
  follows_modRegion (follows_loadPlane (h.like rfl))

theorem follows_execGretThaw {bay g} (h : Follows s₀ s) :
    OnNext (Follows s₀) (execGretThaw bay g s) := by
  unfold execGretThaw
  split
  · exact h
  · split
    · split
      · exact h
      · split
        · next e4 =>
          refine Follows.of_error e4 ?_
          split
          · exact follows_atticTouch h
          · exact h
        · next e5 =>
          refine follows_pairRegion ?_
          refine follows_popPlane ?_
          refine Follows.of_ok e5 ?_
          split
          · exact follows_atticTouch h
          · exact h
    · exact h

theorem follows_execCkpt {f} (h : Follows s₀ s) :
    OnNext (Follows s₀) (execCkpt f s) := by
  unfold execCkpt
  dsimp only
  refine follows_shell h (fun _ h => ?_)
  split
  · exact h
  · split
    · exact follows_waitStage (follows_modRegion h)
    · split
      · exact follows_waitCur h
      · split
        · next e => exact follows_waitCur (Follows.of_error e (follows_takeCkpt h))
        · next e => exact follows_pairRegion (follows_send (follows_modRegion (Follows.of_ok e (follows_takeCkpt h))))
    · exact follows_waitCur h

theorem follows_cfgEcc {r} (h : Follows s₀ s) :
    Follows s₀ (cfgEcc s r) :=
  follows_freezeRegion h

theorem follows_execConfigEccRecovery {bay g} (h : Follows s₀ s) :
    OnNext (Follows s₀) (execConfigEccRecovery bay g s) := by
  unfold execConfigEccRecovery
  split
  · exact h
  · next r _ =>
    split
    · exact h
    · split
      · exact follows_modRegion h
      · split
        · exact h
        · have h1 : Follows s₀ (if r.phase == .eccGate then modRegion s bay g fun r => { r with phase := .run } else s) :=
            iteInduction (fun _ => follows_modRegion h) fun _ => h
          exact iteInduction (fun _ => follows_pairRegion (h1.like rfl)) fun _ => follows_cfgEcc h1

theorem follows_execCheckpointRecovery {bay g} (h : Follows s₀ s) :
    OnNext (Follows s₀) (execCheckpointRecovery bay g s) := by
  unfold execCheckpointRecovery
  dsimp only
  split
  · exact h
  · split
    · exact h
    · split
      · exact h
      · split
        · exact follows_cfgEcc h
        · split
          · exact h
          · split
            · next e => exact Follows.of_error e (follows_atticTouch h)
            · next e5 =>
              have hattic := Follows.of_ok e5 (follows_atticTouch h)
              exact follows_pairRegion (follows_sendReplies (follows_loadPlane (follows_modRegion (hattic.like rfl))))

/-! ### Streams -/

theorem follows_streamBind {f} (h : Follows s₀ s) :
    Follows s₀ (streamBind f s) := by
  unfold streamBind
  dsimp only
  split
  · exact follows_illop h
  · split
    · exact follows_waitCur h
    · refine iteInduction (fun _ => ?_) fun _ => ?_
      · exact follows_fault h
      · exact iteInduction (fun _ => follows_fault h) fun _ => h.like rfl

theorem follows_kvInstall {k bs} (h : Follows s₀ s) :
    Follows s₀ (kvInstall s k bs) :=
  follows_modRegion (h.like rfl)

theorem follows_kvBind {f} (h : Follows s₀ s) :
    Follows s₀ (kvBind f s) := by
  unfold kvBind
  dsimp only
  split
  · exact follows_illop h
  · refine follows_withRuns h (fun _ _ h => ?_)
    split
    · exact follows_illop (follows_loadRuns h)
    · exact follows_sendKind (follows_send (follows_kvInstall (follows_loadRuns h)))

theorem follows_execStream {f} (h : Follows s₀ s) :
    OnNext (Follows s₀) (execStream f s) := by
  unfold execStream
  refine follows_memShell h (fun _ h => ?_)
  split
  · exact follows_kvBind h
  · exact follows_streamBind h

theorem follows_execStreamKvBind {f} (h : Follows s₀ s) :
    OnNext (Follows s₀) (execStreamKvBind f s) :=
  follows_memShell h (fun _ ht => follows_kvBind ht)

theorem follows_streamSend {x k v} (h : Follows s₀ s) :
    Follows s₀ (streamSend s x k v) := by
  unfold streamSend
  extract_lets t f rk tok u
  have ht : Follows s₀ t := h.like rfl
  have hu : Follows s₀ u := by
    refine iteInduction (fun _ => ht) fun _ => ?_
    split
    · exact follows_sendRoute ht
    · exact ht
  exact hu.like rfl

theorem follows_streamFault {x code g4 g5} (h : Follows s₀ s) :
    Follows s₀ (streamFault s x code g4 g5) :=
  follows_freezeRegion h

theorem follows_patchRuns {x up step last x4 x6 x7} (h : Follows s₀ s) :
    Follows s₀ (patchRuns x up step last x4 s x6 x7).1 := by
  induction x4 generalizing s x6 x7 with
  | zero =>
    exact h
  | succ n ih =>
    unfold patchRuns
    dsimp only
    split
    · next e => exact Follows.of_fst e (follows_pageEntry h)
    · next e1 =>
      split
      · exact Follows.of_fst e1 (follows_pageEntry h)
      · refine iteInduction (motive := fun x : State × List TlbEntry => Follows s₀ x.1) (fun _ => ?_) fun _ => ?_
        · exact Follows.of_fst e1 (follows_pageEntry h)
        · exact ih (Follows.of_fst e1 (follows_pageEntry h))

theorem follows_patchWindow {x e} (h : Follows s₀ s) :
    Follows s₀ (patchWindow s x e) :=
  (follows_patchRuns h).like rfl

theorem follows_elemValue {x e rs} (h : Follows s₀ s) :
    Follows s₀ (elemValue s x e rs).1 := by
  unfold elemValue
  dsimp only
  split
  · exact h
  · exact follows_readRuns h

theorem follows_elemRead {x e} (h : Follows s₀ s) :
    Follows s₀ (elemRead s x e).1 := by
  unfold elemRead
  dsimp only
  split
  · exact follows_elemValue h
  · split
    · next e => exact Follows.of_fst e (follows_checkRun h)
    · next e => exact follows_elemValue (follows_patchWindow (Follows.of_fst e (follows_checkRun h)))
    · next e => exact Follows.of_fst e (follows_checkRun h)

theorem follows_handOn {x v} (h : Follows s₀ s) :
    Follows s₀ (handOn s x v) :=
  follows_streamSend (h.like rfl)

theorem follows_execStreamElementIssue {bay slot} (h : Follows s₀ s) :
    OnNext (Follows s₀) (execStreamElementIssue bay slot s) := by
  unfold execStreamElementIssue
  split
  · exact h
  · split
    · exact h
    · split
      · exact follows_streamSend (h.like rfl)
      · split
        · exact follows_handOn h
        · split
          · exact h
          · split
            · exact h
            · split
              · next e => exact follows_streamFault (Follows.of_fst e (follows_elemRead h))
              · next e => exact Follows.of_fst e (follows_elemRead h)
              · next e8 =>
                split
                · exact follows_handOn (Follows.of_fst e8 (follows_elemRead h))
                · exact (Follows.of_fst e8 (follows_elemRead h)).like rfl

end Sys2Proof.Machine
end

section
/-! What follows through engines: messages, soft registers, and every command. Each proof follows the branches of its function. -/
namespace Sys2Proof.Machine

variable {s₀ s : State}

/-! ### Messages to engines -/

theorem follows_pushCmd {p bay hdr l x} (h : Follows s₀ s) :
    Follows s₀ (pushCmd s p bay hdr l x) := by
  unfold pushCmd
  dsimp only
  split
  · exact follows_modPart (h.like rfl)
  · exact h.like rfl

theorem follows_readDesc {rs} (h : Follows s₀ s) :
    Follows s₀ (readDesc s rs).2 := by
  unfold readDesc
  split
  · exact follows_loadRuns h
  · exact follows_readRuns h

theorem follows_withBeats {x1 n go} (h : Follows s₀ s) (hgo : ∀ t x1, Follows s₀ t → Follows s₀ (go t x1)) :
    Follows s₀ (withBeats s x1 n go) := by
  unfold withBeats
  dsimp only
  split
  · exact hgo _ _ h
  · split
    · exact follows_waitCur h
    · exact follows_withRuns h (fun _ _ ht => hgo _ _ (follows_readDesc ht))

theorem follows_offer {hdr l} (h : Follows s₀ s) :
    Follows s₀ (offer s hdr l) := by
  unfold offer
  dsimp only
  split
  · exact follows_waitCur h
  · split
    · exact follows_fault h
    · split
      · exact follows_noteAct (follows_markSent (follows_pushCmd h))
      · exact follows_waitCur h

theorem follows_engShell {f eff} (h : Follows s₀ s) (heff : ∀ t, Follows s₀ t → Follows s₀ (eff t)) :
    OnNext (Follows s₀) (engShell f s eff) := by
  unfold engShell
  refine follows_shell (follows_markConsumed h) (fun _ h => ?_)
  exact follows_whenSettled h (fun _ ht => follows_engGate ht heff)

theorem follows_engSend {eop f} (h : Follows s₀ s) :
    OnNext (Follows s₀) (engSend eop f s) := by
  unfold engSend
  dsimp only
  refine follows_engShell h (fun _ h => ?_)
  exact follows_withBeats h (fun _ _ ht => follows_offer ht)

theorem follows_execMm {f} (h : Follows s₀ s) :
    OnNext (Follows s₀) (execMm f s) :=
  follows_engSend h

theorem follows_execAcczero {f} (h : Follows s₀ s) :
    OnNext (Follows s₀) (execAcczero f s) :=
  follows_engSend h

theorem follows_execAccld {f} (h : Follows s₀ s) :
    OnNext (Follows s₀) (execAccld f s) :=
  follows_engSend h

theorem follows_execAccst {f} (h : Follows s₀ s) :
    OnNext (Follows s₀) (execAccst f s) :=
  follows_engSend h

theorem follows_execCopy {f} (h : Follows s₀ s) :
    OnNext (Follows s₀) (execCopy f s) :=
  follows_engSend h

theorem follows_execGath {f} (h : Follows s₀ s) :
    OnNext (Follows s₀) (execGath f s) :=
  follows_engSend h

theorem follows_execGathw {f} (h : Follows s₀ s) :
    OnNext (Follows s₀) (execGathw f s) :=
  follows_engSend h

theorem follows_execScat {f} (h : Follows s₀ s) :
    OnNext (Follows s₀) (execScat f s) :=
  follows_engSend h

theorem follows_execScatadd {f} (h : Follows s₀ s) :
    OnNext (Follows s₀) (execScatadd f s) :=
  follows_engSend h

theorem follows_execTblswap {f} (h : Follows s₀ s) :
    OnNext (Follows s₀) (execTblswap f s) :=
  follows_engSend h

theorem follows_execCbload {f} (h : Follows s₀ s) :
    OnNext (Follows s₀) (execCbload f s) :=
  follows_engSend h

theorem follows_execColl {f} (h : Follows s₀ s) :
    OnNext (Follows s₀) (execColl f s) :=
  follows_engSend h

theorem follows_execOsend {f} (h : Follows s₀ s) :
    OnNext (Follows s₀) (execOsend f s) :=
  follows_engSend h

theorem follows_execOrecv {f} (h : Follows s₀ s) :
    OnNext (Follows s₀) (execOrecv f s) :=
  follows_engSend h

theorem follows_execXsend {f} (h : Follows s₀ s) :
    OnNext (Follows s₀) (execXsend f s) :=
  follows_engSend h

theorem follows_execXget {f} (h : Follows s₀ s) :
    OnNext (Follows s₀) (execXget f s) :=
  follows_engSend h

theorem follows_execEnghnd {f} (h : Follows s₀ s) :
    OnNext (Follows s₀) (execEnghnd f s) :=
  follows_engSend h

theorem follows_execEng {f} (h : Follows s₀ s) :
    OnNext (Follows s₀) (execEng f s) := by
  unfold execEng
  dsimp only
  refine follows_engShell h (fun _ h => ?_)
  refine follows_withBeats h (fun _ _ h1 => ?_)
  split
  · exact follows_fault h1
  · exact follows_withBeats h1 (fun _ _ ht => follows_offer ht)

theorem follows_qwaitOn {f k} (h : Follows s₀ s) :
    Follows s₀ (qwaitOn f s k) := by
  unfold qwaitOn
  split
  · exact follows_waitStage h
  · exact follows_send h

theorem follows_execQwait {f} (h : Follows s₀ s) :
    OnNext (Follows s₀) (execQwait f s) := by
  unfold execQwait
  split
  · split
    · exact follows_qwaitOn h
    · exact follows_engShell h (fun _ ht => follows_qwaitOn (follows_markSent ht))
  · exact follows_engShell h (fun _ ht => follows_qwaitOn (follows_markSent ht))

theorem follows_execHostEngineMessageIntake {p} (h : Follows s₀ s) :
    OnNext (Follows s₀) (execHostEngineMessageIntake p s) := by
  unfold execHostEngineMessageIntake
  dsimp only
  split
  · exact h
  · split
    · exact h
    · split
      · exact follows_deliverN (follows_popInbox h)
      · split
        · exact follows_pushCmd (follows_popInbox h)
        · exact h

/-! ### Moves -/

theorem follows_writeSoft {t v} (h : Follows s₀ s) :
    Follows s₀ (writeSoft s t v) := by
  unfold writeSoft
  split
  · exact h
  · exact follows_recvSoft h

theorem follows_execNop (h : Follows s₀ s) :
    OnNext (Follows s₀) (execNop s) :=
  h

theorem follows_execRead {f} (h : Follows s₀ s) :
    OnNext (Follows s₀) (execRead f s) := by
  unfold execRead
  split
  · split
    · exact follows_waitCur h
    · exact follows_send2 h
  · split
    · exact follows_waitCur h
    · exact follows_writeSoft (follows_writeSoft h)

/-! ### Soft registers -/

theorem follows_sendSoft {f v plain} (h : Follows s₀ s) :
    Follows s₀ (sendSoft f s v plain) := by
  unfold sendSoft
  refine foldl_keeps (P := Follows s₀) (fun _ _ h => ?_) h _
  split
  · exact follows_writeSoft h
  · exact follows_send h

theorem follows_yieldSoft {f v} (h : Follows s₀ s) :
    Follows s₀ (yieldSoft f s v) :=
  follows_sendSoft h

theorem follows_withSrc {f go} (h : Follows s₀ s) (hgo : ∀ t x1, Follows s₀ t → Follows s₀ (go t x1)) :
    Follows s₀ (withSrc f s go) := by
  unfold withSrc
  split
  · exact follows_waitCur h
  · exact hgo _ _ h

theorem follows_whenCommitted {eff} (h : Follows s₀ s) (heff : ∀ t, Follows s₀ t → Follows s₀ (eff t)) :
    Follows s₀ (whenCommitted s eff) := by
  unfold whenCommitted
  split
  · exact follows_waitCur h
  · exact heff _ h

theorem follows_softShelf {x1 n store go} (h : Follows s₀ s) (hgo : ∀ t, Follows s₀ t → Follows s₀ (go t)) :
    Follows s₀ (softShelf s x1 n store go) := by
  unfold softShelf
  split
  · exact follows_accFault h
  · split
    · exact follows_accFault h
    · exact hgo _ h

theorem follows_withShelfBytes {x1 n go} (h : Follows s₀ s) (hgo : ∀ t x1, Follows s₀ t → Follows s₀ (go t x1)) :
    Follows s₀ (withShelfBytes s x1 n go) := by
  unfold withShelfBytes
  refine follows_softShelf h (fun _ h => ?_)
  split
  · next e => exact follows_waitCur (Follows.of_error e (follows_parkedTouch h))
  · next e2 =>
    split
    · exact follows_fault (Follows.of_ok e2 (follows_parkedTouch h))
    · exact hgo _ _ (follows_charge (Follows.of_ok e2 (follows_parkedTouch h)))

theorem follows_execSklat {f} (h : Follows s₀ s) :
    OnNext (Follows s₀) (execSklat f s) := by
  unfold execSklat
  dsimp only
  refine follows_shellA h (fun _ h => ?_)
  refine follows_whenCommitted h (fun _ h1 => ?_)
  split
  · exact follows_accFault h1
  · exact follows_withShelfBytes h1 (fun _ _ ht => follows_yieldSoft ht)

theorem follows_withScores {f go} (h : Follows s₀ s) (hgo : ∀ t x1, Follows s₀ t → Follows s₀ (go t x1)) :
    Follows s₀ (withScores f s go) := by
  unfold withScores
  dsimp only
  split
  · exact follows_accFault h
  · exact follows_withShelfBytes h (fun _ _ ht => hgo _ _ ht)

theorem follows_execSkmix {f} (h : Follows s₀ s) :
    OnNext (Follows s₀) (execSkmix f s) := by
  unfold execSkmix
  refine follows_shellA h (fun _ h => ?_)
  refine follows_whenCommitted h (fun _ h1 => ?_)
  exact follows_withScores h1 (fun _ _ ht => follows_yieldSoft ht)

theorem follows_skembPush {hdr l} (h : Follows s₀ s) :
    Follows s₀ (skembPush s hdr l) := by
  unfold skembPush
  split
  · exact follows_noteAct (follows_markSent (follows_pushCmd h))
  · exact follows_waitCur h

theorem follows_skembGather {f v g} (h : Follows s₀ s) :
    Follows s₀ (skembGather f s v g) := by
  unfold skembGather
  exact follows_softShelf h fun _ ht => follows_skembPush ht

theorem follows_skembCopy {f v} (h : Follows s₀ s) :
    Follows s₀ (skembCopy f s v) := by
  unfold skembCopy
  dsimp only
  refine follows_softShelf h (fun _ h => ?_)
  refine follows_withShelfBytes h (fun _ _ h1 => ?_)
  split
  · exact follows_fault h1
  · split
    · exact follows_fault h1
    · exact follows_skembPush h1

theorem follows_execSkemb {f} (h : Follows s₀ s) :
    OnNext (Follows s₀) (execSkemb f s) := by
  unfold execSkemb
  refine follows_shellA (follows_markConsumed h) (fun _ h => ?_)
  refine follows_whenSettled h (fun _ h1 => ?_)
  refine follows_engGate h1 (fun _ h2 => ?_)
  refine follows_withSrc h2 (fun _ _ h3 => ?_)
  split
  · exact follows_illop h3
  · split
    · exact follows_skembGather h3
    · split
      · exact follows_skembGather h3
      · exact follows_skembCopy h3

theorem follows_execSkhash {f} (h : Follows s₀ s) :
    OnNext (Follows s₀) (execSkhash f s) := by
  unfold execSkhash
  dsimp only
  refine follows_shellA h (fun _ h => ?_)
  refine follows_whenCommitted h (fun _ h1 => ?_)
  refine follows_withSrc h1 (fun _ _ h2 => ?_)
  split
  · exact follows_illop h2
  · split
    · exact follows_waitCur h2
    · exact follows_withRuns h2 (fun _ _ ht => follows_send2 (follows_readRuns ht))

theorem follows_withStores {x1 x2 x3} (h : Follows s₀ s) (hx3 : ∀ t x1, Follows s₀ t → Follows s₀ (x3 t x1)) :
    Follows s₀ (withStores s x1 x2 x3) := by
  induction x1 generalizing s x2 with
  | nil =>
    exact hx3 _ _ h
  | cons x l ih =>
    exact follows_withRuns h (fun _ _ ht => ih ht)

theorem follows_putRuns {rs bs} (h : Follows s₀ s) :
    Follows s₀ (putRuns s rs bs) :=
  follows_writeRuns h

theorem follows_putPieces {x1 x2} (h : Follows s₀ s) :
    Follows s₀ (putPieces s x1 x2) := by
  induction x1 generalizing s x2 with
  | nil =>
    exact h
  | cons rs l ih =>
    exact ih (follows_putRuns h)

theorem follows_withVector {v taken go} (h : Follows s₀ s) (hgo : ∀ t x1, Follows s₀ t → Follows s₀ (go t x1)) :
    Follows s₀ (withVector s v taken go) := by
  unfold withVector
  dsimp only
  split
  · exact follows_withShelfBytes h (fun _ _ ht => hgo _ _ ht)
  · exact hgo _ _ h

theorem follows_skposStep {f v d vec n rs} (h : Follows s₀ s) :
    Follows s₀ (skposStep f s v d vec n rs) := by
  unfold skposStep
  dsimp only
  refine follows_send2 ?_
  refine follows_noteAct ?_
  refine follows_markSent ?_
  refine follows_putRuns ?_
  split
  · exact follows_putRuns h
  · exact follows_putPieces (follows_putRuns h)

theorem follows_unpoisoned {rs go} (h : Follows s₀ s) (hgo : ∀ t, Follows s₀ t → Follows s₀ (go t)) :
    Follows s₀ (unpoisoned s rs go) := by
  unfold unpoisoned
  split
  · exact follows_fault h
  · exact hgo _ h

theorem follows_execSkpos {f} (h : Follows s₀ s) :
    OnNext (Follows s₀) (execSkpos f s) := by
  unfold execSkpos
  dsimp only
  refine follows_shellA (follows_markConsumed h) (fun _ h => ?_)
  refine follows_whenSettled h (fun _ h1 => ?_)
  refine follows_engGate h1 (fun _ h2 => ?_)
  refine follows_withSrc h2 (fun _ _ h3 => ?_)
  split
  · exact follows_illop h3
  · split
    · exact follows_waitCur h3
    · refine follows_withRuns h3 (fun _ _ h4 => ?_)
      refine follows_unpoisoned h4 (fun _ h5 => ?_)
      split
      · exact follows_illop (follows_readRuns h5)
      · split
        · exact follows_accFault (follows_readRuns h5)
        · refine iteInduction (fun _ => ?_) fun _ => ?_
          · exact follows_waitCur (follows_readRuns h5)
          · refine follows_withStores (follows_readRuns h5) (fun _ _ h6 => ?_)
            exact follows_withVector h6 (fun _ _ ht => follows_skposStep ht)

theorem follows_choose {f t} (h : Follows s₀ s) :
    Follows s₀ (choose f s t) :=
  follows_sendSoft h

theorem follows_execCollapseMax {f} (h : Follows s₀ s) :
    OnNext (Follows s₀) (execCollapseMax f s) := by
  unfold execCollapseMax
  refine follows_shellA h (fun _ h => ?_)
  refine follows_whenCommitted h (fun _ h1 => ?_)
  exact follows_withScores h1 (fun _ _ ht => follows_choose ht)

/-! ### Matrix and copy commands (Engines) -/

theorem follows_modCmd {id f} (h : Follows s₀ s) :
    Follows s₀ (modCmd s id f) :=
  h.like rfl

theorem follows_setSync {bay k n} (h : Follows s₀ s) :
    Follows s₀ (setSync s bay k n) :=
  h.like rfl

theorem follows_failEngine {c} (h : Follows s₀ s) :
    Follows s₀ (failEngine s c) :=
  follows_failCmd h

theorem follows_issueCmd {c} (h : Follows s₀ s) :
    OnSome (Follows s₀) (issueCmd s c) := by
  unfold issueCmd
  dsimp only
  split
  · exact trivial
  · split
    · exact follows_failEngine (follows_modCmd (foldl_keeps (P := Follows s₀) (fun _ _ ht => follows_setSync ht) h _))
    · split
      · exact follows_modCmd (follows_modCmd (foldl_keeps (P := Follows s₀) (fun _ _ ht => follows_setSync ht) h _))
      · split
        · exact follows_failCmd (follows_modCmd (follows_modCmd (foldl_keeps (P := Follows s₀) (fun _ _ ht => follows_setSync ht) h _)))
        · exact follows_modCmd (follows_modCmd (foldl_keeps (P := Follows s₀) (fun _ _ ht => follows_setSync ht) h _))

theorem follows_withCmd {r eops ready bind go} (h : Follows s₀ s) (hbind : ∀ t c, Follows s₀ t → Follows s₀ (bind t c))
    (hgo : ∀ t c, Follows s₀ t → Follows s₀ (go t c)) :
    OnNext (Follows s₀) (withCmd s r eops ready bind go) := by
  unfold withCmd
  dsimp only
  split
  · exact h
  · split
    · exact h
    · split
      · exact hgo _ _ h
      · split
        · exact h
        · split
          · exact h
          · next e3 =>
            split
            · split
              · exact Follows.of_some e3 (follows_issueCmd h)
              · split
                · split
                  · exact hbind _ _ (Follows.of_some e3 (follows_issueCmd h))
                  · exact hgo _ _ (hbind _ _ (Follows.of_some e3 (follows_issueCmd h)))
                · exact hbind _ _ (Follows.of_some e3 (follows_issueCmd h))
            · exact Follows.of_some e3 (follows_issueCmd h)

theorem follows_noBind {x} (h : Follows s₀ s) :
    Follows s₀ (noBind s x) :=
  h

theorem follows_writeElem {c b t r k pp v} (h : Follows s₀ s) :
    Follows s₀ (writeElem s c b t r k pp v).1 := by
  unfold writeElem
  dsimp only
  split
  · split
    · exact h
    · exact follows_withParked h (fun _ ht => follows_shelfElem ht)
  · split
    · next e => exact follows_writeRuns (Follows.of_fst e (follows_cmdRuns h))
    · next e => exact Follows.of_fst e (follows_cmdRuns h)
    · next e => exact Follows.of_fst e (follows_cmdRuns h)

theorem follows_readElems {c b pp x4 x5} (h : Follows s₀ s) :
    Follows s₀ (readElems s c b pp x4 x5).1 := by
  induction x4 generalizing s x5 with
  | nil =>
    exact h
  | cons x l ih =>
    unfold readElems
    split
    · next e => exact ih (Follows.of_fst e (follows_readElem h))
    · next e => exact Follows.of_fst e (follows_readElem h)
    · next e => exact Follows.of_fst e (follows_readElem h)

theorem follows_runWord {total word f id from_ x5} (h : Follows s₀ s) (hfrom : Follows s₀ from_.1)
    (hf : ∀ t c, Follows s₀ t → Follows s₀ (f t c)) : Follows s₀ (runWord total word f id from_ x5 s) := by
  induction x5 generalizing s with
  | zero => exact h
  | succ n ih =>
    unfold runWord
    split
    · exact h
    · next c _ =>
      have ht := hf s c h
      dsimp only
      split
      · exact ht
      · split
        · exact ht
        · split
          · exact ⟨ht.mem, hfrom.shelf, ht.acc, ht.clock⟩
          · exact iteInduction (fun _ => ih (follows_modCmd ht)) fun _ => follows_modCmd ht

theorem follows_runElems {total word f id x4} (h : Follows s₀ s) (hf : ∀ t x1, Follows s₀ t → Follows s₀ (f t x1)) :
    Follows s₀ (runElems total word f id x4 s) := by
  induction x4 generalizing s with
  | zero =>
    unfold runElems
    split
    · exact h
    · exact iteInduction (fun _ => h) fun _ => iteInduction (fun _ => follows_endCmd h) fun _ => h
  | succ n ih =>
    unfold runElems
    split
    · exact h
    · exact iteInduction (fun _ => h) fun _ => iteInduction (fun _ => follows_endCmd h) fun _ => ih (follows_runWord h h hf)

theorem follows_converted {c x1 b ovp v go} (h : Follows s₀ s) (hgo : ∀ t x1, Follows s₀ t → Follows s₀ (go t x1)) :
    Follows s₀ (converted c x1 b ovp s v go) := by
  unfold converted
  split
  · exact hgo _ _ h
  · exact follows_failCmd h

theorem follows_accPut {c w v} (h : Follows s₀ s) :
    Follows s₀ (accPut s c w v) := by
  exact ⟨h.mem, h.shelf, fun w => Memory.wf_wrBytes _ _ (h.acc w), h.clock⟩

theorem follows_withAcc {α : Type} {c w store} {go : State → State × Got α} (h : Follows s₀ s)
    (hgo : ∀ t, Follows s₀ t → Follows s₀ (go t).1) :
    Follows s₀ (withAcc s c w store go).1 := by
  exact follows_withParked h hgo

theorem follows_accFill {c w v} (h : Follows s₀ s) :
    Follows s₀ (accFill s c w v) := by
  unfold accFill
  dsimp only
  refine follows_gotten (follows_withAcc h (fun _ ht => ht)) (fun _ _ h1 => ?_)
  split
  · exact (follows_accPut h1).like rfl
  · exact follows_accPut h1

theorem follows_readAcc {c w store} (h : Follows s₀ s) :
    Follows s₀ (readAcc s c w store).1 := by
  unfold readAcc
  refine follows_withAcc h (fun _ h => ?_)
  split
  · exact h
  · exact h

theorem follows_mmElem {c} (h : Follows s₀ s) :
    Follows s₀ (mmElem s c) := by
  unfold mmElem
  dsimp only
  refine follows_gotten (follows_readElems h) (fun _ _ h => ?_)
  refine follows_gotten (follows_readElems h) (fun _ _ h1 => ?_)
  exact follows_gotten (follows_readAcc h1) (fun _ _ ht => follows_accPut (follows_charge ht))

theorem follows_execMmCommand {r n} (h : Follows s₀ s) :
    OnNext (Follows s₀) (execMmCommand r n s) := by
  unfold execMmCommand
  dsimp only
  refine follows_withCmd h (fun _ _ ht => follows_noBind ht) (fun _ _ h1 => ?_)
  exact follows_runElems h1 (fun _ _ ht => follows_mmElem ht)

theorem follows_execAcczeroCommand {r} (h : Follows s₀ s) :
    OnNext (Follows s₀) (execAcczeroCommand r s) := by
  unfold execAcczeroCommand
  refine follows_withCmd h (fun _ _ ht => follows_noBind ht) (fun _ _ h1 => ?_)
  exact follows_runElems h1 (fun _ _ ht => follows_accFill ht)

theorem follows_execAccldCommand {r n} (h : Follows s₀ s) :
    OnNext (Follows s₀) (execAccldCommand r n s) := by
  unfold execAccldCommand
  refine follows_withCmd h (fun _ _ ht => follows_noBind ht) (fun _ _ h1 => ?_)
  refine follows_runElems h1 (fun _ _ h2 => ?_)
  exact follows_gotten (follows_readElem h2) (fun _ _ ht => follows_accFill ht)

theorem follows_accstBits {c b v go} (h : Follows s₀ s) (hgo : ∀ t x1, Follows s₀ t → Follows s₀ (go t x1)) :
    Follows s₀ (accstBits c b s v go) := by
  unfold accstBits
  split
  · exact follows_converted h hgo
  · exact hgo _ _ h

theorem follows_execAccstCommand {r n} (h : Follows s₀ s) :
    OnNext (Follows s₀) (execAccstCommand r n s) := by
  unfold execAccstCommand
  dsimp only
  refine follows_withCmd h (fun _ _ ht => follows_noBind ht) (fun _ _ h1 => ?_)
  refine follows_runElems h1 (fun _ _ h2 => ?_)
  refine follows_gotten (follows_readAcc h2) (fun _ _ h3 => ?_)
  refine follows_accstBits h3 (fun _ _ h4 => ?_)
  exact follows_gotten (follows_writeElem h4) (fun _ _ ht => ht)

theorem follows_copyElem {c} (h : Follows s₀ s) :
    Follows s₀ (copyElem s c) := by
  unfold copyElem
  dsimp only
  refine follows_gotten (follows_readElem h) (fun _ _ h => ?_)
  refine follows_converted h (fun _ _ h1 => ?_)
  exact follows_gotten (follows_writeElem h1) (fun _ _ ht => ht)

theorem follows_execCopyCommand {r n} (h : Follows s₀ s) :
    OnNext (Follows s₀) (execCopyCommand r n s) := by
  unfold execCopyCommand
  dsimp only
  split
  · exact h
  · refine follows_withCmd h (fun _ _ ht => follows_noBind ht) (fun _ _ h1 => ?_)
    split
    · exact follows_failEngine h1
    · exact follows_runElems h1 (fun _ _ ht => follows_copyElem ht)

theorem follows_takeKey {sealing c} (h : Follows s₀ s) :
    Follows s₀ (takeKey sealing s c) := by
  unfold takeKey
  dsimp only
  exact iteInduction (fun _ => follows_failEngine h) fun _ => follows_modCmd h

theorem follows_withSealRuns {c trailerStore go} (h : Follows s₀ s) (hgo : ∀ t x1 x2 x3, Follows s₀ t → Follows s₀ (go t x1 x2 x3)) :
    Follows s₀ (withSealRuns s c trailerStore go) := by
  unfold withSealRuns
  dsimp only
  refine follows_gotten (follows_cmdRuns h) (fun _ _ h => ?_)
  refine follows_gotten (follows_cmdRuns h) (fun _ _ h1 => ?_)
  exact follows_gotten (follows_cmdRuns h1) (fun _ _ ht => hgo _ _ _ _ ht)

theorem follows_sealPage {c} (h : Follows s₀ s) :
    Follows s₀ (sealPage s c) := by
  unfold sealPage
  dsimp only
  refine follows_withSealRuns h (fun _ _ _ _ h => ?_)
  split
  · exact follows_failCmd h
  · exact follows_endCmd (follows_modPart (follows_writeRuns (follows_writeRuns (follows_readRuns h))))

theorem follows_execCopySeal {r} (h : Follows s₀ s) :
    OnNext (Follows s₀) (execCopySeal r s) := by
  unfold execCopySeal
  split
  · exact h
  · exact follows_withCmd h (fun _ _ ht => follows_takeKey ht) (fun _ _ ht => follows_sealPage ht)

theorem follows_openPageCopy {c} (h : Follows s₀ s) :
    Follows s₀ (openPageCopy s c) := by
  unfold openPageCopy
  dsimp only
  refine follows_withSealRuns h (fun _ _ _ _ h => ?_)
  split
  · exact follows_failCmd h
  · split
    · exact follows_failCmd (follows_readRuns (follows_readRuns h))
    · exact follows_endCmd (follows_writeRuns (follows_readRuns (follows_readRuns h)))

theorem follows_execCopyOpen {r} (h : Follows s₀ s) :
    OnNext (Follows s₀) (execCopyOpen r s) := by
  unfold execCopyOpen
  split
  · exact h
  · exact follows_withCmd h (fun _ _ ht => follows_takeKey ht) (fun _ _ ht => follows_openPageCopy ht)

theorem follows_installHandler {c bs} (h : Follows s₀ s) :
    Follows s₀ (installHandler s c bs) := by
  unfold installHandler
  dsimp only
  split
  · exact follows_failEngine h
  · exact follows_endCmd (h.like rfl)

theorem follows_execHandlerInstallCommand {r} (h : Follows s₀ s) :
    OnNext (Follows s₀) (execHandlerInstallCommand r s) := by
  unfold execHandlerInstallCommand
  dsimp only
  refine follows_withCmd h (fun _ _ ht => follows_noBind ht) (fun _ _ h1 => ?_)
  exact follows_gotten (follows_cmdRuns h1) (fun _ _ ht => follows_installHandler (follows_readRuns ht))

theorem follows_execCbloadCommand {r} (h : Follows s₀ s) :
    OnNext (Follows s₀) (execCbloadCommand r s) := by
  unfold execCbloadCommand
  dsimp only
  refine follows_withCmd h (fun _ _ ht => follows_noBind ht) (fun _ _ h1 => ?_)
  exact follows_gotten (follows_cmdRuns h1) (fun _ _ ht => follows_endCmd (follows_modCmd (follows_readRuns ht)))

theorem follows_loadCodebook {bay slot lo hi} (h : Follows s₀ s) :
    Follows s₀ (loadCodebook s bay slot lo hi) :=
  h.like rfl

theorem follows_deliverStatus {c v} (h : Follows s₀ s) :
    Follows s₀ (deliverStatus s c v) := by
  unfold deliverStatus
  dsimp only
  split
  · exact follows_launchTok h
  · split
    · exact follows_completionWrite (h.like rfl)
    · split
      · exact follows_interrupt h
      · exact h

theorem follows_unbind {c} (h : Follows s₀ s) :
    Follows s₀ (unbind s c) := by
  unfold unbind
  dsimp only
  split
  · exact h
  · exact follows_modPart h

theorem follows_dropBank {p k ver} (h : Follows s₀ s) :
    Follows s₀ (dropBank s p k ver) :=
  follows_modPart (h.like rfl)

theorem follows_retireEffect {c} (h : Follows s₀ s) :
    Follows s₀ (retireEffect s c) := by
  unfold retireEffect
  split
  · exact h
  · split
    · exact follows_loadCodebook h
    · split
      · exact follows_dropBank h
      · exact h

theorem follows_pruneFences (h : Follows s₀ s) :
    Follows s₀ (pruneFences s) :=
  h.like rfl

theorem follows_execCommandRetirement {r} (h : Follows s₀ s) :
    OnNext (Follows s₀) (execCommandRetirement r s) := by
  unfold execCommandRetirement
  dsimp only
  split
  · exact h
  · split
    · exact h
    · split
      · exact h
      · refine follows_deliverStatus (follows_pruneFences (follows_retireEffect (follows_unbind ?_)))
        exact (foldl_keeps (P := Follows s₀) (fun _ _ ht => follows_setSync ht) h _).like rfl

/-! ### Gathers and scatters -/

theorem follows_setTable {p k t} (h : Follows s₀ s) :
    Follows s₀ (setTable s p k t) :=
  h.like rfl

theorem follows_bindTable {okSf b c} (h : Follows s₀ s) :
    Follows s₀ (bindTable okSf b s c) := by
  unfold bindTable
  dsimp only
  split
  · exact follows_endCmd h
  · split
    · exact h
    · split
      · exact follows_failEngine h
      · split
        · exact follows_failCmd h
        · exact follows_modCmd (follows_setTable h)

theorem follows_dupPut {c i bs} (h : Follows s₀ s) :
    Follows s₀ (dupPut s c i bs) :=
  h.like rfl

theorem follows_readRow {c b r n} (h : Follows s₀ s) :
    Follows s₀ (readRow s c b r n).1 :=
  follows_readElems h

theorem follows_runRows {total joint f g id x5 x6} (h : Follows s₀ s) (hf : ∀ t x1 x2, Follows s₀ t → Follows s₀ (f t x1 x2)) :
    Follows s₀ (runRows total joint f g id x5 x6 s) := by
  have hjoint (from_ : State × Nat) (hfrom : Follows s₀ from_.1) (n : Nat) (rs : List XReply) {t : State} (ht : Follows s₀ t) :=
    runJoint_keeps (total := total) (joint := joint) (g := g) (id := id) (from_ := from_) tracks hf n rs ht
      fun _ hu => ⟨hu.mem, hfrom.shelf, hu.acc, hu.clock⟩
  induction x5 generalizing x6 s with
  | zero =>
    unfold runRows
    split
    · exact h
    · exact iteInduction (fun _ => h) fun _ => iteInduction (fun _ => follows_endCmd h) fun _ => h
  | succ n ih =>
    unfold runRows
    split
    · exact h
    · next c _ => exact iteInduction (fun _ => h) fun _ => iteInduction (fun _ => follows_endCmd h) fun _ => ih (hjoint (s, c.pos) h _ _ h)

theorem follows_chainBytes {c bay off n} (h : Follows s₀ s) :
    Follows s₀ (chainBytes s c bay off n).1 := by
  unfold chainBytes
  split
  · exact h
  · refine follows_withParked h (fun _ h => ?_)
    split
    · exact h
    · exact follows_charge h

theorem follows_kvLookup {c g p} (h : Follows s₀ s) :
    Follows s₀ (kvLookup s c g p).1 := by
  unfold kvLookup
  split
  · exact h
  · exact follows_chainBytes h

theorem follows_kvGathElem {c} (h : Follows s₀ s) :
    Follows s₀ (kvGathElem s c) := by
  unfold kvGathElem
  dsimp only
  refine follows_gotten (follows_readElem h) (fun _ _ h => ?_)
  refine follows_gotten (follows_kvLookup h) (fun _ _ h1 => ?_)
  exact follows_gotten (follows_writeRow h1) (fun _ _ ht => follows_nextElem ht)

theorem follows_kvAppend {c g p bs} (h : Follows s₀ s) :
    Follows s₀ (kvAppend s c g p bs) := by
  unfold kvAppend
  dsimp only
  split
  · exact follows_failEngine h
  · split
    · exact follows_failEngine h
    · split
      · exact follows_failCmd h
      · refine follows_gotten (follows_withParked h fun _ ht => ht) fun _ _ ht => ?_
        exact follows_nextElem ((follows_charge (follows_shelfPoke ht)).like rfl)

theorem follows_kvScatElem {c} (h : Follows s₀ s) :
    Follows s₀ (kvScatElem s c) := by
  unfold kvScatElem
  dsimp only
  refine follows_gotten (follows_readElem h) (fun _ _ h => ?_)
  refine follows_gotten (follows_readRow h) (fun _ _ h1 => ?_)
  exact follows_convertedAll h1 (fun _ _ ht => follows_kvAppend ht)

theorem follows_gathElem {c rs} (h : Follows s₀ s) :
    Follows s₀ (gathElem s c rs) := by
  unfold gathElem
  dsimp only
  refine follows_gotten (follows_readElem h) (fun _ _ h => ?_)
  refine follows_answered (follows_tableRow h) (fun _ _ h1 => ?_)
  refine follows_convertedAll h1 (fun _ _ h2 => ?_)
  exact follows_gotten (follows_writeRow h2) (fun _ _ ht => follows_nextElem ht)

theorem follows_execGathCommand {r n replies} (h : Follows s₀ s) :
    OnNext (Follows s₀) (execGathCommand r n replies s) := by
  unfold execGathCommand
  dsimp only
  refine follows_withCmd h (fun _ _ ht => follows_bindTable ht) (fun _ _ h1 => ?_)
  split
  · exact follows_runRows h1 (fun _ _ _ ht => follows_kvGathElem ht)
  · exact follows_runRows h1 (fun _ _ _ ht => follows_gathElem ht)

theorem follows_execGathwCommand {r n replies} (h : Follows s₀ s) :
    OnNext (Follows s₀) (execGathwCommand r n replies s) := by
  unfold execGathwCommand
  dsimp only
  refine follows_withCmd h (fun _ _ ht => follows_bindTable ht) (fun _ _ h1 => ?_)
  exact follows_runRows h1 (fun _ _ _ ht => follows_gathwElem ht)

theorem follows_withEntry {add c e r go} (h : Follows s₀ s) (hgo : ∀ t x1, Follows s₀ t → Follows s₀ (go t x1)) :
    Follows s₀ (withEntry add s c e r go) := by
  unfold withEntry
  dsimp only
  refine follows_gotten (follows_readElem h) (fun _ _ h => ?_)
  refine follows_gotten (follows_readRow h) (fun _ _ h1 => ?_)
  refine follows_convertedAll h1 (fun _ _ h2 => ?_)
  split
  · exact follows_failEngine h2
  · exact follows_answered h2 (fun _ _ ht => hgo _ _ (follows_chargeLink ht))
  · refine follows_gotten (follows_cmdRuns h2) (fun _ _ h7 => ?_)
    split
    · exact follows_failCmd h7
    · exact hgo _ _ h7

theorem follows_putRow {c w} (h : Follows s₀ s) :
    Follows s₀ (putRow s c w) := by
  unfold putRow
  dsimp only
  split
  · exact h
  · exact follows_writeRuns h

theorem follows_addRow {c w} (h : Follows s₀ s) :
    Follows s₀ (addRow s c w) := by
  unfold addRow
  dsimp only
  split
  · exact h
  · exact follows_writeRuns (follows_readRuns h)

theorem follows_execScatCommand {r n replies} (h : Follows s₀ s) :
    OnNext (Follows s₀) (execScatCommand r n replies s) := by
  unfold execScatCommand
  refine follows_withCmd h (fun _ _ ht => follows_bindTable ht) (fun _ _ h1 => ?_)
  split
  · exact follows_runRows h1 (fun _ _ _ ht => follows_kvScatElem ht)
  · refine follows_runRows h1 (fun _ _ _ h3 => ?_)
    exact follows_withEntry h3 (fun _ _ ht => follows_nextElem (follows_putRow ht))

theorem follows_checkEntries {c x1 x2 x3 x4 x6} (h : Follows s₀ s) (hx6 : ∀ t x1, Follows s₀ t → Follows s₀ (x6 t x1)) :
    Follows s₀ (checkEntries c x1 x2 x3 x4 s x6) := by
  induction x1 generalizing x2 x3 x4 s with
  | zero => exact hx6 _ _ h
  | succ n ih =>
    have ht := follows_withEntry (add := true) (c := c) (e := x2) (r := x3.head?) h fun _ w hu =>
      ih (x2 := x2 + 1) (x3 := x3.tail) (x4 := x4 ++ [(x2, w)]) hu
    unfold checkEntries
    exact iteInduction (fun _ => hx6 _ _ ht) fun _ => ht

theorem follows_applyIn {perm c l} (h : Follows s₀ s) :
    Follows s₀ (applyIn perm c s l) := by
  unfold applyIn
  dsimp only
  refine follows_modCmd ?_
  refine foldl_keeps (P := Follows s₀) (fun _ _ h => ?_) h _
  split
  · exact follows_addRow h
  · exact h

theorem follows_execScataddCommand {r n perm replies} (h : Follows s₀ s) :
    OnNext (Follows s₀) (execScataddCommand r n perm replies s) := by
  unfold execScataddCommand
  dsimp only
  refine follows_withCmd h (fun _ _ ht => follows_bindTable ht) (fun _ _ h1 => ?_)
  split
  · split
    · split
      · exact follows_endCmd (follows_checkEntries h1 (fun _ _ ht => follows_applyIn ht))
      · exact follows_checkEntries h1 (fun _ _ ht => follows_applyIn ht)
    · exact follows_checkEntries h1 (fun _ _ ht => follows_applyIn ht)
  · refine follows_runRows h1 (fun _ _ _ h7 => ?_)
    exact follows_withEntry h7 (fun _ _ ht => follows_nextElem (follows_addRow ht))

theorem follows_swapTable {c} (h : Follows s₀ s) :
    Follows s₀ (swapTable s c) := by
  unfold swapTable
  dsimp only
  split
  · split
    · exact h
    · exact follows_setTable h
  · split
    · exact follows_failEngine h
    · exact follows_modCmd (h.like rfl)

theorem follows_execTblswapCommand {r} (h : Follows s₀ s) :
    OnNext (Follows s₀) (execTblswapCommand r s) := by
  unfold execTblswapCommand
  dsimp only
  refine follows_withCmd h (fun _ _ ht => follows_swapTable ht) (fun _ _ h1 => ?_)
  split
  · exact h1
  · exact follows_endCmd h1

/-! ### Invalidations -/

theorem follows_startInval {p d physical} (h : Follows s₀ s) :
    Follows s₀ (startInval s p d physical) :=
  h.like rfl

theorem follows_execInvalidationSubmit {d} (h : Follows s₀ s) :
    OnNext (Follows s₀) (execInvalidationSubmit d s) := by
  unfold execInvalidationSubmit
  split
  · exact follows_modPkg h rfl
  · exact follows_startInval h

theorem follows_writeDone {v} (h : Follows s₀ s) :
    Follows s₀ (writeDone s v) := by
  unfold writeDone
  dsimp only
  split
  · split
    · exact follows_pokeBytes h
    · exact follows_hfqFault h
  · exact follows_complete h

theorem follows_execInvalidationDone {n} (h : Follows s₀ s) :
    OnNext (Follows s₀) (execInvalidationDone n s) := by
  unfold execInvalidationDone
  split
  · exact h
  · split
    · exact follows_writeDone (h.like rfl)
    · exact h

/-! ### Link commands -/

theorem follows_cmdRead {c va n algn go} (h : Follows s₀ s) (hgo : ∀ t x1, Follows s₀ t → Follows s₀ (go t x1)) :
    Follows s₀ (cmdRead s c va n algn go) := by
  unfold cmdRead
  dsimp only
  split
  · exact hgo _ _ h
  · exact follows_gotten (follows_cmdRuns h) (fun _ _ ht => hgo _ _ (follows_readRuns ht))

theorem follows_localRead {c b k n} (h : Follows s₀ s) :
    Follows s₀ (localRead s c b k n).1 := by
  unfold localRead
  dsimp only
  split
  · split
    · exact h
    · refine follows_withParked h (fun _ h => ?_)
      split
      · exact h
      · exact follows_charge h
  · split
    · next e => exact follows_readRuns (Follows.of_fst e (follows_cmdRuns h))
    · next e => exact Follows.of_fst e (follows_cmdRuns h)
    · next e => exact Follows.of_fst e (follows_cmdRuns h)

theorem follows_localWrite {c b k bs} (h : Follows s₀ s) :
    Follows s₀ (localWrite s c b k bs).1 := by
  unfold localWrite
  dsimp only
  split
  · split
    · exact h
    · exact follows_withParked h (fun _ ht => follows_charge (follows_shelfPoke ht))
  · split
    · next e => exact follows_writeRuns (Follows.of_fst e (follows_cmdRuns h))
    · next e => exact Follows.of_fst e (follows_cmdRuns h)
    · next e => exact Follows.of_fst e (follows_cmdRuns h)

theorem follows_cmdBytes {c b n go} (h : Follows s₀ s) (hgo : ∀ t x1, Follows s₀ t → Follows s₀ (go t x1)) :
    Follows s₀ (cmdBytes s c b n go) := by
  unfold cmdBytes
  split
  · exact hgo _ _ h
  · exact follows_gotten (follows_localRead h) hgo

theorem follows_carryBytes {take_ put dst total fin id x6} (h : Follows s₀ s)
    (htake_ : ∀ t c k, Follows s₀ t → Follows s₀ (take_ t c k).1) (hput : ∀ t c l, Follows s₀ t → Follows s₀ (put t c l).1)
    (hfin : ∀ t c, Follows s₀ t → Follows s₀ (fin t c)) :
    Follows s₀ (carryBytes take_ put dst total fin id x6 s) := by
  induction x6 generalizing s with
  | zero =>
    exact h
  | succ n ih =>
    unfold carryBytes
    dsimp only
    split
    · exact h
    · split
      · exact h
      · split
        · exact hfin _ _ h
        · refine ih ?_
          split
          · refine follows_gotten (htake_ _ _ _ h) (fun _ _ h2 => ?_)
            exact follows_gotten (hput _ _ _ h2) (fun _ _ ht => follows_modCmd ht)
          · refine follows_gotten (htake_ _ _ _ h) (fun _ _ h4 => ?_)
            exact follows_gotten (hput _ _ _ h4) (fun _ _ ht => follows_modCmd ht)

theorem follows_setWml (h : Follows s₀ s) :
    Follows s₀ (setWml s) :=
  follows_modPkg h rfl

theorem follows_modPort {k f} (h : Follows s₀ s) :
    Follows s₀ (modPort s k f) :=
  follows_modPkg h rfl

theorem follows_takeStamp {c} (h : Follows s₀ s) :
    Follows s₀ (takeStamp s c) :=
  follows_modCmd (follows_setWml (follows_modPkg h rfl))

theorem follows_handCopies {dsts packets routes id x4} (h : Follows s₀ s) :
    Follows s₀ (handCopies dsts packets routes id x4 s) := by
  induction x4 generalizing s with
  | zero =>
    exact h
  | succ n ih =>
    unfold handCopies
    dsimp only
    split
    · exact h
    · split
      · exact h
      · split
        · exact ih (follows_modCmd h)
        · split
          · split
            · exact ih (follows_modCmd (follows_modPkg h rfl))
            · exact h
          · split
            · exact ih (follows_modCmd (follows_modCmd h))
            · split
              · exact h
              · split
                · exact ih (follows_modCmd (follows_modPort h))
                · exact ih (follows_modCmd (follows_modCmd h))

theorem follows_handOut {c dsts packets routes} (h : Follows s₀ s) :
    Follows s₀ (handOut s c dsts packets routes) := by
  unfold handOut
  dsimp only
  split
  · exact h
  · split
    · exact follows_handCopies h
    · split
      · exact follows_handCopies h
      · exact follows_setWml (follows_modPkg (follows_handCopies h) rfl)

theorem follows_formColl {c l} (h : Follows s₀ s) :
    Follows s₀ (formColl s c l) :=
  h.like rfl

theorem follows_meetColl {others c} (h : Follows s₀ s) :
    Follows s₀ (meetColl others s c) := by
  unfold meetColl
  split
  · exact h
  · split
    · exact follows_failEngine h
    · exact follows_formColl h

theorem follows_beginColl {c} (h : Follows s₀ s) :
    Follows s₀ (beginColl s c) := by
  unfold beginColl
  dsimp only
  refine follows_cmdRead h (fun _ _ h => ?_)
  split
  · exact follows_failEngine h
  · split
    · exact follows_failCmd h
    · split
      · split
        · exact follows_takeStamp (follows_modCmd h)
        · exact follows_modCmd (follows_chargeLink (follows_modCmd h))
      · refine follows_gotten (follows_readRow h) (fun _ _ h1 => ?_)
        split
        · exact follows_takeStamp (follows_modCmd h1)
        · exact follows_modCmd (follows_chargeLink (follows_modCmd h1))

theorem follows_collElem {c} (h : Follows s₀ s) :
    Follows s₀ (collElem s c) := by
  unfold collElem
  refine follows_converted h fun _ _ ht => ?_
  exact follows_gotten (follows_writeElem ht) fun _ _ hu => hu

theorem follows_onCmd {id go} (h : Follows s₀ s) (hgo : ∀ t x1, Follows s₀ t → Follows s₀ (go t x1)) :
    Follows s₀ (onCmd s id go) := by
  unfold onCmd
  split
  · split
    · exact h
    · exact hgo _ _ h
  · exact h

theorem follows_writeColl {c} (h : Follows s₀ s) :
    Follows s₀ (writeColl s c) := by
  unfold writeColl
  split
  · exact follows_runElems h (fun _ _ ht => follows_collElem ht)
  · exact h

theorem follows_gatherColl {others routes c} (h : Follows s₀ s) :
    Follows s₀ (gatherColl others routes s c) := by
  unfold gatherColl
  refine follows_onCmd (follows_handOut h) (fun _ _ h => ?_)
  split
  · exact h
  · split
    · exact follows_failCmd h
    · exact follows_onCmd (follows_meetColl h) (fun _ _ ht => follows_writeColl ht)

theorem follows_execCollCommand {r others} (h : Follows s₀ s) :
    OnNext (Follows s₀) (execCollCommand r others s) := by
  unfold execCollCommand
  refine follows_withCmd h (fun _ _ ht => follows_noBind ht) (fun _ _ h1 => ?_)
  refine follows_onCmd ?_ (fun _ _ h2 => ?_)
  · split
    · exact follows_beginColl h1
    · exact h1
  · split
    · exact h2
    · split
      · exact follows_writeColl h2
      · exact follows_gatherColl h2

theorem follows_beginSend {c} (h : Follows s₀ s) :
    Follows s₀ (beginSend s c) := by
  unfold beginSend
  refine follows_cmdRead h fun _ _ ht => ?_
  refine follows_cmdBytes ht fun _ _ hu => ?_
  exact follows_takeStamp (follows_modCmd hu)

theorem follows_sendCopies {routes c} (h : Follows s₀ s) :
    Follows s₀ (sendCopies routes s c) := by
  unfold sendCopies
  refine follows_onCmd (follows_handOut h) (fun _ _ h => ?_)
  split
  · exact h
  · split
    · exact follows_failCmd h
    · exact follows_endCmd h

theorem follows_execOsendCommand {r routes} (h : Follows s₀ s) :
    OnNext (Follows s₀) (execOsendCommand r routes s) := by
  unfold execOsendCommand
  refine follows_withCmd h (fun _ _ ht => follows_noBind ht) (fun _ _ h1 => ?_)
  refine follows_onCmd ?_ (fun _ _ h2 => ?_)
  · split
    · exact follows_beginSend h1
    · exact h1
  · split
    · exact h2
    · exact follows_sendCopies h2

theorem follows_refillOrq {p} (h : Follows s₀ s) :
    Follows s₀ (refillOrq s p) := by
  unfold refillOrq
  dsimp only
  split
  · exact h
  · split
    · next e => exact Follows.of_error e (follows_cellarItem h)
    · next e => exact follows_modPart (Follows.of_ok e (follows_cellarItem h))

theorem follows_takeOrd {c} (h : Follows s₀ s) :
    Follows s₀ (takeOrd s c) := by
  unfold takeOrd
  dsimp only
  split
  · exact h
  · exact follows_modCmd (follows_refillOrq (follows_modPart h))

theorem follows_orTake {c k m} (h : Follows s₀ s) :
    Follows s₀ (orTake c s k m).1 :=
  h

theorem follows_execOrecvCommand {r} (h : Follows s₀ s) :
    OnNext (Follows s₀) (execOrecvCommand r s) := by
  unfold execOrecvCommand
  dsimp only
  refine follows_withCmd h (fun _ _ ht => follows_takeOrd ht) (fun _ _ h1 => ?_)
  refine follows_carryBytes h1 (fun _ _ _ ht => follows_orTake ht) (fun _ _ _ ht => follows_localWrite ht) (fun _ _ h4 => ?_)
  split
  · exact follows_failEngine h4
  · exact follows_endCmd h4

theorem follows_remoteOp {bay p sup tree va n write} (h : Follows s₀ s) :
    Follows s₀ (remoteOp s bay p sup tree va n write).1 := by
  unfold remoteOp
  dsimp only
  split
  · exact h
  · split
    · next e => exact Follows.of_fst e (follows_checkRun h)
    · next e => exact Follows.of_fst e (follows_checkRun h)
    · next e => exact Follows.of_fst e (follows_checkRun h)
    · next e3 =>
      split
      · exact follows_writeRuns (Follows.of_fst e3 (follows_checkRun h))
      · split
        · exact Follows.of_fst e3 (follows_checkRun h)
        · exact follows_readRuns (Follows.of_fst e3 (follows_checkRun h))

theorem follows_bindLink {k n c} (h : Follows s₀ s) :
    Follows s₀ (bindLink k n s c) := by
  unfold bindLink
  split
  · exact h
  · exact follows_chargeLink h

theorem follows_xsendPut {reply c k bs} (h : Follows s₀ s) :
    Follows s₀ (xsendPut reply c s k bs).1 := by
  unfold xsendPut
  dsimp only
  split
  · split
    · next e => exact Follows.of_fst e (follows_remoteOp h)
    · next e => exact Follows.of_fst e (follows_remoteOp h)
    · next e => exact Follows.of_fst e (follows_remoteOp h)
  · exact h

theorem follows_linkEnd {k reply c} (h : Follows s₀ s) :
    Follows s₀ (linkEnd k reply s c) := by
  unfold linkEnd
  split
  · exact follows_failCmd h
  · exact follows_endCmd h

theorem follows_execXsendCommand {r reply} (h : Follows s₀ s) :
    OnNext (Follows s₀) (execXsendCommand r reply s) := by
  unfold execXsendCommand
  dsimp only
  refine follows_withCmd h (fun _ _ ht => follows_bindLink ht) (fun _ _ h1 => ?_)
  split
  · exact follows_failCmd h1
  · exact follows_carryBytes h1 (fun _ _ _ ht => follows_localRead ht) (fun _ _ _ ht => follows_xsendPut ht) (fun _ _ ht => follows_linkEnd ht)

theorem follows_xgetTake {reply c k m} (h : Follows s₀ s) :
    Follows s₀ (xgetTake reply c s k m).1 := by
  unfold xgetTake
  dsimp only
  split
  · exact follows_remoteOp h
  · exact h

theorem follows_execXgetCommand {r reply} (h : Follows s₀ s) :
    OnNext (Follows s₀) (execXgetCommand r reply s) := by
  unfold execXgetCommand
  dsimp only
  refine follows_withCmd h (fun _ _ ht => follows_bindLink ht) (fun _ _ h1 => ?_)
  split
  · exact follows_failCmd h1
  · exact follows_carryBytes h1 (fun _ _ _ ht => follows_xgetTake ht) (fun _ _ _ ht => follows_localWrite ht) (fun _ _ ht => follows_linkEnd ht)

theorem follows_remoteWrite {p sup x2 x3 x4} (h : Follows s₀ s) :
    Follows s₀ (remoteWrite p sup x2 x3 x4 s) := by
  induction x2 generalizing x3 x4 s with
  | zero =>
    exact h
  | succ n ih =>
    unfold remoteWrite
    dsimp only
    split
    · exact h
    · split
      · next e => exact ih (Follows.of_fst e (follows_remoteOp h))
      · next e => exact Follows.of_fst e (follows_remoteOp h)

theorem follows_execRemoteAccess {p va size write} (h : Follows s₀ s) :
    OnNext (Follows s₀) (execRemoteAccess p va size write s) := by
  unfold execRemoteAccess
  split
  · exact h
  · split
    · exact follows_remoteWrite h
    · exact follows_charge (follows_remoteOp h)

end Sys2Proof.Machine
end

section
/-! What follows through memory instructions, system instructions, the hypervisor, the links, and the moves of work between
bays. Each proof follows the branches of its function. -/
namespace Sys2Proof.Machine

variable {s₀ s : State}

/-! ### Memory instructions -/

theorem follows_execLd {f} (h : Follows s₀ s) :
    OnNext (Follows s₀) (execLd f s) := by
  unfold execLd
  dsimp only
  refine follows_memShell h (fun _ h => ?_)
  exact follows_withRuns h (fun _ _ ht => follows_send (follows_loadRuns ht))

theorem follows_withBytes {f ea go} (h : Follows s₀ s) (hgo : ∀ t x1, Follows s₀ t → Follows s₀ (go t x1)) :
    Follows s₀ (withBytes f ea s go) := by
  unfold withBytes
  split
  · split
    · exact follows_waitCur h
    · split
      · exact hgo _ _ h
      · exact h
  · split
    · exact hgo _ _ (follows_raiseFl h)
    · exact follows_fault h

theorem follows_execSt {f} (h : Follows s₀ s) :
    OnNext (Follows s₀) (execSt f s) := by
  unfold execSt
  dsimp only
  refine follows_memShell h (fun _ h => ?_)
  refine follows_withRuns h (fun _ _ h1 => ?_)
  refine follows_withBytes h1 (fun _ _ h2 => ?_)
  split
  · exact follows_handStore h2
  · exact h2

theorem follows_execLds {f} (h : Follows s₀ s) :
    OnNext (Follows s₀) (execLds f s) := by
  unfold execLds
  dsimp only
  refine follows_memShell h (fun _ h => ?_)
  exact follows_withShelf h (fun _ _ ht => follows_send ht)

theorem follows_execSts {f} (h : Follows s₀ s) :
    OnNext (Follows s₀) (execSts f s) := by
  unfold execSts
  dsimp only
  refine follows_memShell h (fun _ h => ?_)
  refine follows_withShelf h (fun _ _ h1 => ?_)
  exact follows_withBytes h1 (fun _ _ ht => follows_handStore ht)

theorem follows_withSlot {f store go} (h : Follows s₀ s) (hgo : ∀ t x1, Follows s₀ t → Follows s₀ (go t x1)) :
    Follows s₀ (withSlot f s store go) := by
  unfold withSlot
  dsimp only
  refine follows_withRuns h (fun _ _ h => ?_)
  split
  · split
    · exact follows_accFault h
    · exact hgo _ _ h
  · exact h

theorem follows_execLdv {f} (h : Follows s₀ s) :
    OnNext (Follows s₀) (execLdv f s) := by
  unfold execLdv
  dsimp only
  refine follows_memShell h (fun _ h => ?_)
  refine follows_withSlot h (fun _ _ h1 => ?_)
  split
  · exact follows_send (follows_l2Touch h1)
  · split
    · exact follows_send (follows_l2Touch h1)
    · split
      · exact follows_waitCur (follows_modCur h1)
      · exact follows_fault h1

theorem follows_execStv {f} (h : Follows s₀ s) :
    OnNext (Follows s₀) (execStv f s) := by
  unfold execStv
  refine follows_memShell h (fun _ h => ?_)
  exact follows_withSlot h (fun _ _ ht => follows_handStore ht)

theorem follows_execReclaim {f} (h : Follows s₀ s) :
    OnNext (Follows s₀) (execReclaim f s) := by
  unfold execReclaim
  dsimp only
  refine follows_memShell h (fun _ h => ?_)
  refine follows_withSlot h (fun _ _ h1 => ?_)
  split
  · exact follows_releaseAll (follows_handStore h1)
  · exact follows_handStore h1

theorem follows_execPref {f} (h : Follows s₀ s) :
    OnNext (Follows s₀) (execPref f s) := by
  unfold execPref
  dsimp only
  refine follows_memShell h (fun _ h => ?_)
  split
  · split
    · exact h
    · exact follows_l2Touch h
  · exact h

theorem follows_execFence {f} (h : Follows s₀ s) :
    OnNext (Follows s₀) (execFence f s) :=
  follows_memShell h (fun _ ht => follows_send ht)

theorem follows_putQfence {f} (h : Follows s₀ s) :
    Follows s₀ (putQfence f s) :=
  follows_noteAct (follows_markSent (h.like rfl))

theorem follows_execQfence {f} (h : Follows s₀ s) :
    OnNext (Follows s₀) (execQfence f s) := by
  unfold execQfence
  refine follows_memShell (follows_markConsumed h) (fun _ h => ?_)
  exact follows_engGate h (fun _ ht => follows_send (follows_putQfence ht))

theorem follows_execMonitor {f} (h : Follows s₀ s) :
    OnNext (Follows s₀) (execMonitor f s) := by
  unfold execMonitor
  refine follows_memShell h (fun _ h => ?_)
  refine follows_withRuns h (fun _ _ h1 => ?_)
  split
  · exact follows_send (follows_modFrame h1)
  · exact h1

theorem follows_execWaitm {f} (h : Follows s₀ s) :
    OnNext (Follows s₀) (execWaitm f s) := by
  unfold execWaitm
  dsimp only
  refine follows_memShell h (fun _ h => ?_)
  split
  · exact follows_send h
  · split
    · exact follows_send (follows_modFrame h)
    · split
      · split
        · exact follows_waitCur h
        · exact follows_waitStage h
      · exact follows_waitCur h

theorem follows_atomicPut {rs n x3} (h : Follows s₀ s) :
    Follows s₀ (atomicPut s rs n x3) := by
  unfold atomicPut
  split
  · exact follows_writeRuns (follows_refetch h)
  · exact follows_readRuns h

theorem follows_atomic {f n upd res} (h : Follows s₀ s) :
    Follows s₀ (atomic f s n upd res) := by
  unfold atomic
  dsimp only
  refine follows_withRuns h (fun _ _ h => ?_)
  split
  · exact follows_fault h
  · exact follows_send (follows_noteAct (follows_atomicPut h))

theorem follows_amo {f op} (h : Follows s₀ s) :
    OnNext (Follows s₀) (amo f s op) :=
  follows_memShell h (fun _ ht => follows_atomic ht)

theorem follows_execAmoAdd {f} (h : Follows s₀ s) :
    OnNext (Follows s₀) (execAmoAdd f s) :=
  follows_amo h

theorem follows_execAmoAnd {f} (h : Follows s₀ s) :
    OnNext (Follows s₀) (execAmoAnd f s) :=
  follows_amo h

theorem follows_execAmoOr {f} (h : Follows s₀ s) :
    OnNext (Follows s₀) (execAmoOr f s) :=
  follows_amo h

theorem follows_execAmoXor {f} (h : Follows s₀ s) :
    OnNext (Follows s₀) (execAmoXor f s) :=
  follows_amo h

theorem follows_execAmoMin {f} (h : Follows s₀ s) :
    OnNext (Follows s₀) (execAmoMin f s) :=
  follows_amo h

theorem follows_execAmoMax {f} (h : Follows s₀ s) :
    OnNext (Follows s₀) (execAmoMax f s) :=
  follows_amo h

theorem follows_execAmoXchg {f} (h : Follows s₀ s) :
    OnNext (Follows s₀) (execAmoXchg f s) :=
  follows_amo h

theorem follows_execAmoFadd {f} (h : Follows s₀ s) :
    OnNext (Follows s₀) (execAmoFadd f s) :=
  follows_amo h

theorem follows_execAmoFmin {f} (h : Follows s₀ s) :
    OnNext (Follows s₀) (execAmoFmin f s) :=
  follows_amo h

theorem follows_execAmoFmax {f} (h : Follows s₀ s) :
    OnNext (Follows s₀) (execAmoFmax f s) :=
  follows_amo h

theorem follows_execCas {f} (h : Follows s₀ s) :
    OnNext (Follows s₀) (execCas f s) :=
  follows_memShell h (fun _ ht => follows_atomic ht)

theorem follows_execCas2 {f} (h : Follows s₀ s) :
    OnNext (Follows s₀) (execCas2 f s) :=
  follows_memShell h (fun _ ht => follows_atomic ht)

/-! ### System instructions -/

theorem follows_whenOldest {eff} (h : Follows s₀ s) (heff : ∀ t, Follows s₀ t → Follows s₀ (eff t)) :
    Follows s₀ (whenOldest s eff) := by
  unfold whenOldest
  split
  · exact heff _ h
  · exact follows_waitCur h

theorem follows_putBar {p b} (h : Follows s₀ s) :
    Follows s₀ (putBar s p b) :=
  h.like rfl

theorem follows_sendBar {f} (h : Follows s₀ s) :
    Follows s₀ (sendBar f s) := by
  unfold sendBar
  split
  · exact follows_waitCur h
  · extract_lets c own others t
    have ht : Follows s₀ t := h.like rfl
    refine follows_waitStage (follows_noteAct ?_)
    refine foldl_keeps (fun _ _ hu => ?_) ht _
    exact iteInduction (fun _ => follows_modPort hu) fun _ => hu

theorem follows_barArrive {f go} (h : Follows s₀ s) (hgo : ∀ t x1, Follows s₀ t → Follows s₀ (go t x1)) :
    Follows s₀ (barArrive f s go) := by
  unfold barArrive
  dsimp only
  split
  · split
    · exact follows_waitCur h
    · split
      · exact follows_illop h
      · exact hgo _ _ h
  · split
    · exact follows_sendBar h
    · split
      · exact follows_illop h
      · exact hgo _ _ (follows_noteAct (follows_putBar h))

theorem follows_barAwait {f g} (h : Follows s₀ s) :
    Follows s₀ (barAwait f s g) := by
  unfold barAwait
  dsimp only
  split
  · exact follows_send h
  · exact follows_waitStage h

theorem follows_barLane {f} (h : Follows s₀ s) :
    Follows s₀ (barLane f s) :=
  follows_send (follows_noteAct h)

theorem follows_execBar {f} (h : Follows s₀ s) :
    OnNext (Follows s₀) (execBar f s) := by
  unfold execBar
  refine follows_shell h (fun _ h => ?_)
  refine follows_whenSettled h (fun _ h1 => ?_)
  split
  · exact follows_barLane h1
  · exact follows_barArrive h1 (fun _ _ ht => follows_barAwait ht)

theorem follows_execBara {f} (h : Follows s₀ s) :
    OnNext (Follows s₀) (execBara f s) := by
  unfold execBara
  refine follows_shell h (fun _ h => ?_)
  refine follows_whenSettled h (fun _ h1 => ?_)
  split
  · exact follows_barLane h1
  · exact follows_barArrive h1 (fun _ _ ht => follows_send ht)

theorem follows_execBarw {f} (h : Follows s₀ s) :
    OnNext (Follows s₀) (execBarw f s) := by
  unfold execBarw
  refine follows_shell h (fun _ h => ?_)
  refine follows_whenSettled h (fun _ h1 => ?_)
  split
  · exact follows_barLane h1
  · refine follows_barAwait ?_
    split
    · exact follows_noteAct h1
    · exact h1

theorem follows_placeTimed {f rcd} (h : Follows s₀ s) :
    Follows s₀ (placeTimed f s rcd) := by
  unfold placeTimed
  split
  · exact follows_waitCur h
  · split
    · exact follows_waitCur h
    · exact follows_send (follows_noteAct (follows_modPart h))

theorem follows_execAttime {f} (h : Follows s₀ s) :
    OnNext (Follows s₀) (execAttime f s) := by
  unfold execAttime
  dsimp only
  refine follows_shell h (fun _ h => ?_)
  split
  · exact follows_placeTimed h
  · refine follows_whenOldest h (fun _ h3 => ?_)
    split
    · exact follows_waitCur h3
    · refine follows_withRuns h3 (fun _ _ h4 => ?_)
      split
      · exact follows_fault (follows_loadRuns h4)
      · exact follows_placeTimed (follows_modCur ((follows_loadRuns h4).like rfl))

theorem follows_execElease {f} (h : Follows s₀ s) :
    OnNext (Follows s₀) (execElease f s) := by
  unfold execElease
  dsimp only
  refine follows_shell h (fun _ h => ?_)
  refine follows_whenOldest h (fun _ h1 => ?_)
  refine follows_send ?_
  refine follows_noteAct ?_
  split
  · exact h1
  · exact follows_modPart h1

theorem follows_execYield {f} (h : Follows s₀ s) :
    OnNext (Follows s₀) (execYield f s) := by
  unfold execYield
  split
  · exact follows_sendAll h
  · split
    · exact h
    · split
      · exact follows_waitCur h
      · exact follows_waitStage h

theorem follows_execYieldExpiry {n} (h : Follows s₀ s) :
    OnNext (Follows s₀) (execYieldExpiry n s) := by
  unfold execYieldExpiry
  split
  · exact h
  · split
    · extract_lets f t u
      have ht : Follows s₀ t := h.like rfl
      have hu : Follows s₀ u := iteInduction (fun _ => follows_sendKind ht) fun _ => follows_send ht
      exact iteInduction (fun _ => hu.like rfl) fun _ => h
    · exact h

theorem follows_stopToHyper {r} (h : Follows s₀ s) :
    Follows s₀ (stopToHyper s r) := by
  unfold stopToHyper
  dsimp only
  split
  · split
    · split
      · exact follows_modRegion h
      · exact follows_hfqFault (follows_modRegion h)
    · exact h
  · exact follows_hfqFault (follows_modFrame (follows_clearBlock (follows_discardYounger h)))

theorem follows_execBrk {f} (h : Follows s₀ s) :
    OnNext (Follows s₀) (execBrk f s) := by
  unfold execBrk
  dsimp only
  refine follows_shell h (fun _ h => ?_)
  split
  · split
    · exact follows_stopToHyper h
    · exact follows_waitCur h
  · exact follows_faultAux h

theorem follows_execHcall {f} (h : Follows s₀ s) :
    OnNext (Follows s₀) (execHcall f s) := by
  unfold execHcall
  dsimp only
  refine follows_shell h (fun _ h => ?_)
  split
  · exact follows_fault h
  · refine follows_whenOldest h (fun _ h1 => ?_)
    split
    · exact follows_waitCur h1
    · split
      · refine follows_withRuns h1 (fun _ _ h2 => ?_)
        split
        · exact follows_fault (follows_loadRuns h2)
        · exact follows_send (follows_noteAct (follows_startInval (follows_loadRuns h2)))
      · split
        · exact follows_send (follows_noteAct (follows_modPart h1))
        · split
          · exact follows_waitStage (follows_noteAct (follows_hfqWrite (follows_numbered h1)))
          · exact follows_send (follows_noteAct h1)

theorem follows_execFpcset {f} (h : Follows s₀ s) :
    OnNext (Follows s₀) (execFpcset f s) := by
  unfold execFpcset
  dsimp only
  split
  · exact follows_sendAll (follows_modBlock h)
  · split
    · exact h
    · exact follows_send (follows_modBlock h)

theorem follows_execEvent {f} (h : Follows s₀ s) :
    OnNext (Follows s₀) (execEvent f s) := by
  unfold execEvent
  dsimp only
  refine follows_shell h (fun _ h => ?_)
  refine follows_send ?_
  split
  · exact follows_interrupt h
  · exact follows_modBlock h

/-! ### Answers of the hypervisor -/

theorem follows_refuseWrite (h : Follows s₀ s) :
    Follows s₀ (refuseWrite s) :=
  follows_modPkg h rfl

theorem follows_preErr {p e} (h : Follows s₀ s) :
    Follows s₀ (preErr s p e) :=
  follows_refuseWrite (follows_modPart h)

theorem follows_replayLog {p} (h : Follows s₀ s) :
    Follows s₀ (replayLog s p) := by
  unfold replayLog
  dsimp only
  split
  · refine follows_postVec ?_
    refine follows_modPart ?_
    refine foldl_keeps (P := Follows s₀) (fun _ _ h => ?_) h _
    split
    · exact follows_postVec h
    · exact h
  · refine follows_modPart ?_
    refine foldl_keeps (P := Follows s₀) (fun _ _ h1 => ?_) h _
    split
    · exact follows_postVec h1
    · exact h1

theorem follows_execVdResWrite {p v} (h : Follows s₀ s) :
    OnNext (Follows s₀) (execVdResWrite p v s) := by
  unfold execVdResWrite
  split
  · exact follows_modPart (follows_replayLog h)
  · exact follows_modPart h

theorem follows_execFunctionLevelReset {p} (h : Follows s₀ s) :
    OnNext (Follows s₀) (execFunctionLevelReset p s) :=
  h.like rfl

theorem follows_closeStage2 {f} (h : Follows s₀ s) :
    Follows s₀ (closeStage2 s f) :=
  follows_unholdCmds (h.like rfl)

theorem follows_retryCompletion {id} (h : Follows s₀ s) :
    Follows s₀ (retryCompletion s id) := by
  unfold retryCompletion
  split
  · exact h
  · exact follows_completionWrite (h.like rfl)

theorem follows_answerCall {n i v} (h : Follows s₀ s) :
    Follows s₀ (answerCall s n i v) := by
  unfold answerCall
  extract_lets t
  have ht : Follows s₀ t := h.like rfl
  exact (follows_send (t := (getS i.word).t0) (v := v) ht).like rfl

theorem follows_execHfqRelease {p seq} (h : Follows s₀ s) :
    OnNext (Follows s₀) (execHfqRelease p seq s) := by
  unfold execHfqRelease
  dsimp only
  split
  · split
    · exact follows_retryCompletion (follows_closeStage2 h)
    · exact follows_closeStage2 h
    · exact follows_finishEnding (follows_closeStage2 h)
  · split
    · exact follows_answerCall h
    · exact h

theorem follows_failAccess {r} (h : Follows s₀ s) :
    Follows s₀ (failAccess s r) := by
  unfold failAccess
  dsimp only
  split
  · next n i _ =>
    have ht : Follows s₀ { s with cur := i, waits := dropAt n s.waits } := h.like rfl
    exact (follows_faultRec (r := { r with code := F_PROT, seq := 0 }) ht).like rfl
  · split
    · exact follows_freezeRegion h
    · split
      · split
        · exact follows_haltFrame h
        · split
          · exact follows_enterBlock h
          · exact h
      · exact h

theorem follows_haltPart {p} (h : Follows s₀ s) :
    Follows s₀ (haltPart s p) :=
  h.like rfl

theorem follows_execHfqAbort {p seq} (h : Follows s₀ s) :
    OnNext (Follows s₀) (execHfqAbort p seq s) := by
  unfold execHfqAbort
  dsimp only
  split
  · split
    · exact follows_haltPart (h.like rfl)
    · split
      · exact follows_deliverN (h.like rfl)
      · exact h.like rfl
    · exact follows_deliverN (h.like rfl)
    · exact follows_failAccess (h.like rfl)
  · split
    · exact follows_answerCall h
    · exact h

theorem follows_retryAborted {p} (h : Follows s₀ s) :
    Follows s₀ (retryAborted s p) :=
  follows_unholdCmds (h.like rfl)

theorem follows_execPreCtlUnhalt {p} (h : Follows s₀ s) :
    OnNext (Follows s₀) (execPreCtlUnhalt p s) := by
  unfold execPreCtlUnhalt
  split
  · exact follows_finishEnding (follows_modPart (follows_retryAborted h))
  · split
    · exact follows_preErr h
    · exact h

/-! ### The ordered class -/

theorem follows_linkFault {port} (h : Follows s₀ s) :
    Follows s₀ (linkFault s port) :=
  follows_hfqFault h

theorem follows_raiseWmi {k w} (h : Follows s₀ s) :
    Follows s₀ (raiseWmi s k w) :=
  follows_modPort h

theorem follows_raiseFront {x} (h : Follows s₀ s) :
    Follows s₀ (raiseFront s x) :=
  follows_modPkg h rfl

theorem follows_deliverBar {q c own} (h : Follows s₀ s) :
    Follows s₀ (deliverBar s q c own) := by
  unfold deliverBar
  generalize arriveBar (barOf s q 5 0 c.ch) c.n = r
  cases r with
  | none => exact iteInduction (fun _ => h.like rfl) fun _ => h
  | some x => exact iteInduction (fun _ => h.like rfl) fun _ => follows_putBar (b := x.1) h

theorem follows_deliverOne {p} (h : Follows s₀ s) :
    Follows s₀ (deliverOne s p).1 := by
  unfold deliverOne
  dsimp only
  split
  · exact follows_raiseFront (follows_modPkg h rfl)
  · split
    · exact follows_raiseFront (follows_deliverBar h)
    · split
      · exact follows_raiseFront (follows_modPart h)
      · split
        · split
          · next e => exact follows_raiseFront (follows_modPart (Follows.of_ok e (follows_cellarItem h)))
          · next e => exact Follows.of_error e (follows_cellarItem h)
        · exact h

theorem follows_deliverEach {x0 x1 x2} (h : Follows s₀ s) :
    Follows s₀ (deliverEach x0 x1 x2 s).1 := by
  induction x0 generalizing x1 x2 s with
  | nil => exact h
  | cons x l ih =>
    refine iteInduction (motive := fun x : State × List (Nat × Packet) => Follows s₀ x.1) (fun _ => ih h) fun _ => ?_
    split
    · next e => exact ih (Follows.of_fst e (follows_deliverOne h))
    · next e => exact ih (Follows.of_fst e (follows_deliverOne h))

theorem follows_readmitPorts (h : Follows s₀ s) :
    Follows s₀ (readmitPorts s) :=
  follows_modPkg h rfl

theorem follows_noteMin (h : Follows s₀ s) :
    Follows s₀ (noteMin s) := by
  unfold noteMin
  dsimp only
  split
  · exact follows_modPkg h rfl
  · exact follows_modPkg h rfl

theorem follows_deliverOrd (h : Follows s₀ s) :
    Follows s₀ (deliverOrd s) :=
  follows_noteMin (follows_modPkg (follows_deliverEach (follows_modPkg (follows_readmitPorts h) rfl)) rfl)

theorem follows_execOrderedHoldMove {p} (h : Follows s₀ s) :
    OnNext (Follows s₀) (execOrderedHoldMove p s) := by
  unfold execOrderedHoldMove
  dsimp only
  split
  · exact follows_deliverOrd (follows_refillOrq h)
  · exact follows_refillOrq h

theorem follows_bufferPacket {port p} (h : Follows s₀ s) :
    Follows s₀ (bufferPacket s port p) := by
  unfold bufferPacket
  dsimp only
  split
  · split
    · exact follows_modPkg h rfl
    · exact follows_linkFault (follows_modPkg h rfl)
  · exact follows_modPkg h rfl

theorem follows_forwardPacket {p} (h : Follows s₀ s) :
    Follows s₀ (forwardPacket s p) := by
  unfold forwardPacket
  dsimp only
  split
  · exact follows_modPort h
  · exact h

theorem follows_takePacket {port p} (h : Follows s₀ s) :
    Follows s₀ (takePacket s port p) := by
  unfold takePacket
  dsimp only
  split
  · exact follows_linkFault h
  · refine follows_deliverOrd ?_
    split
    · exact follows_bufferPacket (follows_raiseWmi h)
    · exact follows_forwardPacket (follows_raiseWmi h)

theorem follows_execOrdPacketArrival {port hdr payload} (h : Follows s₀ s) :
    OnNext (Follows s₀) (execOrdPacketArrival port hdr payload s) := by
  unfold execOrdPacketArrival
  dsimp only
  exact iteInduction (fun _ => h) fun _ => follows_takePacket h

theorem follows_heedParent {port stamp} (h : Follows s₀ s) :
    Follows s₀ (heedParent s port stamp) := by
  unfold heedParent
  dsimp only
  split
  · exact h
  · split
    · exact h
    · exact iteInduction (fun _ => follows_linkFault (follows_modPkg h rfl)) fun _ => follows_modPkg h rfl

theorem follows_takeBeacon {port hdr} (h : Follows s₀ s) :
    Follows s₀ (takeBeacon s port hdr) := by
  unfold takeBeacon
  split
  · exact follows_linkFault h
  · exact follows_deliverOrd (follows_heedParent (follows_raiseWmi h))

theorem follows_execBeaconReceive {port hdr} (h : Follows s₀ s) :
    OnNext (Follows s₀) (execBeaconReceive port hdr s) := by
  unfold execBeaconReceive
  split
  · exact h
  · exact follows_takeBeacon h

theorem follows_execOrdExclWrite {v} (h : Follows s₀ s) :
    OnNext (Follows s₀) (execOrdExclWrite v s) :=
  follows_deliverOrd (follows_modPkg h rfl)

theorem follows_execFWmstall (h : Follows s₀ s) :
    OnNext (Follows s₀) (execFWmstall s) := by
  unfold execFWmstall
  dsimp only
  split
  · exact h
  · exact follows_hfqFault (follows_modPkg h rfl)

/-! ### Ports -/

theorem follows_chargeInfra {n} (h : Follows s₀ s) :
    Follows s₀ (chargeInfra s n) :=
  follows_modPkg h rfl

theorem follows_chargeFlits {p n} (h : Follows s₀ s) :
    Follows s₀ (chargeFlits s p n) := by
  unfold chargeFlits
  split
  · exact follows_chargeInfra h
  · split
    · exact follows_charge h
    · exact follows_charge h
    · exact follows_chargeInfra h

theorem follows_transmit {k} (h : Follows s₀ s) :
    Follows s₀ (transmit s k) := by
  unfold transmit
  dsimp only
  split
  · exact h
  · split
    · exact h
    · split
      · exact h
      · split
        · exact h
        · exact follows_chargeFlits (follows_modPort h)

theorem follows_execBeaconSend {port} (h : Follows s₀ s) :
    OnNext (Follows s₀) (execBeaconSend port s) := by
  unfold execBeaconSend
  dsimp only
  split
  · exact h
  · split
    · exact h
    · split
      · exact h
      · exact follows_chargeInfra (follows_modPort (follows_freshWord h))

theorem follows_loseCopies {x} (h : Follows s₀ s) :
    Follows s₀ (loseCopies s x) :=
  h.like rfl

theorem follows_closePort {k state} (h : Follows s₀ s) :
    Follows s₀ (closePort s k state) := by
  unfold closePort
  split
  · exact h
  · exact follows_deliverOrd (follows_modPort (follows_loseCopies h))

theorem follows_portDown {k} (h : Follows s₀ s) :
    Follows s₀ (portDown s k) :=
  follows_linkFault (follows_modPort (follows_closePort h))

theorem follows_execLeaveFlit {port} (h : Follows s₀ s) :
    OnNext (Follows s₀) (execLeaveFlit port s) := by
  unfold execLeaveFlit
  split
  · exact follows_closePort h
  · exact h

theorem follows_landPacket {port p} (h : Follows s₀ s) :
    Follows s₀ (landPacket s port p) := by
  unfold landPacket
  split
  · exact follows_takePacket h
  · split
    · exact follows_takeBeacon h
    · exact h

theorem follows_acceptFlit {port x f} (h : Follows s₀ s) :
    Follows s₀ (acceptFlit s port x f) := by
  unfold acceptFlit
  dsimp only
  split
  · split
    · exact follows_takePacket (follows_modPort h)
    · exact follows_landPacket (follows_modPort h)
  · exact follows_modPort h

theorem follows_sendCtl {k c} (h : Follows s₀ s) :
    Follows s₀ (sendCtl s k c) :=
  follows_chargeInfra (follows_modPort h)

theorem follows_askAgain {k x} (h : Follows s₀ s) :
    Follows s₀ (askAgain s k x) :=
  follows_sendCtl (follows_modPort h)

theorem follows_goBack {port x fseq} (h : Follows s₀ s) :
    Follows s₀ (goBack s port x fseq) := by
  unfold goBack
  dsimp only
  split
  · exact follows_portDown (follows_modPort h)
  · exact follows_chargeInfra (follows_modPort h)

theorem follows_loseLane {port lane} (h : Follows s₀ s) :
    Follows s₀ (loseLane s port lane) := by
  unfold loseLane
  split
  · exact follows_portDown h
  · exact follows_sendCtl (follows_modPort h)

theorem follows_checkLanes {port} (h : Follows s₀ s) :
    Follows s₀ (checkLanes s port) := by
  unfold checkLanes
  split
  · exact follows_loseLane h
  · exact h

theorem follows_receiveFlit {port x flit} (h : Follows s₀ s) :
    Follows s₀ (receiveFlit s port x flit) := by
  unfold receiveFlit
  dsimp only
  split
  · exact follows_askAgain h
  · split
    · exact follows_checkLanes (follows_askAgain h)
    · split
      · exact follows_goBack h
      · split
        · exact follows_checkLanes (follows_modPort h)
        · split
          · exact h
          · exact follows_checkLanes (follows_acceptFlit h)

theorem follows_execFlitReceive {port flit} (h : Follows s₀ s) :
    OnNext (Follows s₀) (execFlitReceive port flit s) := by
  unfold execFlitReceive
  split
  · split
    · exact follows_receiveFlit h
    · exact h
  · exact h

theorem follows_execFlitReplay {port fseq} (h : Follows s₀ s) :
    OnNext (Follows s₀) (execFlitReplay port fseq s) := by
  unfold execFlitReplay
  split
  · exact h
  · split
    · exact h
    · exact follows_goBack h

theorem follows_execLaneSpare {port lane} (h : Follows s₀ s) :
    OnNext (Follows s₀) (execLaneSpare port lane s) := by
  unfold execLaneSpare
  split
  · exact follows_loseLane h
  · exact h

theorem follows_chooseParent {s0} (h : Follows s₀ s0) :
    Follows s₀ (chooseParent s0) := by
  unfold chooseParent
  dsimp only
  split
  · exact follows_linkFault (follows_modPkg h rfl)
  · exact follows_modPkg h rfl

theorem follows_failTraining {k} (h : Follows s₀ s) :
    Follows s₀ (failTraining s k) :=
  follows_modPort h

theorem follows_portReady {k} (h : Follows s₀ s) :
    Follows s₀ (portReady s k) := by
  unfold portReady
  dsimp only
  refine follows_modPkg ?_ rfl
  refine follows_modPort ?_
  split
  · exact h
  · exact follows_modPkg h rfl

theorem follows_lockTime {k i} (h : Follows s₀ s) :
    Follows s₀ (lockTime s k i) := by
  unfold lockTime
  dsimp only
  have hparent {n f g} (hg : clock (modPkg s g) = clock s) : Follows s₀ (chooseParent (modPort (modPkg s g) n f)) :=
    follows_chooseParent (follows_modPort (follows_modPkg h hg))
  exact iteInduction (fun _ => follows_portReady (hparent rfl)) fun _ => follows_failTraining (hparent rfl)

theorem follows_execPortTraining {port info} (h : Follows s₀ s) :
    OnNext (Follows s₀) (execPortTraining port info s) := by
  unfold execPortTraining
  split
  · exact h
  · refine iteInduction (fun _ => h) fun _ => ?_
    refine iteInduction (fun _ => ?_) fun _ => ?_
    · split
      · exact follows_modPort h
      · exact h
    refine iteInduction (fun _ => follows_failTraining h) fun _ => ?_
    refine iteInduction (fun _ => follows_modPort h) fun _ => ?_
    exact iteInduction (fun _ => follows_modPort h) fun _ => follows_lockTime h

theorem follows_execTrainingRetry {port} (h : Follows s₀ s) :
    OnNext (Follows s₀) (execTrainingRetry port s) := by
  unfold execTrainingRetry
  split
  · exact h
  · split
    · exact follows_modPort h
    · exact h

/-! ### Moving work between bays (Reloc) -/

theorem follows_moveRegion {r f} (h : Follows s₀ s) :
    Follows s₀ (moveRegion s r f) :=
  h.like rfl

theorem follows_bringFrame {fr bay row bs} (h : Follows s₀ s) :
    Follows s₀ (bringFrame s fr bay row bs) :=
  h.like rfl

theorem follows_moveFrame {fr bay row} (h : Follows s₀ s) :
    Follows s₀ (moveFrame s fr bay row) :=
  h.like rfl

theorem follows_moveSpilled {fr bay} (h : Follows s₀ s) :
    Follows s₀ (moveSpilled s fr bay) :=
  h.like rfl

theorem wf_foldl_wrByte {f : Host.Cell → Nat} (l : List Host.Cell) {m : Memory} (h : Memory.wf m = true) :
    Memory.wf (l.foldl (fun m c => wrByte m (f c) c.2) m) = true := by
  induction l generalizing m with
  | nil => exact h
  | cons c l ih => exact ih (Memory.wf_wrByte _ _ h)

theorem wf_moveBytes {m : Memory} (lo len to_ : Nat) (h : Memory.wf m = true) : Memory.wf (moveBytes m lo len to_) = true :=
  wf_foldl_wrByte _ (Memory.wf_clearRange _ _ (Memory.wf_clearRange _ _ h))

theorem follows_rekey {p x2 b} (h : Follows s₀ s) :
    Follows s₀ (rekey s p x2 b) := by
  exact ⟨h.mem, fun w => wf_moveBytes _ _ _ (h.shelf w), fun w => wf_moveBytes _ _ _ (h.acc w), h.clock⟩

theorem follows_renameBay {p x2 b} (h : Follows s₀ s) :
    Follows s₀ (renameBay s p x2 b) :=
  h.like rfl

theorem follows_clearKey {k} (h : Follows s₀ s) :
    Follows s₀ (clearKey s k) := by
  exact ⟨h.mem, fun w => Memory.wf_clearRange _ _ (h.shelf w), fun w => Memory.wf_clearRange _ _ (h.acc w), h.clock⟩

theorem follows_freshBay (h : Follows s₀ s) :
    Follows s₀ (freshBay s).2 :=
  h.like rfl

theorem follows_departFrame {l fr} (h : Follows s₀ s) :
    Follows s₀ (departFrame l s fr) := by
  unfold departFrame
  dsimp only
  split
  · split
    · next e => exact Follows.of_error e (follows_dirWrite h)
    · next e2 =>
      split
      · exact follows_moveFrame (Follows.of_ok e2 (follows_dirWrite h))
      · exact follows_bringFrame (Follows.of_ok e2 (follows_dirWrite h))
  · split
    · split
      · next e => exact follows_moveSpilled (Follows.of_ok e (follows_spillFrame h))
      · next e => exact Follows.of_error e (follows_spillFrame h)
    · exact h

theorem follows_departRegion {l r} (h : Follows s₀ s) :
    Follows s₀ (departRegion l s r) := by
  unfold departRegion
  dsimp only
  split
  · split
    · exact follows_moveRegion h
    · exact h
  · split
    · next e => exact Follows.of_error e (follows_atticTouch h)
    · next e => exact follows_moveRegion (follows_freshBay (Follows.of_ok e (follows_atticTouch h)))

theorem follows_departRest {l p bay} (h : Follows s₀ s) :
    Follows s₀ (departRest l s p bay) := by
  unfold departRest
  refine foldl_keeps (fun _ _ ht => follows_moveSpilled ht) ?_ _
  exact h.like rfl

theorem follows_passKeys {p x1 x2} (h : Follows s₀ s) :
    Follows s₀ (passKeys p x1 x2 s) := by
  induction x1 generalizing x2 s with
  | nil => exact h
  | cons x rest ih =>
    cases x2 with
    | nil => exact ih (follows_modPart (follows_rekey (follows_freshBay h)))
    | cons a more => exact ih (follows_renameBay (follows_rekey h))

theorem follows_departKeys {p gone come} (h : Follows s₀ s) :
    Either (Follows s₀) (departKeys p gone come s) := by
  unfold departKeys
  split
  · next e => exact Follows.of_error e (follows_cellarItem h)
  · next e => exact follows_passKeys (Follows.of_ok e (follows_cellarItem h))

theorem follows_departWork {l order p bay} (h : Follows s₀ s) :
    Follows s₀ (departWork l order p s bay) := by
  have hframes := foldl_keeps (P := Follows s₀) (f := departFrame l) (fun _ _ ht => follows_departFrame ht) h
  exact follows_departRest (foldl_keeps (P := Follows s₀) (fun _ _ ht => follows_departRegion ht) (hframes _) _)

theorem follows_placeParked {p} (h : Follows s₀ s) :
    Follows s₀ (placeParked s p) := by
  unfold placeParked
  dsimp only
  split
  · exact h
  · refine foldl_keeps (P := Follows s₀) (fun _ _ h => ?_) (foldl_keeps (P := Follows s₀) (fun _ _ ht => follows_departFrame ht) h _) _
    split
    · exact h
    · split
      · next e => exact Follows.of_error e (follows_atticTouch h)
      · next e4 =>
        split
        · exact follows_pairRegion (follows_moveRegion (Follows.of_ok e4 (follows_atticTouch h)))
        · exact Follows.of_ok e4 (follows_atticTouch h)

end Sys2Proof.Machine
end

section
/-! What follows through resizing, partitions, pre-emption, management and the window. Each proof follows the branches of its function. -/
namespace Sys2Proof.Machine

variable {s₀ s : State}

/-! ### Resizing -/

theorem follows_putResult {pa v} (h : Follows s₀ s) :
    Follows s₀ (putResult s pa v) := by
  unfold putResult
  split
  · exact follows_pokeBytes h
  · exact h

theorem follows_resizeErr {p e} (h : Follows s₀ s) :
    Follows s₀ (resizeErr s p e) :=
  follows_refuseWrite (follows_modPart h)

theorem follows_execResizeGo {p v} (h : Follows s₀ s) :
    OnNext (Follows s₀) (execResizeGo p v s) := by
  unfold execResizeGo
  dsimp only
  split
  · exact follows_modPart h
  · split
    · exact follows_resizeErr h
    · split
      · exact follows_refuseWrite h
      · split
        · exact follows_putResult (follows_modPart h)
        · split
          · exact follows_putResult (follows_modPart h)
          · exact follows_modPart (follows_modPart h)

theorem follows_zeroRange {pa n} (h : Follows s₀ s) :
    Follows s₀ (zeroRange s pa n) := by
  exact ⟨fun w => Memory.wf_clearRange _ _ (h.mem w), h.shelf, h.acc, h.clock⟩

theorem follows_zeroGuest {p x1 x3 x4} (h : Follows s₀ s) :
    Either (Follows s₀) (zeroGuest p x1 s x3 x4) := by
  induction x1 generalizing s x3 x4 with
  | zero =>
    exact h
  | succ k ih =>
    unfold zeroGuest
    dsimp only
    split
    · exact h
    · split
      · next e => exact Follows.of_errorFst e (follows_devAddr h)
      · next e => exact ih (follows_zeroRange (Follows.of_okFst e (follows_devAddr h)))

theorem follows_putDir {p first x2} (h : Follows s₀ s) :
    Either (Follows s₀) (putDir p first x2 s) := by
  induction x2 generalizing s with
  | nil =>
    exact h
  | cons x l ih =>
    unfold putDir
    split
    · next e => exact Follows.of_errorFst e (follows_devAddr h)
    · next e => exact ih (follows_pokeBytes (Follows.of_okFst e (follows_devAddr h)))

theorem follows_getDir {p x1} (h : Follows s₀ s) :
    OnError (Follows s₀) (getDir p x1 s) := by
  induction x1 with
  | nil => trivial
  | cons f l ih =>
    unfold getDir
    split
    · next e => exact Follows.of_errorFst e (follows_devAddr h)
    · next e _ => exact Follows.of_onError e ih
    · trivial

theorem follows_rewriteDir {p r} (h : Follows s₀ s) :
    Either (Follows s₀) (rewriteDir s p r) := by
  unfold rewriteDir
  split
  · next e => exact Follows.of_onError e (follows_getDir h)
  · next e3 _ => exact Follows.of_error e3 (follows_devTouch h)
  · next e5 =>
    split
    · next e => exact Follows.of_error e (follows_zeroGuest (Follows.of_ok e5 (follows_devTouch h)))
    · next e => exact follows_putDir (Follows.of_ok e (follows_zeroGuest (Follows.of_ok e5 (follows_devTouch h))))

theorem follows_departAll {p order} (h : Follows s₀ s) :
    Follows s₀ (departAll s p order) :=
  foldl_keeps (P := Follows s₀) (fun _ _ ht => follows_departWork ht) h _

theorem follows_toStep {p k} (h : Follows s₀ s) :
    Follows s₀ (toStep s p k) :=
  h.like rfl

theorem follows_endMigration {p} (h : Follows s₀ s) :
    Follows s₀ (endMigration s p) := by
  unfold endMigration
  dsimp only
  split
  · exact h
  · split
    · exact follows_toStep h
    · split
      · next e => exact follows_toStep (Follows.of_ok e (follows_rewriteDir h))
      · next e => exact Follows.of_error e (follows_rewriteDir h)

theorem follows_execResizeMigrate {p order} (h : Follows s₀ s) :
    OnNext (Follows s₀) (execResizeMigrate p order s) := by
  unfold execResizeMigrate
  dsimp only
  split
  · exact h
  · split
    · split
      · split
        · next e =>
          refine Follows.of_error e ?_
          split
          · exact h
          · exact follows_departKeys h
        · next e1 =>
          refine follows_endMigration ?_
          refine follows_departAll ?_
          refine follows_toStep ?_
          refine Follows.of_ok e1 ?_
          split
          · exact h
          · exact follows_departKeys h
      · exact h
    · split
      · exact follows_endMigration (follows_departAll h)
      · exact h

theorem follows_execResizeSliceRehash {p} (h : Follows s₀ s) :
    OnNext (Follows s₀) (execResizeSliceRehash p s) := by
  unfold execResizeSliceRehash
  dsimp only
  split
  · exact h
  · exact follows_modPart (h.like rfl)

theorem follows_moveLine {x pa} (h : Follows s₀ s) :
    Follows s₀ (moveLine s x pa) := by
  unfold moveLine
  extract_lets slice t
  have ht : Follows s₀ t := follows_l2Room (s := { s with l2 := s.l2.erase x }) (h.like rfl)
  exact ht.like rfl

theorem follows_movePage {p l to_} (h : Follows s₀ s) :
    Follows s₀ (movePage s p l to_) := by
  unfold movePage
  dsimp only
  refine follows_pokeBytes ?_
  refine follows_charge ?_
  refine foldl_keeps (fun _ _ ht => follows_moveLine ht) ?_ _
  exact ⟨fun w => wf_foldl_wrByte _ (Memory.wf_clearRange _ _ (h.mem w)), h.shelf, h.acc, h.clock⟩

theorem follows_moveChans {p pairs} (h : Follows s₀ s) :
    Follows s₀ (moveChans s p pairs) := by
  unfold moveChans
  refine foldl_keeps (P := Follows s₀) (fun _ _ h => ?_) h _
  split
  · exact follows_movePage h
  · exact h

theorem follows_execResizeChannelRehash {p} (h : Follows s₀ s) :
    OnNext (Follows s₀) (execResizeChannelRehash p s) := by
  unfold execResizeChannelRehash
  dsimp only
  split
  · exact h
  · exact follows_modPart (follows_moveChans h)

theorem follows_scrubChan {p c} (h : Follows s₀ s) :
    Follows s₀ (scrubChan p s c) := by
  exact ⟨fun w => Memory.wf_clearRange _ _ (h.mem w), h.shelf, h.acc, h.clock⟩

theorem follows_freeSlots {l} (h : Follows s₀ s) :
    Follows s₀ (freeSlots s l) := by
  exact h.like rfl

theorem follows_execResizeScrub {p} (h : Follows s₀ s) :
    OnNext (Follows s₀) (execResizeScrub p s) := by
  unfold execResizeScrub
  dsimp only
  split
  · exact h
  · refine follows_releaseAll (follows_toStep (follows_freeSlots ?_))
    refine foldl_keeps (fun _ _ ht => follows_scrubChan ht) ?_ _
    exact foldl_keeps (fun _ _ ht => follows_clearKey ht) h _

theorem follows_execResizeComplete {p} (h : Follows s₀ s) :
    OnNext (Follows s₀) (execResizeComplete p s) := by
  unfold execResizeComplete
  dsimp only
  split
  · exact h
  · split
    · exact follows_interrupt (follows_freshWord (follows_wakeAll (follows_putResult (follows_modPart h))))
    · exact follows_wakeAll (follows_putResult (follows_modPart h))

/-! ### Partitions and pre-emption -/

theorem follows_zeroPages {p x1 x3 x4} (h : Follows s₀ s) :
    Follows s₀ (zeroPages p x1 s x3 x4).1 := by
  induction x1 generalizing s x3 x4 with
  | zero => exact h
  | succ k ih =>
    unfold zeroPages
    split
    · exact h
    · dsimp only
      split
      · exact h
      · next e => exact ih (follows_zeroRange (tracks.devWalk h e))

theorem follows_createPart {p w} (h : Follows s₀ s) :
    Follows s₀ (createPart s p w) := by
  unfold createPart
  dsimp only
  split
  · exact follows_refuseWrite h
  · split
    · next e => exact follows_refuseWrite (Follows.of_fst e (follows_zeroPages h))
    · next e => exact follows_modPart (Follows.of_fst e (follows_zeroPages h))

theorem follows_execPartitionCreate {p} (h : Follows s₀ s) :
    OnNext (Follows s₀) (execPartitionCreate p s) := by
  unfold execPartitionCreate
  split
  · exact h
  · exact follows_createPart h

theorem follows_dropWork {p} (h : Follows s₀ s) :
    Follows s₀ (dropWork s p) :=
  h.like rfl

theorem follows_wipePart {p} (h : Follows s₀ s) :
    Follows s₀ (wipePart s p) := by
  refine follows_releaseAll (follows_modPart ?_)
  refine foldl_keeps (fun _ _ ht => follows_scrubChan ht) ?_ _
  exact foldl_keeps (fun _ _ ht => follows_clearKey ht) (follows_dropWork (follows_freeSlots h)) _

theorem follows_execPartitionDestroy {p} (h : Follows s₀ s) :
    OnNext (Follows s₀) (execPartitionDestroy p s) := by
  unfold execPartitionDestroy
  dsimp only
  split
  · exact h
  · split
    · exact follows_resizeErr h
    · split
      · exact follows_wipePart (follows_modPart h)
      · exact follows_modPart h

theorem follows_execPartitionEntryWrite {p off v} (h : Follows s₀ s) :
    OnNext (Follows s₀) (execPartitionEntryWrite p off v s) := by
  unfold execPartitionEntryWrite
  dsimp only
  split
  · exact follows_refuseWrite h
  · split
    · split
      · exact follows_modPart h
      · split
        · exact follows_modPart h
        · split
          · refine follows_execPartitionDestroy ?_
            split
            · exact h
            · exact follows_modPart h
          · split
            · exact follows_resizeErr h
            · exact follows_refuseWrite h
    · split
      · exact follows_createPart h
      · exact follows_modPart h

theorem follows_execPreCtlSave {p} (h : Follows s₀ s) :
    OnNext (Follows s₀) (execPreCtlSave p s) := by
  unfold execPreCtlSave
  dsimp only
  split
  · exact follows_refuseWrite h
  · split
    · exact follows_preErr h
    · split
      · exact follows_preErr h
      · split
        · exact follows_modPart h
        · exact follows_modPart h

theorem follows_shiftBay {p x2 b} (h : Follows s₀ s) :
    Follows s₀ (shiftBay s p x2 b) := by
  refine follows_rekey (follows_departRest ?_)
  refine foldl_keeps (fun _ _ ht => follows_moveRegion ht) ?_ _
  exact foldl_keeps (fun _ _ ht => follows_bringFrame ht) h _

theorem follows_saveBay {p b} (h : Follows s₀ s) :
    Follows s₀ (saveBay p s b) :=
  follows_modPart (follows_shiftBay (follows_freshBay h))

theorem follows_saveTouch {p bays store} (h : Follows s₀ s) :
    EitherFst (Follows s₀) (saveTouch s p bays store) := by
  unfold saveTouch
  extract_lets back
  split
  · next e => exact follows_modPart (Follows.of_error e (follows_devTouch (follows_modPart h)))
  · next t e =>
    have ht := Follows.of_ok e (follows_devTouch (follows_modPart h))
    have hd := follows_devAddr (p := p) (gpa := (entWord t p 19).toNat) (store := store) ht
    generalize devAddr t p (entWord t p 19).toNat store = x at hd ⊢
    cases x with
    | error u => exact hd
    | ok x => exact follows_modPart hd

theorem follows_execPreemptSettled {p} (h : Follows s₀ s) :
    OnNext (Follows s₀) (execPreemptSettled p s) := by
  unfold execPreemptSettled
  dsimp only
  split
  · exact h
  · split
    · next e => exact Follows.of_errorFst e (follows_saveTouch h)
    · next e1 =>
      have htouch := Follows.of_okFst e1 (follows_saveTouch h)
      exact follows_modPart (follows_pokeBytes (foldl_keeps (fun _ _ ht => follows_saveBay ht) htouch _))

theorem follows_rewalk {p} (h : Follows s₀ s) :
    Follows s₀ (rewalk s p) := by
  unfold rewalk
  refine foldl_keeps (fun _ _ ht => follows_retryCompletion ht) ?_ _
  exact follows_unholdCmds (s := { s with pageFaults := s.pageFaults.filter fun f => f.part != p || stillFaults s f }) (h.like rfl)

theorem follows_restoreBays {p} (h : Follows s₀ s) :
    Either (Follows s₀) (restoreBays s p) := by
  unfold restoreBays
  dsimp only
  split
  · next e => exact Follows.of_error e (follows_cellarItem h)
  · next e1 =>
    have hitem := Follows.of_ok e1 (follows_cellarItem h)
    refine foldl_keeps (P := Follows s₀) (fun _ _ ht => follows_departWork ht) (follows_passKeys ?_) _
    exact foldl_keeps (fun _ _ ht => follows_shiftBay ht) (follows_modPart hitem) _

theorem follows_releaseHv {p} (h : Follows s₀ s) :
    Follows s₀ (releaseHv s p) :=
  foldl_keeps (P := Follows s₀) (fun _ _ ht => follows_hfqWrite ht) (follows_modPart h) _

theorem follows_resumePart {p} (h : Follows s₀ s) :
    Follows s₀ (resumePart s p) := by
  unfold resumePart
  dsimp only
  refine foldl_keeps (P := Follows s₀) (fun _ _ h => ?_) (follows_rewalk (follows_wakeAll (follows_releaseHv (follows_modPart h)))) _
  split
  · exact follows_releaseTimed h
  · exact h

theorem follows_execPreCtlRestore {p} (h : Follows s₀ s) :
    OnNext (Follows s₀) (execPreCtlRestore p s) := by
  unfold execPreCtlRestore
  dsimp only
  split
  · exact follows_refuseWrite h
  · split
    · exact follows_preErr h
    · split
      · next e => exact Follows.of_errorFst e (follows_saveTouch h)
      · next e1 =>
        split
        · exact follows_preErr (follows_modPart (Follows.of_okFst e1 (follows_saveTouch h)))
        · split
          · next e => exact Follows.of_error e (follows_restoreBays (Follows.of_okFst e1 (follows_saveTouch h)))
          · next e => exact follows_resumePart (Follows.of_ok e (follows_restoreBays (Follows.of_okFst e1 (follows_saveTouch h))))

/-! ### Time -/

theorem follows_ageReady (h : Follows s₀ s) :
    Follows s₀ (ageReady s) :=
  h.like rfl

theorem follows_heldBays {p} (h : Follows s₀ s) :
    Follows s₀ (heldBays s p) := by
  unfold heldBays
  dsimp only
  refine foldl_keeps (P := Follows s₀) (fun _ _ h => ?_) h _
  split
  · exact follows_chargeFj h
  · exact follows_chargeFj (follows_freshWord h)

theorem follows_execBayHeldCalendarPeriod (h : Follows s₀ s) :
    OnNext (Follows s₀) (execBayHeldCalendarPeriod s) :=
  foldl_keeps (P := Follows s₀) (fun _ _ ht => follows_heldBays ht) h _

theorem follows_execEnergyReconciliation {rail} (h : Follows s₀ s) :
    OnNext (Follows s₀) (execEnergyReconciliation rail s) := by
  unfold execEnergyReconciliation
  dsimp only
  split
  · exact h
  · exact follows_modPkg (h.like rfl) rfl

theorem follows_execPkgPcapWrite {v} (h : Follows s₀ s) :
    OnNext (Follows s₀) (execPkgPcapWrite v s) := by
  unfold execPkgPcapWrite
  split
  · exact h
  · exact follows_modPkg h rfl

theorem follows_wdReport {p last} (h : Follows s₀ s) :
    Follows s₀ (wdReport s p last) :=
  follows_interrupt (follows_modPart h)

theorem follows_execWatchdogHit {p region x2 b} (h : Follows s₀ s) :
    OnNext (Follows s₀) (execWatchdogHit p region x2 b s) := by
  unfold execWatchdogHit
  dsimp only
  split
  · split
    · exact h
    · split
      · exact h
      · exact follows_wdReport (follows_freshWord (follows_modRegion h))
  · split
    · exact h
    · split
      · exact h
      · exact follows_wdReport (follows_modFrame h)

/-! ### Management -/

theorem follows_execBringUpPhase {ok failed} (h : Follows s₀ s) :
    OnNext (Follows s₀) (execBringUpPhase ok failed s) := by
  unfold execBringUpPhase
  dsimp only
  refine iteInduction (fun _ => follows_modPkg h (by cases ok <;> rfl)) fun _ => ?_
  refine iteInduction (fun _ => follows_modPkg h rfl) fun _ => ?_
  refine iteInduction (fun _ => ?_) fun _ => ?_
  · split
    · exact follows_modPkg h rfl
    · exact h
  refine iteInduction (fun _ => ?_) fun _ => ?_
  · split
    · exact follows_modPkg h rfl
    · exact h
  exact iteInduction (fun _ => follows_modPkg h rfl) fun _ => h

theorem follows_execFirmwareUpdate {image} (h : Follows s₀ s) :
    OnNext (Follows s₀) (execFirmwareUpdate image s) := by
  unfold execFirmwareUpdate
  split
  · exact follows_modPkg h rfl
  · exact h

theorem follows_execTrootWrite {v} (h : Follows s₀ s) :
    OnNext (Follows s₀) (execTrootWrite v s) := by
  unfold execTrootWrite
  split
  · exact follows_modPkg h rfl
  · exact h

theorem follows_destroyAll (h : Follows s₀ s) :
    Follows s₀ (destroyAll s) := by
  unfold destroyAll
  refine foldl_keeps (P := Follows s₀) (fun _ _ h => ?_) h _
  split
  · next e => exact Follows.of_next e (follows_execPartitionDestroy h)
  · exact h

theorem follows_leavePorts (h : Follows s₀ s) :
    Follows s₀ (leavePorts s) := by
  unfold leavePorts
  refine foldl_keeps (P := Follows s₀) (fun _ _ h => ?_) h _
  split
  · exact follows_sendCtl (follows_closePort h)
  · exact h

theorem follows_execQuiesceRequest {force} (h : Follows s₀ s) :
    OnNext (Follows s₀) (execQuiesceRequest force s) := by
  unfold execQuiesceRequest
  split
  · exact h
  · split
    · split
      · exact follows_modPkg h rfl
      · exact follows_destroyAll (follows_modPkg h rfl)
    · split
      · exact follows_destroyAll h
      · split
        · exact follows_leavePorts h
        · exact follows_modPkg h rfl
    · exact h

theorem follows_execQuiesceAbort (h : Follows s₀ s) :
    OnNext (Follows s₀) (execQuiesceAbort s) := by
  unfold execQuiesceAbort
  split
  · exact follows_modPkg h rfl
  · exact h

theorem follows_execAttReq {nonce} (h : Follows s₀ s) :
    OnNext (Follows s₀) (execAttReq nonce s) := by
  unfold execAttReq
  dsimp only
  split
  · exact h
  · exact follows_pokeBytes h

theorem follows_execKeySlotWrite {p k v} (h : Follows s₀ s) :
    OnNext (Follows s₀) (execKeySlotWrite p k v s) := by
  unfold execKeySlotWrite
  dsimp only
  split
  · exact h
  · exact follows_modPart h

theorem follows_execPcieLinkDown {link} (h : Follows s₀ s) :
    OnNext (Follows s₀) (execPcieLinkDown link s) :=
  follows_modPkg h rfl

theorem follows_guestRead {p x1 x3 x4} (h : Follows s₀ s) :
    Follows s₀ (guestRead p x1 s x3 x4).1 := by
  induction x1 generalizing s x3 x4 with
  | zero => exact h
  | succ k ih =>
    unfold guestRead
    split
    · exact h
    · dsimp only
      split
      · exact h
      · next e =>
        have hr := ih (x3 := x3 + Nat.min x4 (pow2 14 - x3 % pow2 14)) (x4 := x4 - Nat.min x4 (pow2 14 - x3 % pow2 14)) (tracks.devWalk h e)
        dsimp only
        exact follows_charge hr

theorem follows_guestWrite {p x1 x3 x4} (h : Follows s₀ s) :
    Follows s₀ (guestWrite p x1 s x3 x4) := by
  induction x1 generalizing s x3 x4 with
  | zero => exact h
  | succ k ih =>
    unfold guestWrite
    split
    · exact h
    · dsimp only
      split
      · exact h
      · next e => exact ih (follows_charge (follows_pokeBytes (tracks.devWalk h e)))

theorem follows_execHostBar2Access {p gpa size write} (h : Follows s₀ s) :
    OnNext (Follows s₀) (execHostBar2Access p gpa size write s) := by
  unfold execHostBar2Access
  dsimp only
  split
  · exact h
  · split
    · exact follows_guestWrite h
    · exact follows_guestRead h

/-! ### The window -/

theorem follows_zeroOnly {v clear} (h : Follows s₀ s) (hclear : ∀ t, Follows s₀ t → Follows s₀ (clear t)) :
    Follows s₀ (zeroOnly s v clear) := by
  unfold zeroOnly
  split
  · exact hclear _ h
  · exact follows_refuseWrite h

theorem follows_goOn {x1} (h : Follows s₀ s) (hx1 : OnNext (Follows s₀) x1) :
    Follows s₀ (goOn s x1) := by
  cases x1 with
  | next t => exact hx1
  | fault _ => exact h
  | refused _ => exact h

theorem follows_writePreCtl {p v} (h : Follows s₀ s) :
    Follows s₀ (writePreCtl p v s) := by
  unfold writePreCtl
  split
  · exact follows_preErr h
  · extract_lets t u
    have ht : Follows s₀ t := iteInduction (fun _ => follows_goOn h (follows_execPreCtlSave h)) fun _ => h
    have hu : Follows s₀ u := iteInduction (fun _ => follows_goOn ht (follows_execPreCtlRestore ht)) fun _ => ht
    exact iteInduction (fun _ => follows_goOn hu (follows_execPreCtlUnhalt hu)) fun _ => hu

theorem follows_writeSysReg {p n v} (h : Follows s₀ s) :
    Follows s₀ (writeSysReg p n v s) := by
  unfold writeSysReg
  refine iteInduction (fun _ => follows_goOn h (follows_execResizeGo h)) fun _ => ?_
  refine iteInduction (fun _ => follows_modPart h) fun _ => ?_
  refine iteInduction (fun _ => follows_modPart h) fun _ => ?_
  refine iteInduction (fun _ => follows_modPart h) fun _ => ?_
  refine iteInduction (fun _ => follows_zeroOnly h (fun _ ht => follows_modPart ht)) fun _ => ?_
  refine iteInduction (fun _ => follows_modPart h) fun _ => ?_
  exact iteInduction (fun _ => h) fun _ => follows_refuseWrite h

theorem follows_writeBlockReg {p o v} (h : Follows s₀ s) :
    Follows s₀ (writeBlockReg p o v s) := by
  unfold writeBlockReg
  refine iteInduction (fun _ => follows_writePreCtl h) fun _ => ?_
  refine iteInduction (fun _ => follows_modPart h) fun _ => ?_
  refine iteInduction (fun _ => follows_goOn h (follows_execVdResWrite h)) fun _ => ?_
  refine iteInduction (fun _ => ?_) fun _ => ?_
  · split
    · exact follows_modPart h
    · exact follows_refuseWrite h
  refine iteInduction (fun _ => ?_) fun _ => ?_
  · split
    · exact follows_modPart h
    · exact follows_refuseWrite h
  refine iteInduction (fun _ => follows_modPart h) fun _ => ?_
  refine iteInduction (fun _ => follows_zeroOnly h (fun _ ht => follows_modPart ht)) fun _ => ?_
  refine iteInduction (fun _ => follows_modPart h) fun _ => ?_
  refine iteInduction (fun _ => follows_zeroOnly h (fun _ ht => follows_modPart ht)) fun _ => ?_
  refine iteInduction (fun _ => follows_zeroOnly h (fun _ ht => follows_modPart ht)) fun _ => ?_
  exact iteInduction (fun _ => follows_goOn h (follows_execKeySlotWrite h)) fun _ => follows_refuseWrite h

theorem follows_writeBlock {p o v} (h : Follows s₀ s) :
    Follows s₀ (writeBlock p o v s) := by
  unfold writeBlock
  split
  · exact follows_writeSysReg h
  · exact follows_writeBlockReg h

theorem follows_writeAnswer {v} (h : Follows s₀ s) :
    Follows s₀ (writeAnswer v s) := by
  unfold writeAnswer
  dsimp only
  split
  · exact follows_refuseWrite h
  · split
    · exact h
    · split
      · exact follows_goOn h (follows_execHfqRelease h)
      · split
        · exact follows_goOn h (follows_execHfqAbort h)
        · exact h

theorem follows_writePkgReg {o v} (h : Follows s₀ s) :
    Follows s₀ (writePkgReg o v s) := by
  unfold writePkgReg
  refine iteInduction (fun _ => ?_) fun _ => ?_
  · split
    · exact follows_modPkg h rfl
    · exact h
  refine iteInduction (fun _ => ?_) fun _ => ?_
  · split
    · exact follows_goOn (follows_modPkg h rfl) (follows_execInvalidationSubmit (follows_modPkg h rfl))
    · exact follows_modPkg h rfl
  refine iteInduction (fun _ => follows_modPkg h rfl) fun _ => ?_
  refine iteInduction (fun _ => ?_) fun _ => ?_
  · split
    · exact h
    · exact follows_modPkg h rfl
  refine iteInduction (fun _ => ?_) fun _ => ?_
  · split
    · exact follows_modPkg h rfl
    · exact follows_refuseWrite h
  refine iteInduction (fun _ => ?_) fun _ => ?_
  · split
    · exact follows_hfqFlush (follows_modPkg h rfl)
    · exact follows_refuseWrite h
  refine iteInduction (fun _ => follows_hfqFlush (follows_modPkg h rfl)) fun _ => ?_
  refine iteInduction (fun _ => follows_zeroOnly h (fun _ ht => follows_modPkg ht rfl)) fun _ => ?_
  refine iteInduction (fun _ => follows_modPkg h rfl) fun _ => ?_
  refine iteInduction (fun _ => follows_writeAnswer h) fun _ => ?_
  refine iteInduction (fun _ => follows_goOn h (follows_execOrdExclWrite h)) fun _ => ?_
  refine iteInduction (fun _ => follows_zeroOnly h (fun _ ht => follows_modPkg ht rfl)) fun _ => ?_
  refine iteInduction (fun _ => follows_zeroOnly h (fun _ ht => follows_modPkg ht rfl)) fun _ => ?_
  refine iteInduction (fun _ => follows_zeroOnly h (fun _ ht => follows_modPkg ht rfl)) fun _ => ?_
  exact iteInduction (fun _ => follows_goOn h (follows_execAttReq h)) fun _ => follows_refuseWrite h

theorem follows_writeWindow {off size v} (h : Follows s₀ s) :
    Follows s₀ (writeWindow off size v s) := by
  unfold writeWindow
  split
  · exact follows_refuseWrite h
  · split
    · exact follows_writePkgReg h
    · split
      · exact follows_goOn h (follows_execPartitionEntryWrite h)
      · split
        · exact follows_writeBlock h
        · exact follows_refuseWrite h

theorem follows_execWindowRegisterWrite {off v} (h : Follows s₀ s) :
    OnNext (Follows s₀) (execWindowRegisterWrite off v s) := by
  unfold execWindowRegisterWrite
  split
  · exact follows_writeWindow h
  · exact h

end Sys2Proof.Machine
end

section
/-! The canonical form of the memories over every step (O53): an effect behind the shell leaves them, and what any other instruction
or event leaves follows from the state before it. Three events also move the clock. -/
namespace Sys2Proof.Machine

variable {s : State}

/-- What follows from a state of canonical memories is one. -/
theorem OnNext.memInv {x : Res} (h : OnNext (Follows s) x) (hs : MemInv s) : OnNext MemInv x := by
  cases x with
  | next t => exact Follows.inv h hs
  | fault _ => trivial
  | refused _ => trivial

theorem memInv_of_shelled {i : Instr} {pr : BitVec 2} {ts : List Tgt} (hi : shelled i = some (pr, ts)) (h : MemInv s) :
    OnNext MemInv (exec i s) := by
  obtain ⟨eff, hexec, hstays⟩ := exec_behindShell (s := s) hi
  rw [hexec]
  exact (stays_shell h (hstays h)).inv

/-! ### The events that move the clock -/

/-- A gang's issue charges its partition from the state in which the gang has left the ready queue. -/
theorem memInv_gangIssue {bay cell : Nat} (h : MemInv s) : OnNext MemInv (execGangIssue bay cell s) := by
  unfold execGangIssue
  split
  · exact h
  · split
    · exact h
    · extract_lets here
      split
      · exact h
      · extract_lets gang t u
        have ht : MemInv t := h
        have hu : Follows t u := follows_modPart (.refl t)
        exact Follows.inv (foldl_keeps (P := Follows t) (fun _ _ hv => follows_charge hv) hu gang) ht

/-- The state in which a cycle has passed, before anything moves in it. -/
def ticked (s : State) : State :=
  setWml (modPkg (ageReady { s with parts := (List.range s.parts.length).map (wdTick s), issued := [] }) tickPkg)

/-- What moves in a cycle: the ports transmit, packets are delivered, and waiting work is placed. -/
def moved (s : State) : State :=
  let t := deliverOrd ((List.range 24).foldl transmit s)
  ((List.range 64).filter (live t)).foldl placeParked t

theorem follows_moved {s₀ : State} (h : Follows s₀ s) : Follows s₀ (moved s) :=
  foldl_keeps (P := Follows s₀) (fun _ _ ht => follows_placeParked ht)
    (follows_deliverOrd (foldl_keeps (P := Follows s₀) (fun _ _ ht => follows_transmit ht) h _)) _

theorem execPodTimeTick_eq : execPodTimeTick s =
    .next (if periodEnd (moved (ticked s)) then { moved (ticked s) with script := (moved (ticked s)).script ++ [.ev .bayHeldCalendarPeriod] }
      else moved (ticked s)) := rfl

theorem memInv_podTimeTick (h : MemInv s) : OnNext MemInv (execPodTimeTick s) := by
  have ht : MemInv (ticked s) := h
  have hm : MemInv (moved (ticked s)) := (follows_moved (.refl _)).inv ht
  rw [execPodTimeTick_eq]
  cases periodEnd (moved (ticked s)) with
  | false => exact hm
  | true => exact hm

/-- A reset of the package keeps the host's memory and no other byte. -/
theorem memInv_packageReset (h : MemInv s) : OnNext MemInv (execPackageReset s) := ⟨Memory.wf_filter _ h.1, rfl, rfl⟩

/-! ### Every instruction and every step -/

theorem exec_memInv (i : Instr) (h : MemInv s) : OnNext MemInv (exec i s) := by
  have hf := Follows.refl s
  have of {x : Res} (hx : OnNext (Follows s) x) : OnNext MemInv x := hx.memInv h
  cases i
  case mov f | mov4 f | const f | consth f | null f | add f | sub f | mul f | mulh f | mad f | div f | rem f | neg f | abs f | min f |
      max f | and f | or f | xor f | andn f | orn f | not f | shl f | shr f | sha f | rot f | clz f | ctz f | popc f | brev f | bfx f |
      bfi f | sel f | sext f | zext f | adda f | lea f | alignd f | canon f | cmp _ f | tst f | fadd f | fsub f | fmul f | fma f |
      fmin f | fmax f | fabs f | fneg f | fcpsgn f | fdiv f | fsqrt f | frcp f | frsq f | fexp2 f | flog2 f | ftanh f | fround f |
      fclass f | fcmp _ f | fdot2 f | cvtfi f | cvtif f | fcvt f | fwid f | pack2 f | unpack f | gate f | join f | eos f | skadd f |
      sknorm f | skrd f | skclr f | collapseMix f | collapseCdf f | tnow f | equery f | rdsr f | wrsr f | trap f => exact memInv_of_shelled rfl h
  case nop => exact of (follows_execNop hf)
  case read f => exact of (follows_execRead hf)
  case steer f => exact of (follows_execSteer hf)
  case mergeU f => exact of (follows_execMergeU hf)
  case mergeO f => exact of (follows_execMergeO hf)
  case red f => exact of (follows_execRed hf)
  case wadv f => exact of (follows_execWadv hf)
  case wreset f => exact of (follows_execWreset hf)
  case kbound f => exact of (follows_execKbound hf)
  case eosq f => exact of (follows_execEosq hf)
  case exit f => exact of (follows_execExit hf)
  case exitg f => exact of (follows_execExitg hf)
  case call f => exact of (follows_execCall hf)
  case ret f => exact of (follows_execRet hf)
  case spawn f => exact of (follows_execSpawn hf)
  case joinc f => exact of (follows_execJoinc hf)
  case gcall f => exact of (follows_execGcall hf)
  case gret f => exact of (follows_execGret hf)
  case cfgreq f => exact of (follows_execCfgreq hf)
  case cfgrel f => exact of (follows_execCfgrel hf)
  case cfgtok f => exact of (follows_execCfgtok hf)
  case drain f => exact of (follows_execDrain hf)
  case sklat f => exact of (follows_execSklat hf)
  case skmix f => exact of (follows_execSkmix hf)
  case skemb f => exact of (follows_execSkemb hf)
  case skpos f => exact of (follows_execSkpos hf)
  case skhash f => exact of (follows_execSkhash hf)
  case collapseMax f => exact of (follows_execCollapseMax hf)
  case ld f => exact of (follows_execLd hf)
  case st f => exact of (follows_execSt hf)
  case lds f => exact of (follows_execLds hf)
  case sts f => exact of (follows_execSts hf)
  case ldv f => exact of (follows_execLdv hf)
  case stv f => exact of (follows_execStv hf)
  case reclaim f => exact of (follows_execReclaim hf)
  case stream f => exact of (follows_execStream hf)
  case streamKvBind f => exact of (follows_execStreamKvBind hf)
  case pref f => exact of (follows_execPref hf)
  case fence f => exact of (follows_execFence hf)
  case qfence f => exact of (follows_execQfence hf)
  case monitor f => exact of (follows_execMonitor hf)
  case waitm f => exact of (follows_execWaitm hf)
  case amoAdd f => exact of (follows_execAmoAdd hf)
  case amoAnd f => exact of (follows_execAmoAnd hf)
  case amoOr f => exact of (follows_execAmoOr hf)
  case amoXor f => exact of (follows_execAmoXor hf)
  case amoMin f => exact of (follows_execAmoMin hf)
  case amoMax f => exact of (follows_execAmoMax hf)
  case amoXchg f => exact of (follows_execAmoXchg hf)
  case amoFadd f => exact of (follows_execAmoFadd hf)
  case amoFmin f => exact of (follows_execAmoFmin hf)
  case amoFmax f => exact of (follows_execAmoFmax hf)
  case cas f => exact of (follows_execCas hf)
  case cas2 f => exact of (follows_execCas2 hf)
  case mm f => exact of (follows_execMm hf)
  case acczero f => exact of (follows_execAcczero hf)
  case accld f => exact of (follows_execAccld hf)
  case accst f => exact of (follows_execAccst hf)
  case copy f => exact of (follows_execCopy hf)
  case gath f => exact of (follows_execGath hf)
  case gathw f => exact of (follows_execGathw hf)
  case scat f => exact of (follows_execScat hf)
  case scatadd f => exact of (follows_execScatadd hf)
  case tblswap f => exact of (follows_execTblswap hf)
  case cbload f => exact of (follows_execCbload hf)
  case coll f => exact of (follows_execColl hf)
  case osend f => exact of (follows_execOsend hf)
  case orecv f => exact of (follows_execOrecv hf)
  case xsend f => exact of (follows_execXsend hf)
  case xget f => exact of (follows_execXget hf)
  case enghnd f => exact of (follows_execEnghnd hf)
  case eng f => exact of (follows_execEng hf)
  case qwait f => exact of (follows_execQwait hf)
  case bar f => exact of (follows_execBar hf)
  case bara f => exact of (follows_execBara hf)
  case barw f => exact of (follows_execBarw hf)
  case attime f => exact of (follows_execAttime hf)
  case elease f => exact of (follows_execElease hf)
  case yield f => exact of (follows_execYield hf)
  case brk f => exact of (follows_execBrk hf)
  case hcall f => exact of (follows_execHcall hf)
  case fpcset f => exact of (follows_execFpcset hf)
  case ckpt f => exact of (follows_execCkpt hf)
  case event f => exact of (follows_execEvent hf)
  case tokenArrival n => exact of (follows_execTokenArrival hf)
  case collisionRetry n => exact of (follows_execCollisionRetry hf)
  case gangIssue bay cell => exact memInv_gangIssue h
  case priorityAging n => exact of (follows_execPriorityAging hf)
  case blockFetch part frame exitNo => exact of (follows_execBlockFetch hf)
  case blockPlacement part frame => exact of (follows_execBlockPlacement hf)
  case blockCommit part frame => exact of (follows_execBlockCommit hf)
  case exitgResume n => exact of (follows_execExitgResume hf)
  case regionPlacement n => exact of (follows_execRegionPlacement hf)
  case regionDrainComplete bay region => exact of (follows_execRegionDrainComplete hf)
  case gcallSettled bay region => exact of (follows_execGcallSettled hf)
  case gretThaw bay region => exact of (follows_execGretThaw hf)
  case hostLaunchIntake part => exact of (follows_execHostLaunchIntake hf)
  case timedLaunchRelease part => exact of (follows_execTimedLaunchRelease hf)
  case launchAdmission part => exact of (x := execLaunchAdmission part s) (follows_execLaunchAdmission hf)
  case frameReload part bay => exact of (follows_execFrameReload hf)
  case deferredSpawnAllocation part bay => exact of (follows_execDeferredSpawnAllocation hf)
  case inboxAppend vf link off bytes => exact of (follows_execInboxAppend hf)
  case hostEngineMessageIntake part => exact of (follows_execHostEngineMessageIntake hf)
  case handlerInstallCommand r => exact of (follows_execHandlerInstallCommand hf)
  case mmCommand r n => exact of (follows_execMmCommand hf)
  case acczeroCommand r => exact of (follows_execAcczeroCommand hf)
  case accldCommand r n => exact of (follows_execAccldCommand hf)
  case accstCommand r n => exact of (follows_execAccstCommand hf)
  case copyCommand r n => exact of (follows_execCopyCommand hf)
  case copySeal r => exact of (follows_execCopySeal hf)
  case copyOpen r => exact of (follows_execCopyOpen hf)
  case gathCommand r n replies => exact of (follows_execGathCommand hf)
  case gathwCommand r n replies => exact of (follows_execGathwCommand hf)
  case scatCommand r n replies => exact of (follows_execScatCommand hf)
  case scataddCommand r n perm replies => exact of (follows_execScataddCommand hf)
  case tblswapCommand r => exact of (follows_execTblswapCommand hf)
  case cbloadCommand r => exact of (follows_execCbloadCommand hf)
  case collCommand r others => exact of (follows_execCollCommand hf)
  case osendCommand r routes => exact of (follows_execOsendCommand hf)
  case orecvCommand r => exact of (follows_execOrecvCommand hf)
  case xsendCommand r reply => exact of (follows_execXsendCommand hf)
  case xgetCommand r reply => exact of (follows_execXgetCommand hf)
  case commandRetirement r => exact of (follows_execCommandRetirement hf)
  case vdResWrite part v => exact of (follows_execVdResWrite hf)
  case functionLevelReset part => exact of (follows_execFunctionLevelReset hf)
  case pageWalk n => exact of (follows_execPageWalk hf)
  case streamElementIssue bay slot => exact of (follows_execStreamElementIssue hf)
  case accessPlacement n => exact of (follows_execAccessPlacement hf)
  case deterministicApply n => exact of (follows_execDeterministicApply hf)
  case configEccRecovery bay region => exact of (follows_execConfigEccRecovery hf)
  case checkpointRecovery bay region => exact of (follows_execCheckpointRecovery hf)
  case invalidationSubmit d => exact of (follows_execInvalidationSubmit hf)
  case invalidationDone n => exact of (follows_execInvalidationDone hf)
  case waitmTimeout n => exact of (follows_execWaitmTimeout hf)
  case spuriousWake n => exact of (follows_execSpuriousWake hf)
  case yieldExpiry n => exact of (follows_execYieldExpiry hf)
  case trapFrameAllocation part => exact of (follows_execTrapFrameAllocation hf)
  case hfqRelease part seq => exact of (follows_execHfqRelease hf)
  case hfqAbort part seq => exact of (follows_execHfqAbort hf)
  case preCtlSave part => exact of (follows_execPreCtlSave hf)
  case preemptSettled part => exact of (follows_execPreemptSettled hf)
  case preCtlRestore part => exact of (follows_execPreCtlRestore hf)
  case preCtlUnhalt part => exact of (follows_execPreCtlUnhalt hf)
  case partitionCreate part => exact of (follows_execPartitionCreate hf)
  case partitionDestroy part => exact of (follows_execPartitionDestroy hf)
  case partitionEntryWrite part off v => exact of (follows_execPartitionEntryWrite hf)
  case resizeGo part v => exact of (follows_execResizeGo hf)
  case resizeMigrate part order => exact of (follows_execResizeMigrate hf)
  case resizeSliceRehash part => exact of (follows_execResizeSliceRehash hf)
  case resizeChannelRehash part => exact of (follows_execResizeChannelRehash hf)
  case resizeScrub part => exact of (follows_execResizeScrub hf)
  case resizeComplete part => exact of (follows_execResizeComplete hf)
  case windowRegisterWrite off v => exact of (follows_execWindowRegisterWrite hf)
  case watchdogHit part region a b => exact of (follows_execWatchdogHit hf)
  case podTimeTick => exact memInv_podTimeTick h
  case beaconSend port => exact of (follows_execBeaconSend hf)
  case beaconReceive port hdr => exact of (follows_execBeaconReceive hf)
  case ordPacketArrival port hdr payload => exact of (follows_execOrdPacketArrival hf)
  case orderedHoldMove part => exact of (follows_execOrderedHoldMove hf)
  case fWmstall => exact of (follows_execFWmstall hf)
  case trainingRetry port => exact of (follows_execTrainingRetry hf)
  case quiesceRequest force => exact of (follows_execQuiesceRequest hf)
  case flitReceive port flit => exact of (follows_execFlitReceive hf)
  case flitReplay port fseq => exact of (follows_execFlitReplay hf)
  case laneSpare port lane => exact of (follows_execLaneSpare hf)
  case portTraining port info => exact of (follows_execPortTraining hf)
  case leaveFlit port => exact of (follows_execLeaveFlit hf)
  case trootWrite v => exact of (follows_execTrootWrite hf)
  case quiesceAbort => exact of (follows_execQuiesceAbort hf)
  case firmwareUpdate image => exact of (follows_execFirmwareUpdate hf)
  case attReq nonce => exact of (follows_execAttReq hf)
  case bringUpPhase ok failed => exact of (follows_execBringUpPhase hf)
  case pcieLinkDown link => exact of (follows_execPcieLinkDown hf)
  case hostBar2Access part gpa size write => exact of (follows_execHostBar2Access hf)
  case remoteAccess part va size write => exact of (follows_execRemoteAccess hf)
  case keySlotWrite part k v => exact of (follows_execKeySlotWrite hf)
  case ordExclWrite v => exact of (follows_execOrdExclWrite hf)
  case pkgPcapWrite v => exact of (follows_execPkgPcapWrite hf)
  case energyReconciliation rail => exact of (follows_execEnergyReconciliation hf)
  case packageReset => exact memInv_packageReset h
  case bayHeldCalendarPeriod => exact of (follows_execBayHeldCalendarPeriod hf)

theorem runInst_memInv (i : Inst) (h : MemInv s) : OnNext MemInv (runInst i s) := by
  unfold runInst
  split
  · exact exec_memInv (s := { s with cur := i }) _ h
  · trivial

theorem retryInst_memInv (n : Nat) (h : MemInv s) : OnNext MemInv (retryInst n s) := by
  unfold retryInst
  split
  · exact iteInduction (fun _ => (follows_wakeInst (.refl s)).inv h) fun _ => h
  · trivial

theorem idleStep_memInv (h : MemInv s) : OnNext MemInv (idleStep s) := by
  unfold idleStep
  split
  · next rest _ => exact exec_memInv (s := { s with script := rest }) _ h
  · next rest _ => exact retryInst_memInv (s := { s with script := rest }) _ h
  · split
    · exact exec_memInv _ h
    · split
      · exact retryInst_memInv _ h
      · exact exec_memInv _ h

theorem step_memInv (h : MemInv s) : OnNext MemInv (step s) := by
  unfold step
  split
  · next rest _ => exact runInst_memInv (s := { s with pipe := rest }) _ h
  · exact idleStep_memInv h

end Sys2Proof.Machine

open Sys2Proof.Machine

/-- Settles O53: what a step answers follows from the state before it. -/
theorem memoryFormKept : Obligations.MemoryFormKept := by
  unfold Obligations.MemoryFormKept
  intro s t hs ht
  have h := step_memInv hs
  rw [ht] at h
  exact h
end

section
/-! Time, beacons, energy and power capping (O57; R198, R203, R204, R239, R267, R268, R273, R274). -/
namespace Sys2Proof.Machine

section
variable {s : State}

/-! ### The tick (R198, R239) -/

section
variable {k : Pkg}

theorem slew_idle (h : k.drift = 0 ∨ k.cycle < k.slewAt) : slew k = (1, k.slewAt, k.drift) := by
  have hc : (k.drift == 0 || decide (k.cycle < k.slewAt)) = true := by simpa using h
  simp only [slew, hc, if_true]

variable (h : ¬ (k.drift = 0 ∨ k.cycle < k.slewAt))
include h

theorem slew_ahead (hd : 0 < k.drift) : slew k = (2, k.cycle + 256, k.drift - 1) := by
  have hc : (k.drift == 0 || decide (k.cycle < k.slewAt)) = false := by simpa using h
  simp only [slew, hc, hd, Bool.false_eq_true, if_false, if_true]

theorem slew_behind (hd : k.drift < 0) : slew k = (0, k.cycle + 256, k.drift + 1) := by
  have hc : (k.drift == 0 || decide (k.cycle < k.slewAt)) = false := by simpa using h
  simp only [slew, hc, Int.not_lt.mpr (Int.le_of_lt hd), Bool.false_eq_true, if_false]

theorem slew_at : (slew k).2.1 = k.cycle + 256 := by
  rcases Int.lt_trichotomy k.drift 0 with hd | hd | hd
  · rw [slew_behind h hd]
  · exact absurd (.inl hd) h
  · rw [slew_ahead h hd]

end

/-- The clock after the cycle has passed. -/
theorem clock_ticked : clock (ticked s) =
    (s.pkg.cycle + 1, s.pkg.podTime + BitVec.ofNat 64 (slew s.pkg).1, (slew s.pkg).2.1, [], s.script) := rfl

/-- The state at the end of the cycle: a period that ends puts its event on the script. -/
def tickEnd (s : State) : State :=
  if periodEnd s then { s with script := s.script ++ [.ev .bayHeldCalendarPeriod] } else s

theorem exec_podTimeTick : exec .podTimeTick s = .next (tickEnd (moved (ticked s))) := rfl

section
variable {t : State}

theorem tickEnd_pkg : (tickEnd t).pkg = t.pkg := by
  unfold tickEnd
  split <;> rfl

theorem tickEnd_issued : (tickEnd t).issued = t.issued := by
  unfold tickEnd
  split <;> rfl

theorem tickEnd_script (h : t.pkg.cycle % 1024 = 0) : (tickEnd t).script = t.script ++ [.ev .bayHeldCalendarPeriod] := by
  have hp : periodEnd t = true := beq_iff_eq.mpr h
  simp only [tickEnd, hp, if_true]

end

/-- What the tick says of the clock (R198): the work that moves in a cycle leaves the clock as the cycle set it. -/
theorem tick_clock : ∃ t, exec .podTimeTick s = .next t ∧ t.pkg.cycle = s.pkg.cycle + 1 ∧ t.issued = [] ∧
    t.pkg.podTime = s.pkg.podTime + BitVec.ofNat 64 (slew s.pkg).1 ∧ t.pkg.slewAt = (slew s.pkg).2.1 ∧
    (t.pkg.cycle % 1024 = 0 → t.script = s.script ++ [.ev .bayHeldCalendarPeriod]) := by
  have h := (follows_moved (.refl (ticked s))).clock.trans clock_ticked
  simp only [clock, Prod.mk.injEq] at h
  obtain ⟨hcycle, hpod, hslew, hissued, hscript⟩ := h
  refine ⟨_, exec_podTimeTick, ?_, tickEnd_issued.trans hissued, ?_, ?_, fun hp => ?_⟩
  · rw [tickEnd_pkg, hcycle]
  · rw [tickEnd_pkg, hpod]
  · rw [tickEnd_pkg, hslew]
  · rw [tickEnd_pkg] at hp
    rw [tickEnd_script hp, hscript]

/-! ### Beacons (R203, R204) -/

/-- A beacon's header as a number, by its fields: class 2 and length 0. -/
def beaconNat (stamp wm src dst grp : Nat) : Nat :=
  stamp * 2 ^ 208 + wm * 2 ^ 160 + src * 2 ^ 111 + dst * 2 ^ 90 + grp * 2 ^ 82 + 2 * 2 ^ 80

section
variable {stamp wm src dst grp : Nat}

theorem beaconNat_len : beaconNat stamp wm src dst grp / 2 ^ 64 % 2 ^ 16 = 0 := by
  unfold beaconNat
  omega

theorem beaconNat_cls : beaconNat stamp wm src dst grp / 2 ^ 80 % 2 ^ 2 = 2 := by
  unfold beaconNat
  omega

variable (hd : dst < 2 ^ 17) (hg : grp < 2 ^ 8) (hn : src < 2 ^ 17)
include hd hg hn

theorem beaconNat_src : beaconNat stamp wm src dst grp / 2 ^ 111 % 2 ^ 17 = src := by
  unfold beaconNat
  omega

variable (hw : wm < 2 ^ 48)
include hw

theorem beaconNat_wm : beaconNat stamp wm src dst grp / 2 ^ 160 % 2 ^ 48 = wm := by
  unfold beaconNat
  omega

variable (hs : stamp < 2 ^ 48)
include hs

theorem beaconNat_stamp : beaconNat stamp wm src dst grp / 2 ^ 208 % 2 ^ 48 = stamp := by
  unfold beaconNat
  omega

theorem beaconNat_lt : beaconNat stamp wm src dst grp < 2 ^ 256 := by
  unfold beaconNat
  omega

end

theorem fld_ofNat {x : Nat} (hx : x < 2 ^ 256) (lo len : Nat) : fld (BitVec.ofNat 256 x) lo len = x / 2 ^ lo % 2 ^ len := by
  rw [fld, nbits, BitVec.toNat_ofNat, Nat.mod_eq_of_lt hx, pow2_eq_two_pow, natShiftRight_eq_div_pow]

theorem extract_ofNat {x : Nat} (hx : x < 2 ^ 256) (lo : Nat) {y : BitVec 48} (h : x / 2 ^ lo % 2 ^ 48 = y.toNat) :
    BitVec.extractLsb' lo 48 (BitVec.ofNat 256 x) = y := by
  apply BitVec.eq_of_toNat_eq
  rw [BitVec.extractLsb'_toNat, BitVec.toNat_ofNat, Nat.mod_eq_of_lt hx, Nat.shiftRight_eq_div_pow, h]

theorem fld_lt {n : Nat} (x : BitVec n) (lo len : Nat) : fld x lo len < 2 ^ len := by
  rw [fld, nbits, pow2_eq_two_pow]
  exact Nat.mod_lt _ (Nat.two_pow_pos len)

section
variable {k : Nat} {x : Port}

/-- The header of the beacon that a port sends: the package's time and number, the watermark, and the partner. -/
def beaconOf (s : State) (x : Port) (k : Nat) : Nat :=
  beaconNat (podStamp s).toNat (wmoOf s x k).toNat s.pkg.number.toNat (x.peer % 2 ^ 17) (fld (freshWord s).1 0 8)

theorem peer_lt : x.peer % 2 ^ 17 < 2 ^ 17 := Nat.mod_lt _ (Nat.two_pow_pos 17)

theorem beaconOf_lt : beaconOf s x k < 2 ^ 256 :=
  beaconNat_lt peer_lt (fld_lt ..) (BitVec.isLt _) (BitVec.isLt _) (BitVec.isLt _)

theorem hdStamp_beacon : hdStamp (BitVec.ofNat 256 (beaconOf s x k)) = podStamp s :=
  extract_ofNat beaconOf_lt 208 (beaconNat_stamp peer_lt (fld_lt ..) (BitVec.isLt _) (BitVec.isLt _) (BitVec.isLt _))

theorem hdWm_beacon : hdWm (BitVec.ofNat 256 (beaconOf s x k)) = wmoOf s x k :=
  extract_ofNat beaconOf_lt 160 (beaconNat_wm peer_lt (fld_lt ..) (BitVec.isLt _) (BitVec.isLt _))

theorem hdSrc_beacon : hdSrc (BitVec.ofNat 256 (beaconOf s x k)) = s.pkg.number.toNat :=
  (fld_ofNat beaconOf_lt 111 17).trans (beaconNat_src peer_lt (fld_lt ..) (BitVec.isLt _))

theorem hdCls_beacon : hdCls (BitVec.ofNat 256 (beaconOf s x k)) = 2 := (fld_ofNat beaconOf_lt 80 2).trans beaconNat_cls

theorem hdLen_beacon : hdLen (BitVec.ofNat 256 (beaconOf s x k)) = 0 := (fld_ofNat beaconOf_lt 64 16).trans beaconNat_len

/-- Bytes that fit one flit enter a replay buffer that has room for one. -/
theorem sendBytes_one {ft : Nat} {bs : List Byte} (hr : x.replay.length < 512) (hb : bs.length ≤ 236) : ∃ y, sendBytes x ft bs = some y := by
  have hlen : (packetFlits (ackOf x) 36 x.fseqOut ft bs).length = 1 := by simp only [packetFlits, hb, if_true, List.length_singleton]
  exact ⟨_, if_neg (by rw [hlen]; omega)⟩

theorem exec_beaconSend {y : Port × Nat} (hp : s.pkg.ports[k]? = some x) (h5 : x.state = 5) (hl : x.lastSent + 640 ≤ s.pkg.podTime.toNat)
    (hy : sendBytes x 1 (toBytes 32 (BitVec.ofNat 256 (beaconOf s x k)).toNat) = some y) :
    exec (.beaconSend k) s = .next (chargeInfra (modPort { s with fresh := s.fresh + 1 } k fun _ =>
      { y.1 with wmo := wmoOf s x k, lastSent := s.pkg.podTime.toNat }) y.2) := by
  have hdue : (x.state != 5 || decide (s.pkg.podTime.toNat < x.lastSent + 640)) = false := by simp [h5, hl]
  have hnum : (podStamp s).toNat * pow2 208 + (wmoOf s x k).toNat * pow2 160 + s.pkg.number.toNat * pow2 111 + x.peer % pow2 17 * pow2 90 +
      fld (freshWord s).1 0 8 * pow2 82 + 2 * pow2 80 = beaconOf s x k := by
    simp only [pow2_eq_two_pow]
    rfl
  simp only [exec, execBeaconSend, hp, hdue, hnum, hy, Bool.false_eq_true, if_false]
  rfl

variable {h : BitVec 256} (hup : portUp s k = true) (hc : hdCls h = 2)
include hup hc

theorem exec_beaconReceive : exec (.beaconReceive k h) s = .next (takeBeacon s k h) := by
  simp only [exec, execBeaconReceive, hup, hc, bne_self_eq_false, Bool.not_true, Bool.or_self, Bool.false_eq_true, if_false]

theorem exec_beaconReceive_near (hs : stampNear s (hdStamp h) = true) (hw : stampNear s (hdWm h) = true) :
    exec (.beaconReceive k h) s = .next (deliverOrd (heedParent (raiseWmi s k (hdWm h)) k (hdStamp h))) := by
  rw [exec_beaconReceive hup hc]
  simp only [takeBeacon, hs, hw, Bool.and_self, Bool.not_true, Bool.false_eq_true, if_false]

theorem exec_beaconReceive_far (hf : stampNear s (hdStamp h) = false ∨ stampNear s (hdWm h) = false) :
    exec (.beaconReceive k h) s = .next (linkFault s k) := by
  have hfar : (stampNear s (hdStamp h) && stampNear s (hdWm h)) = false := Bool.and_eq_false_iff.mpr hf
  rw [exec_beaconReceive hup hc]
  simp only [takeBeacon, hfar, Bool.not_false, if_true]

end

/-! ### Energy and capping (R268, R274) -/

theorem exec_pkgPcapWrite_reset {v : Nat} (h : s.pkg.phase = 15) : exec (.pkgPcapWrite v) s = .next s := by
  simp only [exec, execPkgPcapWrite, h, beq_self_eq_true, if_true]

theorem exec_pkgPcapWrite {v : Nat} (h : s.pkg.phase ≠ 15) :
    exec (.pkgPcapWrite v) s = .next (modPkg s fun k => { k with pcap := pcapOf v, pcapAt := some k.cycle }) := by
  simp only [exec, execPkgPcapWrite, beq_false_of_ne h, Bool.false_eq_true, if_false]

theorem pcapOf_toNat (v : Nat) : (pcapOf v).toNat = max 800 (min 3200 v) := by
  have hlt : max 800 (min 3200 v) < 2 ^ 32 := by omega
  exact (BitVec.toNat_ofNat _ _).trans (Nat.mod_eq_of_lt hlt)

theorem exec_energyReconciliation_early {rail : Nat} (h : s.pkg.cycle / 2500000 ≤ s.pkg.recMs) : exec (.energyReconciliation rail) s = .next s :=
  if_pos h

theorem exec_energyReconciliation {rail : Nat} (h : s.pkg.recMs < s.pkg.cycle / 2500000) :
    exec (.energyReconciliation rail) s = .next (modPkg
      { s with parts := s.parts.map (settleEnergy ((s.parts.map (·.msCharge)).sum * 1000000) ((rail * 1000000 : Nat) - (unownedFj s : Int))) }
      fun k => { k with
        power := BitVec.ofNat 32 (rail / 1000000), pcHold := nextHold k.pcHold (rail / 1000000) k.pcap.toNat, infra := 0, recMs := msNow k }) :=
  if_neg (Nat.not_le.mpr h)

section
variable {h p c : Nat}

theorem nextHold_over (hp : c < p) : nextHold h p c = min 63 (h + (64 * (p - c) + p - 1) / p) := if_pos hp

variable (hp : p ≤ c)
include hp

theorem nextHold_falls (hl : 16 * p ≤ 16 * c - c) (hh : 0 < h) : nextHold h p c = h - 1 := by
  have hlow : (decide (16 * p ≤ 15 * c) && decide (0 < h)) = true := by simp; omega
  exact (if_neg (Nat.not_lt.mpr hp)).trans (if_pos hlow)

theorem nextHold_stays (hl : 16 * c - c < 16 * p ∨ h = 0) : nextHold h p c = h := by
  have hlow : ¬ (decide (16 * p ≤ 15 * c) && decide (0 < h)) = true := by simp; omega
  exact (if_neg (Nat.not_lt.mpr hp)).trans (if_neg hlow)

end

/-- A hold of at most 63 of 64 leaves a partition that owns slots at least one (R274). -/
theorem held_lt {n h : Nat} (hh : h ≤ 63) (hn : 0 < n) : n * h / 64 < n := by
  have : n * h ≤ n * 63 := Nat.mul_le_mul_left n hh
  omega

section
variable {p : Nat} (hh : s.pkg.pcHold ≤ 63)
include hh

theorem issueSlots_eq : issueSlots s p =
    ((setBits (calSlots (part s p)) 64).take
      ((setBits (calSlots (part s p)) 64).length - (setBits (calSlots (part s p)) 64).length * s.pkg.pcHold / 64)).filter
      (fun n => !s.pkg.calFreed.contains (n, s.pkg.cycle / 1024)) := by
  unfold issueSlots
  generalize setBits (calSlots (part s p)) 64 = owned
  dsimp only
  cases owned with
  | nil => simp only [List.take_nil, List.filter_nil]
  | cons n l =>
    have hlt := held_lt (n := (n :: l).length) hh (Nat.succ_pos _)
    have hmax : Nat.max 1 ((n :: l).length - (n :: l).length * s.pkg.pcHold / 64) = (n :: l).length - (n :: l).length * s.pkg.pcHold / 64 :=
      Nat.max_eq_right (by omega)
    rw [hmax]
    rfl

theorem issueSlots_ne_nil (ho : setBits (calSlots (part s p)) 64 ≠ []) (hf : s.pkg.calFreed = []) : issueSlots s p ≠ [] := by
  rw [issueSlots_eq hh, hf]
  generalize setBits (calSlots (part s p)) 64 = owned at ho
  have hlt := held_lt (n := owned.length) hh (List.length_pos_iff.mpr ho)
  have hall : owned.take (owned.length - owned.length * s.pkg.pcHold / 64) ≠ [] := by
    rw [ne_eq, List.take_eq_nil_iff]
    exact not_or.mpr ⟨by omega, ho⟩
  rw [List.filter_eq_self.mpr fun _ _ => by rw [List.contains_nil]; rfl]
  exact hall

end

/-! ### Watchdogs (R273) -/

theorem exec_watchdogHit_frame {p n : Nat} {f : Frame} (hf : frame? s p n = some f) (hr : f.resident = true) (ho : operandsWait s p n = true)
    (hw : waitsByRight s p n = false) (hd : wdOver s p f.progress = true) : exec (.watchdogHit p false n 0) s =
      .next (wdReport (modFrame s p n fun f => { f with progress := reported }) p (BitVec.ofNat 32 n)) := by
  simp only [exec, execWatchdogHit, hf, hr, ho, hw, hd, Bool.not_true, Bool.or_self, Bool.false_eq_true, if_false]

end

end Sys2Proof.Machine

open Sys2Proof.Machine

/-- Settles O57: the tick by what a cycle's work leaves of the clock, the beacon by the fields of its header, the others by their equations. -/
theorem timeAndPower : Obligations.TimeAndPower := by
  unfold Obligations.TimeAndPower
  intro s
  refine ⟨?tick, ?send, ?receive, rfl, fun v h => exec_pkgPcapWrite_reset h, ?pcap, fun rail h => exec_energyReconciliation_early h, ?rec, ?slots,
    fun p n f hf hr ho hw hd => exec_watchdogHit_frame hf hr ho hw hd⟩
  case tick =>
    obtain ⟨t, hexec, hcycle, hissued, hpod, hslew, hscript⟩ := tick_clock (s := s)
    refine ⟨t, hexec, hcycle, hissued, fun hi => ?_, fun hi => ⟨hslew.trans (slew_at hi), fun hd => ?_, fun hd => ?_⟩, hscript⟩
    · rw [slew_idle hi] at hpod hslew
      exact ⟨hpod, hslew⟩
    · rw [slew_ahead hi hd] at hpod
      exact hpod
    · rw [slew_behind hi hd] at hpod
      exact hpod.trans (BitVec.add_zero _)
  case send =>
    intro k x hp h5 hl hr
    obtain ⟨y, hy⟩ := sendBytes_one (ft := 1) (bs := toBytes 32 (BitVec.ofNat 256 (beaconOf s x k)).toNat) hr (by rw [toBytes_length]; omega)
    exact ⟨_, y, hdStamp_beacon, hdWm_beacon, hdCls_beacon, hdSrc_beacon, hdLen_beacon, hy, exec_beaconSend hp h5 hl hy⟩
  case receive => exact fun k h hup hc => ⟨exec_beaconReceive_near hup hc, exec_beaconReceive_far hup hc⟩
  case pcap => exact fun v h => ⟨_, exec_pkgPcapWrite h, pcapOf_toNat v, rfl, rfl⟩
  case rec =>
    intro rail h
    exact ⟨_, exec_energyReconciliation h, rfl, rfl, rfl, rfl, nextHold_over, nextHold_falls, nextHold_stays⟩
  case slots => exact fun p hh => ⟨issueSlots_eq hh, issueSlots_ne_nil hh⟩
end
